-- ==== Sys2Proof/Word.lean ====
section
/-! DEFINITION. The machine's words, lane masks and lane vectors, and the sparse table that holds numbered things. -/

namespace Sys2Proof

abbrev Byte := BitVec 8
abbrev W32 := BitVec 32
abbrev W64 := BitVec 64

/-- One bit per lane, bit l for lane l; a group of W lanes uses bits [W-1:0]. -/
abbrev Mask := BitVec 64

/-- One 32-bit value per lane, lane 0 first; a lane past the end of the list holds zero. -/
abbrev Lanes := List W32

/-- Numbered things held sparsely, in rising number; a number that is not listed holds the default. -/
abbrev Tab (α : Type) := List (Nat × α)

/-- The value of number `k` in `t`, `d` where none is listed. -/
def Tab.get {α : Type} (t : Tab α) (d : α) (k : Nat) : α :=
  match t with
  | [] => d
  | (j, a) :: rest => if j = k then a else Tab.get rest d k

/-- The value of number `k` in `t`, if one is listed. -/
def Tab.find {α : Type} (t : Tab α) (k : Nat) : Option α :=
  match t with
  | [] => none
  | (j, a) :: rest => if j = k then some a else Tab.find rest k

/-- `t` with number `k` holding `a`, kept in rising number. -/
def Tab.set {α : Type} (t : Tab α) (k : Nat) (a : α) : Tab α :=
  match t with
  | [] => [(k, a)]
  | (j, b) :: rest =>
    if k < j then (k, a) :: (j, b) :: rest
    else if k = j then (k, a) :: rest
    else (j, b) :: Tab.set rest k a

/-- `t` with number `k` no longer listed. -/
def Tab.erase {α : Type} (t : Tab α) (k : Nat) : Tab α :=
  match t with
  | [] => []
  | (j, b) :: rest => if j = k then rest else (j, b) :: Tab.erase rest k

/-- `t` with every listed value changed by `f`. -/
def Tab.mapV {α : Type} (t : Tab α) (f : α → α) : Tab α := t.map (fun e => (e.1, f e.2))

end Sys2Proof
end

