-- ==== Sys2Proof/Config.lean ====
section
/-! DEFINITION. What an implementation fixes and the spec leaves open: free values without a body, and the build's fixed figures. -/

namespace Sys2Proof.Config

/-- The seal of bits [63:14] of a capability under a key (rule R186).
The spec gives the width of CHECK and no function, so it is a free value. -/
opaque capSeal : (key : W64) → BitVec 50 → BitVec 14

/-- The capability key drawn at the n-th package reset (rules R186, R459). -/
opaque drawKey : Nat → W64

/-- A fresh unstated value; the state's counter `State.free` numbers the draws. -/
opaque freeWord : Nat → W64

/-- The value an accumulator row that carries a poison mark gains (rule R221: its values are unspecified). -/
opaque poisonedSum : Nat → W64


/-- SHA-512 of a string of bytes (rules R463, R464). -/
opaque sha512 : List Byte → BitVec 512

/-- The ECDSA P-521 signature pair (r, s) of a digest under the private identity key (rule R464). -/
opaque ecdsaSign : (key : W64) → BitVec 512 → BitVec 528 × BitVec 528

/-- The point of an identity key's public key: x and y, 66 bytes each (rule R464). -/
opaque identityPublic : (key : W64) → BitVec 1056

/-- Whether the P-521 signature held in a firmware image verifies (rule R463). -/
opaque signatureVerifies : List Byte → Bool

/-- Whether the vendor part of a copy of the configuration block verifies under the firmware key, and its field part under the device's
identity key (rule R462). -/
opaque vendorVerifies : List Byte → Bool
opaque fieldVerifies : (key : W64) → List Byte → Bool

/-- What the field part of a copy records, in a layout that the spec does not give (rule R462): whether a port uses the fifth lane (bit 3) and
for which it stands (bits 1:0), and the spare maps of term-array rows and L2 ways and the retired channels, as numbers. -/
opaque fieldRepair : List Byte → Nat → BitVec 4
opaque fieldRows : List Byte → List Nat
opaque fieldWays : List Byte → List Nat
opaque fieldChannels : List Byte → List Nat

/-- A copy with a new field part, signed with the identity key, that records a port's repair of a lane and has a higher sequence number
(rules R435, R462). -/
opaque fieldWith : (key : W64) → List Byte → (port lane : Nat) → List Byte

/-- Where flash holds image slot 0 or 1, and copy A (0) or B (1) of the configuration block: offset and size (rules R462, R463). -/
opaque imageRange : Nat → Nat × Nat
opaque copyRange : Nat → Nat × Nat

/-- The public key and version a firmware image carries, and the key digest in the boot ROM (rule R463). -/
opaque imageKey : List Byte → List Byte
opaque imageVersion : List Byte → W64
opaque romDigest : BitVec 512

/-- The rollback floor and the sequence number of a copy of the configuration block (rule R462). -/
opaque rollbackFloor : List Byte → W64
opaque copySequence : List Byte → W64

/-- Packages in the pod (rule R432). -/
opaque podPackages : BitVec 32

/-- The identity key the unclonable function derives at the n-th reset (rule R463). -/
opaque deriveIdentity : Nat → W64

/-- The ECC syndrome recorded with an error at an address (rule R415). -/
opaque syndrome : Nat → W64

/-- A cost that firmware measures at the n-th reset (rules R432, R433): reset, entry, field. -/
opaque measuredCost : Nat → Nat → Nat → BitVec 16

/-- Where firmware keeps partition `p`'s copy of the scope table: its virtual address (SCOPETAB), and the number of its 256 bytes of device
memory (rule R432; log entry 99). -/
opaque scopeVa : Nat → BitVec 57
opaque scopePlace : Nat → BitVec 37

/-- Where the signed configuration block places core pair `p` (0 to 47) of stack `k`, as number 48 × k + p (rules R426, R461): the
quadrant, where the placement is one that the package can hold. -/
opaque pairSite : Nat → Nat

/-- Whether the placement puts no more than the 13 pairs of its 26 sites into a quadrant of stack `k` (rules R1, R426). -/
def placementFits (k : Nat) : Bool :=
  (List.range 4).all (fun q => decide (((List.range 48).filter (fun p => pairSite (48 * k + p) % 4 == q)).length ≤ 13))

/-- The quadrant of a core's site, 0 to 3 on stack 0 and 4 to 7 on stack 1 (rules R1, R426, R461): both cores of a pair stand in one, and a
quadrant has 26 sites. -/
def coreQuadrant (core : Nat) : Nat :=
  let k := core / 96
  let p := core % 96 / 2
  4 * k + (if placementFits k then pairSite (48 * k + p) % 4 else p % 4)

/-- Which of two bytes an access returns where the spec allows either (rules R180, R255, R355). -/
opaque eitherValue : Nat → Bool

/-- Live cores per stack, stacks per package (rule R1). -/
def coresPerStack : Nat := 96
def coresPerPackage : Nat := 192
/-- Granules of a core's physical register pool, and of its trap reserve (rules R16, R32). -/
def poolGranules : Nat := 8192
def trapGranules : Nat := 256
/-- Group slots and issue slots of a core (rules R148, R158). -/
def groupSlots : Nat := 64
def issueSlots : Nat := 4
/-- Bytes of device memory of one package: 384 GiB (rules R4, R260). -/
def deviceBytes : Nat := 0x6000000000
/-- Accumulator rows of a core (rule R222). -/
def accRows : Nat := 512

/-- The device address of partition `p`'s copy of the scope table, in this package's memory (rule R432). -/
def scopeAt (p : Nat) : Nat := 256 * ((scopePlace p).toNat % (deviceBytes / 256))

end Sys2Proof.Config
end

