-- ==== Sys2Proof/Syntax.lean ====
section
/-! DEFINITION. The instruction formats of rules R41 to R57 and the one inductive of the opcode table's rows: the
148 instruction words of rule R59, and the 100 package events (a completion, a timer, a host or management act) that the
table lists beside them. -/

namespace Sys2Proof

/-- Format R (rules R41, R46). -/
structure FmtR where
  d : BitVec 7
  a : BitVec 7
  b : BitVec 7
  c : BitVec 7
  la : BitVec 1
  lb : BitVec 1
  lc : BitVec 1
  g : BitVec 7
  gn : BitVec 1
  ge : BitVec 1
  y : BitVec 1
  sd : BitVec 2
  sa : BitVec 2
  sb : BitVec 2
  sc : BitVec 2
  ty : BitVec 4
  opx : BitVec 3
  deriving DecidableEq, Repr

/-- Format I (rule R50); `imm` is the 23-bit immediate of its three parts. -/
structure FmtI where
  d : BitVec 7
  a : BitVec 7
  sd : BitVec 1
  tyi : BitVec 3
  opx : BitVec 3
  la : BitVec 1
  sa : BitVec 1
  g : BitVec 7
  gn : BitVec 1
  ge : BitVec 1
  y : BitVec 1
  imm : BitVec 23
  deriving DecidableEq, Repr

/-- Format K (rule R51), the format of MOVI. -/
structure FmtK where
  d : BitVec 7
  imm32 : W32
  ge : BitVec 1
  y : BitVec 1
  g : BitVec 7
  gn : BitVec 1
  sd : BitVec 2
  part : BitVec 2
  rsv : BitVec 3
  deriving DecidableEq, Repr

/-- Format B (rule R52), structured control. -/
structure FmtB where
  rsvHi : BitVec 7
  p : BitVec 7
  pn : BitVec 1
  off : BitVec 24
  pe : BitVec 1
  y : BitVec 1
  rsvLo : BitVec 15
  deriving DecidableEq, Repr

/-- Format X (rule R54), the term instructions. -/
structure FmtX where
  d : BitVec 7
  a : BitVec 7
  b : BitVec 7
  c : BitVec 7
  la : BitVec 1
  lb : BitVec 1
  lc : BitVec 1
  fbk : BitVec 6
  rsv : BitVec 3
  y : BitVec 1
  cwk : BitVec 6
  xop : BitVec 9
  deriving DecidableEq, Repr

/-- Format M (rule R55), memory; `disp` is field [34:28], DISP or the third operand. -/
structure FmtM where
  d : BitVec 7
  a : BitVec 7
  b : BitVec 7
  disp : BitVec 7
  la : BitVec 1
  lb : BitVec 1
  lc : BitVec 1
  g : BitVec 7
  gn : BitVec 1
  ge : BitVec 1
  y : BitVec 1
  tr : BitVec 3
  size : BitVec 3
  scope : BitVec 3
  ord : BitVec 2
  hint : BitVec 2
  sc : BitVec 1
  sa : BitVec 1
  deriving DecidableEq, Repr

/-- Format S (rule R57), the system instructions. -/
structure FmtS where
  d : BitVec 7
  a : BitVec 7
  sel : BitVec 14
  la : BitVec 1
  rsv : BitVec 2
  g : BitVec 7
  gn : BitVec 1
  ge : BitVec 1
  y : BitVec 1
  sd : BitVec 2
  sa : BitVec 2
  sop : BitVec 11
  deriving DecidableEq, Repr

/-- What a transaction of another package asks of this one (rules R436 to R438, R441). -/
inductive RemoteOp where
  /-- Write these bytes at a device address, with the marks of the poisoned granules among them (R289). -/
  | write (addr : Nat) (bytes : List Byte) (bad : List Nat := [])
  /-- Read so many bytes at a device address. -/
  | read (addr n : Nat)
  /-- An atomic operation of rule R302: operation code, 4 or 8 bytes, operands, and whether it is a promoting acquire (R329). -/
  | atomic (addr : Nat) (opc : BitVec 5) (wide : Bool) (b c : W64) (prom : Bool)
  /-- One indivisible update of rule R304: operation code, 4 or 8 bytes, the operands of the lanes that name the address, and whether it is
  a promoting acquire (R329). -/
  | atomics (addr : Nat) (opc : BitVec 5) (wide : Bool) (bs : List W64) (prom : Bool)
  /-- A SEND delivery under a capability: sender width-64 lanes, `.b64`, `.rel`. -/
  | deliver (cap : W64) (mask : Mask) (lo hi : Lanes) (pair rel : Bool)
  deriving DecidableEq, Repr

/-- Where a corrected error occurred (rule R458). -/
inductive ErrPlace where
  | hbm
  | l2
  | ls
  deriving DecidableEq, Repr

/-- The rows of the opcode table. -/
inductive Instr where
  /-- NOP (R137). Does nothing beyond its yield bit. -/
  | nop (f : FmtS)
  /-- EXIT (R138). Ends the active lanes, removes them from every mask of every split and applies advance. -/
  | exit (f : FmtS)
  /-- TRAP (R139). Raises SOFT for the group with its SEL code when a lane is active. -/
  | trap (f : FmtS)
  /-- BKPT (R139). Raises BKPT for the group with its SEL code when a lane is active. -/
  | bkpt (f : FmtS)
  /-- SAFEPT (R140). Marks a safe point; it stops the split for a pending pre-emption, and otherwise acts as NOP. -/
  | safept (f : FmtS)
  /-- SREAD (R141). Writes the selected system register into the destination. -/
  | sread (f : FmtS)
  /-- SWRITE (R142). Writes a uniform register to the selected system register, following its access codes. -/
  | swrite (f : FmtS)
  /-- AWLIMIT_REQ_WRITE (R224). A leader's write of REQ to sys.awlimit makes an allocation request, and the team's term instructions are held until it is served. -/
  | awlimitReqWrite (core : Nat) (slot : Nat) (req : W64)
  /-- ACCUMULATOR_ALLOCATION (R224). Once earlier term instructions are done and a free run of rows exists, releases the old rows, zeroes the new rows, clears their marks and sets BASE and LIMIT. -/
  | accumulatorAllocation (tid : Nat)
  /-- CLK (R143). Writes the global timestamp or the core cycle counter, with .wait sampling only after earlier completions. -/
  | clk (f : FmtS)
  /-- RTH (R407). Frees the handler bank, restores the trapping split and resumes it at RA. -/
  | rth (f : FmtS)
  /-- ADD (R75). Integer add, wrapping or saturating, in register form. -/
  | add (f : FmtR)
  /-- SUB (R75). Integer subtract, in register form. -/
  | sub (f : FmtR)
  /-- MUL (R76). Integer multiply, with an optional wide result, in register form. -/
  | mul (f : FmtR)
  /-- MULHI (R76). Writes the high half of the exact product. -/
  | mulhi (f : FmtR)
  /-- MAD (R76). Multiply-add, wrapped once. -/
  | mad (f : FmtR)
  /-- DIV (R77). Integer division truncating toward zero, with defined results for zero and overflow. -/
  | div (f : FmtR)
  /-- REM (R77). Integer remainder with the sign of the dividend. -/
  | rem (f : FmtR)
  /-- MIN (R75). Integer minimum, in register form. -/
  | min (f : FmtR)
  /-- MAX (R75). Integer maximum, in register form. -/
  | max (f : FmtR)
  /-- ABS (R75). Integer absolute value, optionally saturating. -/
  | abs (f : FmtR)
  /-- NEG (R75). Integer negation, optionally saturating. -/
  | neg (f : FmtR)
  /-- LEA (R78). Forms a + (b << s) as an address or offset. -/
  | lea (f : FmtR)
  /-- AND (R79). Bitwise AND, optionally with b complemented, in register form. -/
  | and (f : FmtR)
  /-- OR (R79). Bitwise OR, in register form. -/
  | or (f : FmtR)
  /-- XOR (R79). Bitwise XOR, in register form. -/
  | xor (f : FmtR)
  /-- NOT (R79). Bitwise complement. -/
  | not (f : FmtR)
  /-- SHL (R80). Shift left, in register form. -/
  | shl (f : FmtR)
  /-- SHR (R80). Logical shift right, in register form. -/
  | shr (f : FmtR)
  /-- SAR (R80). Arithmetic shift right, in register form. -/
  | sar (f : FmtR)
  /-- ROT (R80). Rotate left, in register form. -/
  | rot (f : FmtR)
  /-- BFE (R81). Extracts a bit field, sign- or zero-extended, in register form. -/
  | bfe (f : FmtR)
  /-- BFI (R82). Inserts a bit field. -/
  | bfi (f : FmtR)
  /-- BREV (R83). Reverses the bit order. -/
  | brev (f : FmtR)
  /-- POPC (R83). Counts the set bits. -/
  | popc (f : FmtR)
  /-- CLZ (R83). Counts the leading zeros. -/
  | clz (f : FmtR)
  /-- CTZ (R83). Counts the trailing zeros. -/
  | ctz (f : FmtR)
  /-- TCNT (R84). Counts the non-adjacent-form terms per element, as a sum or a maximum. -/
  | tcnt (f : FmtR)
  /-- CMP (R85). Writes an integer comparison into a predicate, in register form. -/
  | cmp (f : FmtR)
  /-- PAND (R86). Predicate AND with optional inversions. -/
  | pand (f : FmtR)
  /-- POR (R86). Predicate OR with optional inversions. -/
  | por (f : FmtR)
  /-- PXOR (R86). Predicate XOR with optional inversions. -/
  | pxor (f : FmtR)
  /-- PNOT (R86). Predicate complement. -/
  | pnot (f : FmtR)
  /-- SEL (R87). Selects a or b per lane by a predicate. -/
  | sel (f : FmtR)
  /-- MOV (R88). Copies an operand between spaces, including to and from index registers. -/
  | mov (f : FmtR)
  /-- MOVI (R89). Writes a 32-bit immediate, or the high half of a uniform register. -/
  | movi (f : FmtK)
  /-- MOVX (R90). Reads an indexed register of a declared array, raising REGINDEX out of range. -/
  | movx (f : FmtR)
  /-- MOVXW (R90). Writes an indexed register of a declared array, raising REGINDEX out of range. -/
  | movxw (f : FmtR)
  /-- ADD_I (R91). Integer add with a 23-bit immediate. -/
  | addI (f : FmtI)
  /-- SUB_I (R91). Integer subtract of an immediate. -/
  | subI (f : FmtI)
  /-- MUL_I (R91). Integer multiply by an immediate. -/
  | mulI (f : FmtI)
  /-- AND_I (R91). Bitwise AND with an immediate. -/
  | andI (f : FmtI)
  /-- OR_I (R91). Bitwise OR with an immediate. -/
  | orI (f : FmtI)
  /-- XOR_I (R91). Bitwise XOR with an immediate. -/
  | xorI (f : FmtI)
  /-- SHL_I (R91). Shift left by an immediate count. -/
  | shlI (f : FmtI)
  /-- SHR_I (R91). Logical shift right by an immediate count. -/
  | shrI (f : FmtI)
  /-- SAR_I (R91). Arithmetic shift right by an immediate count. -/
  | sarI (f : FmtI)
  /-- ROT_I (R91). Rotate by an immediate count. -/
  | rotI (f : FmtI)
  /-- CMP_I (R91). Compares with an immediate into a predicate. -/
  | cmpI (f : FmtI)
  /-- MIN_I (R91). Integer minimum with an immediate. -/
  | minI (f : FmtI)
  /-- MAX_I (R91). Integer maximum with an immediate. -/
  | maxI (f : FmtI)
  /-- BFE_I (R91). Bit field extract with pos and len taken from the immediate. -/
  | bfeI (f : FmtI)
  /-- FADD (R118). Float add, rounded once. -/
  | fadd (f : FmtR)
  /-- FSUB (R118). Float subtract, rounded once. -/
  | fsub (f : FmtR)
  /-- FMUL (R118). Float multiply, rounded once. -/
  | fmul (f : FmtR)
  /-- FMA (R118). Fused multiply-add, rounded once. -/
  | fma (f : FmtR)
  /-- FMIN (R119). Float minimum with NaN and signed-zero rules. -/
  | fmin (f : FmtR)
  /-- FMAX (R119). Float maximum with NaN and signed-zero rules. -/
  | fmax (f : FmtR)
  /-- FCLASS (R120). Writes a one-hot class of the operand. -/
  | fclass (f : FmtR)
  /-- FRCP (R121). Reciprocal, correctly rounded. -/
  | frcp (f : FmtR)
  /-- FRSQ (R121). Reciprocal square root, correctly rounded. -/
  | frsq (f : FmtR)
  /-- FSQRT (R121). Square root, correctly rounded. -/
  | fsqrt (f : FmtR)
  /-- FEXP2 (R121). Base-2 exponential, correctly rounded. -/
  | fexp2 (f : FmtR)
  /-- FLOG2 (R121). Base-2 logarithm, correctly rounded. -/
  | flog2 (f : FmtR)
  /-- FCMP (R122). Writes a float comparison into a predicate. -/
  | fcmp (f : FmtR)
  /-- CVT (R124). Converts between float and integer types under rule R102. -/
  | cvt (f : FmtR)
  /-- IF (R129). Pushes an IF entry and narrows AM to the lanes whose condition holds. -/
  | ifThen (f : FmtB)
  /-- IFS (R154). Acts as IF, and may create a new split for the ELSE arm. -/
  | ifs (f : FmtB)
  /-- ELSE (R129). Switches AM to the pending lanes of the IF entry. -/
  | elseArm (f : FmtB)
  /-- ENDIF (R129). Restores OUTER and pops the IF entry, waiting in MERGE for a tagged partner. -/
  | endif (f : FmtB)
  /-- LOOP (R129). Pushes a LOOP entry. -/
  | loop (f : FmtB)
  /-- ENDLOOP (R129). Restores the CONTINUE lanes and either loops back or pops the LOOP entry. -/
  | endloop (f : FmtB)
  /-- BREAK (R130). Removes the breaking lanes from AM and from the inner IF entries. -/
  | breakLoop (f : FmtB)
  /-- CONTINUE (R130). Parks the lanes in CONT until the ENDLOOP. -/
  | continueLoop (f : FmtB)
  /-- CALL (R131). Pushes a CALL entry and jumps with the calling lanes. -/
  | call (f : FmtB)
  /-- RET (R131). Removes the returning lanes until the CALL entry is unwound. -/
  | ret (f : FmtB)
  /-- LXCH (R172). Exchanges values between lanes within segments. -/
  | lxch (f : FmtR)
  /-- PQRY (R174). Votes, masks or counts a predicate over the active lanes. -/
  | pqry (f : FmtR)
  /-- RED (R176). Reduces a value over the active lanes. -/
  | red (f : FmtR)
  /-- SCAN (R177). Writes an inclusive or exclusive prefix combination over the lanes. -/
  | scan (f : FmtR)
  /-- MATCH (R175). Writes to each lane the mask of the lanes holding an equal value. -/
  | matchLanes (f : FmtR)
  /-- ELECT (R174). Sets the predicate in the lowest active lane only. -/
  | elect (f : FmtR)
  /-- BCAST (R173). Broadcasts one lane's value. -/
  | bcast (f : FmtR)
  /-- TOPK (R178). Selects the k largest or smallest active lanes into a predicate. -/
  | topk (f : FmtR)
  /-- BARINIT (R181). Initialises a barrier object, advances EPOCH and releases the waiters. -/
  | barinit (f : FmtR)
  /-- BARARV (R182). Counts an arrival, returns a token and completes the phase at EXPECT. -/
  | bararv (f : FmtR)
  /-- BARWAIT (R183). Waits on a barrier token and writes whether the phase passed. -/
  | barwait (f : FmtR)
  /-- BARINV (R181). Invalidates a barrier object and releases the waiters. -/
  | barinv (f : FmtR)
  /-- ARM (R190). Arms a register as PENDING and mints a capability. -/
  | arm (f : FmtR)
  /-- CAP (R191). Returns the live capability of a register, or 0. -/
  | cap (f : FmtR)
  /-- SEND (R192). Sends one delivery toward a capability's place. -/
  | send (f : FmtR)
  /-- DISARM (R191). Disarms a register and makes its capability stale. -/
  | disarm (f : FmtR)
  /-- PLACE (R199). Extracts the place identifier from a capability. -/
  | place (f : FmtR)
  /-- SCOPE (R199). Returns the lowest scope enclosing the caller and a place. -/
  | scope (f : FmtR)
  /-- DELIVERY_ARRIVAL (R194). A delivery reaches the receiving core, which stores, discards, forwards or drops it. -/
  | deliveryArrival (did : Nat)
  /-- SEND_OUTCOME_RETURN (R192). The outcome of a delivery returns, and SEND completes and updates sys.sendstat. -/
  | sendOutcomeReturn (did : Nat)
  /-- TWIN (R251). Writes the group's accumulator window. -/
  | twin (f : FmtX)
  /-- TLDW (R240). Queues a weight load into a bank and updates the bank record. -/
  | tldw (f : FmtX)
  /-- TLDWS (R241). Queues a sparse weight load with window indices. -/
  | tldws (f : FmtX)
  /-- TMMA (R244). Queues a term multiply from registers or term blocks. -/
  | tmma (f : FmtX)
  /-- TMMAQ (R244). Queues a term multiply from the next tile of the affine walk. -/
  | tmmaq (f : FmtX)
  /-- TFEED (R245). Sets the group's affine walk. -/
  | tfeed (f : FmtX)
  /-- TZERO (R247). Queues the clearing of accumulator rows and their poison marks. -/
  | tzero (f : FmtX)
  /-- TDRAIN (R248). Queues a drain of accumulator rows into registers and holds the split until it starts. -/
  | tdrain (f : FmtX)
  /-- TWAIT (R250). Waits until the earlier term queue entries have completed. -/
  | twait (f : FmtX)
  /-- TBOUND (R252). Writes the worst-case completion bound of a tile. -/
  | tbound (f : FmtX)
  /-- THIST (R249). Queues a read and clear of a histogram tensor, setting its BASE. -/
  | thist (f : FmtX)
  /-- TRECODE (R253). Recodes a register list into term blocks in the local store. -/
  | trecode (f : FmtX)
  /-- TDECODE (R254). Decodes term blocks from the local store into registers. -/
  | tdecode (f : FmtX)
  /-- TERM_ENTRY_START (R214). A term queue entry starts at the latest of its head, previous-end and bank conditions. -/
  | termEntryStart (core : Nat)
  /-- WEIGHT_LOAD_START (R242). A weight load starts, zeroing the bank first if the record changed. -/
  | weightLoadStart (core : Nat)
  /-- WEIGHT_LOAD_COMPLETE (R242). A weight load completes and the bank holds its weights. -/
  | weightLoadComplete (core : Nat) (eid : Nat)
  /-- MULTIPLY_COMPLETE (R215). A multiply completes at s + FILL + T + TAIL and updates sys.drift. -/
  | multiplyComplete (core : Nat) (eid : Nat)
  /-- TERM_ENTRY_COMPLETE (R243). A TZERO, TDRAIN or THIST entry completes, writing its rows, registers or counts. -/
  | termEntryComplete (core : Nat) (eid : Nat)
  /-- ARRAY_CLOCK_GATE (R217). An array idle for 4,096 cycles is clock-gated. -/
  | arrayClockGate (core : Nat)
  /-- ARRAY_WAKE_GRANT (R461). The quadrant limiter grants a term-array wake in request order. -/
  | arrayWakeGrant (core : Nat)
  /-- ARRAY_WAKE_COMPLETE (R461). A granted wake completes 100 cycles after its grant. -/
  | arrayWakeComplete (core : Nat)
  /-- LD (R298). Loads from global memory through the L1. -/
  | ld (f : FmtM)
  /-- ST (R298). Stores to global memory through the L1. -/
  | st (f : FmtM)
  /-- LDC (R298). Loads from a constant block through the constant cache. -/
  | ldc (f : FmtM)
  /-- LDL (R298). Loads from the team's local store. -/
  | ldl (f : FmtM)
  /-- STL (R298). Stores to the team's local store. -/
  | stl (f : FmtM)
  /-- GATHER (R301). Remaps the indices and reads through the request collector. -/
  | gather (f : FmtM)
  /-- SCATTER (R301). Remaps the indices and writes through the request collector. -/
  | scatter (f : FmtM)
  /-- FENCE (R305). Orders the split's accesses as a release and/or an acquire at a scope. -/
  | fence (f : FmtM)
  /-- TRANSLATE (R306). Translates a pointer into a translation register. -/
  | translate (f : FmtM)
  /-- PREF (R307). Prefetches lines into the L1 and/or the L2 without causes. -/
  | pref (f : FmtM)
  /-- ATOM (R303). Performs one indivisible read-modify-write per lane at the home. -/
  | atom (f : FmtM)
  /-- ATOMG (R304). Performs one indivisible combined update per distinct address. -/
  | atomg (f : FmtM)
  /-- L1INV (R308). Invalidates the clean bytes of lines, or of the whole L1. -/
  | l1inv (f : FmtM)
  /-- L1FLUSH (R308). Writes back the dirty bytes of lines, or of the whole L1. -/
  | l1flush (f : FmtM)
  /-- STMAP (R309). Sets a stash window over global lines. -/
  | stmap (f : FmtM)
  /-- STUNMAP (R310). Writes back and removes a stash window. -/
  | stunmap (f : FmtM)
  /-- STFLUSH (R310). Writes back the dirty lines of a stash window. -/
  | stflush (f : FmtM)
  /-- AWINIT (R311). Initialises an arrival word and returns its GEN. -/
  | awinit (f : FmtM)
  /-- AWADD (R311). Adds bytes to an arrival word, possibly completing a phase. -/
  | awadd (f : FmtM)
  /-- AWWAIT (R312). Waits on an arrival-word token. -/
  | awwait (f : FmtM)
  /-- CADD (R313). Adds to a 64-bit counter as an atomic with no return. -/
  | cadd (f : FmtM)
  /-- CWAIT (R314). Waits until a counter reaches a target. -/
  | cwait (f : FmtM)
  /-- CWAIT_POLL (R314). A waiting CWAIT rereads its counter after 2,048 cycles. -/
  | cwaitPoll (core : Nat) (slot : Nat) (split : Nat)
  /-- REMAPLD (R315). Sets the group's remap descriptor. -/
  | remapld (f : FmtM)
  /-- LOAD_DATA_RETURN (R296). A read's data returns and writes its destination, or zero with a deferred POISON. -/
  | loadDataReturn (core : Nat) (slot : Nat) (iid : Nat)
  /-- WRITE_AT_HOME (R321). A write takes effect at its home in coherence order and wakes the counter waits on its line. -/
  | writeAtHome (core : Nat) (wid : Nat)
  /-- L1_EVICTION (R269). An L1 line is evicted and its dirty bytes are written to the L2. -/
  | l1Eviction (core : Nat) (line : Nat)
  /-- L1_MISS_FILL (R269). Missing sectors return from the L2 and are merged under the dirty bytes. -/
  | l1MissFill (core : Nat) (line : Nat)
  /-- PACKET_OPEN_TIMEOUT (R284). A collector packet departs 64 cycles after it opened. -/
  | packetOpenTimeout (core : Nat) (pid : Nat)
  /-- PACKET_IDLE_TIMEOUT (R284). A collector packet departs after 8 cycles without a join. -/
  | packetIdleTimeout (core : Nat) (pid : Nat)
  /-- GATHER_EXPANDER (R286). A packet reaches its home and is split, served and packed by the gather expander. -/
  | gatherExpander (core : Nat) (pid : Nat)
  /-- PACKET_RETURN (R285). A read packet's data returns to the core, freeing the destinations of its gathers. -/
  | packetReturn (core : Nat) (pid : Nat)
  /-- STASH_FILL (R265). A stash window line's fill or ownership completes. -/
  | stashFill (tid : Nat) (win : Nat) (line : Nat)
  /-- STASH_RECALL (R265). The directory invalidates or recalls a stash line, writing it back from M. -/
  | stashRecall (tid : Nat) (win : Nat) (line : Nat)
  /-- COPY_RECALL (R331). An access to a line owned by a copy is held until the copy writes it. -/
  | copyRecall (core : Nat) (line : Nat)
  /-- PROMOTION_PROBE (R330). A promotion probe reaches a core, which writes back and answers as a release. -/
  | promotionProbe (core : Nat) (oid : Nat)
  /-- MIGRATION_LINE_COPY (R282). The migration engine copies one line of a migrating page and sets its bitmap bit. -/
  | migrationLineCopy (part : Nat) (va : W64)
  /-- SPILL_WRITEOUT_DONE (R25). A spill's write-out leaves the core and returns its granules to free. -/
  | spillWriteoutDone (core : Nat) (wid : Nat)
  /-- RELOAD_DONE (R20). A reload of a spilled register completes. -/
  | reloadDone (core : Nat) (slot : Nat) (reg : Nat)
  /-- INSTRUCTION_COMPLETE (R19). An issued instruction's result is written and its busy bits clear. -/
  | instructionComplete (core : Nat) (slot : Nat) (iid : Nat)
  /-- AGE_SATURATE (R161). A split's age counter reaches 4,096 and the split becomes aged. -/
  | ageSaturate (core : Nat) (slot : Nat) (split : Nat)
  /-- INSTRUCTION_FETCH (R276). An instruction fetch completes, or faults for translation or permission. -/
  | instructionFetch (core : Nat) (slot : Nat) (split : Nat)
  /-- GROUP_END (R138). After the issued work completes, the group's registers, slot and reserve return to the core. -/
  | groupEnd (core : Nat) (slot : Nat)
  /-- CPY (R350). Issues a plain or term-block copy to an engine queue and returns a ticket. -/
  | cpy (f : FmtR)
  /-- CPY_ENC (R351). Issues a copy that recodes elements into term blocks. -/
  | cpyEnc (f : FmtR)
  /-- CPY_DEC (R353). Issues a copy that decodes a Rice stream. -/
  | cpyDec (f : FmtR)
  /-- CPY_GATHER (R354). Issues a copy of slices chosen by an index list. -/
  | cpyGather (f : FmtR)
  /-- STAGE (R359). Raises the team's stage counter, releasing scheduled copies. -/
  | stage (f : FmtR)
  /-- CPYSTAT (R358). Returns the status of a copy ticket. -/
  | cpystat (f : FmtR)
  /-- COPY_START (R349). An engine starts the next copy of its queue. -/
  | copyStart (core : Nat) (eng : Nat)
  /-- COPY_CHUNK (R346). A copy writes a chunk, advances PROD and adds the chunk to the arrival word. -/
  | copyChunk (core : Nat) (eng : Nat)
  /-- COPY_COMPLETE (R346). A copy makes its completion release and completion action. -/
  | copyComplete (core : Nat) (eng : Nat)
  /-- COPY_ERROR (R357). A copy ends with an error and raises CHECKSUM. -/
  | copyError (core : Nat) (eng : Nat)
  /-- SCHEDULE_REPEAT_ISSUE (R361). A released repeat issues into its engine queue once there is room. -/
  | scheduleRepeatIssue (tid : Nat)
  /-- LAUNCH (R390). Releases earlier writes and submits a launch record, returning a handle. -/
  | launch (f : FmtR)
  /-- POST (R391). Sends a value to the launch's result word. -/
  | post (f : FmtR)
  /-- POST_APPLY (R391). The Caravan combines a received POST into the result word. -/
  | postApply (pid : Nat)
  /-- CONT (R392). Parks the group as a continuation record and ends it. -/
  | cont (f : FmtR)
  /-- TASKEXIT (R393). Closes the launch and exits the active lanes. -/
  | taskexit (f : FmtR)
  /-- LAUNCH_ACCEPT (R366). The Caravan reads and checks a launch record and its tables. -/
  | launchAccept (sid : Nat)
  /-- LAUNCH_COMPLETE (R369). A finished launch is released at .sys, its status is written, DONE is raised and an interrupt is sent. -/
  | launchComplete (lid : Nat)
  /-- QWPTR_WRITE (R375). A host write of QWPTR is observed as an acquire, making the packets available. -/
  | qwptrWrite (q : Nat) (v : W64)
  /-- QUEUE_ENABLE (R371). A write of QCTL.EN = 1 resumes fetching at RPTR. -/
  | queueEnable (q : Nat) (v : W64)
  /-- QUEUE_DISABLE (R371). A write of QCTL.EN = 0 disables the queue and clears ERR and ESLOT. -/
  | queueDisable (q : Nat) (v : W64)
  /-- PACKET_BEGIN (R374). The Caravan begins the next ready packet of a queue and advances RPTR. -/
  | packetBegin (q : Nat)
  /-- PACKET_NOP (R373). NOP packet, complete when begun. -/
  | packetNop (q : Nat) (rid : Nat)
  /-- PACKET_LAUNCH (R373). LAUNCH packet submitting a launch record. -/
  | packetLaunch (q : Nat) (rid : Nat)
  /-- PACKET_GRAPH (R385). GRAPH packet running a task graph node by node. -/
  | packetGraph (q : Nat) (rid : Nat)
  /-- GRAPH_NEXT_NODE (R385). After a node's launch completes, the next node is chosen and launched, or the graph ends. -/
  | graphNextNode (gid : Nat)
  /-- PACKET_CWAIT (R373). CWAIT packet waiting for a counter. -/
  | packetCwait (q : Nat) (rid : Nat)
  /-- PACKET_CADD (R373). CADD packet releasing and adding to a counter. -/
  | packetCadd (q : Nat) (rid : Nat)
  /-- PACKET_COPY (R373). COPY packet running a copy on a partition engine. -/
  | packetCopy (q : Nat) (rid : Nat)
  /-- PACKET_TIMESTAMP (R373). TIMESTAMP packet writing the global timestamp. -/
  | packetTimestamp (q : Nat) (rid : Nat)
  /-- ADMISSION (R379). The distributor admits the next fitting team, resumption or continuation. -/
  | admission (part : Nat)
  /-- GANG_UNPLACED (R383). A gang still unplaced GWAIT µs after its head time ends its launch. -/
  | gangUnplaced (lid : Nat)
  /-- CONTINUATION_POLL (R388). A parked continuation's counter is reread after 2,048 cycles. -/
  | continuationPoll (cid : Nat)
  /-- BUDGET_PERIOD (R394). A new 1 µs period resets the allowances, less the carried overdraft. -/
  | budgetPeriod (part : Nat)
  /-- CAUSE_TAKEN (R405). A precise or deferred cause stops the other splits and enters the handler. -/
  | causeTaken (core : Nat) (slot : Nat)
  /-- HANDLER_BANK_GRANT (R32). A trap entry waiting for a handler bank receives one when a bank is freed. -/
  | handlerBankGrant (core : Nat)
  /-- FAULT_BATCH_WRITE (R410). A fault batch is written to the fault ring when it fits, with a release and an interrupt. -/
  | faultBatchWrite (part : Nat)
  /-- PFDONE_ANSWER (R414). A PFDONE write without REFUSE wakes the splits of the batch to retry. -/
  | pfdoneAnswer (part : Nat) (batch : BitVec 16)
  /-- PFDONE_REFUSE (R414). A PFDONE write with REFUSE makes the faulting instruction raise PAGE. -/
  | pfdoneRefuse (part : Nat) (batch : BitVec 16)
  /-- PREEMPT_REQUEST (R452). A PREQ1 write with bit 63 requests pre-emption of a team. -/
  | preemptRequest (part : Nat) (v : W64)
  /-- PREEMPT_FORCE_TIMEOUT (R416). A group not stopped 20 µs after the request is stopped by force. -/
  | preemptForceTimeout (core : Nat) (slot : Nat)
  /-- TEAM_SAVE (R417). Once its work drains, a stopped team's save record is written and the team becomes SAVED. -/
  | teamSave (tid : Nat)
  /-- CORE_POWER_GATE (R424). Management gates or retires a core that holds no work. -/
  | corePowerGate (core : Nat) (retire : Bool)
  /-- TLBINV (R451). A TLBINV write with BUSY starts the invalidation of a range. -/
  | tlbinv (part : Nat) (v : W64)
  /-- TLBINV_COMPLETE (R281). Every core and stack TLB has finished the invalidation and BUSY clears. -/
  | tlbinvComplete (part : Nat)
  /-- PARTMAP_WRITE (R450). Assigns a core to a partition, ignored if it would split a pair. -/
  | partmapWrite (n : Nat) (v : W64)
  /-- REGISTER_WRITE (R10). A write to a control register with no row of its own, under its access codes. -/
  | registerWrite (off : Nat) (v : W64)
  /-- UALINK_TRANSACTION_RECEIVE (R437). A remote package performs an incoming transaction in sequence, or discards a duplicate. -/
  | ualinkTransactionReceive (src : Nat) (flow : Nat) (seq : Nat) (op : RemoteOp)
  /-- WRITE_ACK (R438). The acknowledgement of a remote write returns. -/
  | writeAck (xid : Nat)
  /-- FLIT_CRC_FAIL (R439). A flit fails its CRC and the port replays. -/
  | flitCrcFail (port : Nat) (lane : Nat)
  /-- REPLAY_DRAINED (R439). The replay queue drains and the port returns to UP or starts its pending repair. -/
  | replayDrained (port : Nat)
  /-- LANE_REPAIR_TRIGGER (R439). A lane reaches CRCTHR errors within 1 ms and repair is triggered. -/
  | laneRepairTrigger (port : Nat) (lane : Nat)
  /-- REPLAY_FAIL_THRESHOLD (R439). REPTHR consecutive failed replays make a pending repair proceed. -/
  | replayFailThreshold (port : Nat)
  /-- REPAIR_COMPLETE (R439). The lane is remapped onto the spare and both ends confirm. -/
  | repairComplete (port : Nat)
  /-- REPAIR_FAIL (R439). The remap fails and the port retrains narrower. -/
  | repairFail (port : Nat)
  /-- LANE_FAIL (R439). A lane fails where repair cannot act, and the port retrains narrower. -/
  | laneFail (port : Nat)
  /-- TRAINING_COMPLETE (R439). A port finishes training. -/
  | trainingComplete (port : Nat) (celuno : Bool)
  /-- PORT_DOWN (R440). A port goes DOWN and its flows move and resend. -/
  | portDown (port : Nat)
  /-- TRANSACTION_LOSS_TIMEOUT (R440). After 10 ms without a usable port, the unacknowledged transactions are declared lost. -/
  | transactionLossTimeout (pkg : Nat)
  /-- UPCTL_ENABLE (R435). A write of UPCTL.EN starts the port training, or takes it down. -/
  | upctlEnable (port : Nat) (v : W64)
  /-- HOST_BAR2_WRITE (R444). A host write through BAR2 takes effect at its home. -/
  | hostBar2Write (part : Nat) (addr : Nat) (bytes : List Byte)
  /-- HOST_BAR2_READ (R445). A host read through BAR2 reads at the home. -/
  | hostBar2Read (part : Nat) (addr : Nat) (n : Nat)
  /-- CXL_CACHE_WRITE (R335). A host CXL.cache or CXL.mem write completes and invalidates the sharers. -/
  | cxlCacheWrite (pa : Nat) (bytes : List Byte)
  /-- PC_SAMPLE (R453). Each sampling interval, an issue slot records one group's PC and state. -/
  | pcSample (core : Nat) (islot : Nat)
  /-- CORRECTED_ERROR (R458). A corrected error is counted, and a threshold record is written. -/
  | correctedError (place : ErrPlace) (pa : Nat)
  /-- TIMESTAMP_SYNC (R447). A package's timestamp is brought within 20 ns of package 0. -/
  | timestampSync (ns : Nat)
  /-- POWER_ON (R459). A power-on cold reset starts the package. -/
  | powerOn
  /-- RESETCTL_WARM (R459). A write of 1 to RESETCTL[0] runs a warm reset. -/
  | resetctlWarm
  /-- PCIE_HOT_RESET (R459). A PCIe hot reset runs a warm reset. -/
  | pcieHotReset
  /-- STATUS (R465). SMBus STATUS returns the reset state, recovery flag and firmware version. -/
  | status
  /-- READ (R465). SMBus READ returns 8 bytes of PF 0's space. -/
  | read (off : Nat)
  /-- WRITE (R465). SMBus WRITE writes 8 bytes of PF 0's space. -/
  | write (off : Nat) (v : W64)
  /-- WARM (R465). SMBus WARM runs a warm reset. -/
  | warm
  /-- COLD (R465). SMBus COLD runs a cold reset. -/
  | cold
  /-- ATTEST (R464). Returns a signed attestation report over a nonce. -/
  | attest (nonce : List Byte)
  /-- FLASHRD (R465). Reads up to 32 bytes of flash. -/
  | flashrd (off : Nat) (n : Nat)
  /-- FLASHWR (R465). Writes up to 32 bytes of flash, refused for the copy or slot in force. -/
  | flashwr (off : Nat) (bytes : List Byte)
  /-- HOST_CXL_MEM_READ (R443). A host reads device memory through CXL.mem at the home, and the directory records the host as a holder of the line. -/
  | hostCxlMemRead (pa : Nat)
  deriving DecidableEq, Repr

end Sys2Proof
end

