-- ==== Sys2Proof/Machine/State.lean ====
section
/-! DEFINITION. Everything the spec gives the package: groups and their registers, cores, memory, the term engine, copies,
launches, partitions, links and management. Plain data throughout; State.reset is the package after a cold reset. -/

namespace Sys2Proof.Machine

/-! ### Registers of a group (rules R13 to R18) -/

/-- The state of a vector register (rule R18). -/
inductive RegSt where
  | empty | mapped | spilled | pending | delivered
  deriving DecidableEq, Repr

/-- One vector register: its state, lane values, checkpoint pin (R29), write order (R25), and the value that a reload for a
last-use read brought without taking a granule (R20); for a delivered value, the scope of its first read's acquire (R198). -/
structure VReg where
  st : RegSt := .empty
  val : Lanes := []
  pin : Bool := false
  stamp : Nat := 0
  early : Option Lanes := none
  scope : Nat := 0
  deriving DecidableEq, Repr

/-- A translation register (R16): its three words, the mark for re-translation (R277), and the migration fields of the
entry it was taken from (R282): new frame and bitmap address. -/
structure TReg where
  w0 : W64 := 0
  w1 : W64 := 0
  w2 : W64 := 0
  stale : Bool := false
  mig : Option (Nat × Nat) := none
  deriving DecidableEq, Repr

/-- The registers of a group (R13), sparse; an unlisted register holds its reset value. -/
structure Regs where
  v : Tab VReg := []
  p : Tab Mask := []
  k : Tab W64 := []
  x : Tab W32 := []
  t : Tab TReg := []
  h : Tab Lanes := []
  deriving DecidableEq, Repr

/-- Which registers a write names. -/
inductive RSpace where
  | vec | uni | pred | hb | idx | trans
  deriving DecidableEq, Repr

/-- One register write of an issued instruction: the lanes of a vector write, or the whole value of another. -/
structure RegW where
  sp : RSpace
  num : Nat
  mask : Mask := 0
  vals : Lanes := []
  word : W64 := 0
  trans : TReg := {}
  deriving DecidableEq, Repr

/-! ### Splits (rules R126, R153) -/

/-- Kinds of mask-stack entry (R126). -/
inductive EKind where
  | ifE | loopE | callE
  deriving DecidableEq, Repr

/-- A mask-stack entry (R126, R154): `alt` is PEND or CONT, `addr` RESUME or RETURN, `join` the tag. -/
structure Entry where
  kind : EKind
  outer : Mask
  alt : Mask := 0
  addr : W64 := 0
  bySplit : Bool := false
  join : Option Nat := none
  deriving DecidableEq, Repr

/-- What a split waits for (R167). -/
inductive Wait where
  | ready
  | safe
  | fault
  | merge
  | barrier (off : Nat)
  | arrival (off : Nat)
  | counter (pa : Nat)
  | term (ids : List (Nat × Nat))
  | drain (eid : Nat)
  | alloc
  deriving DecidableEq, Repr

/-- A split (R153): number, PC, AM, mask stack; the lanes it owns (R153); since: the cycle its age counts from (R161); doneAt: the
cycle in which an instruction of it completed last (R257); the
cycle from which it may be tried again; the fetched word (R159); the
stall code last recorded (R167); what it waits for; the batch it sleeps on and the refusal it was answered with (R413, R414); whether its next write is its first after a release
FENCE at `.grp` to `.pair` (R330). -/
structure Split where
  id : Nat
  pc : W64
  am : Mask
  own : Mask := 0
  stack : List Entry := []
  since : Nat := 0
  doneAt : Nat := 0
  tried : Nat := 0
  aged : Bool := false
  word : Option W64 := none
  stall : Nat := 8
  wait : Wait := .ready
  waited : Bool := false
  batch : Option Nat := none
  refused : Option (Nat × Nat) := none
  fenceRel : Bool := false
  deriving DecidableEq, Repr

/-- The handler frame (R405): the trapping split's number, PC, AM, stack and resume address, and a refused page that its instruction
has still to raise (R414). -/
structure Frame where
  split : Nat
  pc : W64
  am : Mask
  stack : List Entry
  ra : W64
  refused : Option (Nat × Nat) := none
  deriving DecidableEq, Repr

/-- A pending deferred cause (R402, R403), or the cause of a trap entry that waits for a handler bank. -/
structure Cause where
  code : Nat
  deferred : Bool := true
  split : Nat := 0
  info : BitVec 48 := 0
  lane : Nat := 0
  pc : W64 := 0
  ra : W64 := 0
  deriving DecidableEq, Repr

/-! ### Instructions in flight (rules R163, R166) -/

/-- One lane's part of a memory access: its lane, physical and virtual address, the line's second place in a migrating page
(R282) as new line address and bitmap bit (of a local-store access: the physical line that a stash window's line comes from, and the
window), operands. -/
structure LaneA where
  lane : Nat
  addr : Nat
  va : Nat := 0
  mig : Option (Nat × Nat) := none
  b : W64 := 0
  c : W64 := 0
  deriving DecidableEq, Repr

/-- A memory access in flight: size and extension, lanes, hints, operation, whether it is
a release at `.grp` to `.pair` (R330) or promoting, SCOPE, what it waits for (packets, probed
cores), the bytes received, and the first poisoned address (INFO of rule R400). -/
structure Acc where
  size : Nat := 4
  sx : Bool := false
  lanes : List LaneA := []
  bypass : Bool := false
  ef : Bool := false
  keep : Bool := false
  opc : Nat := 15
  whole : Bool := false
  lrel : Bool := false
  prom : Bool := false
  scope : Nat := 0
  wait : List Nat := []
  got : List Host.Cell := []
  bad : Option Nat := none
  deriving DecidableEq, Repr

/-- What completes an instruction in flight. -/
inductive IKind where
  | alu | load | lload | cload | gather | scatter | atom | lstore | store | term | send | post | launch | alloc
  deriving DecidableEq, Repr

/-- An issued instruction that has not completed (R166): the vector registers its sources name (R20), its register
writes, its access, whether run-ahead issued it, and whether it is a term instruction outside the term queue (R224). `writes` of a read
in flight name the destination; their values come with the data. -/
structure Inflight where
  id : Nat
  split : Nat
  pc : W64
  kind : IKind := .alu
  reads : List Nat := []
  writes : List RegW := []
  acc : Acc := {}
  acq : Bool := false
  ref : Nat := 0
  ahead : Bool := false
  term : Bool := false
  deriving DecidableEq, Repr

/-- A reload in flight (R20, R25): the register, and whether a last-use read takes it straight (no granule). -/
structure Reload where
  reg : Nat
  early : Bool
  deriving DecidableEq, Repr

/-- An armed register (R186, R190): its capability as minted, and the generation then. -/
structure Arm where
  cap : W64
  gen : Nat
  pair : Bool
  reuse : Bool
  deriving DecidableEq, Repr

/-- The affine walk of a group (R245). -/
structure Walk where
  base : Nat
  tstr : Nat
  nt : Nat
  next : Nat
  serial : Nat
  deriving DecidableEq, Repr

/-- One page of a fault batch (R410): KIND, address, and the lane that faulted. -/
structure FaultPage where
  kind : Nat
  va : Nat
  lane : Nat := 0
  deriving DecidableEq, Repr

/-- A page-fault run-ahead (R29, R412): the checkpoint, the unknown tags, the pages, the count of instructions, and the registers that
run-ahead allocated and wrote again, which stay allocated until the rollback (R29). -/
structure RunAhead where
  regs : Regs
  split : Split
  pages : List FaultPage
  count : Nat := 0
  extra : Nat := 0
  unkV : Tab Mask := []
  unkP : Tab Mask := []
  unkK : List Nat := []
  unkX : List Nat := []
  unkT : List Nat := []
  deriving DecidableEq, Repr

/-- A resident group: its place in its launch, registers, splits, instructions in flight, system registers, handler
frame, pending causes, armed registers, the last capability minted for each register (R190), and its state under pre-emption; the
registers that have no granules yet after an admission (R422). -/
structure Group where
  gid : Nat
  lid : Nat
  tid : Nat
  idx : Nat
  tindex : Nat
  part : Nat
  w : Nat
  resv : Nat
  admitted : Nat
  regs : Regs := {}
  splits : List Split := []
  infl : List Inflight := []
  nextIid : Nat := 0
  nextTag : Nat := 0
  deadread : W64 := 0
  sendstat : W64 := 0
  trapcause : W64 := 0
  trappc : W64 := 0
  drift : W64 := 0
  spill : W64 := 0
  spillcnt : Nat := 0
  remap : W64 := 0
  walk : Option Walk := none
  frame : Option Frame := none
  entry : Option Cause := none
  causes : List Cause := []
  arms : Tab Arm := []
  lastArms : Tab Arm := []
  reloads : List Reload := []
  ra : Option RunAhead := none
  preempt : Option Nat := none
  stopped : Bool := false
  safeMask : Option (BitVec 128) := none
  ending : Bool := false
  cont : Bool := false
  unalloc : List Nat := []
  deriving DecidableEq, Repr

/-! ### Core-level units -/

/-- An L1 line (R269): physical line number, valid sectors, dirty bytes, poisoned sectors, the bytes, `.ef`, LREL (R330),
for a migrating page (R282) the address of the new line and the bit number of its bitmap bit, the bytes that were written back out of
sectors that are not valid and stay clean and valid (R308), and the virtual address that a store to the line named last. -/
structure L1Line where
  line : Nat
  valid : BitVec 4
  dirty : BitVec 128
  poison : BitVec 4
  data : List Byte
  ef : Bool
  lrel : Bool
  mig : Option (Nat × Nat)
  kept : BitVec 128 := 0
  va : Option Nat := none
  deriving DecidableEq, Repr

/-- A TLB entry (R278): partition, size code, page base, frame, permissions, migration fields. -/
structure TlbEnt where
  part : Nat
  size : Nat
  vbase : Nat
  frame : Nat
  rd : Bool
  wr : Bool
  mig : Option (Nat × Nat)
  deriving DecidableEq, Repr

/-- A constant-cache line (R273). -/
structure CLine where
  line : Nat
  data : List Byte
  deriving DecidableEq, Repr

/-- A request that waits on a packet (R284): the group's slot, the instruction, its group's key, its split. -/
structure PReq where
  slot : Nat
  iid : Nat
  gid : Nat
  split : Nat := 0
  deriving DecidableEq, Repr

/-- A packet of the request collector (R284, R285); `bars` lists the groups whose reads may not join it (R285, R332). -/
structure Packet where
  id : Nat
  line : Nat
  write : Bool
  opened : Nat
  joined : Nat
  entries : List (Nat × Nat) := []
  writes : List Host.Cell := []
  reqs : List PReq := []
  departed : Bool := false
  served : Bool := false
  sealed : Bool := false
  data : List Host.Cell := []
  bad : List (Nat × Nat) := []
  keep : Bool := false
  bars : List Nat := []
  mig : Option (Nat × Nat) := none
  lrel : Bool := false
  deriving DecidableEq, Repr

/-- A prefetch that waits for a copy, a write-back or a budget (R307, R331): its line and HINT. -/
structure Pref where
  line : Nat
  hint : BitVec 2
  deriving DecidableEq, Repr

/-- A write on its way to its home (R297, R321): its bytes, poisoned granules, whether it is a release at `.grp` to `.pair`
(R330), the keep hint (R275), the second places of migrating lines (R282), its transaction to another package, and the other instructions
whose bytes it carries (group, split, instruction; of a scatter packet, R336). -/
structure HomeWrite where
  id : Nat
  slot : Nat
  gid : Nat
  split : Nat
  iid : Nat
  cells : List Host.Cell
  poison : List Nat := []
  lrel : Bool := false
  keep : Bool := false
  mig : Tab (Nat × Nat) := []
  xid : Option Nat := none
  also : List (Nat × Nat × Nat) := []
  deriving DecidableEq, Repr

/-- A spilled register whose write-out has not finished (R25), with its group's launch (R27). -/
structure WriteOut where
  id : Nat
  slot : Nat
  gid : Nat
  reg : Nat
  granules : Nat
  part : Nat
  va : Nat
  val : Lanes
  lid : Nat := 0
  deriving DecidableEq, Repr

/-- A weight bank (R209, R221, R240): the record of team and BFMT; the weights (codes of format `wfmt`) and window indices by
unit number q × 1,024 + n, marked units, and the index mark; the last term cycle of its multiplies and completion of its loads. -/
structure Bank where
  team : Option Nat := none
  bfmt : Nat := 0
  wfmt : Nat := 0
  wts : Tab W64 := []
  idx : Tab Nat := []
  bad : List Nat := []
  metaMark : Bool := false
  lastMul : Nat := 0
  lastLoad : Nat := 0
  deriving DecidableEq, Repr

/-- Kinds of term queue entry. -/
inductive TKind where
  | load | mul | zero | drain | hist
  deriving DecidableEq, Repr

/-- A term queue entry (R214, R243): what it does with everything read at its issue (`els` codes from registers; `bytes`, `ibytes` of
the local store from `off`, `ioff`; the poisoned words that it read, `badW`), the cycle it issued and the earliest one it can be at the head; of a
TMMAQ its tile of a walk and the one that must directly precede it to be staged (R245); and its times once it starts. -/
structure TermEntry where
  id : Nat
  kind : TKind
  slot : Nat
  gid : Nat
  iid : Nat
  tid : Nat
  idx : Nat
  part : Nat
  split : Nat
  w : Nat
  head : Nat
  bank : Nat := 0
  fb : W64 := 0
  cw : W64 := 0
  word : W64 := 0
  row : Nat := 0
  src : Nat := 0
  off : Nat := 0
  bytes : List Byte := []
  ioff : Nat := 0
  ibytes : List Byte := []
  badW : List Nat := []
  els : List W64 := []
  ascale : List Nat := []
  bscale : List Nat := []
  sparse : Bool := false
  foreign : Bool := false
  clear : Bool := false
  fill : Nat := 0
  walk : Option (Nat × Nat × Nat) := none
  prior : Option (Nat × Nat × Nat) := none
  issued : Nat := 0
  dst : Nat := 0
  cnt : Nat := 0
  start : Nat := 0
  lastTerm : Nat := 0
  done : Nat := 0
  term : Nat := 0
  waitc : Nat := 0
  lead : Nat := 0
  outs : List RegW := []
  deriving DecidableEq, Repr

/-- A histogram tensor (R229). -/
structure Hist where
  base : Int := 0
  bins : Tab Nat := []
  zero : Nat := 0
  nan : Nat := 0
  deriving DecidableEq, Repr

/-- A copy (R345 to R358): where it was issued, its mutable parts, records (none until they are read), completion word and
progress; the destination lines it owns with the bytes still to be written, and the home slices they lie in (R331, R348);
the addition of a chunk whose writes are on their way to another package. -/
structure Copy where
  id : Nat
  ticket : Nat
  tid : Nat
  lid : Nat
  part : Nat
  core : Nat
  slot : Nat
  gid : Nat
  split : Nat
  kind : Nat
  src : List W64
  dst : List W64
  srec : List W64
  drec : List W64
  done : W64
  gidx : Nat := 0
  indices : List Nat := []
  epoch : Nat := 0
  started : Bool := false
  state : Nat := 1
  err : Nat := 0
  oob : Bool := false
  chunk : Nat := 0
  bytes : Nat := 0
  pos : Nat := 0
  dpos : Nat := 0
  scheduled : Bool := false
  cancel : Bool := false
  batch : Option Nat := none
  refused : Bool := false
  turn : Nat := 0
  owned : Tab (Nat × Nat) := []
  slices : List Nat := []
  hdr : List (Byte × Bool) := []
  pin : Nat := 0
  pend : Option Nat := none
  queue : Option (Nat × Nat) := none
  deriving DecidableEq, Repr

/-- A waiting accumulator allocation (R224). -/
structure AllocReq where
  tid : Nat
  rows : Nat
  order : Nat
  deriving DecidableEq, Repr

/-- A FORWARD slot (R196): the group that held it, and where it resumed. -/
structure Fwd where
  gid : Nat
  newPlace : Option (Nat × Nat)
  deriving DecidableEq, Repr

/-- What an issue slot holds (R160): the split it issued last, whether that issue yielded, the cycle of that issue, the cycle in which
its second 64-lane cycle ends, and the slot whose group is sampled next (R453). -/
structure ISlot where
  cur : Option (Nat × Nat) := none
  yielded : Bool := false
  since : Nat := 0
  busy : Nat := 0
  turn : Nat := 0
  deriving DecidableEq, Repr

/-- The power state of a core (R424). -/
inductive Power where
  | live | gated | retired
  deriving DecidableEq, Repr

/-- One core. -/
structure Core where
  power : Power := .live
  born : Nat := 0
  slots : Tab Group := []
  gens : Tab Nat := []

  fwd : Tab Fwd := []
  islots : Tab ISlot := []
  stamp : Nat := 0
  writeouts : List WriteOut := []
  l1 : List L1Line := []
  tlb : List TlbEnt := []
  ccache : List CLine := []
  ccLaunch : List Nat := []
  packets : List Packet := []
  homeq : List HomeWrite := []
  prefs : List Pref := []
  nextId : Nat := 0
  bank0 : Bank := {}
  bank1 : Bank := {}
  tq : List TermEntry := []
  trun : List TermEntry := []
  prevWalk : Option (Nat × Nat × Nat) := none
  prevLast : Nat := 0
  prevDone : Nat := 0
  headFrom : Nat := 0
  acc : Tab W32 := []
  marks : Tab Nat := []
  hist : Tab Hist := []
  gatedArray : Bool := false
  idleSince : Nat := 0
  wakeReq : Option Nat := none
  wakeAt : Option Nat := none
  wokeAt : Nat := 0
  eng0 : List Copy := []
  eng1 : List Copy := []
  allocs : List AllocReq := []
  termLeft : Int := 0
  termFrom : Nat := 0
  deriving DecidableEq, Repr

/-! ### Teams, launches, queues (chapter 16) -/

/-- The states of a team (R378). -/
inductive TeamState where
  | resident | saving | saved | ended
  deriving DecidableEq, Repr

/-- The states of a stash-window line (R264). -/
inductive LineSt where
  | s | e | m
  deriving DecidableEq, Repr

/-- A stash window (R264): virtual address, partition, permission, lines, local-store offset, line states with the
physical line each is filled from, the lines that an access waits for (with whether it writes, and the physical line that its
translation gave), and of the lines that are owned in a migrating page the second place (R282). -/
structure Win where
  va : Nat
  wr : Bool
  lines : Nat
  off : Nat
  st : Tab (LineSt × Nat) := []
  need : List (Nat × Bool × Nat) := []
  mig : Tab (Nat × Nat) := []
  deriving DecidableEq, Repr

/-- A held engine action aimed at a saved region (R363): chunk addition of so many bytes, with the ticket of its copy, or a signal with its
epoch. -/
inductive Held where
  | add (off n ticket : Nat)
  | signal (off epoch : Nat)
  deriving DecidableEq, Repr

/-- A team. -/
structure Team where
  tid : Nat
  lid : Nat
  index : Nat
  part : Nat
  core : Nat
  pair : Bool
  groups : Nat
  w : Nat
  prio : Nat
  gang : Bool
  state : TeamState := .resident
  order : Nat := 0
  live : List Nat := []
  lsBase : Nat := 0
  lsz : Nat := 0
  ls : Tab Byte := []
  lsBad : List Nat := []
  wins : Tab Win := []
  span : Nat := 0
  base : Nat := 0
  limit : Nat := 0
  req : Option (Nat × Nat) := none
  ticket : Nat := 0
  status : Tab W64 := []
  stage : Nat := 0
  sched : Tab Nat := []
  relq : List (Nat × Nat) := []
  held : List Held := []
  susp : List Copy := []
  savedGroups : List Group := []
  savedAcc : Tab W32 := []
  savedAcc1 : Tab W32 := []
  savedMarks : Tab Nat := []
  savedMarks1 : Tab Nat := []
  saveSlot : Option Nat := none
  readyAt : Nat := 0
  cont : Option Nat := none
  deriving DecidableEq, Repr

/-- Where a launch came from: a queue's packet, a graph, or a LAUNCH instruction (core, slot, iid). -/
inductive Origin where
  | packet (q rid : Nat) (irq : Bool)
  | graph (gid : Nat)
  | word (core slot iid : Nat)
  deriving DecidableEq, Repr

/-- An accepted launch (R365, R366, R386): the Caravan's own copies, and its progress. -/
structure Launch where
  lid : Nat
  seq : Nat
  part : Nat
  origin : Origin
  record : List W64
  args : List W64 := []
  consts : List (W64 × W64) := []
  safe : List (BitVec 128) := []
  sched : List (List W64) := []
  next : Nat := 0
  ended : Nat := 0
  closed : Bool := false
  code : Nat := 0
  detail : Nat := 0
  result : W64 := 0
  complete : Bool := false
  headTime : Option Nat := none
  draining : List Nat := []
  deriving DecidableEq, Repr

/-- A record waiting to be read and accepted (R366). -/
structure Submit where
  sid : Nat
  part : Nat
  origin : Origin
  addr : Nat
  seq : Nat
  deriving DecidableEq, Repr

/-- A POST on its way to the Caravan (R391). -/
structure PostMsg where
  pid : Nat
  lid : Nat
  op : Nat
  v : W64
  core : Nat
  slot : Nat
  gid : Nat
  iid : Nat
  deriving DecidableEq, Repr

/-- A parked continuation (R387, R388). -/
structure ContRec where
  cid : Nat
  lid : Nat
  part : Nat
  va : Nat
  counter : Nat
  target : W64
  nv : Nat
  first : Nat
  ready : Option Nat := none
  deriving DecidableEq, Repr

/-- A running task graph (R385): its packet, next node, the node last read and its words, and the launch it waits for with its code. -/
structure Graph where
  gid : Nat
  q : Nat
  rid : Nat
  part : Nat
  node : Nat
  last : Nat := 0
  limit : Nat
  runs : Nat := 0
  status : Nat
  lid : Option Nat := none
  code : Nat := 0
  words : List W64 := []
  waiting : Bool := false
  deriving DecidableEq, Repr

/-- A packet that has begun and not completed (R373): `begun` once its launch, graph or copy has been handed on; the time it began. -/
structure PRun where
  rid : Nat
  typ : Nat
  irq : Bool
  tag : W32
  words : List W64
  begun : Bool := false
  time : Nat := 0
  deriving DecidableEq, Repr

/-- A command queue (R371). -/
structure Queue where
  base : W64 := 0
  ctl : W64 := 0
  wptr : W32 := 0
  rptr : W32 := 0
  err : Nat := 0
  eslot : W32 := 0
  runs : List PRun := []
  deriving DecidableEq, Repr

/-- A record ring (R455). -/
structure Ring where
  base : W64 := 0
  ctl : W64 := 0
  wptr : W32 := 0
  rptr : W32 := 0
  drop : W32 := 0
  deriving DecidableEq, Repr

/-- A page-fault batch (R410): number, pages, place, launch, ticket, whether it is in the ring. -/
structure Batch where
  num : Nat
  pages : List FaultPage
  place : Nat
  launch : Nat
  ticket : Nat
  written : Bool := false
  deriving DecidableEq, Repr

/-- One partition's control registers (R449) and what they govern. -/
structure Part where
  ctl : W64 := 0
  ttb : W64 := 0
  tlbinv : W64 := 0
  trapvec : W64 := 0
  trapend : W64 := 0
  pfring : W64 := 0
  pfwptr : W32 := 0
  pfrptr : W32 := 0
  savepool : W64 := 0
  pbud0 : W64 := 0
  pbud1 : W64 := 0
  scopetab : W64 := 0
  preq0 : W64 := 0
  preq1 : W64 := 0
  sampctl : W64 := 0
  sample : Ring := {}
  event : Ring := {}
  pcsel : Tab W64 := []
  pcnt : Tab W64 := []
  batches : List Batch := []
  nextBatch : Nat := 0
  seq : Nat := 0
  slotsUsed : List Nat := []
  period : Nat := 0
  copyLeft : Int := 0
  hostLeft : Int := 0
  migLeft : Int := 0
  teleLeft : Int := 0
  buffer : List (Nat × List W64) := []
  outstanding : List Nat := []
  deriving DecidableEq, Repr

/-! ### Links, host and management (chapters 20 and 22) -/

/-- A UALink port (R435, R439): registers, the errors of the last millisecond (lane, time), the lane a repair was triggered
for, whether unacknowledged flits are buffered, and the consecutive replays that failed while a repair waits. -/
structure Port where
  ctl : W64 := 0x4000000000000810
  state : Nat := 0
  width : Nat := 0
  peer : Bool := false
  spare : Bool := false
  replaced : Nat := 0
  replays : Nat := 0
  errs : List (Nat × Nat) := []
  lane : Nat := 0
  buffer : Bool := false
  fails : Nat := 0
  deriving DecidableEq, Repr

/-- A transaction sent to another package and not acknowledged (R437, R440). -/
structure Xact where
  xid : Nat
  pkg : Nat
  flow : Nat
  seq : Nat
  port : Nat
  op : RemoteOp
  core : Nat
  slot : Nat
  gid : Nat
  iid : Nat
  wid : Nat
  since : Nat
  deriving DecidableEq, Repr

/-- A delivery of a SEND (R192, R194), and its transaction to another package (R437, R441). -/
structure Delivery where
  did : Nat
  core : Nat
  slot : Nat
  gid : Nat
  split : Nat
  iid : Nat
  cap : W64
  mask : Mask
  lo : Lanes
  hi : Lanes
  pair : Bool
  rel : Bool
  place : Nat
  outcome : Option Nat := none
  xid : Option Nat := none
  deriving DecidableEq, Repr

/-- A record that waits for a copy's recall of its slot's line (R331, R456): its ring, 0 for the machine-check ring and 1 + 2p + e for
partition p's sample (e = 0) or event ring, and its words. -/
structure LateRec where
  ring : Nat
  words : List W64
  deriving DecidableEq, Repr

/-- What the field part of the configuration block in force records besides lane repairs (R462): the spare maps of term-array rows (R232)
and L2 ways (R274) and the retired channels, each as numbers of a layout that the spec does not give. -/
structure FieldMaps where
  rows : List Nat := []
  ways : List Nat := []
  channels : List Nat := []
  deriving DecidableEq, Repr

/-- A line tag of an L2 slice (R274, R275, R431). DESIGN CHOICE: a line of host memory has no state that the host grants, since its bytes are
read and written at their home in one step, and PF 0's HDM decoders are the host's (R443; log entry 153). -/
structure L2Tag where
  stack : Nat
  line : Nat
  secs : BitVec 4
  keep : Bool
  deriving DecidableEq, Repr

/-- The reset state (R459): running, or in recovery (R463). -/
inductive RState where
  | running | recovery
  deriving DecidableEq, Repr

/-- What the package shows its outside: an answer on SMBus or to a host access, a stored response of a transaction,
or an interrupt. -/
inductive Reply where
  | ack
  | nack
  | value (v : W64)
  | bytes (b : List Byte)
  | unsupported
  | poisoned
  | status (warm : Bool) (state : RState) (version : W64)
  | irq (part : Nat) (tag : W32)
  | queueError (q : Nat)
  | faults (part : Nat)
  deriving DecidableEq, Repr

/-- Where an uncorrectable error arises (R221, R261, R289): a granule of HBM or the L2, an 8-byte word of a team's local store, a unit's
weight or the index latch of a bank, a row of the accumulator store. -/
inductive Strike where
  | granule (g : Nat)
  | word (tid w : Nat)
  | weight (core bank unit : Nat)
  | index (core bank : Nat)
  | row (core row : Nat)
  deriving DecidableEq, Repr

/-- A move of the package: an event of the opcode table, an issue slot's turn (R160), an uncorrectable error, or an SMBus command code
that the table of R465 does not hold. -/
inductive Move where
  | event (i : Instr)
  | issue (core islot : Nat)
  | strike (x : Strike)
  | command (code : Nat)
  deriving DecidableEq, Repr

/-- The split whose instruction issues. -/
structure Ctx where
  core : Nat := 0
  slot : Nat := 0
  split : Nat := 0
  deriving DecidableEq, Repr

/-- The package. -/
structure State where
  cycle : Nat
  agenda : List (Nat × Move)
  cur : Ctx
  free : Nat
  nextId : Nat
  cores : Tab Core
  mem : List Host.Cell
  poison : List Nat
  l2 : List L2Tag
  stackTlb0 : List TlbEnt
  stackTlb1 : List TlbEnt
  hostHeld : List Nat
  lrelHome : Tab (List Nat)
  teams : Tab Team
  launches : Tab Launch
  submits : List Submit
  posts : List PostMsg
  conts : Tab ContRec
  graphs : Tab Graph
  queues : Tab Queue
  turn : Nat
  parts : Tab Part
  partmap : Tab Nat
  partAsk : Tab Nat
  regions : Tab W64
  pkgid : W64
  uroute : Tab W64
  ports : Tab Port
  xacts : List Xact
  flowOut : Tab Nat
  flowIn : Tab Nat
  responses : List ((Nat × Nat × Nat) × Reply)
  lostSince : Tab Nat
  deliveries : List Delivery
  mc : Ring
  cecount : W64
  resetctl : W64
  key : W64
  prevKey : W64
  keys : Nat
  ts0 : Nat
  tsCycle : Nat
  resets : Nat
  warm : Bool
  rstate : RState
  identity : W64
  flash : Tab Byte
  imgSlot : Nat
  image : List Byte
  cfgCopy : Nat
  mirror : List Byte
  maps : FieldMaps
  scopeDone : Bool
  late : List LateRec
  wakes : List (Nat × Nat)
  replies : List Reply
  deriving DecidableEq, Repr

/-- Why the package stops with a fault. No step of this package does: the spec gives every condition a cause, a status,
a record or a dropped access, so the one constructor is raised by nothing; safe. -/
inductive Fault where
  | noStep
  deriving DecidableEq, Repr

/-- Why an instruction is refused. -/
inductive Refusal where
  /-- The instruction has no meaning in this model yet; raised by a refused arm of exec; safe. -/
  | notModelled (mnemonic : String)
  deriving DecidableEq, Repr

/-- The package right after a cold reset (rules R459, R460): every control register at its reset value, every cache,
ring and queue empty, no launch, and the first capability key drawn. -/
def State.reset : State where
  cycle := 0
  agenda := []
  cur := {}
  free := 0
  nextId := 1
  cores := []
  mem := []
  poison := []
  l2 := []
  stackTlb0 := []
  stackTlb1 := []
  hostHeld := []
  lrelHome := []
  teams := []
  launches := []
  submits := []
  posts := []
  conts := []
  graphs := []
  queues := []
  turn := 0
  parts := (List.range 8).map (fun p => (p, { scopetab := (Config.scopeVa p).setWidth 64 }))
  partmap := []
  partAsk := []
  regions := []
  pkgid := 0
  uroute := []
  ports := []
  xacts := []
  flowOut := []
  flowIn := []
  responses := []
  lostSince := []
  deliveries := []
  mc := {}
  cecount := 0x400
  resetctl := 0
  key := Config.drawKey 0
  prevKey := 0
  keys := 1
  ts0 := 0
  tsCycle := 0
  resets := 1
  warm := false
  rstate := .running
  identity := Config.deriveIdentity 0
  flash := []
  imgSlot := 0
  image := []
  cfgCopy := 0
  mirror := []
  maps := {}
  scopeDone := false
  late := []
  wakes := []
  replies := []

end Sys2Proof.Machine
end

