-- ==== Sys2Proof/Machine/Bits.lean ====
section
/-! DEFINITION. Fields of words, lane masks, byte strings and the lookups of the parts of the state. -/

namespace Sys2Proof.Machine

/-! ### Fields, masks and bytes -/

/-- bits(x, lo + len − 1, lo) as a number (rule R11). -/
def fld (x : W64) (lo len : Nat) : Nat := (x.toNat >>> lo) % 2 ^ len

/-- The word with number `v` in the field of `len` bits at `lo` replaced. -/
def setFld (x : W64) (lo len v : Nat) : W64 :=
  BitVec.ofNat 64 (x.toNat - fld x lo len * 2 ^ lo + v % 2 ^ len * 2 ^ lo)

/-- A number placed at bit `lo` of a word. -/
def at_ (v lo : Nat) : Nat := v * 2 ^ lo

/-- Saturating addition below 2^n. -/
def satAdd (a b n : Nat) : Nat := Nat.min (a + b) (2 ^ n - 1)

def w64 (n : Nat) : W64 := BitVec.ofNat 64 n
def w32 (n : Nat) : W32 := BitVec.ofNat 32 n

/-- sext(x, 64) of the low `n` bits of a number, as an exact integer (rule R11). -/
def sextNat (x n : Nat) : Int :=
  let y := x % 2 ^ n
  if 2 * y < 2 ^ n then (y : Int) else (y : Int) - (2 ^ n : Nat)

/-- An integer taken modulo 2^n. -/
def wrapInt (x : Int) (n : Nat) : Nat := (x % ((2 ^ n : Nat) : Int)).toNat

/-- Whether lane `l` is set in a mask. -/
def inMask (m : Mask) (l : Nat) : Bool := m.getLsbD l

/-- The lanes of a group of width `w` that a mask names, in increasing order. -/
def lanesIn (m : Mask) (w : Nat) : List Nat := (List.range w).filter (inMask m)

/-- The mask of every lane of a group of width `w`. -/
def fullMask (w : Nat) : Mask := BitVec.ofNat 64 (2 ^ w - 1)

/-- The mask of the lanes that satisfy a condition. -/
def maskOf (w : Nat) (f : Nat → Bool) : Mask :=
  BitVec.ofNat 64 ((List.range w).foldl (fun a l => if f l then a + 2 ^ l else a) 0)

/-- The number of lanes in a mask. -/
def countMask (m : Mask) (w : Nat) : Nat := (lanesIn m w).length

/-- The lane values of a function of the lane. -/
def lanesOf (w : Nat) (f : Nat → W32) : Lanes := (List.range w).map f

/-- Lane `l` of a lane vector. -/
def laneOf (v : Lanes) (l : Nat) : W32 := v.getD l 0

/-- `old` with the lanes of `m` taken from `new`. -/
def mergeLanes (w : Nat) (m : Mask) (old new : Lanes) : Lanes :=
  lanesOf w (fun l => if inMask m l then laneOf new l else laneOf old l)

/-- The `n` bytes of a number, lowest first. -/
def bytesOf (x n : Nat) : List Byte := (List.range n).map (fun i => BitVec.ofNat 8 (x >>> (8 * i)))

/-- The number whose bytes are `b`, lowest first. -/
def numOf (b : List Byte) : Nat := b.foldr (fun x a => x.toNat + 256 * a) 0

/-- Bytes at consecutive addresses from `a`. -/
def cellsAt (a : Nat) (b : List Byte) : List Host.Cell := (List.range b.length).zip b |>.map (fun (i, x) => (a + i, x))

/-- The lines of 128 bytes, or granules of 32, that a list of cells touches, without repeats. -/
def unitsOf (u : Nat) (cs : List Host.Cell) : List Nat :=
  cs.foldl (fun acc c => if acc.contains (c.1 / u) then acc else acc ++ [c.1 / u]) []

/-- `a` with `x` at the end unless it is there. -/
def addNew {α : Type} [BEq α] (a : List α) (x : α) : List α := if a.contains x then a else a ++ [x]

/-- The first element that satisfies a condition, with its index. -/
def findFirst {α : Type} (l : List α) (f : α → Bool) : Option α := l.find? f

/-- The elements of a list with those that satisfy `f` changed by `g`. -/
def updIf {α : Type} (l : List α) (f : α → Bool) (g : α → α) : List α := l.map (fun x => if f x then g x else x)

/-- ⌈a ÷ b⌉. -/
def ceilDiv (a b : Nat) : Nat := if b = 0 then 0 else (a + b - 1) / b

/-! ### Parts of the state -/

def State.core (s : State) (c : Nat) : Core := s.cores.get {} c
def State.setCore (s : State) (c : Nat) (k : Core) : State := { s with cores := s.cores.set c k }
def State.updCore (s : State) (c : Nat) (f : Core → Core) : State := s.setCore c (f (s.core c))

def State.group (s : State) (c g : Nat) : Option Group := (s.core c).slots.find g
def State.setGroup (s : State) (c g : Nat) (G : Group) : State :=
  s.updCore c (fun k => { k with slots := k.slots.set g G })
def State.updGroup (s : State) (c g : Nat) (f : Group → Group) : State :=
  match s.group c g with
  | some G => s.setGroup c g (f G)
  | none => s

def Group.split (G : Group) (n : Nat) : Option Split := G.splits.find? (fun x => x.id == n)
def Group.setSplit (G : Group) (p : Split) : Group := { G with splits := updIf G.splits (fun x => x.id == p.id) (fun _ => p) }
def Group.updSplit (G : Group) (n : Nat) (f : Split → Split) : Group :=
  { G with splits := updIf G.splits (fun x => x.id == n) f }

def State.part (s : State) (p : Nat) : Part := s.parts.get {} p
def State.updPart (s : State) (p : Nat) (f : Part → Part) : State := { s with parts := s.parts.set p (f (s.part p)) }
def State.updTeam (s : State) (t : Nat) (f : Team → Team) : State :=
  match s.teams.find t with
  | some T => { s with teams := s.teams.set t (f T) }
  | none => s
def State.updLaunch (s : State) (l : Nat) (f : Launch → Launch) : State :=
  match s.launches.find l with
  | some L => { s with launches := s.launches.set l (f L) }
  | none => s
def State.queue (s : State) (q : Nat) : Queue := s.queues.get {} q
def State.updQueue (s : State) (q : Nat) (f : Queue → Queue) : State := { s with queues := s.queues.set q (f (s.queue q)) }
def State.port (s : State) (j : Nat) : Port := s.ports.get {} j
def State.updPort (s : State) (j : Nat) (f : Port → Port) : State := { s with ports := s.ports.set j (f (s.port j)) }

/-- The stack of a core, its number in the stack, and its pair's even core (rule R2). -/
def stackOf (c : Nat) : Nat := c / 96
def pairOf (c : Nat) : Nat := c - c % 2
def partnerOf (c : Nat) : Nat := if c % 2 = 0 then c + 1 else c - 1

/-- The partition of a core (rules R377, R450). -/
def State.partOf (s : State) (c : Nat) : Nat := s.partmap.get 0 c

/-- A fresh number for a launch, team, copy, packet, delivery, transaction or group. -/
def State.fresh (s : State) : Nat × State := (s.nextId, { s with nextId := s.nextId + 1 })

/-- A fresh free value (Config.freeWord). -/
def State.drawFree (s : State) : W64 × State := (Config.freeWord s.free, { s with free := s.free + 1 })

/-- `n` fresh bytes of free values. -/
def State.drawBytes (s : State) (n : Nat) : State × List Byte :=
  ({ s with free := s.free + (n + 7) / 8 },
    (List.range n).map (fun i => BitVec.ofNat 8 ((Config.freeWord (s.free + i / 8)).toNat >>> (8 * (i % 8)))))

/-- The global timestamp in ns (rules R5, R447). -/
def State.now (s : State) : Nat := s.ts0 + (s.cycle - s.tsCycle) / 2

/-- The place identifier of a slot (rule R34). -/
def State.placeOf (s : State) (c g : Nat) : Nat :=
  at_ (fld s.pkgid 0 10) 14 + at_ (stackOf c) 13 + at_ (c % 96) 6 + g

end Sys2Proof.Machine
end

