-- ==== Sys2Proof/Machine/Flags.lean ====
section
/-! DEFINITION. The results that instructions of rows 0x1_ to 0x3_ and 0xD_ compute (rules R75 to R87): exact integers, wrapped
or saturated once, bit fields, counts and the conditions that predicates take. The machine has no flag register: a predicate
holds the truth of a condition. -/

namespace Sys2Proof.Machine

/-- The value of an n-bit pattern, signed or unsigned (rule R69). -/
def ival (signed : Bool) (n x : Nat) : Int := if signed then sextNat x n else ((x % 2 ^ n : Nat) : Int)

/-- sats(x, n) and satn(x, n) (rule R70). -/
def sats (x : Int) (n : Nat) : Int := max (-(2 ^ (n - 1) : Nat) : Int) (min x ((2 ^ (n - 1) : Nat) - 1 : Int))
def satn (x : Int) (n : Nat) : Int := max 0 (min x ((2 ^ n : Nat) - 1 : Int))
def satTo (signed : Bool) (x : Int) (n : Nat) : Int := if signed then sats x n else satn x n

/-- Width and element width of an integer type code (rules R48, R68, R73). -/
def tyElem (ty : BitVec 4) : Nat :=
  match ty.toNat with
  | 0 | 4 | 8 => 8
  | 1 | 5 | 9 => 16
  | 2 | 6 | 10 => 32
  | 3 | 7 | 11 => 64
  | _ => 4
def tyWidth (ty : BitVec 4) : Nat := if tyElem ty == 64 then 64 else 32

/-- An operation on the elements of an n-bit operand, each on its own (rule R73). -/
def perElem (n e : Nat) (op : Nat → Nat → Nat) (a b : Nat) : Nat :=
  (List.range (n / e)).foldl (fun r k => r + op (a >>> (k * e) % 2 ^ e) (b >>> (k * e) % 2 ^ e) % 2 ^ e * 2 ^ (k * e)) 0

/-- The exact result of rule R75, wrapped, or saturated first. -/
def intElem (signed sat : Bool) (e : Nat) (op : Int → Int → Int) (a b : Nat) : Nat :=
  let x := op (ival signed e a) (ival signed e b)
  wrapInt (if sat then satTo signed x e else x) e

def opAdd (a b : Int) : Int := a + b
def opSub (a b : Int) : Int := a - b
def opMin (a b : Int) : Int := if a ≤ b then a else b
def opMax (a b : Int) : Int := if b ≤ a then a else b
def opAbs (a _b : Int) : Int := if a < 0 then -a else a
def opNeg (a _b : Int) : Int := -a

/-- MUL, MULHI, MAD (rule R76). -/
def mulLow (signed : Bool) (n out a b : Nat) : Nat := wrapInt (ival signed n a * ival signed n b) out
def mulHigh (signed : Bool) (n a b : Nat) : Nat := wrapInt (ival signed n a * ival signed n b / ((2 ^ n : Nat) : Int)) n
def mulAdd (signed : Bool) (n out a b c : Nat) : Nat := wrapInt (ival signed n a * ival signed n b + ival signed out c) out

/-- DIV and REM (rule R77). -/
def divQ (signed : Bool) (n a b : Nat) : Nat :=
  if b % 2 ^ n = 0 then 2 ^ n - 1 else wrapInt (Int.tdiv (ival signed n a) (ival signed n b)) n
def divR (signed : Bool) (n a b : Nat) : Nat :=
  if b % 2 ^ n = 0 then a % 2 ^ n else wrapInt (Int.tmod (ival signed n a) (ival signed n b)) n

/-- Shifts (rule R80). -/
def shlOp (n a s : Nat) : Nat := if s < n then (a * 2 ^ s) % 2 ^ n else 0
def shrOp (n a s : Nat) : Nat := if s < n then a / 2 ^ s else 0
def sarOp (n a s : Nat) : Nat := wrapInt (sextNat a n / ((2 ^ Nat.min s n : Nat) : Int)) n
def rotOp (n a s : Nat) : Nat := (a * 2 ^ (s % n) + a / 2 ^ (n - s % n)) % 2 ^ n

/-- BFE (rule R81) and BFI (rule R82). -/
def bfeOp (signed : Bool) (n a pos len : Nat) : Nat :=
  if len = 0 ∨ n ≤ pos then 0
  else
    let wd := Nat.min (pos + len) n - pos
    let f := a / 2 ^ pos % 2 ^ wd
    if signed then wrapInt (sextNat f wd) n else f
def bfiOp (n a b pos len : Nat) : Nat :=
  if len = 0 ∨ n ≤ pos then a
  else
    let wd := Nat.min (pos + len) n - pos
    a - a / 2 ^ pos % 2 ^ wd * 2 ^ pos + b % 2 ^ wd * 2 ^ pos

/-- BREV, POPC, CLZ, CTZ (rule R83). -/
def brevOp (n a : Nat) : Nat := (List.range n).foldl (fun r i => r + (if a.testBit i then 2 ^ (n - 1 - i) else 0)) 0
def popcOp (n a : Nat) : Nat := ((List.range n).filter (fun i => a.testBit i)).length
def ctzOp (n a : Nat) : Nat := ((List.range n).find? (fun i => a.testBit i)).getD n
def clzOp (n a : Nat) : Nat := ((List.range n).find? (fun i => a.testBit (n - 1 - i))).getD n

/-- tcount(a) of a magnitude (rule R84): `fuel` bits at most. -/
def tcountN (fuel m : Nat) : Nat :=
  match fuel with
  | 0 => 0
  | k + 1 =>
    if m = 0 then 0
    else if m % 2 = 1 then 1 + tcountN k ((if m % 4 = 3 then m + 1 else m - 1) / 2)
    else tcountN k (m / 2)
def tcount (x : Int) : Nat := tcountN 70 x.natAbs

/-- TCNT (rule R84): the sum of the elements' counts, or the largest. -/
def tcntOp (signed isMax : Bool) (n e a : Nat) : Nat :=
  let cs := (List.range (n / e)).map (fun k => tcount (ival signed e (a >>> (k * e) % 2 ^ e)))
  if isMax then cs.foldl Nat.max 0 else cs.sum

/-- The conditions of CMP (rule R85), on values and on patterns. -/
def cmpCond (opx : Nat) (signed : Bool) (n a b : Nat) : Bool :=
  let x := ival signed n a
  let y := ival signed n b
  match opx with
  | 0 => a % 2 ^ n == b % 2 ^ n
  | 1 => a % 2 ^ n != b % 2 ^ n
  | 2 => decide (x < y)
  | 3 => decide (x ≤ y)
  | 4 => decide (y < x)
  | 5 => decide (y ≤ x)
  | _ => (a &&& b) % 2 ^ n != 0

def boolNat (b : Bool) : Nat := if b then 1 else 0

end Sys2Proof.Machine
end

