-- ==== Sys2Proof/Machine/Formats.lean ====
section
/-! DEFINITION. Number formats and exact arithmetic (chapter 4, rules R93 to R105): values are exact dyadic numbers, rounded once. -/

namespace Sys2Proof.Machine

/-! ### Values and formats -/

/-- A float value: NaN or NaR, an infinity, or (−1)^neg × m × 2^e; a zero has m = 0 and keeps its sign. -/
inductive FVal where
  | nan
  | inf (neg : Bool)
  | num (neg : Bool) (m : Nat) (e : Int)
  deriving DecidableEq, Repr

/-- The rounding modes of rule R97. -/
inductive RMode where
  | rn | rz | ru | rd
  deriving DecidableEq, Repr

/-- The mode of OPX[1:0] (rule R49). -/
def rmode (opx : Nat) : RMode := match opx % 4 with | 0 => .rn | 1 => .rz | 2 => .ru | _ => .rd

/-- A binary float format (rule R94): width, fraction width, bias, and whether it has infinities. -/
structure BinFmt where
  w : Nat
  f : Nat
  bias : Nat
  infs : Bool

/-- The float formats, by the type code of rule R48. -/
inductive NumFmt where
  | bin (b : BinFmt)
  | tap (n es : Nat)

def fmt16 : BinFmt := ⟨16, 10, 15, true⟩
def fmtB16 : BinFmt := ⟨16, 7, 127, true⟩
def fmt32 : BinFmt := ⟨32, 23, 127, true⟩
def fmt64 : BinFmt := ⟨64, 52, 1023, true⟩
def fmtE4 : BinFmt := ⟨8, 3, 7, false⟩
def fmtE5 : BinFmt := ⟨8, 2, 15, true⟩

/-- The format of a float type code (rules R48, R94, R98). -/
def fltFmt (ty : Nat) : NumFmt :=
  match ty with
  | 0 => .bin fmt16
  | 1 => .bin fmtB16
  | 2 => .bin fmt32
  | 3 => .bin fmt64
  | 4 => .bin fmtE4
  | 5 => .bin fmtE5
  | 6 => .tap 8 1
  | _ => .tap 6 0

/-- Width of the exponent field. -/
def BinFmt.ew (b : BinFmt) : Nat := b.w - 1 - b.f
/-- The code of the largest finite magnitude (rule R94). -/
def BinFmt.maxCode (b : BinFmt) : Nat := if b.infs then (2 ^ b.ew - 1) * 2 ^ b.f - 1 else 2 ^ (b.w - 1) - 2
/-- The canonical NaN (rule R95). -/
def BinFmt.nanCode (b : BinFmt) : Nat := if b.infs then (2 ^ b.ew - 1) * 2 ^ b.f + 2 ^ (b.f - 1) else 2 ^ (b.w - 1) - 1
/-- The exponent of the last place of the smallest subnormal. -/
def BinFmt.qmin (b : BinFmt) : Int := 1 - (b.bias : Int) - (b.f : Int)

/-- The value of a binary float's bits (rule R94). -/
def BinFmt.decode (b : BinFmt) (x : Nat) : FVal :=
  let neg := x.testBit (b.w - 1)
  let mag := x % 2 ^ (b.w - 1)
  let e := mag / 2 ^ b.f
  let f := mag % 2 ^ b.f
  if b.maxCode < mag then (if b.infs ∧ f = 0 then .inf neg else .nan)
  else if e = 0 then .num neg f b.qmin
  else .num neg (2 ^ b.f + f) (b.qmin + (e : Int) - 1)

/-- The length of the run of bits equal to `lead` from bit `i` down (rule R98). -/
def runLen (m lead : Nat) (i : Nat) : Nat :=
  match i with
  | 0 => if m % 2 = lead then 1 else 0
  | j + 1 => if m / 2 ^ (j + 1) % 2 = lead then 1 + runLen m lead j else 0

/-- decode_tapered of a magnitude field m ≠ 0: the value's S and exponent (rule R98). -/
def tapMag (n es m : Nat) : Nat × Int :=
  let w := n - 1
  let lead := m / 2 ^ (w - 1) % 2
  let run := runLen m lead (w - 1)
  let k : Int := if lead = 1 then (run : Int) - 1 else -(run : Int)
  let left := w - 1 - run
  let e := if es = 1 ∧ 0 < left then m / 2 ^ (left - 1) % 2 else 0
  let nf := if es = 1 then left - 1 else left
  (2 ^ nf + m % 2 ^ nf, k * (2 ^ es : Nat) + (e : Int) - (nf : Int))

/-- The value of a code of a format (rules R94, R98). -/
def NumFmt.decode (t : NumFmt) (x : Nat) : FVal :=
  match t with
  | .bin b => b.decode x
  | .tap n es =>
    let neg := x.testBit (n - 1)
    let m := x % 2 ^ (n - 1)
    if m = 0 then (if neg then .nan else .num false 0 0)
    else .num neg (tapMag n es m).1 (tapMag n es m).2

def NumFmt.nanCode (t : NumFmt) : Nat := match t with | .bin b => b.nanCode | .tap n _ => 2 ^ (n - 1)
def NumFmt.width (t : NumFmt) : Nat := match t with | .bin b => b.w | .tap n _ => n
def NumFmt.maxCode (t : NumFmt) : Nat := match t with | .bin b => b.maxCode | .tap n _ => 2 ^ (n - 1) - 1

/-! ### Comparison of dyadic magnitudes -/

/-- m × 2^e in units of 2^u, exact for u ≤ e. -/
def scaleTo (m : Nat) (e u : Int) : Nat := m * 2 ^ (e - u).toNat

/-- Whether m₁ × 2^e₁ ≤ m₂ × 2^e₂. -/
def magLe (m₁ : Nat) (e₁ : Int) (m₂ : Nat) (e₂ : Int) : Bool := decide (scaleTo m₁ e₁ (min e₁ e₂) ≤ scaleTo m₂ e₂ (min e₁ e₂))

/-- A finite value as an integer in units of 2^u. -/
def intAt (neg : Bool) (m : Nat) (e u : Int) : Int := if neg then -(scaleTo m e u : Int) else (scaleTo m e u : Int)

/-! ### Rounding (rules R97, R100, R101) -/

/-- Whether to go from the lower neighbour to the upper one in magnitude: `half` compares the rest with the midpoint, and
`odd` is the LSB of the lower neighbour. -/
def roundUp (mode : RMode) (neg : Bool) (half : Ordering) (exact odd : Bool) : Bool :=
  if exact then false
  else match mode with
    | .rn => match half with | .lt => false | .gt => true | .eq => odd
    | .rz => false
    | .ru => !neg
    | .rd => neg

/-- The magnitude code of a binary format for m × 2^e, m ≠ 0, with the exponent unbounded above (rule R97). -/
def BinFmt.roundMag (b : BinFmt) (mode : RMode) (neg : Bool) (m : Nat) (e : Int) : Nat :=
  let q := max (e + (m.log2 : Int) - (b.f : Int)) b.qmin
  let base := (q - b.qmin).toNat * 2 ^ b.f
  if q ≤ e then base + m * 2 ^ (e - q).toNat
  else
    let d := (q - e).toNat
    let n := m / 2 ^ d
    let r := m % 2 ^ d
    base + n + (if roundUp mode neg (compare (2 * r) (2 ^ d)) (r == 0) (n % 2 == 1) then 1 else 0)

/-- The magnitude code of a tapered format for m × 2^e, m ≠ 0: one past the largest code on overflow (rule R100). -/
def tapRound (n es : Nat) (mode : RMode) (neg : Bool) (m : Nat) (e : Int) : Nat :=
  let top := 2 ^ (n - 1) - 1
  let val (c : Nat) : Nat × Int := if c = 0 then (0, 0) else tapMag n es c
  let c := ((List.range top).filter (fun i => magLe (val (i + 1)).1 (val (i + 1)).2 m e)).length
  let lo := val c
  if c = top then (if magLe m e lo.1 lo.2 then top else top + 1)
  else
    let hi := val (c + 1)
    let u := min e (min lo.2 hi.2)
    let two := 2 * scaleTo m e u
    let mid := scaleTo lo.1 lo.2 u + scaleTo hi.1 hi.2 u
    c + (if roundUp mode neg (compare two mid) (scaleTo m e u == scaleTo lo.1 lo.2 u) (c % 2 == 1) then 1 else 0)

/-- The result of a finite overflow (rule R101). -/
def NumFmt.overflow (t : NumFmt) (mode : RMode) (sat neg : Bool) : Nat :=
  let sgn := if neg then 2 ^ (t.width - 1) else 0
  let largest := sgn + t.maxCode
  let big := match t with | .bin b => if b.infs then sgn + b.maxCode + 1 else b.nanCode | .tap _ _ => t.nanCode
  if sat then largest
  else match mode with
    | .rn => big
    | .rz => largest
    | .ru => if neg then largest else big
    | .rd => if neg then big else largest

/-- A zero of a sign. -/
def NumFmt.zero (t : NumFmt) (neg : Bool) : Nat :=
  match t with
  | .bin b => if neg then 2 ^ (b.w - 1) else 0
  | .tap _ _ => 0

/-- Rounds an exact value onto a format: the code (rules R95 to R102). `fz` flushes a subnormal result. -/
def NumFmt.round (t : NumFmt) (mode : RMode) (fz sat : Bool) (x : FVal) : Nat :=
  match x with
  | .nan => t.nanCode
  | .inf neg => if sat then (if neg then 2 ^ (t.width - 1) else 0) + t.maxCode
      else match t with
        | .bin b => if b.infs then (if neg then 2 ^ (b.w - 1) else 0) + b.maxCode + 1 else b.nanCode
        | .tap _ _ => t.nanCode
  | .num neg m e =>
    if m = 0 then t.zero neg
    else
      let sgn := if neg then 2 ^ (t.width - 1) else 0
      match t with
      | .bin b =>
        let c := b.roundMag mode neg m e
        if b.maxCode < c then t.overflow mode sat neg
        else if fz ∧ c < 2 ^ b.f then sgn
        else sgn + c
      | .tap n es =>
        let c := tapRound n es mode neg m e
        if t.maxCode < c then t.overflow mode sat neg
        else if c = 0 then 0
        else sgn + c

/-- A subnormal operand of a binary format read as zero of its sign (rule R96). -/
def flushIn (t : NumFmt) (fz : Bool) (x : FVal) : FVal :=
  match t, x with
  | .bin b, .num neg m e => if fz ∧ m < 2 ^ b.f ∧ e = b.qmin then .num neg 0 e else .num neg m e
  | _, x => x

/-! ### Exact arithmetic (rules R97, R118) -/

/-- The sign of an exact zero sum (rule R97). -/
def zeroSign (mode : RMode) (n₁ n₂ : Bool) : Bool := if n₁ = n₂ then n₁ else mode == .rd

/-- a + b, exact (rules R97, R118). -/
def fAdd (mode : RMode) (a b : FVal) : FVal :=
  match a, b with
  | .nan, _ => .nan
  | _, .nan => .nan
  | .inf n₁, .inf n₂ => if n₁ = n₂ then .inf n₁ else .nan
  | .inf n₁, .num _ _ _ => .inf n₁
  | .num _ _ _, .inf n₂ => .inf n₂
  | .num n₁ m₁ e₁, .num n₂ m₂ e₂ =>
    let u := min e₁ e₂
    let x := intAt n₁ m₁ e₁ u + intAt n₂ m₂ e₂ u
    if x = 0 then .num (zeroSign mode n₁ n₂) 0 u else .num (decide (x < 0)) x.natAbs u

def FVal.neg (a : FVal) : FVal :=
  match a with
  | .nan => .nan
  | .inf n => .inf (!n)
  | .num n m e => .num (!n) m e

def fSub (mode : RMode) (a b : FVal) : FVal := fAdd mode a b.neg

/-- a × b, exact (rule R118). -/
def fMul (a b : FVal) : FVal :=
  match a, b with
  | .nan, _ => .nan
  | _, .nan => .nan
  | .inf n₁, .inf n₂ => .inf (n₁ != n₂)
  | .inf n₁, .num n₂ m₂ _ => if m₂ = 0 then .nan else .inf (n₁ != n₂)
  | .num n₁ m₁ _, .inf n₂ => if m₁ = 0 then .nan else .inf (n₁ != n₂)
  | .num n₁ m₁ e₁, .num n₂ m₂ e₂ => .num (n₁ != n₂) (m₁ * m₂) (e₁ + e₂)

/-- a × b + c, exact. -/
def fFma (mode : RMode) (a b c : FVal) : FVal := fAdd mode (fMul a b) c

/-! ### Comparison (rules R119, R122) -/

/-- The order of two values, none when a NaN is among them; −0 equals +0. -/
def fCmp (a b : FVal) : Option Ordering :=
  match a, b with
  | .nan, _ => none
  | _, .nan => none
  | .inf n₁, .inf n₂ => some (if n₁ = n₂ then .eq else if n₁ then .lt else .gt)
  | .inf n₁, .num _ _ _ => some (if n₁ then .lt else .gt)
  | .num _ _ _, .inf n₂ => some (if n₂ then .gt else .lt)
  | .num n₁ m₁ e₁, .num n₂ m₂ e₂ => some (compare (intAt n₁ m₁ e₁ (min e₁ e₂)) (intAt n₂ m₂ e₂ (min e₁ e₂)))

/-- Whether a value's sign bit is set. -/
def FVal.isNeg (a : FVal) : Bool := match a with | .nan => false | .inf n => n | .num n _ _ => n

/-- FMIN and FMAX (rule R119), −0 below +0. -/
def fMinMax (isMax : Bool) (a b : FVal) : FVal :=
  match a, b with
  | .nan, b => b
  | a, .nan => a
  | a, b => match fCmp a b with
    | some .lt => if isMax then b else a
    | some .gt => if isMax then a else b
    | _ => if isMax then (if a.isNeg then b else a) else (if a.isNeg then a else b)

/-- The conditions of FCMP (rule R122). -/
def fCond (opx : Nat) (a b : FVal) : Bool :=
  match fCmp a b with
  | none => opx == 1 || opx == 7
  | some o =>
    match opx with
    | 0 => o == .eq
    | 1 => o != .eq
    | 2 => o == .lt
    | 3 => o != .gt
    | 4 => o == .gt
    | 5 => o != .lt
    | 6 => true
    | _ => false

/-- FCLASS (rule R120): the bits of an operand, by its format. -/
def fClass (t : NumFmt) (x : Nat) : Nat :=
  match t with
  | .bin b =>
    match b.decode x with
    | .nan => 2 ^ 8
    | .inf neg => if neg then 2 ^ 0 else 2 ^ 7
    | .num neg m _ =>
      if m = 0 then (if neg then 2 ^ 3 else 2 ^ 4)
      else if m < 2 ^ b.f then (if neg then 2 ^ 2 else 2 ^ 5)
      else (if neg then 2 ^ 1 else 2 ^ 6)
  | .tap _ _ =>
    match t.decode x with
    | .num neg m _ => if m = 0 then 2 ^ 4 else if neg then 2 ^ 1 else 2 ^ 6
    | _ => 2 ^ 9

/-! ### Functions (rule R121) -/

/-- A positive magnitude strictly between m and m + 1 units of 2^e, or m exactly: rounding sees it as the half unit. -/
def between (m : Nat) (e : Int) (exact : Bool) : Nat × Int := if exact then (m, e) else (2 * m + 1, e - 1)

/-- FRCP: 1 ÷ a with at least 120 bits before the rest. -/
def fRcp (a : FVal) : FVal :=
  match a with
  | .nan => .nan
  | .inf n => .num n 0 0
  | .num n m e =>
    if m = 0 then .inf n
    else
      let k := m.log2 + 120
      let q := between (2 ^ k / m) (-(k : Int) - e) (2 ^ k % m == 0)
      .num n q.1 q.2

/-- ⌊√n⌋ from a start above it; each round halves the distance or stops. -/
def sqrtFrom (fuel n x : Nat) : Nat :=
  match fuel with
  | 0 => x
  | k + 1 =>
    let y := (x + n / x) / 2
    if y < x then sqrtFrom k n y else x
def sqrtN (n : Nat) : Nat := if n = 0 then 0 else sqrtFrom (n.log2 + 2) n (2 ^ (n.log2 / 2 + 1))

/-- √(m × 2^e) with at least 100 bits before the rest. -/
def sqrtVal (m : Nat) (e : Int) : Nat × Int :=
  let (m, e) := if e % 2 = 0 then (m, e) else (2 * m, e - 1)
  let n := m * 2 ^ 200
  let r := sqrtN n
  between r (e / 2 - 100) (r * r == n)

/-- FSQRT. -/
def fSqrt (a : FVal) : FVal :=
  match a with
  | .nan => .nan
  | .inf n => if n then .nan else .inf false
  | .num n m e =>
    if m = 0 then .num n 0 e
    else if n then .nan
    else .num false (sqrtVal m e).1 (sqrtVal m e).2

/-- FRSQ: 1 ÷ √a. -/
def fRsq (a : FVal) : FVal :=
  match a with
  | .nan => .nan
  | .inf n => if n then .nan else .num false 0 0
  | .num n m e =>
    if m = 0 then .inf n
    else if n then .nan
    else
      let (m, e) := if e % 2 = 0 then (m, e) else (2 * m, e - 1)
      let k := m.log2 + 120
      let r := sqrtN (2 ^ (2 * k) / m)
      let q := between r (-(k : Int) - e / 2) (r * r * m == 2 ^ (2 * k))
      .num false q.1 q.2

/-- log2 of y in [1, 2), y from `y` units of 2^−512: `n` bits of the fraction by repeated squaring. -/
def logBits (n y acc : Nat) : Nat :=
  match n with
  | 0 => acc
  | k + 1 =>
    let z := y * y / 2 ^ 512
    if 2 ^ 513 ≤ z then logBits k (z / 2) (2 * acc + 1) else logBits k z (2 * acc)

/-- FLOG2 of a finite positive value: exact for a power of two, else between two neighbours of 160 fraction bits (log entry 14). -/
def logVal (m : Nat) (e : Int) : FVal :=
  let k : Int := e + (m.log2 : Int)
  if m = 2 ^ m.log2 then .num (decide (k < 0)) k.natAbs 0
  else
    let lo := k * (2 ^ 160 : Nat) + (logBits 160 (m * 2 ^ 512 / 2 ^ m.log2) 0 : Int)
    if 0 ≤ lo then .num false (2 * lo.natAbs + 1) (-161)
    else .num true (2 * (lo.natAbs - 1) + 1) (-161)

/-- FLOG2. -/
def fLog2 (a : FVal) : FVal :=
  match a with
  | .nan => .nan
  | .inf n => if n then .nan else .inf false
  | .num n m e => if m = 0 then .inf true else if n then .nan else logVal m e

/-- 2^f in units of 2^−256, for f = r ÷ 2^n: `c` is 2^(2^−i) for the bit of weight 2^−i, taken from the top. -/
def expBits (n r c x : Nat) : Nat :=
  match n with
  | 0 => x
  | k + 1 =>
    let c := sqrtN (c * 2 ^ 256)
    expBits k r c (if r / 2 ^ k % 2 = 1 then x * c / 2 ^ 256 else x)

/-- FEXP2 of a finite non-zero value: exact for an integer, else to 240 bits (log entry 14). A value below 2^−40 in magnitude gives a
result within 2^−40 of 1, which rounds to nearest as 1 does; ±400 stands for any value beyond it. -/
def expVal (neg : Bool) (m : Nat) (e : Int) : FVal :=
  if magLe 400 0 m e then .num false 1 (if neg then -400 else 400)
  else if magLe m e 1 (-40) then .num false 1 0
  else
    let n := (-e).toNat
    let x := intAt neg m e (min e 0)
    let k := x / ((2 ^ n : Nat) : Int)
    let r := (x % ((2 ^ n : Nat) : Int)).toNat
    if r = 0 then .num false 1 k else .num false (2 * expBits n r (2 ^ 257) (2 ^ 256) + 1) (k - 257)

/-- FEXP2. -/
def fExp2 (a : FVal) : FVal :=
  match a with
  | .nan => .nan
  | .inf n => if n then .num false 0 0 else .inf false
  | .num n m e => if m = 0 then .num false 1 0 else expVal n m e

/-! ### Conversion to integers (rules R102, R124) -/

/-- A finite value rounded to an integer. -/
def roundInt (mode : RMode) (neg : Bool) (m : Nat) (e : Int) : Int :=
  let n := if 0 ≤ e then m * 2 ^ e.toNat else
    let d := (-e).toNat
    let q := m / 2 ^ d
    let r := m % 2 ^ d
    q + (if roundUp mode neg (compare (2 * r) (2 ^ d)) (r == 0) (q % 2 == 1) then 1 else 0)
  if neg then -(n : Int) else (n : Int)

/-- A value converted to an integer of `n` bits, clamped. -/
def toInt (mode : RMode) (signed : Bool) (n : Nat) (a : FVal) : Int :=
  let big : Int := if signed then (2 ^ (n - 1) : Nat) - 1 else (2 ^ n : Nat) - 1
  let small : Int := if signed then -((2 ^ (n - 1) : Nat) : Int) else 0
  match a with
  | .nan => 0
  | .inf neg => if neg then small else big
  | .num neg m e => max small (min big (roundInt mode neg m e))

/-- An exact integer as a value. -/
def ofInt (x : Int) : FVal := .num (decide (x < 0)) x.natAbs 0

/-! ### S20 scales (rule R103) -/

/-- The value of an S20 scale in the low 20 bits of a word. -/
def s20 (x : Nat) : FVal :=
  let e := x / 4096 % 256
  if e = 0 then .num false 0 0
  else if e = 255 then .nan
  else .num false (4096 + x % 4096) ((e : Int) - 127 - 12)

/-! ### Terms (rules R104 to R107) -/

/-- recode(S): (negative, position) pairs, lowest position first. -/
def recodeUp (fuel s p : Nat) : List (Bool × Nat) :=
  match fuel with
  | 0 => []
  | k + 1 =>
    if s = 0 then []
    else if s % 2 = 1 then
      (if s % 4 = 3 then (true, p) :: recodeUp k ((s + 1) / 2) (p + 1) else (false, p) :: recodeUp k ((s - 1) / 2) (p + 1))
    else recodeUp k (s / 2) (p + 1)

/-- recode(S), highest position first (rule R104). -/
def recode (s : Nat) : List (Bool × Nat) := (recodeUp (s.log2 + 3) s 0).reverse

end Sys2Proof.Machine
end

