-- ==== Sys2Proof/Machine/Memory.lean ====
section
/-! DEFINITION. Physical memory in its canonical form, the homes, the L1 caches, record rings and translation (chapters 11 and 13). -/

namespace Sys2Proof.Machine

/-! ### Cells -/

/-- The byte an address holds that is not listed: zero (log entry 2). -/
def emptyByte : Byte := 0

/-- The byte at an address. -/
def memGet (m : List Host.Cell) (a : Nat) : Byte :=
  match m with
  | [] => emptyByte
  | (b, x) :: rest => if b = a then x else memGet rest a

/-- Memory with a byte written; writing the unlisted value removes the entry. -/
def memSet (m : List Host.Cell) (a : Nat) (x : Byte) : List Host.Cell :=
  match m with
  | [] => if x = emptyByte then [] else [(a, x)]
  | (b, y) :: rest =>
    if a < b then (if x = emptyByte then (b, y) :: rest else (a, x) :: (b, y) :: rest)
    else if a = b then (if x = emptyByte then rest else (a, x) :: rest)
    else (b, y) :: memSet rest a x

/-- Memory with a list of cells written in order. -/
def memSetAll (m : List Host.Cell) (cs : List Host.Cell) : List Host.Cell := cs.foldl (fun m c => memSet m c.1 c.2) m

/-- Whether every listed address lies above `a`, rising, with no entry equal to the unlisted byte. -/
def memAbove (a : Option Nat) (m : List Host.Cell) : Bool :=
  match m with
  | [] => true
  | (b, x) :: rest => (match a with | none => true | some c => decide (c < b)) && x != emptyByte && memAbove (some b) rest

/-- The canonical form: addresses strictly rising, no entry equal to what an unlisted address reads as. -/
def Memory.wf (m : List Host.Cell) : Bool := memAbove none m

/-- `n` bytes from `a`. -/
def memBytes (m : List Host.Cell) (a n : Nat) : List Byte := (List.range n).map (fun i => memGet m (a + i))

/-! ### Regions (rules R260, R287, R288, R436) -/

/-- The region of a physical address (rule R260). -/
def regionOf (pa : Nat) : Nat := pa / 2 ^ 50 % 4

/-- Word `w` of interleave region `r`. -/
def State.regionWord (s : State) (r w : Nat) : W64 := s.regions.get 0 (8 * r + w)

/-- Whether a device address lies in an enabled interleave region (rule R287). -/
def State.interleaved (s : State) (pa : Nat) : Bool :=
  (List.range 8).any (fun r =>
    let x := s.regionWord r 0
    fld x 63 1 == 1 && decide (fld x 32 9 * 2 ^ 30 ≤ pa) && decide (pa < fld x 48 9 * 2 ^ 30))

/-- Whether a port carries traffic (rule R436): UP, REPLAY, REPAIRPEND or REPAIRING. -/
def Port.usable (p : Port) : Bool := p.state == 2 || p.state == 3 || p.state == 4 || p.state == 5

/-- The usable ports toward a package, in increasing number (rule R436). -/
def State.usablePorts (s : State) (pkg : Nat) : List Nat :=
  (List.range 12).filter (fun j => fld (s.uroute.get 0 pkg) j 1 == 1 && (s.port j).usable)

/-- Whether a line lies in another package that no usable port reaches now (rule R440): an access to it that has issued waits. -/
def State.cutOff (s : State) (line : Nat) : Bool :=
  regionOf (128 * line) == 1 && (s.usablePorts (128 * line / 2 ^ 40 % 1024)).isEmpty

/-- Whether the region of a physical address accepts an access (rules R260, R287, R436). -/
def State.regionOk (s : State) (pa : Nat) : Bool :=
  match regionOf pa with
  | 0 => decide (pa < Config.deviceBytes) && s.interleaved pa
  | 1 => decide (pa % 2 ^ 40 < Config.deviceBytes) && pa / 2 ^ 40 % 1024 != fld s.pkgid 0 10
      && !(s.usablePorts (pa / 2 ^ 40 % 1024)).isEmpty
  | 2 => true
  | _ => false

/-- The place of a device line in HBM (rule R288): channel, pseudo-channel, bank group, bank, row, column line. -/
def State.hbmPlace (s : State) (r pa : Nat) : Nat × Nat × Nat × Nat × Nat × Nat :=
  let lx := (pa - fld (s.regionWord r 0) 32 9 * 2 ^ 30) / 128
  let h := (lx ^^^ (lx >>> 5) ^^^ (lx >>> 10)) % 2 ^ 32
  let live := (List.range 256).filter (fun c => fld (s.regionWord r (4 + c / 64)) (c % 64) 1 == 1)
  let q := h / live.length + fld (s.regionWord r 0) 0 32
  let par (m : Nat) : Nat := (List.range 32).foldl (fun a i => (a + (q &&& m) >>> i % 2) % 2) 0
  let m (w lo : Nat) : Nat := fld (s.regionWord r w) lo 32
  (live.getD (h % live.length) 0, (q >>> 4 % 2) ^^^ par (m 1 0),
    (q >>> 5 % 4) ^^^ (2 * par (m 2 0) + par (m 1 32)), (q >>> 7 % 4) ^^^ (2 * par (m 3 0) + par (m 2 32)), q >>> 9, q % 16)

/-- Sends a transaction of class `cls` from a core to another package (rules R436, R437): none while no usable port reaches it. A
flow keeps its port while it has an unacknowledged transaction, unless that port is DOWN (R440). -/
def State.sendXact (s : State) (core pkg cls : Nat) (op : RemoteOp) (slot gid iid wid : Nat) : Option (State × Nat) :=
  match s.usablePorts pkg with
  | [] => none
  | ports =>
    let flow := 256 * cls + core
    let mine := s.xacts.find? (fun x => x.pkg == pkg && x.flow == flow && (s.port x.port).state != 0)
    let port := match mine with | some x => x.port | none => ports.getD ((core ^^^ pkg) % ports.length) 0
    let key := 2048 * pkg + flow
    let seq := s.flowOut.get 0 key
    let x : Xact := { xid := s.nextId, pkg := pkg, flow := flow, seq := seq, port := port, op := op, core := core, slot := slot, gid := gid,
                      iid := iid, wid := wid, since := s.cycle }
    some ({ s with nextId := s.nextId + 1, xacts := s.xacts ++ [x], flowOut := s.flowOut.set key (seq + 1) }, s.nextId)

/-- A read of another package's memory by a core (rules R436, R437, R438): the next number of its flow, on the flow's port. DESIGN CHOICE:
it is sent and answered in one step, the one in which the bytes come (log entry 134). -/
def State.farRead (s : State) (core pa n : Nat) : State :=
  if regionOf pa != 1 then s
  else match s.sendXact core (pa / 2 ^ 40 % 1024) 2 (.read (pa % 2 ^ 40) n) 0 0 0 0 with
    | some (t, x) => { t with xacts := t.xacts.filter (fun y => y.xid != x) }
    | none => s

/-! ### Counters and record rings (rules R415, R454 to R458) -/

/-- Counts `n` events of kind `evt` in the partition's counters (rule R454). -/
def State.count (s : State) (p evt n : Nat) : State :=
  let P := s.part p
  let hit := (List.range 16).filter (fun i => fld (P.pcsel.get 0 i) 63 1 == 1 && fld (P.pcsel.get 0 i) 0 8 == evt && evt != 0)
  if hit.isEmpty || n = 0 then s
  else s.updPart p (fun P => { P with pcnt := hit.foldl (fun t i => t.set i (t.get 0 i + w64 n)) P.pcnt })

/-- Slots of a record ring (rule R455). -/
def Ring.size (r : Ring) : Nat := 2 ^ (Nat.min (fld r.ctl 0 4) 12 + 8)
def Ring.base56 (r : Ring) : Nat := fld r.base 12 45 * 4096
def Ring.full (r : Ring) : Bool := decide (r.size ≤ (r.wptr - r.rptr).toNat)
def Ring.lose (r : Ring) : Ring := { r with drop := w32 (satAdd r.drop.toNat 1 32) }

/-- Bytes of a record of four words. -/
def recBytes (ws : List W64) : List Byte := (ws.map (fun x => bytesOf x.toNat 8)).flatten

/-! ### The HOST budget (rule R394) -/

/-- Whether a partition's PCIe and CXL traffic waits for its budget. -/
def State.hostWaits (s : State) (part : Nat) : Bool := fld (s.part part).pbud0 16 16 != 0 && decide ((s.part part).hostLeft ≤ 0)

/-- What a transfer of `n` bytes uses of the budget. -/
def State.hostUsed (s : State) (part n : Nat) : State :=
  if n = 0 then s else s.updPart part (fun P => { P with hostLeft := P.hostLeft - (n : Int) })

/-! ### The L2 slices (rules R274, R275, R431) -/

/-- Whether any granule of a byte range is poisoned. -/
def State.poisoned (s : State) (pa n : Nat) : Bool :=
  s.poison.any (fun g => decide (pa < 32 * g + 32) && decide (32 * g < pa + n))

/-- The stack whose HBM holds a device address: the one whose channel the interleave mapping gives (rules R287, R288). -/
def State.homeStack (s : State) (pa : Nat) : Nat :=
  match (List.range 8).find? (fun r => fld (s.regionWord r 0) 63 1 == 1 && decide (fld (s.regionWord r 0) 32 9 * 2 ^ 30 ≤ pa)
      && decide (pa < fld (s.regionWord r 0) 48 9 * 2 ^ 30)) with
  | some r => (s.hbmPlace r pa).1 / 128
  | none => 0

/-- The stack whose slice holds a line for an agent of stack `k`: the line's own, and for host memory the agent's (rules R274, R443). -/
def State.sliceOf (s : State) (k line : Nat) : Nat := if regionOf (128 * line) == 2 then k else s.homeStack (128 * line)

/-- Adds a tag of an L2 slice for the sectors of a line, replacing the oldest line of a full set that lacks the keep hint
(rules R274, R275); requester-side copies of the other stack's lines take at most 4 ways of a set (R431), where one with the keep hint
gives way only when no line of its set lacks the hint: else no further copy is kept (DESIGN CHOICE; log entry 11). -/
def State.l2Touch (s : State) (stack line : Nat) (secs : BitVec 4) (keep : Bool) : State :=
  let same (t : L2Tag) : Bool := t.stack == stack && t.line == line
  let old := s.l2.find? same
  let tag : L2Tag := match old with
    | some t => { t with secs := t.secs ||| secs, keep := t.keep || keep }
    | none => ⟨stack, line, secs, keep⟩
  let rest := s.l2.filter (fun t => !same t)
  let set := rest.filter (fun t => t.stack == stack && t.line % 48 == line % 48 && t.line / 48 % 2048 == line / 48 % 2048)
  let away (l : Nat) : Bool := s.sliceOf stack l != stack
  let copies := set.filter (fun t => away t.line)
  let full := away line && decide (4 ≤ copies.length)
  let plain (ts : List L2Tag) : Option L2Tag := ts.find? (fun t => !t.keep)
  if full && (plain copies).isNone && (plain set).isSome then s
  else
  let victim : Option L2Tag := if full then (plain copies).or copies.head?
    else if set.length < 16 then none else (plain set).or set.head?
  let rest := match victim with
    | some v => rest.filter (fun t => t != v)
    | none => rest
  let kept := set.filter (fun t => t.keep)
  let rest := if keep && decide (12 ≤ kept.length) then
      match kept.head? with
      | some v => updIf rest (fun t => t == v) (fun t => { t with keep := false })
      | none => rest
    else rest
  { s with l2 := rest ++ [tag] }

/-- The sectors of a line that a core's stack finds in the L2: in its own slice or the line's. DESIGN CHOICE: a copy that only the other
stack's slice still holds is not found (log entry 135). -/
def State.l2Held (s : State) (c line : Nat) : BitVec 4 :=
  let mine := stackOf c
  s.l2.foldl (fun (a : BitVec 4) t => if t.line == line && (t.stack == mine || t.stack == s.sliceOf mine line) then a ||| t.secs else a) 0

/-- Whether an access of a core for a partition to a line waits: for a port toward another package (rule R440), or for the budget of host
traffic, where the L2 does not hold all of a line of host memory (R394; log entry 93). -/
def State.barred (s : State) (part c line : Nat) : Bool :=
  s.cutOff line || (regionOf (128 * line) == 2 && s.hostWaits part && s.l2Held c line != 15)

/-- An access of a core to sectors of a line in the L2: counted as sector hits and misses of its partition (rule R454). The line's own
slice holds them from then on, and a requester-side copy is kept (R431). -/
def State.l2Look (s : State) (c line : Nat) (secs : BitVec 4) (keep : Bool) : State :=
  let mine := stackOf c
  let home := s.sliceOf mine line
  let held := s.l2Held c line
  let ones (x : BitVec 4) : Nat := ((List.range 4).filter x.getLsbD).length
  let p := s.partOf c
  let missed := ones (secs &&& ~~~held)
  let s := (((s.count p 8 (ones (secs &&& held))).count p 9 missed).hostUsed p (if regionOf (128 * line) == 2 then 32 * missed else 0)).l2Touch home line secs keep
  if home == mine then s else s.l2Touch mine line secs keep

/-- The sectors of a line that cells lie in. -/
def secsIn (line : Nat) (cs : List Host.Cell) : BitVec 4 :=
  cs.foldl (fun (a : BitVec 4) x => if x.1 / 128 == line then a ||| BitVec.ofNat 4 (2 ^ (x.1 / 32 % 4)) else a) 0

/-- The L2 after a write by an agent of stack `k`: the written sectors stand in the line's slice, and its other copies are gone (rules
R275, R431). -/
def State.l2Wrote (s : State) (k : Nat) (cells : List Host.Cell) : State :=
  (unitsOf 128 cells).foldl (fun s l =>
    if regionOf (128 * l) == 1 then s
    else ({ s with l2 := s.l2.filter (fun t => !(t.line == l && t.stack != s.sliceOf k l)) } : State).l2Touch (s.sliceOf k l) l (secsIn l cells) false) s

/-! ### The homes (rules R292, R321, R431, R443) -/

/-- Bytes of the local store of a team. -/
def Team.bytes (T : Team) (o n : Nat) : List Byte := (List.range n).map (fun i => T.ls.get 0 (o + i))
def lsSet (m : Tab Byte) (o : Nat) (b : List Byte) : Tab Byte :=
  (cellsAt o b).foldl (fun m c => if c.2 = 0 then m.erase c.1 else m.set c.1 c.2) m

/-- The windows of all teams that hold a physical line: team, window, line index, state. -/
def State.holders (s : State) (line : Nat) : List (Nat × Nat × Nat × LineSt) :=
  (s.teams.map (fun (t, T) => (T.wins.map (fun (w, W) =>
    (W.st.filter (fun e => e.2.2 == line)).map (fun e => (t, w, e.1, e.2.1)))).flatten)).flatten

/-! ### Table entries (rules R276, R279, R280) -/

def pageShift (size : Nat) : Nat := match size with | 0 => 16 | 1 => 21 | 2 => 30 | _ => 35
def pageBytes (size : Nat) : Nat := 2 ^ pageShift size

/-- The bucket of a virtual address at a size code (rule R280). -/
def bucketOf (va size : Nat) : Nat :=
  let x := va >>> pageShift size
  (x ^^^ (x >>> 18) ^^^ (x >>> 36) ^^^ (size <<< 16)) % 2 ^ 18

/-- The entry of a bucket's 128 bytes that matches (rules R279, R280). -/
def matchBucket (part va size : Nat) (b : List Byte) (skip : Nat → Bool) : Option TlbEnt :=
  let ents := (List.range 4).map (fun i =>
    let word (w : Nat) : W64 := w64 (numOf ((b.drop (32 * i + 8 * w)).take 8))
    let sh := pageShift size
    let vpn := fld (word 0) 0 41 * 65536
    if !skip i && fld (word 0) 63 1 == 1 && fld (word 0) 58 2 == size && vpn >>> sh == va >>> sh then
      some { part := part, size := size, vbase := (va >>> sh) <<< sh, frame := (fld (word 1) 0 52 >>> sh) <<< sh,
             rd := fld (word 0) 62 1 == 1, wr := fld (word 0) 61 1 == 1,
             mig := if fld (word 0) 60 1 == 1 then some ((fld (word 2) 0 52 >>> sh) <<< sh, fld (word 3) 6 46 * 64) else none : TlbEnt }
    else none)
  (ents.filterMap id).head?

/-- The table entry of a virtual address, read from memory as it stands (rule R280). -/
def matchAt (m : List Host.Cell) (ttb : W64) (part va : Nat) : Option TlbEnt :=
  [3, 2, 1, 0].foldl (fun r size => match r with
    | some e => some e
    | none => if fld ttb (60 + size) 1 == 0 then none
        else matchBucket part va size (memBytes m (fld ttb 25 27 * 2 ^ 25 + 128 * bucketOf va size) 128) (fun _ => false)) none

/-- The migration pair of a physical line by its page's entry as memory holds it now (rules R281, R282): none where the virtual address is
not known, or no longer maps the line. -/
def State.pairNow (s : State) (part : Nat) (va : Option Nat) (line : Nat) : Option (Nat × Nat) :=
  va.bind (fun v => (matchAt s.mem (s.part part).ttb part v).bind (fun e =>
    if (e.frame + (v - e.vbase)) / 128 = line then e.mig.map (fun (nf, bm) =>
      (nf + (128 * line - e.frame) / 128 * 128, 8 * bm + (128 * line - e.frame) / 128)) else none))

/-- The second place of a byte of a migrating page whose bitmap bit is set (rule R282): `m` is the new line address and
the bit's number. -/
def State.migDup (s : State) (m : Option (Nat × Nat)) : Option Nat :=
  match m with
  | none => none
  | some (new, bit) => if (memGet s.mem (bit / 8)).getLsbD (bit % 8) then some new else none

/-- The migration pair of the line of `pa` in a page at `frame` with new frame and bitmap (rule R282). -/
def migOf (mig : Option (Nat × Nat)) (frame pa : Nat) : Option (Nat × Nat) :=
  mig.map (fun (nf, bm) => (nf + (pa - frame) / 128 * 128, 8 * bm + (pa - frame) / 128))

/-- Wakes the splits that wait on a counter in a line that was written (rule R314). -/
def wakeCounters (line : Nat) (G : Group) : Group :=
  let hit (p : Split) : Bool := match p.wait with
    | .counter pa => pa / 128 == line
    | _ => false
  { G with splits := updIf G.splits hit (fun p => { p with wait := .ready }) }

def State.wakeLine (s : State) (line : Nat) : State :=
  { s with cores := s.cores.mapV (fun k => { k with slots := k.slots.mapV (wakeCounters line) }) }

/-- A write that waits among a core's writes under group 0: a write-back of a line that a copy owns (rule R331), one that must follow
such a write-back (`lrel`, rule R330), or a window's line of another package (R336). -/
def State.backLater (s : State) (c line : Nat) (cs : List Host.Cell) (mig : Option (Nat × Nat)) (lrel : Bool) : State :=
  let q := s.fresh
  let h : HomeWrite := { id := q.1, slot := 0, gid := 0, split := 0, iid := 0, cells := cs, lrel := lrel,
                         mig := match mig with | some m => [(line, m)] | none => [] }
  q.2.updCore c (fun k => { k with homeq := k.homeq ++ [h] })

/-- A directory recall or invalidation of a line at one window (rules R265, R282, R333): M is written back with the marks of its
poisoned words, to both places of a page that migrates now or migrated when the line was owned, then I; a line of another package is
written back there (R336). Bytes of host memory use the HOST budget (R394). -/
def State.recallAt (s : State) (t w i : Nat) : State :=
  match s.teams.find t with
  | none => s
  | some T =>
    match T.wins.find w with
    | none => s
    | some W =>
      match W.st.find i with
      | none => s
      | some (st, line) =>
        let s := s.updTeam t (fun T => { T with wins := T.wins.set w { W with st := W.st.erase i, mig := W.mig.erase i } })
        if st != .m then s
        else
          let data := T.bytes (W.off + 128 * i) 128
          let bad := T.lsBad.filter (fun g => decide ((W.off + 128 * i) / 8 ≤ g) && decide (g < (W.off + 128 * i) / 8 + 16))
          let marks (l : Nat) : List Nat := (bad.map (fun g => 4 * l + (g - (W.off + 128 * i) / 8) / 4)).eraseDups
          let back (s : State) (l : Nat) : State :=
            (({ s with mem := memSetAll s.mem (cellsAt (128 * l) data), poison := s.poison.filter (fun g => g / 4 != l) ++ marks l } : State).l2Wrote
              (stackOf T.core) (cellsAt (128 * l) data)).hostUsed T.part (if regionOf (128 * l) == 2 then 128 else 0)
          if regionOf (128 * line) == 1 then s.backLater T.core line (cellsAt (128 * line) data) none false
          else
            let mig := (s.pairNow T.part (some (W.va + 128 * i)) line).or (W.mig.find i)
            let s := (back s line).wakeLine line
            match s.migDup mig with
            | some n => back s (n / 128)
            | none => s

/-- Recalls the windows that hold a line: for a read those in E or M, for a write all of them. -/
def State.recall (s : State) (line : Nat) (write : Bool) : State :=
  (s.holders line).foldl (fun s (t, w, i, st) => if write || st != .s then s.recallAt t w i else s) s

/-- Whether a copy owns a line at its home (rule R331). -/
def State.owned (s : State) (line : Nat) : Bool :=
  s.cores.any (fun (_, k) => (k.eng0 ++ k.eng1).any (fun c => (c.owned.find line).isSome))

/-- The bytes of a read at the home (rules R326, R328): device and host memory hold values; the memory of another
package answers a free value (log entry 12). -/
def State.homeRead (s : State) (pa n : Nat) : State × List Byte :=
  if regionOf pa == 1 then s.drawBytes n
  else
    let s := (unitsOf 128 (cellsAt pa (List.replicate n 0))).foldl (fun s l => s.recall l false) s
    (s, memBytes s.mem pa n)

/-- Bytes that an agent of stack `k` writes take effect at their homes: windows are recalled, host and L2 copies invalidated, gathers
may no longer join the lines' packets, and counter waiters wake (rules R285, R314, R328, R333, R443). -/
def State.homeSet (s : State) (k : Nat) (cells : List Host.Cell) : State :=
  let lines := unitsOf 128 cells
  let s := lines.foldl (fun s l => s.recall l true) s
  let s := ({ s with hostHeld := s.hostHeld.filter (fun l => !lines.contains l) } : State).l2Wrote k cells
  let s := if lines.any (fun l => regionOf (128 * l) == 1) then s else { s with mem := memSetAll s.mem cells }
  let heard (p : Packet) : Packet := if !p.write && lines.contains p.line then { p with sealed := true } else p
  let s := { s with cores := s.cores.mapV (fun k => { k with packets := k.packets.map heard }) }
  lines.foldl (fun s l => s.wakeLine l) s

/-- The home takes a line for one agent of stack `k` alone (rules R265, R285, R331): the host gives it up, the other L2 copies go, and no
later gather joins an older packet of it. -/
def State.exclusive (s : State) (k line : Nat) : State :=
  let heard (p : Packet) : Packet := if !p.write && p.line == line then { p with sealed := true } else p
  { s with hostHeld := s.hostHeld.filter (fun l => l != line)
           l2 := s.l2.filter (fun t => !(t.line == line && t.stack != s.sliceOf k line))
           cores := s.cores.mapV (fun c => { c with packets := c.packets.map heard }) }

/-- Writes a machine-check record (rules R455, R456): a write of the whole granule of its slot (R290). -/
def State.mcPut (s : State) (ws : List W64) : State :=
  if fld s.mc.ctl 63 1 == 0 || s.mc.full then { s with mc := s.mc.lose }
  else
    let a := s.mc.base56 + 32 * (s.mc.wptr.toNat % s.mc.size)
    let s := s.homeSet 0 (cellsAt a (recBytes ws))
    { s with poison := s.poison.filter (fun g => g != a / 32), mc := { s.mc with wptr := s.mc.wptr + 1 } }

/-- Whether the machine-check ring's next record waits for a copy that owns its slot's line (rule R331). -/
def State.mcHeld (s : State) : Bool :=
  fld s.mc.ctl 63 1 == 1 && !s.mc.full && s.owned ((s.mc.base56 + 32 * (s.mc.wptr.toNat % s.mc.size)) / 128)

/-- Logs a machine-check record (rules R415, R456); one whose slot a copy owns, and those after it, wait (R331). -/
def State.mcRecord (s : State) (kind part pa place : Nat) (synd : W64) : State :=
  let ws := [w64 s.now, w64 (at_ kind 56 + at_ part 53 + pa % 2 ^ 52), w64 (place % 2 ^ 24), synd]
  if s.late.any (fun r => r.ring == 0) || s.mcHeld then { s with late := s.late ++ [⟨0, ws⟩] } else s.mcPut ws

/-- Records the poisoned granules that a read of a range at the home found (rule R415). -/
def State.readPoison (s : State) (part place pa n : Nat) : State :=
  (unitsOf 32 (cellsAt pa (List.replicate n 0))).foldl (fun s g =>
    if s.poison.contains g then s.mcRecord 1 part (32 * g) place (Config.syndrome (32 * g)) else s) s

/-- A write at the home by the agent at a place (rules R290, R292): bytes merged by granule, poison cleared by a whole granule and
kept by a partial one with a machine-check record. `bad` lists granules written with their poison mark. Bytes of host memory use the
partition's HOST budget (R394). -/
def State.homeWrite (s : State) (part place : Nat) (cells : List Host.Cell) (bad : List Nat) : State :=
  let s := (s.homeSet (place / 2 ^ 13 % 2) cells).hostUsed part (cells.filter (fun x => regionOf x.1 == 2)).length
  (unitsOf 32 cells).foldl (fun s g =>
    let whole := decide (32 ≤ (cells.foldl (fun (acc : List Nat) c => if c.1 / 32 == g then addNew acc c.1 else acc) []).length)
    if bad.contains g then { s with poison := addNew s.poison g }
    else if !s.poison.contains g then s
    else if whole then { s with poison := s.poison.filter (fun x => x != g) }
    else s.mcRecord 2 part (32 * g) place 0) s

/-! ### The L1 (rules R269 to R272, R330) -/

def bit128 (x : BitVec 128) (i : Nat) : Bool := x.getLsbD i

def Core.l1line (k : Core) (line : Nat) : Option L1Line := k.l1.find? (fun l => l.line == line)

/-- The dirty bytes of a line as cells. -/
def L1Line.dirtyCells (l : L1Line) : List Host.Cell :=
  ((List.range 128).filter (bit128 l.dirty)).map (fun i => (128 * l.line + i, l.data.getD i 0))

/-- The sectors whose 32 bytes all satisfy a bit mask, and those of which some do. -/
def wholeSecs (d : BitVec 128) : BitVec 4 :=
  BitVec.ofNat 4 ((List.range 4).foldl (fun (a : Nat) j => if (List.range 32).all (fun i => bit128 d (32 * j + i)) then a + 2 ^ j else a) 0)
def someSecs (d : BitVec 128) : BitVec 4 :=
  BitVec.ofNat 4 ((List.range 4).foldl (fun (a : Nat) j => if (List.range 32).any (fun i => bit128 d (32 * j + i)) then a + 2 ^ j else a) 0)

/-- The bytes of the sectors of a mask. -/
def secBytes (v : BitVec 4) : BitVec 128 :=
  (List.range 4).foldl (fun (d : BitVec 128) j => if v.getLsbD j then d ||| (0xFFFFFFFF : BitVec 128) <<< (32 * j) else d) 0

/-- A line whose dirty bytes have left it: they stay, clean and valid (rule R308), also in a sector that is not valid as a whole. -/
def L1Line.clean (l : L1Line) : L1Line :=
  { l with dirty := 0, valid := l.valid ||| wholeSecs (l.dirty ||| l.kept)
           kept := (l.dirty ||| l.kept) &&& ~~~(secBytes (l.valid ||| wholeSecs (l.dirty ||| l.kept))) }

/-- A line with the sectors `secs` taken from the bytes at its home, under its dirty bytes; `bad` are the poisoned ones (rule R270): a
sector whose bytes are all dirty keeps none of the home's. -/
def L1Line.take (l : L1Line) (secs bad : BitVec 4) (data : List Byte) : L1Line :=
  { l with
    kept := l.kept &&& ~~~(secBytes secs)
    data := (List.range 128).map (fun i => if bit128 l.dirty i || !secs.getLsbD (i / 32) then l.data.getD i 0 else data.getD i 0)
    poison := l.poison ||| (bad &&& secs &&& ~~~(wholeSecs l.dirty))
    valid := l.valid ||| secs }

def State.corePlace (s : State) (c : Nat) : Nat := s.placeOf c 0

/-- The poisoned sectors of a line at its home. -/
def State.badSecs (s : State) (line : Nat) : BitVec 4 :=
  BitVec.ofNat 4 ((List.range 4).foldl (fun (a : Nat) j => if s.poisoned (128 * line + 32 * j) 32 then a + 2 ^ j else a) 0)

/-- Bytes that a core writes back take effect at their home, at both places of a migrating page (rules R269, R282). -/
def State.backNow (s : State) (c : Nat) (cs : List Host.Cell) (mig : Option (Nat × Nat)) : State :=
  let s := s.homeWrite (s.partOf c) (s.corePlace c) cs []
  match s.migDup mig with
  | some n => s.homeWrite (s.partOf c) (s.corePlace c) (cs.map (fun (x : Host.Cell) => (n + x.1 % 128, x.2))) []
  | none => s

/-- Whether a write on its way carries bytes of a group; of a split's instructions before `before`. -/
def HomeWrite.carries (h : HomeWrite) (gid : Nat) : Bool := h.gid == gid || h.also.any (fun x => x.1 == gid)
def HomeWrite.ofSplit (h : HomeWrite) (gid split before : Nat) : Bool :=
  (h.gid == gid && h.split == split && decide (h.iid < before)) || h.also.any (fun x => x.1 == gid && x.2.1 == split && decide (x.2.2 < before))

/-- Whether a write-back of a core waits; whether one of a line does; whether a line has any write on its way to its home in this package. -/
def Core.backlog (k : Core) : Bool := k.homeq.any (fun h => h.gid == 0)
def Core.backing (k : Core) (line : Nat) : Bool := k.homeq.any (fun h => h.gid == 0 && h.cells.any (fun x => x.1 / 128 == line))
def Core.sending (k : Core) (line : Nat) : Bool := k.homeq.any (fun h => h.xid.isNone && h.cells.any (fun x => x.1 / 128 == line))

/-- Whether a queued write of a core may take effect: no copy owns a line of it (rule R331), the pair's earlier writes of its lines
have gone before it (R321), and for a write-back that carries LREL every earlier write-back of the core (R330). -/
def State.mayLand (s : State) (c : Nat) (h : HomeWrite) : Bool :=
  let lines := unitsOf 128 h.cells
  let before (k : Nat) : Bool := (s.core k).homeq.any (fun e => e.xid.isNone && decide (e.id < h.id) && e.cells.any (fun x => lines.contains (x.1 / 128)))
  !(lines.any s.owned) && !(lines.any (fun l => regionOf (128 * l) == 2 && s.barred (s.partOf c) c l)) && !before c && !before (partnerOf c)
    && !(h.gid == 0 && h.lrel && (s.core c).homeq.any (fun e => e.gid == 0 && decide (e.id < h.id)))

/-- The waiting write-backs of a core that may take effect do so, in order. -/
def State.drainBacks (s : State) (c : Nat) : State :=
  ((s.core c).homeq.filter (fun h => h.gid == 0)).foldl (fun s h =>
    if !s.mayLand c h || h.cells.any (fun x => regionOf x.1 == 1) then s
    else (s.updCore c (fun k => { k with homeq := k.homeq.filter (fun e => e.id != h.id) })).backNow c h.cells (h.mig.head?.map (fun m => m.2))) s

/-- Writes back the dirty bytes of one line of a core's L1, which become clean and stay valid (rules R269, R308). They go home at once,
unless a copy owns the line (R331), its budget is spent (R394), an earlier write of the line by the pair is on its way there (R321, R324),
or it carries LREL and an earlier write-back of the core waits (R330): then they queue behind it. A page that migrates now, or migrated
when they were stored, takes them at both places (R281, R282). -/
def State.l1Back (s : State) (c line : Nat) : State :=
  match (s.core c).l1line line with
  | none => s
  | some l =>
    let mig := (s.pairNow (s.partOf c) l.va line).or l.mig
    let clean (s : State) : State := s.updCore c (fun k => { k with l1 := updIf k.l1 (fun x => x.line == line) L1Line.clean })
    if l.dirty == 0 then s
    else if s.owned line || s.barred (s.partOf c) c line || (s.core c).sending line || (s.core (partnerOf c)).sending line
        || (l.lrel && (s.core c).backlog) then clean (s.backLater c line l.dirtyCells mig l.lrel)
    else clean (s.backNow c l.dirtyCells mig)

/-- Writes back every dirty byte of a core's L1 (rule R271), the lines with LREL last (R330). -/
def State.l1Flush (s : State) (c : Nat) : State :=
  let lines (b : Bool) : List Nat := ((s.core c).l1.filter (fun l => l.lrel == b)).map (fun l => l.line)
  (lines false ++ lines true).foldl (fun s l => s.l1Back c l) s

/-- Writes back one line, and the whole L1 first when the line carries LREL (rule R330). -/
def State.l1BackAlone (s : State) (c line : Nat) : State :=
  let s := s.drainBacks c
  match (s.core c).l1line line with
  | some l => if l.lrel then s.l1Flush c else s.l1Back c line
  | none => s

/-- The partner's dirty bytes of a line go to their home (rule R272); whether the line may then be read there: no copy owns it (R331),
and no write-back of it by the pair waits. -/
def State.l1Settle (s : State) (c line : Nat) : State × Bool :=
  let s := (s.drainBacks c).l1BackAlone (partnerOf c) line
  (s, !s.owned line && !(s.core c).backing line && !(s.core (partnerOf c)).backing line)

/-- The dirty bytes of both L1s of a pair go to the home of a line (rules R269, R272); whether it may then be read there. -/
def State.comeHome (s : State) (c line : Nat) : State × Bool := (s.l1BackAlone c line).l1Settle c line

/-- Invalidates the clean bytes of the lines that satisfy a condition; dirty bytes stay (rule R271). -/
def State.l1InvClean (s : State) (c : Nat) (f : Nat → Bool) : State :=
  s.updCore c (fun k =>
    let l1 := updIf k.l1 (fun l => f l.line) (fun l => { l with valid := 0, poison := 0, kept := 0 })
    { k with l1 := l1.filter (fun l => !(f l.line && l.dirty == 0)) })

/-- Evicts a line (rule R269). -/
def State.l1Evict (s : State) (c line : Nat) : State :=
  let s := s.l1BackAlone c line
  s.updCore c (fun k => { k with l1 := k.l1.filter (fun l => l.line != line) })

/-- Makes room for and adds a line, with no valid sector (rule R269): the victim is the first `.ef` line of the set, else
the oldest. DESIGN CHOICE: the last store to a line decides whether it is an `.ef` line, and a load that hits leaves that as it is (log
entry 136). -/
def State.l1Alloc (s : State) (c line : Nat) (ef : Bool) (mig : Option (Nat × Nat)) (va : Option Nat) : State :=
  match (s.core c).l1line line with
  | some _ => s.updCore c (fun k => { k with l1 := updIf k.l1 (fun l => l.line == line) (fun l => { l with ef := ef, mig := mig, va := va }) })
  | none =>
    let set := (s.core c).l1.filter (fun l => l.line % 256 == line % 256)
    let victim := if set.length < 12 then none else match set.find? (fun l => l.ef) with
      | some l => some l.line
      | none => (set.head?).map (fun l => l.line)
    let s := match victim with
      | some v => s.l1Evict c v
      | none => s
    s.updCore c (fun k => { k with l1 := k.l1 ++ [⟨line, 0, 0, 0, List.replicate 128 0, ef, false, mig, 0, va⟩] })

/-- Fills the missing sectors of a line from the partner's dirty bytes and the home, under the dirty bytes (rules R269, R272). DESIGN
CHOICE: every sector of the line that is not valid is a missing one, also where the load does not read it (log entry 113). -/
def State.l1Fill (s : State) (c line : Nat) : State :=
  let s := (s.l1Settle c line).1
  let old := (s.core c).l1line line
  let s := s.l1Alloc c line (old.any (fun l => l.ef)) (old.bind (fun l => l.mig)) (old.bind (fun l => l.va))
  let miss := match (s.core c).l1line line with | some l => ~~~l.valid | none => 15
  let q := (s.farRead c (128 * line) 128).homeRead (128 * line) 128
  let s := if regionOf (128 * line) == 1 then q.1 else q.1.l2Look c line miss false
  s.updCore c (fun k => { k with l1 := updIf k.l1 (fun l => l.line == line) (fun l => l.take (~~~l.valid) (s.badSecs line) q.2) })

/-- Whether the L1 of a core serves every byte of a range (rule R269). -/
def State.l1Hit (s : State) (c pa n : Nat) : Bool :=
  match (s.core c).l1line (pa / 128) with
  | none => false
  | some l => (List.range n).all (fun i => l.valid.getLsbD ((pa % 128 + i) / 32) || bit128 (l.dirty ||| l.kept) (pa % 128 + i))

/-- The bytes an L1 holds for a range, and whether a sector among them is poisoned (rule R270). -/
def State.l1Read (s : State) (c pa n : Nat) : List Byte × Bool :=
  match (s.core c).l1line (pa / 128) with
  | none => (List.replicate n 0, false)
  | some l => ((List.range n).map (fun i => l.data.getD (pa % 128 + i) 0),
      (List.range n).any (fun i => l.poison.getLsbD ((pa % 128 + i) / 32)))

/-- A store into the L1 (rule R269); the partner's dirty bytes of the line go to their home, before it in coherence order (R324), and
its clean bytes go (R272). -/
def State.l1Write (s : State) (c : Nat) (cells : List Host.Cell) (ef lrel : Bool) (mig : Option (Nat × Nat)) (va : Option Nat) : State :=
  (unitsOf 128 cells).foldl (fun s line =>
    let s := (s.l1BackAlone (partnerOf c) line).l1Alloc c line ef mig va
    let s := s.updCore c (fun k => { k with l1 := updIf k.l1 (fun l => l.line == line) (fun l =>
      let mine := cells.filter (fun x => x.1 / 128 == line)
      let d := mine.foldl (fun (d : BitVec 128) x => d ||| BitVec.ofNat 128 (2 ^ (x.1 % 128))) l.dirty
      { l with
        data := mine.foldl (fun dd x => dd.set (x.1 % 128) x.2) l.data
        dirty := d
        poison := l.poison &&& ~~~(wholeSecs d)
        lrel := l.lrel || lrel }) })
    s.l1InvClean (partnerOf c) (fun l => l == line)) s

/-- Replaces the bytes of any L1 copy and leaves them clean (rule R269, `.bl1`); a sector replaced whole is no longer poisoned. -/
def State.l1Replace (s : State) (c : Nat) (cells : List Host.Cell) : State :=
  s.updCore c (fun k => { k with l1 := k.l1.map (fun l =>
    let mine := cells.filter (fun x => x.1 / 128 == l.line)
    let d := mine.foldl (fun (d : BitVec 128) x => d ||| BitVec.ofNat 128 (2 ^ (x.1 % 128))) 0
    { l with
      data := mine.foldl (fun dd x => dd.set (x.1 % 128) x.2) l.data
      dirty := l.dirty &&& ~~~d
      poison := l.poison &&& ~~~(wholeSecs d) }) })

/-- Writes back and invalidates a core's own copy of a line (rule R269, scatters and atomics). -/
def State.l1Drop (s : State) (c line : Nat) : State := s.l1Evict c line

/-- The dirty bytes of both L1s of a pair go ahead of a write that a core sends past its L1 (rules R135, R321, R324). -/
def State.l1Ahead (s : State) (c line : Nat) : State := (s.l1BackAlone c line).l1BackAlone (partnerOf c) line

/-- The sectors of a line that `n` bytes from an address touch. -/
def secsOf (pa n : Nat) : BitVec 4 :=
  BitVec.ofNat 4 (((List.range 4).filter (fun j => decide (pa % 128 < 32 * j + 32) && decide (32 * j < pa % 128 + n))).map (fun j => 2 ^ j)).sum

/-- The bytes of a core's read at a home, with the port and flow of one to another package (R437) and the budget of one of host memory
(R394). -/
def State.coreRead (s : State) (c pa n : Nat) : State × List Byte :=
  let q := (s.farRead c pa n).homeRead pa n
  (if regionOf pa == 2 then q.1.l2Look c (pa / 128) (secsOf pa n) false else q.1, q.2)

/-! ### Translation (rules R276 to R281) -/

/-- The HBM table's entry for a virtual address, read through a core's L1 when a core asks (rules R278 to R280). -/
def State.walk (s : State) (c : Option Nat) (part va : Nat) : State × Option TlbEnt :=
  let ttb := (s.part part).ttb
  let base := fld ttb 25 27 * 2 ^ 25
  [3, 2, 1, 0].foldl (fun (r : State × Option TlbEnt) size =>
    match r with
    | (s, some e) => (s, some e)
    | (s, none) =>
      if fld ttb (60 + size) 1 == 0 then (s, none)
      else
        let pa := base + 128 * bucketOf va size
        match c with
        | some c =>
          let bad (s : State) (j : Nat) : Bool := match (s.core c).l1line (pa / 128) with | some l => l.poison.getLsbD j | none => false
          let s := if !s.l1Hit c pa 128 then (s.l1Fill c (pa / 128)).readPoison part (s.corePlace c) pa 128
            else ((List.range 4).filter (bad s)).foldl (fun s j => s.mcRecord 3 part (pa + 32 * j) (s.corePlace c) 0) s
          (s, matchBucket part va size (s.l1Read c pa 128).1 (bad s))
        | none =>
          let (s, b) := s.homeRead pa 128
          (s.readPoison part 0 pa 128, matchBucket part va size b (fun i => s.poisoned (pa + 32 * i) 32))) (s, none)

def TlbEnt.covers (e : TlbEnt) (part va : Nat) : Bool :=
  e.part == part && decide (e.vbase ≤ va) && decide (va < e.vbase + pageBytes e.size)

/-- Whether a lookup that the TLBs do not answer would read a bucket line that a copy owns, and so waits for it (rule R331). -/
def State.walkHeld (s : State) (c : Option Nat) (part va : Nat) : Bool :=
  let ttb := (s.part part).ttb
  let stk := match c with | some c => stackOf c | none => 0
  let hit (t : List TlbEnt) : Bool := t.any (fun e => e.covers part va)
  let near := match c with | some c => hit (s.core c).tlb | none => false
  !near && !(hit (if stk == 0 then s.stackTlb0 else s.stackTlb1))
    && [3, 2, 1, 0].any (fun size =>
      let pa := fld ttb 25 27 * 2 ^ 25 + 128 * bucketOf va size
      fld ttb (60 + size) 1 == 1 && s.owned (pa / 128) && !(match c with | some c => s.l1Hit c pa 128 | none => false))

/-- translate(va) (rules R277, R278): core TLB, stack TLB, HBM table; a hit fills the levels above it. -/
def State.translate (s : State) (c : Option Nat) (part va : Nat) : State × Option TlbEnt :=
  let stk := match c with | some c => stackOf c | none => 0
  let fillCore (s : State) (e : TlbEnt) : State := match c with
    | some c => s.updCore c (fun k => { k with tlb := (e :: k.tlb).take 1024 })
    | none => s
  match (match c with | some c => (s.core c).tlb.find? (fun (e : TlbEnt) => e.covers part va) | none => none) with
  | some e => (s, some e)
  | none =>
    match (if stk == 0 then s.stackTlb0 else s.stackTlb1).find? (fun (e : TlbEnt) => e.covers part va) with
    | some e => (fillCore s e, some e)
    | none =>
      match s.walk c part va with
      | (s, none) => (s, none)
      | (s, some e) =>
        let s := if stk == 0 then { s with stackTlb0 := (e :: s.stackTlb0).take 32768 }
          else { s with stackTlb1 := (e :: s.stackTlb1).take 32768 }
        (fillCore s e, some e)

def TlbEnt.pa (e : TlbEnt) (va : Nat) : Nat := e.frame + (va - e.vbase)

/-- Whether an access of `n` bytes on the home path would reach a line that a copy owns, in its table or its bytes, or host memory while
the partition's HOST budget is spent, and so waits (rules R331, R394). -/
def State.pathHeld (s : State) (part va n : Nat) : Bool :=
  (s.hostWaits part || s.cores.any (fun e => (e.2.eng0 ++ e.2.eng1).any (fun c => !c.owned.isEmpty)))
    && (unitsOf 128 (cellsAt va (List.replicate n 0))).any (fun l =>
      s.walkHeld none part (128 * l) || (match (s.translate none part (128 * l)).2 with
        | some e => s.owned (e.pa (128 * l) / 128) || (regionOf (e.pa (128 * l)) == 2 && s.hostWaits part)
        | none => false))

/-- A read of `n` bytes at a home for an agent outside the cores: bytes of host memory use the partition's HOST budget (R394). -/
def State.agentRead (s : State) (part pa n : Nat) : State × List Byte :=
  let q := s.homeRead pa n
  (if regionOf pa == 2 then q.1.hostUsed part n else q.1, q.2)

/-- A write through a partition's table outside any core, on the home path: none where it cannot be made (rules R369, R410, R456). -/
def State.writeVa (s : State) (part va : Nat) (b : List Byte) : State × Bool :=
  match s.translate none part va with
  | (s, some e) =>
    if e.wr && s.regionOk (e.pa va) && decide (va < 2 ^ 57) then
      let s := s.homeWrite part 0 (cellsAt (e.pa va) b) []
      let s := match s.migDup (migOf e.mig e.frame (e.pa va)) with
        | some n => s.homeWrite part 0 (cellsAt (n + e.pa va % 128) b) []
        | none => s
      (s, true)
    else (s, false)
  | (s, none) => (s, false)

/-- A read through a partition's table outside any core, on the home path: none where translation, permission, region or
poison forbids it (rules R366, R367). -/
def State.readVa (s : State) (part va n : Nat) : State × Option (List Byte) :=
  match s.translate none part va with
  | (s, some e) =>
    if e.rd && s.regionOk (e.pa va) && decide (va < 2 ^ 57) then
      let (s, b) := s.agentRead part (e.pa va) n
      (s.readPoison part 0 (e.pa va) n, if s.poisoned (e.pa va) n then none else some b)
    else (s, none)
  | (s, none) => (s, none)

/-- Bytes in runs that do not cross a line: address and bytes. -/
def lineRuns (va : Nat) (b : List Byte) : List (Nat × List Byte) :=
  (List.range ((va % 128 + b.length + 127) / 128)).map (fun i =>
    let a := Nat.max va (128 * (va / 128 + i))
    (a, (b.drop (a - va)).take (128 * (va / 128 + i) + 128 - a)))

/-- A write of any length on the home path, line by line: false where some line could not be written. -/
def State.writeLong (s : State) (part va : Nat) (b : List Byte) : State × Bool :=
  (lineRuns va b).foldl (fun (r : State × Bool) x =>
    let q := r.1.writeVa part x.1 x.2
    (q.1, r.2 && q.2)) (s, true)

/-- A read of the core's own (a reload, rule R27) of `n` bytes: none where translation, permission or region forbids it; a poisoned
granule reads as free values. -/
def State.readLong (s : State) (part va n : Nat) : State × Option (List Byte) :=
  (lineRuns va (List.replicate n 0)).foldl (fun (r : State × Option (List Byte)) x =>
    match r with
    | (s, none) => (s, none)
    | (s, some bs) =>
      match s.translate none part x.1 with
      | (s, some e) =>
        if e.rd && s.regionOk (e.pa x.1) && decide (x.1 < 2 ^ 57) then
          let q := s.agentRead part (e.pa x.1) x.2.length
          let f := q.1.drawBytes x.2.length
          let bad := fun (i : Nat) => q.1.poisoned (e.pa x.1 + i) 1
          let got := (List.range x.2.length).map (fun i => if bad i then f.2.getD i 0 else q.2.getD i 0)
          (if (List.range x.2.length).any bad then f.1.readPoison part 0 (e.pa x.1) x.2.length else q.1, some (bs ++ got))
        else (s, none)
      | (s, none) => (s, none)) (s, some [])

/-- Reads `n` 64-bit words, each through the table. -/
def State.readWords (s : State) (part va n : Nat) : State × Option (List W64) :=
  (List.range n).foldl (fun (r : State × Option (List W64)) i =>
    match r with
    | (s, none) => (s, none)
    | (s, some ws) =>
      match s.readVa part (va + 8 * i) 8 with
      | (s, some b) => (s, some (ws ++ [w64 (numOf b)]))
      | (s, none) => (s, none)) (s, some [])

/-! ### Departing packets, acquires and releases (rules R271, R284, R332) -/

/-- The departure of a packet (rule R284), after every packet of its line that opened before it (rule R285). A scatter whose last
packet departs completes (rule R301). -/
def Core.depart (k : Core) (pid : Nat) : Core :=
  match k.packets.find? (fun p => p.id == pid) with
  | none => k
  | some p =>
    let k := { k with packets := updIf k.packets (fun q => q.line == p.line && decide (q.id ≤ pid)) (fun q => { q with departed := true }) }
    let sent (G : Group) (i : Inflight) : Bool :=
      i.kind == .scatter && !(k.packets.any (fun q => q.write && !q.departed && q.reqs.any (fun r => r.gid == G.gid && r.iid == i.id)))
    let done (G : Group) : Group := { G with infl := G.infl.filter (fun i => !sent G i) }
    { k with slots := k.slots.mapV done }

/-- Every open packet with a request of a group departs (rule R284, event 4). -/
def Core.departGroup (k : Core) (gid : Nat) : Core :=
  ((k.packets.filter (fun p => !p.departed && p.reqs.any (fun r => r.gid == gid))).map (fun p => p.id)).foldl (fun k i => k.depart i) k

/-- The effect of an acquire at scope `sc` once it has taken effect (rules R271, R332). DEDUCED: above the pair it covers the partner's L1
too, whose loads come after it by a synchronisation in the pair (R325; log entry 133). -/
def State.acquire (s : State) (c gid sc : Nat) : State :=
  let s := if 3 ≤ sc then (s.l1InvClean c (fun _ => true)).l1InvClean (partnerOf c) (fun _ => true) else s
  if sc = 0 then s
  else s.updCore c (fun k => { k with packets := k.packets.map (fun p => if p.write then p else { p with bars := addNew p.bars gid }) })

/-- The dirty bytes of both L1s of a pair are written back (rules R271, R325). -/
def State.pairFlush (s : State) (c : Nat) : State := (s.l1Flush c).l1Flush (partnerOf c)

/-- The effect of a release at scope `sc` on the L1 (rule R271). DEDUCED: above the pair it covers the partner's dirty bytes too, which may
come before it by a synchronisation in the pair (R325; log entry 133). -/
def State.release (s : State) (c sc : Nat) : State := if 3 ≤ sc then s.pairFlush c else s

/-! ### Sample and event records (rules R455 to R457) -/

/-- Writes a record to a partition's ring: `ev` chooses the event ring, else the sample ring. -/
def State.ringWrite (s : State) (p : Nat) (ev : Bool) (ws : List W64) : State :=
  let r := if ev then (s.part p).event else (s.part p).sample
  let put (r : Ring) (s : State) : State := s.updPart p (fun P => if ev then { P with event := r } else { P with sample := r })
  if fld r.ctl 63 1 == 0 then s
  else if r.full then put r.lose s
  else
    match s.writeVa p (r.base56 + 32 * (r.wptr.toNat % r.size)) (recBytes ws) with
    | (s, true) => (put { r with wptr := r.wptr + 1 } s).updPart p (fun P => { P with teleLeft := P.teleLeft - 32 })
    | (s, false) => put r.lose s

/-- The ring of a partition, and whether it takes records now. -/
def Part.ring (P : Part) (ev : Bool) : Ring := if ev then P.event else P.sample
def Ring.on (r : Ring) : Bool := fld r.ctl 63 1 == 1

/-- The number of a partition's ring among the waiting records. -/
def lateNo (p : Nat) (ev : Bool) : Nat := 1 + 2 * p + (if ev then 1 else 0)

/-- Whether a ring's next record waits for a copy that owns its slot's line (rule R331). -/
def State.ringHeld (s : State) (p : Nat) (ev : Bool) : Bool :=
  let r := (s.part p).ring ev
  r.on && !r.full && s.pathHeld p (r.base56 + 32 * (r.wptr.toNat % r.size)) 32

/-- Writes a record to a partition's ring; one whose slot a copy owns, and those after it, wait (R331). -/
def State.ringPut (s : State) (p : Nat) (ev : Bool) (ws : List W64) : State :=
  if s.late.any (fun r => r.ring == lateNo p ev) || s.ringHeld p ev then { s with late := s.late ++ [⟨lateNo p ev, ws⟩] }
  else s.ringWrite p ev ws

/-- The waiting records that no copy holds any longer are written, those of each ring in their order. -/
def State.landLate (s : State) : State :=
  if s.late.isEmpty then s
  else s.late.foldl (fun s r =>
    let p := (r.ring - 1) / 2
    let ev := r.ring % 2 == 0
    if s.late.any (fun x => x.ring == r.ring) || (if r.ring = 0 then s.mcHeld else s.ringHeld p ev) then { s with late := s.late ++ [r] }
    else if r.ring = 0 then s.mcPut r.words else s.ringWrite p ev r.words) { s with late := [] }

/-- The source number of a record (rule R448). -/
def srcNo (cls core unit : Nat) : Nat := at_ cls 14 + (if cls == 3 then 0 else at_ (stackOf core) 13 + at_ (core % 96) 6) + unit

/-- The launch sequence number of a launch, as records carry it (rules R390, R457). -/
def State.seqOf (s : State) (lid : Nat) : Nat := match s.launches.find lid with | some L => L.seq | none => 0

/-- Whether a telemetry write may begin (rule R394). -/
def Part.teleGoes (P : Part) : Bool := fld P.pbud1 0 16 == 0 || decide (0 < P.teleLeft)

/-- The records that wait in a partition's sources are written, in order, while the TELE budget allows. -/
def State.flushBuffer (s : State) (part : Nat) : State :=
  (s.part part).buffer.foldl (fun s e =>
    if (s.part part).teleGoes then (s.updPart part (fun P => { P with buffer := P.buffer.drop 1 })).ringPut part (decide (65536 ≤ e.1)) e.2 else s) s

/-- A record, after those that wait: held in its source's 64-record buffer while the TELE budget is exhausted (rules R394, R448, R456); a
ring that is off takes none and counts none. -/
def State.record (s : State) (p : Nat) (ev : Bool) (src kind : Nat) (tag : Nat) (w2 w3 : W64) : State :=
  let ws := [w64 s.now, w64 (at_ src 48 + at_ kind 40 + tag % 2 ^ 32), w2, w3]
  let s := s.flushBuffer p
  let P := s.part p
  if P.teleGoes then s.ringPut p ev ws
  else if !(P.ring ev).on then s
  else if decide (64 ≤ (P.buffer.filter (fun e => e.1 % 65536 == src)).length) then
    s.updPart p (fun P => if ev then { P with event := P.event.lose } else { P with sample := P.sample.lose })
  else s.updPart p (fun P => { P with buffer := P.buffer ++ [(src + (if ev then 65536 else 0), ws)] })

end Sys2Proof.Machine
end

