-- ==== Sys2Proof/WellFormed.lean ====
section
/-! DEFINITION. The word checks 1 to 8 of rule R60 for every row of the opcode table, in their order, with the register
field that rule R401 names. -/

namespace Sys2Proof

/-- The word check a word fails (rule R60), with the space and number of the register field that rule R401 names
(0 and 0 where none is named). -/
structure Illegal where
  check : Nat
  space : BitVec 2
  num : BitVec 7
  deriving DecidableEq, Repr

/-- What the word checks read of the issuing group: whether it runs a trap handler (rule R47), its width W (rule R168),
and its kernel's count of safe points (rule R140). -/
structure Env where
  handler : Bool
  w : Nat
  nsafe : Nat
  deriving DecidableEq, Repr

/-- The four register spaces of rule R47. -/
abbrev spVec : BitVec 2 := 0
abbrev spUni : BitVec 2 := 1
abbrev spPred : BitVec 2 := 2
abbrev spHb : BitVec 2 := 3

/-- A failing check that names no register field. -/
def bad (c : Nat) : Illegal := ⟨c, 0, 0⟩

/-- The first failing check of a list in order. -/
def firstBad (cs : List (Bool × Illegal)) : Option Illegal :=
  match cs with
  | [] => none
  | (failed, e) :: rest => if failed then some e else firstBad rest

/-- Whether number `n` lies outside the range of space `sp` (rule R47). -/
def outOfRange (sp : BitVec 2) (n : BitVec 7) : Bool :=
  (sp == spUni && decide (63 < n.toNat)) || (sp == spHb && decide (15 < n.toNat))

/-- Whether a register field's space or number fails check 3: a space the field does not accept, a handler-bank code
outside a handler, a number outside the space's range. -/
def badSpace (env : Env) (accepted : List (BitVec 2)) (sp : BitVec 2) (n : BitVec 7) : Bool :=
  !(accepted.contains sp) || (sp == spHb && !env.handler) || outOfRange sp n

/-- Guard check (rule R42): with GE = 0, G and GN are 0. -/
def badGuard (ge : BitVec 1) (g : BitVec 7) (gn : BitVec 1) : Bool :=
  ge == 0 && (g != 0 || gn != 0)

/-! ### Type codes (rule R48) -/

/-- Whether an integer type code is 64 bits wide. -/
def tyIs64 (ty : BitVec 4) : Bool := ty == 3 || ty == 7 || ty == 11
/-- Whether an integer type code is a raw `.b` type. -/
def tyIsRaw (ty : BitVec 4) : Bool := ty == 0 || ty == 1 || ty == 2 || ty == 3
/-- Whether an integer type code is signed. -/
def tyIsSigned (ty : BitVec 4) : Bool := ty == 4 || ty == 5 || ty == 6 || ty == 7 || ty == 12
/-- `.b .s .n` at 32 and 64 bits. -/
def tyWord : List (BitVec 4) := [2, 3, 6, 7, 10, 11]
/-- `.s .n` at 32 and 64 bits. -/
def tyArith : List (BitVec 4) := [6, 7, 10, 11]
/-- `.b32` and `.b64`. -/
def tyBits : List (BitVec 4) := [2, 3]
/-- `.s .n` at 4, 8, 16, 32 and 64 bits. -/
def tyAllSN : List (BitVec 4) := [4, 5, 6, 7, 8, 9, 10, 11, 12, 13]

/-! ### Format R -/

/-- What one opcode of format R accepts: the spaces of each field (an empty list: the field is unused and must be zero),
which fields name a register without reading it, whether the uniform-destination rule R43 is lifted (rule R169),
which operands are 64 bits wide, and check 4 on TY, OPX and any operation field. -/
structure RDesc where
  d : List (BitVec 2) := []
  a : List (BitVec 2) := []
  b : List (BitVec 2) := []
  c : List (BitVec 2) := []
  /-- B holds a type, operation or option field: SB and LB are 0 (rules R123, R171, R189). -/
  bIsField : Bool := false
  /-- A names a register that is not read (rule R189). -/
  aNamed : Bool := false
  /-- rule R43 does not apply (rule R169). -/
  freeUniform : Bool := false
  /-- 64-bit operands D, A, B, C (check 7). -/
  wideD : Bool := false
  wideA : Bool := false
  wideB : Bool := false
  wideC : Bool := false
  /-- further reserved bits that must be zero (check 2). -/
  rsvBad : Bool := false
  /-- further register-number limits (check 3): D, A, B above these fail. -/
  maxD : Nat := 127
  maxA : Nat := 127
  maxB : Nat := 127
  /-- check 4 fails. -/
  valueBad : Bool := false
  /-- check 8 fails. -/
  specificBad : Bool := false

/-- Int, as rule R74 uses it: vector, uniform, handler bank. -/
def spInt : List (BitVec 2) := [spVec, spUni, spHb]
/-- "Vec" of row 0x6_, with the handler bank (rule R170). -/
def spVecH : List (BitVec 2) := [spVec, spHb]
/-- "Vec or uni" of row 0x6_. -/
def spVecU : List (BitVec 2) := [spVec, spUni, spHb]

/-- Checks 2 to 8 of rule R60 for a word of format R. DESIGN CHOICE: where B holds a type, operation or option field (CVT, RED, SCAN, ARM), an
SB that is not 00 fails check 3 and names B (log entry 151). -/
def checkR (env : Env) (f : FmtR) (r : RDesc) : Option Illegal :=
  let unused (l : List (BitVec 2)) (n : BitVec 7) (sp : BitVec 2) (last : BitVec 1) : Bool :=
    l.isEmpty && (n != 0 || sp != 0 || last != 0)
  let nonUni (l : List (BitVec 2)) (sp : BitVec 2) : Bool := !l.isEmpty && sp != spUni
  let wideOdd (wide : Bool) (sp : BitVec 2) (n : BitVec 7) : Bool :=
    wide && (sp == spVec || sp == spHb) && n.toNat % 2 == 1
  firstBad [
    (unused r.d f.d f.sd 0 || unused r.a f.a f.sa f.la || (!r.bIsField && unused r.b f.b f.sb f.lb)
      || unused r.c f.c f.sc f.lc || r.rsvBad, bad 2),
    (!r.d.isEmpty && (badSpace env r.d f.sd f.d || decide (r.maxD < f.d.toNat)), ⟨3, f.sd, f.d⟩),
    (!r.freeUniform && r.d.contains spUni && f.sd == spUni &&
      (nonUni r.a f.sa || (!r.bIsField && nonUni r.b f.sb) || nonUni r.c f.sc), ⟨3, f.sd, f.d⟩),
    (!r.a.isEmpty && (badSpace env r.a f.sa f.a || decide (r.maxA < f.a.toNat)), ⟨3, f.sa, f.a⟩),
    (if r.bIsField then f.sb != 0 else !r.b.isEmpty && (badSpace env r.b f.sb f.b || decide (r.maxB < f.b.toNat)), ⟨3, f.sb, f.b⟩),
    (!r.c.isEmpty && badSpace env r.c f.sc f.c, ⟨3, f.sc, f.c⟩),
    (r.valueBad, bad 4),
    (f.la == 1 && (f.sa != spVec || r.aNamed), ⟨5, f.sa, f.a⟩),
    (f.lb == 1 && (f.sb != spVec || r.bIsField), ⟨5, f.sb, f.b⟩),
    (f.lc == 1 && f.sc != spVec, ⟨5, f.sc, f.c⟩),
    (badGuard f.ge f.g f.gn, bad 6),
    (wideOdd r.wideD f.sd f.d, ⟨7, f.sd, f.d⟩),
    (wideOdd r.wideA f.sa f.a, ⟨7, f.sa, f.a⟩),
    (wideOdd r.wideB f.sb f.b, ⟨7, f.sb, f.b⟩),
    (wideOdd r.wideC f.sc f.c, ⟨7, f.sc, f.c⟩),
    (r.specificBad, bad 8)]

/-- OPX takes at most the value `m`. -/
def opxAbove (f : FmtR) (m : Nat) : Bool := decide (m < f.opx.toNat)

/-- ADD, SUB (rule R74): `.sat` not with `.b`. -/
def descAddSub (f : FmtR) : RDesc :=
  let w := tyIs64 f.ty
  { d := spInt, a := spInt, b := spInt, wideD := w, wideA := w, wideB := w,
    valueBad := decide (13 < f.ty.toNat) || opxAbove f 1 || (f.opx == 1 && tyIsRaw f.ty) }

/-- MUL: `.wide` only for `.s32` and `.n32`; a wide result is a 64-bit operand (rule R76). -/
def descMul (f : FmtR) : RDesc :=
  let w := tyIs64 f.ty
  { d := spInt, a := spInt, b := spInt, wideD := w || f.opx == 1, wideA := w, wideB := w,
    valueBad := !(tyWord.contains f.ty) || opxAbove f 1 || (f.opx == 1 && !(f.ty == 6 || f.ty == 10)) }

/-- MAD (rule R76). -/
def descMad (f : FmtR) : RDesc :=
  { descMul f with c := spInt, wideC := tyIs64 f.ty || f.opx == 1 }

/-- Two int operands of width n, OPX 000. -/
def descInt2 (tys : List (BitVec 4)) (f : FmtR) : RDesc :=
  let w := tyIs64 f.ty
  { d := spInt, a := spInt, b := spInt, wideD := w, wideA := w, wideB := w,
    valueBad := !(tys.contains f.ty) || f.opx != 0 }

/-- One int operand of width n with OPX at most `m`. -/
def descInt1 (tys : List (BitVec 4)) (m : Nat) (f : FmtR) : RDesc :=
  let w := tyIs64 f.ty
  { d := spInt, a := spInt, wideD := w, wideA := w, valueBad := !(tys.contains f.ty) || opxAbove f m }

/-- POPC, CLZ, CTZ, TCNT: D is a 32-bit operand (rules R83, R84). -/
def descCount (tys : List (BitVec 4)) (m : Nat) (f : FmtR) : RDesc :=
  { descInt1 tys m f with wideD := false }

/-- Shifts and LEA: B is a 32-bit operand (rules R78, R80). -/
def descShift (tys : List (BitVec 4)) (m : Nat) (f : FmtR) : RDesc :=
  { descInt1 tys m f with b := spInt }

/-- CMP (rule R85). -/
def descCmp (f : FmtR) : RDesc :=
  let w := tyIs64 f.ty
  { d := [spPred], a := spInt, b := spInt, wideA := w, wideB := w,
    valueBad := !(tyWord.contains f.ty) || f.opx == 7 || (tyIsRaw f.ty && !(f.opx == 0 || f.opx == 1 || f.opx == 6)) }

/-- PAND, POR, PXOR (rule R86). -/
def descPred2 (f : FmtR) : RDesc :=
  { d := [spPred], a := [spPred], b := [spPred], valueBad := f.ty != 0 || opxAbove f 3 }

/-- MOV (rule R88), by its form in OPX[1:0]. -/
def descMov (f : FmtR) : RDesc :=
  if f.opx &&& 3 == 1 then { d := [spUni], a := [spUni], maxD := 3, valueBad := f.ty != 6 || f.opx != 1 }
  else if f.opx &&& 3 == 2 then { d := spInt, a := [spUni], maxA := 3, valueBad := f.ty != 6 || f.opx != 2 }
  else
    let anyPred := f.sd == spPred || f.sa == spPred
    let w := f.ty == 3 && !anyPred
    { d := [spVec, spUni, spPred, spHb], a := [spVec, spUni, spPred, spHb], wideD := w, wideA := w,
      valueBad := f.opx != 0 || !(tyBits.contains f.ty) || (anyPred && f.ty != 2) }

/-- Float arithmetic of two operands (rule R117). -/
def descFlt2 (f : FmtR) : RDesc :=
  let w := f.ty == 3
  { d := spInt, a := spInt, b := spInt, wideD := w, wideA := w, wideB := w, valueBad := decide (3 < f.ty.toNat) }

/-- FMIN, FMAX, FRSQ, FEXP2 and FLOG2 take no rounding mode. -/
def noRounding (f : FmtR) : Bool := f.opx &&& 3 != 0

/-- Float functions of one operand. -/
def descFlt1 (tys : List (BitVec 4)) (f : FmtR) : RDesc :=
  let w := f.ty == 3
  { d := spInt, a := spInt, wideD := w, wideA := w, valueBad := !(tys.contains f.ty) }

/-- Bit n of field B, where B holds a type, operation or option field. -/
def bBit (f : FmtR) (n : Nat) : Bool := f.b.getLsbD n

/-- STY of CVT, and the source type code of the word (rule R123). -/
def cvtSty (f : FmtR) : BitVec 4 := f.b.extractLsb' 0 4
/-- SCL and DCL of CVT. -/
def cvtScl (f : FmtR) : Bool := bBit f 4
def cvtDcl (f : FmtR) : Bool := bBit f 5

/-- The integer types of CVT (rule R123). -/
def cvtInts : List (BitVec 4) := [4, 5, 6, 7, 8, 9, 10, 11]

/-- Whether a type code of a class is 64 bits wide. -/
def classIs64 (isInt : Bool) (ty : BitVec 4) : Bool := if isInt then tyIs64 ty else ty == 3

/-- CVT (rules R117, R123). -/
def descCvt (f : FmtR) : RDesc :=
  let okTy (isInt : Bool) (ty : BitVec 4) : Bool := if isInt then cvtInts.contains ty else decide (ty.toNat ≤ 7)
  { d := spInt, a := spInt, bIsField := true, rsvBad := bBit f 6,
    wideD := classIs64 (cvtDcl f) f.ty, wideA := classIs64 (cvtScl f) (cvtSty f),
    valueBad := (cvtDcl f && cvtScl f) || !(okTy (cvtDcl f) f.ty) || !(okTy (cvtScl f) (cvtSty f)) }

/-- FCL, EXC and ROP of RED and SCAN (rule R171). -/
def redFcl (f : FmtR) : Bool := bBit f 3
def redExc (f : FmtR) : Bool := bBit f 4
def redRop (f : FmtR) : BitVec 3 := f.b.extractLsb' 0 3

/-- RED and SCAN (rules R170, R171). -/
def descRed (isScan : Bool) (f : FmtR) : RDesc :=
  let w := classIs64 (!redFcl f) f.ty
  let rop := (redRop f).toNat
  let okInt : Bool :=
    (if rop == 0 then tyWord.contains f.ty else if rop ≤ 2 then tyArith.contains f.ty else tyBits.contains f.ty)
      && decide (rop ≤ 5) && (f.opx == 0 || (f.opx == 1 && rop == 0 && tyArith.contains f.ty))
  let okFlt : Bool := decide (rop ≤ 2) && decide (f.ty.toNat ≤ 3) && (rop == 0 || f.opx &&& 3 == 0)
  { d := if isScan then spVecH else spVecU, a := spVecH, bIsField := true, freeUniform := true,
    rsvBad := bBit f 5 || bBit f 6, wideD := w, wideA := w,
    valueBad := (redExc f && !isScan) || !(if redFcl f then okFlt else okInt) }

/-- PQRY (rules R170, R174), by its kind in OPX. -/
def descPqry (env : Env) (f : FmtR) : RDesc :=
  let k := f.opx.toNat
  { d := if k ≤ 2 then [spPred] else if k ≤ 4 then spVecU else [spVec, spUni, spPred, spHb],
    a := [spPred], b := if k ≤ 1 then [spUni] else [], freeUniform := true,
    wideD := k == 3 && env.w == 64, valueBad := f.ty != 0 || decide (4 < k) }

/-- The description of a word of format R, per opcode row. -/
def checkCpy (env : Env) (f : FmtR) (maxA : Nat) : Option Illegal :=
  checkR env f
    { d := [spUni], a := [spUni], b := [spUni], c := [spUni], maxA := maxA, maxB := 60,
      valueBad := f.ty != 0 || opxAbove f 2, specificBad := env.handler }

/-- Row 0x6_ and 0xB_/0xC_ opcodes whose fields are all uniform, with TY 0000 and OPX 000. -/
def descUni (d a b : Bool) (f : FmtR) : RDesc :=
  { d := if d then [spUni] else [], a := if a then [spUni] else [], b := if b then [spUni] else [],
    valueBad := f.ty != 0 || f.opx != 0 }

/-- CONT (rule R389): TY holds NV − 1, and the guard is absent. -/
def checkCont (env : Env) (f : FmtR) : Option Illegal :=
  let none' := f.opx.getLsbD 0
  match checkR env f
    { d := if none' then [] else [spVec], a := [spUni], b := [spUni], c := [spUni], freeUniform := true,
      rsvBad := f.ge != 0 || f.g != 0 || f.gn != 0 || (none' && f.ty != 0), maxD := 127 - f.ty.toNat,
      valueBad := opxAbove f 1, specificBad := env.handler } with
  | some e => some e
  | none => none

/-! ### Formats I, K, B, X, M and S -/

/-- Format I (rules R50, R91): `tys` the accepted TYI codes, `pred` for CMP, `opxBad` check 4 on OPX. -/
def checkI (env : Env) (f : FmtI) (tys : List (BitVec 3)) (pred opxBad rsvBad : Bool) : Option Illegal :=
  let sp (b : BitVec 1) : BitVec 2 := if b == 1 then spUni else spVec
  let wide := f.tyi == 3 || f.tyi == 4 || f.tyi == 5
  let dsp := if pred then spPred else sp f.sd
  let _ := env
  firstBad [
    (rsvBad || (pred && f.sd != 0), bad 2),
    (outOfRange dsp f.d, ⟨3, dsp, f.d⟩),
    (!pred && f.sd == 1 && f.sa == 0, ⟨3, dsp, f.d⟩),
    (outOfRange (sp f.sa) f.a, ⟨3, sp f.sa, f.a⟩),
    (!(tys.contains f.tyi) || opxBad, bad 4),
    (f.la == 1 && f.sa == 1, ⟨5, sp f.sa, f.a⟩),
    (badGuard f.ge f.g f.gn, bad 6),
    (!pred && wide && f.sd == 0 && f.d.toNat % 2 == 1, ⟨7, spVec, f.d⟩),
    (wide && f.sa == 0 && f.a.toNat % 2 == 1, ⟨7, spVec, f.a⟩)]

/-- Whether a TYI code is raw. -/
def tyiIsRaw (t : BitVec 3) : Bool := t == 0 || t == 3

def tyiAll : List (BitVec 3) := [0, 1, 2, 3, 4, 5]
def tyiBits : List (BitVec 3) := [0, 3]
def tyiArith : List (BitVec 3) := [1, 2, 4, 5]

/-- CMP's condition in format I (rules R85, R91). -/
def checkCmpI (env : Env) (f : FmtI) : Option Illegal :=
  checkI env f tyiAll true (f.opx == 7 || (tyiIsRaw f.tyi && !(f.opx == 0 || f.opx == 1 || f.opx == 6))) false

/-- MOVI (rule R51). -/
def checkK (env : Env) (f : FmtK) : Option Illegal :=
  firstBad [
    (f.rsv != 0, bad 2),
    (badSpace env [spVec, spUni, spHb] f.sd f.d, ⟨3, f.sd, f.d⟩),
    (f.part == 3 || (f.part == 2 && f.sd != spUni), bad 4),
    (badGuard f.ge f.g f.gn, bad 6)]

/-- What a control opcode requires of PE and OFF (rule R53). -/
inductive OffRule where
  | zero
  | nonZero
  | negative
  | positive
  deriving DecidableEq, Repr

/-- Whether an offset meets a requirement of rule R53. -/
def OffRule.holds (r : OffRule) (off : BitVec 24) : Bool :=
  match r with
  | .zero => off == 0
  | .nonZero => off != 0
  | .negative => decide (off.toInt < 0)
  | .positive => decide (0 < off.toInt)

/-- Format B (rules R52, R53): `pe` lists the accepted PE values. DEDUCED: a word that breaks the PE or OFF column of the table fails check 8,
for R53 says ILLEGAL and no number (log entry 128). -/
def checkB (f : FmtB) (pe : List (BitVec 1)) (off : OffRule) : Option Illegal :=
  firstBad [
    (f.rsvHi != 0 || f.rsvLo != 0 || (f.pe == 0 && (f.p != 0 || f.pn != 0)), bad 2),
    (!(pe.contains f.pe) || !(off.holds f.off), bad 8)]

/-- The kind of a field of format X (rule R233). -/
inductive XField where
  | none
  | uni
  | range
  deriving DecidableEq, Repr

/-- Format X (rules R54, R233, R234): the fields, whether FBK and CWK are read, and the XOP value check. -/
def checkX (env : Env) (f : FmtX) (d a b c : XField) (fbk cwk : Bool) (xopBad : Bool) : Option Illegal :=
  let unused (k : XField) (n : BitVec 7) : Bool := k == .none && n != 0
  let big (k : XField) (n : BitVec 7) : Bool := k == .uni && decide (63 < n.toNat)
  let past (k : XField) (n : BitVec 7) : Bool := k == .range && decide (127 < n.toNat + (f.xop.extractLsb' 0 4).toNat)
  firstBad [
    (f.rsv != 0 || unused d f.d || unused a f.a || unused b f.b || unused c f.c
      || (!fbk && f.fbk != 0) || (!cwk && f.cwk != 0), bad 2),
    (xopBad || big d f.d || big a f.a || big b f.b || big c f.c || past d f.d || past a f.a
      || (f.la == 1 && a != .range) || f.lb == 1 || f.lc == 1, bad 4),
    (env.handler, bad 8)]

/-- SRC of XOP[8:7]. -/
def xopSrc (f : FmtX) : BitVec 2 := f.xop.extractLsb' 7 2
/-- CNT of XOP[3:0] (rule R233). -/
def xopCnt (f : FmtX) : Nat := (f.xop.extractLsb' 0 4).toNat + 1
/-- BANK of XOP[6]. -/
def xopBank (f : FmtX) : Nat := if f.xop.getLsbD 6 then 1 else 0

/-- TLDW, TLDWS and TMMA: SRC 00 or 01, [5:4] zero, CNT − 1 zero for SRC 01. -/
def xopLoadBad (f : FmtX) : Bool :=
  !(xopSrc f == 0 || xopSrc f == 1) || f.xop.extractLsb' 4 2 != 0 || (xopSrc f == 1 && f.xop.extractLsb' 0 4 != 0)

/-- The A field of TLDW, TLDWS and TMMA: a range for SRC 00, uniform for SRC 01. -/
def xopLoadA (f : FmtX) : XField := if xopSrc f == 0 then .range else .uni

/-- What one opcode of format M accepts (rule R293). -/
structure MDesc where
  /-- D: 0 unused, 1 vector data by SIZE, 2 uniform, 3 predicate, 4 translation register. -/
  d : Nat := 0
  /-- A: 0 unused, 1 offset (vector, uniform or none), 2 uniform offset or none, 3 uniform only, 4 vector index. -/
  a : Nat := 0
  /-- B: 0 unused, 1 vector data by SIZE, 2 uniform. -/
  b : Nat := 0
  /-- [34:28] must be zero. -/
  dispZero : Bool := false
  trZero : Bool := false
  sizes : List (BitVec 3) := [0]
  ords : List (BitVec 2) := [0]
  hints : List (BitVec 2) := [0]
  /-- further reserved bits, check 2. -/
  rsvBad : Bool := false
  /-- further values, check 4. -/
  valueBad : Bool := false
  /-- LB may be set only where B names vector data that is read. -/
  bRead : Bool := true
  /-- a wider alignment of B's first register (rule R302), check 7. -/
  bAlign : Nat := 1

/-- Vector registers that an access size takes (rule R56). -/
def sizeRegs (sz : BitVec 3) : Nat := if sz == 6 then 4 else if sz == 5 then 2 else 1
/-- Bytes of an access size (rule R56). -/
def sizeBytes (sz : BitVec 3) : Nat :=
  match sz.toNat with
  | 0 => 1
  | 1 => 1
  | 2 => 2
  | 3 => 2
  | 4 => 4
  | 5 => 8
  | 6 => 16
  | _ => 0

/-- Checks 2 to 7 of rule R60 for format M (rules R55, R56, R293). DESIGN CHOICE: LC = 1 where [34:28] is a DISP, an operation or a window
number fails check 5 and names no field (log entry 152); where [34:28] must be 0, it fails check 2 with it. -/
def checkM (f : FmtM) (m : MDesc) : Option Illegal :=
  let absent := f.sa == 1 && f.sc == 1
  firstBad [
    ((m.d == 0 && f.d != 0) || (m.a == 0 && (f.a != 0 || f.sa != 0 || f.sc != 0)) || ((m.a == 1 || m.a == 2) && absent && f.a != 0)
      || (m.b == 0 && f.b != 0) || (m.dispZero && (f.disp != 0 || f.lc != 0)) || (m.trZero && f.tr != 0)
      || (m.a == 0 && f.la != 0) || (m.b == 0 && f.lb != 0) || (m.a == 3 && f.sc != 0) || m.rsvBad, bad 2),
    (m.d == 2 && decide (63 < f.d.toNat), ⟨3, spUni, f.d⟩),
    (m.d == 4 && decide (7 < f.d.toNat), ⟨3, 0, f.d⟩),
    (((m.a == 2 || m.a == 3) && f.sa == 0) || (m.a == 4 && f.sa == 1) || (m.a != 0 && f.sa == 1 && decide (63 < f.a.toNat)),
      ⟨3, if f.sa == 1 then spUni else spVec, f.a⟩),
    (m.b == 2 && decide (63 < f.b.toNat), ⟨3, spUni, f.b⟩),
    (!(m.sizes.contains f.size) || !(m.ords.contains f.ord) || !(m.hints.contains f.hint)
      || (f.ord == 0 && f.scope != 0) || f.scope == 7 || m.valueBad, bad 4),
    (f.la == 1 && (f.sa == 1 || m.a == 0), ⟨5, spUni, f.a⟩),
    (f.lb == 1 && (m.b != 1 || !m.bRead), ⟨5, spUni, f.b⟩),
    (f.lc == 1, ⟨5, 0, 0⟩),
    (badGuard f.ge f.g f.gn, bad 6),
    (m.d == 1 && f.d.toNat % sizeRegs f.size != 0, ⟨7, spVec, f.d⟩),
    (m.b == 1 && (f.b.toNat % sizeRegs f.size != 0 || f.b.toNat % m.bAlign != 0), ⟨7, spVec, f.b⟩)]

def szData : List (BitVec 3) := [0, 1, 2, 3, 4, 5, 6]
def hintAny : List (BitVec 2) := [0, 1, 2, 3]

/-- NR, PR and OPC of an atomic (rule R302). -/
def aopNr (f : FmtM) : Bool := f.disp.getLsbD 6
def aopPr (f : FmtM) : Bool := f.disp.getLsbD 5
def aopOpc (f : FmtM) : Nat := (f.disp.extractLsb' 0 5).toNat

/-- ATOM and ATOMG (rules R293, R302, R304). -/
def checkAtom (f : FmtM) (opcs : List Nat) : Option Illegal :=
  let opc := aopOpc f
  let ld := opc == 15
  let cas := opc == 9
  checkM f
    { d := if aopNr f then 0 else 1, a := 1, b := if ld then 0 else 1,
      sizes := [4, 5], ords := [0, 1, 2, 3],
      valueBad := !(opcs.contains opc) || (aopPr f && !(f.ord == 1 || f.ord == 3)) || (ld && aopNr f),
      bAlign := if cas then (if f.size == 5 then 4 else 2) else 1 }

/-- L1INV and L1FLUSH (rule R308): `.all` takes the absent offset, TR = 0 and DISP = 0. -/
def checkL1 (f : FmtM) : Option Illegal :=
  let all := f.size == 1
  checkM f
    { a := 1, sizes := [0, 1],
      rsvBad := all && (f.tr != 0 || f.disp != 0 || f.a != 0 || f.sa != 1 || f.sc != 1) }

/-- Whether SEL names a system register (rule R58). -/
def selValid (sel : BitVec 14) : Bool :=
  decide (sel.toNat ≤ 0x0D) || (decide (0x40 ≤ sel.toNat) && decide (sel.toNat < 0x60) && sel.toNat % 4 != 3)

/-- Format S (rule R136): which of guard, D, A and SEL an opcode uses. -/
structure SDesc where
  guard : Bool := true
  /-- accepted spaces of D; empty: D is 0. -/
  d : List (BitVec 2) := []
  /-- A is a uniform register. -/
  a : Bool := false
  sel : Bool := false
  valueBad : Bool := false
  /-- D is a pair. -/
  wide : Bool := false
  specificBad : Bool := false

/-- Checks 2 to 8 for format S. -/
def checkS (env : Env) (f : FmtS) (s : SDesc) : Option Illegal :=
  firstBad [
    (f.rsv != 0 || (s.d.isEmpty && (f.d != 0 || f.sd != 0)) || (!s.a && (f.a != 0 || f.sa != 0 || f.la != 0))
      || (!s.sel && f.sel != 0) || (!s.guard && (f.ge != 0 || f.g != 0 || f.gn != 0)), bad 2),
    (!s.d.isEmpty && badSpace env s.d f.sd f.d, ⟨3, f.sd, f.d⟩),
    (s.a && badSpace env [spUni] f.sa f.a, ⟨3, f.sa, f.a⟩),
    (s.valueBad, bad 4),
    (f.la == 1, ⟨5, f.sa, f.a⟩),
    (badGuard f.ge f.g f.gn, bad 6),
    (s.wide && (f.sd == spVec || f.sd == spHb) && f.d.toNat % 2 == 1, ⟨7, f.sd, f.d⟩),
    (s.specificBad, bad 8)]

/-- The first word check of rule R60, from 2 to 8, that instruction `i` fails in a group described by `env`; an event of
the table has no word, so it passes none of them. DESIGN CHOICE: a TY, OPX, SOP or XOP that is not zero, of an instruction that gives it no
meaning, fails check 4; an unused SEL, register field or guard fails check 2 (log entry 150). -/
def Instr.check (env : Env) (i : Instr) : Option Illegal :=
  match i with
  | .nop f => checkS env f { guard := false, valueBad := f.sop != 0 }
  | .exit f => checkS env f { valueBad := f.sop != 0, specificBad := env.handler }
  | .trap f => checkS env f { sel := true, valueBad := f.sop != 0 }
  | .bkpt f => checkS env f { sel := true, valueBad := f.sop != 0 }
  | .safept f => checkS env f { guard := false, sel := true, valueBad := f.sop != 0, specificBad := !env.handler && decide (env.nsafe ≤ f.sel.toNat) }
  | .sread f => checkS env f { d := [spVec, spUni, spHb], sel := true, wide := f.sop == 1, valueBad := !(selValid f.sel) || decide (1 < f.sop.toNat) || (f.sop == 1 && f.sd == spUni) }
  | .swrite f => checkS env f { a := true, sel := true, valueBad := !(selValid f.sel) || f.sop != 0 }
  | .awlimitReqWrite _ _ _ => some (bad 1)
  | .accumulatorAllocation _ => some (bad 1)
  | .clk f => checkS env f { d := [spVec, spUni], sel := true, wide := true, valueBad := decide (1 < f.sel.toNat) || decide (1 < f.sop.toNat) }
  | .rth f => checkS env f { guard := false, valueBad := f.sop != 0, specificBad := !env.handler }
  | .add f => checkR env f (descAddSub f)
  | .sub f => checkR env f (descAddSub f)
  | .mul f => checkR env f (descMul f)
  | .mulhi f => checkR env f (descInt2 tyArith f)
  | .mad f => checkR env f (descMad f)
  | .div f => checkR env f (descInt2 tyArith f)
  | .rem f => checkR env f (descInt2 tyArith f)
  | .min f => checkR env f (descInt2 tyAllSN f)
  | .max f => checkR env f (descInt2 tyAllSN f)
  | .abs f => checkR env f (descInt1 [4, 5, 6, 7, 12] 1 f)
  | .neg f => checkR env f (descInt1 [4, 5, 6, 7, 12] 1 f)
  | .lea f => checkR env f (descShift tyWord 7 f)
  | .and f => checkR env f { descInt2 tyBits f with valueBad := !(tyBits.contains f.ty) || opxAbove f 1 }
  | .or f => checkR env f { descInt2 tyBits f with valueBad := !(tyBits.contains f.ty) || opxAbove f 1 }
  | .xor f => checkR env f { descInt2 tyBits f with valueBad := !(tyBits.contains f.ty) || opxAbove f 1 }
  | .not f => checkR env f (descInt1 tyBits 0 f)
  | .shl f => checkR env f (descShift tyBits 0 f)
  | .shr f => checkR env f (descShift tyBits 0 f)
  | .sar f => checkR env f (descShift tyBits 0 f)
  | .rot f => checkR env f (descShift tyBits 0 f)
  | .bfe f => checkR env f { descShift tyWord 0 f with c := spInt }
  | .bfi f => checkR env f { descInt2 tyBits f with c := spInt }
  | .brev f => checkR env f (descInt1 tyBits 0 f)
  | .popc f => checkR env f (descCount tyBits 0 f)
  | .clz f => checkR env f (descCount tyBits 0 f)
  | .ctz f => checkR env f (descCount tyBits 0 f)
  | .tcnt f => checkR env f (descCount tyAllSN 1 f)
  | .cmp f => checkR env f (descCmp f)
  | .pand f => checkR env f (descPred2 f)
  | .por f => checkR env f (descPred2 f)
  | .pxor f => checkR env f (descPred2 f)
  | .pnot f => checkR env f { d := [spPred], a := [spPred], valueBad := f.ty != 0 || f.opx != 0 }
  | .sel f => checkR env f { descInt2 tyBits f with c := [spPred] }
  | .mov f => checkR env f (descMov f)
  | .movi f => checkK env f
  | .movx f => checkR env f { d := [spVec], a := [spVec], wideD := f.ty == 3, valueBad := !(tyBits.contains f.ty) || opxAbove f 3 }
  | .movxw f => checkR env f { d := [spVec], a := spInt, wideA := f.ty == 3, valueBad := !(tyBits.contains f.ty) || opxAbove f 3 }
  | .addI f => checkI env f tyiAll false (decide (1 < f.opx.toNat) || (f.opx == 1 && tyiIsRaw f.tyi)) false
  | .subI f => checkI env f tyiAll false (decide (1 < f.opx.toNat) || (f.opx == 1 && tyiIsRaw f.tyi)) false
  | .mulI f => checkI env f tyiAll false (f.opx != 0) false
  | .andI f => checkI env f tyiBits false (decide (1 < f.opx.toNat)) false
  | .orI f => checkI env f tyiBits false (decide (1 < f.opx.toNat)) false
  | .xorI f => checkI env f tyiBits false (decide (1 < f.opx.toNat)) false
  | .shlI f => checkI env f tyiBits false (f.opx != 0) false
  | .shrI f => checkI env f tyiBits false (f.opx != 0) false
  | .sarI f => checkI env f tyiBits false (f.opx != 0) false
  | .rotI f => checkI env f tyiBits false (f.opx != 0) false
  | .cmpI f => checkCmpI env f
  | .minI f => checkI env f tyiArith false (f.opx != 0) false
  | .maxI f => checkI env f tyiArith false (f.opx != 0) false
  | .bfeI f => checkI env f tyiAll false (f.opx != 0) (decide (0xFFFF < f.imm.toNat))
  | .fadd f => checkR env f (descFlt2 f)
  | .fsub f => checkR env f (descFlt2 f)
  | .fmul f => checkR env f (descFlt2 f)
  | .fma f => checkR env f { descFlt2 f with c := spInt, wideC := f.ty == 3 }
  | .fmin f => checkR env f { descFlt2 f with valueBad := decide (3 < f.ty.toNat) || noRounding f }
  | .fmax f => checkR env f { descFlt2 f with valueBad := decide (3 < f.ty.toNat) || noRounding f }
  | .fclass f => checkR env f { d := spInt, a := spInt, wideA := f.ty == 3, valueBad := decide (7 < f.ty.toNat) || f.opx != 0 }
  | .frcp f => checkR env f (descFlt1 [2, 3] f)
  | .frsq f => checkR env f { descFlt1 [2, 3] f with valueBad := !(f.ty == 2 || f.ty == 3) || noRounding f }
  | .fsqrt f => checkR env f (descFlt1 [2, 3] f)
  | .fexp2 f => checkR env f { descFlt1 [2] f with valueBad := f.ty != 2 || noRounding f }
  | .flog2 f => checkR env f { descFlt1 [2] f with valueBad := f.ty != 2 || noRounding f }
  | .fcmp f => checkR env f { descFlt2 f with d := [spPred], wideD := false }
  | .cvt f => checkR env f (descCvt f)
  | .ifThen f => checkB f [1] .nonZero
  | .ifs f => checkB f [1] .nonZero
  | .elseArm f => checkB f [0] .nonZero
  | .endif f => checkB f [0] .zero
  | .loop f => checkB f [0] .nonZero
  | .endloop f => checkB f [0, 1] .negative
  | .breakLoop f => checkB f [0, 1] .positive
  | .continueLoop f => checkB f [0, 1] .positive
  | .call f => checkB f [0, 1] .nonZero
  | .ret f => checkB f [0, 1] .zero
  | .lxch f => checkR env f { d := spVecH, a := spVecH, b := spVecU, wideD := f.ty == 3, wideA := f.ty == 3, valueBad := !(tyBits.contains f.ty) || opxAbove f 3 }
  | .pqry f => checkR env f (descPqry env f)
  | .red f => checkR env f (descRed false f)
  | .scan f => checkR env f (descRed true f)
  | .matchLanes f => checkR env f { d := spVecH, a := spVecH, wideD := env.w == 64, wideA := f.ty == 3, valueBad := !(tyBits.contains f.ty) || f.opx != 0 }
  | .elect f => checkR env f { d := [spPred], valueBad := f.ty != 0 || f.opx != 0 }
  | .bcast f => checkR env f { d := spVecU, a := spVecH, b := [spUni], freeUniform := true, wideD := f.ty == 3, wideA := f.ty == 3, valueBad := !(tyBits.contains f.ty) || f.opx != 0 }
  | .topk f => checkR env f { d := [spPred], a := spVecH, b := [spUni], wideA := classIs64 (!(f.opx.getLsbD 1)) f.ty, valueBad := opxAbove f 3 || (if f.opx.getLsbD 1 then decide (7 < f.ty.toNat) else !(tyArith.contains f.ty)) }
  | .barinit f => checkR env f (descUni false true true f)
  | .bararv f => checkR env f (descUni true true false f)
  | .barwait f => checkR env f { descUni false true true f with d := [spPred] }
  | .barinv f => checkR env f (descUni false true false f)
  | .arm f => checkR env f { d := [spUni], a := [spVec], bIsField := true, aNamed := true, freeUniform := true, rsvBad := f.b.extractLsb' 2 5 != 0, wideA := f.ty == 3, valueBad := !(tyBits.contains f.ty) || opxAbove f 4 }
  | .cap f => checkR env f { d := [spUni], a := [spVec], aNamed := true, freeUniform := true, valueBad := f.ty != 0 || f.opx != 0 }
  | .send f => checkR env f { a := [spUni], b := [spVec], wideB := f.ty == 3, valueBad := !(tyBits.contains f.ty) || opxAbove f 1 }
  | .disarm f => checkR env f { a := [spVec], aNamed := true, wideA := f.ty == 3, valueBad := !(tyBits.contains f.ty) || f.opx != 0 }
  | .place f => checkR env f (descUni true true false f)
  | .scope f => checkR env f (descUni true true false f)
  | .deliveryArrival _ => some (bad 1)
  | .sendOutcomeReturn _ => some (bad 1)
  | .twin f => checkX env f .uni .none .none .none false false (f.xop != 0)
  | .tldw f => checkX env f .none (xopLoadA f) .uni .none true false (xopLoadBad f)
  | .tldws f => checkX env f .none (xopLoadA f) .uni .uni true true (xopLoadBad f)
  | .tmma f => checkX env f .none (xopLoadA f) .none .uni true true (xopLoadBad f)
  | .tmmaq f => checkX env f .none .none .none .uni true true (f.xop &&& 0x1BF != 0)
  | .tfeed f => checkX env f .none .uni .none .none false false (f.xop != 0)
  | .tzero f => checkX env f .none .none .none .uni false false (f.xop != 0)
  | .tdrain f => checkX env f .range .none .none .uni true false (f.xop &&& 0x1F0 != 0)
  | .twait f => checkX env f .none .none .none .none false false (f.xop &&& 0x1FE != 0)
  | .tbound f => checkX env f .uni .none .none .uni true true (f.xop &&& 0x07F != 0 || xopSrc f == 3)
  | .thist f => checkX env f .range .uni .none .none false false (f.xop &&& 0x180 != 0)
  | .trecode f => checkX env f .uni .range .none .uni true false (f.xop &&& 0x1F0 != 0)
  | .tdecode f => checkX env f .range .uni .none .none true false (f.xop &&& 0x1F0 != 0)
  | .termEntryStart _ => some (bad 1)
  | .weightLoadStart _ => some (bad 1)
  | .weightLoadComplete _ _ => some (bad 1)
  | .multiplyComplete _ _ => some (bad 1)
  | .termEntryComplete _ _ => some (bad 1)
  | .arrayClockGate _ => some (bad 1)
  | .arrayWakeGrant _ => some (bad 1)
  | .arrayWakeComplete _ => some (bad 1)
  | .ld f => checkM f { d := 1, a := 1, sizes := szData, ords := [0, 1], hints := hintAny }
  | .st f => checkM f { a := 1, b := 1, sizes := szData, ords := [0, 2], hints := hintAny }
  | .ldc f => checkM f { d := 1, a := 1, sizes := szData, trZero := true }
  | .ldl f => checkM f { d := 1, a := 1, sizes := szData, ords := [0, 1], trZero := true }
  | .stl f => checkM f { a := 1, b := 1, sizes := szData, ords := [0, 2], trZero := true }
  | .gather f => checkM f { d := 1, a := 4, sizes := [0, 1, 2, 3, 4, 5], ords := [0, 1], hints := [0, 1, 3] }
  | .scatter f => checkM f { a := 4, b := 1, sizes := [0, 1, 2, 3, 4, 5], ords := [0, 2], hints := [0, 1, 3] }
  | .fence f => checkM f { dispZero := true, trZero := true, ords := [1, 2, 3] }
  | .translate f => checkM f { d := 4, a := 3, dispZero := true, trZero := true }
  | .pref f => checkM f { a := 1, hints := hintAny }
  | .atom f => checkAtom f (List.range 16)
  | .atomg f => checkAtom f [0, 1, 2, 3, 4, 5, 6, 7, 12, 13, 14]
  | .l1inv f => checkL1 f
  | .l1flush f => checkL1 f
  | .stmap f => checkM f { a := 2, b := 2, dispZero := true }
  | .stunmap f => checkM f { trZero := true, rsvBad := decide (3 < f.disp.toNat) }
  | .stflush f => checkM f { trZero := true, rsvBad := decide (3 < f.disp.toNat) }
  | .awinit f => checkM f { d := 2, a := 2, b := 2, dispZero := true, trZero := true }
  | .awadd f => checkM f { d := 2, a := 2, b := 2, dispZero := true, trZero := true, ords := [0, 2] }
  | .awwait f => checkM f { d := 3, a := 2, b := 2, dispZero := true, trZero := true, ords := [0, 1] }
  | .cadd f => checkM f { a := 2, b := 2, sizes := [5], ords := [0, 2] }
  | .cwait f => checkM f { a := 2, b := 2, sizes := [5], ords := [0, 1] }
  | .cwaitPoll _ _ _ => some (bad 1)
  | .remapld f => checkM f { a := 3, dispZero := true, trZero := true }
  | .loadDataReturn _ _ _ => some (bad 1)
  | .writeAtHome _ _ => some (bad 1)
  | .l1Eviction _ _ => some (bad 1)
  | .l1MissFill _ _ => some (bad 1)
  | .packetOpenTimeout _ _ => some (bad 1)
  | .packetIdleTimeout _ _ => some (bad 1)
  | .gatherExpander _ _ => some (bad 1)
  | .packetReturn _ _ => some (bad 1)
  | .stashFill _ _ _ => some (bad 1)
  | .stashRecall _ _ _ => some (bad 1)
  | .copyRecall _ _ => some (bad 1)
  | .promotionProbe _ _ => some (bad 1)
  | .migrationLineCopy _ _ => some (bad 1)
  | .spillWriteoutDone _ _ => some (bad 1)
  | .reloadDone _ _ _ => some (bad 1)
  | .instructionComplete _ _ _ => some (bad 1)
  | .ageSaturate _ _ _ => some (bad 1)
  | .instructionFetch _ _ _ => some (bad 1)
  | .groupEnd _ _ => some (bad 1)
  | .cpy f => checkCpy env f 60
  | .cpyEnc f => checkCpy env f 60
  | .cpyDec f => checkCpy env f 60
  | .cpyGather f => checkCpy env f 59
  | .stage f => checkR env f { descUni true true false f with specificBad := env.handler }
  | .cpystat f => checkR env f { descUni true true false f with specificBad := env.handler }
  | .copyStart _ _ => some (bad 1)
  | .copyChunk _ _ => some (bad 1)
  | .copyComplete _ _ => some (bad 1)
  | .copyError _ _ => some (bad 1)
  | .scheduleRepeatIssue _ => some (bad 1)
  | .launch f => checkR env f { descUni true true false f with specificBad := env.handler }
  | .post f => checkR env f { a := [spUni], valueBad := f.ty != 0 || opxAbove f 4 }
  | .postApply _ => some (bad 1)
  | .cont f => checkCont env f
  | .taskexit f => checkR env f { descUni false false false f with specificBad := env.handler }
  | .launchAccept _ => some (bad 1)
  | .launchComplete _ => some (bad 1)
  | .qwptrWrite _ _ => some (bad 1)
  | .queueEnable _ _ => some (bad 1)
  | .queueDisable _ _ => some (bad 1)
  | .packetBegin _ => some (bad 1)
  | .packetNop _ _ => some (bad 1)
  | .packetLaunch _ _ => some (bad 1)
  | .packetGraph _ _ => some (bad 1)
  | .graphNextNode _ => some (bad 1)
  | .packetCwait _ _ => some (bad 1)
  | .packetCadd _ _ => some (bad 1)
  | .packetCopy _ _ => some (bad 1)
  | .packetTimestamp _ _ => some (bad 1)
  | .admission _ => some (bad 1)
  | .gangUnplaced _ => some (bad 1)
  | .continuationPoll _ => some (bad 1)
  | .budgetPeriod _ => some (bad 1)
  | .causeTaken _ _ => some (bad 1)
  | .handlerBankGrant _ => some (bad 1)
  | .faultBatchWrite _ => some (bad 1)
  | .pfdoneAnswer _ _ => some (bad 1)
  | .pfdoneRefuse _ _ => some (bad 1)
  | .preemptRequest _ _ => some (bad 1)
  | .preemptForceTimeout _ _ => some (bad 1)
  | .teamSave _ => some (bad 1)
  | .corePowerGate _ _ => some (bad 1)
  | .tlbinv _ _ => some (bad 1)
  | .tlbinvComplete _ => some (bad 1)
  | .partmapWrite _ _ => some (bad 1)
  | .registerWrite _ _ => some (bad 1)
  | .ualinkTransactionReceive _ _ _ _ => some (bad 1)
  | .writeAck _ => some (bad 1)
  | .flitCrcFail _ _ => some (bad 1)
  | .replayDrained _ => some (bad 1)
  | .laneRepairTrigger _ _ => some (bad 1)
  | .replayFailThreshold _ => some (bad 1)
  | .repairComplete _ => some (bad 1)
  | .repairFail _ => some (bad 1)
  | .laneFail _ => some (bad 1)
  | .trainingComplete _ _ => some (bad 1)
  | .portDown _ => some (bad 1)
  | .transactionLossTimeout _ => some (bad 1)
  | .upctlEnable _ _ => some (bad 1)
  | .hostBar2Write _ _ _ => some (bad 1)
  | .hostBar2Read _ _ _ => some (bad 1)
  | .cxlCacheWrite _ _ => some (bad 1)
  | .pcSample _ _ => some (bad 1)
  | .correctedError _ _ => some (bad 1)
  | .timestampSync _ => some (bad 1)
  | .powerOn => some (bad 1)
  | .resetctlWarm => some (bad 1)
  | .pcieHotReset => some (bad 1)
  | .status => some (bad 1)
  | .read _ => some (bad 1)
  | .write _ _ => some (bad 1)
  | .warm => some (bad 1)
  | .cold => some (bad 1)
  | .attest _ => some (bad 1)
  | .flashrd _ _ => some (bad 1)
  | .flashwr _ _ => some (bad 1)
  | .hostCxlMemRead _ => some (bad 1)

/-- A well-formed instruction word: it passes every check of rule R60. -/
abbrev Instr.wellFormed (env : Env) (i : Instr) : Prop := i.check env = none

end Sys2Proof
end

