-- ==== Sys2Proof/Machine/Ops.lean ====
section
/-! DEFINITION. The shared operations: registers and the physical pool (chapter 1), exceptions and page faults (chapter 18),
instruction fetch, and the issue of an instruction. -/

namespace Sys2Proof.Machine

/-! ### Vector registers -/

/-- The lanes that a read of a register gives (rule R20). -/
def VReg.lanes (r : VReg) : Lanes :=
  match r.st with
  | .mapped | .delivered => r.val
  | .spilled => r.early.getD []
  | .empty | .pending => []

def Group.vreg (G : Group) (n : Nat) : VReg := G.regs.v.get {} n
def Group.setV (G : Group) (n : Nat) (r : VReg) : Group := { G with regs := { G.regs with v := G.regs.v.set n r } }
def Group.vlane (G : Group) (n l : Nat) : W32 := laneOf (G.vreg n).lanes l
def Group.pred (G : Group) (n : Nat) : Mask := G.regs.p.get 0 n
def Group.uni (G : Group) (n : Nat) : W64 := G.regs.k.get 0 n
def Group.idxReg (G : Group) (n : Nat) : W32 := G.regs.x.get 0 n
def Group.treg (G : Group) (n : Nat) : TReg := G.regs.t.get {} n
def Group.hlane (G : Group) (n l : Nat) : W32 := laneOf (G.regs.h.get [] n) l

/-- Granules of one physical register of a group (rule R17). -/
def Group.gran (G : Group) : Nat := G.w / 16

/-- Whether a register state holds a physical register (rule R18). -/
def RegSt.holds (r : RegSt) : Bool := r == .mapped || r == .pending || r == .delivered

/-- held(g) (rule R24), with the granules of reloads under way and without those that an admission has still to allocate (rule R422); during
run-ahead the checkpoint's registers and all those newly allocated (rule R29). -/
def Group.held (G : Group) : Nat :=
  let cnt (t : Tab VReg) (f : VReg → Bool) : Nat := (t.filter (fun e => e.2.st.holds && f e.2 && !G.unalloc.contains e.1)).length
  let n := match G.ra with
    | none => cnt G.regs.v (fun _ => true)
    | some r => cnt r.regs.v (fun _ => true) + cnt G.regs.v (fun x => !x.pin && x.st != .pending) + r.extra
  (n + (G.reloads.filter (fun r => !r.early)).length) * G.gran

/-- shortfall(g) (rule R24). -/
def Group.shortfall (G : Group) : Nat := G.resv - G.held

/-- `free` (rule R24): granules not held and not waiting for a write-out. -/
def Core.free (k : Core) : Nat :=
  Config.poolGranules - ((k.slots.map (fun e => e.2.held)).sum + (k.writeouts.map (fun w => w.granules)).sum)

/-- Σ shortfall over the resident groups. -/
def Core.shortfalls (k : Core) : Nat := (k.slots.map (fun e => e.2.shortfall)).sum

/-- Whether an instruction in flight writes a register of a space (rule R163). -/
def Group.busy (G : Group) (sp : RSpace) (n : Nat) : Bool :=
  G.infl.any (fun i => i.writes.any (fun w => w.sp == sp && w.num == n))

/-- The registers that spilling chooses among (rules R25, R29): the group's, or its checkpoint's during run-ahead. DESIGN CHOICE: a
register that run-ahead itself allocated is not spilled (log entry 110). -/
def Group.spillable (G : Group) : Tab VReg := match G.ra with | some r => r.regs.v | none => G.regs.v

/-- Whether a register may be chosen for spilling (rules R20, R25): a pinned register may, also where run-ahead has written another
physical register under its number. -/
def Group.eligible (G : Group) (n : Nat) : Bool :=
  (G.spillable.get {} n).st == .mapped && !G.unalloc.contains n
    && !G.infl.any (fun i => i.reads.contains n || (!i.ahead && i.writes.any (fun w => w.sp == .vec && w.num == n)))
    && !(G.reloads.any (fun r => r.reg == n))

/-- The eligible register least recently written, ties to the lower number, outside `excl` (rule R25). -/
def Group.victim (G : Group) (excl : List Nat) : Option Nat :=
  let c := (G.spillable.map (fun e => e.1)).filter (fun n => G.eligible n && !excl.contains n)
  c.foldl (fun b n => match b with
    | none => some n
    | some m => if (G.spillable.get {} n).stamp < (G.spillable.get {} m).stamp then some n else some m) none

/-- The address of a register's place in the spill area (rule R27). -/
def Group.spillVa (G : Group) (n : Nat) : Nat := (G.spill.toNat + n * G.w * 4) % 2 ^ 57

/-- spill(h) of one register (rule R25). -/
def State.spill (s : State) (c g n : Nat) : State :=
  match s.group c g with
  | none => s
  | some G =>
    let r := G.spillable.get {} n
    let (id, s) := s.fresh
    let wo : WriteOut := ⟨id, g, G.gid, n, G.gran, G.part, G.spillVa n, lanesOf G.w (laneOf r.lanes), G.lid⟩
    let sp (t : Tab VReg) : Tab VReg := t.set n { st := .spilled, pin := r.pin, stamp := r.stamp }
    let same := G.ra.isNone || (G.vreg n).pin
    let G := { G with regs := { G.regs with v := if same then sp G.regs.v else G.regs.v }
                      ra := G.ra.map (fun a => { a with regs := { a.regs with v := sp a.regs.v } })
                      spillcnt := satAdd G.spillcnt 1 16 }
    ((s.setGroup c g G).updCore c (fun k => { k with writeouts := k.writeouts ++ [wo] })).count G.part 10 1

/-- The youngest group above its reserve that holds an eligible register, and the register (rules R24, R25); of the group in slot `own`
the registers `excl`, which its stalled instruction names, are not eligible. -/
def Core.spillChoice (k : Core) (own : Nat) (excl : List Nat) : Option (Nat × Nat) :=
  let c := k.slots.filterMap (fun (g, G) =>
    if decide (G.resv < G.held) then (G.victim (if g == own then excl else [])).map (fun n => (G.admitted, g, n)) else none)
  (c.foldl (fun (b : Option (Nat × Nat × Nat)) x => match b with
    | none => some x
    | some y => if y.1 < x.1 then some x else some y) none).map (fun x => x.2)

/-- A core as it stands once the group in a slot has freed the registers `rel` (rules R19, R21). -/
def Core.freed (k : Core) (slot : Nat) (rel : List Nat) : Core :=
  match k.slots.find slot with
  | some G => { k with slots := k.slots.set slot (rel.foldl (fun G n => G.setV n {}) G) }
  | none => k

/-- Whether `need` granules may be taken for a group now (rule R24). -/
def Core.fits (k : Core) (G : Group) (need : Nat) : Bool :=
  let within := Nat.min need G.shortfall
  decide (need - within + k.shortfalls ≤ k.free + within)

/-- One pass of rule R24 for a group that cannot take `need` granules, once its stalled instruction has freed the registers `rel` (rule
R19): unless write-outs on their way suffice, one register is spilled, of the group chosen by the rule or, with none, of the group itself
outside `excl`. -/
def State.makeRoom (s : State) (c g need : Nat) (excl rel : List Nat) : State :=
  let k := (s.core c).freed g rel
  match k.slots.find g with
  | none => s
  | some G =>
    let within := Nat.min need G.shortfall
    if decide (need - within + k.shortfalls ≤ k.free + within + (k.writeouts.map (fun w => w.granules)).sum) then s
    else
      match k.spillChoice g excl with
      | some (h, n) => s.spill c h n
      | none =>
        match G.victim excl with
        | some n => s.spill c g n
        | none => s

/-- The allocation of the registers that a group was admitted with (rules R24, R388, R422): false while it waits. -/
def State.allocate (s : State) (X : Ctx) : State × Bool :=
  match s.group X.core X.slot with
  | none => (s, false)
  | some G =>
    let need := G.unalloc.length * G.gran
    if G.unalloc.isEmpty then (s, true)
    else if (s.core X.core).fits G need then (s.setGroup X.core X.slot { G with unalloc := [] }, true)
    else (s.makeRoom X.core X.slot need [] [], false)

/-- The generation of a slot's register (rule R188). -/
def Core.gen (k : Core) (g n : Nat) : Nat := k.gens.get 0 (128 * g + n)
def Core.bumpGen (k : Core) (g n : Nat) : Core := { k with gens := k.gens.set (128 * g + n) ((k.gen g n + 1) % 4096) }

/-- The register that carries the capability of register `n`, where `n` is armed: itself, or the even half of a pair (R188). -/
def Group.armOf (G : Group) (n : Nat) : Option (Nat × Arm) :=
  match G.arms.find n with
  | some a => some (n, a)
  | none => match G.arms.find (n - n % 2) with
    | some a => if a.pair then some (n - n % 2, a) else none
    | none => none

/-- The DISARM column of rule R20 for one register. -/
def disarmed (r : VReg) : VReg :=
  match r.st with
  | .pending => { r with st := .empty, val := [] }
  | .delivered => { r with st := .mapped, scope := 0 }
  | _ => r

/-- The generation that a capability names advances, in the slot where it was minted (rules R188, R196). -/
def State.bumpCap (s : State) (cap : W64) : State :=
  let pl := fld cap 40 24
  s.updCore (pl / 2 ^ 13 % 2 * 96 + pl / 64 % 128) (fun k => k.bumpGen (pl % 64) (fld cap 21 7))

/-- Makes the capability of an armed register stale (rules R20, R188): the generation advances and the halves take the
DISARM column. -/
def State.disarm (s : State) (c g n : Nat) : State :=
  match s.group c g with
  | none => s
  | some G =>
    match G.armOf n with
    | none => s
    | some (b, a) =>
      let G := if a.pair then (G.setV b (disarmed (G.vreg b))).setV (b + 1) (disarmed (G.vreg (b + 1))) else G.setV b (disarmed (G.vreg b))
      let G := { G with arms := G.arms.erase b }
      (s.setGroup c g G).bumpCap a.cap

/-- The first read of a delivered register (rules R20, R188, R198): it becomes MAPPED, a single-use capability goes stale,
and the read is an acquire at the scope of its sender. -/
def State.readDelivered (s : State) (c g n : Nat) : State :=
  match s.group c g with
  | none => s
  | some G =>
    if (G.vreg n).st != .delivered then s
    else
      let s := s.acquire c G.gid (G.vreg n).scope
      match G.armOf n with
      | none => s.setGroup c g (G.setV n { G.vreg n with st := .mapped, scope := 0 })
      | some (b, a) =>
        let G := if a.pair then (G.setV b (disarmed (G.vreg b))).setV (b + 1) (disarmed (G.vreg (b + 1))) else G.setV b (disarmed (G.vreg b))
        let s := s.setGroup c g { G with arms := G.arms.erase b }
        if a.reuse then s else s.bumpCap a.cap

/-! ### What an instruction names -/

/-- The registers an instruction names (rules R19, R163): vector, uniform, predicate, index, handler-bank and translation
sources, vector sources with a last-use bit, and destinations. -/
structure Plan where
  rv : List Nat := []
  rk : List Nat := []
  rp : List Nat := []
  rx : List Nat := []
  rh : List Nat := []
  rt : List Nat := []
  lu : List Nat := []
  /-- the guard or condition predicate, a source among `rp` (rules R42, R412) -/
  grd : List Nat := []
  /-- whether the guard is negated (rule R42) -/
  neg : Bool := false
  wv : List Nat := []
  wk : List Nat := []
  wp : List Nat := []
  wx : List Nat := []
  wh : List Nat := []
  wt : List Nat := []
  /-- vector destinations named and not written, which still cancel a release (rule R21) -/
  nd : List Nat := []
  /-- a full write: every lane of the vector destinations is written (rules R20, R237) -/
  full : Bool := false
  /-- the word's yield bit, for an issue that starts run-ahead (rules R45, R411) -/
  y : BitVec 1 := 0

/-- The active lanes (rules R11, R42): AM, limited by the guard. -/
def activeLanes (G : Group) (p : Split) (ge gn : BitVec 1) (g : BitVec 7) : Mask :=
  if ge == 0 then p.am
  else if gn == 1 then p.am &&& ~~~(G.pred g.toNat) else p.am &&& G.pred g.toNat

/-- The guard predicate as a source (rule R164). -/
def guardReads (ge : BitVec 1) (g : BitVec 7) : List Nat := if ge == 1 then [g.toNat] else []

/-- Whether last-use bits are in effect (rule R21): the group has one live split. -/
def Group.lastUse (G : Group) : Bool := G.splits.length == 1

/-- Whether the group runs a trap handler. -/
def Group.inHandler (G : Group) : Bool := G.frame.isSome

/-! ### Ends -/

/-- Ends a group at once: no split is left, and the group waits for its instructions in flight (rules R138, R408). -/
def Group.kill (G : Group) : Group :=
  { G with splits := [], frame := none, entry := none, causes := [], ra := none, ending := true }

/-- The save slots that a team holds (rules R225, R418), and a team that gives them up. -/
def Team.saveRun (T : Team) : List Nat :=
  match T.saveSlot with
  | some n => if T.pair then [n, n + 1] else [n]
  | none => []
def State.dropSlots (s : State) (T : Team) : State :=
  s.updPart T.part (fun P => { P with slotsUsed := P.slotsUsed.filter (fun x => !T.saveRun.contains x) })

/-- Ends a launch with SPILLFAULT (rule R370): its groups end without a handler, and its waiting and saved teams and
continuations go. -/
def State.spillFault (s : State) (lid : Nat) : State :=
  let s := s.updLaunch lid (fun L => { L with closed := true, code := if L.code == 0 then 5 else L.code })
  let gone (T : Team) : Bool := T.lid == lid && T.state == .saved
  let s := (s.teams.filter (fun e => gone e.2)).foldl (fun s e => s.dropSlots e.2) s
  let teams := s.teams.mapV (fun T => if gone T then { T with state := .ended, savedGroups := [], susp := [], held := [], relq := [], saveSlot := none } else T)
  let conts := s.conts.filter (fun e => e.2.lid != lid)
  let cores := s.cores.mapV (fun k => { k with slots := k.slots.mapV (fun G => if G.lid == lid then G.kill else G) })
  { s with conts := conts, teams := teams, cores := cores }

/-! ### Exceptions (rules R400 to R408) -/

/-- `sys.trapcause` for a cause (rule R401). -/
def trapWord (q : Cause) (more : Bool) : W64 :=
  w64 (at_ q.code 59 + (if q.deferred then 2 ^ 58 else 0) + (if more then 2 ^ 57 else 0) + at_ (q.lane % 64) 50 + q.info.toNat)

/-- Granules of the trap reserve that a core's handlers hold (rule R32): W for each. -/
def Core.trapUsed (k : Core) : Nat := ((k.slots.filter (fun e => e.2.inHandler)).map (fun e => e.2.w)).sum

/-- Enters the handler for a cause, with a handler bank at hand (rules R32, R405). -/
def Group.enter (G : Group) (vec : W64) (q : Cause) : Group :=
  match G.split q.split with
  | none => { G with entry := none }
  | some p =>
    let G := { G with
      trapcause := trapWord q (!G.causes.isEmpty), trappc := q.pc, entry := none
      frame := some ⟨p.id, p.pc, p.am, p.stack, q.ra, if q.deferred then p.refused else none⟩
      regs := { G.regs with h := [] } }
    G.setSplit { p with
      pc := w64 (fld vec 3 54 * 8), am := if p.am == 0 then p.own else p.am, stack := [], word := none,
      wait := .ready, waited := false, batch := none, refused := none, stall := 8 }

/-- Ends a group by rule R408. -/
def State.trapEnd (s : State) (c g : Nat) (code : Nat) : State :=
  match s.group c g with
  | none => s
  | some G =>
    (s.setGroup c g G.kill).updPart G.part (fun P =>
      { P with trapend := w64 (at_ code 32 + satAdd (fld P.trapend 0 32) 1 32) })

/-- TAKING AN EXCEPTION (rules R405, R408): with TRAPVEC.V = 0 or in a handler the group ends; else the group enters the
handler, or waits for a handler bank while the trap reserve lacks W granules. -/
def State.takeCause (s : State) (c g : Nat) (q : Cause) : State :=
  match s.group c g with
  | none => s
  | some G =>
    let vec := (s.part G.part).trapvec
    if fld vec 63 1 == 0 || G.inHandler then s.trapEnd c g q.code
    else if decide ((s.core c).trapUsed + G.w ≤ Config.trapGranules) then s.setGroup c g (G.enter vec q)
    else s.setGroup c g (({ G with entry := some q }).updSplit q.split (fun p => { p with stall := 2, wait := .ready, batch := none }))

/-- THE RETURN FROM AN EXCEPTION (rule R407). -/
def State.returnTrap (s : State) (c g : Nat) : State :=
  match s.group c g with
  | none => s
  | some G =>
    match G.frame with
    | none => s
    | some f =>
      let infl := G.infl.map (fun i => { i with writes := i.writes.filter (fun w => w.sp != .hb) })
      s.setGroup c g (({ G with frame := none, infl := infl, regs := { G.regs with h := [] } }).updSplit f.split (fun p =>
        { p with pc := f.ra, am := f.am, stack := f.stack, word := none, stall := 0, since := s.cycle, aged := false, refused := f.refused }))

/-! ### Page faults and run-ahead (rules R29, R409 to R414) -/

/-- A new batch of a partition (rule R410); its number. -/
def State.newBatch (s : State) (part : Nat) (pages : List FaultPage) (place lid ticket : Nat) : State × Nat :=
  let P := s.part part
  let seq := match s.launches.find lid with | some L => L.seq | none => 0
  let b : Batch := ⟨P.nextBatch, pages, place % 2 ^ 24, seq, ticket, false⟩
  ((s.updPart part (fun P => { P with batches := P.batches ++ [b], nextBatch := (P.nextBatch + 1) % 65536 })).count part 15 1, P.nextBatch)

/-- Whether a split waits in a state in which a pre-emption request stops it at once (rule R416). -/
def Split.quiet (p : Split) : Bool :=
  match p.wait with
  | .safe | .fault | .merge | .barrier _ | .arrival _ | .counter _ => true
  | .ready => p.stall == 7 || p.stall == 9
  | _ => false

/-- Stops a group that a pre-emption request names once every live split is quiet (rules R157, R416); in a handler the held
splits are not quiet. -/
def Group.latchStop (G : Group) : Group :=
  if G.preempt.isSome && G.entry.isNone && G.ra.isNone && G.splits.all Split.quiet && (!G.inHandler || G.splits.length == 1)
  then { G with stopped := true } else G

/-- Rolls a run-ahead back (rules R29, R413): the checkpoint is restored, pins released, instructions issued during
run-ahead dropped, the batch made, and the split sleeps in FAULT at the faulting instruction. -/
def State.endAhead (s : State) (c g : Nat) : State :=
  match s.group c g with
  | none => s
  | some G =>
    match G.ra with
    | none => s
    | some r =>
      let (s, b) := s.newBatch G.part r.pages (s.placeOf c g) G.lid 0
      let regs := { r.regs with v := r.regs.v.map (fun (n, x) => (n, { x with pin := false })) }
      let p := (G.splits.head?).getD r.split
      s.setGroup c g ({ G with
        regs := regs, ra := none, infl := G.infl.filter (fun i => !i.ahead), reloads := []
        splits := [{ r.split with wait := .fault, stall := 4, batch := some b, word := none, since := p.since, aged := p.aged, doneAt := p.doneAt }] }).latchStop

/-- Raises a precise cause at the current instruction (rules R400, R402); during run-ahead it ends the run-ahead and is not
raised (rule R412). DESIGN CHOICE: an instruction that raises a cause, TRAP and BKPT too, is no issue of its slot, whose `cur` and
`yielded` stay (log entry 139). -/
def State.raise (s : State) (X : Ctx) (code lane : Nat) (info : Nat) : State :=
  match s.group X.core X.slot with
  | none => s
  | some G =>
    if G.ra.isSome then s.endAhead X.core X.slot
    else
      match G.split X.split with
      | none => s
      | some p =>
        let s := s.setGroup X.core X.slot (G.updSplit X.split (fun p => { p with batch := none, waited := false }))
        s.takeCause X.core X.slot { code := code, deferred := false, split := X.split, info := BitVec.ofNat 48 info, lane := lane,
                                    pc := p.pc, ra := if code == 11 || code == 12 then p.pc + 8 else p.pc }

/-- ILLEGAL for a word check or a register value (rules R61, R400, R401). -/
def State.illegal (s : State) (X : Ctx) (e : Illegal) : State :=
  s.raise X 1 0 (at_ e.check 16 + at_ e.space.toNat 7 + e.num.toNat)

/-- ILLEGAL by a check on register values, naming a register (CHECK 9). -/
def State.badValue (s : State) (X : Ctx) (space num : Nat) : State := s.raise X 1 0 (at_ 9 16 + at_ space 7 + num)

/-- INFO of an address: its bits [56:9] (rule R400). -/
def addrInfo (va : Nat) : Nat := va / 512 % 2 ^ 48

/-- A page that has no translation, outside run-ahead (rules R411, R414): PAGE at once in a handler, or while PFRING.EN = 0;
else a batch, and the split sleeps in FAULT. -/
def State.pageFault (s : State) (X : Ctx) (kind va lane : Nat) : State :=
  match s.group X.core X.slot with
  | none => s
  | some G =>
    if G.ra.isSome then s.endAhead X.core X.slot
    else if G.inHandler || fld (s.part G.part).pfring 63 1 == 0 then s.raise X 8 lane (addrInfo va)
    else
      let (s, b) := s.newBatch G.part [⟨kind, va % 2 ^ 57, lane⟩] (s.placeOf X.core X.slot) G.lid 0
      s.updGroup X.core X.slot (fun G => (G.updSplit X.split (fun p => { p with wait := .fault, stall := 4, batch := some b, word := none })).latchStop)

/-- Records why the current split did not issue (rule R167). -/
def State.stall (s : State) (X : Ctx) (code : Nat) : State :=
  s.updGroup X.core X.slot (fun G => (G.updSplit X.split (fun p => { p with stall := code })).latchStop)

/-- The current split waits (rule R167). -/
def State.await (s : State) (X : Ctx) (w : Wait) (code : Nat) : State :=
  s.updGroup X.core X.slot (fun G => (G.updSplit X.split (fun p => { p with wait := w, stall := code, waited := true })).latchStop)

/-! ### Ordered accesses (rules R198, R305) -/

/-- Whether a split's writes before instruction `before` have reached their homes (rules R198, R305): none of its writes, atomics,
stash stores or scatters waits, and no write-back of the core. -/
def State.writesDrained (s : State) (core gid split : Nat) (before : Nat) : Bool :=
  let k := s.core core
  let mine (i : Inflight) : Bool :=
    i.split == split && decide (i.id < before) && (i.kind == .atom || i.kind == .lstore || i.kind == .scatter)
  !((k.slots.find? (fun e => e.2.gid == gid)).any (fun e => e.2.infl.any mine))
    && !(k.homeq.any (fun h => h.gid == 0 || h.ofSplit gid split before))
    && !(k.packets.any (fun p => p.write && p.reqs.any (fun q => q.gid == gid && q.split == split && decide (q.iid < before))))

/-- Whether an ordered access at scope `sc` may go on (rules R271, R284, R305): the packets of its group depart, a release above the
pair writes back the pair's L1s, and a release waits in state `code` until the split's earlier writes and those write-backs have reached
their homes. -/
def State.ordered (s : State) (X : Ctx) (G : Group) (ord : BitVec 2) (sc : BitVec 3) (code : Nat) : State × Bool :=
  if ord == 0 then (s, true)
  else
    let s := s.updCore X.core (fun k => k.departGroup G.gid)
    let s := if ord.getLsbD 1 then s.release X.core sc.toNat else s
    if ord.getLsbD 1 && (!(s.writesDrained X.core G.gid X.split G.nextIid) || (decide (3 ≤ sc.toNat) && (s.core (partnerOf X.core)).backlog)) then
      (s.stall X code, false)
    else (s, true)

/-! ### Fetch (rules R53, R276) -/

/-- Reads the word at an address as an instruction fetch does: the word, or a state in which the fetch has raised its
cause or made its batch at the current instruction. -/
def State.fetchAt (s : State) (X : Ctx) (part va : Nat) : State × Option W64 :=
  if decide (2 ^ 57 ≤ va) then (s.raise X 7 0 (addrInfo va), none)
  else if s.walkHeld (some X.core) part va then (s, none)
  else
    match s.translate (some X.core) part va with
    | (s, none) => (s.pageFault X 2 va 0, none)
    | (s, some e) =>
      let pa := e.pa va
      if !e.rd || !s.regionOk pa then (s.raise X 7 0 (addrInfo va), none)
      else if s.owned (pa / 128) || s.barred part X.core (pa / 128) then (s, none)
      else
        let (s, b) := s.coreRead X.core pa 8
        if s.poisoned pa 8 then ((s.readPoison part (s.placeOf X.core X.slot) pa 8).raise X 13 0 (addrInfo va), none) else (s, some (w64 (numOf b)))

/-- Fetches the split's next instruction (rule R159). -/
def State.fetch (s : State) (X : Ctx) : State :=
  match s.group X.core X.slot with
  | none => s
  | some G =>
    match G.split X.split with
    | none => s
    | some p =>
      if let some (va, lane) := p.refused then s.raise X 8 lane (addrInfo va)
      else match s.fetchAt X G.part p.pc.toNat with
      | (s, none) => s
      | (s, some w) => s.updGroup X.core X.slot (fun G => G.updSplit X.split (fun p => { p with word := some w, stall := 15 }))

/-! ### Issue -/

/-- Whether run-ahead runs an instruction (rule R412). -/
def Instr.ahead (i : Instr) : Bool :=
  match i with
  | .nop _ | .sread _ => true
  | .clk f => f.sop == 0
  | .add _ | .sub _ | .mul _ | .mulhi _ | .mad _ | .div _ | .rem _ | .min _ | .max _ | .abs _ | .neg _ | .lea _ => true
  | .and _ | .or _ | .xor _ | .not _ | .shl _ | .shr _ | .sar _ | .rot _ | .bfe _ | .bfi _ | .brev _ | .popc _ | .clz _ | .ctz _ | .tcnt _ => true
  | .cmp _ | .pand _ | .por _ | .pxor _ | .pnot _ | .sel _ | .mov _ | .movi _ | .movx _ | .movxw _ => true
  | .addI _ | .subI _ | .mulI _ | .andI _ | .orI _ | .xorI _ | .shlI _ | .shrI _ | .sarI _ | .rotI _ | .cmpI _ | .minI _ | .maxI _ | .bfeI _ => true
  | .fadd _ | .fsub _ | .fmul _ | .fma _ | .fmin _ | .fmax _ | .fclass _ | .frcp _ | .frsq _ | .fsqrt _ | .fexp2 _ | .flog2 _ | .fcmp _ | .cvt _ => true
  | .ifThen _ | .ifs _ | .elseArm _ | .endif _ | .loop _ | .endloop _ | .breakLoop _ | .continueLoop _ | .call _ | .ret _ => true
  | .lxch _ | .pqry _ | .red _ | .scan _ | .matchLanes _ | .elect _ | .bcast _ | .topk _ => true
  | .ld f => f.ord == 0
  | .ldl f => f.ord == 0
  | .ldc f => f.ord == 0
  | .gather f => f.ord == 0
  | .pref f => f.ord == 0
  | .translate _ => true
  | _ => false

/-- Whether run-ahead stops before an instruction that run-ahead would otherwise run (rule R412): 512 instructions, 32
pages, a pre-emption request. -/
def RunAhead.spent (r : RunAhead) (G : Group) : Bool := decide (512 ≤ r.count) || decide (32 ≤ r.pages.length) || G.preempt.isSome

/-- What the word checks read of a group (rules R47, R140). -/
def State.env (s : State) (G : Group) : Env :=
  { handler := G.inHandler, w := G.w
    nsafe := match s.launches.find G.lid with | some L => fld (L.record.getD 13 0) 0 15 | none => 0 }

/-- The unknown lanes of a vector register during run-ahead (rules R29, R412): all of a PENDING one. -/
def Group.unkLanes (G : Group) (n : Nat) : Mask :=
  match G.ra with
  | none => 0
  | some r => if (G.vreg n).st == .pending then fullMask 64 else r.unkV.get 0 n

/-- Whether any source of a plan is unknown during run-ahead (rule R412). -/
def Group.unknown (G : Group) (P : Plan) : Bool :=
  match G.ra with
  | none => false
  | some r => P.rv.any (fun n => G.unkLanes n != 0) || P.rp.any (fun n => r.unkP.get 0 n != 0) || P.rk.any r.unkK.contains
    || P.rx.any r.unkX.contains || P.rt.any r.unkT.contains

/-- Tags a plan's destinations unknown in every lane (rule R412). -/
def RunAhead.mark (r : RunAhead) (P : Plan) : RunAhead :=
  let tag (t : Tab Mask) (ns : List Nat) : Tab Mask := ns.foldl (fun t n => t.set n (fullMask 64)) t
  { r with unkV := tag r.unkV P.wv, unkP := tag r.unkP P.wp, unkK := P.wk.foldl addNew r.unkK, unkX := P.wx.foldl addNew r.unkX
           unkT := P.wt.foldl addNew r.unkT }

/-- Takes the tag off what known writes replace: the written lanes of a register that keeps its others (rule R412). -/
def RunAhead.clear (r : RunAhead) (ws : List RegW) : RunAhead :=
  ws.foldl (fun r w => match w.sp with
    | .vec => { r with unkV := r.unkV.set w.num (r.unkV.get 0 w.num &&& ~~~w.mask) }
    | .pred => { r with unkP := r.unkP.set w.num (r.unkP.get 0 w.num &&& ~~~w.mask) }
    | .uni => { r with unkK := r.unkK.filter (fun n => n != w.num) }
    | .idx => { r with unkX := r.unkX.filter (fun n => n != w.num) }
    | .trans => { r with unkT := r.unkT.filter (fun n => n != w.num) }
    | .hb => r) r

/-- Begins the issue of instruction `i` at the current split: the word checks (rules R60, R61), the run-ahead stops (rule
R412), and the rule that only a control instruction issues with AM = 0 (rule R127). `k` continues with the group and split. -/
def State.begin (s : State) (i : Instr) (control : Bool) (k : State → Ctx → Group → Split → State) : State :=
  let X := s.cur
  match s.group X.core X.slot with
  | none => s
  | some G =>
    match G.split X.split with
    | none => s
    | some p =>
      match i.check (s.env G) with
      | some e => s.illegal X e
      | none =>
        if (match G.ra with | some r => !Instr.ahead i || r.spent G | none => false) then s.endAhead X.core X.slot
        else if p.am == 0 && !control then s.stall X 8
        else match p.refused with
          | some (va, lane) => s.raise X 8 lane (addrInfo va)
          | none => k s X G p

/-- A source whose reload is not under way: starts one, taking granules unless a last-use read takes the value straight
(rules R20, R24). -/
def State.startReload (s : State) (c g n : Nat) (early ahead : Bool) (excl : List Nat) : State × Nat :=
  match s.group c g with
  | none => (s, 10)
  | some G =>
    if early then (s.setGroup c g { G with reloads := G.reloads ++ [⟨n, true⟩] }, 10)
    else if ahead && decide ((s.core c).free < G.gran + (s.core c).shortfalls) then (s.endAhead c g, 4)
    else if (s.core c).fits G G.gran then (s.setGroup c g { G with reloads := G.reloads ++ [⟨n, false⟩] }, 10)
    else (s.makeRoom c g G.gran excl [], 11)

/-- Whether run-ahead meets a guard or condition that is unknown in an active lane (rule R412). -/
def Group.guardUnknown (G : Group) (X : Ctx) (P : Plan) : Bool :=
  match G.ra, G.split X.split with
  | some r, some p => P.grd.any (fun n => r.unkP.get 0 n &&& p.am != 0)
  | _, _ => false

/-- Whether a destination needs granules: it is EMPTY or SPILLED, or run-ahead writes it (rules R20, R29). -/
def Group.needsRoom (G : Group) (n : Nat) : Bool :=
  match (G.vreg n).st with
  | .empty | .spilled => true
  | _ => G.ra.isSome

/-- The sources that an issue frees (rule R21). -/
def Group.releases (G : Group) (P : Plan) : List Nat :=
  if G.lastUse then (P.lu.eraseDups).filter (fun n => !P.wv.contains n && !P.nd.contains n && !(G.ra.isSome && (G.vreg n).pin)) else []

/-- Granules that a plan's destinations need (rules R17, R20). -/
def Group.need (G : Group) (P : Plan) : Nat := ((P.wv.eraseDups).filter G.needsRoom).length * G.gran

/-- Whether the granules that a plan needs cannot be taken now (rules R24, R29): outside run-ahead, and in it. -/
def State.tight (s : State) (X : Ctx) (G : Group) (P : Plan) : Bool :=
  let G1 := (G.releases P).foldl (fun G n => G.setV n {}) G
  let k1 := { s.core X.core with slots := (s.core X.core).slots.set X.slot G1 }
  G.need P != 0 && (if G.ra.isSome then decide (k1.free < G.need P + k1.shortfalls) else !k1.fits G1 (G.need P))

/-- Where an instruction of plan `P` of the group `G` was held in its address phase, its allocation may wait too: then 11 is recorded, the
lowest code that applies (rule R167). -/
def State.lowest (s : State) (X : Ctx) (G : Group) (P : Plan) : State :=
  match s.group X.core X.slot with
  | none => s
  | some H =>
    match H.split X.split with
    | none => s
    | some p =>
      if p.wait == .ready && decide (12 ≤ p.stall) && decide (p.stall ≤ 14) && G.ra.isNone && H.ra.isNone && H.frame == G.frame && H.entry == G.entry
          && s.tight X H P then s.stall X 11
      else s

/-- The current split's instruction of plan `P` does not issue for the reason `code`, above 11: the lowest code that applies is recorded,
11 while its allocation waits too (rule R167). -/
def State.stallFor (s : State) (X : Ctx) (G : Group) (P : Plan) (code : Nat) : State :=
  s.stall X (if G.ra.isNone && s.tight X G P then 11 else code)

/-- Whether the plan's registers let the instruction issue (rules R20, R164, R166): true, or a state with the stall code
recorded and any reload started. Of several that apply the lowest code is recorded (rule R167). -/
def State.ready (s : State) (X : Ctx) (G : Group) (P : Plan) : State × Bool :=
  let src := P.rv.eraseDups
  let named := (P.rv ++ P.wv).eraseDups
  if G.guardUnknown X P then (s.endAhead X.core X.slot, false)
  else if G.ra.isNone && src.any (fun n => (G.vreg n).st == .pending) then (s.stall X 9, false)
  else
    let luEff (n : Nat) : Bool := (G.releases P).contains n
    let need := src ++ (if P.full then [] else P.wv.filter (fun n => !src.contains n))
    match need.find? (fun n => (G.vreg n).st == .spilled && ((G.vreg n).early.isNone || !luEff n)) with
    | some n =>
      if G.reloads.any (fun r => r.reg == n) then (s.stall X 10, false)
      else
        let (s, code) := s.startReload X.core X.slot n (luEff n) G.ra.isSome named
        (s.stall X code, false)
    | none =>
      if named.any (G.busy .vec) || (P.rk ++ P.wk).any (G.busy .uni) || (P.rp ++ P.wp).any (G.busy .pred)
          || (P.rx ++ P.wx).any (G.busy .idx) || (P.rh ++ P.wh).any (G.busy .hb) then (s.stallFor X G P 12, false)
      else if decide (64 ≤ G.infl.length) then (s.stallFor X G P 13, false)
      else (s, true)

/-- Whether the current split's instruction of plan `P` has an active lane. -/
def Group.lanesFor (G : Group) (X : Ctx) (P : Plan) : Bool :=
  match G.split X.split, P.grd with
  | some p, g :: _ => p.am &&& (if P.neg then ~~~(G.pred g) else G.pred g) != 0
  | _, _ => true

/-- The EMPTY vector sources whose reads count: none without an active lane (rules R22, R446). -/
def Group.deadReads (G : Group) (X : Ctx) (P : Plan) : List Nat :=
  if G.lanesFor X P then (P.rv.eraseDups).filter (fun n => (G.vreg n).st == .empty) else []

/-- `sys.deadread` after an instruction that read EMPTY registers, the lowest of them `n` (rules R22, R37). -/
def deadWord (x : W64) (n : Nat) : W64 :=
  let y := setFld x 16 32 (satAdd (fld x 16 32) 1 32)
  if fld x 0 1 == 0 then setFld (setFld y 8 7 n) 0 1 1 else y

/-- Counts an instruction's reads of EMPTY registers, once, when it issues or raises DEADREAD (rules R22, R37). -/
def State.noteDead (s : State) (X : Ctx) (G : Group) (P : Plan) : State :=
  match G.deadReads X P with
  | [] => s
  | n :: ns => if G.ra.isSome then s
      else s.updGroup X.core X.slot (fun G => { G with deadread := deadWord G.deadread (ns.foldl Nat.min n) })

/-- The DEADREAD step (rules R22, R406): false when the trap was raised. -/
def State.dead (s : State) (X : Ctx) (G : Group) (P : Plan) : State × Bool :=
  match G.deadReads X P with
  | [] => (s, true)
  | n :: ns =>
    if fld G.deadread 1 1 == 0 then (s, true)
    else if G.ra.isSome then (s.endAhead X.core X.slot, false)
    else if G.inHandler then (s, true)
    else ((s.noteDead X G P).raise X 5 0 (ns.foldl Nat.min n), false)


/-- Reads, releases and allocations at issue (rules R19 to R21, R29): false when an allocation waits. -/
def State.take (s : State) (X : Ctx) (P : Plan) : State × Bool :=
  match s.group X.core X.slot with
  | none => (s, false)
  | some G =>
    let named := (P.rv ++ P.wv).eraseDups
    let release := G.releases P
    if s.tight X G P then
      if G.ra.isSome then (s.endAhead X.core X.slot, false) else ((s.makeRoom X.core X.slot (G.need P) named release).stall X 11, false)
    else
      let again := ((P.wv.eraseDups).filter (fun n => (G.vreg n).st == .mapped && !(G.vreg n).pin)).length
      let s := if G.ra.isSome then s.updGroup X.core X.slot (fun G => { G with ra := G.ra.map (fun r => { r with extra := r.extra + again }) }) else s
      let s := if G.ra.isSome then s else (P.rv.eraseDups).foldl (fun s n => s.readDelivered X.core X.slot n) s
      let s := s.updGroup X.core X.slot (fun G => release.foldl (fun G n => G.setV n {}) G)
      let s := if G.ra.isSome then s else (P.wv.eraseDups).foldl (fun s n => s.disarm X.core X.slot n) s
      let s := s.updGroup X.core X.slot (fun G => (P.wv.eraseDups).foldl (fun G n =>
        let r := G.vreg n
        match r.st with
        | .mapped => G.setV n (if G.ra.isSome then { r with pin := false } else r)
        | .delivered => G.setV n { r with st := .mapped, scope := 0, pin := false }
        | .empty | .spilled | .pending => G.setV n { st := .mapped, val := [] }) G)
      (s, true)

/-- The issue slot after an issue (rules R158, R160), and the issue counts of rule R454. -/
def State.slotIssued (s : State) (X : Ctx) (G : Group) (y : BitVec 1) : State :=
  let s := s.updCore X.core (fun k =>
    let i := k.islots.get {} (X.slot % 4)
    let i := { i with cur := some (X.slot, X.split), yielded := y == 1, since := s.cycle, busy := s.cycle + (if G.w == 64 then 2 else 1) }
    { k with islots := k.islots.set (X.slot % 4) i })
  let s := s.count G.part 1 1
  if G.w == 64 then s.count G.part 2 1 else s

/-- Posts an issued instruction and moves its split on (rules R19, R158, R161, R166); in run-ahead its destinations are tagged (rule
R412): all of them where a source is unknown, else the lanes `unk` of its vector destinations. -/
def State.post (s : State) (X : Ctx) (P : Plan) (y : BitVec 1) (next : Option W64) (inf : Inflight) (unk : Mask) : State :=
  match s.group X.core X.slot with
  | none => s
  | some G =>
    let ra := G.ra.map (fun r =>
      let r := if G.unknown P then r.mark P else r.clear inf.writes
      let r := if unk != 0 then { r with unkV := P.wv.foldl (fun t n => t.set n (t.get 0 n ||| unk)) r.unkV } else r
      { r with count := r.count + 1 })
    let G := { G with ra := ra, infl := G.infl ++ [{ inf with id := G.nextIid, split := X.split, reads := P.rv, ahead := G.ra.isSome }],
                      nextIid := G.nextIid + 1 }
    let G := G.updSplit X.split (fun p => { p with
      pc := next.getD (p.pc + 8), since := s.cycle, aged := false, word := none, stall := 0, waited := false, wait := .ready, refused := none })
    let s := s.setGroup X.core X.slot G
    s.slotIssued X G y

/-- The common course of an instruction whose checks have passed: registers ready, DEADREAD, reads, releases and allocation,
its own effect at issue, and its entry among the instructions in flight. -/
def State.issueWith (s : State) (X : Ctx) (G : Group) (P : Plan) (y : BitVec 1) (inf : Inflight) (eff : State → State) : State :=
  match s.ready X G P with
  | (s, false) => s
  | (s, true) =>
    match s.dead X G P with
    | (s, false) => s
    | (s, true) =>
      match s.take X P with
      | (s, false) => s
      | (s, true) => (eff (s.noteDead X G P)).post X P y none inf 0

/-- A page that a memory instruction or a stash fill of plan `P` found without a translation (rules R29, R411, R412): the
group is checkpointed and runs ahead with the destinations unknown, where that rule allows it; else a batch of one. -/
def State.pageMiss (s : State) (X : Ctx) (P : Plan) (kind va lane : Nat) : State :=
  match s.group X.core X.slot with
  | none => s
  | some G =>
    match G.split X.split with
    | none => s
    | some p =>
      if G.ra.isSome || G.inHandler || fld (s.part G.part).pfring 63 1 == 0 || G.splits.length != 1 || G.preempt.isSome then
        s.pageFault X kind va lane
      else
        let pin (r : VReg) : VReg := if r.st == .mapped || r.st == .delivered then { r with pin := true } else r
        let regs := { G.regs with v := G.regs.v.mapV pin }
        let r : RunAhead := { regs := regs, split := p, pages := [⟨kind, va % 2 ^ 57, lane⟩] }
        let s := s.setGroup X.core X.slot { G with regs := regs, ra := some r, reloads := [] }
        match s.take X P with
        | (s, false) => s
        | (s, true) =>
          (s.post X P P.y none { id := 0, split := 0, pc := 0 } (fullMask 64)).updGroup X.core X.slot (fun G =>
            { G with ra := G.ra.map (fun r => { r.mark P with count := 0 }) })

/-- Adds a page that run-ahead met to its batch, once per 64 KiB range, and 32 at most (rules R410, R412). -/
def State.addPage (s : State) (X : Ctx) (kind va : Nat) : State :=
  s.updGroup X.core X.slot (fun G => { G with ra := G.ra.map (fun r =>
    if r.pages.any (fun g => g.va / 65536 == va / 65536) || decide (32 ≤ r.pages.length) then r
    else { r with pages := r.pages ++ [⟨kind, va % 2 ^ 57, 0⟩] }) })

/-- The common course of an instruction that only computes: the writes are posted. -/
def State.compute (s : State) (X : Ctx) (G : Group) (P : Plan) (y : BitVec 1) (writes : List RegW) : State :=
  s.issueWith X G P y { id := 0, split := 0, pc := 0, writes := writes } id

/-! ### Completion -/

/-- Applies one register write to a set of registers (rules R19, R20): the active lanes of a vector register; any other
register whole. -/
def Regs.apply (r : Regs) (w stamp : Nat) (x : RegW) : Regs :=
  match x.sp with
  | .vec =>
    let v := r.v.get {} x.num
    if v.st == .mapped then { r with v := r.v.set x.num { v with val := mergeLanes w x.mask v.val x.vals, stamp := stamp } } else r
  | .uni => { r with k := r.k.set x.num x.word }
  | .pred => { r with p := r.p.set x.num ((r.p.get 0 x.num &&& ~~~x.mask) ||| (x.word &&& x.mask)) }
  | .hb => { r with h := r.h.set x.num (mergeLanes w x.mask (r.h.get [] x.num) x.vals) }
  | .idx => { r with x := r.x.set x.num (BitVec.ofNat 32 x.word.toNat) }
  | .trans => { r with t := r.t.set x.num x.trans }

/-- An instruction of a split has completed in this cycle (rule R257). -/
def Group.noteDone (G : Group) (split cycle : Nat) : Group := G.updSplit split (fun p => { p with doneAt := cycle })
def State.noteDone (s : State) (c gid split : Nat) : State :=
  s.updCore c (fun k => { k with slots := k.slots.mapV (fun G => if G.gid == gid then G.noteDone split s.cycle else G) })

/-- A store completes when its last write has left the core (rule R166). -/
def State.storeLeft (s : State) (c gid iid : Nat) : State :=
  s.updCore c (fun k =>
    if k.homeq.any (fun h => h.gid == gid && h.iid == iid && h.xid.isNone) then k
    else { k with slots := k.slots.mapV (fun G =>
      if G.gid == gid then { G with infl := G.infl.filter (fun i => !(i.kind == .store && i.id == iid)) } else G) })

/-- Writes the results of an instruction in flight and takes it off the scoreboard (rules R19, R163). Instructions issued
before a run-ahead write its checkpoint too. -/
def State.complete (s : State) (c g iid : Nat) (writes : List RegW) : State :=
  match s.group c g with
  | none => s
  | some G =>
    match G.infl.find? (fun i => i.id == iid) with
    | none => s
    | some i =>
      let st := (s.core c).stamp + 1
      let ap (r : Regs) : Regs := writes.foldl (fun r x => r.apply G.w st x) r
      let ra := if i.ahead then G.ra else G.ra.map (fun a => { a with regs := ap a.regs })
      let s := s.setGroup c g (({ G with regs := ap G.regs, ra := ra, infl := G.infl.filter (fun j => j.id != iid) }).noteDone i.split s.cycle)
      s.updCore c (fun k => { k with stamp := st })

end Sys2Proof.Machine
end

