-- ==== Sys2Proof/Machine/Operands.lean ====
section
/-! DEFINITION. Operands and results of formats R, I, K and S (rules R14, R42, R68 to R70, R116): reading a field in a lane,
the registers a field names, and the writes of a result. -/

namespace Sys2Proof.Machine

/-- The registers of a 32-bit operand or a pair. -/
def regsOf (n : Nat) (wide : Bool) : List Nat := if wide then [n, n + 1] else [n]

/-- opnd(F, L) as a bit pattern of 32 or 64 bits (rules R47, R68); a predicate reads as 1 or 0. -/
def Group.opnd (G : Group) (sp : BitVec 2) (n : Nat) (wide : Bool) (l : Nat) : Nat :=
  match sp.toNat with
  | 0 => (G.vlane n l).toNat + (if wide then (G.vlane (n + 1) l).toNat * 2 ^ 32 else 0)
  | 1 => if wide then (G.uni n).toNat else (G.uni n).toNat % 2 ^ 32
  | 2 => if inMask (G.pred n) l then 1 else 0
  | _ => (G.hlane n l).toNat + (if wide then (G.hlane (n + 1) l).toNat * 2 ^ 32 else 0)

/-- A plan with a source field added (rules R19, R44). -/
def Plan.src (P : Plan) (sp : BitVec 2) (n : Nat) (wide : Bool) (last : BitVec 1) : Plan :=
  match sp.toNat with
  | 0 => { P with rv := P.rv ++ regsOf n wide, lu := if last == 1 then P.lu ++ regsOf n wide else P.lu }
  | 1 => { P with rk := P.rk ++ [n] }
  | 2 => { P with rp := P.rp ++ [n] }
  | _ => { P with rh := P.rh ++ regsOf n wide }

/-- A plan with a destination field added. -/
def Plan.dst (P : Plan) (sp : BitVec 2) (n : Nat) (wide : Bool) : Plan :=
  match sp.toNat with
  | 0 => { P with wv := P.wv ++ regsOf n wide }
  | 1 => { P with wk := P.wk ++ [n] }
  | 2 => { P with wp := P.wp ++ [n] }
  | _ => { P with wh := P.wh ++ regsOf n wide }

/-- A plan with a guard added (rule R42). -/
def Plan.guard (P : Plan) (ge gn : BitVec 1) (g : BitVec 7) : Plan := { P with rp := P.rp ++ guardReads ge g, grd := guardReads ge g, neg := gn == 1 }

/-- A 32-bit result in a 64-bit uniform register (rule R70). -/
def uniWord (x : Nat) (wide sx : Bool) : W64 :=
  if wide then w64 x else if sx then w64 (wrapInt (sextNat x 32) 64) else w64 (x % 2 ^ 32)

/-- put(D, L, x) over the active lanes (rule R70). -/
def putAll (w : Nat) (m : Mask) (sp : BitVec 2) (n : Nat) (wide sx : Bool) (f : Nat → Nat) : List RegW :=
  let lo : Lanes := lanesOf w (fun l => if inMask m l then w32 (f l) else 0)
  let hi : Lanes := lanesOf w (fun l => if inMask m l then w32 (f l / 2 ^ 32) else 0)
  match sp.toNat with
  | 0 => { sp := .vec, num := n, mask := m, vals := lo } :: (if wide then [{ sp := .vec, num := n + 1, mask := m, vals := hi }] else [])
  | 1 => match lanesIn m w with
    | [] => []
    | l :: _ => [{ sp := .uni, num := n, word := uniWord (f l) wide sx }]
  | 2 => [{ sp := .pred, num := n, mask := m, word := maskOf w (fun l => inMask m l && f l != 0) }]
  | _ => { sp := .hb, num := n, mask := m, vals := lo } :: (if wide then [{ sp := .hb, num := n + 1, mask := m, vals := hi }] else [])

/-- Which operands of a format R word are 64 bits wide, and which sources it has. -/
structure Shape where
  wd : Bool := false
  wa : Bool := false
  wb : Bool := false
  wc : Bool := false
  useB : Bool := true
  useC : Bool := false

/-- The plan of a format R word. -/
def planR (f : FmtR) (h : Shape) : Plan :=
  let P : Plan := ({} : Plan).guard f.ge f.gn f.g
  let P := P.src f.sa f.a.toNat h.wa f.la
  let P := if h.useB then P.src f.sb f.b.toNat h.wb f.lb else P
  let P := if h.useC then P.src f.sc f.c.toNat h.wc f.lc else P
  P.dst f.sd f.d.toNat h.wd

/-- A format R instruction that computes one result per active lane from its operands' patterns (rules R70, R116). -/
def State.aluR (s : State) (i : Instr) (f : FmtR) (h : Shape) (sx : Bool) (op : Nat → Nat → Nat → Nat) : State :=
  s.begin i false (fun s X G p =>
    let m := activeLanes G p f.ge f.gn f.g
    let val (l : Nat) : Nat :=
      op (G.opnd f.sa f.a.toNat h.wa l) (if h.useB then G.opnd f.sb f.b.toNat h.wb l else 0) (if h.useC then G.opnd f.sc f.c.toNat h.wc l else 0)
    s.compute X G (planR f h) f.y (putAll G.w m f.sd f.d.toNat h.wd sx val))

/-- The space code of a format I field. -/
def spI (b : BitVec 1) : BitVec 2 := if b == 1 then spUni else spVec

/-- Whether a TYI code is 64 bits wide, and whether it is signed (rule R50). -/
def tyiWide (t : BitVec 3) : Bool := t == 3 || t == 4 || t == 5
def tyiSigned (t : BitVec 3) : Bool := t == 1 || t == 4

/-- The immediate of a format I word, sign-extended to 64 bits and taken to `n` bits (rules R50, R68). -/
def immI (f : FmtI) (n : Nat) : Nat := wrapInt f.imm.toInt n

/-- A format I instruction (rule R91): the register form's operation with the immediate as b; `pred` for CMP. -/
def State.aluI (s : State) (i : Instr) (f : FmtI) (pred : Bool) (bits : Nat) (op : Nat → Nat → Nat) : State :=
  s.begin i false (fun s X G p =>
    let wide := tyiWide f.tyi
    let m := activeLanes G p f.ge f.gn f.g
    let dsp := if pred then spPred else spI f.sd
    let P := ((({} : Plan).guard f.ge f.gn f.g).src (spI f.sa) f.a.toNat wide f.la).dst dsp f.d.toNat (wide && !pred)
    let val (l : Nat) : Nat := op (G.opnd (spI f.sa) f.a.toNat wide l) (immI f bits)
    s.compute X G P f.y (putAll G.w m dsp f.d.toNat (wide && !pred) (tyiSigned f.tyi) val))

end Sys2Proof.Machine
end

