-- ==== Sys2Proof/Machine/Integer.lean ====
section
/-! DEFINITION. Rows 0x1_, 0x2_, 0x3_ and 0xD_: integer, address and predicate instructions (chapter 3). -/

namespace Sys2Proof.Machine

abbrev Res := Host.Outcome State Fault Refusal

/-- The shape of a format R word whose operands all have the width of an integer type. -/
def shInt (ty : BitVec 4) (useB useC : Bool) : Shape :=
  let w := tyIs64 ty
  { wd := w, wa := w, wb := w, wc := w, useB := useB, useC := useC }

/-- Whether a 32-bit result in a uniform register is sign-extended: `.s32` only (rule R70). -/
def sxTy (ty : BitVec 4) : Bool := ty == 6

/-- ADD, SUB, MIN, MAX, ABS and NEG of a packed or plain type (rules R73, R75). -/
def elemOp (ty : BitVec 4) (sat : Bool) (op : Int → Int → Int) (a b : Nat) : Nat :=
  perElem (tyWidth ty) (tyElem ty) (intElem (tyIsSigned ty) sat (tyElem ty) op) a b

def sat0 (f : FmtR) : Bool := f.opx.getLsbD 0

/-- ADD (rule R75). -/
def execAdd (f : FmtR) (s : State) : Res := .next (s.aluR (.add f) f (shInt f.ty true false) (sxTy f.ty) (fun a b _ => elemOp f.ty (sat0 f) opAdd a b))
/-- SUB (rule R75). -/
def execSub (f : FmtR) (s : State) : Res := .next (s.aluR (.sub f) f (shInt f.ty true false) (sxTy f.ty) (fun a b _ => elemOp f.ty (sat0 f) opSub a b))
/-- The shape of MUL and MAD (rule R76): `.wide` has 32-bit A and B, and 64-bit D and C. -/
def shMul (f : FmtR) (useC : Bool) : Shape :=
  let w := tyIs64 f.ty
  { wd := w || f.opx == 1, wa := w, wb := w, wc := w || f.opx == 1, useC := useC }
def mulOut (f : FmtR) : Nat := if f.opx == 1 then 64 else tyWidth f.ty
/-- MUL (rule R76). -/
def execMul (f : FmtR) (s : State) : Res := .next (s.aluR (.mul f) f (shMul f false) (sxTy f.ty) (fun a b _ => mulLow (tyIsSigned f.ty) (tyWidth f.ty) (mulOut f) a b))
/-- MULHI (rule R76). -/
def execMulhi (f : FmtR) (s : State) : Res := .next (s.aluR (.mulhi f) f (shInt f.ty true false) (sxTy f.ty) (fun a b _ => mulHigh (tyIsSigned f.ty) (tyWidth f.ty) a b))
/-- MAD (rule R76). -/
def execMad (f : FmtR) (s : State) : Res := .next (s.aluR (.mad f) f (shMul f true) (sxTy f.ty) (fun a b c => mulAdd (tyIsSigned f.ty) (tyWidth f.ty) (mulOut f) a b c))
/-- DIV (rule R77). -/
def execDiv (f : FmtR) (s : State) : Res := .next (s.aluR (.div f) f (shInt f.ty true false) (sxTy f.ty) (fun a b _ => divQ (tyIsSigned f.ty) (tyWidth f.ty) a b))
/-- REM (rule R77). -/
def execRem (f : FmtR) (s : State) : Res := .next (s.aluR (.rem f) f (shInt f.ty true false) (sxTy f.ty) (fun a b _ => divR (tyIsSigned f.ty) (tyWidth f.ty) a b))
/-- MIN (rule R75). -/
def execMin (f : FmtR) (s : State) : Res := .next (s.aluR (.min f) f (shInt f.ty true false) (sxTy f.ty) (fun a b _ => elemOp f.ty false opMin a b))
/-- MAX (rule R75). -/
def execMax (f : FmtR) (s : State) : Res := .next (s.aluR (.max f) f (shInt f.ty true false) (sxTy f.ty) (fun a b _ => elemOp f.ty false opMax a b))
/-- ABS (rule R75). -/
def execAbs (f : FmtR) (s : State) : Res := .next (s.aluR (.abs f) f (shInt f.ty false false) (sxTy f.ty) (fun a b _ => elemOp f.ty (sat0 f) opAbs a b))
/-- NEG (rule R75). -/
def execNeg (f : FmtR) (s : State) : Res := .next (s.aluR (.neg f) f (shInt f.ty false false) (sxTy f.ty) (fun a b _ => elemOp f.ty (sat0 f) opNeg a b))

/-- a + (b << s), with a 32-bit b extended to n bits (rule R78). -/
def leaOp (ty : BitVec 4) (sh a b : Nat) : Nat :=
  let n := tyWidth ty
  wrapInt ((a : Int) + (if ty == 7 then sextNat b 32 else ((b % 2 ^ 32 : Nat) : Int)) * ((2 ^ sh : Nat) : Int)) n
/-- The shape of LEA and of the shifts: B is a 32-bit operand (rules R78, R80). -/
def shShift (ty : BitVec 4) (useC : Bool) : Shape := { wd := tyIs64 ty, wa := tyIs64 ty, useC := useC }
/-- LEA (rule R78). -/
def execLea (f : FmtR) (s : State) : Res := .next (s.aluR (.lea f) f (shShift f.ty false) (sxTy f.ty) (fun a b _ => leaOp f.ty f.opx.toNat a b))

/-- b, or its complement with `.nb` (rule R79). -/
def nbOf (nb : Bool) (n b : Nat) : Nat := if nb then 2 ^ n - 1 - b % 2 ^ n else b
/-- AND (rule R79). -/
def execAnd (f : FmtR) (s : State) : Res := .next (s.aluR (.and f) f (shInt f.ty true false) false (fun a b _ => a &&& nbOf (sat0 f) (tyWidth f.ty) b))
/-- OR (rule R79). -/
def execOr (f : FmtR) (s : State) : Res := .next (s.aluR (.or f) f (shInt f.ty true false) false (fun a b _ => a ||| nbOf (sat0 f) (tyWidth f.ty) b))
/-- XOR (rule R79). -/
def execXor (f : FmtR) (s : State) : Res := .next (s.aluR (.xor f) f (shInt f.ty true false) false (fun a b _ => a ^^^ nbOf (sat0 f) (tyWidth f.ty) b))
/-- NOT (rule R79). -/
def execNot (f : FmtR) (s : State) : Res := .next (s.aluR (.not f) f (shInt f.ty false false) false (fun a _ _ => nbOf true (tyWidth f.ty) a))
/-- SHL (rule R80). -/
def execShl (f : FmtR) (s : State) : Res := .next (s.aluR (.shl f) f (shShift f.ty false) false (fun a b _ => shlOp (tyWidth f.ty) a b))
/-- SHR (rule R80). -/
def execShr (f : FmtR) (s : State) : Res := .next (s.aluR (.shr f) f (shShift f.ty false) false (fun a b _ => shrOp (tyWidth f.ty) a b))
/-- SAR (rule R80). -/
def execSar (f : FmtR) (s : State) : Res := .next (s.aluR (.sar f) f (shShift f.ty false) false (fun a b _ => sarOp (tyWidth f.ty) a b))
/-- ROT (rule R80). -/
def execRot (f : FmtR) (s : State) : Res := .next (s.aluR (.rot f) f (shShift f.ty false) false (fun a b _ => rotOp (tyWidth f.ty) a b))
/-- BFE (rule R81). -/
def execBfe (f : FmtR) (s : State) : Res := .next (s.aluR (.bfe f) f (shShift f.ty true) (sxTy f.ty) (fun a b c => bfeOp (tyIsSigned f.ty) (tyWidth f.ty) a (b % 256) (c % 256)))
/-- BFI (rule R82). -/
def execBfi (f : FmtR) (s : State) : Res := .next (s.aluR (.bfi f) f { shInt f.ty true true with wc := false } false (fun a b c => bfiOp (tyWidth f.ty) a b (c % 256) (c / 256 % 256)))
/-- BREV (rule R83). -/
def execBrev (f : FmtR) (s : State) : Res := .next (s.aluR (.brev f) f (shInt f.ty false false) false (fun a _ _ => brevOp (tyWidth f.ty) a))
/-- POPC (rule R83). -/
def execPopc (f : FmtR) (s : State) : Res := .next (s.aluR (.popc f) f { shInt f.ty false false with wd := false } false (fun a _ _ => popcOp (tyWidth f.ty) a))
/-- CLZ (rule R83). -/
def execClz (f : FmtR) (s : State) : Res := .next (s.aluR (.clz f) f { shInt f.ty false false with wd := false } false (fun a _ _ => clzOp (tyWidth f.ty) a))
/-- CTZ (rule R83). -/
def execCtz (f : FmtR) (s : State) : Res := .next (s.aluR (.ctz f) f { shInt f.ty false false with wd := false } false (fun a _ _ => ctzOp (tyWidth f.ty) a))
/-- TCNT (rule R84). Its unsigned count is zero-extended in a uniform register, as rule R70 gives for a result whose type
is not read as signed. -/
def execTcnt (f : FmtR) (s : State) : Res := .next (s.aluR (.tcnt f) f { shInt f.ty false false with wd := false } false (fun a _ _ => tcntOp (tyIsSigned f.ty) (sat0 f) (tyWidth f.ty) (tyElem f.ty) a))

/-- CMP (rule R85). -/
def execCmp (f : FmtR) (s : State) : Res := .next (s.aluR (.cmp f) f { shInt f.ty true false with wd := false } false (fun a b _ => boolNat (cmpCond f.opx.toNat (tyIsSigned f.ty) (tyWidth f.ty) a b)))

/-- A predicate source, complemented when its bit of OPX is set (rule R86). -/
def invBy (f : FmtR) (n x : Nat) : Bool := (x != 0) != f.opx.getLsbD n
/-- PAND (rule R86). -/
def execPand (f : FmtR) (s : State) : Res := .next (s.aluR (.pand f) f {} false (fun a b _ => boolNat (invBy f 0 a && invBy f 1 b)))
/-- POR (rule R86). -/
def execPor (f : FmtR) (s : State) : Res := .next (s.aluR (.por f) f {} false (fun a b _ => boolNat (invBy f 0 a || invBy f 1 b)))
/-- PXOR (rule R86). -/
def execPxor (f : FmtR) (s : State) : Res := .next (s.aluR (.pxor f) f {} false (fun a b _ => boolNat (invBy f 0 a != invBy f 1 b)))
/-- PNOT (rule R86). -/
def execPnot (f : FmtR) (s : State) : Res := .next (s.aluR (.pnot f) f { useB := false } false (fun a _ _ => boolNat (a == 0)))
/-- SEL (rule R87). -/
def execSel (f : FmtR) (s : State) : Res := .next (s.aluR (.sel f) f { shInt f.ty true true with wc := false } false (fun a b c => if c != 0 then a else b))

/-- MOV (rule R88): form 01 writes an index register, form 10 reads one, form 00 copies between spaces. -/
def movBody (f : FmtR) (s : State) : State :=
  s.begin (.mov f) false (fun s X G p =>
    let m := activeLanes G p f.ge f.gn f.g
    let P : Plan := ({} : Plan).guard f.ge f.gn f.g
    if f.opx == 1 then
      let w : List RegW := if m == 0 then [] else [{ sp := .idx, num := f.d.toNat, word := w64 ((G.uni f.a.toNat).toNat % 2 ^ 32) }]
      s.compute X G { P with rk := [f.a.toNat], wx := [f.d.toNat] } f.y w
    else if f.opx == 2 then
      let P := { P with rx := [f.a.toNat] }.dst f.sd f.d.toNat false
      s.compute X G P f.y (putAll G.w m f.sd f.d.toNat false true (fun _ => (G.idxReg f.a.toNat).toNat))
    else
      let w := f.ty == 3
      let P := (P.src f.sa f.a.toNat w f.la).dst f.sd f.d.toNat w
      s.compute X G P f.y (putAll G.w m f.sd f.d.toNat w false (fun l => G.opnd f.sa f.a.toNat w l)))
def execMov (f : FmtR) (s : State) : Res := .next (movBody f s)

/-- MOVI (rules R51, R89). DESIGN CHOICE: the low half that `movi.hi` keeps does not make kD a source for R412, so an unknown kD is known
after it in run-ahead (log entry 142). -/
def moviBody (f : FmtK) (s : State) : State :=
  s.begin (.movi f) false (fun s X G p =>
    let m := activeLanes G p f.ge f.gn f.g
    let P := (({} : Plan).guard f.ge f.gn f.g).dst f.sd f.d.toNat false
    let old := (G.uni f.d.toNat).toNat
    let w : List RegW :=
      if f.sd == spUni then
        if m == 0 then []
        else [{ sp := .uni, num := f.d.toNat, word := if f.part == 2 then w64 (f.imm32.toNat * 2 ^ 32 + old % 2 ^ 32)
                                                       else uniWord f.imm32.toNat false (f.part == 0) }]
      else putAll G.w m f.sd f.d.toNat false false (fun _ => f.imm32.toNat)
    s.compute X G P f.y w)
def execMovi (f : FmtK) (s : State) : Res := .next (moviBody f s)

/-- The register arrays of a group's kernel (rules R30, R365): first register and length. -/
def State.arrays (s : State) (G : Group) : List (Nat × Nat) :=
  match s.launches.find G.lid with
  | none => []
  | some L => ((List.range 8).map (fun i =>
      let e := fld (L.record.getD (8 + i / 4) 0) (16 * (i % 4)) 16
      (e % 128, e / 256))).filter (fun a => a.2 != 0)

/-- The register e = N + x[i] of MOVX and MOVXW, where the access is permitted (rules R31, R90). -/
def State.arrayReg (s : State) (G : Group) (n i : Nat) (wide : Bool) : Option Nat :=
  let e := (n : Int) + (G.idxReg i).toInt
  match (s.arrays G).find? (fun a => decide (a.1 ≤ n) && decide (n < a.1 + a.2)) with
  | none => none
  | some (b, len) =>
    if (b : Int) ≤ e ∧ e < b + len ∧ (wide = false ∨ (e % 2 = 0 ∧ e + 1 < b + len)) then some e.toNat else none

/-- REGINDEX's INFO (rule R400). -/
def regIndexInfo (G : Group) (n i : Nat) : Nat := at_ n 32 + (G.idxReg i).toNat

/-- MOVX and MOVXW (rule R90): `plan e` names register e among the others, `plan none` only the others. The check is made at issue, once
the registers let the instruction issue; the index register must be settled for register e to be known. DESIGN CHOICE: a run-ahead whose
index register is unknown ends there, since it cannot say which register the instruction names (log entry 111); and REGINDEX waits for the
registers to be readable, a SPILLED D among them, but not for the granules of an EMPTY D (log entry 143). -/
def State.indexed (s : State) (i : Instr) (f : FmtR) (n : Nat) (plan : Option Nat → Plan) (val : Group → Mask → Nat → List RegW) : State :=
  s.begin i false (fun s X G p =>
    let ix := (f.opx.extractLsb' 0 2).toNat
    let unk := match G.ra with | some r => r.unkX.contains ix | none => false
    if unk then s.endAhead X.core X.slot
    else match (if G.busy .idx ix then none else s.arrayReg G n ix (f.ty == 3)) with
      | some e => s.compute X G { plan (some e) with rx := [ix] } f.y (val G (activeLanes G p f.ge f.gn f.g) e)
      | none => match s.ready X G { plan none with rx := [ix] } with
        | (s, false) => s
        | (s, true) => s.raise X 4 0 (regIndexInfo G n ix))

/-- A plan with register `e` of an array as a destination, where it is known. -/
def Plan.dstOf (P : Plan) (e : Option Nat) (w : Bool) : Plan := match e with | some e => P.dst spVec e w | none => P
/-- A plan with register `e` of an array as a source, where it is known. -/
def Plan.srcOf (P : Plan) (e : Option Nat) (w : Bool) (last : BitVec 1) : Plan := match e with | some e => P.src spVec e w last | none => P

/-- MOVX (rule R90). -/
def execMovx (f : FmtR) (s : State) : Res := .next (s.indexed (.movx f) f f.a.toNat
  (fun e => ((({} : Plan).guard f.ge f.gn f.g).srcOf e (f.ty == 3) f.la).dst spVec f.d.toNat (f.ty == 3))
  (fun G m e => putAll G.w m spVec f.d.toNat (f.ty == 3) false (fun l => G.opnd spVec e (f.ty == 3) l)))
/-- MOVXW (rule R90). -/
def execMovxw (f : FmtR) (s : State) : Res := .next (s.indexed (.movxw f) f f.d.toNat
  (fun e => ((({} : Plan).guard f.ge f.gn f.g).src f.sa f.a.toNat (f.ty == 3) f.la).dstOf e (f.ty == 3))
  (fun G m e => putAll G.w m spVec e (f.ty == 3) false (fun l => G.opnd f.sa f.a.toNat (f.ty == 3) l)))

/-! ### Row 0xD_ (rule R91) -/

def nI (f : FmtI) : Nat := if tyiWide f.tyi then 64 else 32
def satI (f : FmtI) : Bool := f.opx.getLsbD 0
def elemI (f : FmtI) (sat : Bool) (op : Int → Int → Int) (a b : Nat) : Nat := intElem (tyiSigned f.tyi) sat (nI f) op a b

/-- ADD, format I (rule R91). -/
def execAddI (f : FmtI) (s : State) : Res := .next (s.aluI (.addI f) f false (nI f) (elemI f (satI f) opAdd))
/-- SUB, format I: a − imm. -/
def execSubI (f : FmtI) (s : State) : Res := .next (s.aluI (.subI f) f false (nI f) (elemI f (satI f) opSub))
/-- MUL, format I. -/
def execMulI (f : FmtI) (s : State) : Res := .next (s.aluI (.mulI f) f false (nI f) (mulLow (tyiSigned f.tyi) (nI f) (nI f)))
/-- AND, format I. -/
def execAndI (f : FmtI) (s : State) : Res := .next (s.aluI (.andI f) f false (nI f) (fun a b => a &&& nbOf (satI f) (nI f) b))
/-- OR, format I. -/
def execOrI (f : FmtI) (s : State) : Res := .next (s.aluI (.orI f) f false (nI f) (fun a b => a ||| nbOf (satI f) (nI f) b))
/-- XOR, format I. -/
def execXorI (f : FmtI) (s : State) : Res := .next (s.aluI (.xorI f) f false (nI f) (fun a b => a ^^^ nbOf (satI f) (nI f) b))
/-- SHL, format I: the amount is bits [31:0] of the immediate, unsigned. -/
def execShlI (f : FmtI) (s : State) : Res := .next (s.aluI (.shlI f) f false 32 (fun a b => shlOp (nI f) a b))
/-- SHR, format I. -/
def execShrI (f : FmtI) (s : State) : Res := .next (s.aluI (.shrI f) f false 32 (fun a b => shrOp (nI f) a b))
/-- SAR, format I. -/
def execSarI (f : FmtI) (s : State) : Res := .next (s.aluI (.sarI f) f false 32 (fun a b => sarOp (nI f) a b))
/-- ROT, format I. -/
def execRotI (f : FmtI) (s : State) : Res := .next (s.aluI (.rotI f) f false 32 (fun a b => rotOp (nI f) a b))
/-- CMP, format I. -/
def execCmpI (f : FmtI) (s : State) : Res := .next (s.aluI (.cmpI f) f true (nI f) (fun a b => boolNat (cmpCond f.opx.toNat (tyiSigned f.tyi) (nI f) a b)))
/-- MIN, format I. -/
def execMinI (f : FmtI) (s : State) : Res := .next (s.aluI (.minI f) f false (nI f) (elemI f false opMin))
/-- MAX, format I. -/
def execMaxI (f : FmtI) (s : State) : Res := .next (s.aluI (.maxI f) f false (nI f) (elemI f false opMax))
/-- BFE, format I: pos = IMM[7:0], len = IMM[15:8]. -/
def execBfeI (f : FmtI) (s : State) : Res := .next (s.aluI (.bfeI f) f false 32 (fun a b => bfeOp (tyiSigned f.tyi) (nI f) a (b % 256) (b / 256 % 256)))

end Sys2Proof.Machine
end

