-- ==== Sys2Proof/Machine/Float.lean ====
section
/-! DEFINITION. Row 0x4_: float instructions (rules R116 to R125). -/

namespace Sys2Proof.Machine

/-- `.fz` of OPX[2] and the mode of OPX[1:0] (rule R49). -/
def fzOf (f : FmtR) : Bool := f.opx.getLsbD 2
def modeOf (f : FmtR) : RMode := rmode f.opx.toNat

/-- The shape of a float word whose operands have one type. -/
def shFlt (ty : BitVec 4) (useB useC : Bool) : Shape :=
  let w := ty == 3
  { wd := w, wa := w, wb := w, wc := w, useB := useB, useC := useC }

/-- fop(F, L): the value of an operand's pattern (rule R116). -/
def fop (ty : BitVec 4) (fz : Bool) (x : Nat) : FVal :=
  let t := fltFmt ty.toNat
  flushIn t fz (t.decode (x % 2 ^ t.width))

/-- The pattern fput writes (rule R116). -/
def fput (ty : BitVec 4) (mode : RMode) (fz sat : Bool) (x : FVal) : Nat := (fltFmt ty.toNat).round mode fz sat x

/-- A float operation of up to three operands, rounded once. -/
def fltOp (f : FmtR) (op : FVal → FVal → FVal → FVal) (a b c : Nat) : Nat :=
  fput f.ty (modeOf f) (fzOf f) false (op (fop f.ty (fzOf f) a) (fop f.ty (fzOf f) b) (fop f.ty (fzOf f) c))

/-- FADD (rule R118). -/
def execFadd (f : FmtR) (s : State) : Res := .next (s.aluR (.fadd f) f (shFlt f.ty true false) false (fltOp f (fun a b _ => fAdd (modeOf f) a b)))
/-- FSUB (rule R118). -/
def execFsub (f : FmtR) (s : State) : Res := .next (s.aluR (.fsub f) f (shFlt f.ty true false) false (fltOp f (fun a b _ => fSub (modeOf f) a b)))
/-- FMUL (rule R118). -/
def execFmul (f : FmtR) (s : State) : Res := .next (s.aluR (.fmul f) f (shFlt f.ty true false) false (fltOp f (fun a b _ => fMul a b)))
/-- FMA (rule R118). -/
def execFma (f : FmtR) (s : State) : Res := .next (s.aluR (.fma f) f (shFlt f.ty true true) false (fltOp f (fun a b c => fFma (modeOf f) a b c)))
/-- FMIN (rule R119). -/
def execFmin (f : FmtR) (s : State) : Res := .next (s.aluR (.fmin f) f (shFlt f.ty true false) false (fltOp f (fun a b _ => fMinMax false a b)))
/-- FMAX (rule R119). -/
def execFmax (f : FmtR) (s : State) : Res := .next (s.aluR (.fmax f) f (shFlt f.ty true false) false (fltOp f (fun a b _ => fMinMax true a b)))
/-- FCLASS (rule R120). -/
def execFclass (f : FmtR) (s : State) : Res := .next (s.aluR (.fclass f) f { shFlt f.ty false false with wd := false } false
  (fun a _ _ => fClass (fltFmt f.ty.toNat) (a % 2 ^ (fltFmt f.ty.toNat).width)))
/-- FRCP (rule R121). -/
def execFrcp (f : FmtR) (s : State) : Res := .next (s.aluR (.frcp f) f (shFlt f.ty false false) false (fltOp f (fun a _ _ => fRcp a)))
/-- FRSQ (rule R121). -/
def execFrsq (f : FmtR) (s : State) : Res := .next (s.aluR (.frsq f) f (shFlt f.ty false false) false (fltOp f (fun a _ _ => fRsq a)))
/-- FSQRT (rule R121). -/
def execFsqrt (f : FmtR) (s : State) : Res := .next (s.aluR (.fsqrt f) f (shFlt f.ty false false) false (fltOp f (fun a _ _ => fSqrt a)))

/-- FEXP2's result: correctly rounded to nearest (rule R121). -/
def exp2Op (f : FmtR) (a : Nat) : Nat := fput f.ty .rn (fzOf f) false (fExp2 (fop f.ty (fzOf f) a))
/-- FEXP2 (rule R121). -/
def execFexp2 (f : FmtR) (s : State) : Res := .next (s.aluR (.fexp2 f) f (shFlt f.ty false false) false (fun a _ _ => exp2Op f a))

/-- FLOG2's result: correctly rounded to nearest (rule R121). -/
def log2Op (f : FmtR) (a : Nat) : Nat := fput f.ty .rn (fzOf f) false (fLog2 (fop f.ty (fzOf f) a))
/-- FLOG2 (rule R121). -/
def execFlog2 (f : FmtR) (s : State) : Res := .next (s.aluR (.flog2 f) f (shFlt f.ty false false) false (fun a _ _ => log2Op f a))

/-- FCMP (rule R122). -/
def execFcmp (f : FmtR) (s : State) : Res := .next (s.aluR (.fcmp f) f { shFlt f.ty true false with wd := false } false
  (fun a b _ => boolNat (fCond f.opx.toNat (fop f.ty false a) (fop f.ty false b))))

/-- CVT's result pattern (rules R102, R124). -/
def cvtOp (f : FmtR) (a : Nat) : Nat :=
  let sty := cvtSty f
  let x : FVal := if cvtScl f then ofInt (ival (tyIsSigned sty) (tyElem sty) a) else fop sty false a
  if cvtDcl f then
    let q := toInt (modeOf f) (tyIsSigned f.ty) (tyElem f.ty) x
    wrapInt q (tyWidth f.ty)
  else fput f.ty (modeOf f) false (f.opx.getLsbD 2) x
/-- CVT (rules R123, R124). -/
def execCvt (f : FmtR) (s : State) : Res := .next (s.aluR (.cvt f) f
  { wd := classIs64 (cvtDcl f) f.ty, wa := classIs64 (cvtScl f) (cvtSty f), useB := false } (cvtDcl f && sxTy f.ty)
  (fun a _ _ => cvtOp f a))

end Sys2Proof.Machine
end

