-- ==== Sys2Proof/Machine/Lanes.lean ====
section
/-! DEFINITION. Rows 0x60 to 0x67: exchange, votes, reductions, scans and selection among the active lanes (rules R168 to R178). -/

namespace Sys2Proof.Machine

/-- An instruction of these rows: the plan of its fields, and writes over the lanes `m`; `whole` keeps the destination only
while some lane is active (rules R173, R174, R176). -/
def State.laneOp (s : State) (i : Instr) (f : FmtR) (h : Nat → Shape) (whole : Bool)
    (out : Group → Mask → List RegW) : State :=
  s.begin i false (fun s X G p =>
    let m := activeLanes G p f.ge f.gn f.g
    let P := planR f (h G.w)
    let P := if whole && m == 0 then { P with wv := [], wk := [], wp := [], wh := [], nd := P.wv } else P
    s.compute X G P f.y (if whole && m == 0 then [] else out G m))

def shLane (f : FmtR) (useB : Bool) (_w : Nat) : Shape := { wd := f.ty == 3, wa := f.ty == 3, useB := useB }

/-! ### LXCH, BCAST -/

/-- The source lane of lane `l` (rule R172). -/
def lxchFrom (w mode sel l : Nat) (m : Mask) : Nat :=
  let amt := sel % 64
  let seg := sel / 256 % 8
  let n := if seg = 0 then w else Nat.min (2 ^ seg) w
  let base := l - l % n
  match mode with
  | 0 => base + amt % n
  | 1 => base + (l % n + amt) % n
  | 2 => base + (n - 1 - l % n)
  | _ => ((List.range n).find? (fun j => inMask m (base + j))).map (fun j => base + j) |>.getD l

/-- LXCH (rule R172): a lane whose source is inactive is not written. -/
def execLxch (f : FmtR) (s : State) : Res := .next (s.laneOp (.lxch f) f (shLane f true) false (fun G m =>
  let src (l : Nat) : Nat := lxchFrom G.w (f.opx.toNat % 4) (G.opnd f.sb f.b.toNat false l) l m
  let m' := maskOf G.w (fun l => inMask m l && inMask m (src l))
  putAll G.w m' f.sd f.d.toNat (f.ty == 3) false (fun l => G.opnd f.sa f.a.toNat (f.ty == 3) (src l))))

/-- The lowest active lane, 0 where there is none. -/
def lowest (m : Mask) (w : Nat) : Nat := (lanesIn m w).headD 0

/-- BCAST (rule R173). -/
def execBcast (f : FmtR) (s : State) : Res := .next (s.laneOp (.bcast f) f (shLane f true) true (fun G m =>
  let b := (G.uni f.b.toNat).toNat % 2 ^ 32
  let src := if decide (b < G.w) && inMask m b then b else lowest m G.w
  putAll G.w m f.sd f.d.toNat (f.ty == 3) false (fun _ => G.opnd f.sa f.a.toNat (f.ty == 3) src)))

/-! ### PQRY, MATCH, ELECT (rules R174, R175) -/

/-- PQRY's shape: a lane mask in a vector pair is 64 bits wide in a 64-lane group (rule R168). -/
def shPqry (f : FmtR) (w : Nat) : Shape := { wd := f.opx == 3 && w == 64, useB := decide (f.opx.toNat ≤ 1) }

/-- PQRY's written value in each lane. -/
def pqryVal (f : FmtR) (G : Group) (m : Mask) : Nat :=
  let hit := m &&& G.pred f.a.toNat
  let c := countMask hit G.w
  let x := countMask m G.w
  let t := (G.uni f.b.toNat).toNat
  match f.opx.toNat with
  | 0 => boolNat (decide (t ≤ c))
  | 1 => boolNat (decide (x - c ≤ t))
  | 2 => boolNat (c == 0 || c == x)
  | 3 => (hit &&& fullMask G.w).toNat
  | _ => c

/-- PQRY (rule R174). -/
def execPqry (f : FmtR) (s : State) : Res := .next (s.laneOp (.pqry f) f (shPqry f) true (fun G m =>
  let wide := f.opx == 3 && (f.sd == spUni || G.w == 64)
  putAll G.w m f.sd f.d.toNat wide false (fun _ => pqryVal f G m)))

/-- MATCH (rule R175). -/
def execMatchLanes (f : FmtR) (s : State) : Res := .next (s.laneOp (.matchLanes f) f
  (fun w => { wd := w == 64, wa := f.ty == 3, useB := false }) false (fun G m =>
  let v (l : Nat) : Nat := G.opnd f.sa f.a.toNat (f.ty == 3) l
  putAll G.w m f.sd f.d.toNat (G.w == 64) false (fun l => (maskOf G.w (fun k => inMask m k && v k == v l)).toNat)))

/-- ELECT (rule R174). -/
def execElect (f : FmtR) (s : State) : Res := .next (s.begin (.elect f) false (fun s X G p =>
  let m := activeLanes G p f.ge f.gn f.g
  let P := (({} : Plan).guard f.ge f.gn f.g).dst spPred f.d.toNat false
  s.compute X G P f.y (putAll G.w m spPred f.d.toNat false false (fun l => boolNat (l == lowest m G.w)))))

/-! ### RED and SCAN (rules R171, R176, R177) -/

/-- The exact integer combination of an operation code. -/
def redInt (rop : Nat) (a b : Int) : Int :=
  match rop with
  | 0 => a + b
  | 1 => if a ≤ b then a else b
  | 2 => if b ≤ a then a else b
  | 3 => ((a.toNat &&& b.toNat : Nat) : Int)
  | 4 => ((a.toNat ||| b.toNat : Nat) : Int)
  | _ => ((a.toNat ^^^ b.toNat : Nat) : Int)

/-- The pattern of an exact integer result: wrapped, or saturated first. -/
def redOut (f : FmtR) (x : Int) : Nat :=
  let n := tyWidth f.ty
  wrapInt (if f.opx.getLsbD 0 then satTo (tyIsSigned f.ty) x n else x) n

/-- The rounded combination of two float values (rules R111, R119, R176). -/
def redFlt (f : FmtR) (a b : FVal) : FVal :=
  let t := fltFmt f.ty.toNat
  match (redRop f).toNat with
  | 0 => flushIn t (fzOf f) (t.decode (t.round (modeOf f) (fzOf f) false (fAdd (modeOf f) a b)))
  | 1 => fMinMax false a b
  | _ => fMinMax true a b

/-- One level of the tree of rule R111. -/
def treeLevel (op : FVal → FVal → FVal) (v : List (Option FVal)) : List (Option FVal) :=
  match v with
  | a :: b :: rest => (match a, b with
      | some x, some y => some (op x y)
      | some x, none => some x
      | none, y => y) :: treeLevel op rest
  | v => v

/-- The tree of rule R111 over a list of lanes, in `fuel` levels at most. -/
def treeSum (op : FVal → FVal → FVal) (fuel : Nat) (v : List (Option FVal)) : Option FVal :=
  match fuel with
  | 0 => v.head?.bind id
  | k + 1 => treeSum op k (treeLevel op v)

/-- The shape of RED and SCAN. -/
def shRed (f : FmtR) (_w : Nat) : Shape :=
  let w := classIs64 (!redFcl f) f.ty
  { wd := w, wa := w, useB := false }

/-- RED's result over the active lanes. -/
def redVal (f : FmtR) (G : Group) (m : Mask) : Nat :=
  let w := classIs64 (!redFcl f) f.ty
  let v (l : Nat) : Nat := G.opnd f.sa f.a.toNat w l
  if redFcl f then
    let ls := (List.range G.w).map (fun l => if inMask m l then some (fop f.ty (fzOf f) (v l)) else none)
    fput f.ty (modeOf f) (fzOf f) false ((treeSum (redFlt f) 6 ls).getD .nan)
  else
    match (lanesIn m G.w).map (fun l => ival (tyIsSigned f.ty) (tyWidth f.ty) (v l)) with
    | [] => 0
    | x :: rest => redOut f (rest.foldl (redInt (redRop f).toNat) x)

/-- RED (rule R176). -/
def execRed (f : FmtR) (s : State) : Res := .next (s.laneOp (.red f) f (shRed f) true (fun G m =>
  putAll G.w m f.sd f.d.toNat (classIs64 (!redFcl f) f.ty) (!redFcl f && sxTy f.ty) (fun _ => redVal f G m)))

/-- The identity of an integer scan (rule R177). -/
def scanIdInt (f : FmtR) : Int :=
  let n := tyWidth f.ty
  let sg := tyIsSigned f.ty
  match (redRop f).toNat with
  | 1 => if sg then (2 ^ (n - 1) : Nat) - 1 else (2 ^ n : Nat) - 1
  | 2 => if sg then -((2 ^ (n - 1) : Nat) : Int) else 0
  | 3 => (2 ^ n : Nat) - 1
  | _ => 0

/-- The identity of a float scan. -/
def scanIdFlt (f : FmtR) : FVal :=
  match (redRop f).toNat with
  | 1 => .inf false
  | 2 => .inf true
  | _ => .num false 0 0

/-- A scan over values in lane order (rule R177): one result for each. -/
def scanVals {α : Type} (op : α → α → α) (exc : Bool) (idv : α) (acc : Option α) (vs : List α) : List α :=
  match vs with
  | [] => []
  | a :: rest =>
    let next := match acc with | some x => op x a | none => a
    (if exc then acc.getD idv else next) :: scanVals op exc idv (some next) rest

/-- SCAN's results, with their lanes. -/
def scanOut (f : FmtR) (G : Group) (m : Mask) : List (Nat × Nat) :=
  let w := classIs64 (!redFcl f) f.ty
  let ls := lanesIn m G.w
  let v (l : Nat) : Nat := G.opnd f.sa f.a.toNat w l
  if redFcl f then
    ls.zip ((scanVals (redFlt f) (redExc f) (scanIdFlt f) none (ls.map (fun l => fop f.ty (fzOf f) (v l)))).map
      (fput f.ty (modeOf f) (fzOf f) false))
  else
    ls.zip ((scanVals (redInt (redRop f).toNat) (redExc f) (scanIdInt f) none
      (ls.map (fun l => ival (tyIsSigned f.ty) (tyWidth f.ty) (v l)))).map (redOut f))

/-- SCAN (rule R177). -/
def execScan (f : FmtR) (s : State) : Res := .next (s.laneOp (.scan f) f (shRed f) false (fun G m =>
  let r := scanOut f G m
  putAll G.w m f.sd f.d.toNat (classIs64 (!redFcl f) f.ty) false (fun l => Tab.get r 0 l)))

/-! ### TOPK (rule R178) -/

/-- Whether lane `a` with value `x` ranks before lane `b` with value `y`. -/
def ranksBefore (isMin : Bool) (a b : Nat) (x y : FVal) : Bool :=
  match x, y with
  | .nan, .nan => decide (a < b)
  | .nan, _ => false
  | _, .nan => true
  | x, y => match fCmp x y with
    | some .lt => isMin
    | some .gt => !isMin
    | _ => decide (a < b)

/-- TOPK (rule R178). -/
def execTopk (f : FmtR) (s : State) : Res := .next (s.laneOp (.topk f) f
  (fun _ => { wa := classIs64 (!(f.opx.getLsbD 1)) f.ty, useB := true }) false (fun G m =>
  let w := classIs64 (!(f.opx.getLsbD 1)) f.ty
  let v (l : Nat) : FVal :=
    let x := G.opnd f.sa f.a.toNat w l
    if f.opx.getLsbD 1 then fop f.ty false x else ofInt (ival (tyIsSigned f.ty) (tyWidth f.ty) x)
  let k := (G.uni f.b.toNat).toNat % 2 ^ 32
  let rank (l : Nat) : Nat := countMask (maskOf G.w (fun j => inMask m j && ranksBefore (f.opx.getLsbD 0) j l (v j) (v l))) G.w
  putAll G.w m spPred f.d.toNat false false (fun l => boolNat (decide (rank l < k)))))

end Sys2Proof.Machine
end

