-- ==== Sys2Proof/Machine/Blocks.lean ====
section
/-! DEFINITION. Elements of term formats, their terms, term blocks (rules R104 to R110, R205), and the places of elements in vector
registers (rule R237). Formats are the codes of rule R205. -/

namespace Sys2Proof.Machine

/-- The parameters of an activation format (rule R106): B, F, K, count width, exponent width, position width, largest block. -/
structure TParam where
  bias : Nat
  frac : Nat
  bound : Nat
  cw : Nat
  ew : Nat
  pw : Nat
  most : Nat

def tparam (af : Nat) : TParam :=
  match af with
  | 0 => ⟨0, 0, 2, 3, 0, 5, 1⟩
  | 1 => ⟨0, 0, 4, 3, 0, 5, 2⟩
  | 2 => ⟨7, 3, 3, 3, 4, 5, 2⟩
  | 3 => ⟨15, 2, 2, 3, 5, 5, 2⟩
  | 4 => ⟨4, 3, 3, 3, 4, 5, 2⟩
  | 5 => ⟨12, 4, 4, 3, 5, 5, 2⟩
  | 6 => ⟨15, 10, 5, 3, 5, 5, 3⟩
  | 7 => ⟨127, 7, 5, 3, 8, 5, 3⟩
  | 8 => ⟨127, 23, 13, 4, 8, 6, 7⟩
  | _ => ⟨1023, 52, 27, 5, 11, 6, 13⟩

/-- The number format of a float code. -/
def tfmt (af : Nat) : NumFmt :=
  match af with
  | 2 => .bin fmtE4
  | 3 => .bin fmtE5
  | 4 => .tap 6 0
  | 5 => .tap 8 1
  | 6 => .bin fmt16
  | 7 => .bin fmtB16
  | 8 => .bin fmt32
  | _ => .bin fmt64

/-- Whether a format is an integer one. -/
def tint (af : Nat) : Bool := decide (af ≤ 1)

/-- Element width in registers and memory (rule R237). -/
def twidth (af : Nat) : Nat :=
  match af with
  | 0 => 4
  | 1 | 2 | 3 | 4 | 5 => 8
  | 6 | 7 => 16
  | 8 => 32
  | _ => 64

/-- A recoded element: zero, a special with its kind (0 +∞, 1 −∞, 2 NaN), terms with the exponent field, or a count above K. -/
inductive TElem where
  | zero
  | special (kind : Nat)
  | terms (x : Nat) (ts : List (Bool × Nat))
  | over
  deriving DecidableEq, Repr

/-- The terms of S with the element's sign. -/
def signedTerms (neg : Bool) (s : Nat) : List (Bool × Nat) := (recode s).map (fun t => (t.1 != neg, t.2))

/-- The exponent field X and integer S of a finite non-zero float code (rule R105). -/
def splitFloat (af code : Nat) : Nat × Nat :=
  let p := tparam af
  match tfmt af with
  | .bin b =>
    let e := code / 2 ^ b.f % 2 ^ b.ew
    let f := code % 2 ^ b.f
    if e = 0 then (1, f) else (e, 2 ^ b.f + f)
  | .tap n es =>
    let v := tapMag n es (code % 2 ^ (n - 1))
    let l := v.1.log2
    (((l : Int) + v.2 + p.bias).toNat, v.1 * 2 ^ (p.frac - l))

/-- An element recoded (rules R105, R107). -/
def recodeElem (af code : Nat) : TElem :=
  if tint af then
    let a := sextNat code (twidth af)
    if a = 0 then .zero else .terms 0 (signedTerms (decide (a < 0)) a.natAbs)
  else
    let t := tfmt af
    let c := code % 2 ^ t.width
    match t.decode c with
    | .nan => .special 2
    | .inf neg => .special (if neg then 1 else 0)
    | .num neg m _ =>
      if m = 0 then .zero
      else
        let xs := splitFloat af c
        let ts := signedTerms neg xs.2
        .terms xs.1 (if af = 6 ∧ ts.length = 6 then ts.dropLast else ts)

/-- The cost of an element (rule R212). -/
def TElem.cost (e : TElem) : Nat :=
  match e with
  | .zero => 0
  | .special _ => 1
  | .terms _ ts => ts.length
  | .over => 0

/-- The value of an element (rules R109, R110). -/
def TElem.value (af : Nat) (e : TElem) : FVal :=
  match e with
  | .zero => .num false 0 0
  | .special k => if k = 0 then .inf false else if k = 1 then .inf true else .nan
  | .terms x ts =>
    let p := tparam af
    let s : Int := ts.foldl (fun a t => if t.1 then a - (2 ^ t.2 : Nat) else a + (2 ^ t.2 : Nat)) 0
    .num (decide (s < 0)) s.natAbs (if tint af then 0 else (x : Int) - p.bias - p.frac)
  | .over => if tint af then .num false 0 0 else .nan

/-- A finite integer value. -/
def FVal.int (v : FVal) : Int :=
  match v with
  | .num neg m e => intAt neg m e 0
  | _ => 0

/-! ### Blocks (rule R108) -/

/-- Fields packed from the least significant bit: (value, width) pairs. -/
def packBits (fs : List (Nat × Nat)) : Nat := fs.foldr (fun f a => f.1 % 2 ^ f.2 + 2 ^ f.2 * a) 0

/-- Granules of a block with so many terms. -/
def blockGranules (af terms : Nat) : Nat :=
  let p := tparam af
  Nat.max 1 (ceilDiv (16 * p.cw + 16 * p.ew + terms * (p.pw + 1)) 256)

def TElem.count (af : Nat) (e : TElem) : Nat :=
  match e with
  | .zero => 0
  | .special _ => 2 ^ (tparam af).cw - 1
  | .terms _ ts => ts.length
  | .over => 2 ^ (tparam af).cw - 1
def TElem.field (e : TElem) : Nat := match e with | .special k => k | .terms x _ => x | _ => 0
def TElem.list (e : TElem) : List (Bool × Nat) := match e with | .terms _ ts => ts | _ => []

/-- The bytes of a block of at most 16 elements, completed with zeros. -/
def blockBytes (af : Nat) (es : List TElem) : List Byte :=
  let p := tparam af
  let es := (List.range 16).map (fun i => es.getD i .zero)
  let ts := (es.map TElem.list).flatten
  let n := packBits (es.map (fun e => (e.count af, p.cw)) ++ es.map (fun e => (e.field, p.ew))
    ++ ts.map (fun t => (t.2 + (if t.1 then 2 ^ p.pw else 0), p.pw + 1)))
  bytesOf n (32 * blockGranules af ts.length)

/-- The blocks of a list of elements, back to back. -/
def blocksOf (af : Nat) (es : List TElem) (fuel : Nat) : List Byte :=
  match fuel with
  | 0 => []
  | k + 1 => if es.isEmpty then [] else blockBytes af (es.take 16) ++ blocksOf af (es.drop 16) k

/-- The counts of a block from the number of its header bytes. -/
def headCounts (af hdr : Nat) : List Nat :=
  (List.range 16).map (fun j => hdr >>> (j * (tparam af).cw) % 2 ^ (tparam af).cw)

/-- Terms that an element's count stores (rules R109, R110): none for a special or a count above K. -/
def storedTerms (af n : Nat) : Nat := if n ≤ (tparam af).bound then n else 0

/-- Reads the terms of elements of counts `cs`, from bit `at'`. -/
def readTerms (af blk : Nat) (cs : List (Nat × Nat)) (at' : Nat) : List TElem :=
  let p := tparam af
  match cs with
  | [] => []
  | (n, x) :: rest =>
    let k := storedTerms af n
    let ts := (List.range k).map (fun i =>
      let f := blk >>> (at' + i * (p.pw + 1))
      (f.testBit p.pw, f % 2 ^ p.pw))
    let e : TElem := if n = 0 then .zero
      else if n ≤ p.bound then .terms x ts
      else if !tint af && n == 2 ^ p.cw - 1 then .special (if x ≤ 2 then x else 2)
      else .over
    e :: readTerms af blk rest (at' + k * (p.pw + 1))

/-- The elements of a block whose bytes are `b`, and its size in granules (rules R108 to R110). -/
def parseBlock (af : Nat) (b : List Byte) : List TElem × Nat :=
  let p := tparam af
  let hdr := numOf (b.take 32)
  let cs := headCounts af hdr
  let g := blockGranules af (cs.map (storedTerms af)).sum
  let xs := (List.range 16).map (fun j => hdr >>> (16 * p.cw + j * p.ew) % 2 ^ p.ew)
  (readTerms af (numOf (b.take (32 * g))) (cs.zip xs) (16 * p.cw + 16 * p.ew), g)

/-- The elements of `n` blocks back to back within a limit of granules (rule R244): a block that begins at or passes the limit has zero
elements; granules used. -/
def readBlocks (af : Nat) (b : List Byte) (limit n : Nat) : List TElem × Nat :=
  (List.range n).foldl (fun (r : List TElem × Nat) _ =>
    let zeros := List.replicate 16 TElem.zero
    if limit ≤ r.2 then (r.1 ++ zeros, r.2)
    else
      let q := parseBlock af (b.drop (32 * r.2))
      if limit < r.2 + q.2 then (r.1 ++ zeros, r.2 + q.2) else (r.1 ++ q.1, r.2 + q.2)) ([], 0)

/-! ### Places in registers (rule R237) -/

/-- Registers that a list of `c` elements of `w` bits takes in a group of W lanes. -/
def regsFor (c w wg : Nat) : Nat := if w = 64 then 2 * ceilDiv c wg else ceilDiv (c * w) (32 * wg)

/-- Element `i` of `w` bits in registers read through `get` (register, lane). -/
def elemAt (get : Nat → Nat → Nat) (w wg i : Nat) : Nat :=
  if w = 64 then get (2 * (i / wg)) (i % wg) + 2 ^ 32 * get (2 * (i / wg) + 1) (i % wg)
  else
    let o := i * w
    get (o / (32 * wg)) (o % (32 * wg) / 32) / 2 ^ (o % 32) % 2 ^ w

/-- The lanes of register `r` of a range that holds a list of elements of `w` bits; other bits are 0. -/
def placeReg (els : List Nat) (w wg r : Nat) : Lanes :=
  lanesOf wg (fun l =>
    if w = 64 then w32 (els.getD (r / 2 * wg + l) 0 / (if r % 2 = 1 then 2 ^ 32 else 1))
    else
      let k := 32 / w
      w32 (packBits ((List.range k).map (fun j => (els.getD ((r * wg + l) * k + j) 0, w)))))

end Sys2Proof.Machine
end

