-- ==== Sys2Proof/Decode.lean ====
section
/-! DEFINITION. Decoding (rules R41 to R61): the fields of each format, the opcode map, the word checks; and the encoder written
from the same tables. -/

namespace Sys2Proof

/-! ### The fields of each format -/

/-- OP, bits [63:56] (rule R41). -/
def opcode (w : W64) : Nat := (w.extractLsb' 56 8).toNat

/-- The fields of a word of format R (rule R41, R46). -/
def decodeR (w : W64) : FmtR where
  d := w.extractLsb' 49 7
  a := w.extractLsb' 42 7
  b := w.extractLsb' 35 7
  c := w.extractLsb' 28 7
  la := w.extractLsb' 27 1
  lb := w.extractLsb' 26 1
  lc := w.extractLsb' 25 1
  g := w.extractLsb' 18 7
  gn := w.extractLsb' 17 1
  ge := w.extractLsb' 16 1
  y := w.extractLsb' 15 1
  sd := w.extractLsb' 13 2
  sa := w.extractLsb' 11 2
  sb := w.extractLsb' 9 2
  sc := w.extractLsb' 7 2
  ty := w.extractLsb' 3 4
  opx := w.extractLsb' 0 3

/-- The fields of a word of format K (rule R51). -/
def decodeK (w : W64) : FmtK where
  d := w.extractLsb' 49 7
  imm32 := w.extractLsb' 17 32
  ge := w.extractLsb' 16 1
  y := w.extractLsb' 15 1
  g := w.extractLsb' 8 7
  gn := w.extractLsb' 7 1
  sd := w.extractLsb' 5 2
  part := w.extractLsb' 3 2
  rsv := w.extractLsb' 0 3

/-- The fields of a word of format B (rule R52). -/
def decodeB (w : W64) : FmtB where
  rsvHi := w.extractLsb' 49 7
  p := w.extractLsb' 42 7
  pn := w.extractLsb' 41 1
  off := w.extractLsb' 17 24
  pe := w.extractLsb' 16 1
  y := w.extractLsb' 15 1
  rsvLo := w.extractLsb' 0 15

/-- The fields of a word of format X (rule R54). -/
def decodeX (w : W64) : FmtX where
  d := w.extractLsb' 49 7
  a := w.extractLsb' 42 7
  b := w.extractLsb' 35 7
  c := w.extractLsb' 28 7
  la := w.extractLsb' 27 1
  lb := w.extractLsb' 26 1
  lc := w.extractLsb' 25 1
  fbk := w.extractLsb' 19 6
  rsv := w.extractLsb' 16 3
  y := w.extractLsb' 15 1
  cwk := w.extractLsb' 9 6
  xop := w.extractLsb' 0 9

/-- The fields of a word of format M (rule R55). -/
def decodeM (w : W64) : FmtM where
  d := w.extractLsb' 49 7
  a := w.extractLsb' 42 7
  b := w.extractLsb' 35 7
  disp := w.extractLsb' 28 7
  la := w.extractLsb' 27 1
  lb := w.extractLsb' 26 1
  lc := w.extractLsb' 25 1
  g := w.extractLsb' 18 7
  gn := w.extractLsb' 17 1
  ge := w.extractLsb' 16 1
  y := w.extractLsb' 15 1
  tr := w.extractLsb' 12 3
  size := w.extractLsb' 9 3
  scope := w.extractLsb' 6 3
  ord := w.extractLsb' 4 2
  hint := w.extractLsb' 2 2
  sc := w.extractLsb' 1 1
  sa := w.extractLsb' 0 1

/-- The fields of a word of format S (rule R57). -/
def decodeS (w : W64) : FmtS where
  d := w.extractLsb' 49 7
  a := w.extractLsb' 42 7
  sel := w.extractLsb' 28 14
  la := w.extractLsb' 27 1
  rsv := w.extractLsb' 25 2
  g := w.extractLsb' 18 7
  gn := w.extractLsb' 17 1
  ge := w.extractLsb' 16 1
  y := w.extractLsb' 15 1
  sd := w.extractLsb' 13 2
  sa := w.extractLsb' 11 2
  sop := w.extractLsb' 0 11

/-- The fields of a word of format I (rule R50); the immediate is in three parts. -/
def decodeI (w : W64) : FmtI where
  d := w.extractLsb' 49 7
  a := w.extractLsb' 42 7
  sd := w.extractLsb' 41 1
  tyi := w.extractLsb' 38 3
  opx := w.extractLsb' 35 3
  la := w.extractLsb' 27 1
  sa := w.extractLsb' 26 1
  g := w.extractLsb' 18 7
  gn := w.extractLsb' 17 1
  ge := w.extractLsb' 16 1
  y := w.extractLsb' 15 1
  imm := w.extractLsb' 28 7 ++ w.extractLsb' 25 1 ++ w.extractLsb' 0 15

/-! ### The opcode map (rule R59) -/

/-- The instruction whose opcode and fields a word holds, before the word checks; none where OP is unassigned. -/
def decodeWord (w : W64) : Option Instr :=
  match opcode w with
  | 0x01 => some (.nop (decodeS w))
  | 0x02 => some (.exit (decodeS w))
  | 0x03 => some (.trap (decodeS w))
  | 0x04 => some (.bkpt (decodeS w))
  | 0x05 => some (.safept (decodeS w))
  | 0x06 => some (.sread (decodeS w))
  | 0x07 => some (.swrite (decodeS w))
  | 0x08 => some (.clk (decodeS w))
  | 0x09 => some (.rth (decodeS w))
  | 0x10 => some (.add (decodeR w))
  | 0x11 => some (.sub (decodeR w))
  | 0x12 => some (.mul (decodeR w))
  | 0x13 => some (.mulhi (decodeR w))
  | 0x14 => some (.mad (decodeR w))
  | 0x15 => some (.div (decodeR w))
  | 0x16 => some (.rem (decodeR w))
  | 0x17 => some (.min (decodeR w))
  | 0x18 => some (.max (decodeR w))
  | 0x19 => some (.abs (decodeR w))
  | 0x1A => some (.neg (decodeR w))
  | 0x1B => some (.lea (decodeR w))
  | 0x20 => some (.and (decodeR w))
  | 0x21 => some (.or (decodeR w))
  | 0x22 => some (.xor (decodeR w))
  | 0x23 => some (.not (decodeR w))
  | 0x24 => some (.shl (decodeR w))
  | 0x25 => some (.shr (decodeR w))
  | 0x26 => some (.sar (decodeR w))
  | 0x27 => some (.rot (decodeR w))
  | 0x28 => some (.bfe (decodeR w))
  | 0x29 => some (.bfi (decodeR w))
  | 0x2A => some (.brev (decodeR w))
  | 0x2B => some (.popc (decodeR w))
  | 0x2C => some (.clz (decodeR w))
  | 0x2D => some (.ctz (decodeR w))
  | 0x2E => some (.tcnt (decodeR w))
  | 0x30 => some (.cmp (decodeR w))
  | 0x31 => some (.pand (decodeR w))
  | 0x32 => some (.por (decodeR w))
  | 0x33 => some (.pxor (decodeR w))
  | 0x34 => some (.pnot (decodeR w))
  | 0x35 => some (.sel (decodeR w))
  | 0x36 => some (.mov (decodeR w))
  | 0x37 => some (.movi (decodeK w))
  | 0x38 => some (.movx (decodeR w))
  | 0x39 => some (.movxw (decodeR w))
  | 0x40 => some (.fadd (decodeR w))
  | 0x41 => some (.fsub (decodeR w))
  | 0x42 => some (.fmul (decodeR w))
  | 0x43 => some (.fma (decodeR w))
  | 0x44 => some (.fmin (decodeR w))
  | 0x45 => some (.fmax (decodeR w))
  | 0x46 => some (.fclass (decodeR w))
  | 0x47 => some (.frcp (decodeR w))
  | 0x48 => some (.frsq (decodeR w))
  | 0x49 => some (.fsqrt (decodeR w))
  | 0x4A => some (.fexp2 (decodeR w))
  | 0x4B => some (.flog2 (decodeR w))
  | 0x4C => some (.fcmp (decodeR w))
  | 0x4D => some (.cvt (decodeR w))
  | 0x50 => some (.ifThen (decodeB w))
  | 0x51 => some (.ifs (decodeB w))
  | 0x52 => some (.elseArm (decodeB w))
  | 0x53 => some (.endif (decodeB w))
  | 0x54 => some (.loop (decodeB w))
  | 0x55 => some (.endloop (decodeB w))
  | 0x56 => some (.breakLoop (decodeB w))
  | 0x57 => some (.continueLoop (decodeB w))
  | 0x58 => some (.call (decodeB w))
  | 0x59 => some (.ret (decodeB w))
  | 0x60 => some (.lxch (decodeR w))
  | 0x61 => some (.pqry (decodeR w))
  | 0x62 => some (.red (decodeR w))
  | 0x63 => some (.scan (decodeR w))
  | 0x64 => some (.matchLanes (decodeR w))
  | 0x65 => some (.elect (decodeR w))
  | 0x66 => some (.bcast (decodeR w))
  | 0x67 => some (.topk (decodeR w))
  | 0x68 => some (.barinit (decodeR w))
  | 0x69 => some (.bararv (decodeR w))
  | 0x6A => some (.barwait (decodeR w))
  | 0x6B => some (.barinv (decodeR w))
  | 0x70 => some (.arm (decodeR w))
  | 0x71 => some (.cap (decodeR w))
  | 0x72 => some (.send (decodeR w))
  | 0x73 => some (.disarm (decodeR w))
  | 0x74 => some (.place (decodeR w))
  | 0x75 => some (.scope (decodeR w))
  | 0x80 => some (.twin (decodeX w))
  | 0x81 => some (.tldw (decodeX w))
  | 0x82 => some (.tldws (decodeX w))
  | 0x83 => some (.tmma (decodeX w))
  | 0x84 => some (.tmmaq (decodeX w))
  | 0x85 => some (.tfeed (decodeX w))
  | 0x86 => some (.tzero (decodeX w))
  | 0x87 => some (.tdrain (decodeX w))
  | 0x88 => some (.twait (decodeX w))
  | 0x89 => some (.tbound (decodeX w))
  | 0x8A => some (.thist (decodeX w))
  | 0x8B => some (.trecode (decodeX w))
  | 0x8C => some (.tdecode (decodeX w))
  | 0x90 => some (.ld (decodeM w))
  | 0x91 => some (.st (decodeM w))
  | 0x92 => some (.ldc (decodeM w))
  | 0x93 => some (.ldl (decodeM w))
  | 0x94 => some (.stl (decodeM w))
  | 0x95 => some (.gather (decodeM w))
  | 0x96 => some (.scatter (decodeM w))
  | 0x97 => some (.fence (decodeM w))
  | 0x98 => some (.translate (decodeM w))
  | 0x99 => some (.pref (decodeM w))
  | 0xA0 => some (.atom (decodeM w))
  | 0xA1 => some (.atomg (decodeM w))
  | 0xA2 => some (.l1inv (decodeM w))
  | 0xA3 => some (.l1flush (decodeM w))
  | 0xA4 => some (.stmap (decodeM w))
  | 0xA5 => some (.stunmap (decodeM w))
  | 0xA6 => some (.stflush (decodeM w))
  | 0xA7 => some (.awinit (decodeM w))
  | 0xA8 => some (.awadd (decodeM w))
  | 0xA9 => some (.awwait (decodeM w))
  | 0xAA => some (.cadd (decodeM w))
  | 0xAB => some (.cwait (decodeM w))
  | 0xAC => some (.remapld (decodeM w))
  | 0xB0 => some (.cpy (decodeR w))
  | 0xB1 => some (.cpyEnc (decodeR w))
  | 0xB2 => some (.cpyDec (decodeR w))
  | 0xB3 => some (.cpyGather (decodeR w))
  | 0xB4 => some (.stage (decodeR w))
  | 0xB5 => some (.cpystat (decodeR w))
  | 0xC0 => some (.launch (decodeR w))
  | 0xC1 => some (.post (decodeR w))
  | 0xC2 => some (.cont (decodeR w))
  | 0xC3 => some (.taskexit (decodeR w))
  | 0xD0 => some (.addI (decodeI w))
  | 0xD1 => some (.subI (decodeI w))
  | 0xD2 => some (.mulI (decodeI w))
  | 0xD3 => some (.andI (decodeI w))
  | 0xD4 => some (.orI (decodeI w))
  | 0xD5 => some (.xorI (decodeI w))
  | 0xD6 => some (.shlI (decodeI w))
  | 0xD7 => some (.shrI (decodeI w))
  | 0xD8 => some (.sarI (decodeI w))
  | 0xD9 => some (.rotI (decodeI w))
  | 0xDA => some (.cmpI (decodeI w))
  | 0xDB => some (.minI (decodeI w))
  | 0xDC => some (.maxI (decodeI w))
  | 0xDD => some (.bfeI (decodeI w))
  | _ => none

/-- Check 1 of rule R60: whether an opcode is assigned. -/
def opAssigned (op : Nat) : Bool := (decodeWord (BitVec.ofNat 64 (op * 2 ^ 56))).isSome

/-- Decoding in a group described by `env`: the instruction, or the first word check of rule R60 that fails. -/
def decode (env : Env) (w : W64) : Except Illegal Instr :=
  match decodeWord w with
  | none => .error (bad 1)
  | some i =>
    match i.check env with
    | some e => .error e
    | none => .ok i

/-- The instruction the decoder reads from a table word, in a 32-lane group that runs a handler, whose kernel has every
safe point; the two word checks that depend on not being in a handler (rules R138, R234) are then made outside one. -/
def decodeTableWord (nbits w : Nat) : Option Instr :=
  let word : W64 := BitVec.ofNat 64 (w % 2 ^ nbits)
  match decode ⟨false, 32, 2 ^ 14⟩ word with
  | .ok i => some i
  | .error _ =>
    match decode ⟨true, 32, 2 ^ 14⟩ word with
    | .ok i => some i
    | .error _ => none

/-! ### The encoder -/

/-- The word of an opcode with the fields of format R. -/
def encodeR (op : BitVec 8) (f : FmtR) : W64 :=
  op ++ f.d ++ f.a ++ f.b ++ f.c ++ f.la ++ f.lb ++ f.lc ++ f.g ++ f.gn ++ f.ge ++ f.y ++ f.sd ++ f.sa ++ f.sb ++ f.sc ++ f.ty ++ f.opx

/-- The word of an opcode with the fields of format K. -/
def encodeK (op : BitVec 8) (f : FmtK) : W64 :=
  op ++ f.d ++ f.imm32 ++ f.ge ++ f.y ++ f.g ++ f.gn ++ f.sd ++ f.part ++ f.rsv

/-- The word of an opcode with the fields of format B. -/
def encodeB (op : BitVec 8) (f : FmtB) : W64 :=
  op ++ f.rsvHi ++ f.p ++ f.pn ++ f.off ++ f.pe ++ f.y ++ f.rsvLo

/-- The word of an opcode with the fields of format X. -/
def encodeX (op : BitVec 8) (f : FmtX) : W64 :=
  op ++ f.d ++ f.a ++ f.b ++ f.c ++ f.la ++ f.lb ++ f.lc ++ f.fbk ++ f.rsv ++ f.y ++ f.cwk ++ f.xop

/-- The word of an opcode with the fields of format M. -/
def encodeM (op : BitVec 8) (f : FmtM) : W64 :=
  op ++ f.d ++ f.a ++ f.b ++ f.disp ++ f.la ++ f.lb ++ f.lc ++ f.g ++ f.gn ++ f.ge ++ f.y ++ f.tr ++ f.size ++ f.scope ++ f.ord ++ f.hint ++ f.sc ++ f.sa

/-- The word of an opcode with the fields of format S. -/
def encodeS (op : BitVec 8) (f : FmtS) : W64 :=
  op ++ f.d ++ f.a ++ f.sel ++ f.la ++ f.rsv ++ f.g ++ f.gn ++ f.ge ++ f.y ++ f.sd ++ f.sa ++ f.sop

/-- The word of an opcode with the fields of format I. -/
def encodeI (op : BitVec 8) (f : FmtI) : W64 :=
  op ++ f.d ++ f.a ++ f.sd ++ f.tyi ++ f.opx ++ f.imm.extractLsb' 16 7 ++ f.la ++ f.sa ++ f.imm.extractLsb' 15 1 ++ f.g ++ f.gn ++ f.ge ++ f.y ++ f.imm.extractLsb' 0 15

/-- The word of an instruction; none for an event of the table, which has no word. -/
def encode (i : Instr) : Option W64 :=
  match i with
  | .nop f => some (encodeS 0x01 f)
  | .exit f => some (encodeS 0x02 f)
  | .trap f => some (encodeS 0x03 f)
  | .bkpt f => some (encodeS 0x04 f)
  | .safept f => some (encodeS 0x05 f)
  | .sread f => some (encodeS 0x06 f)
  | .swrite f => some (encodeS 0x07 f)
  | .awlimitReqWrite _ _ _ => none
  | .accumulatorAllocation _ => none
  | .clk f => some (encodeS 0x08 f)
  | .rth f => some (encodeS 0x09 f)
  | .add f => some (encodeR 0x10 f)
  | .sub f => some (encodeR 0x11 f)
  | .mul f => some (encodeR 0x12 f)
  | .mulhi f => some (encodeR 0x13 f)
  | .mad f => some (encodeR 0x14 f)
  | .div f => some (encodeR 0x15 f)
  | .rem f => some (encodeR 0x16 f)
  | .min f => some (encodeR 0x17 f)
  | .max f => some (encodeR 0x18 f)
  | .abs f => some (encodeR 0x19 f)
  | .neg f => some (encodeR 0x1A f)
  | .lea f => some (encodeR 0x1B f)
  | .and f => some (encodeR 0x20 f)
  | .or f => some (encodeR 0x21 f)
  | .xor f => some (encodeR 0x22 f)
  | .not f => some (encodeR 0x23 f)
  | .shl f => some (encodeR 0x24 f)
  | .shr f => some (encodeR 0x25 f)
  | .sar f => some (encodeR 0x26 f)
  | .rot f => some (encodeR 0x27 f)
  | .bfe f => some (encodeR 0x28 f)
  | .bfi f => some (encodeR 0x29 f)
  | .brev f => some (encodeR 0x2A f)
  | .popc f => some (encodeR 0x2B f)
  | .clz f => some (encodeR 0x2C f)
  | .ctz f => some (encodeR 0x2D f)
  | .tcnt f => some (encodeR 0x2E f)
  | .cmp f => some (encodeR 0x30 f)
  | .pand f => some (encodeR 0x31 f)
  | .por f => some (encodeR 0x32 f)
  | .pxor f => some (encodeR 0x33 f)
  | .pnot f => some (encodeR 0x34 f)
  | .sel f => some (encodeR 0x35 f)
  | .mov f => some (encodeR 0x36 f)
  | .movi f => some (encodeK 0x37 f)
  | .movx f => some (encodeR 0x38 f)
  | .movxw f => some (encodeR 0x39 f)
  | .addI f => some (encodeI 0xD0 f)
  | .subI f => some (encodeI 0xD1 f)
  | .mulI f => some (encodeI 0xD2 f)
  | .andI f => some (encodeI 0xD3 f)
  | .orI f => some (encodeI 0xD4 f)
  | .xorI f => some (encodeI 0xD5 f)
  | .shlI f => some (encodeI 0xD6 f)
  | .shrI f => some (encodeI 0xD7 f)
  | .sarI f => some (encodeI 0xD8 f)
  | .rotI f => some (encodeI 0xD9 f)
  | .cmpI f => some (encodeI 0xDA f)
  | .minI f => some (encodeI 0xDB f)
  | .maxI f => some (encodeI 0xDC f)
  | .bfeI f => some (encodeI 0xDD f)
  | .fadd f => some (encodeR 0x40 f)
  | .fsub f => some (encodeR 0x41 f)
  | .fmul f => some (encodeR 0x42 f)
  | .fma f => some (encodeR 0x43 f)
  | .fmin f => some (encodeR 0x44 f)
  | .fmax f => some (encodeR 0x45 f)
  | .fclass f => some (encodeR 0x46 f)
  | .frcp f => some (encodeR 0x47 f)
  | .frsq f => some (encodeR 0x48 f)
  | .fsqrt f => some (encodeR 0x49 f)
  | .fexp2 f => some (encodeR 0x4A f)
  | .flog2 f => some (encodeR 0x4B f)
  | .fcmp f => some (encodeR 0x4C f)
  | .cvt f => some (encodeR 0x4D f)
  | .ifThen f => some (encodeB 0x50 f)
  | .ifs f => some (encodeB 0x51 f)
  | .elseArm f => some (encodeB 0x52 f)
  | .endif f => some (encodeB 0x53 f)
  | .loop f => some (encodeB 0x54 f)
  | .endloop f => some (encodeB 0x55 f)
  | .breakLoop f => some (encodeB 0x56 f)
  | .continueLoop f => some (encodeB 0x57 f)
  | .call f => some (encodeB 0x58 f)
  | .ret f => some (encodeB 0x59 f)
  | .lxch f => some (encodeR 0x60 f)
  | .pqry f => some (encodeR 0x61 f)
  | .red f => some (encodeR 0x62 f)
  | .scan f => some (encodeR 0x63 f)
  | .matchLanes f => some (encodeR 0x64 f)
  | .elect f => some (encodeR 0x65 f)
  | .bcast f => some (encodeR 0x66 f)
  | .topk f => some (encodeR 0x67 f)
  | .barinit f => some (encodeR 0x68 f)
  | .bararv f => some (encodeR 0x69 f)
  | .barwait f => some (encodeR 0x6A f)
  | .barinv f => some (encodeR 0x6B f)
  | .arm f => some (encodeR 0x70 f)
  | .cap f => some (encodeR 0x71 f)
  | .send f => some (encodeR 0x72 f)
  | .disarm f => some (encodeR 0x73 f)
  | .place f => some (encodeR 0x74 f)
  | .scope f => some (encodeR 0x75 f)
  | .deliveryArrival _ => none
  | .sendOutcomeReturn _ => none
  | .twin f => some (encodeX 0x80 f)
  | .tldw f => some (encodeX 0x81 f)
  | .tldws f => some (encodeX 0x82 f)
  | .tmma f => some (encodeX 0x83 f)
  | .tmmaq f => some (encodeX 0x84 f)
  | .tfeed f => some (encodeX 0x85 f)
  | .tzero f => some (encodeX 0x86 f)
  | .tdrain f => some (encodeX 0x87 f)
  | .twait f => some (encodeX 0x88 f)
  | .tbound f => some (encodeX 0x89 f)
  | .thist f => some (encodeX 0x8A f)
  | .trecode f => some (encodeX 0x8B f)
  | .tdecode f => some (encodeX 0x8C f)
  | .termEntryStart _ => none
  | .weightLoadStart _ => none
  | .weightLoadComplete _ _ => none
  | .multiplyComplete _ _ => none
  | .termEntryComplete _ _ => none
  | .arrayClockGate _ => none
  | .arrayWakeGrant _ => none
  | .arrayWakeComplete _ => none
  | .ld f => some (encodeM 0x90 f)
  | .st f => some (encodeM 0x91 f)
  | .ldc f => some (encodeM 0x92 f)
  | .ldl f => some (encodeM 0x93 f)
  | .stl f => some (encodeM 0x94 f)
  | .gather f => some (encodeM 0x95 f)
  | .scatter f => some (encodeM 0x96 f)
  | .fence f => some (encodeM 0x97 f)
  | .translate f => some (encodeM 0x98 f)
  | .pref f => some (encodeM 0x99 f)
  | .atom f => some (encodeM 0xA0 f)
  | .atomg f => some (encodeM 0xA1 f)
  | .l1inv f => some (encodeM 0xA2 f)
  | .l1flush f => some (encodeM 0xA3 f)
  | .stmap f => some (encodeM 0xA4 f)
  | .stunmap f => some (encodeM 0xA5 f)
  | .stflush f => some (encodeM 0xA6 f)
  | .awinit f => some (encodeM 0xA7 f)
  | .awadd f => some (encodeM 0xA8 f)
  | .awwait f => some (encodeM 0xA9 f)
  | .cadd f => some (encodeM 0xAA f)
  | .cwait f => some (encodeM 0xAB f)
  | .cwaitPoll _ _ _ => none
  | .remapld f => some (encodeM 0xAC f)
  | .loadDataReturn _ _ _ => none
  | .writeAtHome _ _ => none
  | .l1Eviction _ _ => none
  | .l1MissFill _ _ => none
  | .packetOpenTimeout _ _ => none
  | .packetIdleTimeout _ _ => none
  | .gatherExpander _ _ => none
  | .packetReturn _ _ => none
  | .stashFill _ _ _ => none
  | .stashRecall _ _ _ => none
  | .copyRecall _ _ => none
  | .promotionProbe _ _ => none
  | .migrationLineCopy _ _ => none
  | .spillWriteoutDone _ _ => none
  | .reloadDone _ _ _ => none
  | .instructionComplete _ _ _ => none
  | .ageSaturate _ _ _ => none
  | .instructionFetch _ _ _ => none
  | .groupEnd _ _ => none
  | .cpy f => some (encodeR 0xB0 f)
  | .cpyEnc f => some (encodeR 0xB1 f)
  | .cpyDec f => some (encodeR 0xB2 f)
  | .cpyGather f => some (encodeR 0xB3 f)
  | .stage f => some (encodeR 0xB4 f)
  | .cpystat f => some (encodeR 0xB5 f)
  | .copyStart _ _ => none
  | .copyChunk _ _ => none
  | .copyComplete _ _ => none
  | .copyError _ _ => none
  | .scheduleRepeatIssue _ => none
  | .launch f => some (encodeR 0xC0 f)
  | .post f => some (encodeR 0xC1 f)
  | .postApply _ => none
  | .cont f => some (encodeR 0xC2 f)
  | .taskexit f => some (encodeR 0xC3 f)
  | .launchAccept _ => none
  | .launchComplete _ => none
  | .qwptrWrite _ _ => none
  | .queueEnable _ _ => none
  | .queueDisable _ _ => none
  | .packetBegin _ => none
  | .packetNop _ _ => none
  | .packetLaunch _ _ => none
  | .packetGraph _ _ => none
  | .graphNextNode _ => none
  | .packetCwait _ _ => none
  | .packetCadd _ _ => none
  | .packetCopy _ _ => none
  | .packetTimestamp _ _ => none
  | .admission _ => none
  | .gangUnplaced _ => none
  | .continuationPoll _ => none
  | .budgetPeriod _ => none
  | .causeTaken _ _ => none
  | .handlerBankGrant _ => none
  | .faultBatchWrite _ => none
  | .pfdoneAnswer _ _ => none
  | .pfdoneRefuse _ _ => none
  | .preemptRequest _ _ => none
  | .preemptForceTimeout _ _ => none
  | .teamSave _ => none
  | .corePowerGate _ _ => none
  | .tlbinv _ _ => none
  | .tlbinvComplete _ => none
  | .partmapWrite _ _ => none
  | .registerWrite _ _ => none
  | .ualinkTransactionReceive _ _ _ _ => none
  | .writeAck _ => none
  | .flitCrcFail _ _ => none
  | .replayDrained _ => none
  | .laneRepairTrigger _ _ => none
  | .replayFailThreshold _ => none
  | .repairComplete _ => none
  | .repairFail _ => none
  | .laneFail _ => none
  | .trainingComplete _ _ => none
  | .portDown _ => none
  | .transactionLossTimeout _ => none
  | .upctlEnable _ _ => none
  | .hostBar2Write _ _ _ => none
  | .hostBar2Read _ _ _ => none
  | .cxlCacheWrite _ _ => none
  | .pcSample _ _ => none
  | .correctedError _ _ => none
  | .timestampSync _ => none
  | .powerOn => none
  | .resetctlWarm => none
  | .pcieHotReset => none
  | .status => none
  | .read _ => none
  | .write _ _ => none
  | .warm => none
  | .cold => none
  | .attest _ => none
  | .flashrd _ _ => none
  | .flashwr _ _ => none
  | .hostCxlMemRead _ => none

end Sys2Proof
end

