-- ==== Sys2Proof/Machine/Control.lean ====
section
/-! DEFINITION. Row 0x5_: structured control and splits (rules R126 to R134, R153 to R157). -/

namespace Sys2Proof.Machine

/-! ### Masks and stacks -/

/-- cond(L) of rule R129 as a mask. -/
def condMask (G : Group) (f : FmtB) : Mask :=
  if f.pe == 0 then fullMask 64
  else if f.pn == 1 then ~~~(G.pred f.p.toNat) else G.pred f.p.toNat

/-- An entry's masks with the lanes of `x` removed; a CALL entry has OUTER alone. -/
def Entry.remove (e : Entry) (x : Mask) : Entry := { e with outer := e.outer &&& ~~~x, alt := e.alt &&& ~~~x }

/-- The loop of advance for AM = 0 (rule R127): AM, stack and PC; none when the stack is empty. -/
def unwind (st : List Entry) : Option (Mask × List Entry × W64) :=
  match st with
  | [] => none
  | e :: rest =>
    if e.kind != .callE then some (0, e :: rest, e.addr)
    else if e.outer != 0 then some (e.outer, rest, e.addr)
    else unwind rest

/-- advance (rule R127). -/
def advance (am : Mask) (st : List Entry) (next : W64) : Option (Mask × List Entry × W64) :=
  if am != 0 then some (am, st, next) else unwind st

/-! ### The end of splits (rules R138, R155, R156) -/

/-- The tags that a split's stack holds. -/
def Split.tags (p : Split) : List Nat := p.stack.filterMap (fun e => e.join)

/-- Wakes the splits that wait in MERGE, so that each makes its check again. -/
def Group.wakeMerge (G : Group) : Group :=
  { G with splits := updIf G.splits (fun q => q.wait == .merge) (fun q => { q with wait := .ready }) }

/-- The number that instructions and causes of an ended split are held under: no live split has it (rule R403). -/
def endedSplit : Nat := 4

/-- What an ended split leaves: its number becomes free, so that its instructions in flight and pending causes name no split (rules R155,
R403). -/
def Group.orphan (G : Group) (n : Nat) : Group :=
  { G with infl := updIf G.infl (fun i => i.split == n) (fun i => { i with split := endedSplit })
           causes := updIf G.causes (fun q => q.split == n) (fun q => { q with split := endedSplit }) }

/-- Removes a split that has ended; a group without splits ends once its work completes (rule R138). -/
def Group.dropSplit (G : Group) (n : Nat) : Group :=
  let G := { G.orphan n with splits := G.splits.filter (fun q => q.id != n) }
  if G.splits.isEmpty then G.kill else G.wakeMerge

/-- Puts a split where `advance` leaves it, or ends it. -/
def Group.place (G : Group) (n : Nat) (r : Option (Mask × List Entry × W64)) : Group :=
  match r with
  | none => G.dropSplit n
  | some (am, st, pc) => G.updSplit n (fun p => { p with am := am, stack := st, pc := pc })

/-! ### The common course of a control instruction -/

/-- What a control instruction does: the new AM, stack and next PC before advance, or none for STACK. -/
abbrev Step? := Option (Mask × List Entry × W64)

/-- Posts a control instruction whose split is already where it goes. -/
def State.postControl (s : State) (X : Ctx) (P : Plan) (y : BitVec 1) : State :=
  match s.group X.core X.slot with
  | none => s
  | some G => s.post X P y ((G.split X.split).map (fun p => p.pc)) { id := 0, split := 0, pc := 0 } 0

/-- The registers a control instruction reads. -/
def planB (f : FmtB) : Plan := if f.pe == 1 then { rp := [f.p.toNat], grd := [f.p.toNat] } else {}

/-- The target address PC + 8 × OFF (rule R52). -/
def targetB (pc : W64) (off : BitVec 24) : W64 := pc + 8 * off.signExtend 64

/-- A control instruction without a target: the registers, then the step; STACK where the step has none. -/
def State.control (s : State) (i : Instr) (f : FmtB) (step : State → Ctx → Group → Split → Step?) : State :=
  s.begin i true (fun s X G p =>
    match s.ready X G (planB f) with
    | (s, false) => s
    | (s, true) =>
      match step s X G p with
      | none => s.raise X 2 0 p.stack.length
      | some (am, st, next) =>
        (s.updGroup X.core X.slot (fun G => G.place X.split (advance am st next))).postControl X (planB f) f.y)

/-- The target check of rule R53 in the order of rule R132, after the word checks: the target word's opcode is among `ok`. -/
def State.controlTo (s : State) (i : Instr) (f : FmtB) (ok : Nat → Bool) (step : Group → Split → W64 → Step?) : State :=
  s.begin i true (fun s X G p =>
    match s.ready X G (planB f) with
    | (s, false) => s
    | (s, true) =>
      match s.fetchAt X G.part (targetB p.pc f.off).toNat with
      | (s, none) => s
      | (s, some w) =>
        if !(ok (opcode w)) then s.illegal X (bad 8)
        else match step G p (targetB p.pc f.off) with
          | none => s.raise X 2 0 p.stack.length
          | some (am, st, next) =>
            (s.updGroup X.core X.slot (fun G => G.place X.split (advance am st next))).postControl X (planB f) f.y)

/-- A push, none on a full stack (rule R129). -/
def pushed (p : Split) (e : Entry) : Option (List Entry) := if decide (32 ≤ p.stack.length) then none else some (e :: p.stack)

/-! ### IF, IFS, ELSE, ENDIF -/

/-- IF's step (rule R129). -/
def ifStep (f : FmtB) (bySplit : Bool) (G : Group) (p : Split) (target : W64) : Step? :=
  let c := condMask G f
  (pushed p ⟨.ifE, p.am, p.am &&& ~~~c, target, bySplit, none⟩).map (fun st => (p.am &&& c, st, p.pc + 8))

/-- IF (rule R129). -/
def execIfThen (f : FmtB) (s : State) : Res := .next (s.controlTo (.ifThen f) f (fun o => o == 0x52 || o == 0x53) (ifStep f false))

/-- Forms the new split of rule R154 after IFS has taken effect as IF; `other` is the ELSE's target. -/
def Group.fork (G : Group) (n : Nat) (resume other : W64) (cycle : Nat) : Group :=
  match G.split n with
  | none => G
  | some p =>
    match p.stack with
    | [] => G
    | e :: rest =>
      let id := ((List.range 4).find? (fun i => !(G.splits.any (fun q => q.id == i)))).getD 3
      let mine := { e with alt := 0, join := some G.nextTag }
      let p' := { p with stack := mine :: rest, own := p.own &&& ~~~e.alt }
      let q : Split := { id := id, pc := resume + 8, am := e.alt, own := e.alt, stack := { mine with addr := other } :: rest, since := cycle }
      let G := G.setSplit p'
      let below := G.splits.filter (fun x => decide (x.id < id))
      { G with splits := below ++ [q] ++ G.splits.filter (fun x => decide (id < x.id)), nextTag := G.nextTag + 1 }

/-- IFS (rules R129, R133, R154). -/
def ifsBody (f : FmtB) (s : State) : State :=
  s.begin (.ifs f) true (fun s X G p =>
    match s.ready X G (planB f) with
    | (s, false) => s
    | (s, true) =>
      let target := targetB p.pc f.off
      match s.fetchAt X G.part target.toNat with
      | (s, none) => s
      | (s, some w) =>
        if !(opcode w == 0x52 || opcode w == 0x53) then s.illegal X (bad 8)
        else match ifStep f true G p target with
          | none => s.raise X 2 0 p.stack.length
          | some (am, st, next) =>
            let two := am != 0 && (st.head?.map (fun e => e.alt != 0)).getD false && opcode w == 0x52
              && decide (G.splits.length < 4) && !G.inHandler && G.ra.isNone
            let s := s.updGroup X.core X.slot (fun G => G.place X.split (advance am st next))
            let s := if two then s.updGroup X.core X.slot (fun G => G.fork X.split target (targetB target (decodeB w).off) s.cycle) else s
            s.postControl X (planB f) f.y)
def execIfs (f : FmtB) (s : State) : Res := .next (ifsBody f s)

/-- ELSE's step (rule R129). -/
def elseStep (_G : Group) (p : Split) (target : W64) : Step? :=
  match p.stack with
  | [] => none
  | e :: rest => if e.kind == .ifE then some (e.alt, { e with alt := 0, addr := target } :: rest, p.pc + 8) else none
/-- ELSE (rule R129). -/
def execElseArm (f : FmtB) (s : State) : Res := .next (s.controlTo (.elseArm f) f (fun o => o == 0x53) elseStep)

/-- ENDIF's own step (rule R129). -/
def endifStep (p : Split) : Step? :=
  match p.stack with
  | [] => none
  | e :: rest => if e.kind == .ifE then some (e.outer, rest, p.pc + 8) else none

/-- The live split other than `n` that holds tag `j` (rule R155). -/
def Group.holder (G : Group) (n j : Nat) : Option Split := G.splits.find? (fun q => q.id != n && q.tags.contains j)

/-- The stacks of two merging splits, entry by entry (rule R155). -/
def mergeStacks (a b : List Entry) : List Entry :=
  (a.zip b).map (fun (x, y) => { x with
    outer := x.outer &&& y.outer
    alt := if x.kind == .loopE then x.alt ||| y.alt else if x.kind == .ifE then x.alt &&& y.alt else x.alt })

/-- The merge of rule R155: the holder with the lower number goes on from its ENDIF, and the other ends. DESIGN CHOICE: the one that goes
on counts as having issued in this cycle for its age, and the arriving one is what its slot issued last, though it may be the one that
ends (log entry 141). -/
def Group.merge (G : Group) (p q : Split) (cycle : Nat) : Group :=
  let S := if p.id < q.id then p else q
  let O := if p.id < q.id then q else p
  let S' := { S with stack := mergeStacks S.stack O.stack, own := S.own ||| O.own, wait := .ready, waited := false, word := none,
                     stall := 0, since := cycle, aged := false }
  let G := { (G.orphan O.id).setSplit S' with splits := (G.setSplit S').splits.filter (fun x => x.id != O.id) }
  match endifStep S' with
  | none => G
  | some (am, st, next) => G.place S.id (advance am st next)

/-- ENDIF (rules R129, R155). -/
def endifBody (f : FmtB) (s : State) : State :=
  s.begin (.endif f) true (fun s X G p =>
    match s.ready X G {} with
    | (s, false) => s
    | (s, true) =>
      match endifStep p with
      | none => s.raise X 2 0 p.stack.length
      | some (am, st, next) =>
        match (p.stack.head?.bind (fun e => e.join)).bind (G.holder p.id) with
        | none => (s.updGroup X.core X.slot (fun G => (G.place X.split (advance am st next)).wakeMerge)).postControl X {} f.y
        | some q =>
          if q.wait == .merge && (q.stack.head?.bind (fun e => e.join)) == (p.stack.head?.bind (fun e => e.join)) then
            (s.updGroup X.core X.slot (fun G => G.merge p q s.cycle)).postControl X {} f.y
          else s.await X .merge 5)
def execEndif (f : FmtB) (s : State) : Res := .next (endifBody f s)

/-! ### LOOP, ENDLOOP, BREAK, CONTINUE -/

/-- LOOP (rule R129). -/
def loopStep (_G : Group) (p : Split) (target : W64) : Step? :=
  (pushed p ⟨.loopE, p.am, 0, target, false, none⟩).map (fun st => (p.am, st, p.pc + 8))
def execLoop (f : FmtB) (s : State) : Res := .next (s.controlTo (.loop f) f (fun o => o == 0x55) loopStep)

/-- ENDLOOP's step (rule R129). -/
def endloopStep (f : FmtB) (G : Group) (p : Split) (target : W64) : Step? :=
  match p.stack with
  | [] => none
  | e :: rest =>
    if e.kind != .loopE then none
    else
      let again := (p.am ||| e.alt) &&& condMask G f
      if again != 0 then some (again, { e with alt := 0 } :: rest, target + 8) else some (e.outer, rest, p.pc + 8)
/-- ENDLOOP (rule R129). -/
def execEndloop (f : FmtB) (s : State) : Res := .next (s.controlTo (.endloop f) f (fun o => o == 0x54) (endloopStep f))

/-- The stack with the lanes of `x` removed from the IF entries above the innermost LOOP entry, and added to its CONT for
CONTINUE; none where a CALL entry or the end comes first (rule R130). -/
def leaveLoop (x : Mask) (cont : Bool) (st : List Entry) : Option (List Entry) :=
  match st with
  | [] => none
  | e :: rest =>
    match e.kind with
    | .callE => none
    | .loopE => some ((if cont then { e with alt := e.alt ||| x } else e) :: rest)
    | .ifE => (leaveLoop x cont rest).map (fun r => e.remove x :: r)

/-- The step of BREAK and CONTINUE (rule R130). -/
def leaveStep (f : FmtB) (cont : Bool) (G : Group) (p : Split) (_target : W64) : Step? :=
  let x := p.am &&& condMask G f
  (leaveLoop x cont p.stack).map (fun st => (p.am &&& ~~~x, st, p.pc + 8))
/-- BREAK (rule R130). -/
def execBreakLoop (f : FmtB) (s : State) : Res := .next (s.controlTo (.breakLoop f) f (fun o => o == 0x55) (leaveStep f false))
/-- CONTINUE (rule R130). -/
def execContinueLoop (f : FmtB) (s : State) : Res := .next (s.controlTo (.continueLoop f) f (fun o => o == 0x55) (leaveStep f true))

/-! ### CALL and RET (rule R131) -/

/-- CALL's step. -/
def callStep (f : FmtB) (G : Group) (p : Split) (target : W64) : Step? :=
  let x := p.am &&& condMask G f
  if x == 0 then some (p.am, p.stack, p.pc + 8)
  else (pushed p ⟨.callE, p.am, 0, p.pc + 8, false, none⟩).map (fun st => (x, st, target))
/-- CALL (rule R131). -/
def execCall (f : FmtB) (s : State) : Res := .next (s.controlTo (.call f) f opAssigned (callStep f))

/-- The stack with the lanes of `x` removed from every entry above the innermost CALL; none where there is no CALL. -/
def leaveCall (x : Mask) (st : List Entry) : Option (List Entry) :=
  match st with
  | [] => none
  | e :: rest => if e.kind == .callE then some (e :: rest) else (leaveCall x rest).map (fun r => e.remove x :: r)
/-- RET's step. -/
def retStep (f : FmtB) (_s : State) (_X : Ctx) (G : Group) (p : Split) : Step? :=
  let x := p.am &&& condMask G f
  (leaveCall x p.stack).map (fun st => (p.am &&& ~~~x, st, p.pc + 8))
/-- RET (rule R131). -/
def execRet (f : FmtB) (s : State) : Res := .next (s.control (.ret f) f (retStep f))

end Sys2Proof.Machine
end

