-- ==== Sys2Proof/Machine/System.lean ====
section
/-! DEFINITION. Row 0x0_: system instructions (rules R136 to R145), and the events of issue, completion, spilling, traps and
accumulator allocation (rules R19, R20, R25, R32, R159, R161, R224, R403, R405). -/

namespace Sys2Proof.Machine

/-! ### NOP, EXIT, TRAP, BKPT, SAFEPT, RTH -/

/-- The plan of an instruction that reads its guard alone. -/
def planGuard (ge gn : BitVec 1) (g : BitVec 7) : Plan := ({} : Plan).guard ge gn g

/-- NOP (rule R137). -/
def execNop (f : FmtS) (s : State) : Res := .next (s.begin (.nop f) false (fun s X G _ => s.compute X G {} f.y []))

/-- Ends lanes `x` (rules R138, R156): removed from AM and from every mask of every split; a split with no lane left ends, and the
issuing split advances. -/
def Group.exitLanes (G : Group) (n : Nat) (x : Mask) : Group :=
  let leave (p : Split) : Split := { p with am := p.am &&& ~~~x, own := p.own &&& ~~~x, stack := p.stack.map (fun e => e.remove x) }
  let G := { G with splits := G.splits.map leave }
  match G.split n with
  | none => G
  | some p => if p.own == 0 then G.dropSplit n else G.place n (advance p.am p.stack (p.pc + 8))

/-- EXIT (rule R138). -/
def exitBody (f : FmtS) (s : State) : State :=
  s.begin (.exit f) false (fun s X G p =>
    let P := planGuard f.ge f.gn f.g
    match s.ready X G P with
    | (s, false) => s
    | (s, true) =>
      let x := activeLanes G p f.ge f.gn f.g
      if x == 0 then s.post X P f.y none { id := 0, split := 0, pc := 0 } 0
      else (s.updGroup X.core X.slot (fun G => (G.exitLanes X.split x).latchStop)).postControl X P f.y)
def execExit (f : FmtS) (s : State) : Res := .next (exitBody f s)

/-- TRAP and BKPT (rule R139). -/
def State.softTrap (s : State) (i : Instr) (f : FmtS) (code : Nat) : State :=
  s.begin i false (fun s X G p =>
    let P := planGuard f.ge f.gn f.g
    match s.ready X G P with
    | (s, false) => s
    | (s, true) =>
      if activeLanes G p f.ge f.gn f.g == 0 then s.post X P f.y none { id := 0, split := 0, pc := 0 } 0
      else s.raise X code 0 f.sel.toNat)
/-- TRAP (rule R139). -/
def execTrap (f : FmtS) (s : State) : Res := .next (s.softTrap (.trap f) f 11)
/-- BKPT (rule R139). -/
def execBkpt (f : FmtS) (s : State) : Res := .next (s.softTrap (.bkpt f) f 12)

/-- SAFEPT (rules R140, R416): a NOP, or the split stops with its safe point's mask noted. -/
def safeptBody (f : FmtS) (s : State) : State :=
  s.begin (.safept f) false (fun s X G _ =>
    if G.preempt.isSome && !G.inHandler then
      let m := (match s.launches.find G.lid with | some L => L.safe.getD f.sel.toNat 0 | none => 0)
      (s.updGroup X.core X.slot (fun G => { G with safeMask := some (m ||| G.safeMask.getD 0) })).await X .safe 3
    else s.compute X G {} f.y [])
def execSafept (f : FmtS) (s : State) : Res := .next (safeptBody f s)

/-- RTH (rules R144, R166, R407). -/
def rthBody (f : FmtS) (s : State) : State :=
  s.begin (.rth f) true (fun s X G _ => match s.ready X G {} with
    | (s, false) => s
    | (s, true) => (s.returnTrap X.core X.slot).slotIssued X G f.y)
def execRth (f : FmtS) (s : State) : Res := .next (rthBody f s)

/-! ### System registers (rules R33 to R37, R58, R141, R142) -/

/-- The team of a group. -/
def State.teamOf (s : State) (G : Group) : Team :=
  match s.teams.find G.tid with
  | some T => T
  | none => { tid := 0, lid := 0, index := 0, part := 0, core := 0, pair := false, groups := 0, w := 0, prio := 0, gang := false }

/-- `sys.pool` (rule R35). -/
def State.poolWord (s : State) (X : Ctx) (G : Group) : W64 :=
  w64 (at_ G.spillcnt 48 + at_ G.resv 32 + at_ (s.core X.core).free 16 + G.held)

/-- The value of the system register SEL, in a lane (rules R33, R58). -/
def State.sysReg (s : State) (X : Ctx) (G : Group) (sel lane : Nat) : W64 :=
  match sel with
  | 0 => w64 lane
  | 1 => w64 G.idx
  | 2 => w64 G.tindex
  | 3 => w64 (s.placeOf X.core X.slot)
  | 4 => w64 s.now
  | 5 => s.poolWord X G
  | 6 => G.spill
  | 7 => G.deadread
  | 8 => G.sendstat
  | 9 => G.trapcause
  | 10 => G.trappc
  | 11 => w64 (at_ (s.teamOf G).span 16 + (s.teamOf G).base)
  | 12 => w64 (s.teamOf G).limit
  | 13 => G.drift
  | _ =>
    let t := G.treg ((sel - 0x40) / 4)
    match sel % 4 with
    | 0 => t.w0
    | 1 => t.w1
    | _ => t.w2

/-- SREAD (rule R141). -/
def sreadBody (f : FmtS) (s : State) : State :=
  s.begin (.sread f) false (fun s X G p =>
    let sel := f.sel.toNat
    let m := activeLanes G p f.ge f.gn f.g
    let wide := f.sop == 1 || f.sd == spUni
    let P := (planGuard f.ge f.gn f.g).dst f.sd f.d.toNat (f.sop == 1)
    let P := if decide (0x40 ≤ sel) then { P with rt := [(sel - 0x40) / 4] } else P
    s.compute X G P f.y (putAll G.w m f.sd f.d.toNat wide false (fun l => (s.sysReg X G sel l).toNat)))
def execSread (f : FmtS) (s : State) : Res := .next (sreadBody f s)

/-- Makes an accumulator allocation request (rule R224): the team's request takes its place in the order of its core, or of both
cores of a pair. -/
def State.requestRows (s : State) (tid rows : Nat) : State :=
  let (n, s) := s.fresh
  match s.teams.find tid with
  | none => s
  | some T =>
    let r : AllocReq := ⟨tid, Nat.min rows 512, n⟩
    let add (s : State) (c : Nat) : State := s.updCore c (fun k => { k with allocs := k.allocs ++ [r] })
    let s := { s with teams := s.teams.set tid { T with req := some (Nat.min rows 512, n) } }
    if T.pair then add (add s T.core) (partnerOf T.core) else add s T.core

/-- The effect of SWRITE on a register other than `sys.awlimit` (rules R33, R37, R142, R197, R223). -/
def State.writeSys (s : State) (X : Ctx) (G : Group) (sel : Nat) (v : W64) : State :=
  match sel with
  | 7 => s.updGroup X.core X.slot (fun G =>
      let d := setFld (setFld G.deadread 16 32 (fld v 16 32)) 1 1 (fld v 1 1)
      { G with deadread := if fld v 0 1 == 1 then setFld d 0 1 0 else d })
  | 8 => s.updGroup X.core X.slot (fun G => { G with sendstat := v })
  | 11 => if G.idx == 0 then s.updTeam G.tid (fun T => { T with span := fld v 16 9 }) else s
  | _ => s

/-- SWRITE (rules R142, R224). DESIGN CHOICE: a second write of REQ waits in UNIT while the team's request is pending (log entry 112). -/
def swriteBody (f : FmtS) (s : State) : State :=
  s.begin (.swrite f) false (fun s X G p =>
    let P := { planGuard f.ge f.gn f.g with rk := [f.a.toNat] }
    let v := G.uni f.a.toNat
    let some' := activeLanes G p f.ge f.gn f.g != 0
    let inf : Inflight := { id := 0, split := 0, pc := 0 }
    if f.sel == 0xC && some' && G.idx == 0 then
      match s.ready X G P with
      | (s, false) => s
      | (s, true) =>
        if (s.teamOf G).req.isSome then s.stall X 14
        else s.issueWith X G P f.y { inf with kind := .alloc } (fun s => s.requestRows G.tid (fld v 16 10))
    else s.issueWith X G P f.y inf (fun s => if some' then s.writeSys X G f.sel.toNat v else s))
def execSwrite (f : FmtS) (s : State) : Res := .next (swriteBody f s)

/-- Whether every earlier instruction of a split has completed, its stores and scatters at their homes among them (rule R143). -/
def State.splitDrained (s : State) (X : Ctx) (G : Group) : Bool :=
  !(G.infl.any (fun i => i.split == X.split)) && !((s.core X.core).homeq.any (fun h => h.ofSplit G.gid X.split G.nextIid))
    && !((s.core X.core).packets.any (fun p => p.write && p.reqs.any (fun q => q.gid == G.gid && q.split == X.split)))

/-- The clock that CLK writes, sampled in cycle `at'` (rule R143): the timestamp of rule R447, or the core's cycles since its reset. -/
def State.clock (s : State) (c : Nat) (sel : BitVec 14) (at' : Nat) : Nat :=
  if sel == 0 then s.ts0 + (at' - s.tsCycle) / 2 else at' - (s.core c).born

/-- CLK (rules R143, R257): one whose split had completions outstanding when it came to it samples in the cycle of the last of them. -/
def clkBody (f : FmtS) (s : State) : State :=
  s.begin (.clk f) false (fun s X G p =>
    if f.sop == 1 && !(s.splitDrained X G) then s.await X .ready 7
    else
      let m := activeLanes G p f.ge f.gn f.g
      let v := s.clock X.core f.sel (if f.sop == 1 && (p.waited || decide (p.since < p.doneAt)) then p.doneAt else s.cycle)
      s.compute X G ((planGuard f.ge f.gn f.g).dst f.sd f.d.toNat true) f.y (putAll G.w m f.sd f.d.toNat true false (fun _ => v % 2 ^ 64)))
def execClk (f : FmtS) (s : State) : Res := .next (clkBody f s)

/-! ### Accumulator allocation (rules R224, R225) -/

/-- The cores a team resides on. -/
def Team.cores (T : Team) : List Nat := if T.pair then [T.core, partnerOf T.core] else [T.core]

/-- Whether an entry of a core's term queue belongs to a team. -/
def Core.termBusy (k : Core) (tid : Nat) : Bool := (k.tq ++ k.trun).any (fun e => e.tid == tid)

/-- Whether rows [b, b + n) of the team's cores are held by no other team. -/
def State.rowsFree (s : State) (T : Team) (b n : Nat) : Bool :=
  !(s.teams.any (fun (t, U) => t != T.tid && (U.state == .resident || U.state == .saving)
    && U.cores.any (fun c => T.cores.contains c) && decide (b < U.limit) && decide (U.base < b + n)))

/-- The lowest free run of `n` rows for a team. -/
def State.findRows (s : State) (T : Team) (n : Nat) : Option Nat :=
  (List.range (Config.accRows + 1)).find? (fun b => decide (b + n ≤ Config.accRows) && s.rowsFree T b n)

/-- An accumulator store with rows [b, b + n) zero and unmarked; words are indexed by row × 1,024 + column. -/
def Core.zeroRows (k : Core) (b n : Nat) : Core :=
  { k with acc := k.acc.filter (fun e => !(decide (b * 1024 ≤ e.1) && decide (e.1 < (b + n) * 1024)))
           marks := k.marks.filter (fun e => !(decide (b ≤ e.1) && decide (e.1 < b + n))) }

/-- Whether a term instruction of a team has not completed (rule R224). -/
def State.termBusy (s : State) (T : Team) : Bool :=
  T.cores.any (fun c => (s.core c).termBusy T.tid || (s.core c).slots.any (fun e => e.2.tid == T.tid && e.2.infl.any (fun i => i.kind == .term || i.term)))

/-- Whether a team's allocation request may be served: its earlier term instructions are done, and it is first on its cores. -/
def State.allocReady (s : State) (T : Team) : Bool :=
  T.req.isSome && !s.termBusy T && T.cores.all (fun c => ((s.core c).allocs.head?.map (fun r => r.tid == T.tid)).getD false)

/-- ACCUMULATOR_ALLOCATION (rule R224): the team's earlier rows are released once its term instructions are done, whatever requests
come before its own; its request is served in its turn, when a run exists. DESIGN CHOICE: between the two `sys.awbase` and `sys.awlimit`
read 0 (log entry 140). -/
def allocBody (tid : Nat) (s : State) : State :=
  match s.teams.find tid with
  | none => s
  | some T =>
    match T.req with
    | none => s
    | some (n, _) =>
      if s.termBusy T then s
      else
        let T := { T with base := 0, limit := 0 }
        let s := { s with teams := s.teams.set tid T }
        match (if !s.allocReady T then none else if n = 0 then some 0 else s.findRows T n) with
        | none => s
        | some b =>
          let T := { T with base := b, limit := b + n, req := none }
          let s := T.cores.foldl (fun s c => s.updCore c (fun k =>
            { k.zeroRows b n with allocs := k.allocs.filter (fun r => r.tid != tid) })) { s with teams := s.teams.set tid T }
          let done (G : Group) : Group :=
            if G.tid == tid then { (G.infl.filter (fun i => i.kind == .alloc)).foldl (fun G i => G.noteDone i.split s.cycle) G with
                                   infl := G.infl.filter (fun i => i.kind != .alloc) }
            else G
          T.cores.foldl (fun s c => s.updCore c (fun k => { k with slots := k.slots.mapV done })) s
def execAccumulatorAllocation (tid : Nat) (s : State) : Res := .next (allocBody tid s)

/-- AWLIMIT_REQ_WRITE (rule R224): the leader's write of REQ, which makes the request unless one is pending. -/
def execAwlimitReqWrite (core slot : Nat) (req : W64) (s : State) : Res :=
  .next (match s.group core slot with
    | none => s
    | some G => if G.idx == 0 && (s.teamOf G).req.isNone then s.requestRows G.tid (fld req 16 10) else s)

/-! ### Issue events -/


/-- AGE_SATURATE (rule R161). -/
def execAgeSaturate (core slot split : Nat) (s : State) : Res :=
  .next (s.updGroup core slot (fun G => G.updSplit split (fun p =>
    if decide (p.since + 4096 ≤ s.cycle) then { p with aged := true } else p)))

/-- Whether a split may fetch or issue: its group is neither stopped nor waiting for a bank, and no other split runs a handler
(rules R157, R405, R416). -/
def Group.mayRun (G : Group) (p : Split) : Bool :=
  !G.stopped && G.entry.isNone && p.wait == .ready && (match G.frame with | some f => f.split == p.id | none => true)

/-- The rank of a deferred cause at one boundary (rule R402). -/
def causeRank (q : Cause) : Nat := if q.code == 13 then 0 else if q.code == 16 then 1 else 2

/-- The cause of a list that is taken first (rule R402). -/
def firstCause (l : List (Cause × Split)) : Option (Cause × Split) :=
  l.foldl (fun b q => match b with
    | none => some q
    | some r => if causeRank q.1 < causeRank r.1 then some q else some r) none

/-- The split that takes a deferred cause (rule R403): the read's own for POISON while it lives, else the lowest. -/
def Group.causeSplit (G : Group) (q : Cause) : Option Split :=
  match (if q.code == 13 then G.split q.split else none) with
  | some p => some p
  | none => G.splits.head?

/-- Whether a split is at a boundary or in a wait at which it takes a deferred cause (rule R403). -/
def Split.atBoundary (p : Split) : Bool :=
  match p.wait with
  | .ready | .merge | .barrier _ | .arrival _ | .counter _ | .fault => true
  | _ => false

/-- The deferred causes that a group can take now, with their splits (rule R403): those whose split is at a boundary. -/
def Group.dueCauses (G : Group) : List (Cause × Split) :=
  if G.inHandler || G.entry.isSome || G.ra.isSome || G.stopped then []
  else (G.causes.filterMap (fun q => (G.causeSplit q).map (fun p => (q, p)))).filter (fun x => x.2.atBoundary)

/-- The one that is taken first, with its split (rule R402). -/
def Group.dueCause (G : Group) : Option (Cause × Split) := firstCause G.dueCauses

/-- Whether a split takes a deferred cause before its next instruction (rules R402, R403). -/
def Group.heldForCause (G : Group) (split : Nat) : Bool := G.dueCauses.any (fun x => x.2.id == split)

/-- INSTRUCTION_FETCH (rules R159, R276, R402): a split that takes a deferred cause at its next boundary does not fetch. -/
def execInstructionFetch (core slot split : Nat) (s : State) : Res :=
  .next (match (s.group core slot).bind (fun G => (G.split split).map (fun p => (G, p))) with
    | some (G, p) =>
      if G.mayRun p && p.word.isNone && !G.heldForCause split then s.fetch ⟨core, slot, split⟩ else s
    | none => s)

/-! ### Spills and reloads (rules R20, R25, R27) -/

/-- SPILL_WRITEOUT_DONE (rules R25, R27): the value reaches the spill area, after an earlier one of the same register, and the granules
return to `free`; where it cannot be written, the launch ends, whether or not its group is still resident. -/
def spillDone (core wid : Nat) (s : State) : State :=
  match (s.core core).writeouts.find? (fun w => w.id == wid) with
  | none => s
  | some w =>
    if s.pathHeld w.part w.va (4 * w.val.length)
        || ((s.core core).writeouts.find? (fun x => x.gid == w.gid && x.reg == w.reg)).any (fun x => x.id != wid) then s else
    let s := s.updCore core (fun k => { k with writeouts := k.writeouts.filter (fun x => x.id != wid) })
    match s.writeLong w.part w.va ((w.val.map (fun (x : W32) => bytesOf x.toNat 4)).flatten) with
    | (s, true) => s
    | (s, false) => s.spillFault w.lid
def execSpillWriteoutDone (core wid : Nat) (s : State) : Res := .next (spillDone core wid s)

/-- The lanes of `n` words of bytes. -/
def lanesOfBytes (n : Nat) (b : List Byte) : Lanes := lanesOf n (fun l => w32 (numOf ((b.drop (4 * l)).take 4)))

/-- RELOAD_DONE (rule R20), after the register's write-out (rule R25). -/
def reloadDone (core slot reg : Nat) (s : State) : State :=
  match s.group core slot with
  | none => s
  | some G =>
    match G.reloads.find? (fun r => r.reg == reg) with
    | none => s
    | some r =>
      if (s.core core).writeouts.any (fun w => w.gid == G.gid && w.reg == reg) || s.pathHeld G.part (G.spillVa reg) (4 * G.w) then s
      else
        match s.readLong G.part (G.spillVa reg) (4 * G.w) with
        | (s, none) => s.spillFault G.lid
        | (s, some b) =>
          let v := lanesOfBytes G.w b
          (s.count G.part 11 1).updGroup core slot (fun G =>
            let x := G.vreg reg
            let x := if r.early then { x with early := some v } else { x with st := .mapped, val := v, pin := false, early := none }
            { G.setV reg x with reloads := G.reloads.filter (fun r => r.reg != reg) })
def execReloadDone (core slot reg : Nat) (s : State) : Res := .next (reloadDone core slot reg s)

/-! ### Deferred causes and handler banks (rules R32, R402, R403, R405) -/

/-- The first element that satisfies a condition removed. -/
def dropFirst {α : Type} (l : List α) (f : α → Bool) : List α :=
  match l with
  | [] => []
  | x :: rest => if f x then rest else x :: dropFirst rest f

/-- CAUSE_TAKEN (rules R296, R403, R405): the group takes its due deferred cause at the split's next instruction; for POISON
`sys.trappc` holds the reading instruction's address. -/
def State.takeDue (s : State) (core slot : Nat) : State :=
  match s.group core slot with
  | none => s
  | some G =>
    match G.dueCause with
    | none => s
    | some (q, p) =>
      (s.setGroup core slot { G with causes := dropFirst G.causes (fun x => x == q) }).takeCause core slot
        { q with deferred := true, split := p.id, pc := if q.code == 13 then q.pc else p.pc, ra := p.pc }
def execCauseTaken (core slot : Nat) (s : State) : Res := .next (s.takeDue core slot)

/-- HANDLER_BANK_GRANT (rule R32): the oldest group of the core that waits for a bank receives one when the reserve has room. -/
def grantBank (core : Nat) (s : State) : State :=
  let k := s.core core
  let waiting := k.slots.filter (fun e => e.2.entry.isSome && decide (k.trapUsed + e.2.w ≤ Config.trapGranules))
  match waiting.foldl (fun (b : Option (Nat × Group)) e => match b with
      | none => some e
      | some x => if e.2.admitted < x.2.admitted then some e else some x) none with
  | none => s
  | some (g, G) =>
    match G.entry with
    | none => s
    | some q => s.setGroup core g (G.enter (s.part G.part).trapvec q)
def execHandlerBankGrant (core : Nat) (s : State) : Res := .next (grantBank core s)

end Sys2Proof.Machine
end

