-- ==== Sys2Proof/Machine/Local.lean ====
section
/-! DEFINITION. The local store and its stash windows (rules R261 to R266), barrier objects (rules R179 to R185) and arrival
words (rules R267, R268): the accesses that every instruction, copy and unit makes through them. -/

namespace Sys2Proof.Machine

/-! ### Extents and windows -/

/-- The check that LDL makes: bytes o to o + n − 1 lie within the team's reservations (rule R262). -/
def Team.lsOk (T : Team) (o : Int) (n : Nat) : Bool := decide (0 ≤ o) && decide (o + n ≤ T.lsz)

/-- The window that maps a local-store offset, with its number and the line index in it (rule R264). -/
def Team.winAt (T : Team) (o : Nat) : Option (Nat × Win × Nat) :=
  (T.wins.find? (fun e => decide (e.2.off ≤ o) && decide (o < e.2.off + 128 * e.2.lines))).map
    (fun e => (e.1, e.2, (o - e.2.off) / 128))

/-- Whether a line state serves an access (rule R265). -/
def serves (write : Bool) (st : Option (LineSt × Nat)) : Bool :=
  match st with
  | none => false
  | some (.m, _) => true
  | some (_, _) => !write

/-- The window lines among `n` bytes from `o` that an access must first fill or own: window, line. -/
def Team.lacks (T : Team) (o n : Nat) (write : Bool) : List (Nat × Nat) :=
  ((List.range ((o % 128 + n + 127) / 128)).map (fun i => o / 128 * 128 + 128 * i)).filterMap (fun a =>
    match T.winAt a with
    | some (w, W, i) => if serves write (W.st.find i) then none else some (w, i)
    | none => none)

/-- The physical line that a window holds at a local-store offset, and the window. -/
def Team.lineAt (T : Team) (o : Nat) : Option (Nat × Nat) :=
  match T.winAt o with
  | some (w, W, i) => (W.st.find i).map (fun e => (e.2, w))
  | none => none

/-- Asks for the fill or ownership of window lines: window, line index, physical line. -/
def Team.demand (T : Team) (ls : List (Nat × Nat × Nat)) (write : Bool) : Team :=
  ls.foldl (fun T (x : Nat × Nat × Nat) =>
    match T.wins.find x.1 with
    | none => T
    | some W =>
      let rest := W.need.filter (fun e => e.1 != x.2.1)
      let wr := write || W.need.any (fun e => e.1 == x.2.1 && e.2.1)
      { T with wins := T.wins.set x.1 { W with need := rest ++ [(x.2.1, wr, x.2.2)] } }) T

/-- Whether some 8-byte word among `n` bytes from `o` is poisoned (rule R261). -/
def Team.bad (T : Team) (o n : Nat) : Bool := T.lsBad.any (fun g => decide (o < 8 * g + 8) && decide (8 * g < o + n))

/-- The first poisoned word's offset among `n` bytes from `o`. -/
def Team.badAt (T : Team) (o n : Nat) : Nat :=
  ((T.lsBad.filter (fun g => decide (o < 8 * g + 8) && decide (8 * g < o + n))).map (fun g => 8 * g)).foldl Nat.min (8 * (o / 8) + 8 * n + 8)

/-- Bytes written to the local store of a team: word marks cleared by whole words and kept by partial ones, and the window
lines written become M (rules R261, R265, R292). -/
def Team.put (T : Team) (o : Nat) (b : List Byte) : Team :=
  let covered (g : Nat) : Bool := decide (o ≤ 8 * g) && decide (8 * g + 8 ≤ o + b.length)
  let T := { T with ls := lsSet T.ls o b, lsBad := T.lsBad.filter (fun g => !covered g) }
  ((List.range ((o % 128 + b.length + 127) / 128)).map (fun i => o / 128 * 128 + 128 * i)).foldl (fun T a =>
    match T.winAt a with
    | some (w, W, i) => match W.st.find i with
      | some (_, line) => { T with wins := T.wins.set w { W with st := W.st.set i (.m, line) } }
      | none => T
    | none => T) T

/-- A write into the local store by the agent at a place, with the machine-check record of each merge into a poisoned word, its first and
its last (rules R292, R415). -/
def State.lsWrite (s : State) (tid o : Nat) (b : List Byte) (place : Nat) : State :=
  match s.teams.find tid with
  | none => s
  | some T =>
    let T' := T.put o b
    let torn := ([o / 8, (o + b.length - 1) / 8].eraseDups).filter (fun g => T'.lsBad.contains g)
    let s := { s with teams := s.teams.set tid T' }
    if b.isEmpty then s else torn.foldl (fun s g => s.mcRecord 12 T.part (8 * g + T.lsBase) place 0) s

/-- The poisoned words among `n` bytes from `o` (rule R261). -/
def Team.badWords (T : Team) (o n : Nat) : List Nat := T.lsBad.filter (fun g => decide (o < 8 * g + 8) && decide (8 * g < o + n))

/-- Records of poisoned local-store words that the agent at a place found (rule R415). -/
def State.lsLog (s : State) (T : Team) (words : List Nat) (place : Nat) : State :=
  words.foldl (fun s g => s.mcRecord 4 T.part (8 * g + T.lsBase) place 0) s

/-! ### Filling a window's lines (rules R264, R265, R333) -/

/-- What asking for a window line gives: it stands as asked; it waits for a copy's recall; its address has no translation; or its page or
window forbids it. -/
inductive Filled where
  | done | waits
  | missing (va : Nat)
  | denied
  deriving DecidableEq, Repr

/-- The state of a window line, when it holds the physical line `line`. -/
def Win.stateOf (W : Win) (i line : Nat) : Option LineSt :=
  match W.st.find i with
  | some (st, l) => if l = line then some st else none
  | none => none

/-- A line that stands in a window, with its bytes and poisoned words where it was filled. -/
def Team.gain (T : Team) (w i line : Nat) (st : LineSt) (fill : Option (List Byte × List Nat)) : Team :=
  match T.wins.find w with
  | none => T
  | some W =>
    let o := W.off + 128 * i
    let T := match fill with
      | some (b, bad) => { T with ls := lsSet T.ls o b, lsBad := T.lsBad.filter (fun g => !(decide (o ≤ 8 * g) && decide (8 * g < o + 128))) ++ bad }
      | none => T
    { T with wins := T.wins.set w { W with st := W.st.set i (st, line) } }

/-- The second place of an owned line in a migrating page (rule R282). -/
def Team.pairs (T : Team) (w i : Nat) (m : Option (Nat × Nat)) : Team :=
  match T.wins.find w, m with
  | some W, some m => { T with wins := T.wins.set w { W with mig := W.mig.set i m } }
  | _, _ => T

/-- A window line is filled or owned from a physical line, unless a copy owns it (rule R331) or no port reaches it: the directory grants
E when no other window and no host holds it, and to a writer M, when the other copies are gone and no later gather joins an older packet
(rules R265, R285, R333). Whether it was. -/
def State.grant (s : State) (tid w i line : Nat) (write : Bool) : State × Bool :=
  match (s.teams.find tid).bind (fun T => (T.wins.find w).map (fun W => (T, W))) with
  | none => (s, true)
  | some (T, W) =>
    if s.owned line || s.barred T.part T.core line then (s, false)
    else
      let had := W.stateOf i line
      let s := (if had.isNone then s.recallAt tid w i else s).recall line (write && had.isNone)
      let s := if write then (s.holders line).foldl (fun s h => if h.1 == tid && h.2.1 == w && h.2.2.1 == i then s else s.recallAt h.1 h.2.1 h.2.2.1) s else s
      let others := s.hostHeld.contains line || (s.holders line).any (fun h => h.1 != tid || h.2.1 != w || h.2.2.1 != i)
      let q := match had with
        | some _ => (s, none)
        | none =>
          let r := (s.farRead T.core (128 * line) 128).homeRead (128 * line) 128
          ((r.1.readPoison T.part (s.corePlace T.core) (128 * line) 128).hostUsed T.part (if regionOf (128 * line) == 2 then 128 else 0), some r.2)
      let s := if write then q.1.exclusive (stackOf T.core) line else q.1
      let bad := ((List.range 4).filter (fun j => s.poisoned (128 * line + 32 * j) 32)).flatMap (fun j =>
        (List.range 4).map (fun q => (W.off + 128 * i) / 8 + 4 * j + q))
      let pair := if write then s.pairNow T.part (some (W.va + 128 * i)) line else none
      (s.updTeam tid (fun T => (T.gain w i line (if write then .m else if others then .s else .e) (q.2.map (fun b => (b, bad)))).pairs w i pair), true)

/-- A window line is filled or owned for a unit or an engine, through the page of its address now (rule R309). -/
def State.fillLine (s : State) (tid w i : Nat) (write : Bool) : State × Filled :=
  match (s.teams.find tid).bind (fun T => (T.wins.find w).map (fun W => (T, W))) with
  | none => (s, .denied)
  | some (T, W) =>
    if s.walkHeld (some T.core) T.part (W.va + 128 * i) then (s, .waits)
    else match s.translate (some T.core) T.part (W.va + 128 * i) with
    | (s, none) => (s, .missing (W.va + 128 * i))
    | (s, some e) =>
      if !e.rd || (write && !(W.wr && e.wr)) || !s.regionOk (e.pa (W.va + 128 * i)) then (s, .denied)
      else
        let q := s.grant tid w i (e.pa (W.va + 128 * i) / 128) write
        (q.1, if q.2 then .done else .waits)

/-- STASH_FILL: a wanted line is filled or owned, from the physical line that the waiting access translated to. -/
def stashFill (tid w i : Nat) (s : State) : State :=
  match ((s.teams.find tid).bind (fun T => T.wins.find w)).bind (fun W => W.need.find? (fun e => e.1 == i)) with
  | none => s
  | some (_, write, line) =>
    match s.grant tid w i line write with
    | (s, false) => s
    | (s, true) => s.updTeam tid (fun T => match T.wins.find w with
        | some W => { T with wins := T.wins.set w { W with need := W.need.filter (fun e => e.1 != i) } }
        | none => T)
def execStashFill (tid win line : Nat) (s : State) : Res := .next (stashFill tid win line s)

/-- STASH_RECALL: the directory takes a line, which is written back from M. -/
def execStashRecall (tid win line : Nat) (s : State) : Res := .next (s.recallAt tid win line)

/-- The window lines among `n` bytes from `o`. -/
def Team.winLines (T : Team) (o n : Nat) : List (Nat × Win × Nat) :=
  ((List.range ((o % 128 + n + 127) / 128)).map (fun i => o / 128 * 128 + 128 * i)).filterMap T.winAt

/-- Whether the window and the page of an owned line permit a write of a unit or an engine (rule R265). -/
def State.mayWrite (s : State) (T : Team) (W : Win) (i : Nat) : State × Filled :=
  if !W.wr then (s, .denied)
  else if s.walkHeld (some T.core) T.part (W.va + 128 * i) then (s, .waits)
  else match s.translate (some T.core) T.part (W.va + 128 * i) with
  | (s, none) => (s, .done)
  | (s, some e) => (s, if e.wr then .done else .denied)

/-- An access of a unit or an engine to local-store bytes acts through the windows too (rule R265): their lines are filled or owned
first, and a write needs the window and the page of every line to permit it. -/
def State.lsEnsure (s : State) (tid o n : Nat) (write : Bool) : State × Filled :=
  match s.teams.find tid with
  | none => (s, .denied)
  | some T => (T.winLines o n).foldl (fun (r : State × Filled) x =>
      match r with
      | (s, .done) =>
        if (T.lacks o n write).contains (x.1, x.2.2) then s.fillLine tid x.1 x.2.2 write
        else if write then s.mayWrite T x.2.1 x.2.2 else (s, .done)
      | r => r) (s, .done)

/-! ### Access by an instruction (rules R265, R295) -/

/-- What an access to local-store bytes meets in the stash windows: nothing, a line that must be filled or owned, a line whose lookup
waits for a copy, a page without a translation, or one that may not be read or written. -/
inductive LsMeets where
  | clear | held
  | fill (lines : List (Nat × Nat × Nat))
  | page (va : Nat)
  | denied
  deriving DecidableEq, Repr

/-- What an access of an instruction or a copy of a core meets (rules R264, R265): the lines it lacks need their page, and a write needs
the page and the window of every line it touches to permit it. -/
def State.lsLook (s : State) (core : Nat) (T : Team) (o n : Nat) (write : Bool) : State × LsMeets :=
  let lack := T.lacks o n write
  (T.winLines o n).foldl (fun (r : State × LsMeets) x =>
    let (w, W, i) := x
    let va := W.va + 128 * i
    let need := lack.contains (w, i)
    match r with
    | (s, .page a) => (s, .page a)
    | (s, .held) => (s, .held)
    | (s, m) =>
      if !need && !write then (s, m)
      else if s.walkHeld (some core) T.part va then (s, .held)
      else match s.translate (some core) T.part va with
        | (s, none) => if need then (s, .page va) else (s, m)
        | (s, some e) =>
          if m == .denied || (write && !(W.wr && e.wr)) || (need && (!e.rd || !s.regionOk (e.pa va))) then (s, .denied)
          else (s, if !need then m else match m with
            | .fill ls => .fill (ls ++ [(w, i, e.pa va / 128)])
            | _ => .fill [(w, i, e.pa va / 128)])) (s, .clear)

/-- Whether a store of the group into overlapping bytes waits for the ownership of a window line, or for a write a load for its fill. -/
def Group.lsPending (G : Group) (o n : Nat) (write : Bool) : Bool :=
  G.infl.any (fun i => (i.kind == .lstore || (write && i.kind == .lload && i.acc.got.isEmpty)) && i.acc.lanes.any (fun x =>
    decide (x.addr < o + n) && decide (o < x.addr + i.acc.size)))

/-- An instruction's local-store accesses after their checks: the lanes that run-ahead found without a page, and the window lines that
are missing, with the lane of each. -/
structure LsSeen where
  missed : Mask := 0
  fills : List (Nat × Nat × Nat × Nat) := []
  deriving DecidableEq, Repr

/-- Asks for window lines that an instruction waits for. -/
def State.demandAll (s : State) (tid : Nat) (ls : List (Nat × Nat × Nat)) (write : Bool) : State :=
  if ls.isEmpty then s else s.updTeam tid (fun T => T.demand ls write)

/-- Checks 5 and 6 of rule R295 for an instruction's local-store accesses (lane, offset) of `n` bytes, each over all of them; then the
lines that are missing are asked for. None where the instruction stops here. -/
def State.lsChecks (s : State) (X : Ctx) (G : Group) (P : Plan) (xs : List (Nat × Nat)) (n : Nat) (write : Bool) : State × Option LsSeen :=
  let r := xs.foldl (fun (r : State × List (Nat × Nat × LsMeets)) x =>
    let q := r.1.lsLook X.core (s.teamOf G) x.2 n write
    (q.1, r.2 ++ [(x.1, x.2, q.2)])) (s, [])
  let s := r.1
  let kind := if write then 1 else 0
  let missing := r.2.filterMap (fun x => match x.2.2 with | .page va => some (x.1, va) | _ => none)
  if r.2.any (fun x => x.2.2 == .held) || xs.any (fun x => G.lsPending x.2 n write) then (s.stall X 14, none)
  else match (if G.ra.isSome then none else missing.head?) with
  | some (l, va) => (s.pageMiss X P kind va l, none)
  | none =>
    let s := missing.foldl (fun s x => s.addPage X kind x.2) s
    match r.2.find? (fun x => x.2.2 == .denied) with
    | some (l, o, _) => (s.raise X 7 l (o % 2 ^ 19), none)
    | none =>
      let fills := (r.2.map (fun x => match x.2.2 with | .fill ls => ls.map (fun y => (x.1, y)) | _ => [])).flatten
      (s.demandAll G.tid (fills.map (fun x => x.2)) write,
        some { missed := missing.foldl (fun m x => m ||| BitVec.ofNat 64 (2 ^ x.1)) 0, fills := fills })

/-- The outcome of asking for a local-store access: it can be made now; the instruction stops here; or, in run-ahead, the page is
missing. -/
inductive LsAsk where
  | ok | stop | miss
  deriving DecidableEq, Repr

/-- Asks for one local-store access of `n` bytes at `o` of an instruction that holds its split until its bytes are there. DEDUCED: where a
stash line must come first, the instruction waits for it before it issues (log entry 137). -/
def State.lsAccess (s : State) (X : Ctx) (G : Group) (P : Plan) (o n lane : Nat) (write : Bool) : State × LsAsk :=
  match s.lsChecks X G P [(lane, o)] n write with
  | (s, none) => (s, .stop)
  | (s, some q) => if q.missed != 0 then (s, .miss) else if q.fills.isEmpty then (s, .ok) else (s.stall X 14, .stop)

/-- Wakes the splits of a team that wait on the object at offset `o`. -/
def State.wakeLocal (s : State) (tid o : Nat) : State :=
  let wake (p : Split) : Split := if p.wait == .barrier o || p.wait == .arrival o then { p with wait := .ready } else p
  let f (G : Group) : Group := if G.tid == tid && !G.stopped then { G with splits := G.splits.map wake } else G
  { s with cores := s.cores.mapV (fun k => { k with slots := k.slots.mapV f }) }

/-- The two words of a 16-byte object. -/
def Team.obj (T : Team) (o : Nat) : W64 × W64 := (w64 (numOf (T.bytes o 8)), w64 (numOf (T.bytes (o + 8) 8)))

/-- Writes the two words of an object and releases its waiters. -/
def State.putObj (s : State) (tid o : Nat) (w0 w1 : W64) (wake : Bool) (place : Nat) : State :=
  let s := s.lsWrite tid o (bytesOf w0.toNat 8 ++ bytesOf w1.toNat 8) place
  if wake then s.wakeLocal tid o else s

/-! ### Barrier objects (rules R179, R181, R182, R184) -/

/-- Whether a barrier object is initialised, and its EPOCH and GEN. -/
def barV (w0 : W64) : Bool := fld w0 63 1 == 1
def barEpoch (w0 : W64) : Nat := fld w0 48 8
def barGen (w0 : W64) : Nat := fld w0 32 16

/-- One arrival (rule R182): the first word, and whether it completed a phase. -/
def barArrive (w0 : W64) : W64 × Bool :=
  let c := fld w0 0 12 + 1
  if c == fld w0 16 12 then (setFld (setFld w0 0 12 0) 32 16 (barGen w0 + 1), true) else (setFld w0 0 12 c, false)

/-- BARINIT's words (rule R181). -/
def barInitWord (w0 : W64) (expect : Nat) : W64 := w64 (2 ^ 63 + at_ ((barEpoch w0 + 1) % 256) 48 + at_ expect 16)

/-- An engine signal (rules R180, R184, R265): an arrival when V = 1 and its EPOCH is current; else DROP counts it. A line that its
page or window forbids takes nothing. -/
def State.signal (s : State) (tid o epoch place : Nat) : State × Filled :=
  match s.lsEnsure tid o 16 true with
  | (s, .done) =>
    match s.teams.find tid with
    | none => (s, .denied)
    | some T =>
      let (w0, w1) := T.obj o
      (if T.bad o 16 then s.lsLog T (T.badWords o 16) place
        else if barV w0 && barEpoch w0 == epoch then s.putObj tid o (barArrive w0).1 w1 (barArrive w0).2 place
        else s.putObj tid o w0 (setFld w1 0 32 (satAdd (fld w1 0 32) 1 32)) false place, .done)
  | r => r

/-! ### Arrival words (rules R267, R268) -/

def awV (w1 : W64) : Bool := fld w1 17 1 == 1
def awGen (w1 : W64) : Nat := fld w1 0 16

/-- An addition of `n` bytes (rule R268): the words, and whether a phase ended. -/
def awAdd (w0 w1 : W64) (n : Nat) : W64 × W64 × Bool :=
  if !(awV w1) then (w0, setFld w1 32 32 (satAdd (fld w1 32 32) 1 32), false)
  else
    let c := fld w0 0 32 + n
    let t := fld w0 32 32
    if t ≤ c then (setFld w0 0 32 0, setFld (if t < c then setFld w1 18 1 1 else w1) 0 16 (awGen w1 + 1), true)
    else (setFld w0 0 32 c, w1, false)

/-- An engine addition of `n` bytes to the arrival word at `o`; a poisoned word that it reads is recorded (R415). -/
def State.addBytes (s : State) (tid o n place : Nat) : State × Filled :=
  match s.lsEnsure tid o 16 true with
  | (s, .done) =>
    match s.teams.find tid with
    | none => (s, .denied)
    | some T =>
      let (w0, w1) := T.obj o
      let r := awAdd w0 w1 n
      let s := s.lsLog T (T.badWords o 16) place
      (s.putObj tid o r.1 r.2.1 r.2.2 place, .done)
  | r => r

/-- AWINIT's words (rule R268). -/
def awInit (w1 : W64) (target : Nat) : W64 × W64 := (w64 (at_ target 32), w64 (2 ^ 17 + (awGen w1 + 1) % 65536))

/-! ### Barrier instructions (rules R180 to R183) -/

/-- A deferred cause of a waiting instruction (rules R180, R314, R403): the wait is abandoned and the cause pends. -/
def State.deferPoison (s : State) (X : Ctx) (info : Nat) : State :=
  s.updGroup X.core X.slot (fun G =>
    let pc := ((G.split X.split).map (fun p => p.pc)).getD 0
    let q : Cause := { code := 13, split := X.split, info := BitVec.ofNat 48 info, pc := pc, ra := pc }
    let G := G.updSplit X.split (fun p => { p with wait := .ready, waited := false, stall := 7 })
    if G.causes.contains q then G else { G with causes := G.causes ++ [q] })

/-- The common course of BARINIT, BARARV, BARWAIT and BARINV: registers, ALIGN, PROTECT, the object's presence and POISON; with no
active lane, no effect. `write`: whether the instruction changes the object. DEDUCED: an object in a stash window raises what that
access raises (rules R265, R309), though R185 does not list PAGE (log entry 114). `k` continues with the object's offset, words and
the active lanes. -/
def State.barrier (s : State) (i : Instr) (f : FmtR) (P : Plan) (write : Bool)
    (k : State → Ctx → Group → Nat → W64 × W64 → Mask → State) : State :=
  s.begin i false (fun s X G p =>
    let P0 := ({} : Plan).guard f.ge f.gn f.g
    let m := activeLanes G p f.ge f.gn f.g
    match s.ready X G { P with rp := P.rp ++ P0.rp, grd := P0.grd, neg := P0.neg } with
    | (s, false) => s
    | (s, true) =>
      if m == 0 then s.post X P0 f.y none { id := 0, split := 0, pc := 0 } 0
      else
        let v := (G.uni f.a.toNat).toNat
        let T := s.teamOf G
        if v % 16 != 0 then s.raise X 6 0 (v % 2 ^ 19)
        else if decide (2 ^ 19 ≤ v) || !(T.lsOk v 16) then s.raise X 7 0 (v % 2 ^ 19)
        else match s.lsAccess X G { P with y := f.y } v 16 0 write with
          | (s, .stop) => s
          | (s, .miss) => s
          | (s, .ok) =>
            let T := s.teamOf G
            if T.bad v 16 then
              let s := s.lsLog T (T.badWords v 16) (s.placeOf X.core X.slot)
              if p.waited then s.deferPoison X v else s.raise X 13 0 v
            else k s X G v (T.obj v) m)

def planBar (f : FmtR) (useB : Bool) : Plan := { rk := f.a.toNat :: (if useB then [f.b.toNat] else []) }
def infNone : Inflight := { id := 0, split := 0, pc := 0 }

/-- BARINIT (rule R181). -/
def execBarinit (f : FmtR) (s : State) : Res := .next (s.barrier (.barinit f) f (planBar f true) true (fun s X G o w _ =>
  let n := (G.uni f.b.toNat).toNat
  if n = 0 ∨ 4095 < n then s.raise X 10 0 o
  else (s.putObj G.tid o (barInitWord w.1 n) 0 true (s.placeOf X.core X.slot)).post X (planBar f true) f.y none infNone 0))

/-- BARINV (rule R181). DESIGN CHOICE: the object's reserved bits keep what is stored there, as under BARARV and an engine's signal (log
entry 138). -/
def execBarinv (f : FmtR) (s : State) : Res := .next (s.barrier (.barinv f) f (planBar f false) true (fun s X G o w _ =>
  let w0 := setFld (setFld w.1 48 8 (barEpoch w.1 + 1)) 63 1 0
  (s.putObj G.tid o w0 w.2 true (s.placeOf X.core X.slot)).post X (planBar f false) f.y none infNone 0))

/-- The scope at which barrier operations of a team release and acquire (rule R323). -/
def Team.barScope (T : Team) : Nat := if T.pair then 2 else 1

/-- BARARV (rules R182, R323): a releasing action, made when the split's earlier writes have reached their homes. -/
def execBararv (f : FmtR) (s : State) : Res := .next (s.barrier (.bararv f) f { planBar f false with wk := [f.d.toNat] } true (fun s X G o w _ =>
  if !(barV w.1) then s.raise X 10 0 o
  else match s.ordered X G 2 (BitVec.ofNat 3 (s.teamOf G).barScope) 14 with
    | (s, false) => s
    | (s, true) =>
      let tok := barEpoch w.1 * 2 ^ 16 + barGen w.1
      let r := barArrive w.1
      (s.putObj G.tid o r.1 w.2 r.2 (s.placeOf X.core X.slot)).post X { planBar f false with wk := [f.d.toNat] } f.y none
        { infNone with writes := [{ sp := .uni, num := f.d.toNat, word := w64 tok }] } 0))

/-- BARWAIT (rules R183, R323): one that writes 1 is an acquire. -/
def execBarwait (f : FmtR) (s : State) : Res := .next (s.barrier (.barwait f) f { planBar f true with wp := [f.d.toNat] } false (fun s X G o w m =>
  let t := G.uni f.b.toNat
  let done (r : Nat) (s : State) : State := s.post X { planBar f true with wp := [f.d.toNat] } f.y none
    { infNone with writes := putAll G.w m spPred f.d.toNat false false (fun _ => r) } 0
  if !(barV w.1) || barEpoch w.1 != fld t 16 8 then done 0 s
  else if barGen w.1 != fld t 0 16 then done 1 (s.acquire X.core G.gid (s.teamOf G).barScope)
  else s.await X (.barrier o) 6))

end Sys2Proof.Machine
end

