-- ==== Sys2Proof/Machine/Fabric.lean ====
section
/-! DEFINITION. Row 0x7_: capabilities and deliveries (rules R186 to R200). -/

namespace Sys2Proof.Machine

/-! ### Places and capabilities (rules R34, R186, R187, R199) -/

/-- The fields of a place identifier. -/
def placePkg (p : Nat) : Nat := p / 2 ^ 14 % 1024
def placeCore (p : Nat) : Nat := p / 2 ^ 13 % 2 * 96 + p / 2 ^ 6 % 128
def placeSlot (p : Nat) : Nat := p % 64

/-- The place a capability names. -/
def capPlace (c : W64) : Nat := fld c 40 24
def capGen (c : W64) : Nat := fld c 28 12
def capReg (c : W64) : Nat := fld c 21 7
def capMode (c : W64) : Nat := fld c 16 5
def capRights (c : W64) : Nat := fld c 14 2

/-- The seal of a capability's bits [63:14] under a key (rule R186). -/
def sealOf (key : W64) (c : W64) : Nat := (Config.capSeal key (c.extractLsb' 14 50)).toNat

/-- seal(place, gen, reg, mode, rights) (rule R190). -/
def mint (key : W64) (place gen reg mode rights : Nat) : W64 :=
  let c := w64 (at_ place 40 + at_ gen 28 + at_ reg 21 + at_ mode 16 + at_ rights 14)
  w64 (c.toNat + sealOf key c)

/-- The lowest scope that encloses two places (rule R199). -/
def scopeOf (p q : Nat) : Nat :=
  if p = q then 0
  else if p / 64 = q / 64 then 1
  else if p / 128 = q / 128 then 2
  else if p / 2 ^ 13 = q / 2 ^ 13 then 3
  else if p / 2 ^ 14 = q / 2 ^ 14 then 4
  else 5

/-! ### ARM, CAP, DISARM (rules R188, R190, R191) -/

/-- Granules of a group's PENDING and DELIVERED registers outside `regs` (rule R26). -/
def Group.armedGranules (G : Group) (regs : List Nat) : Nat :=
  (G.regs.v.filter (fun e => (e.2.st == .pending || e.2.st == .delivered) && !regs.contains e.1)).length * G.gran

/-- Whether ARM with `.again` at a place keeps its capability (rule R190): its last one is reusable, was minted there, and is of the
present generation. -/
def Core.reuses (k : Core) (G : Group) (place slot n : Nat) (regs : List Nat) : Bool :=
  !(regs.any (fun r => (G.vreg r).st == .pending || (G.vreg r).st == .delivered))
    && (match G.lastArms.find n with
        | some a => a.reuse && capPlace a.cap == place && a.gen == k.gen slot n
        | none => false)

/-- The ARM column of rule R20 for the earlier capabilities of `regs`: each goes stale; one of another base register advances
that register's generation, and the other half of its pair takes the DISARM column. -/
def State.armOver (s : State) (c g n : Nat) (regs : List Nat) : State :=
  regs.foldl (fun s r =>
    match s.group c g with
    | none => s
    | some G => match G.armOf r with
      | none => s
      | some (b, a) =>
        let halves := if a.pair then [b, b + 1] else [b]
        let G := halves.foldl (fun G h => if regs.contains h then G else G.setV h (disarmed (G.vreg h))) { G with arms := G.arms.erase b }
        let s := s.setGroup c g G
        if b == n && capPlace a.cap == s.placeOf c g then s else s.bumpCap a.cap) s

/-- ARM (rule R190). -/
def armBody (f : FmtR) (s : State) : State :=
  s.begin (.arm f) false (fun s X G p =>
    let m := activeLanes G p f.ge f.gn f.g
    let n := f.a.toNat
    let pair := f.ty == 3
    let regs := regsOf n pair
    let P0 := ({} : Plan).guard f.ge f.gn f.g
    let P := { P0 with wk := [f.d.toNat] }
    let need := (regs.filter (fun r => !(G.vreg r).st.holds)).length * G.gran
    let above := decide (G.resv < G.armedGranules regs + regs.length * G.gran)
    let tight := need != 0 && !((s.core X.core).fits G need)
    match s.ready X G P0 with
    | (s, false) => s
    | (s, true) =>
    if m == 0 then s.compute X G P0 f.y []
    else if decide (1 < G.splits.length) then s.raise X 3 0 G.splits.length
    else match s.ready X G P with
      | (s, false) =>
        if (above || tight) && decide (12 ≤ ((s.group X.core X.slot).bind (fun G => G.split X.split)).elim 0 (fun p => p.stall)) then s.stall X 11 else s
      | (s, true) =>
        if regs.any (G.busy .vec) || G.infl.any (fun i => i.reads.any regs.contains) then s.stall X (if above || tight then 11 else 12)
        else if above then s.stall X 11
        else
          if tight then (s.makeRoom X.core X.slot need regs []).stall X 11
          else
            let k := s.core X.core
            let reuse := bBit f 1 && k.reuses G (s.placeOf X.core X.slot) X.slot n regs
            let s := s.armOver X.core X.slot n regs
            let s := if reuse then s else s.updCore X.core (fun k => k.bumpGen X.slot n)
            let gen := (s.core X.core).gen X.slot n
            let mode := (if pair then 16 else 0) + f.opx.toNat * 2
            let keep := bBit f 0
            let cap := mint s.key (s.placeOf X.core X.slot) gen n mode (if keep then 2 else 1)
            let a : Arm := ⟨cap, gen, pair, keep⟩
            let s := s.updGroup X.core X.slot (fun G =>
              let G := regs.foldl (fun G r => G.setV r { st := .pending }) G
              { G with arms := G.arms.set n a, lastArms := G.lastArms.set n a, reloads := G.reloads.filter (fun r => !regs.contains r.reg) })
            s.post X P f.y none { infNone with writes := [{ sp := .uni, num := f.d.toNat, word := cap }] } 0)
def execArm (f : FmtR) (s : State) : Res := .next (armBody f s)

/-- CAP (rule R191). -/
def execCap (f : FmtR) (s : State) : Res := .next (s.begin (.cap f) false (fun s X G p =>
  let m := activeLanes G p f.ge f.gn f.g
  let v := match G.armOf f.a.toNat with | some (_, a) => a.cap | none => 0
  s.compute X G ((({} : Plan).guard f.ge f.gn f.g).dst spUni f.d.toNat false) f.y
    (putAll G.w m spUni f.d.toNat true false (fun _ => v.toNat))))

/-- DISARM (rule R191). -/
def disarmBody (f : FmtR) (s : State) : State :=
  s.begin (.disarm f) false (fun s X G p =>
    let m := activeLanes G p f.ge f.gn f.g
    let P := ({} : Plan).guard f.ge f.gn f.g
    if decide (1 < G.splits.length) then s.raise X 3 0 G.splits.length
    else s.issueWith X G P f.y infNone (fun s =>
      if m == 0 then s else (regsOf f.a.toNat (f.ty == 3)).foldl (fun s r => s.disarm X.core X.slot r) s))
def execDisarm (f : FmtR) (s : State) : Res := .next (disarmBody f s)

/-! ### PLACE and SCOPE (rule R199) -/

/-- PLACE. -/
def execPlace (f : FmtR) (s : State) : Res := .next (s.begin (.place f) false (fun s X G p =>
  let m := activeLanes G p f.ge f.gn f.g
  let P := { (({} : Plan).guard f.ge f.gn f.g).dst spUni f.d.toNat false with rk := [f.a.toNat] }
  s.compute X G P f.y (putAll G.w m spUni f.d.toNat true false (fun _ => capPlace (G.uni f.a.toNat)))))

/-- SCOPE. -/
def execScope (f : FmtR) (s : State) : Res := .next (s.begin (.scope f) false (fun s X G p =>
  let m := activeLanes G p f.ge f.gn f.g
  let P := { (({} : Plan).guard f.ge f.gn f.g).dst spUni f.d.toNat false with rk := [f.a.toNat] }
  let v := scopeOf (s.placeOf X.core X.slot) ((G.uni f.a.toNat).toNat % 2 ^ 24)
  s.compute X G P f.y (putAll G.w m spUni f.d.toNat true false (fun _ => v))))

/-! ### SEND and deliveries (rules R192 to R198) -/

/-- Whether a capability names another package. -/
def State.awayCap (s : State) (cap : W64) : Bool := placePkg (capPlace cap) != fld s.pkgid 0 10

/-- The counts of `sys.sendstat`, by outcome: 0 DELIVERED, 1 STALECAP, 2 OVERWRITE, 3 BADCAP (rule R197). -/
def countSend (x : W64) (o : Nat) : W64 :=
  let lo := 48 - 16 * o
  setFld x lo 16 (satAdd (fld x lo 16) 1 16)

/-- SEND (rules R192, R441). A capability of a package that no usable port reaches is dropped at once (rule R194); a delivery to another
package travels as a transaction of the delivery class. With no active lane it is complete as it issues (R446). -/
def sendBody (f : FmtR) (s : State) : State :=
  s.begin (.send f) false (fun s X G p =>
    let m := activeLanes G p f.ge f.gn f.g
    let pair := f.ty == 3
    let P := (({} : Plan).guard f.ge f.gn f.g).src spVec f.b.toNat pair f.lb
    let P := { P with rk := [f.a.toNat] }
    if m == 0 then (s.issueWith X G P f.y infNone id).complete X.core X.slot G.nextIid []
    else
      let cap := G.uni f.a.toNat
      let lo := lanesOf G.w (fun l => G.vlane f.b.toNat l)
      let hi := if pair then lanesOf G.w (fun l => G.vlane (f.b.toNat + 1) l) else []
      s.issueWith X G P f.y { infNone with kind := .send } (fun s =>
        let (did, s) := s.fresh
        let d : Delivery := { did := did, core := X.core, slot := X.slot, gid := G.gid, split := X.split, iid := G.nextIid, cap := cap,
                              mask := m &&& fullMask G.w, lo := lo, hi := hi, pair := pair, rel := f.opx.getLsbD 0,
                              place := s.placeOf X.core X.slot }
        if !s.awayCap cap then { s with deliveries := s.deliveries ++ [d] }
        else match s.sendXact X.core (placePkg (capPlace cap)) 3 (.deliver cap d.mask lo hi pair d.rel) X.slot G.gid G.nextIid 0 with
          | some (s, x) => { s with deliveries := s.deliveries ++ [{ d with xid := some x }] }
          | none => { s with deliveries := s.deliveries ++ [{ d with outcome := some 1 }] }))
def execSend (f : FmtR) (s : State) : Res := .next (sendBody f s)

/-- A delivered register: zero, then the sender's active lanes by MAP (rules R187, R193). -/
def fillLanes (w map : Nat) (m : Mask) (v : Lanes) : Lanes :=
  let low := ((List.range 64).find? (inMask m)).getD 0
  lanesOf w (fun r =>
    if map = 4 then laneOf v low
    else if 16 * map ≤ r ∧ r < 64 + 16 * map ∧ inMask m (r - 16 * map) then laneOf v (r - 16 * map)
    else 0)

/-- A group after a delivery is stored at register `n` (rules R29, R193): during run-ahead the restored map holds it too. DESIGN CHOICE:
an arrival is no write for "least recently written" (rule R25), so the register counts as never written (log entry 116). -/
def Group.store (G : Group) (n map scope : Nat) (pair : Bool) (m : Mask) (lo hi : Lanes) : Group :=
  let put (pin : Bool) (r : Regs) : Regs :=
    let one (r : Regs) (k : Nat) (v : Lanes) : Regs :=
      if (r.v.get {} k).st == .pending then { r with v := r.v.set k { st := .delivered, val := fillLanes G.w map m v, scope := scope, pin := pin } } else r
    let r := one r n lo
    if pair then one r (n + 1) hi else r
  match G.ra with
  | none => { G with regs := put false G.regs }
  | some a => { G with regs := put true G.regs, ra := some { a with regs := put true a.regs } }

/-- A receiver's pending OVERWRITE (rule R195): one at a time, with the lowest register number. -/
def Group.overwrite (G : Group) (n : Nat) : Group :=
  match G.causes.find? (fun q => q.code == 15) with
  | some q => { G with causes := updIf G.causes (fun x => x.code == 15) (fun _ => { q with info := BitVec.ofNat 48 (Nat.min q.info.toNat n) }) }
  | none => { G with causes := G.causes ++ [{ code := 15, info := BitVec.ofNat 48 n }] }

/-- Whether a group still has the register that a capability names, REG itself, armed under it (rules R188, R196). -/
def Group.keeps (G : Group) (cap : W64) : Bool :=
  match G.arms.find (capReg cap) with
  | some a => capPlace a.cap == capPlace cap && a.gen == capGen cap
  | none => false

/-- The decision on a group's registers (the last rows of rule R194): the group and the outcome; `gen` tells whether the register's
generation is the capability's. -/
def decide194 (gen : Bool) (G : Group) (cap : W64) (pair : Bool) (m : Mask) (lo hi : Lanes) (scope : Nat) : Group × Nat :=
  let n := capReg cap
  let r := match G.ra with | some a => a.regs.v.get {} n | none => G.vreg n
  let live := (r.st == .pending || r.st == .delivered) && gen && !G.ending
  if !live then (G, 1)
  else if pair != (capMode cap / 16 == 1) then (G, 3)
  else if r.st == .pending then (G.store n (capMode cap / 2 % 8) scope pair m lo hi, 0)
  else (G.overwrite n, 2)

/-- A saved group with a number, and its team (rule R194). -/
def State.savedGroup (s : State) (gid : Nat) : Option (Nat × Group) :=
  (s.teams.filterMap (fun (t, T) => (T.savedGroups.find? (fun G => G.gid == gid)).map (fun G => (t, G)))).head?

/-- Writes one register's lanes into a group's spill area (rules R27, R421): false where that cannot be. -/
def State.writeSpill (s : State) (G : Group) (n : Nat) (v : Lanes) : State × Bool :=
  s.writeLong G.part (G.spillVa n) (((List.range G.w).map (fun l => bytesOf (laneOf v l).toNat 4)).flatten)

/-- The state code of a saved register (rule R421). -/
def regCode (r : VReg) : Nat :=
  match r.st with
  | .empty => 0
  | .mapped | .spilled => 1
  | .pending => 2
  | .delivered => 3

/-- The address of a team's save slot, and of a group's section in it (rules R418, R419). -/
def State.slotVa (s : State) (T : Team) : Nat := fld (s.part T.part).savepool 22 35 * 2 ^ 22 + T.saveSlot.getD 0 * 2 ^ 22
def State.sectionVa (s : State) (T : Team) (idx : Nat) : Nat := s.slotVa T + 0x290000 + 0x4000 * idx

/-- The byte of the vector state map that holds a register's code (rule R420). -/
def Group.mapByte (G : Group) (n : Nat) : Byte :=
  BitVec.ofNat 8 ((List.range 4).foldl (fun a j => a + at_ (regCode (G.vreg (n / 4 * 4 + j))) (2 * j)) 0)

/-- The save record's word of a group's pending causes: a bit for each code (rule R420; DESIGN CHOICE, log entry 83). -/
def Group.causesWord (G : Group) : W64 := w64 (((G.causes.map (fun q => q.code)).eraseDups).foldl (fun a c => a + 2 ^ c) 0)

/-- The save record's word of a group's fault batch and its answer: the number with bit 63, or bit 62 where it was refused (rule R420;
DESIGN CHOICE, log entry 83). -/
def Group.batchWord (G : Group) : W64 :=
  match (G.splits.filterMap (fun p => p.batch)).head? with
  | some b => w64 (2 ^ 63 + b)
  | none => if G.splits.any (fun p => p.refused.isSome) then w64 (2 ^ 62) else 0

/-- Where the pending causes, the fault batch and the vector state map stand in a group's section (rule R420). -/
def causesAt : Nat := 0x1820
def batchAt : Nat := 0x1838
def mapAt : Nat := 0x1840

/-- A change of a group's section in a save record (rules R194, R414, R421): a write that fails ends the launch (R418). -/
def State.putSection (s : State) (t : Nat) (G : Group) (off : Nat) (b : List Byte) : State :=
  match s.teams.find t with
  | none => s
  | some T =>
    let x := s.writeLong G.part (s.sectionVa T G.idx + off) b
    if x.2 then x.1 else (x.1.mcRecord 9 G.part (s.sectionVa T G.idx + off) 0 0).spillFault G.lid

/-- A delivery for a saved group (rules R194, R421): an accepted value goes to its spill area, and its code in the save record becomes 11;
an OVERWRITE pends in the save record. -/
def State.deliverSaved (s : State) (t : Nat) (G : Group) (r : Group × Nat) (n : Nat) (pair : Bool) : State :=
  let s := s.updTeam t (fun T => { T with savedGroups := updIf T.savedGroups (fun H => H.gid == G.gid) (fun _ => r.1) })
  if r.2 = 2 then s.putSection t r.1 causesAt (bytesOf r.1.causesWord.toNat 8)
  else if r.2 != 0 then s
  else (regsOf n pair).foldl (fun s n =>
    let x := s.writeSpill r.1 n (r.1.vreg n).val
    let s := if x.2 then x.1 else (x.1.mcRecord 9 G.part (G.spillVa n) 0 0).spillFault G.lid
    s.putSection t r.1 (mapAt + n / 4) [r.1.mapByte n]) s

/-- Whether a group's section in its save record lies in a line that a copy owns (rule R331). -/
def State.sectionHeld (s : State) (t : Nat) (G : Group) : Bool :=
  (s.teams.find t).any (fun T => s.pathHeld G.part (s.sectionVa T G.idx + 0x1800) 0x80)

/-- Whether a delivery for a saved group waits for a copy that owns a line of its spill area or its save record (rule R331). -/
def State.saveHeld (s : State) (cap : W64) (pair : Bool) : Bool :=
  match ((s.core (placeCore (capPlace cap))).fwd.find (placeSlot (capPlace cap))).bind (fun f => if f.newPlace.isSome then none else s.savedGroup f.gid) with
  | some (t, G) => s.sectionHeld t G || (regsOf (capReg cap) pair).any (fun n => s.pathHeld G.part (G.spillVa n) (4 * G.w))
  | none => false

/-- The deciding of a delivery at a core's slot (rules R188, R194, R196): the state and the outcome. A resident group's register must still
be armed under the capability itself, which a group that came from elsewhere is not. DESIGN CHOICE: while the receiving group is saved
and resides nowhere, the scope of a `.rel` delivery (rule R198) is taken with the place that the capability names (log entry 115). -/
def State.deliverAt (s : State) (core slot : Nat) (cap : W64) (pair : Bool) (m : Mask) (lo hi : Lanes) (from' : Nat) : State × Nat :=
  match (s.core core).fwd.find slot with
  | some f =>
    match f.newPlace with
    | some (c, g) =>
      match s.group c g with
      | some G =>
        if G.gid == f.gid then
          let r := decide194 (G.keeps cap) G cap pair m lo hi (scopeOf from' (s.placeOf c g))
          (s.setGroup c g r.1, r.2)
        else (s, 1)
      | none => (s, 1)
    | none =>
      match s.savedGroup f.gid with
      | some (t, G) =>
        let r := decide194 (G.keeps cap) G cap pair m lo hi (scopeOf from' (s.placeOf core slot))
        (s.deliverSaved t G r (capReg cap) pair, r.2)
      | none => (s, 1)
  | none =>
    match s.group core slot with
    | some G =>
      let r := decide194 ((s.core core).gen slot (capReg cap) == capGen cap && G.keeps cap) G cap pair m lo hi (scopeOf from' (s.placeOf core slot))
      (s.setGroup core slot r.1, r.2)
    | none => (s, 1)

/-- The rows of rule R194 that the receiving core decides. -/
def State.decideDelivery (s : State) (cap : W64) (pair : Bool) (m : Mask) (lo hi : Lanes) (from' : Nat) : State × Nat :=
  let sl := fld cap 0 14
  let now := sl == sealOf s.key cap
  let before := decide (1 < s.resets) && sl == sealOf s.prevKey cap
  let pl := capPlace cap
  if (!now && !before) || capRights cap == 0 || capRights cap == 3 then (s, 3)
  else if !now then (s, 1)
  else if decide (96 ≤ pl / 64 % 128) || (s.core (placeCore pl)).power != .live then (s, 1)
  else
    let r := s.deliverAt (placeCore pl) (placeSlot pl) cap pair m lo hi from'
    if r.2 = 0 then (r.1.count (s.partOf (placeCore pl)) 13 1, 0) else r

/-- Where a delivery's receiver is now: the capability's place, or in this package where its group resumed (rules R196, R198, R441). -/
def State.receiverPlace (s : State) (cap : W64) : Nat :=
  let pl := capPlace cap
  if s.awayCap cap then pl
  else match (s.core (placeCore pl)).fwd.find (placeSlot pl) with
  | some f => match f.newPlace with | some (c, g) => s.placeOf c g | none => pl
  | none => pl

/-- The group that a capability's place means (rules R196, R198): the one whose FORWARD slot it is, else the slot's own; 0 for none, or
one of another package. -/
def State.receiver (s : State) (cap : W64) : Nat :=
  let pl := capPlace cap
  if s.awayCap cap then 0
  else match (s.core (placeCore pl)).fwd.find (placeSlot pl) with
  | some f => f.gid
  | none => match s.group (placeCore pl) (placeSlot pl) with | some G => G.gid | none => 0

/-- Whether the release of a delivery with `.rel` has taken effect (rules R198, R271): the split's earlier writes are home, and above the
pair the dirty bytes of the pair. -/
def State.released (s : State) (d : Delivery) : Bool :=
  s.writesDrained d.core d.gid d.split d.iid
    && (decide (scopeOf d.place (s.receiverPlace d.cap) < 3) || !(s.core (partnerOf d.core)).backlog)

/-- Whether a delivery may be decided now (rule R198): those of its split to the same receiver that were sent before it are
decided, and a release's earlier writes and releases are visible. -/
def State.deliverable (s : State) (d : Delivery) : Bool :=
  d.outcome.isNone
    && !(s.deliveries.any (fun e => decide (e.did < d.did) && e.core == d.core && e.gid == d.gid && e.split == d.split && e.outcome.isNone
        && (capPlace e.cap == capPlace d.cap || (s.receiver e.cap != 0 && s.receiver e.cap == s.receiver d.cap) || (d.rel && e.rel))))
    && (!d.rel || s.released d)

/-- Whether a delivery to another package has no usable port: it waits, until a port comes or it is lost (rules R440, R441). -/
def State.stranded (s : State) (d : Delivery) : Bool := s.awayCap d.cap && (s.usablePorts (placePkg (capPlace d.cap))).isEmpty

/-- DELIVERY_ARRIVAL (rules R193 to R196, R198). A delivery to another package is decided there, by a free value. -/
def deliveryArrival (did : Nat) (s : State) : State :=
  match s.deliveries.find? (fun d => d.did == did) with
  | none => s
  | some d =>
    let s := if d.rel && decide (3 ≤ scopeOf d.place (s.receiverPlace d.cap)) then s.pairFlush d.core else s
    if !(s.deliverable d) || s.stranded d || (!s.awayCap d.cap && s.saveHeld d.cap d.pair) then s
    else
      let (s, o) := if s.awayCap d.cap then
          let (x, s) := s.drawFree
          (s, x.toNat % 4)
        else s.decideDelivery d.cap d.pair d.mask d.lo d.hi (if d.rel then d.place else capPlace d.cap)
      { s with deliveries := updIf s.deliveries (fun e => e.did == did) (fun e => { e with outcome := some o }) }
def execDeliveryArrival (did : Nat) (s : State) : Res := .next (deliveryArrival did s)

/-- SEND_OUTCOME_RETURN (rules R192, R197, R198): the sender's count, and the SEND completes; a `.rel` one to another package takes effect
as a release first, also where it was dropped. -/
def sendReturn (did : Nat) (s : State) : State :=
  match s.deliveries.find? (fun d => d.did == did) with
  | none => s
  | some d =>
    match d.outcome with
    | none => s
    | some o =>
      let far := d.rel && s.awayCap d.cap
      let s := if far then s.pairFlush d.core else s
      if far && !s.released d then s
      else
        let s := { s with deliveries := s.deliveries.filter (fun e => e.did != did), xacts := s.xacts.filter (fun x => some x.xid != d.xid) }
        match s.group d.core d.slot with
        | none => s
        | some G =>
          if G.gid != d.gid then s
          else s.setGroup d.core d.slot { G.noteDone d.split s.cycle with
            sendstat := if G.ending then G.sendstat else countSend G.sendstat o, infl := G.infl.filter (fun i => i.id != d.iid) }
def execSendOutcomeReturn (did : Nat) (s : State) : Res := .next (sendReturn did s)

end Sys2Proof.Machine
end

