-- ==== Sys2Proof/Machine/Global.lean ====
section
/-! DEFINITION. Loads and stores of rows 0x9_ (rules R291 to R300): addresses, checks, the L1, the constant cache, the local
store, and the events by which their data moves (rules R269 to R273, R296, R297, R321). -/

namespace Sys2Proof.Machine

/-! ### Addresses (rules R291, R295) -/

/-- Whether SIZE sign-extends (rule R56). -/
def sizeSigned (z : BitVec 3) : Bool := z == 1 || z == 3

/-- The `k` registers from `n`. -/
def regRun (n k : Nat) : List Nat := (List.range k).map (fun i => n + i)

/-- The offset o of a lane (rule R291); `disp` where [34:28] is DISP. -/
def Group.offset (G : Group) (f : FmtM) (disp : Bool) (l : Nat) : Int :=
  let n : Int := sizeBytes f.size
  let a : Int := if f.sa == 1 && f.sc == 1 then 0
    else if f.sa == 0 then sextNat (G.vlane f.a.toNat l).toNat 32 else sextNat (G.uni f.a.toNat).toNat 64
  a * (if f.sa == 0 && f.sc == 1 then n else 1) + (if disp then f.disp.toInt * n else 0)

/-- The plan of a format M word: guard, offset register, translation register, `k` data registers from B. -/
def planM (f : FmtM) (glob : Bool) (k : Nat) : Plan :=
  let P := { ({} : Plan).guard f.ge f.gn f.g with y := f.y }
  let P := if f.sa == 1 then (if f.sc == 1 then P else { P with rk := [f.a.toNat] })
    else { P with rv := [f.a.toNat], lu := if f.la == 1 then [f.a.toNat] else [] }
  let P := { P with rv := P.rv ++ regRun f.b.toNat k, lu := if f.lb == 1 then P.lu ++ regRun f.b.toNat k else P.lu }
  if glob then { P with rt := [f.tr.toNat] } else P

/-- The lanes whose address is unknown in run-ahead (rule R412). -/
def Group.addrUnknown (G : Group) (P : Plan) : Mask :=
  match G.ra with
  | none => 0
  | some r =>
    if P.rk.any r.unkK.contains || P.rt.any r.unkT.contains then fullMask 64
    else P.rv.foldl (fun m n => m ||| G.unkLanes n) 0

/-- A translation register's words for the entry that holds `va` (rules R16, R306). -/
def tregOf (e : TlbEnt) (va : Nat) : TReg :=
  { w0 := w64 va
    w1 := w64 (2 ^ 63 + (if e.rd then 2 ^ 62 else 0) + (if e.wr then 2 ^ 61 else 0) + at_ e.size 52 + e.pa va)
    w2 := w64 (e.vbase + pageBytes e.size - va)
    mig := e.mig }

/-- The page that a translation register names. -/
def TReg.entry (t : TReg) (part : Nat) : TlbEnt :=
  let sz := fld t.w1 52 4
  let vb := fld t.w0 0 57
  { part := part, size := sz, vbase := vb - vb % pageBytes sz, frame := fld t.w1 0 52 - vb % pageBytes sz
    rd := fld t.w1 62 1 == 1, wr := fld t.w1 61 1 == 1, mig := t.mig }

/-- The page of offset `o` through translation register `tr` (rule R277), or the virtual address that has no translation. -/
def State.pageOf (s : State) (X : Ctx) (tr : Nat) (o : Int) : State × (TlbEnt ⊕ Nat) :=
  match s.group X.core X.slot with
  | none => (s, .inr 0)
  | some G =>
    let t := G.treg tr
    let vb := fld t.w0 0 57
    let far (s : State) : State × (TlbEnt ⊕ Nat) :=
      let va := ((vb : Int) + o).toNat
      match s.translate (some X.core) G.part va with
      | (s, some e) => (s, .inl e)
      | (s, none) => (s, .inr va)
    let near (s : State) (t : TReg) : State × (TlbEnt ⊕ Nat) :=
      if decide (0 ≤ o) && decide (o < fld t.w2 0 36) then (s, .inl (t.entry G.part)) else far s
    if t.stale then
      match s.translate (some X.core) G.part vb with
      | (s, none) => (s, .inr vb)
      | (s, some e) =>
        let t := tregOf e vb
        near (s.updGroup X.core X.slot (fun G => { G with regs := { G.regs with t := G.regs.t.set tr t } })) t
    else near s t

/-- Whether the look-up of a page's translation waits for a copy (rule R331). -/
def State.pageHeld (s : State) (X : Ctx) (tr : Nat) (o : Int) : Bool :=
  match s.group X.core X.slot with
  | none => false
  | some G =>
    let t := G.treg tr
    let vb := fld t.w0 0 57
    (t.stale && s.walkHeld (some X.core) G.part vb)
      || (!(decide (0 ≤ o) && decide (o < fld t.w2 0 36)) && s.walkHeld (some X.core) G.part ((vb : Int) + o).toNat)

/-- The lanes of a global access that passed its checks: their physical addresses, and the lanes that run-ahead found without a
translation. -/
structure Reach where
  lanes : List LaneA := []
  missed : Mask := 0
  deriving DecidableEq, Repr

/-- The lane's access in the page it fell in. -/
def reachLane (e : TlbEnt) (l : Nat) (va : Nat) : LaneA :=
  { lane := l, addr := e.pa va, va := va, mig := migOf e.mig e.frame (e.pa va) }

/-- Checks 5 and 6 of rule R295 over lanes whose pages were looked up: the lowest lane without a translation, then the lowest
without a permission or in a refused region. -/
def State.pageChecks (s : State) (X : Ctx) (G : Group) (P : Plan) (rd wr : Bool) (found : List (Nat × Nat × (TlbEnt ⊕ Nat))) :
    State × Option Reach :=
  let missing := found.filterMap (fun x => match x.2.2 with | .inr va => some (x.1, va) | .inl _ => none)
  let kind := if wr then 1 else 0
  match (if G.ra.isSome then none else missing.head?) with
  | some (l, va) => (s.pageMiss X P kind va l, none)
  | none =>
    let s := missing.foldl (fun s x => s.addPage X kind x.2) s
    let here := found.filterMap (fun x => match x.2.2 with | .inl e => some (x.1, x.2.1, e) | .inr _ => none)
    match here.find? (fun x => (rd && !x.2.2.rd) || (wr && !x.2.2.wr) || !s.regionOk (x.2.2.pa x.2.1)) with
    | some (l, va, _) => (s.raise X 7 l (addrInfo va), none)
    | none => (s, some { lanes := here.map (fun x => reachLane x.2.2 x.1 x.2.1),
                         missed := missing.foldl (fun m x => m ||| BitVec.ofNat 64 (2 ^ x.1)) 0 })

/-- Checks 3 to 6 of rule R295 for global accesses of `n` bytes at lane offsets, through translation register `tr`. -/
def State.reach (s : State) (X : Ctx) (G : Group) (P : Plan) (tr : Nat) (offs : List (Nat × Int)) (n : Nat) (rd wr : Bool) :
    State × Option Reach :=
  let t := G.treg tr
  let vas : List (Nat × Int × Int) := offs.map (fun x => (x.1, x.2, (fld t.w0 0 57 : Int) + x.2))
  match vas.find? (fun x => x.2.2 % (n : Int) != 0) with
  | some (l, _, va) => (s.raise X 6 l (addrInfo (wrapInt va 64)), none)
  | none =>
    match vas.find? (fun x => fld t.w1 63 1 == 0 || decide (x.2.2 < 0) || decide ((2 ^ 57 : Int) ≤ x.2.2)) with
    | some (l, _, va) => (s.raise X 7 l (addrInfo (wrapInt va 64)), none)
    | none =>
      if vas.any (fun x => s.pageHeld X tr x.2.1) then (s.stall X 14, none) else
      let r := vas.foldl (fun (r : State × List (Nat × Nat × (TlbEnt ⊕ Nat))) x =>
        let q := r.1.pageOf X tr x.2.1
        (q.1, r.2 ++ [(x.1, x.2.2.toNat, q.2)])) (s, [])
      r.1.pageChecks X G P rd wr r.2

/-! ### Order among a group's own accesses (rules R135, R297, R305) -/

def overlap (a n b m : Nat) : Bool := decide (a < b + m) && decide (b < a + n)

/-- The paths of a new access (rule R326): a load through the L1, one past it, a gather, a write or atomic. -/
inductive Path where
  | l1 | home | gather | write
  deriving DecidableEq, Repr

/-- Whether an access in flight holds back an overlapping new one of a path. -/
def Inflight.holds (i : Inflight) (path : Path) : Bool :=
  i.kind == .atom || i.kind == .scatter || (match path with
    | .l1 => false
    | .home => i.kind == .gather || (i.kind == .load && i.acc.bypass)
    | .gather => i.kind == .load && i.acc.bypass
    | .write => true)

/-- Whether an access of the group to these bytes waits for another one in flight: a conflicting read, atomic, gather, scatter or
write on its way to its home. -/
def State.clash (s : State) (X : Ctx) (G : Group) (lanes : List LaneA) (n : Nat) (path : Path) : Bool :=
  let hit (b m : Nat) : Bool := lanes.any (fun a => overlap a.addr n b m)
  G.infl.any (fun i => i.holds path && i.acc.lanes.any (fun b => hit b.addr i.acc.size))
    || (s.core X.core).homeq.any (fun h => (h.carries G.gid || h.gid == 0) && h.cells.any (fun c => hit c.1 1))
    || (s.core X.core).packets.any (fun p => p.write && p.reqs.any (fun q => q.gid == G.gid) && p.writes.any (fun c => hit c.1 1))

/-- Whether an acquire of the split is in flight (rule R305). -/
def Group.acquiring (G : Group) (split : Nat) : Bool := G.infl.any (fun i => i.split == split && i.acq)

/-- The common course of a memory instruction of plan `P`: registers, DEADREAD, an earlier acquire of the split, the address phase
`addr`, reads and allocations, and its effect at issue `eff` with the in-flight entry. -/
def State.memIssue {α : Type} (s : State) (X : Ctx) (G : Group) (P : Plan) (y : BitVec 1) (addr : State → State × Option α)
    (unk : α → Mask) (eff : State → α → State × Inflight) : State :=
  match s.ready X G P with
  | (s, false) => s
  | (s, true) =>
    if G.acquiring X.split then s.stallFor X G P 14
    else match s.dead X G P with
      | (s, false) => s
      | (s, true) =>
        match addr s with
        | (s, none) => s.lowest X G P
        | (s, some r) =>
          match s.take X P with
          | (s, false) => s
          | (s, true) =>
            let q := eff (s.noteDead X G P) r
            q.1.post X P y none q.2 (unk r)

/-- The destination writes of a read in flight, without values yet. -/
def readWrites (n k : Nat) (m : Mask) : List RegW := (regRun n k).map (fun r => { sp := .vec, num := r, mask := m })

/-- The writes of a read with the values that `val` gives per lane. -/
def fillWrites (w : Nat) (ws : List RegW) (val : Nat → Nat) : List RegW :=
  ws.zipIdx.map (fun x => { x.1 with vals := lanesOf w (fun l => if inMask x.1.mask l then w32 (val l >>> (32 * x.2)) else 0) })

/-- A loaded number of `n` bytes as its registers hold it (rules R56, R298). -/
def extend (n : Nat) (sx : Bool) (x : Nat) : Nat := if sx then wrapInt (sextNat x (8 * n)) 32 else x

/-- Bytes received by a read. -/
def cellAt (cs : List Host.Cell) (a : Nat) : Option Byte := (cs.find? (fun c => c.1 == a)).map (fun c => c.2)
def cellNum (cs : List Host.Cell) (a n : Nat) : Nat := numOf ((List.range n).map (fun i => (cellAt cs (a + i)).getD 0))

/-- The value of lane `l` of a read whose bytes have come. -/
def Acc.value (a : Acc) (l : Nat) : Nat :=
  match a.lanes.find? (fun x => x.lane == l) with
  | some x => extend a.size a.sx (cellNum a.got x.addr a.size)
  | none => 0

/-- Completes a read (rules R296, R305): its registers, zero where poison was found, with the deferred POISON, and its acquire. -/
def State.finishRead (s : State) (c g : Nat) (i : Inflight) (val : Nat → Nat) : State :=
  match s.group c g with
  | none => s
  | some G =>
    let s := s.complete c g i.id (fillWrites G.w i.writes (fun l => if i.acc.bad.isSome then 0 else val l))
    let s := match i.acc.bad with
      | none => s
      | some va =>
        if i.ahead then s
        else s.updGroup c g (fun G => if G.ending then G else { G with causes := G.causes ++
          [{ code := 13, split := i.split, info := BitVec.ofNat 48 va, pc := i.pc }] })
    if i.acq then s.acquire c G.gid i.acc.scope else s

/-! ### LD (rules R269 to R272, R298) -/

/-- The bytes of an access that an L1 holds already, and the first poisoned one's INFO. -/
def State.l1Take (s : State) (c : Nat) (a : Acc) : Acc × Bool :=
  a.lanes.foldl (fun (r : Acc × Bool) x =>
    if s.l1Hit c x.addr a.size && (cellAt r.1.got x.addr).isNone then
      let q := s.l1Read c x.addr a.size
      ({ r.1 with got := r.1.got ++ cellsAt x.addr q.1, bad := if q.2 && r.1.bad.isNone then some (addrInfo x.va) else r.1.bad }, r.2 || q.2)
    else r) (a, false)

/-- The poisoned L1 sectors that an access hits (rules R270, R415). -/
def State.l1BadSectors (s : State) (c : Nat) (a : Acc) : List Nat :=
  (a.lanes.foldl (fun (bs : List Nat) x =>
    if s.l1Hit c x.addr a.size && (s.l1Read c x.addr a.size).2 then addNew bs (x.addr / 32 * 32) else bs) [])

/-- Whether every byte of a read has come. -/
def Acc.full (a : Acc) : Bool := a.lanes.all (fun x => (cellAt a.got x.addr).isSome)

/-- Whether an earlier load of the group waits for a line of these lanes: a later one then waits with it (rule R326). -/
def Group.awaits (G : Group) (lanes : List LaneA) : Bool :=
  G.infl.any (fun i => i.kind == .load && !i.acc.bypass
    && i.acc.lanes.any (fun x => (cellAt i.acc.got x.addr).isNone && lanes.any (fun y => y.addr / 128 == x.addr / 128)))

/-- LD. -/
def ldBody (f : FmtM) (s : State) : State :=
  s.begin (.ld f) false (fun s X G p =>
    let m := activeLanes G p f.ge f.gn f.g
    let n := sizeBytes f.size
    let regs := sizeRegs f.size
    let P := { planM f true 0 with wv := regRun f.d.toNat regs }
    let lanes := lanesIn (m &&& ~~~(G.addrUnknown P)) G.w
    s.memIssue X G P f.y (fun s =>
        match s.reach X G P f.tr.toNat (lanes.map (fun l => (l, G.offset f true l))) n true false with
        | (s, none) => (s, none)
        | (s, some r) =>
          if s.clash X G r.lanes n (if f.hint == 2 then .home else .l1) then (s.stall X 14, none)
          else match s.ordered X G f.ord f.scope 14 with
            | (s, false) => (s, none)
            | (s, true) => (s, some r)) Reach.missed (fun s r =>
      let a : Acc := { size := n, sx := sizeSigned f.size, lanes := r.lanes, bypass := f.hint == 2, ef := f.hint == 1, keep := f.hint == 3,
                       scope := f.scope.toNat }
      let lines := (r.lanes.map (fun x => x.addr / 128)).eraseDups
      let hit (l : Nat) : Bool := r.lanes.all (fun x => x.addr / 128 != l || s.l1Hit X.core x.addr n)
      let s := if f.hint == 2 then s
        else (s.count G.part 6 (lines.filter hit).length).count G.part 7 (lines.filter (fun l => !hit l)).length
      let q := if f.hint == 2 || G.awaits r.lanes then (a, false) else s.l1Take X.core a
      let s := if q.2 then (s.l1BadSectors X.core a).foldl (fun s b => s.mcRecord 3 G.part b (s.placeOf X.core X.slot) 0) s else s
      (s, { infNone with kind := .load, pc := p.pc, acc := q.1, acq := f.ord == 1,
                         writes := readWrites f.d.toNat regs (m &&& ~~~r.missed) })))
def execLd (f : FmtM) (s : State) : Res := .next (ldBody f s)

/-- Hands the bytes of a filled line to the loads of a core that wait for them; those that read a poisoned sector which stood in the L1
before, none of `came`, record it (rules R270, R415). -/
def State.supply (s : State) (c line : Nat) (came : List Nat) : State :=
  let takes (i : Inflight) : Bool := i.kind == .load && !i.acc.bypass && i.acc.lanes.any (fun x => x.addr / 128 == line && (cellAt i.acc.got x.addr).isNone)
  let waits : List Nat := (s.core c).slots.flatMap (fun e => (e.2.infl.filter takes).flatMap (fun i =>
    (s.l1BadSectors c { i.acc with lanes := i.acc.lanes.filter (fun x => x.addr / 128 == line && (cellAt i.acc.got x.addr).isNone) }).filter
      (fun b => !came.contains (b / 32 % 4))))
  let s := waits.eraseDups.foldl (fun s b => s.mcRecord 3 (s.partOf c) b (s.corePlace c) 0) s
  let feed (i : Inflight) : Inflight :=
    if i.kind == .load && !i.acc.bypass && i.acc.lanes.any (fun x => x.addr / 128 == line) then { i with acc := (s.l1Take c i.acc).1 } else i
  let one (G : Group) : Group := { G with infl := G.infl.map feed }
  s.updCore c (fun k => { k with slots := k.slots.mapV one })

/-- The lines that the loads of a core wait for. -/
def Core.misses (k : Core) : List Nat :=
  (k.slots.map (fun e => (e.2.infl.map (fun i =>
    if i.kind == .load && !i.acc.bypass then (i.acc.lanes.filter (fun x => (cellAt i.acc.got x.addr).isNone)).map (fun x => x.addr / 128) else [])).flatten)).flatten.eraseDups


/-- Marks a line with the keep hint in the slices that hold it for a core: the line's own, and the requester's (rules R275, R431). -/
def State.l2Keep (s : State) (c line : Nat) : State :=
  let mine := stackOf c
  let home := s.sliceOf mine line
  let s := s.l2Touch home line 0 true
  if home == mine then s else s.l2Touch mine line 0 true

/-- PREF fetches one line (rules R307, R338), unless it is poisoned: into the L1, or the L2 alone, where a line that is present fetches
nothing and an absent one all four sectors. Whether it has: not while a copy owns the line (R331), a write-back of the pair is on its way
there, or its port or its budget makes it wait. The read of HBM itself changes nothing here (log entry 144). -/
def State.prefetch (s : State) (c line : Nat) (hint : BitVec 2) : State × Bool :=
  if s.owned line || s.barred (s.partOf c) c line then (s, false)
  else
    let s := s.recall line false
    if s.poisoned (128 * line) 128 then (s, true)
    else if 2 ≤ hint.toNat then
      if regionOf (128 * line) == 1 then (s, true)
      else (s.l2Look c line (if s.l2Held c line == 0 then 15 else s.l2Held c line) (hint == 3), true)
    else match s.l1Settle c line with
      | (s, false) => (s, false)
      | (s, true) =>
        ((s.l1Fill c line).updCore c (fun k => { k with l1 := updIf k.l1 (fun x => x.line == line) (fun x => { x with ef := x.ef || hint == 1 }) }), true)

/-- The prefetches of a line that waited are made. -/
def State.latePrefs (s : State) (c line : Nat) : State :=
  ((s.core c).prefs.filter (fun p => p.line == line)).foldl (fun s p =>
    match s.prefetch c line p.hint with
    | (s, false) => s
    | (s, true) => s.updCore c (fun k => { k with prefs := k.prefs.erase p })) s

/-- L1_MISS_FILL (rules R269, R270, R272, R307): the missing sectors of a line come, once no copy owns it (rule R331) and the pair's
earlier write-backs of it are home; and the prefetches of it that waited. -/
def missFill (core line : Nat) (s : State) : State :=
  let s := s.latePrefs core line
  if !((s.core core).misses.contains line) || s.barred (s.partOf core) core line then s
  else match s.l1Settle core line with
  | (s, false) => s
  | (s, true) =>
    let k := s.core core
    let hints := (k.slots.map (fun e => (e.2.infl.filter (fun i => i.kind == .load && i.acc.lanes.any (fun x => x.addr / 128 == line))).map (fun i => i.acc))).flatten
    let had : BitVec 4 := match k.l1line line with | some l => l.valid | none => 0
    let s := s.l1Fill core line
    let s := if hints.any (fun a => a.ef) then
        s.updCore core (fun k => { k with l1 := updIf k.l1 (fun l => l.line == line) (fun l => { l with ef := true }) }) else s
    let s := if hints.any (fun a => a.keep) && regionOf (128 * line) != 1 then s.l2Keep core line else s
    let came := (List.range 4).filter (fun j => !had.getLsbD j)
    (came.foldl (fun s j => s.readPoison (s.partOf core) (s.corePlace core) (128 * line + 32 * j) 32) s).supply core line came
def execL1MissFill (core line : Nat) (s : State) : Res := .next (missFill core line s)

/-- L1_EVICTION (rules R269, R330). -/
def execL1Eviction (core line : Nat) (s : State) : Res :=
  .next (if ((s.core core).l1line line).isSome && !s.owned line then s.l1Evict core line else s)


/-- A read at a line's home for a core of a pair, after the dirty bytes of the two L1s (rules R269, R272): its bytes and whether some
granule is poisoned; none while it waits for a copy, a write-back, a port or the budget of host traffic (R394, R440). -/
def State.homeTake (s : State) (c pa n : Nat) : State × Option (List Byte × Bool) :=
  match s.comeHome c (pa / 128) with
  | (s, false) => (s, none)
  | (s, true) =>
    if s.barred (s.partOf c) c (pa / 128) then (s, none)
    else
      let q := s.coreRead c pa n
      let s := q.1
      let bad := s.poisoned pa n
      (if bad then s.readPoison (s.partOf c) (s.corePlace c) pa n else s, some (q.2, bad))

/-- Bytes read at a home with those that are dirty in a core's L1 in their place (rule R269, a load with `.bl1`). -/
def State.underDirty (s : State) (c pa : Nat) (b : List Byte) : List Byte :=
  match (s.core c).l1line (pa / 128) with
  | none => b
  | some l => (List.range b.length).map (fun i => if bit128 l.dirty (pa % 128 + i) then l.data.getD (pa % 128 + i) 0 else b.getD i 0)

/-- A load with `.bl1` at its home, its lines settled; the core's own dirty bytes are merged and stay dirty. -/
def State.bypassRead (s : State) (c : Nat) (a : Acc) : State × Acc :=
  a.lanes.foldl (fun (r : State × Acc) x =>
    let q := (r.1.farRead c x.addr a.size).homeRead x.addr a.size
    let hurt := q.1.poisoned x.addr a.size
    let s := if hurt then q.1.readPoison (q.1.partOf c) (q.1.corePlace c) x.addr a.size else q.1
    let s := if regionOf x.addr == 1 then s else s.l2Look c (x.addr / 128) (secsOf x.addr a.size) a.keep
    (s, { r.2 with got := r.2.got ++ cellsAt x.addr (s.underDirty c x.addr q.2),
                   bad := if hurt && r.2.bad.isNone then some (addrInfo x.va) else r.2.bad })) (s, a)

/-- Settles the lines of an access for reads at their homes; whether each of them may be read now. -/
def State.settleAll (s : State) (c : Nat) (own : Bool) (lines : List Nat) : State × Bool :=
  lines.foldl (fun (r : State × Bool) l =>
    let q := if own then r.1.comeHome c l else r.1.l1Settle c l
    (q.1, r.2 && q.2 && !q.1.barred (q.1.partOf c) c l)) (s, true)

/-! ### ST (rules R269, R272, R298, R330) -/

/-- The cells that a store's lanes write, in increasing lane (rule R297). DESIGN CHOICE: a store's 16 bytes take effect in one step, though
the two halves need not (log entry 117). -/
def storeCells (n : Nat) (lanes : List LaneA) (val : Nat → Nat) : List Host.Cell :=
  (lanes.map (fun x => cellsAt x.addr (bytesOf (val x.lane) n))).flatten

/-- The number in `k` registers from `n` in a lane. -/
def Group.vnum (G : Group) (n k l : Nat) : Nat := (List.range k).foldl (fun a i => a + (G.vlane (n + i) l).toNat * 2 ^ (32 * i)) 0

/-- Cells in rising address, the later of two writes to one byte kept, cut into runs of adjacent bytes of a line. -/
def cellRuns (cs : List Host.Cell) : List (List Host.Cell) :=
  (cs.foldl (fun (t : Tab Byte) c => t.set c.1 c.2) []).foldl (fun (rs : List (List Host.Cell)) c =>
    match rs.getLast? with
    | some r => if (r.getLast?.map (fun x => x.1 + 1)) == some c.1 && c.1 % 128 != 0 then rs.dropLast ++ [r ++ [c]] else rs ++ [[c]]
    | none => [[c]]) []

/-- Queues a write for its home (rules R269, R321, R336): the bytes for this package and its host as one, those for another package as one
posted write for each run of adjacent bytes. -/
def State.queueWrite (s : State) (c : Nat) (h : HomeWrite) : State :=
  let far (x : Host.Cell) : Bool := regionOf x.1 == 1
  let parts := [h.cells.filter (fun x => !far x)] ++ cellRuns (h.cells.filter far)
  (parts.filter (fun cs => !cs.isEmpty)).foldl (fun s cs =>
    let q := s.fresh
    let bad := h.poison.filter (fun g => cs.any (fun x => x.1 / 32 == g))
    q.2.updCore c (fun k => { k with homeq := k.homeq ++ [{ h with id := q.1, cells := cs, poison := bad }] })) s

/-- Queues the lanes of a store for their homes. -/
def State.sendHome (s : State) (X : Ctx) (G : Group) (cells : List Host.Cell) (lanes : List LaneA) (lrel keep : Bool) : State :=
  let mig := lanes.foldl (fun (t : Tab (Nat × Nat)) x => match x.mig with | some m => t.set (x.addr / 128) m | none => t) []
  s.queueWrite X.core { id := 0, slot := X.slot, gid := G.gid, split := X.split, iid := G.nextIid, cells := cells, lrel := lrel, keep := keep, mig := mig }

/-- Reads of a group may no longer join the read packets of lines that it stores to (rules R135, R297). -/
def Core.barOwn (k : Core) (gid : Nat) (lines : List Nat) : Core :=
  { k with packets := updIf k.packets (fun p => !p.write && lines.contains p.line) (fun p => { p with bars := addNew p.bars gid }) }

/-- The first write of a split after a release FENCE at `.grp` to `.pair` has come (rule R330). -/
def State.usedFence (s : State) (X : Ctx) : State :=
  s.updGroup X.core X.slot (fun G => G.updSplit X.split (fun p => { p with fenceRel := false }))

/-- ST. Writes to another package, with `.bl1`, and releases above the pair go through to their homes, after the dirty bytes of their lines
that the pair's L1s hold. -/
def stBody (f : FmtM) (s : State) : State :=
  s.begin (.st f) false (fun s X G p =>
    let m := activeLanes G p f.ge f.gn f.g
    let n := sizeBytes f.size
    let regs := sizeRegs f.size
    let P := planM f true regs
    s.memIssue X G P f.y (fun s =>
        match s.reach X G P f.tr.toNat ((lanesIn m G.w).map (fun l => (l, G.offset f true l))) n false true with
        | (s, none) => (s, none)
        | (s, some r) =>
          if s.clash X G r.lanes n .write then (s.stall X 14, none)
          else match s.ordered X G f.ord f.scope 14 with
            | (s, false) => (s, none)
            | (s, true) => (s, some r)) (fun _ => 0) (fun s r =>
      let sc := f.scope.toNat
      let lrel := (f.ord == 2 && decide (sc ≤ 2)) || p.fenceRel
      let through (x : LaneA) : Bool := f.hint == 2 || regionOf x.addr == 1 || (f.ord == 2 && decide (3 ≤ sc))
      let val (l : Nat) : Nat := G.vnum f.b.toNat regs l
      let far := r.lanes.filter through
      let near := r.lanes.filter (fun x => !through x)
      let s := s.updCore X.core (fun k => k.barOwn G.gid ((r.lanes.map (fun x => x.addr / 128)).eraseDups))
      let s := ((far.filter (fun x => regionOf x.addr != 1)).map (fun x => x.addr / 128)).eraseDups.foldl (fun s l => s.l1Ahead X.core l) s
      let s := if far.isEmpty then s else s.sendHome X G (storeCells n far val) far lrel (f.hint == 3)
      let s := near.foldl (fun s x => s.l1Write X.core (storeCells n [x] val) (f.hint == 1) lrel x.mig (some (x.va / 128 * 128))) s
      let s := if f.hint == 3 then near.foldl (fun s x => s.l2Touch (s.sliceOf (stackOf X.core) (x.addr / 128)) (x.addr / 128) 0 true) s else s
      (if r.lanes.isEmpty then s else s.usedFence X, { infNone with kind := if far.isEmpty then .alu else .store })))
def execSt (f : FmtM) (s : State) : Res := .next (stBody f s)

/-- A write by a core takes effect at its home (rules R272, R282, R292, R321, R337): both places of a migrating line, and the
partner's clean bytes go. -/
def State.writeHome (s : State) (c place : Nat) (cells : List Host.Cell) (bad : List Nat) (mig : Tab (Nat × Nat)) : State :=
  let part := s.partOf c
  let s := s.homeWrite part place cells bad
  let s := mig.foldl (fun s m => match s.migDup (some m.2) with
    | some new => s.homeWrite part place ((cells.filter (fun x => x.1 / 128 == m.1)).map (fun x => (new + x.1 % 128, x.2)))
        ((bad.filter (fun g => g / 4 == m.1)).map (fun g => new / 32 + g % 4))
    | none => s) s
  let lines := unitsOf 128 cells
  s.l1InvClean (partnerOf c) (fun l => lines.contains l)

/-! ### Serving packets, and releases on behalf of others (rules R285, R286, R330) -/

/-- A departed packet is served at its line's home (rules R269, R286, R292), the core's own bytes there first: a write packet is then done,
and one for another package becomes writes on their way there. False while a copy or a write-back holds the line. -/
def State.servePacket (s : State) (core : Nat) (p : Packet) : State × Bool :=
  if s.barred (s.partOf core) core p.line && !(p.write && s.cutOff p.line) then (s, false)
  else match s.comeHome core p.line with
  | (s, false) => (s, false)
  | (s, true) =>
    if p.write then
      let s := s.updCore core (fun k => { k with packets := k.packets.filter (fun q => q.id != p.id) })
      let mig : Tab (Nat × Nat) := match p.mig with | some m => [(p.line, m)] | none => []
      let r := p.reqs.headD ⟨0, 0, 0, 0⟩
      let s := s.l1Drop core p.line
      if regionOf (128 * p.line) == 1 then
        (s.queueWrite core { id := 0, slot := r.slot, gid := r.gid, split := r.split, iid := r.iid, cells := p.writes,
                             also := p.reqs.map (fun q => (q.gid, q.split, q.iid)) }, true)
      else
        let s := s.writeHome core (s.placeOf core r.slot) p.writes [] mig
        let s := p.reqs.foldl (fun s r => s.noteDone core r.gid r.split) s
        (if p.keep then s.l2Touch (s.sliceOf (stackOf core) p.line) p.line 0 true else s, true)
    else
      let q := (s.farRead core (128 * p.line) 128).homeRead (128 * p.line) 128
      let data := (p.entries.map (fun e => cellsAt (128 * p.line + e.1) ((q.2.drop e.1).take e.2))).flatten
      let bad := p.entries.filter (fun e => q.1.poisoned (128 * p.line + e.1) e.2)
      let s := bad.foldl (fun s e => s.readPoison (s.partOf core) (s.corePlace core) (128 * p.line + e.1) e.2) q.1
      let secs := p.entries.foldl (fun (a : BitVec 4) e => a ||| secsOf e.1 e.2) 0
      let s := if regionOf (128 * p.line) == 1 then s else s.l2Look core p.line secs p.keep
      (s.updCore core (fun k => { k with packets := updIf k.packets (fun x => x.id == p.id) (fun x => { x with served := true, data := data, bad := bad }) }), true)

/-- The cores that a promoting acquire of a core at a scope probes (rule R330). -/
def probedCores (c sc : Nat) : List Nat :=
  match sc with
  | 0 | 1 => [c]
  | 2 => [pairOf c, pairOf c + 1]
  | 3 => (List.range 96).map (fun i => 96 * stackOf c + i)
  | _ => List.range 192

/-- A release that a core makes at a line's home while a promoting acquire of that line has not read: the core is probed again (rules
R329, R330). -/
def State.probeAgain (s : State) (c line : Nat) : State :=
  let again (at' : Nat) (i : Inflight) : Inflight :=
    if i.kind == .atom && i.acc.prom && i.acc.lanes.any (fun x => x.addr / 128 == line) && (probedCores at' i.acc.scope).contains c
    then { i with acc := { i.acc with wait := addNew i.acc.wait c } } else i
  { s with cores := s.cores.map (fun e => (e.1, { e.2 with slots := e.2.slots.mapV (fun G => { G with infl := G.infl.map (again e.1) }) })) }

/-- A core's release is recorded at the homes of lines (rule R330): at most four cores a line; a fifth promotes the oldest by `act`, which is
dropped when it has acted. -/
def State.recordWith (act : State → Nat → State × Bool) (s : State) (c : Nat) (lines : List Nat) : State :=
  lines.foldl (fun s l =>
    let s := s.probeAgain c l
    let now := ((s.lrelHome.get [] l).filter (fun x => x != c)) ++ [c]
    let q := if 4 < now.length then act s (now.headD 0) else (s, false)
    { q.1 with lrelHome := q.1.lrelHome.set l (if q.2 then now.drop 1 else now) }) s

/-- A core acts as a release on behalf of another (rule R330): its write packets leave and reach their homes, in the order of each line,
where the releases that they carry are recorded, and every dirty byte of its L1 is written back. Whether all of it has been done. -/
def State.releaseWith (act : State → Nat → State × Bool) (s : State) (c : Nat) : State × Bool :=
  let s := s.updCore c (fun k => (k.packets.filter (fun p => p.write && !p.departed)).foldl (fun k p => k.depart p.id) k)
  let k := s.core c
  let due := k.packets.filter (fun p => !p.served && k.packets.any (fun w => w.write && w.line == p.line && decide (p.id ≤ w.id)))
  let s := (due.foldl (fun s p =>
    if (s.core c).packets.any (fun q => q.line == p.line && !q.served && decide (q.id < p.id)) then s
    else match s.servePacket c p with
      | (s, false) => s
      | (s, true) => if p.write && p.lrel && regionOf (128 * p.line) != 1 then s.recordWith act c [p.line] else s) s).l1Flush c
  (s, !((s.core c).packets.any (fun p => p.write)) && !(s.core c).backlog)

/-- A release on behalf of another whose own records promote at most `n` further cores. -/
def State.coreReleaseN (s : State) (n c : Nat) : State × Bool :=
  match n with
  | 0 => s.releaseWith (fun s _ => (s, false)) c
  | n + 1 => s.releaseWith (fun s c => s.coreReleaseN n c) c

/-- A core's release on behalf of another, and the record of a core's release at the homes of lines (rule R330). -/
def State.coreRelease (s : State) (c : Nat) : State × Bool := s.coreReleaseN Config.coresPerPackage c
def State.recordRelease (s : State) (c : Nat) (lines : List Nat) : State := s.recordWith State.coreRelease c lines

/-- A core's write to another package departs through its port, and is held until its acknowledgement (rules R336, R438). From then on the
pair's L1s hold none of the line's bytes from before it (R269, R272, R326). -/
def State.post01 (s : State) (core : Nat) (h : HomeWrite) : State :=
  let a := (h.cells.headD (0, 0)).1
  let op : RemoteOp := .write (a % 2 ^ 40) (h.cells.map (fun c => c.2)) (h.poison.map (fun g => g % 2 ^ 35))
  match s.sendXact core (a / 2 ^ 40 % 1024) 0 op h.slot h.gid h.iid h.id with
  | none => s
  | some (s, x) =>
    let lines := unitsOf 128 h.cells
    let s := (s.l1Replace core h.cells).l1InvClean (partnerOf core) (fun l => lines.contains l)
    (s.updCore core (fun k => { k with homeq := updIf k.homeq (fun e => e.id == h.id) (fun e => { e with xid := some x }) })).storeLeft core h.gid h.iid

/-- WRITE_AT_HOME (rules R269, R275, R321, R331, R336, R438): a write to another package departs; every other takes effect at its home, once
no copy owns a line of it and the pair's earlier writes of its lines have; the pair's dirty bytes went ahead of it when it issued. -/
def writeAtHome (core wid : Nat) (s : State) : State :=
  match (s.core core).homeq.find? (fun h => h.id == wid) with
  | none => s
  | some h =>
    let lines := unitsOf 128 h.cells
    if h.xid.isSome || !s.mayLand core h then s
    else if lines.any (fun l => regionOf (128 * l) == 1) then s.post01 core h
    else if h.gid == 0 then s.drainBacks core
    else
      let s := s.updCore core (fun k => { k with homeq := k.homeq.filter (fun e => e.id != wid) })
      let s := (s.writeHome core (s.placeOf core h.slot) h.cells h.poison h.mig).l1Replace core h.cells
      let s := if h.keep then lines.foldl (fun s l => s.l2Touch (s.sliceOf (stackOf core) l) l 0 true) s else s
      let s := (s.storeLeft core h.gid h.iid).noteDone core h.gid h.split
      if h.lrel then s.recordRelease core lines else s
def execWriteAtHome (core wid : Nat) (s : State) : Res := .next (writeAtHome core wid s)

/-! ### LDC (rules R273, R299) -/

/-- The virtual address of a constant address for `n` bytes (rule R299). -/
def State.constVa (s : State) (G : Group) (c : Int) (n : Nat) : Option Nat :=
  if decide (c < 0) || decide ((2 ^ 22 : Int) ≤ c) then none
  else
    let a := c.toNat
    match (match s.launches.find G.lid with | some L => L.consts[a / 65536]? | none => none) with
    | some (va, size) => if a % 65536 + n ≤ size.toNat then some (va.toNat + a % 65536) else none
    | none => none

/-- The line of a constant cache that holds a virtual address. -/
def Core.constLine (k : Core) (va : Nat) : Option CLine := k.ccache.find? (fun l => l.line == va / 128)

/-- A read with the bytes of its lanes whose lines a constant cache holds as it issues. -/
def Core.constHits (k : Core) (a : Acc) : Acc :=
  { a with got := (a.lanes.map (fun x => match k.constLine x.va with
    | some l => cellsAt x.va ((l.data.drop (x.va % 128)).take a.size)
    | none => [])).flatten }

/-- LDC. The bytes of a line that the constant cache holds are read as the instruction issues. -/
def ldcBody (f : FmtM) (s : State) : State :=
  s.begin (.ldc f) false (fun s X G p =>
    let m := activeLanes G p f.ge f.gn f.g
    let n := sizeBytes f.size
    let regs := sizeRegs f.size
    let P := { planM f false 0 with wv := regRun f.d.toNat regs }
    let offs := (lanesIn (m &&& ~~~(G.addrUnknown P)) G.w).map (fun l => (l, G.offset f true l))
    s.memIssue X G P f.y (fun s =>
        match offs.find? (fun x => x.2 % (n : Int) != 0) with
        | some (l, o) => (s.raise X 6 l (addrInfo (wrapInt o 64)), none)
        | none =>
          match offs.find? (fun x => (s.constVa G x.2 n).isNone) with
          | some (l, o) => (s.raise X 7 l (addrInfo (wrapInt o 64)), none)
          | none =>
            let vas := offs.map (fun x => (x.1, (s.constVa G x.2 n).getD 0))
            let hit (va : Nat) : Bool := ((s.core X.core).constLine va).isSome
            if vas.any (fun x => !hit x.2 && s.walkHeld (some X.core) G.part x.2) then (s.stall X 14, none)
            else
              let r := (vas.filter (fun x => !hit x.2)).foldl (fun (r : State × List (Nat × Nat × (TlbEnt ⊕ Nat))) x =>
                match r.1.translate (some X.core) G.part x.2 with
                | (s, some e) => (s, r.2 ++ [(x.1, x.2, .inl e)])
                | (s, none) => (s, r.2 ++ [(x.1, x.2, .inr x.2)])) (s, [])
              match r.1.pageChecks X G P true false r.2 with
              | (s, none) => (s, none)
              | (s, some q) =>
                (s, some { q with lanes := (vas.filter (fun x => hit x.2)).map (fun x => { lane := x.1, addr := 0, va := x.2 }) ++ q.lanes }))
        Reach.missed (fun s r =>
      (s, { infNone with kind := .cload, pc := p.pc, writes := readWrites f.d.toNat regs (m &&& ~~~r.missed),
                         acc := (s.core X.core).constHits { size := n, sx := sizeSigned f.size, lanes := r.lanes } })))
def execLdc (f : FmtM) (s : State) : Res := .next (ldcBody f s)

/-- The lanes of an LDC in flight whose bytes have not come, and whose line the constant cache still lacks. -/
def Core.constLacks (k : Core) (a : Acc) : List LaneA :=
  a.lanes.filter (fun x => (cellAt a.got x.va).isNone && (k.constLine x.va).isNone)

/-- Reads constant-cache lines for the bytes that a read in flight lacks, filling those the cache lacks; a poisoned line is not kept, nor
one of another package, which only an L1 keeps (rules R336, R438). -/
def State.constRead (s : State) (c : Nat) (a : Acc) : State × Acc :=
  (a.lanes.filter (fun x => (cellAt a.got x.va).isNone)).foldl (fun (r : State × Acc) x =>
    let put (s : State) (a : Acc) (data : List Byte) : State × Acc :=
      (s, { a with got := a.got ++ cellsAt x.va ((data.drop (x.va % 128)).take a.size) })
    match (r.1.core c).constLine x.va with
    | some l => put r.1 r.2 l.data
    | none =>
      let pa := x.addr - x.va % 128
      let q := r.1.coreRead c pa 128
      if q.1.poisoned x.addr a.size then
        let q' := put (q.1.readPoison (q.1.partOf c) (q.1.corePlace c) x.addr a.size) r.2 q.2
        (q'.1, { q'.2 with bad := some (r.2.bad.getD (addrInfo x.va)) })
      else if q.1.poisoned pa 128 || regionOf pa == 1 then put q.1 r.2 q.2
      else put (q.1.updCore c (fun k => { k with ccache := (⟨x.va / 128, q.2⟩ :: k.ccache).take 512 })) r.2 q.2) (s, a)

/-! ### LDL and STL (rules R262, R265, R298) -/

/-- Checks 3 to 6 of rule R295 for local-store accesses, through their windows: the offsets of the lanes that may be accessed (with the
physical line and the window of each in `mig`), and whether every window line is there. -/
def State.lsReach (s : State) (X : Ctx) (G : Group) (P : Plan) (offs : List (Nat × Int)) (n : Nat) (write : Bool) :
    State × Option (Reach × Bool) :=
  match offs.find? (fun x => x.2 % (n : Int) != 0) with
  | some (l, o) => (s.raise X 6 l (wrapInt o 19), none)
  | none =>
    match offs.find? (fun x => !((s.teamOf G).lsOk x.2 n)) with
    | some (l, o) => (s.raise X 7 l (wrapInt o 19), none)
    | none =>
      match s.lsChecks X G P (offs.map (fun x => (x.1, x.2.toNat))) n write with
      | (s, none) => (s, none)
      | (s, some q) =>
        let line (l o : Nat) : Option (Nat × Nat) := match q.fills.find? (fun x => x.1 == l) with
          | some x => some (x.2.2.2, x.2.1)
          | none => (s.teamOf G).lineAt o
        (s, some ({ lanes := (offs.filter (fun x => !inMask q.missed x.1)).map (fun x =>
                      { lane := x.1, addr := x.2.toNat, mig := line x.1 x.2.toNat }),
                    missed := q.missed }, q.fills.isEmpty))

/-- The window lines that a local-store access in flight still waits for (rule R265), each from the physical line that its lane
translated to. -/
def Team.waitsFor (T : Team) (a : Acc) (write : Bool) : List (Nat × Nat × Nat) :=
  (a.lanes.map (fun x => (T.lacks x.addr a.size write).filterMap (fun y => match x.mig with
    | some (line, w) => if w = y.1 then some (y.1, y.2, line) else none
    | none => none))).flatten

/-- The poisoned words that the lanes of a local-store read meet (rule R261), each once, in increasing lane. -/
def Team.badLanes (T : Team) (a : Acc) : List Nat :=
  a.lanes.foldl (fun (ws : List Nat) x => (T.badWords x.addr a.size).foldl addNew ws) []

/-- The bytes of a local-store read, and the first poisoned word's offset as its INFO (rules R261, R400). -/
def Team.lsBytes (T : Team) (a : Acc) : Acc :=
  { a with bad := (a.lanes.find? (fun x => T.bad x.addr a.size)).map (fun x => T.badAt x.addr a.size)
           got := (a.lanes.map (fun x => cellsAt x.addr (T.bytes x.addr a.size))).flatten }

/-- LDL: the bytes are read as the instruction issues, or once the stash lines it lacks are filled (rule R265), and the destination is
free when the data returns. -/
def ldlBody (f : FmtM) (s : State) : State :=
  s.begin (.ldl f) false (fun s X G p =>
    let m := activeLanes G p f.ge f.gn f.g
    let n := sizeBytes f.size
    let regs := sizeRegs f.size
    let P := { planM f false 0 with wv := regRun f.d.toNat regs }
    let offs := (lanesIn (m &&& ~~~(G.addrUnknown P)) G.w).map (fun l => (l, G.offset f true l))
    s.memIssue X G P f.y (fun s =>
        match s.lsReach X G P offs n false with
        | (s, none) => (s, none)
        | (s, some r) => match s.ordered X G f.ord f.scope 14 with
          | (s, false) => (s, none)
          | (s, true) => (s, some r)) (fun r => r.1.missed) (fun s r =>
      let T := s.teamOf G
      let a : Acc := { size := n, sx := sizeSigned f.size, lanes := r.1.lanes, scope := f.scope.toNat }
      let i : Inflight := { infNone with kind := .lload, pc := p.pc, acq := f.ord == 1, writes := readWrites f.d.toNat regs (m &&& ~~~r.1.missed) }
      if r.2 then (s.lsLog T (T.badLanes a) (s.placeOf X.core X.slot), { i with acc := T.lsBytes a }) else (s, { i with acc := a })))
def execLdl (f : FmtM) (s : State) : Res := .next (ldlBody f s)

/-- The bytes of a store into the local store of a group's team, in increasing lane. -/
def State.lsStore (s : State) (tid n : Nat) (lanes : List LaneA) (place : Nat) : State :=
  lanes.foldl (fun s x => s.lsWrite tid x.addr (bytesOf (x.b.toNat + 2 ^ 64 * x.c.toNat) n) place) s

/-- STL: the bytes are written as the instruction issues, or once the stash lines it lacks are owned (rule R265). -/
def stlBody (f : FmtM) (s : State) : State :=
  s.begin (.stl f) false (fun s X G p =>
    let m := activeLanes G p f.ge f.gn f.g
    let n := sizeBytes f.size
    let regs := sizeRegs f.size
    let P := planM f false regs
    s.memIssue X G P f.y (fun s =>
        match s.lsReach X G P ((lanesIn m G.w).map (fun l => (l, G.offset f true l))) n true with
        | (s, none) => (s, none)
        | (s, some r) => match s.ordered X G f.ord f.scope 14 with
          | (s, false) => (s, none)
          | (s, true) => (s, some r)) (fun _ => 0) (fun s r =>
      let val (l : Nat) : Nat := G.vnum f.b.toNat regs l
      let lanes := r.1.lanes.map (fun x => { x with b := w64 (val x.lane), c := w64 (val x.lane / 2 ^ 64) })
      let s := if lanes.isEmpty then s else s.usedFence X
      if r.2 then (s.lsStore G.tid n lanes (s.placeOf X.core X.slot), infNone)
      else (s, { infNone with kind := .lstore, pc := p.pc, acc := { size := n, lanes := lanes, scope := f.scope.toNat } })))
def execStl (f : FmtM) (s : State) : Res := .next (stlBody f s)

end Sys2Proof.Machine
end

