-- ==== Sys2Proof/Machine/Collector.lean ====
section
/-! DEFINITION. Atomics and counters (rules R302 to R304, R313, R314), gathers and scatters through the request collector (rules R283 to
R286, R301), and promotion (rules R329, R330). -/

namespace Sys2Proof.Machine

/-! ### Atomic operations (rule R302) -/

/-- The new value of an atomic of `n` bytes from the old value `o` and operands `b`, and `c` of `.cas`. -/
def atomOp (opc n o b c : Nat) : Nat :=
  let w := 8 * n
  let t := fltFmt (if n = 8 then 3 else 2)
  let flt (g : FVal → FVal → FVal) : Nat := t.round .rn false false (g (t.decode o) (t.decode b))
  match opc with
  | 0 => (o + b) % 2 ^ w
  | 1 => if sextNat b w < sextNat o w then b else o
  | 2 => if b < o then b else o
  | 3 => if sextNat o w < sextNat b w then b else o
  | 4 => if o < b then b else o
  | 5 => o &&& b
  | 6 => o ||| b
  | 7 => o ^^^ b
  | 8 => b
  | 9 => if o = c then b else o
  | 10 => if b ≤ o then 0 else o + 1
  | 11 => if o = 0 ∨ b < o then b else o - 1
  | 12 => flt (fAdd .rn)
  | 13 => flt (fMinMax false)
  | 14 => flt (fMinMax true)
  | _ => o

/-- The lanes of an atomic that reach an access of the issuing group, with their operands. -/
def atomLanes (G : Group) (f : FmtM) (lanes : List LaneA) : List LaneA :=
  let k := sizeRegs f.size
  lanes.map (fun x =>
    let u := w64 (G.vnum f.b.toNat k x.lane)
    if aopOpc f = 9 then { x with c := u, b := w64 (G.vnum (f.b.toNat + k) k x.lane) } else { x with b := u })

/-- Sends the updates of an atomic's lanes in other packages (rules R303, R304, R437): one for each lane, or for ATOMG one for each distinct
address, with the operands of its lanes. One that promotes does so there only at a scope that takes in both packages. -/
def State.sendAtoms (s : State) (X : Ctx) (G : Group) (a : Acc) : State :=
  let far := a.lanes.filter (fun x => regionOf x.addr == 1)
  let send (s : State) (addr : Nat) (op : RemoteOp) : State :=
    match s.sendXact X.core (addr / 2 ^ 40 % 1024) 0 op X.slot G.gid G.nextIid 0 with
    | some q => q.1
    | none => s
  let opc := BitVec.ofNat 5 a.opc
  let prom := a.prom && decide (5 ≤ a.scope)
  if a.whole then
    ((far.map (fun x => x.addr)).eraseDups).foldl (fun s d =>
      send s d (.atomics (d % 2 ^ 40) opc (a.size == 8) ((far.filter (fun x => x.addr == d)).map (fun x => x.b)) prom)) s
  else far.foldl (fun s x => send s x.addr (.atomic (x.addr % 2 ^ 40) opc (a.size == 8) x.b x.c prom)) s

/-- ATOM and ATOMG (rules R302 to R304, R329): issued here, performed at the home as LOAD_DATA_RETURN. -/
def State.atomic (s : State) (i : Instr) (f : FmtM) (whole : Bool) : State :=
  s.begin i false (fun s X G p =>
    let m := activeLanes G p f.ge f.gn f.g
    let n := sizeBytes f.size
    let k := sizeRegs f.size
    let opc := aopOpc f
    let P := planM f true (if opc = 15 then 0 else if opc = 9 then 2 * k else k)
    let P := if aopNr f then P else { P with wv := regRun f.d.toNat k }
    s.memIssue X G P f.y (fun s =>
        match s.reach X G P f.tr.toNat ((lanesIn m G.w).map (fun l => (l, G.offset f false l))) n true true with
        | (s, none) => (s, none)
        | (s, some r) =>
          if s.clash X G r.lanes n .write then (s.stall X 14, none)
          else match s.ordered X G f.ord f.scope 14 with
            | (s, false) => (s, none)
            | (s, true) => (s, some r)) (fun _ => 0) (fun s r =>
      let sc := f.scope.toNat
      let rel := f.ord.getLsbD 1
      let (oid, s) := s.fresh
      let home := r.lanes.any (fun x => regionOf x.addr != 1)
      let a : Acc := { size := n, lanes := atomLanes G f r.lanes, opc := opc, whole := whole, prom := aopPr f, scope := sc,
                       lrel := opc != 15 && ((rel && decide (sc ≤ 2)) || p.fenceRel),
                       wait := if aopPr f && home then probedCores X.core sc else [] }
      let s := s.sendAtoms X G a
      (if opc = 15 || r.lanes.isEmpty then s else s.usedFence X,
        { infNone with kind := .atom, pc := p.pc, acc := a, acq := f.ord.getLsbD 0, ref := oid,
                       writes := if aopNr f then [] else readWrites f.d.toNat k m })))
/-- ATOM (rule R303). DESIGN CHOICE: the lanes' updates, which another agent's may fall between, are made in one step (log entry 118). -/
def execAtom (f : FmtM) (s : State) : Res := .next (s.atomic (.atom f) f false)
/-- ATOMG (rule R304): its lanes are applied in one step, so no other agent sees a part. -/
def execAtomg (f : FmtM) (s : State) : Res := .next (s.atomic (.atomg f) f true)

/-- One lane's update at another package (rules R303, R304): the value there is a free one (log entry 12), but a later lane of an ATOMG
that names its address finds what the update left; `far` holds the values so left. -/
def State.farAtom (s : State) (far : Tab Nat) (a : Acc) (x : LaneA) : State × Tab Nat × Nat :=
  let q := match (if a.whole then far.find x.addr else none) with
    | some v => (s, v)
    | none => let r := s.homeRead x.addr a.size; (r.1, numOf r.2)
  (q.1, far.set x.addr (atomOp a.opc a.size q.2 x.b.toNat x.c.toNat), q.2)

/-- What the lanes of an atomic have done: the old values by lane, the first poisoned address, the values left in other packages. -/
structure Atomed where
  old : Tab Nat := []
  bad : Option Nat := none
  far : Tab Nat := []
  deriving DecidableEq, Repr

/-- Performs an atomic at the homes of its lanes, in increasing lane (rules R269, R272, R282, R296, R303). -/
def State.perform (s : State) (c place : Nat) (a : Acc) : State × Atomed :=
  let lines := (a.lanes.map (fun x => x.addr / 128)).eraseDups
  a.lanes.foldl (fun (r : State × Atomed) x =>
    if regionOf x.addr == 1 then
      let q := r.1.farAtom r.2.far a x
      let s := if a.opc = 15 then q.1 else q.1.l1InvClean (partnerOf c) (fun l => l == x.addr / 128)
      (s, { r.2 with old := r.2.old.set x.lane q.2.2, far := q.2.1 })
    else
      let q := r.1.homeRead x.addr a.size
      if q.1.poisoned x.addr a.size then
        (q.1.readPoison (q.1.partOf c) place x.addr a.size, { r.2 with bad := some (r.2.bad.getD (addrInfo x.va)) })
      else
        let o := numOf q.2
        let mig : Tab (Nat × Nat) := match x.mig with | some m => [(x.addr / 128, m)] | none => []
        let s := if a.opc = 15 then q.1
          else q.1.writeHome c place (cellsAt x.addr (bytesOf (atomOp a.opc a.size o x.b.toNat x.c.toNat) a.size)) [] mig
        (s, { r.2 with old := r.2.old.set x.lane o })) (lines.foldl (fun s l => s.l1Drop c l) s, {})

/-- Removes the transactions of an atomic that has returned (rule R437). -/
def State.atomsDone (s : State) (c slot gid iid : Nat) : State :=
  let mine (x : Xact) : Bool := x.core == c && x.slot == slot && x.gid == gid && x.iid == iid && (match x.op with
    | .atomic .. => true
    | .atomics .. => true
    | _ => false)
  { s with xacts := s.xacts.filter (fun x => !mine x) }

/-- An atomic takes effect, once its probes are answered, no copy owns its lines and the pair's writes of them are home; it then
completes. -/
def State.finishAtom (s : State) (c g : Nat) (i : Inflight) : State :=
  let lines := (i.acc.lanes.map (fun x => x.addr / 128)).eraseDups
  if !i.acc.wait.isEmpty then s
  else match s.settleAll c true lines with
  | (s, false) => s
  | (s, true) =>
    let q := s.perform c (s.placeOf c g) i.acc
    let s := if i.acc.prom then { q.1 with lrelHome := q.1.lrelHome.filter (fun e => !lines.contains e.1) } else q.1
    let s := if i.acc.lrel then s.recordRelease c (lines.filter (fun l => regionOf (128 * l) != 1)) else s
    let s := s.atomsDone c g (match s.group c g with | some G => G.gid | none => 0) i.id
    s.finishRead c g { i with acc := { i.acc with bad := q.2.bad } } (fun l => q.2.old.get 0 l)

/-- A local-store read in flight: its bytes are read once the stash lines that it waits for are filled, and asked for again when a recall
took one (rule R265). -/
def State.localRead (s : State) (core slot : Nat) (G : Group) (i : Inflight) : State :=
  if i.acc.lanes.isEmpty || !i.acc.got.isEmpty then s.finishRead core slot i i.acc.value
  else
    let T := s.teamOf G
    let need := T.waitsFor i.acc false
    if !need.isEmpty then s.demandAll G.tid need false
    else (s.lsLog T (T.badLanes i.acc) (s.placeOf core slot)).finishRead core slot { i with acc := T.lsBytes i.acc } (T.lsBytes i.acc).value

/-- LOAD_DATA_RETURN (rules R296, R303, R325): the data of a read has returned. -/
def loadReturn (core slot iid : Nat) (s : State) : State :=
  match s.group core slot with
  | none => s
  | some G =>
    match G.infl.find? (fun i => i.id == iid) with
    | none => s
    | some i =>
      match i.kind with
      | .load =>
        if i.acc.bypass then match s.settleAll core false ((i.acc.lanes.map (fun x => x.addr / 128)).eraseDups) with
          | (s, false) => s
          | (s, true) =>
            let q := s.bypassRead core i.acc
            q.1.finishRead core slot { i with acc := q.2 } q.2.value
        else if i.acc.full then s.finishRead core slot i i.acc.value else s
      | .cload =>
        if ((s.core core).constLacks i.acc).any (fun x => s.owned (x.addr / 128) || s.barred (s.partOf core) core (x.addr / 128)) then s
        else
          let q := s.constRead core i.acc
          q.1.finishRead core slot { i with acc := q.2 } (fun l => match q.2.lanes.find? (fun x => x.lane == l) with
            | some x => extend q.2.size q.2.sx (cellNum q.2.got x.va q.2.size)
            | none => 0)
      | .lload => s.localRead core slot G i
      | .atom => s.finishAtom core slot i
      | _ => s
def execLoadDataReturn (core slot iid : Nat) (s : State) : Res := .next (loadReturn core slot iid s)

/-- INSTRUCTION_COMPLETE (rules R19, R163, R265): the results of an instruction that computes are written, and a local store whose
stash lines are owned writes its bytes. -/
def instrComplete (core slot iid : Nat) (s : State) : State :=
  match s.group core slot with
  | none => s
  | some G =>
    match G.infl.find? (fun i => i.id == iid) with
    | none => s
    | some i =>
      match i.kind with
      | .alu => s.complete core slot iid i.writes
      | .lstore =>
        let need := (s.teamOf G).waitsFor i.acc true
        if need.isEmpty then (s.lsStore G.tid i.acc.size i.acc.lanes (s.placeOf core slot)).complete core slot iid i.writes
        else s.demandAll G.tid need true
      | _ => s
def execInstructionComplete (core slot iid : Nat) (s : State) : Res := .next (instrComplete core slot iid s)

/-! ### Counters (rules R313, R314) -/

/-- CADD (rule R313). It acts once, so a cause that it raises names lane 0 (R401). -/
def caddBody (f : FmtM) (s : State) : State :=
  s.begin (.cadd f) false (fun s X G p =>
    let m := activeLanes G p f.ge f.gn f.g
    let P := planM f true 0
    let P := { P with rk := P.rk ++ [f.b.toNat] }
    s.memIssue X G P f.y (fun s =>
        match s.reach X G P f.tr.toNat (((lanesIn m G.w).take 1).map (fun l => (0, G.offset f true l))) 8 true true with
        | (s, none) => (s, none)
        | (s, some r) =>
          if s.clash X G r.lanes 8 .write then (s.stall X 14, none)
          else if r.lanes.isEmpty then (s, some r)
          else match s.ordered X G f.ord f.scope 14 with
            | (s, false) => (s, none)
            | (s, true) => (s, some r)) (fun _ => 0) (fun s r =>
      if r.lanes.isEmpty then (s, infNone)
      else
        let sc := f.scope.toNat
        let a : Acc := { size := 8, lanes := r.lanes.map (fun x => { x with b := G.uni f.b.toNat }), opc := 0, scope := sc,
                         lrel := (f.ord == 2 && decide (sc ≤ 2)) || p.fenceRel }
        ((s.sendAtoms X G a).usedFence X, { infNone with kind := .atom, pc := p.pc, acc := a })))
def execCadd (f : FmtM) (s : State) : Res := .next (caddBody f s)

/-- CWAIT (rules R305, R314): the counter is read at its home. It acts once, so a cause that it raises names lane 0 (R401). -/
def cwaitBody (f : FmtM) (s : State) : State :=
  s.begin (.cwait f) false (fun s X G p =>
    let m := activeLanes G p f.ge f.gn f.g
    let P := planM f true 0
    let P := { P with rk := P.rk ++ [f.b.toNat] }
    s.memIssue X G P f.y (fun s =>
        match s.reach X G P f.tr.toNat (((lanesIn m G.w).take 1).map (fun l => (0, G.offset f true l))) 8 true false with
        | (s, none) => (s, none)
        | (s, some r) =>
          match r.lanes with
          | [] => (s, some r)
          | x :: _ =>
            if s.clash X G r.lanes 8 .home then (s.stall X 14, none)
            else match s.ordered X G f.ord f.scope 7 with
              | (s, false) => (s, none)
              | (s, true) =>
                match s.homeTake X.core x.addr 8 with
                | (s, none) => (s.await X (.counter x.addr) 7, none)
                | (s, some (b, bad)) =>
                  if bad then (s.deferPoison X (addrInfo x.va), none)
                  else if decide ((G.uni f.b.toNat).toNat ≤ numOf b) then (s, some r)
                  else (s.await X (.counter x.addr) 7, none)) (fun _ => 0) (fun s r =>
      (if f.ord == 1 && !r.lanes.isEmpty then s.acquire X.core G.gid f.scope.toNat else s, infNone)))
def execCwait (f : FmtM) (s : State) : Res := .next (cwaitBody f s)

/-- CWAIT_POLL (rule R314): the waiting CWAIT reads its counter again. -/
def execCwaitPoll (core slot split : Nat) (s : State) : Res :=
  .next (s.updGroup core slot (fun G => G.updSplit split (fun p => match p.wait with
    | .counter _ => { p with wait := .ready }
    | _ => p)))

/-! ### Remap descriptors (rules R283, R315) -/

/-- REMAPLD (rule R315). DEDUCED: a bad value of kA raises nothing where no lane is active, as the instruction then has no effect (rule
R294); rule R61, by which ILLEGAL stands even then, is of the word (log entry 119). -/
def remapldBody (f : FmtM) (s : State) : State :=
  s.begin (.remapld f) false (fun s X G p =>
    let m := activeLanes G p f.ge f.gn f.g
    let P := planM f false 0
    let d := G.uni f.a.toNat
    let mode := fld d 62 2
    let wrong := fld d 32 18 != 0 || (mode == 1 && fld d 0 32 == 0) || (mode == 2 && fld d 57 5 == 0)
      || ((mode == 0 || mode == 3) && (fld d 57 5 != 0 || fld d 0 32 != 0)) || (mode != 3 && fld d 50 7 != 0)
    s.memIssue X G P f.y (fun s => if m != 0 && wrong then (s.badValue X 1 f.a.toNat, none) else (s, some ())) (fun _ => 0) (fun s _ =>
      (if m == 0 then s else s.updGroup X.core X.slot (fun G => { G with remap := d }), infNone)))
def execRemapld (f : FmtM) (s : State) : Res := .next (remapldBody f s)

/-- The local-store offset of an index's table word (rule R283). -/
def remapWord (d : W64) (i : Nat) : Nat := 4096 * fld d 50 7 + 4 * (i % 1024)

/-- The remapped index (rule R283). -/
def remapIndex (T : Team) (d : W64) (i : Nat) : Nat :=
  match fld d 62 2 with
  | 0 => i
  | 1 => i % fld d 0 32
  | 2 => i ^^^ ((i >>> fld d 57 5) &&& fld d 0 32)
  | _ => (numOf (T.bytes (remapWord d i) 4) + (i - i % 1024)) % 2 ^ 32

/-- Checks 3 to 6 of rule R295 for GATHER and SCATTER, after the table of mode 11: the lanes, and the poisoned table words in increasing
lane. DEDUCED: the addresses need the table's words, so an instruction whose table lies in stash lines that are not there waits for them
before it issues (log entry 114). -/
def State.gatherReach (s : State) (X : Ctx) (G : Group) (P : Plan) (f : FmtM) (lanes : List Nat) (rd wr : Bool) :
    State × Option (Reach × List Nat) :=
  let d := G.remap
  let n := sizeBytes f.size
  let idx (l : Nat) : Nat := (G.vlane f.a.toNat l).toNat
  let table := fld d 62 2 == 3
  if table && !lanes.isEmpty && !((s.teamOf G).lsOk (4096 * fld d 50 7 : Nat) 4096) then (s.raise X 7 (lanes.headD 0) (4096 * fld d 50 7), none)
  else
    match (if table then s.lsChecks X G P (lanes.map (fun l => (l, remapWord d (idx l)))) 4 false else (s, some {})) with
    | (s, none) => (s, none)
    | (s, some q) =>
      if !q.fills.isEmpty then (s.stall X 14, none)
      else
        let T := s.teamOf G
        let ls := lanes.filter (fun l => !inMask q.missed l)
        let off (l : Nat) : Int := (remapIndex T d (idx l) * (if f.sc == 1 then n else 1) : Nat) + f.disp.toInt * (n : Int)
        let bad := if table then ls.foldl (fun (ws : List Nat) l => (T.badWords (remapWord d (idx l)) 4).foldl addNew ws) [] else []
        match s.reach X G P f.tr.toNat (ls.map (fun l => (l, off l))) n rd wr with
        | (s, none) => (s, none)
        | (s, some r) => (s, some ({ r with missed := r.missed ||| q.missed }, bad))

/-! ### The request collector (rules R284, R285, R332) -/

/-- Adds an entry and a request to a packet. -/
def Packet.add (p : Packet) (now : Nat) (e : Nat × Nat) (q : PReq) (cells : List Host.Cell) (keep lrel : Bool) : Packet :=
  { p with joined := now, entries := if p.write then p.entries ++ [e] else addNew p.entries e, writes := p.writes ++ cells
           reqs := addNew p.reqs q, keep := p.keep || keep, lrel := p.lrel || lrel }

/-- Whether a request may join a packet: an open one of its line and direction with room, or for a read a departed one that holds its
entry and has not returned; never past an invalidation, the group's latest acquire, or its latest write packet of the line. -/
def Core.joins (k : Core) (p : Packet) (line : Nat) (write : Bool) (e : Nat × Nat) (gid : Nat) : Bool :=
  p.line == line && p.write == write && (if write then !p.departed && decide (p.entries.length < 32)
    else !p.sealed && !p.bars.contains gid && (p.entries.contains e || (!p.departed && decide (p.entries.length < 32)))
      && !(k.packets.any (fun w => w.write && w.line == line && w.reqs.any (fun r => r.gid == gid) && decide (p.id < w.id))))

/-- The packets that hold a place of the collector: the open ones, and read packets whose data has not returned (rules R284, R285). -/
def Core.placesHeld (k : Core) : Nat := (k.packets.filter (fun p => !p.departed || !p.write)).length

/-- One lane's request enters the collector; the number of its packet. -/
def Core.enter (k : Core) (now : Nat) (x : LaneA) (n : Nat) (write : Bool) (q : PReq) (cells : List Host.Cell) (keep lrel : Bool) : Core × Nat :=
  let line := x.addr / 128
  let e := (x.addr % 128, n)
  let full (k : Core) (pid : Nat) : Core :=
    if k.packets.any (fun p => p.id == pid && !p.departed && decide (32 ≤ p.entries.length)) then k.depart pid else k
  match k.packets.find? (fun p => k.joins p line write e q.gid) with
  | some p =>
    (full { k with packets := updIf k.packets (fun r => r.id == p.id) (fun r => r.add now e q cells keep lrel) } p.id, p.id)
  | none =>
    let p : Packet := { id := k.nextId, line := line, write := write, opened := now, joined := now, mig := x.mig }
    ({ k with packets := k.packets ++ [p.add now e q cells keep lrel], nextId := k.nextId + 1 }, p.id)

/-- The requests of an instruction's lanes enter the collector; the numbers of their packets. `cells` are the bytes that a lane writes. -/
def Core.enterAll (k : Core) (now : Nat) (lanes : List LaneA) (n : Nat) (write : Bool) (q : PReq) (cells : LaneA → List Host.Cell)
    (keep lrel : Bool) : Core × List Nat :=
  lanes.foldl (fun (a : Core × List Nat) x =>
    let b := a.1.enter now x n write q (cells x) keep lrel
    (b.1, addNew a.2 b.2)) (k, [])

/-- The oldest `n` open packets depart (rule R284, event 5). -/
def Core.departOldest (k : Core) (n : Nat) : Core :=
  ((k.packets.filter (fun p => !p.departed)).take n).foldl (fun k p => k.depart p.id) k

/-- Room in the collector's 128 packets for the requests of an instruction (rule R284): where they do not all find it, the oldest open
packets depart, one for each place that departed ones will not give, and an instruction that still lacks room waits in UNIT. DEDUCED: a
departed write gives its place at once, a departed read when its data returns (log entry 120). -/
def State.roomFor (s : State) (X : Ctx) (lanes : List LaneA) (n : Nat) (write : Bool) (gid : Nat) : State × Bool :=
  let fits (k : Core) : Nat := ((k.enterAll s.cycle lanes n write ⟨X.slot, 0, gid, X.split⟩ (fun _ => []) false false).1.packets.length - k.packets.length) + k.placesHeld
  let k := s.core X.core
  if fits k ≤ 128 then (s, true)
  else
    let leaving := (k.packets.filter (fun p => p.departed && !p.write)).length
    let k := k.departOldest (fits k - 128 - leaving)
    let s := s.setCore X.core k
    if fits k ≤ 128 then (s, true) else (s.stall X 14, false)

/-- GATHER (rules R283 to R286, R301). -/
def gatherBody (f : FmtM) (s : State) : State :=
  s.begin (.gather f) false (fun s X G p =>
    let m := activeLanes G p f.ge f.gn f.g
    let n := sizeBytes f.size
    let k := sizeRegs f.size
    let P := { planM f true 0 with wv := regRun f.d.toNat k }
    let lanes := lanesIn (m &&& ~~~(G.addrUnknown P)) G.w
    s.memIssue X G P f.y (fun s =>
        match s.gatherReach X G P f lanes true false with
        | (s, none) => (s, none)
        | (s, some r) =>
          if s.clash X G r.1.lanes n .gather then (s.stall X 14, none)
          else match s.ordered X G f.ord f.scope 14 with
            | (s, false) => (s, none)
            | (s, true) => match s.roomFor X r.1.lanes n false G.gid with
              | (s, false) => (s, none)
              | (s, true) => (s, some r)) (fun r => r.1.missed) (fun s r =>
      let e := (s.core X.core).enterAll s.cycle r.1.lanes n false ⟨X.slot, G.nextIid, G.gid, X.split⟩ (fun _ => []) (f.hint == 3) false
      let a : Acc := { size := n, sx := sizeSigned f.size, lanes := r.1.lanes, wait := e.2, scope := f.scope.toNat, bad := r.2.head?.map (fun g => 8 * g) }
      ((s.setCore X.core e.1).lsLog (s.teamOf G) r.2 (s.placeOf X.core X.slot), { infNone with
        kind := if e.2.isEmpty then .lload else .gather, pc := p.pc, acc := a, acq := f.ord == 1, writes := readWrites f.d.toNat k (m &&& ~~~r.1.missed) })))
def execGather (f : FmtM) (s : State) : Res := .next (gatherBody f s)

/-- SCATTER (rules R269, R283 to R286, R301). A poisoned table word defers POISON and nothing is written. -/
def scatterBody (f : FmtM) (s : State) : State :=
  s.begin (.scatter f) false (fun s X G p =>
    let m := activeLanes G p f.ge f.gn f.g
    let n := sizeBytes f.size
    let k := sizeRegs f.size
    let P := planM f true k
    s.memIssue X G P f.y (fun s =>
        match s.gatherReach X G P f (lanesIn m G.w) false true with
        | (s, none) => (s, none)
        | (s, some r) =>
          if s.clash X G r.1.lanes n .write then (s.stall X 14, none)
          else match s.ordered X G f.ord f.scope 14 with
            | (s, false) => (s, none)
            | (s, true) => if !r.2.isEmpty then (s, some r)
              else match s.roomFor X r.1.lanes n true G.gid with
              | (s, false) => (s, none)
              | (s, true) => (s, some r)) (fun _ => 0) (fun s r =>
      match r.2 with
      | g :: _ => (s.lsLog (s.teamOf G) r.2 (s.placeOf X.core X.slot), { infNone with kind := .lload, pc := p.pc, acc := { bad := some (8 * g) } })
      | [] =>
        let sc := f.scope.toNat
        let lrel := (f.ord == 2 && decide (sc ≤ 2)) || p.fenceRel
        let e := (s.core X.core).enterAll s.cycle r.1.lanes n true ⟨X.slot, G.nextIid, G.gid, X.split⟩
          (fun x => cellsAt x.addr (bytesOf (G.vnum f.b.toNat k x.lane) n)) (f.hint == 3) lrel
        let s := s.setCore X.core e.1
        let waits := e.1.packets.any (fun w => !w.departed && e.2.contains w.id)
        (if r.1.lanes.isEmpty then s else s.usedFence X,
          { infNone with kind := if waits then .scatter else .alu, pc := p.pc, acc := { size := n, lanes := r.1.lanes } })))
def execScatter (f : FmtM) (s : State) : Res := .next (scatterBody f s)

/-- PACKET_OPEN_TIMEOUT (rule R284, event 1). -/
def execPacketOpenTimeout (core pid : Nat) (s : State) : Res :=
  .next (s.updCore core (fun k => if k.packets.any (fun p => p.id == pid && decide (p.opened + 64 ≤ s.cycle)) then k.depart pid else k))

/-- PACKET_IDLE_TIMEOUT (rule R284, event 2). -/
def execPacketIdleTimeout (core pid : Nat) (s : State) : Res :=
  .next (s.updCore core (fun k => if k.packets.any (fun p => p.id == pid && decide (p.joined + 8 ≤ s.cycle)) then k.depart pid else k))

/-- GATHER_EXPANDER (rules R269, R285, R286, R292, R330): a departed packet is served at its line's home, in opening order. -/
def expand (core pid : Nat) (s : State) : State :=
  let k := s.core core
  match k.packets.find? (fun p => p.id == pid) with
  | none => s
  | some p =>
    if !p.departed || p.served || k.packets.any (fun q => q.line == p.line && !q.served && decide (q.id < pid)) then s
    else match s.servePacket core p with
      | (s, false) => s
      | (s, true) => if p.write && p.lrel && regionOf (128 * p.line) != 1 then s.recordRelease core [p.line] else s
def execGatherExpander (core pid : Nat) (s : State) : Res := .next (expand core pid s)

/-- PACKET_RETURN (rule R285): a read packet's data comes to the gathers that wait for it; one whose last packet this was completes. -/
def packetReturn (core pid : Nat) (s : State) : State :=
  match (s.core core).packets.find? (fun p => p.id == pid && p.served) with
  | none => s
  | some p =>
    let s := s.updCore core (fun k => { k with packets := k.packets.filter (fun q => q.id != pid) })
    p.reqs.foldl (fun s r =>
      match s.group core r.slot with
      | none => s
      | some G =>
        match G.infl.find? (fun i => G.gid == r.gid && i.id == r.iid && i.acc.wait.contains pid) with
        | none => s
        | some i =>
          let hurt := i.acc.lanes.find? (fun x => x.addr / 128 == p.line && p.bad.contains (x.addr % 128, i.acc.size))
          let a := { i.acc with got := i.acc.got ++ p.data, wait := i.acc.wait.filter (fun x => x != pid),
                                bad := if i.acc.bad.isSome then i.acc.bad else hurt.map (fun x => addrInfo x.va) }
          let i := { i with acc := a }
          let s := s.setGroup core r.slot { G with infl := updIf G.infl (fun j => j.id == i.id) (fun _ => i) }
          if a.wait.isEmpty then s.finishRead core r.slot i a.value else s) s
def execPacketReturn (core pid : Nat) (s : State) : Res := .next (packetReturn core pid s)

/-! ### Promotion (rule R330) -/

/-- The atomic with number `oid`: its core, slot and entry. -/
def State.atomOf (s : State) (oid : Nat) : Option (Nat × Nat × Inflight) :=
  (s.cores.filterMap (fun (c, k) => (k.slots.filterMap (fun (g, G) =>
    (G.infl.find? (fun i => i.kind == .atom && i.ref == oid)).map (fun i => (c, g, i)))).head?)).head?

/-- PROMOTION_PROBE: a core that holds a line of the acquire with LREL, or is recorded at its home, acts as a release; it clears LREL for the
line and answers. -/
def probe (core oid : Nat) (s : State) : State :=
  match s.atomOf oid with
  | none => s
  | some (c, g, i) =>
    if !(i.acc.wait.contains core) then s
    else
      let lines := (i.acc.lanes.map (fun x => x.addr / 128)).eraseDups
      let k := s.core core
      let acts := lines.any (fun l => (k.l1line l).any (fun x => x.lrel) || (s.lrelHome.get [] l).contains core)
      let answer (s : State) : State := s.updGroup c g (fun G => { G with infl := updIf G.infl (fun j => j.id == i.id) (fun j =>
        { j with acc := { j.acc with wait := j.acc.wait.filter (fun x => x != core) } }) })
      if !acts then answer s
      else match s.coreRelease core with
        | (s, false) => s
        | (s, true) => answer (s.updCore core (fun k => { k with l1 := updIf k.l1 (fun x => lines.contains x.line) (fun x => { x with lrel := false }) }))
def execPromotionProbe (core oid : Nat) (s : State) : Res := .next (probe core oid s)

end Sys2Proof.Machine
end

