-- ==== Sys2Proof/Machine/Order.lean ====
section
/-! DEFINITION. FENCE, TRANSLATE, PREF, L1 maintenance, stash windows and arrival words of rows 0x9_ and 0xA_ (rules R305 to R312). -/

namespace Sys2Proof.Machine

/-! ### FENCE (rules R305, R327) -/

/-- Whether a read of a split has not returned. -/
def Group.reading (G : Group) (split : Nat) : Bool :=
  G.infl.any (fun i => i.split == split && (match i.kind with
    | .load | .lload | .cload | .gather | .atom => true
    | _ => false))

/-- FENCE: it holds its split in MEMWAIT until its release has taken effect and its split's reads have returned. -/
def fenceBody (f : FmtM) (s : State) : State :=
  s.begin (.fence f) false (fun s X G p =>
    let m := activeLanes G p f.ge f.gn f.g
    let sc := f.scope.toNat
    let rel := f.ord.getLsbD 1
    let acq := f.ord.getLsbD 0
    s.memIssue X G (({} : Plan).guard f.ge f.gn f.g) f.y (fun s =>
        if m == 0 then (s, some ())
        else match s.ordered X G f.ord f.scope 7 with
          | (s, false) => (s, none)
          | (s, true) => if acq && G.reading X.split then (s.stall X 7, none) else (s, some ())) (fun _ => 0) (fun s _ =>
      if m == 0 then (s, infNone)
      else
        let s := if acq then s.acquire X.core G.gid sc else s
        let s := if rel && decide (sc ≤ 2) then s.updGroup X.core X.slot (fun G => G.updSplit X.split (fun p => { p with fenceRel := true })) else s
        (s, infNone)))
def execFence (f : FmtM) (s : State) : Res := .next (fenceBody f s)

/-! ### TRANSLATE and PREF (rules R306, R307) -/

/-- TRANSLATE. -/
def translateBody (f : FmtM) (s : State) : State :=
  s.begin (.translate f) false (fun s X G p =>
    let m := activeLanes G p f.ge f.gn f.g
    let P := { planM f false 0 with wt := [f.d.toNat] }
    let va := (G.uni f.a.toNat).toNat
    let idle := m == 0 || G.addrUnknown P != 0
    s.memIssue X G P f.y (fun s =>
        if idle then (s, some none)
        else if decide (2 ^ 57 ≤ va) then (s.raise X 7 0 (addrInfo va), none)
        else if s.walkHeld (some X.core) G.part va then (s.stall X 14, none)
        else match s.translate (some X.core) G.part va with
          | (s, some e) => (s, some (some e))
          | (s, none) => if G.ra.isSome then (s.addPage X 0 va, some none) else (s.pageMiss X P 0 va 0, none)) (fun _ => 0) (fun s e =>
      match e with
      | some e => (s.updGroup X.core X.slot (fun G => { G with
          regs := { G.regs with t := G.regs.t.set f.d.toNat (tregOf e va) }
          ra := G.ra.map (fun r => { r with unkT := r.unkT.filter (fun n => n != f.d.toNat) }) }), infNone)
      | none =>
        let lost := m != 0 && G.ra.isSome
        (if lost then s.updGroup X.core X.slot (fun G => { G with ra := G.ra.map (fun r => { r with unkT := addNew r.unkT f.d.toNat }) }) else s, infNone)))
def execTranslate (f : FmtM) (s : State) : Res := .next (translateBody f s)

/-- The line of a lane that PREF, L1INV and L1FLUSH reach, where its address passes the checks of rule R295. -/
def State.softLine (s : State) (X : Ctx) (G : Group) (tr : Nat) (o : Int) (rd : Bool) : State × Option (Nat ⊕ Nat) :=
  let t := G.treg tr
  let va : Int := (fld t.w0 0 57 : Int) + o
  if fld t.w1 63 1 == 0 || decide (va < 0) || decide ((2 ^ 57 : Int) ≤ va) then (s, none)
  else match s.pageOf X tr o with
    | (s, .inr va) => (s, some (.inr va))
    | (s, .inl e) =>
      let pa := e.pa va.toNat
      (s, if (rd && !e.rd) || !s.regionOk pa then none else some (.inl (pa / 128)))

/-- A prefetch that cannot be made now waits, and a later fill of its line makes it (rules R307, R331). -/
def State.prefer (s : State) (c line : Nat) (hint : BitVec 2) : State :=
  match s.prefetch c line hint with
  | (s, true) => s
  | (s, false) => s.updCore c (fun k => { k with prefs := addNew k.prefs ⟨line, hint⟩ })

/-- PREF: it makes no check beyond the word, raises no cause, and completes at issue. DEDUCED: a fetch that must wait goes on without it, and
an instruction whose look-up meets a table line that a copy owns waits for the copy's recall first (R307, R331; log entry 36). -/
def prefBody (f : FmtM) (s : State) : State :=
  s.begin (.pref f) false (fun s X G p =>
    let m := activeLanes G p f.ge f.gn f.g
    let P := planM f true 0
    let lanes := lanesIn (m &&& ~~~(G.addrUnknown P)) G.w
    match s.ready X G P with
    | (s, false) => s
    | (s, true) =>
      if G.acquiring X.split || lanes.any (fun l => s.pageHeld X f.tr.toNat (G.offset f true l)) then s.stallFor X G P 14
      else match s.take X P with
        | (s, false) => s
        | (s, true) =>
          (lanes.foldl (fun s l => match s.softLine X G f.tr.toNat (G.offset f true l) true with
            | (s, none) => s
            | (s, some (.inr va)) => if G.ra.isSome then s.addPage X 0 va else s
            | (s, some (.inl line)) => s.prefer X.core line f.hint) (s.noteDead X G P)).post X P f.y none infNone 0)
def execPref (f : FmtM) (s : State) : Res := .next (prefBody f s)

/-! ### L1INV and L1FLUSH (rule R308) -/

/-- The common course of L1INV and L1FLUSH: the lines of the active lanes, or the whole L1, given to `act`; the split is held until what
`act` leaves to do has been done, `gone`. -/
def State.l1Op (s : State) (i : Instr) (f : FmtM) (act : State → Nat → Nat → State) (gone : Core → Nat → Bool) : State :=
  s.begin i false (fun s X G p =>
    let m := activeLanes G p f.ge f.gn f.g
    let P := planM f (f.size == 0) 0
    let offs := if f.size == 1 then [] else (lanesIn m G.w).map (fun l => G.offset f true l)
    s.memIssue X G P f.y (fun s =>
        if offs.any (fun o => s.pageHeld X f.tr.toNat o) then (s.stall X 14, none)
        else
          let q : State × List Nat := if m == 0 then (s, [])
            else if f.size == 1 then (s, ((s.core X.core).l1.map (fun l => l.line) ++ (s.core X.core).homeq.flatMap (fun h => unitsOf 128 h.cells)).eraseDups)
            else offs.foldl (fun (r : State × List Nat) o =>
              match r.1.softLine X G f.tr.toNat o false with
              | (s, some (.inl line)) => (s, addNew r.2 line)
              | (s, _) => (s, r.2)) (s, [])
          let s := q.2.foldl (fun s l => act s X.core l) q.1
          if q.2.all (gone (s.core X.core)) then (s, some ()) else (s.stall X 7, none)) (fun _ => 0) (fun s _ => (s, infNone)))

/-- L1INV: the clean bytes go; dirty bytes stay dirty. -/
def execL1inv (f : FmtM) (s : State) : Res := .next (s.l1Op (.l1inv f) f (fun s c l => s.l1InvClean c (fun x => x == l)) (fun _ _ => true))
/-- L1FLUSH: the dirty bytes are written back and stay, clean; it completes when every one has reached the L2. -/
def execL1flush (f : FmtM) (s : State) : Res := .next (s.l1Op (.l1flush f) f (fun s c l => s.l1BackAlone c l) (fun k l => !k.backing l))

/-! ### Stash windows (rules R264, R309, R310) -/

/-- Whether an LDL or STL of the team waits for a line of a window (rule R265). -/
def State.winAwaited (s : State) (tid w : Nat) : Bool :=
  match s.teams.find tid with
  | none => false
  | some T => s.cores.any (fun k => k.2.slots.any (fun e => e.2.tid == tid && e.2.infl.any (fun i =>
      ((i.kind == .lload && i.acc.got.isEmpty) || i.kind == .lstore) && (T.waitsFor i.acc (i.kind == .lstore)).any (fun x => x.1 == w))))

/-- Writes back the M lines of a window, which become E (rule R265, STFLUSH). -/
def State.flushWin (s : State) (tid w : Nat) : State :=
  match (s.teams.find tid).bind (fun T => T.wins.find w) with
  | none => s
  | some W => (W.st.filter (fun e => e.2.1 == .m)).foldl (fun s e =>
      (s.recallAt tid w e.1).updTeam tid (fun T => match T.wins.find w with
        | some W => { T with wins := T.wins.set w { W with st := W.st.set e.1 (.e, e.2.2) } }
        | none => T)) s

/-- Removes a window (rule R310): M lines are written back, and the bytes of the lines in I become zero. -/
def State.unmapWin (s : State) (tid w : Nat) : State :=
  match (s.teams.find tid).bind (fun T => T.wins.find w) with
  | none => s
  | some W =>
    let s := s.flushWin tid w
    s.updTeam tid (fun T =>
      let gone := (List.range W.lines).filter (fun i => (W.st.find i).isNone)
      let T := gone.foldl (fun T i => { T with
        ls := lsSet T.ls (W.off + 128 * i) (List.replicate 128 0)
        lsBad := T.lsBad.filter (fun g => !(decide (W.off + 128 * i ≤ 8 * g) && decide (8 * g < W.off + 128 * i + 128))) }) T
      { T with wins := T.wins.erase w })

/-- Whether a window line of a team's core is on its way to another package (rules R310, R336). -/
def State.winBacks (s : State) (tid : Nat) : Bool :=
  match s.teams.find tid with
  | none => false
  | some T => (s.core T.core).homeq.any (fun h => h.gid == 0 && h.cells.any (fun c => regionOf c.1 == 1))

/-- STMAP (rules R264, R309). It acts once, so a cause that it raises names lane 0 (R401). DEDUCED: a bad value of kB raises nothing where no
lane is active (rule R294, log entry 119). A window that is replaced is removed once no LDL or STL of the team waits for a line of it (log
entry 145). -/
def stmapBody (f : FmtM) (s : State) : State :=
  s.begin (.stmap f) false (fun s X G p =>
    let m := activeLanes G p f.ge f.gn f.g
    let P := planM f true 0
    let P := { P with rk := P.rk ++ [f.b.toNat] }
    let l := (lanesIn m G.w).headD 0
    let o := G.offset f false l
    let w := G.uni f.b.toNat
    let n := fld w 26 11 + 1
    let off := fld w 0 19
    let t := G.treg f.tr.toNat
    let va : Int := (fld t.w0 0 57 : Int) + o
    s.memIssue X G P f.y (fun s =>
        let T := s.teamOf G
        let overlaps := T.wins.any (fun e => e.1 != fld w 38 2 && overlap off (128 * n) e.2.off (128 * e.2.lines))
        if m == 0 then (s, some ())
        else if fld w 40 24 != 0 || fld w 19 7 != 0 then (s.badValue X 1 f.b.toNat, none)
        else if va % 128 != 0 then (s.raise X 6 0 (addrInfo (wrapInt va 64)), none)
        else if off % 128 != 0 then (s.raise X 6 0 off, none)
        else if fld t.w1 63 1 == 0 || decide (va < 0) || decide ((2 ^ 57 : Int) ≤ va) then (s.raise X 7 0 (addrInfo (wrapInt va 64)), none)
        else if !(T.lsOk (off : Nat) (128 * n)) || overlaps then (s.raise X 7 0 off, none)
        else if !t.stale && (decide (o < 0) || decide ((fld t.w2 0 36 : Int) < o + 128 * n)) then (s.raise X 7 0 (addrInfo va.toNat), none)
        else if s.pageHeld X f.tr.toNat o then (s.stall X 14, none)
        else match s.pageOf X f.tr.toNat o with
          | (s, .inr va) => (s.pageMiss X P 0 va 0, none)
          | (s, .inl e) =>
            let limit := match s.group X.core X.slot with | some G => fld (G.treg f.tr.toNat).w2 0 36 | none => 0
            if decide (o < 0) || decide ((limit : Int) < o + 128 * n) || !e.rd || !s.regionOk (e.pa va.toNat) then
              (s.raise X 7 0 (addrInfo va.toNat), none)
            else if s.winAwaited G.tid (fld w 38 2) then (s.stall X 14, none)
            else
              let s := s.unmapWin G.tid (fld w 38 2)
              if s.winBacks G.tid then (s.stall X 7, none) else (s, some ())) (fun _ => 0) (fun s _ =>
      if m == 0 then (s, infNone)
      else
        let W : Win := { va := va.toNat, wr := fld w 37 1 == 1, lines := n, off := off }
        (s.updTeam G.tid (fun T => { T with wins := T.wins.set (fld w 38 2) W }), infNone)))
def execStmap (f : FmtM) (s : State) : Res := .next (stmapBody f s)

/-- The common course of STUNMAP and STFLUSH: they act once no LDL or STL of the team waits for a line of the window (log entry 145), and
the split is held until the write-backs have reached their homes. -/
def State.winOp (s : State) (i : Instr) (f : FmtM) (act : State → Nat → Nat → State) : State :=
  s.begin i false (fun s X G p =>
    let m := activeLanes G p f.ge f.gn f.g
    s.memIssue X G (({} : Plan).guard f.ge f.gn f.g) f.y (fun s =>
        if m == 0 then (s, some ())
        else if s.winAwaited G.tid f.disp.toNat then (s.stall X 14, none)
        else
          let s := act s G.tid f.disp.toNat
          if s.winBacks G.tid then (s.stall X 7, none) else (s, some ())) (fun _ => 0) (fun s _ => (s, infNone)))
/-- STUNMAP (rule R310). -/
def execStunmap (f : FmtM) (s : State) : Res := .next (s.winOp (.stunmap f) f (fun s t w => s.unmapWin t w))
/-- STFLUSH (rule R310). -/
def execStflush (f : FmtM) (s : State) : Res := .next (s.winOp (.stflush f) f (fun s t w => s.flushWin t w))

/-! ### Arrival words (rules R311, R312) -/

/-- The common course of the arrival-word instructions: the value check `pre`, ALIGN, PROTECT, the word's presence, and `ask`, which may hold
the split; with no active lane there is no effect. `k` gives the effect and the writes. A poisoned word that it reads is recorded (R415). -/
def State.arrival (s : State) (i : Instr) (f : FmtM) (P : Plan) (write : Bool) (pre : Group → Bool)
    (ask : State → Ctx → Group → Nat → W64 × W64 → State × Bool) (k : State → Ctx → Group → Nat → W64 × W64 → Mask → State × List RegW) : State :=
  s.begin i false (fun s X G p =>
    let m := activeLanes G p f.ge f.gn f.g
    let l := (lanesIn m G.w).headD 0
    let o := G.offset f false l
    s.memIssue X G P f.y (fun s =>
        if m == 0 then (s, some ())
        else if pre G then (s.raise X 10 0 (wrapInt o 19), none)
        else if o % 16 != 0 then (s.raise X 6 0 (wrapInt o 19), none)
        else if !((s.teamOf G).lsOk o 16) then (s.raise X 7 0 (wrapInt o 19), none)
        else match s.lsAccess X G { P with y := f.y } o.toNat 16 0 write with
          | (s, .ok) => match ask s X G o.toNat ((s.teamOf G).obj o.toNat) with
            | (s, true) => (s, some ())
            | (s, false) => (s, none)
          | (s, _) => (s, none)) (fun _ => 0) (fun s _ =>
      if m == 0 then (s, infNone)
      else
        let T := s.teamOf G
        let r := k (s.lsLog T (T.badWords o.toNat 16) (s.placeOf X.core X.slot)) X G o.toNat (T.obj o.toNat) m
        (r.1, { infNone with writes := r.2 })))

/-- The plan of an arrival-word instruction: its offset and B are uniform. -/
def planAw (f : FmtM) : Plan :=
  let P := planM f false 0
  { P with rk := P.rk ++ [f.b.toNat] }

/-- AWINIT (rule R311). -/
def execAwinit (f : FmtM) (s : State) : Res := .next (s.arrival (.awinit f) f { planAw f with wk := [f.d.toNat] } true
  (fun G => G.uni f.b.toNat == 0 || decide (2 ^ 32 ≤ (G.uni f.b.toNat).toNat)) (fun s _ _ _ _ => (s, true)) (fun s X G o w _ =>
    let v := awInit w.2 (G.uni f.b.toNat).toNat
    (s.putObj G.tid o v.1 v.2 true (s.placeOf X.core X.slot), [{ sp := .uni, num := f.d.toNat, word := w64 (awGen v.2) }])))

/-- AWADD (rule R311). -/
def execAwadd (f : FmtM) (s : State) : Res := .next (s.arrival (.awadd f) f { planAw f with wk := [f.d.toNat] } true
  (fun _ => false) (fun s X G _ _ => s.ordered X G f.ord f.scope 14) (fun s X G o w _ =>
    let r := awAdd w.1 w.2 (fld (G.uni f.b.toNat) 0 32)
    ((s.putObj G.tid o r.1 r.2.1 r.2.2 (s.placeOf X.core X.slot)).usedFence X, [{ sp := .uni, num := f.d.toNat, word := w64 (awGen w.2) }])))

/-- AWWAIT (rules R312, R323): with `.acq` a wait that gives 1 is an acquire. -/
def execAwwait (f : FmtM) (s : State) : Res := .next (s.arrival (.awwait f) f { planAw f with wp := [f.d.toNat] } false
  (fun _ => false) (fun s X G o w =>
    let q := s.ordered X G f.ord f.scope 7
    if awV w.2 && awGen w.2 == fld (G.uni f.b.toNat) 0 16 then (q.1.await X (.arrival o) 7, false) else q)
  (fun s X G _ w m =>
    let s := if f.ord == 1 && awV w.2 then s.acquire X.core G.gid f.scope.toNat else s
    (s, putAll G.w m spPred f.d.toNat false false (fun _ => boolNat (awV w.2)))))

end Sys2Proof.Machine
end

