-- ==== Sys2Proof/Machine/Sums.lean ====
section
/-! DEFINITION. What a multiply and a drain compute (chapter 8): crest timing (rules R212, R213, R218, R220), crest-group sums (rules R112
to R115, R228), and drain conversion (rule R230). -/

namespace Sys2Proof.Machine

/-! ### Fields of the format block and control word (rules R204 to R207) -/

def fbA (x : W64) : Nat := fld x 0 4
def fbB (x : W64) : Nat := fld x 4 4
def fbAsc (x : W64) : Bool := fld x 15 1 == 1
def fbBsc (x : W64) : Bool := fld x 16 1 == 1
def fbBl (x : W64) : Nat := if fld x 17 1 = 1 then 32 else 16
def fbSat (x : W64) : Bool := fld x 18 1 == 1
def cwG (x : W64) : Nat := 4 * 2 ^ fld x 0 3
def cwD (x : W64) : Nat := 2 ^ fld x 3 2
def cwSpe (x : W64) : Bool := fld x 5 1 == 1
def cwV (x : W64) : Nat := 4 * 2 ^ fld x 6 2
def cwN (x : W64) : Nat := fld x 8 6

/-- Output columns of a mode (rule R202). -/
def modeCols (af : Nat) : Nat := match af with | 9 => 256 | 8 => 512 | _ => 1024

/-- The accumulator format of an activation format: none for INT32. -/
def accFmt (af : Nat) : BinFmt := if af = 9 then fmt64 else fmt32

/-- Step count, row count and logical depth (rules R203, R219, R238). -/
def tileM (t : W64) : Nat := fld t 9 7 + 1
def tileQ (t : W64) : Nat := fld t 16 7 + 1
def depth (q : Nat) (cw : W64) : Nat := if cwSpe cw then q * cwV cw / cwN cw else q

/-! ### Crest timing (rules R213, R218) -/

/-- The rows of a crest group as they run: latest finish of each row, crests latest first, wait cycles, and finishes per step. -/
structure Crest where
  fin : List Nat
  crests : List Nat := []
  wait : Nat := 0
  fins : List (List Nat) := []

/-- One step m of a crest group with drift depth `d`. -/
def Crest.step (c : Crest) (d : Nat) (costs : List Nat) : Crest :=
  let gate := c.crests.getD (d - 1) 0
  let fin := (c.fin.zip costs).map (fun x => Nat.max x.1 gate + x.2)
  { fin := fin, crests := fin.foldl Nat.max 0 :: c.crests, wait := c.wait + (c.fin.map (fun f => gate - f)).sum, fins := c.fins ++ [fin] }

/-- A crest group of `g` rows over its steps' costs. -/
def crestRun (g d : Nat) (costs : List (List Nat)) : Crest :=
  costs.foldl (fun c x => c.step d x) { fin := List.replicate g 0 }

/-- T(c). -/
def Crest.time (c : Crest) : Nat := c.crests.headD 0

/-- The most steps that one row of the group held in its drift buffer at once (rule R218). -/
def Crest.lead (c : Crest) (g : Nat) : Nat :=
  let crests := c.crests.reverse
  (List.range g).foldl (fun best r =>
    let spans := (c.fins.zip crests).map (fun x => (x.1.getD r 0, x.2))
    spans.foldl (fun best s => Nat.max best (spans.filter (fun u => decide (u.1 ≤ s.1) && decide (s.1 < u.2))).length) best) 0

/-! ### Crest-group sums (rules R112 to R115) -/

/-- floor(log2) of a non-zero finite magnitude. -/
def floorLog (m : Nat) (e : Int) : Int := (m.log2 : Int) + e

/-- A product kept to a multiple of 2^u, as an integer in those units, and whether a bit was discarded. -/
def keepTo (u : Int) (v : FVal) : Int × Bool :=
  match v with
  | .num neg m e =>
    if u ≤ e then (intAt neg m e u, false)
    else
      let d := (u - e).toNat
      (if neg then -(m / 2 ^ d : Nat) else (m / 2 ^ d : Nat), m % 2 ^ d != 0)
  | _ => (0, false)

/-- round_ne(acc + S) with its sticky rule: a midpoint goes away from zero, and a zero result is +0. -/
def addRound (b : BinFmt) (sat sticky : Bool) (x : FVal) : Nat :=
  let y := match x with
    | .num neg m e =>
      if sticky && m != 0 then
        let u := min e b.qmin - 2
        .num neg (scaleTo m e u + 1) u
      else x
    | _ => x
  let r := (NumFmt.bin b).round .rn false sat y
  if r % 2 ^ (b.w - 1) = 0 then 0 else r

/-- One crest group's products added to an accumulator (rules R112, R113). -/
def crestAdd (b : BinFmt) (sat : Bool) (acc : Nat) (ps : List FVal) : Nat :=
  let a := b.decode acc
  let hasInf (n : Bool) : Bool := ps.any (fun p => p == .inf n)
  if ps.any (fun p => p == .nan) || a == .nan then b.nanCode
  else if hasInf false || hasInf true then
    if (hasInf false && hasInf true) || a == .inf (!hasInf true) then b.nanCode
    else (if hasInf true then 2 ^ (b.w - 1) else 0) + b.maxCode + 1
  else match a with
    | .num _ _ _ =>
      let nz := ps.filterMap (fun p => match p with | .num _ m e => if m = 0 then none else some (floorLog m e) | _ => none)
      match nz with
      | [] => acc
      | e :: es =>
        let u := es.foldl max e - 191
        let ks := ps.map (keepTo u)
        let s : Int := (ks.map (fun k => k.1)).foldl (fun (x y : Int) => x + y) 0
        addRound b sat (ks.any (fun k => k.2)) (fAdd .rn a (.num (decide (s < 0)) s.natAbs u))
    | _ => acc

/-- The integer sum of a crest group (rule R115). -/
def crestAddInt (sat : Bool) (acc : Nat) (s : Int) : Nat :=
  let x := sextNat acc 32 + s
  wrapInt (if sat then sats x 32 else x) 32

/-- A part of a scaled block: the exact sum of its products times σ (rule R114). -/
def scaledPart (ps : List FVal) (sg : FVal) : FVal := fMul (ps.foldl (fAdd .rn) (.num false 0 0)) sg

/-! ### A multiply (rules R219, R220, R228, R244) -/

/-- What a multiply reads: formats, shape, elements by list index, weights, indices and scales. -/
structure MulIn where
  fb : W64
  cw : W64
  m : Nat
  q : Nat
  els : List TElem
  bank : Bank
  foreign : Bool
  ascale : List Nat
  bscale : List Nat

/-- The logical row that a unit selects; none where its index is V or more. -/
def MulIn.select (x : MulIn) (q n : Nat) : Option Nat :=
  if cwSpe x.cw then
    let i := x.bank.idx.get 0 (q * 1024 + n)
    if i < cwV x.cw then some (q / cwN x.cw * cwV x.cw + i) else none
  else some q

/-- Element a[m, j]. -/
def MulIn.elem (x : MulIn) (m j : Nat) : TElem := x.els.getD (m * depth x.q x.cw + j) .zero

/-- The weight of a unit. -/
def MulIn.weight (x : MulIn) (q n : Nat) : FVal :=
  if x.foreign then .num false 0 0
  else
    let c := (x.bank.wts.get 0 (q * 1024 + n)).toNat
    let f := x.bank.wfmt
    if tint f then ofInt (sextNat c (twidth f)) else (tfmt f).decode (c % 2 ^ (tfmt f).width)

/-- cost(q, m) (rules R212, R220). -/
def MulIn.cost (x : MulIn) (q m : Nat) : Nat :=
  if cwSpe x.cw then
    let cols := modeCols (fbA x.fb)
    let mine := ((x.bank.idx.map (fun e => e.1)).filter (fun u => decide (q * 1024 ≤ u) && decide (u < q * 1024 + cols))).eraseDups
    let js := (if mine.length < cols then [0] else []) ++ (mine.map (fun u => x.bank.idx.get 0 u)).eraseDups
    ((js.filter (fun i => decide (i < cwV x.cw))).map (fun i => (x.elem m (q / cwN x.cw * cwV x.cw + i)).cost)).foldl Nat.max 0
  else (x.elem m q).cost

/-- The crest groups of a multiply as they run. -/
def MulIn.crests (x : MulIn) : List Crest :=
  let g := cwG x.cw
  (List.range (x.q / g)).map (fun c =>
    crestRun g (cwD x.cw) ((List.range x.m).map (fun m => (List.range g).map (fun r => x.cost (c * g + r) m))))

/-- The products of crest group `c` at step `m` and column `n`, block-scaled where the format says so. -/
def MulIn.products (x : MulIn) (c m n : Nat) : List FVal :=
  let g := cwG x.cw
  let af := fbA x.fb
  let rows := (List.range g).filterMap (fun r => (x.select (c * g + r) n).map (fun j => (c * g + r, j)))
  let prod (r : Nat × Nat) : FVal := fMul ((x.elem m r.2).value af) (x.weight r.1 n)
  if fbAsc x.fb || fbBsc x.fb then
    let bl := fbBl x.fb
    let nb := depth x.q x.cw / bl
    let one : FVal := .num false 1 0
    ((rows.map (fun r => r.2 / bl)).eraseDups).map (fun j =>
      let sa := if fbAsc x.fb then s20 (x.ascale.getD (m * nb + j) 0) else one
      let sb := if fbBsc x.fb then s20 (x.bscale.getD (n * nb + j) 0) else one
      scaledPart ((rows.filter (fun r => r.2 / bl == j)).map prod) (fMul sa sb))
  else rows.map prod

/-- The accumulator of one step and column after every crest group, in increasing c. -/
def MulIn.sum (x : MulIn) (m n acc : Nat) : Nat :=
  let af := fbA x.fb
  (List.range (x.q / cwG x.cw)).foldl (fun a c =>
    if tint af then crestAddInt (fbSat x.fb) a (((x.products c m n).map FVal.int).foldl (fun p q => p + q) 0)
    else crestAdd (accFmt af) (fbSat x.fb) a (x.products c m n)) acc

/-- The columns that a multiply can change: all, unless every product with an unlisted weight is exactly zero. -/
def MulIn.columns (x : MulIn) : List Nat :=
  let all := List.range (modeCols (fbA x.fb))
  let plain (e : TElem) : Bool := match e with | .special _ | .over => false | _ => true
  if x.els.all plain && !fbAsc x.fb && !fbBsc x.fb then
    (if x.foreign then [] else (x.bank.wts.map (fun e => e.1 % 1024)).eraseDups.filter all.contains)
  else all

/-! ### Accumulator words (rule R222) -/

/-- The element of a row and column of the store in a mode. -/
def Core.accGet (k : Core) (af row n : Nat) : Nat :=
  if af = 9 then (k.acc.get 0 (row * 1024 + 2 * n)).toNat + 2 ^ 32 * (k.acc.get 0 (row * 1024 + 2 * n + 1)).toNat
  else (k.acc.get 0 (row * 1024 + n)).toNat

/-- Writes an element. -/
def Core.accSet (k : Core) (af row n v : Nat) : Core :=
  if af = 9 then { k with acc := (k.acc.set (row * 1024 + 2 * n) (w32 v)).set (row * 1024 + 2 * n + 1) (w32 (v / 2 ^ 32)) }
  else { k with acc := k.acc.set (row * 1024 + n) (w32 v) }

/-- The columns of rows [row, row + m) whose accumulator holds a NaN (rule R113): a multiply makes it the canonical one. -/
def Core.nanCols (k : Core) (af row m : Nat) : List Nat :=
  if tint af then []
  else
    let cols := (k.acc.filter (fun e => decide (row * 1024 ≤ e.1) && decide (e.1 < (row + m) * 1024))).map (fun e =>
      if af = 9 then e.1 % 1024 / 2 else e.1 % 1024)
    cols.eraseDups.filter (fun n => decide (n < modeCols af) && (List.range m).any (fun j => (accFmt af).decode (k.accGet af (row + j) n) == .nan))

/-! ### Drains (rule R230) -/

/-- The permitted drain formats. -/
def drainOk (af df : Nat) : Bool :=
  if tint af then df == 0 || df == 1 || df == 8
  else if af == 9 then df == 0 || df == 9 || df == 6 || df == 7 || df == 8
  else df == 0 || (decide (2 ≤ df) && decide (df ≤ 7))

/-- Width of a drained element (rule R248). -/
def drainWidth (af df : Nat) : Nat :=
  if df = 0 ∨ df = 9 then (if af = 9 then 64 else 32)
  else if df = 1 ∨ (2 ≤ df ∧ df ≤ 5) then 8
  else if df = 8 then 32 else 16

/-- convert(x, DFMT, DRND, DSAT) of an accumulator code. -/
def drainConv (af : Nat) (fb : W64) (x : Nat) : Nat :=
  let df := fld fb 60 4
  let mode := rmode (fld fb 58 2)
  let sat := fld fb 57 1 == 1
  if df = 0 ∨ df = 9 then x
  else if tint af then
    (if df = 1 then wrapInt (sats (sextNat x 32) 8) 8 else (NumFmt.bin fmt32).round mode false false (ofInt (sextNat x 32)))
  else (tfmt df).round mode false sat ((accFmt af).decode x)

/-- The value of an accumulator code. -/
def accVal (af x : Nat) : FVal := if tint af then ofInt (sextNat x 32) else (accFmt af).decode x

/-- Counts one drained element into a tensor (rule R230). -/
def Hist.count (h : Hist) (v : FVal) : Hist :=
  let bin (i : Nat) : Hist := { h with bins := h.bins.set i (satAdd (h.bins.get 0 i) 1 32) }
  match v with
  | .nan => { h with nan := satAdd h.nan 1 32 }
  | .inf _ => bin 31
  | .num _ m e => if m = 0 then { h with zero := satAdd h.zero 1 32 }
      else bin (max 0 (min 31 (floorLog m e - h.base + 16))).toNat

end Sys2Proof.Machine
end

