-- ==== Sys2Proof/Machine/Term.lean ====
section
/-! DEFINITION. Row 0x8_: the term instructions (rules R233 to R256). -/

namespace Sys2Proof.Machine

/-! ### Checks (rules R208, R226, R236 to R239) -/

/-- Whether a format block breaks rules R204, R205 or R230 by itself. -/
def fbBad (x : W64) : Bool :=
  let a := fbA x
  let b := fbB x
  let pair := if a ≤ 1 then decide (b ≤ 1) else if a ≤ 7 then decide (2 ≤ b) && decide (b ≤ 7)
    else if a = 8 then b == 6 || b == 7 || b == 8 else if a = 9 then b == 8 || b == 9 else false
  fld x 8 7 != 0 || !pair || ((fbAsc x || fbBsc x) && !(decide (2 ≤ a) && decide (a ≤ 7))) || !(drainOk a (fld x 60 4))

/-- Whether a control word breaks rules R207 or R208 by itself. -/
def cwBad (x : W64) : Bool :=
  fld x 14 50 != 0 || decide (6 ≤ fld x 0 3)
    || (if cwSpe x then cwN x == 0 || decide (cwV x < cwN x) else cwN x != 0 || fld x 6 2 != 0)

/-- Whether a tile word breaks rule R238, or rule R208 with a format block and control word. -/
def tileBad (t fb cw : W64) : Bool :=
  let q := tileQ t
  fld t 23 41 != 0 || (!(fbBad fb) && !(cwBad cw) &&
    (q % cwG cw != 0 || (cwSpe cw && (q % cwN cw != 0 || decide (1024 < q * cwV cw / cwN cw)))
      || ((fbAsc fb || fbBsc fb) && depth q cw % fbBl fb != 0)))

/-- Whether a load word breaks rule R238. -/
def loadBad (x fb : W64) (src : Nat) : Bool :=
  fld x 53 11 != 0 || fld x 15 1 != 0 || fld x 7 1 != 0 || (src == 0 && fld x 36 17 != 0)
    || decide (128 < fld x 0 7 + fld x 8 7 + 1) || (!(fbBad fb) && decide (modeCols (fbA fb) < fld x 16 10 + fld x 26 10 + 1))

/-- Whether a row word breaks rule R238: `zero` for TZERO. -/
def rowBad (x : W64) (fb : Option W64) : Bool :=
  fld x 38 26 != 0 || (match fb with
    | none => fld x 28 10 != 0 || fld x 18 10 != 0
    | some fb => !(fbBad fb) && decide (modeCols (fbA fb) < fld x 18 10 + fld x 28 10 + 1))

/-- A group's accumulator window (rule R223): first absolute row and rows. -/
def Team.window (T : Team) (idx : Nat) : Nat × Nat :=
  let lo := if T.span = 0 then T.base else T.base + idx * T.span
  let hi := if T.span = 0 then T.limit else Nat.min (lo + T.span) T.limit
  if hi ≤ lo then (0, 0) else (lo, hi - lo)

/-- The checks of rule R236: a range of 8-byte elements that starts at an odd register (R234, of step 1; log entry 39); failing register
values in the order A, B, C, FBK, CWK with the register that is named; ALIGN with the INFO that names its register; the local-store
extents; and the rows. -/
structure TermChecks where
  odd : Bool := false
  vals : List (Bool × Nat × Nat) := []
  align : Option Nat := none
  ext : List (Nat × Nat) := []
  rows : Option (Nat × Nat) := none

/-- Asks for local-store extents that an instruction reads or writes at its issue. DEDUCED: where a stash line must come first, the
instruction waits for it before it issues (log entry 137). -/
def State.lsAll (s : State) (X : Ctx) (G : Group) (P : Plan) (ext : List (Nat × Nat)) (write : Bool) : State × Bool :=
  ext.foldl (fun (r : State × Bool) e => match r with
    | (s, false) => (s, false)
    | (s, true) => match s.lsAccess X G P e.1 e.2 0 write with
      | (s, .ok) => (s, true)
      | (s, _) => (s, false)) (s, true)

/-- Whether the queue has room for an instruction of an issue slot now (rule R214). DESIGN CHOICE: where a higher slot's instruction of this
cycle is in the queue already, that of a lower slot issues in the next cycle, so that those of one cycle enter in increasing slot (log entry
148). -/
def Core.queueRoom (k : Core) (slot cycle : Nat) : Bool :=
  decide (k.tq.length < 16) && !(k.tq.any (fun e => e.issued == cycle && decide (slot % 4 < e.slot % 4)))

/-- The common course of a term instruction (rules R214, R224, R236): a pending allocation, the checks in order, an acquire before
a local-store read, room in the queue, the local store it touches, then reads and allocations and the effect `k`. DEDUCED: INFO of an ALIGN
names the register of the offset, as rule R236 says of TRECODE and TDECODE, though R400's row for ALIGN gives the offset (log entry 121). -/
def State.termOp (s : State) (i : Instr) (f : FmtX) (plan : Plan) (chk : State → Group → TermChecks) (queued : Bool)
    (touch : State → Group → List (Nat × Nat) × Bool) (k : State → Ctx → Group → Split → State × Inflight) : State :=
  s.begin i false (fun s X G p =>
    match s.ready X G plan with
    | (s, false) => s
    | (s, true) =>
      let T := s.teamOf G
      if T.req.isSome then s.stall X 14
      else
        let c := chk s G
        if c.odd then s.illegal X ⟨8, 0, 0⟩
        else match c.vals.find? (fun v => v.1) with
        | some (_, sp, n) => s.badValue X sp n
        | none =>
          match c.align, c.ext.find? (fun e => !(T.lsOk (e.1 : Nat) e.2)), c.rows with
          | some i, _, _ => s.raise X 6 0 i
          | none, some e, _ => s.raise X 7 0 (e.1 % 2 ^ 19)
          | none, none, rows =>
            let w := (T.window G.idx).2
            match rows.filter (fun r => decide (w < r.1 + r.2)) with
            | some r => s.raise X 9 0 (Nat.max r.1 w)
            | none =>
              if decide (1 < G.splits.length) || p.am != p.own then s.raise X 3 0 G.splits.length
              else match s.dead X G plan with
                | (s, false) => s
                | (s, true) =>
                  let t := touch s G
                  if (G.acquiring X.split && !t.1.isEmpty) || (queued && !((s.core X.core).queueRoom X.slot s.cycle)) then s.stall X 14
                  else match s.lsAll X G { plan with y := f.y } t.1 t.2 with
                    | (s, false) => s
                    | (s, true) =>
                      match s.take X plan with
                      | (s, false) => s
                      | (s, true) =>
                        let q := k (s.noteDead X G plan) X G p
                        q.1.post X plan f.y none q.2 0)

/-- The vector range of a field (rule R233). -/
def rangeOf (f : FmtX) (n : Nat) : List Nat := regRun n (xopCnt f)

/-- A plan with the uniform registers FBK and CWK. -/
def planX (f : FmtX) (fbk cwk : Bool) : Plan :=
  { rk := (if fbk then [f.fbk.toNat] else []) ++ (if cwk then [f.cwk.toNat] else []) }

/-- Whether a range of 8-byte elements starts at an odd register (rule R234). -/
def oddRange (w n : Nat) : Bool := w == 64 && n % 2 == 1

/-! ### The queue (rules R214, R217, R240, R245) -/

def Core.bank (k : Core) (b : Nat) : Bank := if b = 0 then k.bank0 else k.bank1
def Core.setBank (k : Core) (b : Nat) (x : Bank) : Core := if b = 0 then { k with bank0 := x } else { k with bank1 := x }

/-- The part of an entry that every instruction fills in: it is at the head no earlier than the cycle after the entry before it started
(rule R243). -/
def State.entry (s : State) (X : Ctx) (G : Group) (kind : TKind) : TermEntry :=
  { id := (s.core X.core).nextId, kind := kind, slot := X.slot, gid := G.gid, iid := G.nextIid, tid := G.tid, idx := G.idx, part := G.part,
    split := X.split, w := G.w, issued := s.cycle, head := Nat.max s.cycle (s.core X.core).headFrom }

/-- The queue with an entry added: entries of one cycle stand in increasing issue slot (rule R214). -/
def enter (q : List TermEntry) (e : TermEntry) : List TermEntry :=
  let later (x : TermEntry) : Bool := x.issued == e.issued && decide (e.slot % 4 < x.slot % 4)
  q.filter (fun x => !later x) ++ e :: q.filter later

/-- An entry enters the queue; a clock-gated array is asked to wake. -/
def State.enqueue (s : State) (X : Ctx) (e : TermEntry) : State :=
  s.updCore X.core (fun k => { k with
    tq := enter k.tq e, nextId := k.nextId + 1
    wakeReq := if k.gatedArray && k.wakeReq.isNone && k.wakeAt.isNone then some s.cycle else k.wakeReq })

/-- An instruction in flight of the queue. -/
def infTerm (s : State) (X : Ctx) (p : Split) (writes : List RegW) : Inflight :=
  { infNone with kind := .term, pc := p.pc, ref := (s.core X.core).nextId, writes := writes }

/-- The codes of a list of `c` elements of `w` bits in a range (rule R237). -/
def Group.elements (G : Group) (n w c : Nat) : List Nat :=
  (List.range c).map (elemAt (fun r l => (G.vlane (n + r) l).toNat) w G.w)


/-! ### Loads (rules R240 to R242) -/

/-- Shape of a load: columns, rows, width, and the bytes of its local-store source (rule R239). -/
def loadCols (x : W64) : Nat := fld x 26 10 + 1
def loadRows (x : W64) : Nat := fld x 8 7 + 1
def loadSpan (x fb : W64) : Nat := (loadRows x - 1) * fld x 36 17 + ceilDiv (loadCols x * twidth (fbB fb)) 8

/-- TLDW and TLDWS. -/
def State.loadOp (s : State) (i : Instr) (f : FmtX) (sparse : Bool) : State :=
  let src := (xopSrc f).toNat
  let P := planX f true sparse
  let P := { P with rk := f.b.toNat :: (if sparse then f.c.toNat :: P.rk else P.rk) }
  let P := if src = 0 then { P with rv := rangeOf f f.a.toNat, lu := if f.la == 1 then rangeOf f f.a.toNat else [] }
    else { P with rk := f.a.toNat :: P.rk }
  let word (G : Group) : W64 := G.uni f.b.toNat
  let fb (G : Group) : W64 := G.uni f.fbk.toNat
  let cw (G : Group) : W64 := if sparse then G.uni f.cwk.toNat else 0
  let ext (G : Group) : List (Nat × Nat) :=
    (if src = 1 then [((G.uni f.a.toNat).toNat, loadSpan (word G) (fb G))] else [])
      ++ (if sparse then [((G.uni f.c.toNat).toNat, loadRows (word G) * loadCols (word G))] else [])
  s.termOp i f P (fun _ G =>
      let w := twidth (fbB (fb G))
      { odd := src == 0 && !(fbBad (fb G)) && oddRange w f.a.toNat
        vals := [(loadBad (word G) (fb G) src
            || (src == 0 && !(fbBad (fb G)) && regsFor (loadRows (word G) * loadCols (word G)) w G.w != xopCnt f), 1, f.b.toNat),
          (fbBad (fb G), 1, f.fbk.toNat), (sparse && (cwBad (cw G) || !(cwSpe (cw G))), 1, f.cwk.toNat)]
        ext := ext G }) true (fun _ G => (ext G, false)) (fun s X G p =>
      let T := s.teamOf G
      let k := s.core X.core
      let b := k.bank (xopBank f)
      let w := twidth (fbB (fb G))
      let n := loadRows (word G) * loadCols (word G)
      let off := if src = 1 then (G.uni f.a.toNat).toNat else 0
      let ioff := if sparse then (G.uni f.c.toNat).toNat else 0
      let e : TermEntry := { s.entry X G .load with
        bank := xopBank f, fb := fb G, cw := cw G, word := word G, src := src, off := off, ioff := ioff, sparse := sparse
        bytes := if src = 1 then T.bytes off (loadSpan (word G) (fb G)) else []
        ibytes := if sparse then T.bytes ioff n else []
        els := if src = 0 then (G.elements f.a.toNat w n).map w64 else []
        clear := !(b.team == some G.tid && b.bfmt == fbB (fb G)) }
      let inf := infTerm s X p []
      (((s.enqueue X e).updCore X.core (fun k => k.setBank (xopBank f) { k.bank (xopBank f) with team := some G.tid, bfmt := fbB (fb G) })), inf))
/-- TLDW (rule R240). -/
def execTldw (f : FmtX) (s : State) : Res := .next (s.loadOp (.tldw f) f false)
/-- TLDWS (rule R241). -/
def execTldws (f : FmtX) (s : State) : Res := .next (s.loadOp (.tldws f) f true)

/-! ### Multiplies (rules R206, R244, R245) -/

/-- The scale arrays of a multiply (rule R206): offset and words, activations first. -/
def scaleExt (fb cw t : W64) : List (Nat × Nat) :=
  let nb := depth (tileQ t) cw / fbBl fb
  (if fbAsc fb then [(4 * fld fb 23 17, 4 * (tileM t * nb))] else [])
    ++ (if fbBsc fb then [(4 * fld fb 40 17, 4 * (modeCols (fbA fb) * nb))] else [])

/-- The 32-bit words of a run of the local store. -/
def Team.words (T : Team) (o n : Nat) : List Nat := (List.range n).map (fun i => numOf (T.bytes (o + 4 * i) 4))

/-- Values, rows and scale extents that TMMA, TMMAQ and TBOUND check; `rec` is the bank's record. -/
def mulChecks (G : Group) (f : FmtX) (bank : Option Bank) (more : List (Bool × Nat × Nat)) (moreC : Bool) : TermChecks :=
  let t := G.uni f.c.toNat
  let fb := G.uni f.fbk.toNat
  let cw := G.uni f.cwk.toNat
  let other := match bank with
    | some b => b.team == some G.tid && b.bfmt != fbB fb
    | none => false
  { vals := more ++ [(tileBad t fb cw || moreC, 1, f.c.toNat), (fbBad fb || other, 1, f.fbk.toNat), (cwBad cw, 1, f.cwk.toNat)]
    ext := scaleExt fb cw t
    rows := match bank with | some _ => some (fld t 0 9, tileM t) | none => none }

/-- The granules that the feeder's blocks take now, at least one, within their limit (rule R244). -/
def feederBytes (T : Team) (af off limit n : Nat) : Nat :=
  32 * Nat.max 1 (Nat.min limit (readBlocks af (T.bytes off (32 * limit)) limit n).2)

/-- A multiply's entry, with its scales, which are read at issue (rule R206). -/
def State.mulEntry (s : State) (X : Ctx) (G : Group) (f : FmtX) : TermEntry :=
  let T := s.teamOf G
  let t := G.uni f.c.toNat
  let fb := G.uni f.fbk.toNat
  let cw := G.uni f.cwk.toNat
  let nb := depth (tileQ t) cw / fbBl fb
  let ext := scaleExt fb cw t
  { s.entry X G .mul with
    bank := xopBank f, fb := fb, cw := cw, word := t, row := (T.window G.idx).1 + fld t 0 9
    foreign := (s.core X.core).bank (xopBank f) |>.team |> (fun x => x != some G.tid)
    ascale := if fbAsc fb then T.words (4 * fld fb 23 17) (tileM t * nb) else []
    bscale := if fbBsc fb then T.words (4 * fld fb 40 17) (modeCols (fbA fb) * nb) else []
    badW := (ext.map (fun e => T.badWords e.1 e.2)).flatten }

/-- LEN of a feeder word. -/
def feederLen (x : W64) : Nat := if fld x 24 14 = 0 then 16384 else fld x 24 14

/-- TMMA. -/
def tmmaBody (f : FmtX) (s : State) : State :=
  let src := (xopSrc f).toNat
  let P := planX f true true
  let P := { P with rk := f.c.toNat :: P.rk }
  let P := if src = 0 then { P with rv := rangeOf f f.a.toNat, lu := if f.la == 1 then rangeOf f f.a.toNat else [] }
    else { P with rk := f.a.toNat :: P.rk }
  let fb (G : Group) : W64 := G.uni f.fbk.toNat
  let count (G : Group) : Nat := tileM (G.uni f.c.toNat) * depth (tileQ (G.uni f.c.toNat)) (G.uni f.cwk.toNat)
  let feed (G : Group) : W64 := G.uni f.a.toNat
  s.termOp (.tmma f) f P (fun s G =>
      let ok := !(fbBad (fb G)) && !(cwBad (G.uni f.cwk.toNat))
      let w := twidth (fbA (fb G))
      let c := mulChecks G f (some ((s.core s.cur.core).bank (xopBank f)))
        [(src == 1 && (fld (feed G) 38 26 != 0 || fld (feed G) 19 5 != 0 || fld (feed G) 0 19 % 32 != 0), 1, f.a.toNat)]
        (src == 0 && ok && regsFor (count G) w G.w != xopCnt f)
      { c with odd := src == 0 && !(fbBad (fb G)) && oddRange w f.a.toNat, ext := (if src = 1 then [(fld (feed G) 0 19, 32 * feederLen (feed G))] else []) ++ c.ext }) true
    (fun s G =>
      let sc := scaleExt (fb G) (G.uni f.cwk.toNat) (G.uni f.c.toNat)
      (if src = 1 then (fld (feed G) 0 19, feederBytes (s.teamOf G) (fbA (fb G)) (fld (feed G) 0 19) (feederLen (feed G)) (ceilDiv (count G) 16)) :: sc
        else sc, false)) (fun s X G p =>
      let T := s.teamOf G
      let e := s.mulEntry X G f
      let n := 32 * feederLen (feed G)
      let e : TermEntry := if src = 0 then { e with els := (G.elements f.a.toNat (twidth (fbA (fb G))) (count G)).map w64, fill := 10 }
        else { e with src := 1, fill := 14, off := fld (feed G) 0 19, bytes := T.bytes (fld (feed G) 0 19) n }
      (s.enqueue X e, infTerm s X p []))
def execTmma (f : FmtX) (s : State) : Res := .next (tmmaBody f s)

/-- TMMAQ. -/
def tmmaqBody (f : FmtX) (s : State) : State :=
  let P := planX f true true
  let fb (G : Group) : W64 := G.uni f.fbk.toNat
  let count (G : Group) : Nat := tileM (G.uni f.c.toNat) * depth (tileQ (G.uni f.c.toNat)) (G.uni f.cwk.toNat)
  let tile (G : Group) : Nat × Nat := match G.walk with | some w => (w.base + 32 * w.next * w.tstr, w.tstr) | none => (0, 0)
  s.termOp (.tmmaq f) f { P with rk := f.c.toNat :: P.rk } (fun s G =>
      mulChecks G f (some ((s.core s.cur.core).bank (xopBank f))) [] G.walk.isNone) true
    (fun s G => ((if (tile G).2 = 0 then [] else
      [((tile G).1, feederBytes (s.teamOf G) (fbA (fb G)) (tile G).1 (tile G).2 (ceilDiv (count G) 16))])
        ++ scaleExt (fb G) (G.uni f.cwk.toNat) (G.uni f.c.toNat), false)) (fun s X G p =>
      match G.walk with
      | none => (s, infNone)
      | some w =>
        let T := s.teamOf G
        let e := s.mulEntry X G f
        let e : TermEntry := { e with src := 2, fill := 14, off := (tile G).1, bytes := T.bytes (tile G).1 (32 * w.tstr)
                                      walk := some (G.gid, w.serial, w.next), prior := some (G.gid, w.serial, (w.next + w.nt - 1) % w.nt) }
        let s' := (s.enqueue X e).updGroup X.core X.slot (fun G => { G with walk := some { w with next := (w.next + 1) % w.nt } })
        (s', infTerm s X p []))
def execTmmaq (f : FmtX) (s : State) : Res := .next (tmmaqBody f s)

/-- TFEED (rule R245). -/
def tfeedBody (f : FmtX) (s : State) : State :=
  let x (G : Group) : W64 := G.uni f.a.toNat
  s.termOp (.tfeed f) f { rk := [f.a.toNat] } (fun _ G =>
      let t := fld (x G) 24 16
      { vals := [(fld (x G) 56 8 != 0 || fld (x G) 40 8 != 0 || fld (x G) 19 5 != 0 || t == 0 || decide (16384 < t) || fld (x G) 0 19 % 32 != 0,
          1, f.a.toNat)]
        ext := [(fld (x G) 0 19, 32 * (fld (x G) 48 8 + 1) * t)] }) false (fun _ _ => ([], false)) (fun s X G _ =>
      let serial := match G.walk with | some w => w.serial + 1 | none => 0
      (s.updGroup X.core X.slot (fun G => { G with walk := some ⟨fld (x G) 0 19, fld (x G) 24 16, fld (x G) 48 8 + 1, 0, serial⟩ }), infNone))
def execTfeed (f : FmtX) (s : State) : Res := .next (tfeedBody f s)

/-! ### TZERO, TDRAIN, THIST (rules R247 to R249) -/

def rowCount (x : W64) : Nat := fld x 9 9 + 1
def colCount (x : W64) : Nat := fld x 28 10 + 1

/-- TZERO. -/
def tzeroBody (f : FmtX) (s : State) : State :=
  let x (G : Group) : W64 := G.uni f.c.toNat
  s.termOp (.tzero f) f { rk := [f.c.toNat] } (fun _ G =>
      { vals := [(rowBad (x G) none, 1, f.c.toNat)], rows := some (fld (x G) 0 9, rowCount (x G)) }) true (fun _ _ => ([], false))
    (fun s X G p =>
      let e : TermEntry := { s.entry X G .zero with word := x G, row := ((s.teamOf G).window G.idx).1 + fld (x G) 0 9 }
      (s.enqueue X e, infTerm s X p []))
def execTzero (f : FmtX) (s : State) : Res := .next (tzeroBody f s)

/-- The destination writes of a range, without values yet. -/
def rangeWrites (f : FmtX) (w : Nat) : List RegW := (rangeOf f f.d.toNat).map (fun r => { sp := .vec, num := r, mask := fullMask w })

/-- TDRAIN: its split is held until the drain has started. A spilled destination is reloaded first, as a drain that finds a mark writes
nothing (rules R20, R248). -/
def tdrainBody (f : FmtX) (s : State) : State :=
  let x (G : Group) : W64 := G.uni f.c.toNat
  let fb (G : Group) : W64 := G.uni f.fbk.toNat
  let w (G : Group) : Nat := drainWidth (fbA (fb G)) (fld (fb G) 60 4)
  let X := s.cur
  let eid := (s.core X.core).nextId
  let t := s.termOp (.tdrain f) f { rk := [f.c.toNat, f.fbk.toNat], wv := rangeOf f f.d.toNat } (fun _ G =>
      { odd := !(fbBad (fb G)) && oddRange (w G) f.d.toNat
        vals := [(rowBad (x G) (some (fb G)) || (!(fbBad (fb G)) && regsFor (rowCount (x G) * colCount (x G)) (w G) G.w != xopCnt f), 1, f.c.toNat),
          (fbBad (fb G), 1, f.fbk.toNat)]
        rows := some (fld (x G) 0 9, rowCount (x G)) }) true (fun _ _ => ([], false)) (fun s X G p =>
      let e : TermEntry := { s.entry X G .drain with
        fb := fb G, word := x G, row := ((s.teamOf G).window G.idx).1 + fld (x G) 0 9, dst := f.d.toNat, cnt := xopCnt f }
      (s.enqueue X e, infTerm s X p (rangeWrites f G.w)))
  if (t.core X.core).tq.any (fun e => e.id == eid) then
    t.updGroup X.core X.slot (fun G => G.updSplit X.split (fun p => { p with wait := .drain eid, stall := 14 }))
  else t
def execTdrain (f : FmtX) (s : State) : Res := .next (tdrainBody f s)

/-- THIST. -/
def thistBody (f : FmtX) (s : State) : State :=
  let x (G : Group) : W64 := G.uni f.a.toNat
  s.termOp (.thist f) f { rk := [f.a.toNat], wv := rangeOf f f.d.toNat, full := true } (fun _ G =>
      { vals := [(regsFor 34 32 G.w != xopCnt f, 0, f.d.toNat)] }) true (fun _ _ => ([], false)) (fun s X G p =>
      let e : TermEntry := { s.entry X G .hist with word := x G, off := (f.xop.extractLsb' 4 3).toNat, dst := f.d.toNat, cnt := xopCnt f }
      (s.enqueue X e, infTerm s X p (rangeWrites f G.w)))
def execThist (f : FmtX) (s : State) : Res := .next (thistBody f s)

/-! ### TWAIT, TWIN, TBOUND (rules R250 to R252) -/

/-- The queue entries of a group, or of its team, that have not completed: (core, entry). -/
def State.termsOf (s : State) (G : Group) (team : Bool) : List (Nat × Nat) :=
  ((s.teamOf G).cores.map (fun c =>
    (((s.core c).tq ++ (s.core c).trun).filter (fun e => if team then e.tid == G.tid else e.gid == G.gid)).map (fun e => (c, e.id)))).flatten

/-- TWAIT: it waits once for the entries it found. -/
def twaitBody (f : FmtX) (s : State) : State :=
  s.begin (.twait f) false (fun s X G p =>
    if p.waited then s.post X {} f.y none infNone 0
    else if (s.teamOf G).req.isSome then s.stall X 14
    else if decide (1 < G.splits.length) || p.am != p.own then s.raise X 3 0 G.splits.length
    else match s.ready X G {} with
      | (s, false) => s
      | (s, true) =>
        match s.termsOf G (f.xop.getLsbD 0) with
        | [] => s.post X {} f.y none infNone 0
        | ids => s.await X (.term ids) 14)
def execTwait (f : FmtX) (s : State) : Res := .next (twaitBody f s)

/-- TWIN. -/
def execTwin (f : FmtX) (s : State) : Res := .next (s.termOp (.twin f) f { wk := [f.d.toNat] } (fun _ _ => {}) false (fun _ _ => ([], false))
  (fun s _ G _ =>
    let T := s.teamOf G
    let w := T.window G.idx
    (s, { infNone with writes := [{ sp := .uni, num := f.d.toNat, word := w64 (at_ T.span 32 + at_ w.1 16 + w.2) }] })))

/-- TAIL (rule R215). -/
def tailOf (fb : W64) : Nat := if fbA fb ≤ 1 then 6 else if fbA fb = 9 then 12 else if fbAsc fb || fbBsc fb then 10 else 8

/-- TBOUND. -/
def execTbound (f : FmtX) (s : State) : Res :=
  let P := planX f true true
  .next (s.termOp (.tbound f) f { P with rk := f.c.toNat :: P.rk, wk := [f.d.toNat] } (fun _ G => mulChecks G f none [] false) false
    (fun _ _ => ([], false)) (fun s _ G _ =>
      let fb := G.uni f.fbk.toNat
      let v := (if xopSrc f == 0 then 10 else 14) + tileM (G.uni f.c.toNat) * (tparam (fbA fb)).bound + tailOf fb
      (s, { infNone with writes := [{ sp := .uni, num := f.d.toNat, word := w64 v }] })))

/-! ### TRECODE and TDECODE (rules R253, R254) -/

/-- Elements of a range of TRECODE or TDECODE, and whether CNT fits the format. -/
def recodeCount (af w cnt : Nat) : Nat := if af = 9 then w * cnt / 2 else 32 * w * cnt / twidth af

/-- The checks of TRECODE and TDECODE: the range `n`, the offset register `o`. -/
def recodeChecks (G : Group) (f : FmtX) (n o : Nat) : TermChecks :=
  let fb := G.uni f.fbk.toNat
  let af := fbA fb
  let off := (G.uni o).toNat
  { odd := !(fbBad fb) && oddRange (twidth af) n
    vals := [(fbBad fb || (af == 9 && xopCnt f % 2 == 1), 1, f.fbk.toNat)]
    align := if off % 32 = 0 then none else some (2 ^ 7 + o)
    ext := [(off, 32 * (ceilDiv (recodeCount af G.w (xopCnt f)) 16 * (tparam af).most))] }

/-- TRECODE. -/
def trecodeBody (f : FmtX) (s : State) : State :=
  let n := f.a.toNat
  let bytes (G : Group) : List Byte :=
    let af := fbA (G.uni f.fbk.toNat)
    let c := recodeCount af G.w (xopCnt f)
    blocksOf af ((G.elements n (twidth af) c).map (recodeElem af)) (ceilDiv c 16)
  let off (G : Group) : Nat := (G.uni f.c.toNat).toNat
  s.termOp (.trecode f) f { rk := [f.c.toNat, f.fbk.toNat], rv := rangeOf f n, lu := if f.la == 1 then rangeOf f n else [], wk := [f.d.toNat] }
    (fun _ G => recodeChecks G f n f.c.toNat) false (fun _ G => ([(off G, (bytes G).length)], true)) (fun s X G _ =>
      ((s.lsWrite G.tid (off G) (bytes G) (s.placeOf X.core X.slot)).usedFence X,
        { infNone with term := true, writes := [{ sp := .uni, num := f.d.toNat, word := w64 ((bytes G).length / 32) }] }))
def execTrecode (f : FmtX) (s : State) : Res := .next (trecodeBody f s)

/-- The code that TDECODE writes for an element (rule R254). -/
def decodeElem (af : Nat) (e : TElem) : Nat :=
  if tint af then wrapInt (sats (e.value af).int (twidth af)) (twidth af)
  else (tfmt af).round .rn false false (e.value af)

/-- TDECODE: a poisoned word writes zeros and defers POISON. -/
def tdecodeBody (f : FmtX) (s : State) : State :=
  let off (G : Group) : Nat := (G.uni f.a.toNat).toNat
  let count (G : Group) : Nat := recodeCount (fbA (G.uni f.fbk.toNat)) G.w (xopCnt f)
  let read (T : Team) (G : Group) : List TElem × Nat :=
    let af := fbA (G.uni f.fbk.toNat)
    let n := ceilDiv (count G) 16
    readBlocks af (T.bytes (off G) (32 * (n * (tparam af).most))) (n * (tparam af).most) n
  s.termOp (.tdecode f) f { rk := [f.a.toNat, f.fbk.toNat], wv := rangeOf f f.d.toNat, full := true }
    (fun _ G => recodeChecks G f f.d.toNat f.a.toNat) false (fun s G => ([(off G, 32 * (read (s.teamOf G) G).2)], false)) (fun s X G p =>
      let T := s.teamOf G
      let af := fbA (G.uni f.fbk.toNat)
      let r := read T G
      if T.bad (off G) (32 * r.2) then
        (s.lsLog T (T.badWords (off G) (32 * r.2)) (s.placeOf X.core X.slot),
          { infNone with kind := .lload, term := true, pc := p.pc, acc := { bad := some (T.badAt (off G) (32 * r.2)) }, writes := rangeWrites f G.w })
      else
        let els := (r.1.take (count G)).map (decodeElem af)
        let ws := (rangeWrites f G.w).zipIdx.map (fun x => { x.1 with vals := placeReg els (twidth af) G.w x.2 })
        (s, { infNone with term := true, writes := ws }))
def execTdecode (f : FmtX) (s : State) : Res := .next (tdecodeBody f s)

end Sys2Proof.Machine
end

