-- ==== Sys2Proof/Machine/TermEvents.lean ====
section
/-! DEFINITION. The term queue at work: starts, weight loads, completions, and the array's clock gate (rules R209 to R221, R227 to R231, R242 to
R249, R461). -/

namespace Sys2Proof.Machine

/-! ### Starts (rules R209, R214, R242, R243, R394) -/

/-- A queue whose head has started: the next entry reaches the head in the cycle after `t` (rule R243). -/
def headsAt (t : Nat) (q : List TermEntry) : List TermEntry :=
  match q with
  | [] => []
  | e :: rest => { e with head := Nat.max e.head (t + 1) } :: rest

/-- Whether the TERM budget of a core's partition lets an entry start (rule R394). -/
def State.termAllowed (s : State) (c : Nat) : Bool :=
  fld (s.part (s.partOf c)).pbud0 32 16 == 0 || decide (0 < (s.core c).termLeft)

/-- The start cycle of an entry at the head (rules R209, R214, R242, R243). -/
def Core.startOf (k : Core) (e : TermEntry) : Nat :=
  let b := k.bank e.bank
  let ready := Nat.max (Nat.max e.head k.wokeAt) k.termFrom
  match e.kind with
  | .load => Nat.max ready (Nat.max (b.lastMul + 1) b.lastLoad)
  | .mul => Nat.max ready (Nat.max (k.prevLast + 1) b.lastLoad)
  | _ => Nat.max ready k.prevDone

/-- Whether the entry at the head may start now: its start cycle has come and every issue slot has had its turn in the cycle in which it
issued (rule R214), the array is awake, and what it waits for is complete. -/
def State.mayStart (s : State) (c : Nat) (e : TermEntry) : Bool :=
  let k := s.core c
  let mul (x : TermEntry) : Bool := x.kind == .mul
  let load (x : TermEntry) : Bool := x.kind == .load
  !k.gatedArray && s.termAllowed c && decide (k.startOf e ≤ s.cycle) && decide (e.issued < s.cycle) && (match e.kind with
    | .load => !k.trun.any (fun x => load x && x.bank == e.bank)
    | .mul => !k.trun.any (fun x => !mul x && (!load x || x.bank == e.bank))
    | _ => !k.trun.any (fun x => !load x))

/-- The local store's bytes at a start, where the run read at issue has changed since (rule R255). -/
def merged (old new : List Byte) (k : Nat) : List Byte :=
  (old.zip new).zipIdx.map (fun x => if x.1.1 == x.1.2 then x.1.1 else if Config.eitherValue (k + x.2) then x.1.2 else x.1.1)

/-- The local-store extents that an entry reads at its start (rules R240, R241, R244): offset and bytes. -/
def TermEntry.startReads (e : TermEntry) (T : Team) : List (Nat × Nat) :=
  match e.kind with
  | .load => (if e.src = 1 then [(e.off, e.bytes.length)] else []) ++ (if e.sparse then [(e.ioff, e.ibytes.length)] else [])
  | .mul => if e.src = 0 then []
      else [(e.off, feederBytes T (fbA e.fb) e.off (e.bytes.length / 32) (ceilDiv (tileM e.word * depth (tileQ e.word) e.cw) 16))]
  | _ => []

/-- What an entry reads at its start comes through the stash windows (rule R265): their lines, where a recall took them since its issue, are
filled first. Whether it may start. An entry raises nothing after its issue: it waits for a page that is missing, and takes the bytes that
stand in the local store where a page is no longer readable (DESIGN CHOICE; log entry 137). -/
def State.startLines (s : State) (e : TermEntry) : State × Bool :=
  match s.teams.find e.tid with
  | none => (s, true)
  | some T => (e.startReads T).foldl (fun (r : State × Bool) x =>
      if !r.2 then r
      else match r.1.lsEnsure e.tid x.1 x.2 false with
        | (s, .done) | (s, .denied) => (s, true)
        | (s, _) => (s, false)) (s, true)

/-- Merges what an entry reads at its start with what was sampled at its issue, and notes the poisoned words that it reads then (rules R221,
R240, R241). -/
def State.atStart (s : State) (e : TermEntry) : State × TermEntry :=
  match s.teams.find e.tid with
  | none => (s, e)
  | some T =>
    ({ s with free := s.free + e.bytes.length + e.ibytes.length },
      { e with bytes := merged e.bytes (T.bytes e.off e.bytes.length) s.free
               ibytes := merged e.ibytes (T.bytes e.ioff e.ibytes.length) (s.free + e.bytes.length)
               badW := e.badW ++ (e.startReads T).flatMap (fun x => T.badWords x.1 x.2) })

/-- The first and last of the absolute rows of an entry: first, count. -/
def TermEntry.rows (e : TermEntry) : Nat × Nat :=
  match e.kind with
  | .mul => (e.row, tileM e.word)
  | _ => (e.row, rowCount e.word)

/-! ### Marks (rule R221) -/

/-- A row's mark raised to META (1) or DATA (2), unless the row is META. -/
def Core.markRow (k : Core) (row mark : Nat) : Core :=
  if k.marks.get 0 row == 1 then k else { k with marks := k.marks.set row mark }

/-- Raises the marks of the rows that a multiply writes, with their records. -/
def State.markRows (s : State) (c : Nat) (e : TermEntry) (mark : Nat) : State :=
  (List.range e.rows.2).foldl (fun s j =>
    let row := e.rows.1 + j
    if mark = 0 || (s.core c).marks.get 0 row == 1 || (s.core c).marks.get 0 row == mark then s
    else (s.updCore c (fun k => k.markRow row mark)).mcRecord (if mark = 1 then 6 else 5) e.part row (s.placeOf c e.slot) 0) s

/-- Records of the poisoned local-store words that an entry reads (rule R415, KIND 4). -/
def State.wordRecords (s : State) (c : Nat) (e : TermEntry) : State :=
  let base := match s.teams.find e.tid with | some T => T.lsBase | none => 0
  e.badW.foldl (fun s g => s.mcRecord 4 e.part (8 * g + base) (s.placeOf c e.slot) 0) s

/-! ### Multiplies (rules R213, R218, R220, R228, R244) -/

/-- The operands of a multiply at its start. -/
def State.mulIn (s : State) (c : Nat) (e : TermEntry) : MulIn :=
  let af := fbA e.fb
  let n := tileM e.word * depth (tileQ e.word) e.cw
  let limit := e.bytes.length / 32
  { fb := e.fb, cw := e.cw, m := tileM e.word, q := tileQ e.word
    els := if e.src = 0 then e.els.map (fun x => recodeElem af x.toNat) else (readBlocks af e.bytes limit (ceilDiv n 16)).1.take n
    bank := (s.core c).bank e.bank, foreign := e.foreign, ascale := e.ascale, bscale := e.bscale }

/-- The sums of every step added to the accumulator rows (rules R112 to R115, R228). -/
def MulIn.store (x : MulIn) (k : Core) (row : Nat) : Core :=
  let cols := x.columns ++ (k.nanCols (fbA x.fb) row x.m).filter (fun n => !x.columns.contains n)
  (List.range x.m).foldl (fun k m =>
    cols.foldl (fun k n => k.accSet (fbA x.fb) (row + m) n (x.sum m n (k.accGet (fbA x.fb) (row + m) n))) k) k

/-- The values of the marked rows that a multiply writes are unspecified (rule R221). -/
def State.blurRows (s : State) (c : Nat) (e : TermEntry) : State :=
  let af := fbA e.fb
  (List.range e.rows.2).foldl (fun s j =>
    let row := e.rows.1 + j
    if (s.core c).marks.get 0 row == 0 then s
    else (List.range (modeCols af)).foldl (fun s n =>
      { s with free := s.free + 1 }.updCore c (fun k => k.accSet af row n (Config.poisonedSum s.free).toNat)) s) s

/-- A multiply starts at cycle `t`: its sums, its marks, its term time, and the times that follow. -/
def State.startMul (s : State) (c : Nat) (e : TermEntry) (t : Nat) : State :=
  let x := s.mulIn c e
  let cs := x.crests
  let term := (cs.map Crest.time).foldl Nat.max 0
  let g := cwG e.cw
  let b := (s.core c).bank e.bank
  let last := t + e.fill + term - 1
  let e := { e with start := t, term := term, lastTerm := last, done := t + e.fill + term + tailOf e.fb
                    waitc := (cs.map (fun r => r.wait)).sum, lead := (cs.map (fun r => r.lead g)).foldl Nat.max 0 }
  let s := s.updCore c (fun k => (x.store k e.row).setBank e.bank { b with lastMul := last })
  let s := s.updCore c (fun k => { k with trun := k.trun ++ [e], prevLast := last, prevDone := e.done, termLeft := k.termLeft - (term : Int) })
  let s := s.wordRecords c e
  let s := s.markRows c e (if b.metaMark then 1 else if !b.bad.isEmpty || !e.badW.isEmpty then 2 else 0)
  s.blurRows c e

/-! ### Completion -/

/-- An entry of the queue leaves the array: its instruction completes with `writes`, and the TWAITs on it go on (rule R250). -/
def State.entryDone (s : State) (c : Nat) (e : TermEntry) (writes : List RegW) : State :=
  let s := s.updCore c (fun k => { k with tq := k.tq.filter (fun x => x.id != e.id), trun := k.trun.filter (fun x => x.id != e.id), idleSince := s.cycle })
  let mine := match s.group c e.slot with | some G => G.gid == e.gid | none => false
  let s := if mine then s.complete c e.slot e.iid writes else s
  let wake (p : Split) : Split := match p.wait with
    | .term ids =>
      let rest := ids.filter (fun i => i != (c, e.id))
      { p with wait := if rest.isEmpty then .ready else .term rest }
    | _ => p
  let one (G : Group) : Group := { G with splits := G.splits.map wake }
  { s with cores := s.cores.mapV (fun k => { k with slots := k.slots.mapV one }) }

/-! ### TZERO, TDRAIN and THIST (rules R230, R243, R247 to R249) -/

/-- Elements of a tensor in the order of THIST. -/
def Hist.words (h : Hist) : List Nat := (List.range 32).map (fun i => h.bins.get 0 i) ++ [h.zero, h.nan]

/-- The writes of a range filled with a list of elements of `w` bits (rule R237). -/
def fillRange (dst cnt wg w : Nat) (els : List Nat) : List RegW :=
  (List.range cnt).map (fun r => { sp := .vec, num := dst + r, mask := fullMask wg, vals := placeReg els w wg r })

/-- The accumulator codes that a drain reads, row by row. -/
def Core.drained (k : Core) (e : TermEntry) : List Nat :=
  ((List.range (rowCount e.word)).map (fun r => (List.range (colCount e.word)).map (fun n =>
    k.accGet (fbA e.fb) (e.row + r) (fld e.word 18 10 + n)))).flatten

/-- The time of an entry that is neither a load nor a multiply (rule R243). -/
def TermEntry.time (e : TermEntry) : Nat :=
  match e.kind with
  | .zero => 4 + ceilDiv (rowCount e.word) 8
  | .drain => 8 + ceilDiv (rowCount e.word * colCount e.word * (if fbA e.fb = 9 then 8 else 4)) 512
  | _ => 4

/-- The first row of a drain with a mark, relative to the window (rule R230). -/
def Core.markedRow (k : Core) (e : TermEntry) (mark : Nat) : Option Nat :=
  ((List.range (rowCount e.word)).find? (fun j => k.marks.get 0 (e.row + j) == mark)).map (fun j => fld e.word 0 9 + j)

/-- A drain of a marked row (rules R230, R248): the entry is removed with its times in this cycle, and the cause is taken at the TDRAIN. -/
def State.drainPoison (s : State) (c : Nat) (e : TermEntry) (t code row : Nat) : State :=
  let s := s.updCore c (fun k => { k with prevLast := t - 1, prevDone := t })
  match s.group c e.slot with
  | none => s.entryDone c e []
  | some G =>
    let pc := match G.infl.find? (fun i => i.id == e.iid) with | some i => i.pc | none => 0
    let s := s.entryDone c e []
    if G.gid != e.gid || G.ending then s
    else
      (s.updGroup c e.slot (fun G => G.updSplit e.split (fun p => { p with wait := .ready, word := none }))).takeCause c e.slot
        { code := code, deferred := false, split := e.split, info := BitVec.ofNat 48 row, pc := pc, ra := pc }

/-- An entry that is neither a load nor a multiply starts at cycle `t`. -/
def State.startOther (s : State) (c : Nat) (e : TermEntry) (t : Nat) : State :=
  let done := t + e.time
  let k := s.core c
  let go (s : State) (e : TermEntry) : State :=
    s.updCore c (fun k => { k with trun := k.trun ++ [{ e with start := t, done := done, lastTerm := done - 1 }], prevLast := done - 1, prevDone := done })
  match e.kind with
  | .hist =>
    let h := k.hist.get {} e.off
    let s := s.updCore c (fun k => { k with hist := k.hist.set e.off { base := sextNat (fld e.word 0 12) 12 } })
    go s { e with outs := fillRange e.dst e.cnt e.w 32 h.words }
  | .drain =>
    match k.markedRow e 1, k.markedRow e 2 with
    | some r, _ => s.drainPoison c e t 14 r
    | none, some r => s.drainPoison c e t 13 r
    | none, none =>
      let free (p : Split) : Split := if p.wait == .drain e.id then { p with wait := .ready, stall := 8 } else p
      (go s e).updGroup c e.slot (fun G => { G with splits := G.splits.map free })
  | _ => go s e

/-- TERM_ENTRY_START (rules R214, R243): the head of the queue, where it is no load, starts. -/
def termStart (core : Nat) (s : State) : State :=
  match (s.core core).tq with
  | [] => s
  | e :: rest =>
    if e.kind == .load || !(s.mayStart core e) then s
    else match s.startLines e with
    | (s, false) => s.updCore core (fun k => { k with tq := headsAt s.cycle k.tq })
    | (s, true) =>
      let t := (s.core core).startOf e
      let staged := e.prior.isSome && (s.core core).prevWalk == e.prior
      let s := s.updCore core (fun k => { k with tq := headsAt t rest, headFrom := t + 1, prevWalk := e.walk })
      if e.kind == .mul then
        let q := s.atStart (if staged then { e with fill := 2 } else e)
        q.1.startMul core q.2 t
      else s.startOther core e t
def execTermEntryStart (core : Nat) (s : State) : Res := .next (termStart core s)

/-! ### Weight loads (rules R209, R221, R240 to R242) -/

/-- WEIGHT_LOAD_START. -/
def loadStart (core : Nat) (s : State) : State :=
  match (s.core core).tq with
  | [] => s
  | e :: rest =>
    if e.kind != .load || !(s.mayStart core e) then s
    else match s.startLines e with
    | (s, false) => s.updCore core (fun k => { k with tq := headsAt s.cycle k.tq })
    | (s, true) =>
      let t := (s.core core).startOf e
      let q := s.atStart e
      let e := q.2
      let bytes := ceilDiv (loadRows e.word * loadCols e.word * twidth (fbB e.fb)) 8
      let done := t + (if e.src = 0 then 4 + ceilDiv bytes 256 else 12 + ceilDiv bytes 128)
      let s := q.1.updCore core (fun k =>
        let b := k.bank e.bank
        let b := if e.clear then { b with wts := [], idx := [], bad := [] } else b
        { k.setBank e.bank { b with metaMark := false, lastLoad := done } with
          tq := headsAt t rest, headFrom := t + 1, prevWalk := none, trun := k.trun ++ [{ e with start := t, done := done }] })
      s.wordRecords core e
def execWeightLoadStart (core : Nat) (s : State) : Res := .next (loadStart core s)

/-- The code of a weight of a load by its list index (rule R240). -/
def TermEntry.weightCode (e : TermEntry) (i : Nat) : Nat :=
  let w := twidth (fbB e.fb)
  if e.src = 0 then (e.els.getD i 0).toNat
  else
    let bit := 8 * (i / loadCols e.word * fld e.word 36 17) + i % loadCols e.word * w
    numOf ((e.bytes.drop (bit / 8)).take 8) / 2 ^ (bit % 8) % 2 ^ w

/-- Whether a weight's bytes lie in a poisoned word. -/
def TermEntry.weightBad (e : TermEntry) (i : Nat) : Bool :=
  let w := twidth (fbB e.fb)
  let o := e.off + i / loadCols e.word * fld e.word 36 17 + i % loadCols e.word * w / 8
  e.src == 1 && e.badW.any (fun g => decide (o < 8 * g + 8) && decide (8 * g < o + Nat.max 1 (w / 8)))

/-- One unit written by a load: weight, index and mark. DESIGN CHOICE: a unit is known by its row and column number, also to a multiply of
another lane mode (log entry 122). -/
def Bank.write (b : Bank) (e : TermEntry) (i : Nat) : Bank :=
  let unit := (fld e.word 0 7 + i / loadCols e.word) * 1024 + fld e.word 16 10 + i % loadCols e.word
  let x := if e.sparse then (e.ibytes.getD i 0).toNat else 0
  let code := if e.sparse && decide (cwV e.cw ≤ x) then 0 else e.weightCode i
  { b with
    wts := b.wts.set unit (w64 code)
    idx := b.idx.set unit x
    bad := (b.bad.filter (fun u => u != unit)) ++ (if e.weightBad i then [unit] else []) }

/-- WEIGHT_LOAD_COMPLETE. -/
def loadDone (core eid : Nat) (s : State) : State :=
  match (s.core core).trun.find? (fun e => e.id == eid && e.kind == .load) with
  | none => s
  | some e =>
    if decide (s.cycle < e.done) then s
    else
      let n := loadRows e.word * loadCols e.word
      let poisoned := e.sparse && e.badW.any (fun g => decide (e.ioff < 8 * g + 8) && decide (8 * g < e.ioff + n))
      let s := s.updCore core (fun k =>
        let b := { k.bank e.bank with wfmt := fbB e.fb }
        let b := (List.range n).foldl (fun b i => b.write e i) b
        k.setBank e.bank { b with metaMark := b.metaMark || poisoned })
      s.entryDone core e []
def execWeightLoadComplete (core eid : Nat) (s : State) : Res := .next (loadDone core eid s)

/-! ### Completions (rules R215, R218, R230, R247 to R249) -/

/-- `sys.drift` after a multiply (rule R218). -/
def driftOf (e : TermEntry) : W64 :=
  w64 (at_ (Nat.min e.waitc (2 ^ 32 - 1)) 32 + at_ (Nat.min e.term (2 ^ 16 - 1)) 16 + at_ e.lead 12 + (if e.foreign then 2 else 0) + 1)

/-- MULTIPLY_COMPLETE. -/
def mulDone (core eid : Nat) (s : State) : State :=
  match (s.core core).trun.find? (fun e => e.id == eid && e.kind == .mul) with
  | none => s
  | some e =>
    if decide (s.cycle < e.done) then s
    else
      let s := s.updGroup core e.slot (fun G => if G.gid == e.gid then { G with drift := driftOf e } else G)
      let s := (s.count e.part 4 e.term).count e.part 5 e.waitc
      let lid := match s.teams.find e.tid with | some T => T.lid | none => 0
      let s := s.record e.part true (srcNo 2 core 0) 0x20 (s.seqOf lid) (w64 (e.term % 2 ^ 16)) (w64 (e.waitc % 2 ^ 32))
      s.entryDone core e []
def execMultiplyComplete (core eid : Nat) (s : State) : Res := .next (mulDone core eid s)

/-- TERM_ENTRY_COMPLETE. -/
def otherDone (core eid : Nat) (s : State) : State :=
  match (s.core core).trun.find? (fun e => e.id == eid) with
  | none => s
  | some e =>
    if decide (s.cycle < e.done) then s
    else match e.kind with
      | .zero => (s.updCore core (fun k => k.zeroRows e.rows.1 e.rows.2)).entryDone core e []
      | .drain =>
        let af := fbA e.fb
        let xs := (s.core core).drained e
        let ht := fld e.fb 20 3
        let s := if fld e.fb 19 1 == 0 then s
          else s.updCore core (fun k => { k with hist := k.hist.set ht (xs.foldl (fun h x => h.count (accVal af x)) (k.hist.get {} ht)) })
        s.entryDone core e (fillRange e.dst e.cnt e.w (drainWidth af (fld e.fb 60 4)) (xs.map (drainConv af e.fb)))
      | .hist => s.entryDone core e e.outs
      | _ => s
def execTermEntryComplete (core eid : Nat) (s : State) : Res := .next (otherDone core eid s)

/-! ### The clock gate (rules R217, R461) -/

/-- ARRAY_CLOCK_GATE. -/
def execArrayClockGate (core : Nat) (s : State) : Res :=
  let k := s.core core
  .next (if k.gatedArray || !k.tq.isEmpty || !k.trun.isEmpty || decide (s.cycle < k.idleSince + 4096) then s
    else s.setCore core { k with gatedArray := true })

/-- Whether a core's wake request is the oldest of its quadrant that has no grant (rule R461). -/
def State.wakeFirst (s : State) (core : Nat) : Bool :=
  match (s.core core).wakeReq with
  | none => false
  | some r => !(s.cores.any (fun (c, k) => Config.coreQuadrant c == Config.coreQuadrant core && c != core
      && (match k.wakeReq with | some q => decide (q < r) || (q == r && decide (c < core)) | none => false)))

/-- ARRAY_WAKE_GRANT: at most 13 grants per quadrant in any 200 cycles (100 ns). -/
def execArrayWakeGrant (core : Nat) (s : State) : Res :=
  let q := Config.coreQuadrant core
  let recent := s.wakes.filter (fun w => decide (s.cycle < w.2 + 200))
  .next (if !(s.wakeFirst core) || decide (13 ≤ (recent.filter (fun w => w.1 == q)).length) then s
    else { s.updCore core (fun k => { k with wakeReq := none, wakeAt := some (s.cycle + 100) }) with wakes := recent ++ [(q, s.cycle)] })

/-- ARRAY_WAKE_COMPLETE. -/
def execArrayWakeComplete (core : Nat) (s : State) : Res :=
  let k := s.core core
  .next (match k.wakeAt with
    | some t => if decide (t ≤ s.cycle) then s.setCore core { k with gatedArray := false, wakeAt := none, wokeAt := t, idleSince := s.cycle } else s
    | none => s)

end Sys2Proof.Machine
end

