-- ==== Sys2Proof/Machine/Copies.lean ====
section
/-! DEFINITION. The Saltern engines' copies (chapter 15): layouts, Rice blocks, checks, ownership, and one chunk of a copy. -/

namespace Sys2Proof.Machine

/-! ### Layouts (rules R340 to R344) -/

/-- A layout: its mutable and immutable parts together. -/
structure Layout where
  ls : Bool
  base : Nat
  ext : List Nat
  fmt : Nat
  rank : Nat
  enc : Bool
  cmp : Nat
  str : List Int
  ioff : Int
  ring : Nat
  deriving DecidableEq, Repr

def wordAt (ws : List W64) (i : Nat) : W64 := ws.getD i 0

/-- A layout from its mutable part and its record (rules R340, R341). -/
def layoutOf (m rc : List W64) : Layout :=
  { ls := fld (wordAt m 0) 63 1 == 1
    base := fld (wordAt m 0) 0 57
    ext := [fld (wordAt m 2) 0 32, fld (wordAt m 2) 32 32, fld (wordAt m 3) 0 21, fld (wordAt m 3) 21 21, fld (wordAt m 3) 42 21]
    fmt := fld (wordAt rc 0) 0 4
    rank := fld (wordAt rc 0) 4 3
    enc := fld (wordAt rc 0) 7 1 == 1
    cmp := fld (wordAt rc 0) 8 2
    str := (List.range 4).map (fun i => (wordAt rc (1 + i)).toInt)
    ioff := (wordAt rc 5).toInt
    ring := fld (wordAt rc 6) 0 32 }

/-- Bits of an element of a format code (rule R340). -/
def fmtBits (fmt : Nat) : Nat :=
  match fmt with
  | 0 => 4
  | 6 | 7 | 11 => 16
  | 8 | 12 => 32
  | 9 | 13 => 64
  | _ => 8

def Layout.bits (L : Layout) : Nat := fmtBits L.fmt
def Layout.size (L : Layout) : Nat := Nat.max 1 (L.bits / 8)
def Layout.count (L : Layout) : Nat := L.ext.foldl (fun a e => a * e) 1
def Layout.blocks (L : Layout) : Nat := L.count / 16

/-- Bytes of a run of elements in layout order. -/
def Layout.span (L : Layout) (n : Nat) : Nat := n * L.bits / 8

/-- The bytes of one run of dimension 0, and how many runs there are. -/
def Layout.rowBytes (L : Layout) : Nat := L.span (L.ext.getD 0 0)
def Layout.rows (L : Layout) : Nat := (L.ext.drop 1).foldl (fun a e => a * e) 1

/-- The offset of run `r` from BASE (rule R342). -/
def Layout.rowAt (L : Layout) (r : Nat) : Int :=
  let q := (L.ext.drop 1).zip L.str
  (q.foldl (fun (x : Nat × Int) e => (x.1 / e.1, x.2 + (x.1 % e.1 : Nat) * e.2)) (r, 0)).2

/-- The address of byte `k` of a plain layout in layout order. -/
def Layout.byteAt (L : Layout) (k : Nat) : Int :=
  if L.rowBytes = 0 then L.base else (L.base : Int) + L.rowAt (k / L.rowBytes) + (k % L.rowBytes : Nat)

/-- The lowest byte and the length of the extents of a layout (rules R342 to R344): a plain layout's elements, a stream, a ring with its control
block, or the least bytes that a term layout's blocks and its index take. -/
def Layout.extents (L : Layout) : List (Int × Nat) :=
  let b : Int := L.base
  if L.ring != 0 then [(b - 16, L.ring + 16)]
  else if L.cmp != 0 then [(b, L.ext.getD 0 0)]
  else if L.enc then [(b, 32 * L.blocks)] ++ (if L.ioff = 0 then [] else [(b + L.ioff, 4 * L.blocks)])
  else if L.count = 0 then []
  else
    let ds := ((L.ext.drop 1).zip L.str).map (fun e => ((e.1 - 1 : Nat) : Int) * e.2)
    let lo := ds.foldl (fun (a : Int) d => a + min 0 d) 0
    let hi := ds.foldl (fun (a : Int) d => a + max 0 d) 0
    [(b + lo, (hi - lo).toNat + L.rowBytes)]

/-- Whether a record breaks rules R340, R343 or R344, or the extents do (rule R348, step 6). -/
def Layout.bad (L : Layout) (rc : List W64) (dest : Bool) : Bool :=
  fld (wordAt rc 0) 10 54 != 0 || decide (2 ≤ L.cmp) || L.rank == 0 || decide (5 < L.rank) || decide (14 ≤ L.fmt)
    || ((List.range 4).any (fun i => decide (L.rank ≤ i + 1) && L.str.getD i 0 != 0))
    || ((List.range 5).any (fun d => decide (L.rank ≤ d) && L.ext.getD d 1 != 1))
    || L.ioff % 4 != 0 || fld (wordAt rc 6) 32 32 != 0 || wordAt rc 7 != 0
    || (L.enc && (L.rank != 1 || decide (9 < L.fmt) || L.ext.getD 0 0 % 16 != 0))
    || (L.ring != 0 && (!dest || !L.ls || L.ring % 128 != 0 || decide (262144 < L.ring)))
    || (L.fmt == 0 && !L.enc && L.ext.getD 0 0 % 2 != 0)

/-- What a pairing breaks (rules R350, R351, R353, R354): the source, the destination, or the two together. -/
structure PairBad where
  src : Bool := false
  dst : Bool := false
  both : Bool := false

def pairBad (kind : Nat) (S D : Layout) : PairBad :=
  match kind with
  | 0 => { src := S.cmp != 0, dst := D.cmp != 0
           both := S.enc != D.enc || S.bits != D.bits || (S.enc && S.fmt != D.fmt) || S.count != D.count }
  | 1 => { src := S.enc || S.cmp != 0 || decide (9 < S.fmt), dst := !D.enc || D.cmp != 0
           both := S.fmt != D.fmt || D.count != 16 * ceilDiv S.count 16 }
  | 2 => { src := S.rank != 1 || S.fmt != 10 || S.cmp != 1 || S.enc
           dst := D.enc || D.cmp != 0 || !(D.bits == 8 || D.bits == 16 || D.bits == 32) }
  | _ => { src := decide (S.rank < 2) || S.enc || S.cmp != 0, dst := D.enc || D.cmp != 0 || D.ring != 0
           both := S.fmt != D.fmt || S.rank != D.rank
             || ((List.range 5).any (fun d => d + 1 != S.rank && S.ext.getD d 1 != D.ext.getD d 1)) }

/-- The unit that BASE is a multiple of (rule R348, step 6). -/
def Layout.unit (L : Layout) : Nat := if L.ring != 0 then 128 else if L.enc then 32 else L.size

/-! ### Rice blocks (rules R352, R353) -/

/-- One bit of CRC-32C. -/
def crcBit (c : Nat) : Nat := if c % 2 = 1 then (c / 2) ^^^ 0x82F63B78 else c / 2
/-- CRC-32C of a string of bytes (rule R352). -/
def crc32c (b : List Byte) : Nat :=
  (b.foldl (fun c x => (List.range 8).foldl (fun c _ => crcBit c) (c ^^^ x.toNat)) 0xFFFFFFFF) ^^^ 0xFFFFFFFF

/-- One-bits read before a zero-bit, stopping at `fuel`: the count and the next position; none where the payload ends. -/
def riceOnes (v lim fuel pos : Nat) : Option (Nat × Nat) :=
  match fuel with
  | 0 => some (0, pos)
  | k + 1 =>
    if lim ≤ pos then none
    else if v.testBit pos then (riceOnes v lim k (pos + 1)).map (fun r => (r.1 + 1, r.2)) else some (0, pos + 1)

/-- The elements of a payload of `lim` bits `v` (rule R353); none for MALFORMED. -/
def riceElems (v lim k w n pos x : Nat) : Option (List Nat) :=
  match n with
  | 0 => some []
  | m + 1 =>
    match riceOnes v lim 32 pos with
    | none => none
    | some (q, p) =>
      let len := if q = 32 then w else k
      let r := v >>> p % 2 ^ len
      let z := if q = 32 then r else q * 2 ^ k + r
      if lim < p + len || 2 ^ w ≤ z then none
      else
        let x := (x + ((z / 2) ^^^ (if z % 2 = 1 then 2 ^ w - 1 else 0))) % 2 ^ w
        (riceElems v lim k w m (p + len) x).map (fun xs => x :: xs)

/-! ### Copies -/

/-- Fields of a completion word (rule R345). -/
def doneKind (d : W64) : Nat := fld d 62 2
def doneScope (d : W64) : Nat := fld d 59 3
def doneTgt (d : W64) : Nat := fld d 0 57

def Copy.srcL (c : Copy) : Layout := layoutOf c.src c.srec
def Copy.dstL (c : Copy) : Layout := layoutOf c.dst c.drec
def Copy.resolved (c : Copy) : Bool := !c.drec.isEmpty

/-- Whether a copy's chunks are single term blocks (rule R346). -/
def Copy.termwise (c : Copy) : Bool := c.dstL.enc

/-- Whether every chunk of a copy is done. -/
def Copy.finished (c : Copy) : Bool :=
  c.resolved && (if c.termwise then decide (c.dstL.blocks ≤ c.chunk) else decide (c.dstL.span c.dstL.count ≤ c.dpos))

/-- CPYSTAT's word (rule R358). -/
def Copy.word (c : Copy) : W64 :=
  let block := if c.state == 6 then c.chunk - 1 else c.chunk
  w64 (at_ c.state 60 + at_ c.err 56 + (if c.oob then 2 ^ 55 else 0) + at_ (Nat.min block (2 ^ 23 - 1)) 32 + Nat.min c.bytes (2 ^ 32 - 1))

def Core.eng (k : Core) (e : Nat) : List Copy := if e = 0 then k.eng0 else k.eng1
def Core.setEng (k : Core) (e : Nat) (q : List Copy) : Core := if e = 0 then { k with eng0 := q } else { k with eng1 := q }

/-- Every copy of the package that has not ended, suspended ones apart. -/
def State.copies (s : State) : List Copy := (s.cores.map (fun e => e.2.eng0 ++ e.2.eng1)).flatten

/-- Changes a copy wherever it is. -/
def State.updCopy (s : State) (id : Nat) (f : Copy → Copy) : State :=
  let g (k : Core) : Core := { k with eng0 := updIf k.eng0 (fun c => c.id == id) f, eng1 := updIf k.eng1 (fun c => c.id == id) f }
  { s with cores := s.cores.mapV g }

/-- The ticket of a team's `n`-th copy (rule R348). -/
def ticketOf (n : Nat) : Nat := (n - 1) % (2 ^ 32 - 1) + 1

/-- The place a copy's accesses are logged under. -/
def State.copyPlace (s : State) (c : Copy) : Nat := if c.queue.isSome then 0 else s.placeOf c.core c.slot

/-- A record of a copy in the event ring (rule R457). -/
def State.copyRecord (s : State) (c : Copy) (eng kind : Nat) : State :=
  let tag := match c.queue with
    | some (q, rid) => ((s.queue q).runs.find? (fun r => r.rid == rid)).elim 0 (fun r => r.tag.toNat)
    | none => s.seqOf c.lid
  s.record c.part true (srcNo 1 c.core eng) kind tag (w64 c.ticket) (w64 (at_ c.err 32 + Nat.min c.bytes (2 ^ 32 - 1)))

/-! ### Accesses of a copy (rules R331, R355, R356) -/

/-- What an access of a copy meets: it is made, it waits for a line or a window, for ring space, or for a translation, or it fails. -/
inductive Out (α : Type) where
  | ok (a : α)
  | hold
  | full
  | page (va : Nat)
  | err (code : Nat)

/-- Goes on after an access that was made. -/
def andThen {α β : Type} (x : State × Out α) (f : State → α → State × Out β) : State × Out β :=
  match x with
  | (s, .ok a) => f s a
  | (s, .hold) => (s, .hold)
  | (s, .full) => (s, .full)
  | (s, .page va) => (s, .page va)
  | (s, .err n) => (s, .err n)

/-- The 64 KiB ranges of a list of addresses, without repeats. -/
def rangesOf (as : List Int) : List Nat := (as.map (fun a => a.toNat / 65536)).eraseDups

/-- Translates the addresses of an access, with permission and region checks (ERR 5). -/
def State.copyMap (s : State) (core part : Nat) (as : List Int) (write : Bool) : State × Out (List (Nat × Option (Nat × Nat))) :=
  if as.any (fun a => decide (a < 0) || decide ((2 ^ 57 : Int) ≤ a)) then (s, .err 5)
  else
    let r := (rangesOf as).foldl (fun (r : State × Out (Tab TlbEnt)) p => andThen r (fun s t =>
      let va := ((as.find? (fun a => a.toNat / 65536 == p)).getD 0).toNat
      if s.walkHeld (some core) part va then (s, .hold)
      else match s.translate (some core) part va with
      | (s, none) => (s, .page va)
      | (s, some e) => if (if write then e.wr else e.rd) && s.regionOk (e.pa va) then (s, .ok (t.set p e)) else (s, .err 5))) (s, .ok [])
    andThen r (fun s t => (s, .ok (as.map (fun a =>
      match t.find (a.toNat / 65536) with
      | some e => (e.pa a.toNat, migOf e.mig e.frame (e.pa a.toNat))
      | none => (0, none)))))

/-- Passes on a line whose bytes its owner has written (rule R331). -/
def State.passLine (s : State) (line : Nat) : State :=
  let f (c : Copy) : Copy := if (c.owned.find line).any (fun x => x.1 == 0) then { c with owned := c.owned.erase line } else c
  let g (k : Core) : Core := { k with eng0 := k.eng0.map f, eng1 := k.eng1.map f }
  { s with cores := s.cores.mapV g }

/-- The order in which a copy obtained a line; for a line it does not own, the order of its issue. -/
def Copy.turnOf (c : Copy) (line : Nat) : Nat := match c.owned.find line with | some x => x.2 | none => c.turn

/-- Whether a copy that obtained one of the lines earlier still owns it; what its owner has written is passed on. DESIGN CHOICE: a copy's
own reads and its counter's addition do not wait for a copy that issued after it (log entry 123). -/
def State.heldBy (s : State) (c : Copy) (lines : List Nat) : State × Bool :=
  let first (s : State) (l : Nat) : Bool :=
    s.copies.any (fun d => d.id != c.id && (d.owned.find l).any (fun x => decide (x.2 < c.turnOf l)))
  let mine := lines.filter (first s)
  let s := mine.foldl (fun s l => s.passLine l) s
  (s, mine.any (first s))

/-- Whether a copy may read a line at its home now: no earlier copy owns it, a port or the budget is there, and, unless the copy itself or
a later one owns it, the dirty bytes of the pair's L1s have come home. -/
def State.copyReady (s : State) (c : Copy) (line : Nat) : State × Bool :=
  match s.heldBy c [line] with
  | (s, true) => (s, false)
  | (s, false) =>
    if s.barred c.part c.core line then (s, false)
    else if s.owned line then (s, true)
    else s.comeHome c.core line

/-- Home reads of a list of physical addresses, granule by granule, with poison marks; held while a line may not be read. -/
def State.copyTake (s : State) (c : Copy) (pas : List Nat) : State × Out (List (Byte × Bool)) :=
  let w := ((pas.map (fun a => a / 128)).eraseDups).foldl (fun (r : State × Bool) l =>
    let q := r.1.copyReady c l
    (q.1, r.2 && q.2)) (s, true)
  if !w.2 then (w.1, .hold)
  else
    let r := ((pas.map (fun a => a / 32)).eraseDups).foldl (fun (r : State × Tab (List Byte × Bool)) g =>
      let q := r.1.homeRead (32 * g) 32
      let s := (q.1.readPoison c.part (q.1.copyPlace c) (32 * g) 32).hostUsed c.part (if regionOf (32 * g) == 2 then 32 else 0)
      (s, r.2.set g (q.2, q.1.poisoned (32 * g) 32))) (w.1, [])
    (r.1, .ok (pas.map (fun a => let x := r.2.get ([], false) (a / 32); (x.1.getD (a % 32) 0, x.2))))

/-- Asks for the stash-window lines of local-store bytes (rule R265): held while one is not ready. -/
def State.copyWin (s : State) (c : Copy) (os : List Nat) (write : Bool) : State × Out Unit :=
  match s.teams.find c.tid with
  | none => (s, .err 5)
  | some T =>
    if os.any (fun o => !(T.lsOk (o : Nat) 1)) then (s, .err 5)
    else
      let r := ((os.map (fun o => o / 128)).eraseDups).foldl (fun (r : State × List LsMeets) l =>
        let q := r.1.lsLook c.core T (128 * l) 1 write
        (q.1, r.2 ++ [q.2])) (s, [])
      if r.2.contains .held then (r.1, .hold)
      else match (r.2.filterMap (fun x => match x with | .page va => some va | _ => none)).head? with
        | some va => (r.1, .page va)
        | none =>
          if r.2.contains .denied then (r.1, .err 5)
          else match (r.2.map (fun x => match x with | .fill ls => ls | _ => [])).flatten with
            | [] => (r.1, .ok ())
            | ls => (r.1.demandAll c.tid ls write, .hold)

/-- Reads the bytes of a layout at a list of addresses. -/
def State.copyRead (s : State) (c : Copy) (L : Layout) (as : List Int) : State × Out (List (Byte × Bool)) :=
  if L.ls then
    if as.any (fun a => decide (a < 0)) then (s, .err 5)
    else andThen (s.copyWin c (as.map Int.toNat) false) (fun s _ =>
      match s.teams.find c.tid with
      | none => (s, .err 5)
      | some T =>
        let bad := ((as.map (fun a => a.toNat / 8)).eraseDups).filter T.lsBad.contains
        (s.lsLog T bad (s.copyPlace c), .ok (as.map (fun a => (T.ls.get 0 a.toNat, T.lsBad.contains (a.toNat / 8))))))
  else andThen (s.copyMap c.core c.part as false) (fun s ps =>
    s.copyTake c (ps.map (fun p => p.1)))

/-- Runs of consecutive offsets. -/
def runsOf (xs : List (Nat × Byte)) : List (Nat × List Byte) :=
  (xs.foldl (fun (acc : List (Nat × List Byte)) x =>
    match acc with
    | (o, b) :: rest => if o + b.length == x.1 then (o, b ++ [x.2]) :: rest else (x.1, [x.2]) :: acc
    | [] => [(x.1, [x.2])]) []).reverse

/-- Bytes written less from the counts of the lines a copy owns. -/
def Copy.wrote (c : Copy) (pas : List Nat) : Copy :=
  { c with owned := ((pas.map (fun a => a / 128)).eraseDups).foldl (fun t l =>
      match t.find l with
      | some x => t.set l (x.1 - (pas.filter (fun a => a / 128 == l)).length, x.2)
      | none => t) c.owned }

/-- Writes a chunk to its home (rules R331, R355, R415): marked bytes poison their granules; bytes of another package's memory are sent, with
their marks (DEDUCED; log entry 155). -/
def State.copyHome (s : State) (c : Copy) (ps : List (Nat × Option (Nat × Nat))) (bs : List (Byte × Bool)) : State :=
  let all := ps.zip bs
  let far := all.filter (fun x => regionOf x.1.1 == 1)
  let near := all.filter (fun x => regionOf x.1.1 != 1)
  let cells := near.map (fun x => (x.1.1, x.2.1))
  let marks (l : List ((Nat × Option (Nat × Nat)) × (Byte × Bool))) : List Nat := ((l.filter (fun x => x.2.2)).map (fun x => x.1.1 / 32)).eraseDups
  let bad := marks near
  let s := s.homeWrite c.part (s.copyPlace c) cells bad
  let dup := near.filterMap (fun x => (s.migDup x.1.2).map (fun n => ((n + x.1.1 % 128, x.2.1), x.2.2)))
  let s := if dup.isEmpty then s
    else s.homeWrite c.part (s.copyPlace c) (dup.map (fun x => x.1)) ((dup.filter (fun x => x.2)).map (fun x => x.1.1 / 32)).eraseDups
  let s := (bad ++ marks far).foldl (fun s g => s.mcRecord 7 c.part (32 * g) (s.copyPlace c) 0) s
  let s := s.queueWrite c.core { id := 0, slot := c.slot, gid := c.id, split := 0, iid := 0, cells := far.map (fun x => (x.1.1, x.2.1)), poison := marks far }
  s.updCopy c.id (fun d => d.wrote (ps.map (fun p => p.1)))

/-- Writes a chunk into the local store, with the marks of its poisoned words. -/
def State.copyLocal (s : State) (c : Copy) (os : List Nat) (bs : List (Byte × Bool)) : State :=
  let s := (runsOf (os.zip (bs.map (fun b => b.1)))).foldl (fun s r => s.lsWrite c.tid r.1 r.2 (s.copyPlace c)) s
  let bad := (((os.zip bs).filter (fun x => x.2.2)).map (fun x => x.1 / 8)).eraseDups
  let s := s.updTeam c.tid (fun T => { T with lsBad := bad.foldl addNew T.lsBad })
  let base := match s.teams.find c.tid with | some T => T.lsBase | none => 0
  bad.foldl (fun s g => s.mcRecord 7 c.part (8 * g + base) (s.copyPlace c) 0) s

/-- Writes the bytes of a layout at a list of addresses, all or none. -/
def State.copyWrite (s : State) (c : Copy) (L : Layout) (as : List Int) (bs : List (Byte × Bool)) : State × Out Unit :=
  if L.ls then
    if as.any (fun a => decide (a < 0)) then (s, .err 5)
    else andThen (s.copyWin c (as.map Int.toNat) true) (fun s _ => (s.copyLocal c (as.map Int.toNat) bs, .ok ()))
  else andThen (s.copyMap c.core c.part as true) (fun s ps =>
    let lines := (ps.map (fun p => p.1 / 128)).eraseDups
    match s.heldBy c lines with
    | (s, true) => (s, .hold)
    | (s, false) => if lines.any (fun l => regionOf (128 * l) == 2 && s.barred c.part c.core l) then (s, .hold) else (s.copyHome c ps bs, .ok ()))

/-! ### One chunk (rules R346, R350 to R354, R397) -/

/-- Addresses of a run of `n` bytes from `a`. -/
def runAt (a : Int) (n : Nat) : List Int := (List.range n).map (fun i => a + (i : Nat))

/-- PROD and CONS of a ring (rule R344). -/
def State.ringWords (s : State) (c : Copy) (D : Layout) : State × Out (Nat × Nat) :=
  andThen (s.copyRead c D (runAt ((D.base : Int) - 16) 16)) (fun s b =>
    let x := b.map (fun y => y.1)
    (s, .ok (numOf (x.take 8), numOf (x.drop 8))))

/-- Where a chunk of `n` bytes goes (rules R344, R397): the addresses, and PROD before it for a ring, which must have room. DESIGN CHOICE: a
CONS that is ahead of PROD by at most half of the counters' range has passed it, and the chunk goes on over bytes that have not been consumed
(log entry 149). -/
def State.chunkPlace (s : State) (c : Copy) (D : Layout) (n : Nat) : State × Out (List Int × Nat) :=
  if D.ring != 0 then
    if D.ring < n then (s, .err 4)
    else andThen (s.ringWords c D) (fun s pc =>
      let used := (pc.1 + 2 ^ 64 - pc.2) % 2 ^ 64
      if decide (used < 2 ^ 63) && decide (D.ring < used + n) then (s, .full)
      else (s, .ok ((List.range n).map (fun k => ((D.base + (pc.1 + k) % D.ring : Nat) : Int)), pc.1)))
  else if D.enc then (s, .ok (runAt ((D.base + c.dpos : Nat) : Int) n, 0))
  else (s, .ok ((List.range n).map (fun k => D.byteAt (c.dpos + k)), 0))

/-- The bytes of a plain chunk (rule R346). -/
def plainChunk (c : Copy) (D : Layout) : Nat :=
  Nat.min (if D.ring = 0 then 4096 else Nat.min 4096 D.ring) (D.span D.count - c.dpos)

/-- The address of byte `k` of the source of a copy that moves bytes as they are; none for a slice out of range (rule R354). -/
def Copy.srcByte (c : Copy) (S : Layout) (k : Nat) : Option Int :=
  if c.kind = 3 then
    let slice := S.span ((S.ext.take (S.rank - 1)).foldl (fun a e => a * e) 1)
    let i := c.indices.getD (k / slice) 0
    if slice = 0 || S.ext.getD (S.rank - 1) 0 ≤ i then none else some (S.byteAt (i * slice + k % slice))
  else some (S.byteAt k)

/-- The elements of codes of `w` bits packed in bytes. -/
def codesOf (w n : Nat) (b : List Byte) : List Nat := (List.range n).map (fun i => numOf b >>> (i * w) % 2 ^ w)

/-- What one chunk writes: its bytes, the source bytes used, and whether an index was out of range. -/
structure Chunk where
  data : List (Byte × Bool)
  used : Nat := 0
  oob : Bool := false

/-- Reads and converts the source of a chunk, CPY.DEC apart. -/
def State.chunkData (s : State) (c : Copy) (S D : Layout) : State × Out Chunk :=
  if c.kind = 1 then
    let n := Nat.min 16 (S.count - 16 * c.chunk)
    andThen (s.copyRead c S ((List.range (S.span n)).map (fun k => S.byteAt (S.span (16 * c.chunk) + k)))) (fun s b =>
      let els := (codesOf S.bits n (b.map (fun x => x.1))).map (recodeElem D.fmt)
      let bad := b.any (fun x => x.2)
      (s, .ok { data := (blockBytes D.fmt els).map (fun x => (x, bad)) }))
  else if S.enc then
    andThen (s.copyRead c S (runAt ((S.base + c.pos : Nat) : Int) 32)) (fun s h =>
      let g := (parseBlock S.fmt (h.map (fun x => x.1))).2
      andThen (s.copyRead c S (runAt ((S.base + c.pos : Nat) : Int) (32 * g))) (fun s b => (s, .ok { data := b, used := 32 * g })))
  else
    let ks := (List.range (plainChunk c D)).map (fun k => c.srcByte S (c.dpos + k))
    andThen (s.copyRead c S (ks.filterMap id)) (fun s b =>
      let r := ks.foldl (fun (r : List (Byte × Bool) × List (Byte × Bool)) a => match a, r.2 with
        | some _, x :: rest => (x :: r.1, rest)
        | _, rest => ((0, false) :: r.1, rest)) ([], b)
      (s, .ok { data := r.1.reverse, oob := ks.any Option.isNone }))

/-- The header of a Rice block, read once for its chunk. -/
def State.riceHead (s : State) (c : Copy) (S : Layout) : State × Out (List (Byte × Bool)) :=
  if !c.hdr.isEmpty then (s, .ok c.hdr)
  else andThen (s.copyRead c S (runAt ((S.base + c.pos : Nat) : Int) 4)) (fun s h => (s.updCopy c.id (fun d => { d with hdr := h }), .ok h))

/-- A chunk of CPY.DEC (rules R353, R397): the header and its TRUNC checks, the space, then the rest of the block. -/
def State.riceChunk (s : State) (c : Copy) (S D : Layout) : State × Out (Chunk × List Int × Nat) :=
  let e0 := S.ext.getD 0 0
  let w := D.bits
  if e0 < c.pos + 8 then (s, .err 3)
  else andThen (s.riceHead c S) (fun s h =>
    let hdr := numOf (h.map (fun x => x.1))
    let k := hdr / 2 ^ 27 % 32
    let n := hdr / 2 ^ 16 % 2048 + 1
    let len := hdr % 65536
    if e0 < c.pos + 8 + len then (s, .err 3)
    else
      let bytes := Nat.min (D.span n) (D.span D.count - c.dpos)
      andThen (s.chunkPlace c D bytes) (fun s pl =>
        andThen (s.copyRead c S (runAt ((S.base + c.pos + 4 : Nat) : Int) (4 + len))) (fun s rest =>
          let b := h ++ rest
          let x := b.map (fun y => y.1)
          if b.any (fun y => y.2) then (s, .err 7)
          else if crc32c (x.take (4 + len)) != numOf (x.drop (4 + len)) then (s, .err 1)
          else if len % 4 != 0 || w < k then (s, .err 2)
          else match riceElems (numOf ((x.drop 4).take len)) (8 * len) k w n 0 0 with
            | none => (s, .err 2)
            | some els =>
              let out := (els.map (fun e => bytesOf e (w / 8))).flatten.take bytes
              (s, .ok ({ data := out.map (fun y => (y, false)), used := 8 + len }, pl.1, pl.2)))))

/-- The chunk that a copy writes next, with its place. -/
def State.nextChunk (s : State) (c : Copy) (S D : Layout) : State × Out (Chunk × List Int × Nat) :=
  if c.kind = 2 then s.riceChunk c S D
  else if c.kind = 1 || S.enc then
    andThen (s.chunkData c S D) (fun s d => andThen (s.chunkPlace c D d.data.length) (fun s pl => (s, .ok (d, pl.1, pl.2))))
  else andThen (s.chunkPlace c D (plainChunk c D)) (fun s pl => andThen (s.chunkData c S D) (fun s d => (s, .ok (d, pl.1, pl.2))))

/-- The index word of a block, where the destination keeps one (rule R343): address and bytes. -/
def indexWord (c : Copy) (D : Layout) (prod : Nat) : List (Int × Byte) :=
  if !D.enc || D.ioff = 0 then []
  else
    let g := (if D.ring != 0 then prod % D.ring else c.dpos) / 32
    (runAt ((D.base : Int) + D.ioff + (4 * c.chunk : Nat)) 4).zip (bytesOf g 4)

/-- An engine action on a team's region (rules R265, R363): what it meets in a stash window. -/
def State.applyHeld (s : State) (tid place : Nat) (h : Held) : State × Filled :=
  match h with
  | .add off n _ => s.addBytes tid off n place
  | .signal off e => s.signal tid off e place

/-- Applies the engine actions held for a team, in the order made, as far as the windows and their pages let them (rules R356, R363). -/
def State.applyAll (s : State) (tid : Nat) (hs : List Held) : State :=
  match hs with
  | [] => s.updTeam tid (fun T => { T with held := [] })
  | h :: rest =>
    match s.applyHeld tid 0 h with
    | (s, .waits) | (s, .missing _) => s.updTeam tid (fun T => { T with held := h :: rest })
    | (s, _) => s.applyAll tid rest

/-- Tries the engine actions that still wait for a line in the windows of resident teams. -/
def State.retryHeld (s : State) : State :=
  (s.teams.filter (fun e => e.2.state != .saved && !e.2.held.isEmpty)).foldl (fun s e => s.applyAll e.1 e.2.held) s

/-- An engine action on a team's region, held while the team is saved, after those held before it (rule R363), and discarded when it has
ended; held back while the object's window line is not there (R265), or for its page (R356). -/
def State.engineAct (s : State) (c : Copy) (h : Held) : State × Out Unit :=
  match s.teams.find c.tid with
  | none => (s, .ok ())
  | some T =>
    match T.state with
    | .ended => (s, .ok ())
    | .saved => (s.updTeam c.tid (fun T => { T with held := T.held ++ [h] }), .ok ())
    | _ =>
      let s := if T.held.isEmpty then s else s.applyAll c.tid T.held
      if (s.teams.find c.tid).any (fun T => !T.held.isEmpty) then (s, .hold)
      else match s.applyHeld c.tid (s.copyPlace c) h with
        | (s, .waits) => (s, .hold)
        | (s, .missing va) => (s, .page va)
        | (s, _) => (s, .ok ())

/-- Adds a chunk's bytes to the arrival word (rule R346). -/
def State.copyAdd (s : State) (c : Copy) (n : Nat) : State × Out Unit := s.engineAct c (.add (doneTgt c.done) n c.ticket)

/-- Whether the writes that a copy sent to another package are acknowledged. -/
def State.copyAcked (s : State) (c : Copy) : Bool := !((s.core c.core).homeq.any (fun h => h.gid == c.id))

/-- Writes one chunk of a copy: data, index, PROD, and the chunk's addition (rule R346). -/
def State.writeChunk (s : State) (c : Copy) : State × Out Unit :=
  let S := c.srcL
  let D := c.dstL
  andThen (s.nextChunk c S D) (fun s x =>
    let n := x.1.data.length
    let ix := indexWord c D x.2.2
    let prod := if D.ring = 0 then [] else (runAt ((D.base : Int) - 16) 8).zip (bytesOf ((x.2.2 + n) % 2 ^ 64) 8)
    let more := ix ++ prod
    andThen (s.copyWrite c D (x.2.1 ++ more.map (fun i => i.1)) (x.1.data ++ more.map (fun i => (i.2, false)))) (fun s _ =>
      let s := (s.updPart c.part (fun P => { P with copyLeft := P.copyLeft - (n : Int) })).count c.part 12 n
      let s := s.updCopy c.id (fun d => { d with
        chunk := d.chunk + 1, bytes := d.bytes + n, pos := d.pos + x.1.used, dpos := d.dpos + n, oob := d.oob || x.1.oob, state := 2, hdr := []
        pend := if doneKind c.done = 2 then some n else none })
      (s, .ok ())))

end Sys2Proof.Machine
end

