-- ==== Sys2Proof/Machine/CopyOps.lean ====
section
/-! DEFINITION. Row 0xB_ (rules R345 to R361): the copy instructions, STAGE and CPYSTAT, the engines' events, the static schedule, and the
migration engine (rule R282). -/

namespace Sys2Proof.Machine

/-! ### The checks of rule R348 -/

/-- What a check of rule R348 finds: the failing register, or INFO of the address. -/
inductive CpyFail where
  | illegal (num : Nat)
  | align (info : Nat)
  | protect (info : Nat)
  | page (kind va : Nat)
  deriving DecidableEq, Repr

/-- What a copy instruction, a schedule entry or a COPY packet gives: kind, mutable parts, completion and index words, and the
numbers of the registers that name them. -/
structure CpyArgs where
  kind : Nat
  src : List W64
  dst : List W64
  done : W64
  gidx : W64 := 0
  na : Nat := 0
  nb : Nat := 0
  nc : Nat := 0

/-- Whether a mutable part or a completion word has a reserved field or code (step 2). -/
def mutBad (m : List W64) : Bool :=
  fld (wordAt m 0) 57 6 != 0 || fld (wordAt m 1) 57 7 != 0 || fld (wordAt m 3) 63 1 != 0
    || (fld (wordAt m 0) 63 1 == 1 && fld (wordAt m 0) 19 38 != 0)
def doneBad (d : W64) : Bool :=
  fld d 57 2 != 0 || (doneKind d == 0 && (doneScope d != 0 || doneTgt d != 0))
    || (doneKind d != 0 && (doneScope d == 0 || doneScope d == 7)) || (decide (2 ≤ doneKind d) && fld d 19 38 != 0)

/-- The alignment of a completion target (rule R345). -/
def tgtUnit (d : W64) : Nat := if doneKind d = 1 then 8 else 16
def tgtInfo (d : W64) : Nat := if doneKind d = 1 then addrInfo (doneTgt d) else doneTgt d

/-- A mutable part's REC, and its BASE as INFO. -/
def recVa (m : List W64) : Nat := fld (wordAt m 1) 0 57
def partLs (m : List W64) : Bool := fld (wordAt m 0) 63 1 == 1
def partBase (m : List W64) : Nat := fld (wordAt m 0) 0 57

/-- Steps 2 to 4, which read no memory; `lsz` is the length of the region that local-store offsets lie in. -/
def CpyArgs.fields (a : CpyArgs) (lsz : Option Nat) : Option CpyFail :=
  let outside (o n : Nat) : Bool := lsz.any (fun z => decide (z < o + n))
  if mutBad a.src || (a.kind == 3 && (fld a.gidx 19 45 != 0 || fld a.gidx 0 2 != 0)) then some (.illegal a.na)
  else if mutBad a.dst then some (.illegal a.nb)
  else if doneBad a.done then some (.illegal a.nc)
  else if recVa a.src % 64 != 0 then some (.align (addrInfo (recVa a.src)))
  else if recVa a.dst % 64 != 0 then some (.align (addrInfo (recVa a.dst)))
  else if doneTgt a.done % tgtUnit a.done != 0 then some (.align (tgtInfo a.done))
  else if partLs a.src && outside (partBase a.src) 1 then some (.protect (partBase a.src))
  else if partLs a.dst && outside (partBase a.dst) 1 then some (.protect (partBase a.dst))
  else if decide (2 ≤ doneKind a.done) && outside (doneTgt a.done) 16 then some (.protect (doneTgt a.done))
  else none

/-- Step 5: the pages that the copy needs first, with the permissions they need. -/
def CpyArgs.pages (a : CpyArgs) : List (Nat × Bool × Bool) :=
  [(recVa a.src, true, false), (recVa a.dst, true, false)]
    ++ (if partLs a.src then [] else [(partBase a.src, true, false)]) ++ (if partLs a.dst then [] else [(partBase a.dst, false, true)])
    ++ (if doneKind a.done = 1 then [(doneTgt a.done, true, true)] else [])

/-- PAGE for the first page without a translation, unless those are passed over, then PROTECT for the first without its permission or in a
refused region. -/
def State.pagesFail (s : State) (core : Option Nat) (part : Nat) (ps : List (Nat × Bool × Bool)) (skip : Bool := false) : State × Option CpyFail :=
  let r := ps.foldl (fun (r : State × Option CpyFail × Option CpyFail) p =>
    match r.2.1 with
    | some _ => r
    | none => match r.1.translate core part p.1 with
      | (s, none) => (s, if skip then none else some (.page (if p.2.2 then 1 else 0) p.1), r.2.2)
      | (s, some e) =>
        let no := (p.2.1 && !e.rd) || (p.2.2 && !e.wr) || !s.regionOk (e.pa p.1)
        (s, none, if no && r.2.2.isNone then some (.protect (addrInfo p.1)) else r.2.2)) (s, none, none)
  (r.1, match r.2.1 with | some f => some f | none => r.2.2)

/-- Whether a lookup of one of the pages waits for a copy (rule R331). -/
def State.pagesHeld (s : State) (core : Option Nat) (part : Nat) (ps : List (Nat × Bool × Bool)) : Bool :=
  ps.any (fun p => s.walkHeld core part p.1)

/-- Reads a record as a plain LD of 64 bytes would (rule R340), with the records of the poison that it meets (rule R415): none while its line
may not be read; poisoned bytes read as zero. The Caravan reads on the home path (rule R375). -/
def State.recordAt (s : State) (core : Nat) (home : Bool) (part va : Nat) : State × Option (List W64) :=
  match s.translate (some core) part va with
  | (s, none) => (s, some [])
  | (s, some e) =>
    let pa := e.pa va
    let words (b : List Byte) (bad : Bool) : List W64 := (List.range 8).map (fun i => if bad then 0 else w64 (numOf ((b.drop (8 * i)).take 8)))
    let near (s : State) : State × Option (List W64) := let r := s.l1Read core pa 64; (s, some (words r.1 r.2))
    let hurt (j : Nat) : Bool := (s.core core).l1.any (fun l => l.line == pa / 128 && l.poison.getLsbD j && (secsOf pa 64).getLsbD j)
    if !home && s.l1Hit core pa 64 then
      near (((List.range 4).filter hurt).foldl (fun s j => s.mcRecord 3 part (pa / 128 * 128 + 32 * j) (s.corePlace core) 0) s)
    else if s.barred part core (pa / 128) then (s, none)
    else if home then
      if s.owned (pa / 128) then (s, none)
      else let q := s.coreRead core pa 64; (q.1.readPoison part 0 pa 64, some (words q.2 (q.1.poisoned pa 64)))
    else match s.l1Settle core (pa / 128) with
      | (s, false) => (s, none)
      | (s, true) => near ((s.l1Fill core (pa / 128)).readPoison part (s.corePlace core) (pa / 128 * 128) 128)

/-- Step 6, which needs the records. -/
def CpyArgs.late (a : CpyArgs) (srec drec : List W64) (T : Option Team) : Option CpyFail :=
  let S := layoutOf a.src srec
  let D := layoutOf a.dst drec
  let p := pairBad a.kind S D
  let info (L : Layout) : Nat := if L.ls then L.base else addrInfo L.base
  let list : List (Int × Nat) := if a.kind = 3 then [((fld a.gidx 0 19 : Nat), 4 * D.ext.getD (D.rank - 1) 0)] else []
  let ext := (if S.ls then S.extents else []) ++ (if D.ls then D.extents else []) ++ list
  let outside (x : Int × Nat) : Bool := match T with | some T => x.2 != 0 && !(T.lsOk x.1 x.2) | none => false
  if S.bad srec false || p.src || (!(D.bad drec true) && p.both) then some (.illegal a.na)
  else if D.bad drec true || p.dst || decide (2 ^ 40 < D.span D.count) then some (.illegal a.nb)
  else if S.base % S.unit != 0 then some (.align (info S))
  else if D.base % D.unit != 0 then some (.align (info D))
  else match ext.find? outside with
    | some x => some (.protect (wrapInt x.1 19))
    | none => none

/-! ### Ownership and queues (rules R331, R348) -/

/-- Virtual lines of a run of bytes with the bytes in each. -/
def spanLines (a n : Nat) : List (Nat × Nat) :=
  (List.range ((a % 128 + n + 127) / 128)).map (fun i =>
    let l := a / 128 + i
    (l, Nat.min (a + n) (128 * l + 128) - Nat.max a (128 * l)))

/-- The runs of bytes that a copy writes. -/
def Layout.runs (D : Layout) : List (Int × Nat) :=
  if D.ls then []
  else if D.enc then [((D.base : Int), 32 * D.blocks * (tparam D.fmt).most)] ++ (if D.ioff = 0 then [] else [((D.base : Int) + D.ioff, 4 * D.blocks)])
  else if D.count = 0 then []
  else (List.range D.rows).map (fun r => ((D.base : Int) + D.rowAt r, D.rowBytes))

/-- The virtual lines of a copy's global destination extent, gaps included, each with its bytes to write. -/
def Layout.lines (D : Layout) : Tab Nat :=
  let spans (rs : List (Int × Nat)) : List (Nat × Nat) := ((rs.filter (fun r => decide (0 ≤ r.1))).map (fun r => spanLines r.1.toNat r.2)).flatten
  if D.ls then []
  else (spans D.runs).foldl (fun t x => t.set x.1 (t.get 0 x.1 + x.2)) ((spans D.extents).foldl (fun t x => t.set x.1 0) [])

/-- The mapped lines of a destination extent that satisfy a condition on their virtual number, each with its bytes to write. -/
def State.destLines (s : State) (core part : Nat) (D : Layout) (f : Nat → Bool) : State × Tab Nat :=
  (D.lines.filter (fun x => f x.1)).foldl (fun (r : State × Tab Nat) x =>
    match r.1.translate (some core) part (128 * x.1) with
    | (s, some e) =>
      let l := e.pa (128 * x.1) / 128
      (s, r.2.set l (r.2.get 0 l + x.2))
    | (s, none) => (s, r.2)) (s, [])

/-- The number of a line's home slice (rule R274). -/
def State.sliceNo (s : State) (line : Nat) : Nat := 48 * s.homeStack (128 * line) + line % 48

/-- Whether every slice of a set of lines has room for one more owned range of its 64. -/
def State.slicesFree (s : State) (slices : List Nat) : Bool :=
  !(slices.any (fun x => decide (64 ≤ (s.copies.filter (fun c => c.slices.contains x)).length)))

/-- The engine that a copy enters: the pinned one, or the one with fewer entries. -/
def Core.pickEngine (k : Core) (pin : Nat) : Nat :=
  if pin = 1 then 0 else if pin = 2 then 1 else if k.eng0.length ≤ k.eng1.length then 0 else 1

/-- A copy takes exclusive ownership of lines at their homes (rule R331): the windows that hold them lose them. -/
def State.ownHome (s : State) (core : Nat) (lines : List Nat) : State :=
  lines.foldl (fun s l => (s.recall l true).exclusive (stackOf core) l) s

/-- Enters a copy in its engine's queue, its destination lines its own. -/
def State.pushCopy (s : State) (c : Copy) : State :=
  let e := (s.core c.core).pickEngine c.pin
  let s := s.ownHome c.core (c.owned.map (fun x => x.1))
  (s.updCore c.core (fun k => k.setEng e (k.eng e ++ [c]))).copyRecord c e 0x10

/-- A copy with its records and its ownership, from arguments whose checks have passed; `turn` orders it among the owners. -/
def State.makeCopy (s : State) (c : Copy) (turn : Nat) (srec drec : List W64) : State × Copy :=
  let q := s.destLines c.core c.part (layoutOf c.dst drec) (fun _ => true)
  (q.1, { c with srec := srec, drec := drec, turn := turn, owned := q.2.map (fun x => (x.1, (x.2, turn))), slices := (q.2.map (fun e => q.1.sliceNo e.1)).eraseDups })

/-- A copy obtains the lines of its destination in a page that has been mapped since it issued (rules R331, R356). -/
def State.ownPage (s : State) (c : Copy) (va : Nat) : State :=
  let q := s.destLines c.core c.part c.dstL (fun l => 128 * l / 65536 == va / 65536)
  let f := q.1.fresh
  let mine := q.2.filter (fun x => (c.owned.find x.1).isNone)
  (f.2.ownHome c.core (mine.map (fun x => x.1))).updCopy c.id (fun d => { d with
    owned := mine.foldl (fun t x => t.set x.1 (x.2, f.1)) d.owned
    slices := (d.slices ++ mine.map (fun x => f.2.sliceNo x.1)).eraseDups })

/-- The EPOCH that a completion word's barrier object holds (rule R346). -/
def Team.epochAt (T : Team) (done : W64) : Nat := if doneKind done = 3 then barEpoch (T.obj (doneTgt done)).1 else 0

/-! ### CPY, CPY.ENC, CPY.DEC and CPY.GATHER (rules R347, R348) -/

/-- Raises what a check found. -/
def State.raiseCopy (s : State) (X : Ctx) (f : CpyFail) : State :=
  match f with
  | .illegal n => s.badValue X 1 n
  | .align i => s.raise X 6 0 i
  | .protect i => s.raise X 7 0 i
  | .page kind va => s.pageFault X kind va 0

/-- The registers of a run of uniform operands. -/
def uniRun (G : Group) (n k : Nat) : List W64 := (List.range k).map (fun i => G.uni (n + i))

/-- The issue phase of a copy: its checks, the barrier object that it names in its window, the release of the split's earlier writes, and
room for its ownership and in its queue. -/
def State.copyPhase (s : State) (X : Ctx) (G : Group) (P : Plan) (a : CpyArgs) (pin : Nat) : State × Option Copy :=
  let T := s.teamOf G
  match a.fields (some T.lsz) with
  | some f => (s.raiseCopy X f, none)
  | none =>
    if s.pagesHeld (some X.core) G.part a.pages then (s.stall X 14, none)
    else match s.pagesFail (some X.core) G.part a.pages with
    | (s, some f) => (s.raiseCopy X f, none)
    | (s, none) =>
      match s.recordAt X.core false G.part (recVa a.src) with
      | (s, none) => (s.stall X 14, none)
      | (s, some srec) =>
        match s.recordAt X.core false G.part (recVa a.dst) with
        | (s, none) => (s.stall X 14, none)
        | (s, some drec) =>
          match a.late srec drec (some T) with
          | some f => (s.raiseCopy X f, none)
          | none =>
            match (if doneKind a.done = 3 then s.lsAccess X G P (doneTgt a.done) 16 0 false else (s, .ok)) with
            | (s, .ok) =>
              let c : Copy := { id := s.nextId, ticket := ticketOf (T.ticket + 1), tid := G.tid, lid := G.lid, part := G.part, core := X.core, slot := X.slot,
                                gid := G.gid, split := X.split, kind := a.kind, src := a.src, dst := a.dst, srec := [], drec := [], done := a.done,
                                gidx := fld a.gidx 0 19, epoch := (s.teamOf G).epochAt a.done, pin := pin }
              let q := s.makeCopy c c.id srec drec
              let k := q.1.core X.core
              if !(q.1.slicesFree q.2.slices) || decide (32 ≤ (k.eng (k.pickEngine pin)).length) then (q.1.stall X 14, none)
              else match q.1.ordered X G 2 3 14 with
                | (s, false) => (s, none)
                | (s, true) => (s, some q.2)
            | (s, _) => (s, none)

/-- A copy instruction of kind `kind`. -/
def State.copyOp (s : State) (i : Instr) (f : FmtR) (kind : Nat) : State :=
  s.begin i false (fun s X G p =>
    let m := activeLanes G p f.ge f.gn f.g
    let n := if kind = 3 then 5 else 4
    let P : Plan := ({} : Plan).guard f.ge f.gn f.g
    let P := { P with rk := (List.range n).map (fun j => f.a.toNat + j) ++ (List.range 4).map (fun j => f.b.toNat + j) ++ [f.c.toNat], wk := [f.d.toNat] }
    let a : CpyArgs := { kind := kind, src := uniRun G f.a.toNat 4, dst := uniRun G f.b.toNat 4, done := G.uni f.c.toNat
                         gidx := if kind = 3 then G.uni (f.a.toNat + 4) else 0, na := f.a.toNat, nb := f.b.toNat, nc := f.c.toNat }
    s.memIssue X G P f.y (fun s =>
        if m == 0 then (s, some none)
        else match s.copyPhase X G { P with y := f.y } a (f.opx.toNat % 4) with
          | (s, none) => (s, none)
          | (s, some c) => (s, some (some c))) (fun _ => 0) (fun s r =>
      match r with
      | none => (s, infNone)
      | some c =>
        let s := ({ s with nextId := s.nextId + 1 }.updTeam G.tid (fun T => { T with ticket := T.ticket + 1 })).pushCopy c
        (s, { infNone with writes := [{ sp := .uni, num := f.d.toNat, word := w64 c.ticket }] })))

/-- CPY (rule R350). -/
def execCpy (f : FmtR) (s : State) : Res := .next (s.copyOp (.cpy f) f 0)
/-- CPY.ENC (rule R351). -/
def execCpyEnc (f : FmtR) (s : State) : Res := .next (s.copyOp (.cpyEnc f) f 1)
/-- CPY.DEC (rule R353). -/
def execCpyDec (f : FmtR) (s : State) : Res := .next (s.copyOp (.cpyDec f) f 2)
/-- CPY.GATHER (rule R354). -/
def execCpyGather (f : FmtR) (s : State) : Res := .next (s.copyOp (.cpyGather f) f 3)

/-! ### STAGE and CPYSTAT (rules R358, R359) -/

/-- Fields of a schedule entry (rule R360). -/
def entryCount (e : List W64) : Nat := fld (wordAt e 0) 32 16
def entryPeriod (e : List W64) : Nat := fld (wordAt e 0) 16 16
def entryStage (e : List W64) : Nat := fld (wordAt e 0) 0 16

/-- Repeats of an entry that a stage releases. -/
def released (e : List W64) (stage : Nat) : Nat :=
  if stage < entryStage e then 0 else Nat.min (entryCount e) ((stage - entryStage e) / Nat.max 1 (entryPeriod e) + 1)

/-- Inserts a released repeat in order of stage value, then entry number (rule R361). -/
def insertRepeat (x : Nat × Nat) (q : List (Nat × Nat)) : List (Nat × Nat) :=
  match q with
  | [] => [x]
  | y :: rest => if x.1 < y.1 || (x.1 == y.1 && decide (x.2 < y.2)) then x :: y :: rest else y :: insertRepeat x rest

/-- Releases the repeats that the team's stage has reached. -/
def Team.release (T : Team) (sched : List (List W64)) : Team :=
  sched.zipIdx.foldl (fun T e =>
    let old := T.sched.get 0 e.2
    let now := released e.1 T.stage
    let q := (List.range (now - old)).foldl (fun q j => insertRepeat (entryStage e.1 + (old + j) * entryPeriod e.1, e.2) q) T.relq
    { T with relq := q, sched := if old < now then T.sched.set e.2 now else T.sched }) T

def State.schedOf (s : State) (lid : Nat) : List (List W64) := match s.launches.find lid with | some L => L.sched | none => []

/-- STAGE. -/
def stageBody (f : FmtR) (s : State) : State :=
  s.begin (.stage f) false (fun s X G p =>
    let m := activeLanes G p f.ge f.gn f.g
    let P : Plan := ({} : Plan).guard f.ge f.gn f.g
    let P := { P with rk := [f.a.toNat], wk := [f.d.toNat] }
    let v := G.uni f.a.toNat
    s.memIssue X G P f.y (fun s =>
        if m == 0 then (s, some ())
        else if fld v 16 48 != 0 then (s.badValue X 1 f.a.toNat, none)
        else if v == 0 then (s, some ())
        else match s.ordered X G 2 2 14 with
          | (s, false) => (s, none)
          | (s, true) => (s, some ())) (fun _ => 0) (fun s _ =>
      if m == 0 then (s, infNone)
      else
        let stage := Nat.min ((s.teamOf G).stage + v.toNat) (2 ^ 32 - 1)
        let s := s.updTeam G.tid (fun T => { T with stage := stage }.release (s.schedOf G.lid))
        (s, { infNone with writes := [{ sp := .uni, num := f.d.toNat, word := w64 stage }] })))
def execStage (f : FmtR) (s : State) : Res := .next (stageBody f s)

/-- The status of a ticket among a team's copies: one of the latest 128 (rule R358); STATE is 2, not 6 or 7, while an addition of the copy has
not reached the local store (rule R398). -/
def State.ticketWord (s : State) (T : Team) (ticket : Nat) : W64 :=
  if !((List.range 128).any (fun d => decide (d < T.ticket) && ticketOf (T.ticket - d) == ticket)) then 0
  else match (s.copies ++ T.susp).find? (fun c => c.tid == T.tid && c.queue.isNone && c.ticket == ticket) with
    | some c => c.word
    | none =>
      let w := T.status.get 0 ticket
      if T.held.any (fun h => match h with | .add _ _ t => t == ticket | .signal _ _ => false) then setFld (setFld w 60 4 2) 56 4 0 else w

/-- CPYSTAT. -/
def cpystatBody (f : FmtR) (s : State) : State :=
  s.begin (.cpystat f) false (fun s X G p =>
    let m := activeLanes G p f.ge f.gn f.g
    let P : Plan := ({} : Plan).guard f.ge f.gn f.g
    let P := { P with rk := [f.a.toNat], wk := [f.d.toNat] }
    let v := s.ticketWord (s.teamOf G) (fld (G.uni f.a.toNat) 0 32)
    s.compute X G P f.y (if m == 0 then [] else [{ sp := .uni, num := f.d.toNat, word := v }]))
def execCpystat (f : FmtR) (s : State) : Res := .next (cpystatBody f s)

/-! ### Reports (rules R357, R373, R457) -/

/-- A packet completes: its interrupt and its record (rules R372, R373). -/
def State.packetDone (s : State) (q rid : Nat) : State :=
  let Q := s.queue q
  match Q.runs.find? (fun r => r.rid == rid) with
  | none => s
  | some r =>
    let part := fld Q.ctl 60 3
    let s := s.updQueue q (fun Q => { Q with runs := Q.runs.filter (fun x => x.rid != rid) })
    let s := if r.irq && fld Q.ctl 8 1 == 1 then { s with replies := s.replies ++ [.irq part r.tag] } else s
    s.record part true (srcNo 3 0 0) 0x41 r.tag.toNat (w64 q) (w64 r.typ)

/-- CHECKSUM for a group, resident or saved (rule R357). -/
def State.checksum (s : State) (c : Copy) : State :=
  let q : Cause := { code := 16, info := BitVec.ofNat 48 (at_ c.ticket 16 + Nat.min c.chunk 65535) }
  let T := s.teams.find c.tid
  let live : List Group := match T with
    | some T => if c.scheduled then ((T.cores.map (fun k => ((s.core k).slots.map (fun (e : Nat × Group) => e.2)).filter (fun G => G.tid == T.tid && !G.ending))).flatten) else []
    | none => []
  let lowest := live.foldl (fun (b : Option Group) G => match b with
    | none => some G
    | some H => if G.idx < H.idx then some G else some H) none
  let gid := if c.scheduled then (match lowest with
      | some G => G.gid
      | none => match T with | some T => (T.savedGroups.head?.map (fun (G : Group) => G.gid)).getD 0 | none => 0) else c.gid
  let add (G : Group) : Group := if G.gid == gid && gid != 0 && !G.ending then { G with causes := G.causes ++ [q] } else G
  let s := { s with cores := s.cores.mapV (fun k => { k with slots := k.slots.mapV add }) }
  s.updTeam c.tid (fun T => { T with savedGroups := T.savedGroups.map add })

/-- The address of the status word that a COPY packet asks for (rule R372), or 0. -/
def State.statusAt (s : State) (c : Copy) : Nat :=
  match c.queue with
  | none => 0
  | some (q, rid) => ((s.queue q).runs.find? (fun r => r.rid == rid)).elim 0 (fun r => fld (wordAt r.words 11) 0 57)

/-- Whether the end of a copy waits for a line that its status word lies in. -/
def State.endHeld (s : State) (c : Copy) : Bool := s.statusAt c != 0 && s.pathHeld c.part (s.statusAt c) 8

/-- A copy ends: it leaves its engine with its ownership, its status is kept, and it is reported. -/
def State.endCopy (s : State) (core eng : Nat) (c : Copy) : State :=
  let s := (s.updCore core (fun k => k.setEng eng ((k.eng eng).filter (fun x => x.id != c.id)))).retryHeld
  let s := if c.queue.isNone then s.updTeam c.tid (fun T => { T with status := T.status.set c.ticket c.word }) else s
  let s := s.copyRecord c eng (if c.state = 6 then 0x11 else 0x12)
  match c.queue with
  | none => s
  | some (q, rid) =>
    let s := if s.statusAt c = 0 then s else (s.writeVa c.part (s.statusAt c) (bytesOf { c with oob := false }.word.toNat 8)).1
    s.packetDone q rid

/-- A copy that needs a page that has no translation (rules R356, R411): KIND 11, or ERR 5 while faults are refused. -/
def State.copyPage (s : State) (c : Copy) (va : Nat) : State :=
  if fld (s.part c.part).pfring 63 1 == 0 then s.updCopy c.id (fun d => { d with err := 5 })
  else
    let q := s.newBatch c.part [⟨3, va % 2 ^ 57, 0⟩] (s.copyPlace c) c.lid c.ticket
    q.1.updCopy c.id (fun d => { d with batch := some q.2, state := 4 })

/-- Notes on a copy what stopped it. -/
def State.copyStop {α : Type} (x : State × Out α) (c : Copy) : State :=
  match x with
  | (s, .ok _) => s
  | (s, .hold) => s.updCopy c.id (fun d => { d with state := if d.started then 2 else 1 })
  | (s, .full) => s.updCopy c.id (fun d => { d with state := 3 })
  | (s, .page va) => s.copyPage c va
  | (s, .err n) => s.updCopy c.id (fun d => { d with err := n })

/-! ### The engines (rules R346, R349, R356, R357) -/

/-- Reads the records of a copy that no instruction issued, with the checks of steps 4 to 6; as such a copy issues (`early`), pages that it does
not need for them may be missing still. -/
def State.resolveCopy (s : State) (c : Copy) (early : Bool := false) : State × Out Copy :=
  let a : CpyArgs := { kind := c.kind, src := c.src, dst := c.dst, done := c.done, gidx := w64 c.gidx }
  let T := if c.queue.isSome then none else s.teams.find c.tid
  match a.fields (T.map (fun T => T.lsz)) with
  | some (.protect _) => (s, .err 5)
  | some _ => (s, .err 6)
  | none =>
    if s.pagesHeld (some c.core) c.part a.pages then (s, .hold)
    else match (match s.pagesFail (some c.core) c.part (a.pages.take 2) with
      | (s, none) => s.pagesFail (some c.core) c.part (a.pages.drop 2) early
      | x => x) with
    | (s, some (.page _ va)) => (s, .page va)
    | (s, some _) => (s, .err 5)
    | (s, none) =>
      match s.recordAt c.core c.queue.isSome c.part (recVa c.src) with
      | (s, none) => (s, .hold)
      | (s, some srec) =>
        match s.recordAt c.core c.queue.isSome c.part (recVa c.dst) with
        | (s, none) => (s, .hold)
        | (s, some drec) =>
          match a.late srec drec T with
          | some _ => (s, .err 6)
          | none =>
            let f := s.fresh
            let q := f.2.makeCopy c f.1 srec drec
            if q.1.slicesFree q.2.slices then (q.1, .ok q.2) else (q.1, .hold)

/-- The write-back of the pair's dirty bytes in a copy's source extent, as it issues (rule R331). -/
def State.sourceHome (s : State) (c : Copy) : State :=
  let q := s.destLines c.core c.part c.srcL (fun _ => true)
  q.2.foldl (fun s l => if s.owned l.1 || s.barred c.part c.core l.1 then s else (s.comeHome c.core l.1).1) q.1

/-- The issue of a copy that no instruction issued (rules R331, R360, R373): where its records can be read, with its lines and its source's
bytes home; one that a check refuses ends with its error; one whose records have no page yet obtains its lines when it starts; none while a
line may not be read or a slice has no room. -/
def State.issueCopy (s : State) (c : Copy) : State × Option Copy :=
  match s.resolveCopy c true with
  | (s, .ok d) => (s.sourceHome d, some d)
  | (s, .err x) => (s, some { c with err := x })
  | (s, .page _) => (s, some c)
  | (s, _) => (s, none)

/-- Reads the index list of a gather as it starts (rule R354). -/
def State.readIndices (s : State) (c : Copy) : State × Out (List Nat) :=
  if c.kind != 3 then (s, .ok [])
  else
    let n := c.dstL.ext.getD (c.dstL.rank - 1) 0
    andThen (s.copyRead c { c.srcL with ls := true } (runAt ((c.gidx : Nat) : Int) (4 * n))) (fun s b =>
      let x := b.map (fun y => y.1)
      (s, .ok ((List.range n).map (fun i => numOf ((x.drop (4 * i)).take 4)))))

/-- The head of an engine's queue, unless it waits for a page. -/
def State.engHead (s : State) (core eng : Nat) : Option Copy := ((s.core core).eng eng).head?.filter (fun c => c.batch.isNone)

/-- COPY_START (rule R349). -/
def copyStart (core eng : Nat) (s : State) : State :=
  match s.engHead core eng with
  | none => s
  | some c =>
    if c.started || c.err != 0 then s
    else if c.cancel then s.updCopy c.id (fun d => { d with err := 8 })
    else if c.refused then s.updCopy c.id (fun d => { d with err := 5 })
    else if !c.resolved then
      match s.resolveCopy c with
      | (s, .ok d) => (s.ownHome core (d.owned.map (fun x => x.1))).updCopy c.id (fun _ => d)
      | x => State.copyStop x c
    else
      match s.readIndices c with
      | (s, .ok ix) => s.updCopy c.id (fun d => { d with started := true, state := 2, indices := ix })
      | x => State.copyStop x c
def execCopyStart (core eng : Nat) (s : State) : Res := .next (copyStart core eng s)

/-- The addition that waits for a chunk's writes (rule R346), once they are home. -/
def State.settle (s : State) (c : Copy) : State :=
  match ((s.core c.core).eng0 ++ (s.core c.core).eng1).find? (fun d => d.id == c.id) with
  | some d => match d.pend with
    | some n =>
      if !(s.copyAcked d) then s
      else match s.copyAdd d n with
        | (s, .ok _) => s.updCopy c.id (fun d => { d with pend := none })
        | (s, .page va) => s.copyPage d va
        | (s, _) => s
    | none => s
  | none => s

/-- COPY_CHUNK (rules R346, R394). -/
def copyChunk (core eng : Nat) (s : State) : State :=
  match s.engHead core eng with
  | none => s
  | some c =>
    if !c.started || c.err != 0 then s
    else if c.pend.isSome then if c.refused then s.updCopy c.id (fun d => { d with err := 5 }) else s.settle c
    else if c.finished then s
    else if c.cancel then s.updCopy c.id (fun d => { d with err := 8 })
    else if c.refused then s.updCopy c.id (fun d => { d with err := 5 })
    else if fld (s.part c.part).pbud0 48 16 != 0 && decide ((s.part c.part).copyLeft ≤ 0) then s.updCopy c.id (fun d => { d with state := 5 })
    else match s.writeChunk c with
      | (s, .ok _) => s.settle c
      | x => State.copyStop x c
def execCopyChunk (core eng : Nat) (s : State) : Res := .next (copyChunk core eng s)

/-- A copy's addition of 1 to a 64-bit counter at its home (rules R303, R346): ERR 5 where it may not be reached; a poisoned counter is left,
with its record; one of another package is added to there, by a transaction. -/
def State.addCounter (s : State) (c : Copy) (va : Nat) : State × Out Unit :=
  if s.walkHeld (some c.core) c.part va then (s, .hold)
  else match s.translate (some c.core) c.part va with
  | (s, none) => (s, .page va)
  | (s, some e) =>
    let pa := e.pa va
    let place := s.copyPlace c
    if !e.rd || !e.wr || !s.regionOk pa then (s, .err 5)
    else if regionOf pa == 1 then
      match s.sendXact c.core (pa / 2 ^ 40 % 1024) 0 (.atomic (pa % 2 ^ 40) 0 true 1 0 false) c.slot c.id 0 0 with
      | some q => (q.1, .ok ())
      | none => (s, .hold)
    else match s.copyReady c (pa / 128) with
      | (s, false) => (s, .hold)
      | (s, true) =>
        let q := s.homeRead pa 8
        if q.1.poisoned pa 8 then (q.1.readPoison c.part place pa 8, .ok ())
        else
          let b := bytesOf ((numOf q.2 + 1) % 2 ^ 64) 8
          let s := q.1.homeWrite c.part place (cellsAt pa b) []
          let s := match s.migDup (migOf e.mig e.frame pa) with
            | some n => s.homeWrite c.part place (cellsAt (n + pa % 128) b) []
            | none => s
          (s, .ok ())

/-- The completion action of a copy (rules R184, R346, R363). -/
def State.copyAction (s : State) (c : Copy) : State × Out Unit :=
  match doneKind c.done with
  | 1 => s.addCounter c (doneTgt c.done)
  | 3 => s.engineAct c (.signal (doneTgt c.done) c.epoch)
  | _ => (s, .ok ())

/-- COPY_COMPLETE (rules R346, R349). -/
def copyComplete (core eng : Nat) (s : State) : State :=
  match s.engHead core eng with
  | none => s
  | some c =>
    if !c.started || c.err != 0 || c.pend.isSome || !c.finished || !(s.copyAcked c) then s
    else if c.refused then s.updCopy c.id (fun d => { d with err := 5 })
    else
      let s := s.updCopy c.id (fun d => { d with owned := [], slices := [] })
      if s.endHeld c then s
      else match s.copyAction { c with owned := [] } with
        | (s, .ok _) => s.endCopy core eng { c with state := 6 }
        | x => State.copyStop x c
def execCopyComplete (core eng : Nat) (s : State) : Res := .next (copyComplete core eng s)

/-- COPY_ERROR (rule R357). -/
def copyError (core eng : Nat) (s : State) : State :=
  match s.engHead core eng with
  | none => s
  | some c =>
    if c.err = 0 then s
    else
      let s := s.updCopy c.id (fun d => { d with owned := [], slices := [] })
      if s.endHeld c then s
      else
        let s := s.endCopy core eng { c with state := 7 }
        if c.err = 8 || c.queue.isSome then s else s.checksum c
def execCopyError (core eng : Nat) (s : State) : Res := .next (copyError core eng s)

/-- COPY_RECALL (rule R331): a recalled line whose bytes its copy has written is passed on. -/
def execCopyRecall (core line : Nat) (s : State) : Res := .next (((s.passLine line).drainBacks core).retryHeld)

/-! ### The static schedule (rules R360, R361) -/

/-- A mutable part with its BASE moved for a repeat (rule R360). -/
def movedPart (m : List W64) (d : Int) : List W64 :=
  let w := wordAt m 0
  let b := if partLs m then wrapInt ((partBase m : Int) + d) 19 else wrapInt ((partBase m : Int) + d) 57
  setFld w 0 57 b :: m.drop 1

/-- The copy of repeat `j` of an entry. -/
def State.repeatCopy (s : State) (T : Team) (e : List W64) (j : Nat) : Copy :=
  let step (r t : Nat) : Int := (j : Nat) * (wordAt e r).toInt + (T.index : Nat) * (wordAt e t).toInt
  { id := s.nextId, ticket := ticketOf (T.ticket + 1), tid := T.tid, lid := T.lid, part := T.part, core := T.core, slot := 0, gid := 0, split := 0,
    kind := fld (wordAt e 1) 0 2, src := movedPart ((e.drop 3).take 4) (step 7 8), dst := movedPart ((e.drop 9).take 4) (step 13 14),
    srec := [], drec := [], done := wordAt e 2, gidx := fld (wordAt e 15) 0 19, epoch := T.epochAt (wordAt e 2), scheduled := true
    pin := fld (wordAt e 1) 4 2 }

/-- SCHEDULE_REPEAT_ISSUE: the team's first released repeat, once its queue has room and the barrier object that it names is there. -/
def scheduleIssue (tid : Nat) (s : State) : State :=
  match s.teams.find tid with
  | none => s
  | some T =>
    match T.relq with
    | [] => s
    | (v, n) :: rest =>
      let e := (s.schedOf T.lid).getD n []
      let w := if doneKind (wordAt e 2) = 3 then s.lsEnsure tid (doneTgt (wordAt e 2)) 16 false else (s, .done)
      let s := w.1
      let c := s.repeatCopy ((s.teams.find tid).getD T) e ((v - entryStage e) / Nat.max 1 (entryPeriod e))
      let k := s.core T.core
      if T.state != .resident || w.2 == .waits || decide (32 ≤ (k.eng (k.pickEngine c.pin)).length) then s
      else
        match s.issueCopy c with
        | (s, some d) => ({ s with nextId := s.nextId + 1 }.updTeam tid (fun T => { T with ticket := T.ticket + 1, relq := rest })).pushCopy d
        | (s, none) => s
def execScheduleRepeatIssue (tid : Nat) (s : State) : Res := .next (scheduleIssue tid s)

/-! ### Page migration (rules R282, R337) -/

/-- MIGRATION_LINE_COPY: the line of `va` is copied to its new frame, unless it has been, and its bit is set. -/
def migrateLine (part : Nat) (va : W64) (s : State) : State :=
  let a := va.toNat % 2 ^ 57
  match matchAt s.mem (s.part part).ttb part a with
  | none => s
  | some e =>
    let old := e.pa a / 128
    match migOf e.mig e.frame (128 * old) with
    | none => s
    | some (new, bit) =>
      let done := (memGet s.mem (bit / 8)).getLsbD (bit % 8)
      let wait := fld (s.part part).pbud0 0 16 != 0 && decide ((s.part part).migLeft ≤ 0)
      if done || wait || s.owned old || s.owned (new / 128) || s.owned (bit / 1024) || !(s.regionOk new) then s
      else
        let q := (s.ownHome 0 [old, new / 128]).homeRead (128 * old) 128
        let bad := ((List.range 4).filter (fun j => q.1.poison.contains (4 * old + j))).map (fun j => new / 32 + j)
        let s := q.1.homeWrite part 0 (cellsAt new q.2) bad
        let b := memGet s.mem (bit / 8) ||| BitVec.ofNat 8 (2 ^ (bit % 8))
        (s.homeWrite part 0 [(bit / 8, b)] []).updPart part (fun P => { P with migLeft := P.migLeft - 1 })
def execMigrationLineCopy (part : Nat) (va : W64) (s : State) : Res := .next (migrateLine part va s)

end Sys2Proof.Machine
end

