-- ==== Sys2Proof/Machine/Launch.lean ====
section
/-! DEFINITION. Launch records, their acceptance and completion, and the instructions of row 0xC_ (rules R365 to R370, R386 to R393). -/

namespace Sys2Proof.Machine

/-! ### The launch record (rule R365) -/

def recW (r : List W64) : Nat := 16 * 2 ^ fld (wordAt r 1) 23 2
def recEntry (r : List W64) : W64 := w64 (fld (wordAt r 0) 0 57)
def recTeams (r : List W64) : Nat := fld (wordAt r 1) 32 32
def recPrio (r : List W64) : Nat := fld (wordAt r 1) 27 5
def recGang (r : List W64) : Bool := fld (wordAt r 1) 26 1 == 1
def recPair (r : List W64) : Bool := fld (wordAt r 1) 25 1 == 1
def recLanes (r : List W64) : Nat := fld (wordAt r 1) 13 10 + 1
def recGroups (r : List W64) : Nat := recLanes r / recW r
def recResv (r : List W64) : Nat := fld (wordAt r 1) 0 8
def recNarg (r : List W64) : Nat := fld (wordAt r 2) 44 8
def recGwait (r : List W64) : Nat := fld (wordAt r 2) 24 20
def recLsz (r : List W64) : Nat := fld (wordAt r 2) 0 20
def recArgs (r : List W64) : Nat := fld (wordAt r 3) 0 57
def recSpill (r : List W64) : Nat := fld (wordAt r 4) 7 50
def recConst (r : List W64) : Nat := fld (wordAt r 5) 0 57
def recNconst (r : List W64) : Nat := fld (wordAt r 6) 32 8
def recNsched (r : List W64) : Nat := fld (wordAt r 6) 16 8
def recSched (r : List W64) : Nat := fld (wordAt r 7) 0 57
def recStatus (r : List W64) : Nat := fld (wordAt r 10) 0 57
def recDone (r : List W64) : W64 := wordAt r 11
def recSafe (r : List W64) : Nat := fld (wordAt r 12) 0 57
def recNsafe (r : List W64) : Nat := fld (wordAt r 13) 0 15

/-- The register-array entries: length, bit 7, first register. -/
def recArrays (r : List W64) : List (Nat × Nat × Nat) :=
  (List.range 8).map (fun i =>
    let e := fld (wordAt r (8 + i / 4)) (16 * (i % 4)) 16
    (e / 256, e / 128 % 2, e % 128))

/-- Granules of a group's reserve (rule R23). -/
def recReserve (r : List W64) : Nat := recResv r * (recW r / 16)

/-- Groups of a team on the even or only core, and on the odd core (rule R147). -/
def evenGroups (pair : Bool) (g : Nat) : Nat := if pair then (g + 1) / 2 else g

/-! ### Room (rules R148, R151) -/

/-- The live cores of a partition. -/
def State.partCores (s : State) (p : Nat) : List Nat :=
  (List.range Config.coresPerPackage).filter (fun c => s.partOf c == p && (s.core c).power == .live)

/-- The cores, or the even cores of whole pairs, on which a partition's teams may be placed. -/
def State.partPlaces (s : State) (p : Nat) (pair : Bool) : List Nat :=
  let cs := s.partCores p
  if pair then cs.filter (fun c => c % 2 == 0 && cs.contains (c + 1)) else cs

/-- Bytes of a core's local store (rule R261). -/
def lsTotal : Nat := 524288

/-- Teams that an empty core, or core pair, holds. -/
def emptyRoom (r : List W64) : Nat :=
  let g := recGroups r
  let n := evenGroups (recPair r) g
  Nat.min (Nat.min (Config.groupSlots / Nat.max n 1) (Config.poolGranules / Nat.max 1 (n * recReserve r)))
    (if recLsz r = 0 then Config.groupSlots else lsTotal / recLsz r)

/-! ### The checks of rule R367 -/

/-- The tables of a record as the Caravan read them; none where one could not be read. -/
structure Tables where
  args : Option (List W64) := some []
  consts : Option (List (W64 × W64)) := some []
  sched : Option (List (List W64)) := some []
  safe : Option (List (BitVec 128)) := some []

/-- Words in consecutive runs of `k`. -/
def chunksOf (k n : Nat) (ws : List W64) : List (List W64) := (List.range n).map (fun i => (ws.drop (k * i)).take k)

/-- Reads a record's tables (rule R366). -/
def State.readTables (s : State) (part : Nat) (r : List W64) : State × Tables :=
  let a := s.readWords part (recArgs r) (recNarg r)
  let c := a.1.readWords part (recConst r) (2 * recNconst r)
  let e := c.1.readWords part (recSched r) (16 * recNsched r)
  let f := e.1.readWords part (recSafe r) (2 * recNsafe r)
  let pairOf' (x : List W64) : W64 × W64 := (wordAt x 0, wordAt x 1)
  (f.1, { args := a.2, consts := c.2.map (fun ws => (chunksOf 2 (recNconst r) ws).map pairOf')
          sched := e.2.map (fun ws => chunksOf 16 (recNsched r) ws)
          safe := f.2.map (fun ws => (chunksOf 2 (recNsafe r) ws).map (fun x => BitVec.ofNat 128 ((wordAt x 0).toNat + at_ (wordAt x 1).toNat 64))) })

/-- Check 1 on the record's own words. -/
def recReserved (r : List W64) : Bool :=
  [0, 3, 4, 5, 7, 10, 12].any (fun i => fld (wordAt r i) 57 7 != 0) || fld (wordAt r 1) 8 5 != 0 || fld (wordAt r 2) 52 12 != 0
    || fld (wordAt r 2) 20 4 != 0 || fld (wordAt r 4) 0 7 != 0 || fld (wordAt r 6) 40 24 != 0 || fld (wordAt r 6) 24 8 != 0
    || fld (wordAt r 6) 0 16 != 0 || fld (wordAt r 13) 15 49 != 0 || wordAt r 14 != 0 || wordAt r 15 != 0
    || fld (wordAt r 1) 23 2 == 3 || decide (23 < recPrio r)

/-- Check 5 on the record's own words: the counts and the alignments. -/
def recCounts (r : List W64) : Bool :=
  decide (64 < recNarg r) || decide (64 < recNconst r) || decide (64 < recNsched r) || decide (16384 < recNsafe r)
    || fld (wordAt r 0) 0 3 != 0 || recArgs r % 8 != 0 || recConst r % 16 != 0
    || recSched r % 128 != 0 || recSafe r % 16 != 0 || recStatus r % 16 != 0

/-- Check 6: rule R30 over the register arrays. -/
def arraysBad (es : List (Nat × Nat × Nat)) : Bool :=
  let used := es.filter (fun e => e.1 != 0)
  es.any (fun e => e.2.1 != 0) || used.any (fun e => decide (128 < e.1) || decide (128 < e.2.2 + e.1))
    || (used.zipIdx.any (fun a => used.zipIdx.any (fun b => decide (a.2 < b.2) && overlap a.1.2.2 a.1.1 b.1.2.2 b.1.1)))

/-- Check 7: DONE. -/
def recDoneBad (d : W64) : Bool := decide (2 ≤ doneKind d) || doneBad d || doneTgt d % 8 != 0

/-- Check 8: the fields of a schedule entry that need no translation and no record (rule R360). -/
def schedBad (lsz : Nat) (e : List W64) : Bool :=
  let k := fld (wordAt e 1) 0 2
  let a : CpyArgs := { kind := k, src := (e.drop 3).take 4, dst := (e.drop 9).take 4, done := wordAt e 2, gidx := wordAt e 15 }
  fld (wordAt e 0) 48 16 != 0 || entryCount e == 0 || entryPeriod e == 0 || fld (wordAt e 1) 6 58 != 0 || fld (wordAt e 1) 2 2 != 0
    || fld (wordAt e 1) 4 2 == 3 || (k != 3 && wordAt e 15 != 0) || (a.fields (some lsz)).isSome

/-- The number of the first check that fails, 0 for none (rule R367). -/
def State.recCheck (s : State) (part : Nat) (r : List W64) (t : Tables) : Nat :=
  let cs := t.consts.getD []
  let room := emptyRoom r
  let places := (s.partPlaces part (recPair r)).length
  let checks : List (Nat × Bool) :=
    [(1, recReserved r || cs.any (fun c => fld c.1 57 7 != 0 || fld c.2 17 47 != 0)),
     (2, recTeams r == 0 || recLanes r % recW r != 0),
     (3, decide (recResv r < 16) || decide (128 < recResv r)),
     (4, recLsz r % 128 != 0 || decide (lsTotal < recLsz r)),
     (5, recCounts r || cs.any (fun c => c.1.toNat % 128 != 0 || c.2 == 0 || decide (65536 < c.2.toNat))),
     (6, arraysBad (recArrays r)),
     (7, recDoneBad (recDone r)),
     (8, (t.sched.getD []).any (schedBad (recLsz r))),
     (9, room == 0 || places == 0),
     (10, recGang r && decide (room * places < recTeams r)),
     (11, t.args.isNone || t.consts.isNone || t.sched.isNone || t.safe.isNone)]
  (checks.find? (fun c => c.2)).elim 0 (fun c => c.1)

/-! ### LAUNCH (rule R390) -/

/-- Launches of the package that are accepted or about to be, and not complete. -/
def State.openLaunches (s : State) : Nat := (s.launches.filter (fun e => !e.2.complete)).length + s.submits.length

/-- Hands a record's address to the Caravan with the partition's next sequence number (rules R366, R390). -/
def State.submit (s : State) (part : Nat) (o : Origin) (va : Nat) : State × Nat :=
  let seq := ((s.part part).seq + 1) % 2 ^ 32
  let sub : Submit := { sid := s.nextId, part := part, origin := o, addr := va, seq := seq }
  ({ s with nextId := s.nextId + 1, submits := s.submits ++ [sub] }.updPart part (fun P => { P with seq := seq }), seq)

/-- LAUNCH. -/
def launchBody (f : FmtR) (s : State) : State :=
  s.begin (.launch f) false (fun s X G p =>
    let m := activeLanes G p f.ge f.gn f.g
    let P := ({} : Plan).guard f.ge f.gn f.g
    let P := { P with rk := [f.a.toNat], wk := [f.d.toNat] }
    let va := (G.uni f.a.toNat).toNat
    s.memIssue X G P f.y (fun s =>
        if m == 0 then (s, some ())
        else if va % 128 != 0 then (s.raise X 6 0 (addrInfo va), none)
        else if decide (2 ^ 57 ≤ va) then (s.raise X 7 0 (addrInfo va), none)
        else if s.walkHeld (some X.core) G.part va then (s.stall X 14, none)
        else match s.translate (some X.core) G.part va with
          | (s, none) => (s.pageFault X 0 va 0, none)
          | (s, some e) =>
            if !e.rd || !s.regionOk (e.pa va) then (s.raise X 7 0 (addrInfo va), none)
            else if decide (1024 ≤ s.openLaunches) then (s.stall X 14, none)
            else match s.ordered X G 2 4 14 with
              | (s, false) => (s, none)
              | (s, true) => (s, some ())) (fun _ => 0) (fun s _ =>
      if m == 0 then (s, infNone)
      else
        let q := s.submit G.part (.word X.core X.slot G.nextIid) va
        (q.1, { infNone with kind := .launch, writes := [{ sp := .uni, num := f.d.toNat, word := w64 q.2 }] })))
def execLaunch (f : FmtR) (s : State) : Res := .next (launchBody f s)

/-- Completes an instruction in flight of a kind, with its writes. -/
def State.finish (s : State) (c g iid : Nat) (kind : IKind) : State :=
  match (s.group c g).bind (fun G => G.infl.find? (fun i => i.id == iid && i.kind == kind)) with
  | some i => s.complete c g iid i.writes
  | none => s

/-- The LAUNCH instruction of an origin completes. -/
def State.launched (s : State) (o : Origin) : State :=
  match o with
  | .word c g iid => s.finish c g iid .launch
  | _ => s

/-- A record that cannot be read is dropped with its machine-check record; a packet completes, and a graph ends (rule R367). -/
def State.dropRecord (s : State) (b : Submit) : State :=
  let s := s.mcRecord 8 b.part b.addr 0 0
  match b.origin with
  | .word .. => s.launched b.origin
  | .packet q rid _ => s.packetDone q rid
  | .graph g => { s with graphs := s.graphs.mapV (fun x => if x.gid == g then { x with code := 3, lid := none } else x) }

/-! ### The scope table (rules R432, R433) -/

/-- The fixed rows of the scope table: INST, then RELT, RELM, ACQT, ACQM, ATOMT, ATOMM, PROMT, PROMM, SENDT, SENDM. -/
def scopeRow (i : Nat) : List Nat :=
  match i with
  | 0 => [12288, 1, 4, 1, 4, 120, 300, 0, 0, 30, 60]
  | 1 => [192, 5, 20, 2, 10, 120, 300, 0, 0, 30, 60]
  | 2 => [96, 10, 40, 4, 15, 120, 300, 0, 0, 40, 80]
  | 3 => [2, 40, 1700, 10, 30, 120, 300, 300, 1900, 90, 200]
  | 4 => [1, 60, 1750, 10, 30, 160, 380, 340, 1950, 130, 260]
  | _ => []

/-- Word `w` of entry `i`: levels 5 and 6 hold what firmware measured at the last reset. -/
def State.scopeWord (s : State) (i w : Nat) : W64 :=
  let m (f : Nat) : Nat := (Config.measuredCost s.resets i f).toNat
  let row := if i < 5 then scopeRow i
    else if i = 5 then [Config.podPackages.toNat, m 1, m 2, m 3, m 4, m 5, m 6, 0, 0, m 9, m 10]
    else if i = 6 then [1, m 1, m 2, m 3, m 4, m 5, m 6, 0, 0, 0, 0]
    else List.replicate 11 0
  let f (j : Nat) : Nat := row.getD j 0
  match w with
  | 0 => w64 (at_ (f 0) 32)
  | 1 => w64 (at_ (f 1) 48 + at_ (f 2) 32 + at_ (f 3) 16 + f 4)
  | 2 => w64 (at_ (f 5) 48 + at_ (f 6) 32 + at_ (f 7) 16 + f 8)
  | _ => w64 (at_ (f 9) 16 + f 10)

/-- Firmware writes each partition's copy of the scope table (rule R432), which it does before the first launch. -/
def State.writeScopes (s : State) : State :=
  let table := recBytes ((List.range 32).map (fun j => s.scopeWord (j / 4) (j % 4)))
  (List.range 8).foldl (fun s p =>
    let a := Config.scopeAt p
    { s with mem := memSetAll s.mem (cellsAt a table), poison := s.poison.filter (fun g => g / 8 != a / 256) }) { s with scopeDone := true }

/-- Whether acceptance waits for a line that a copy owns (rule R331): of the record's tables, where they are read, or of its status. -/
def State.acceptHeld (s : State) (part : Nat) (r : List W64) (plain : Bool) : Bool :=
  (plain && [(recArgs r, 8 * recNarg r), (recConst r, 16 * recNconst r), (recSched r, 128 * recNsched r), (recSafe r, 16 * recNsafe r)].any
      (fun x => s.pathHeld part x.1 x.2))
    || (recStatus r != 0 && recStatus r % 16 == 0 && s.pathHeld part (recStatus r) 16)

/-- LAUNCH_ACCEPT (rules R366 to R368): the record and its tables are read and checked, and the status record is cleared. The copies of the
scope table stand in memory before the first launch (R432; log entry 99). -/
def launchAccept (sid : Nat) (s : State) : State :=
  match s.submits.find? (fun b => b.sid == sid) with
  | none => s
  | some b =>
    let s := if s.scopeDone then s else s.writeScopes
    if s.pathHeld b.part b.addr 128 then s
    else match s.readWords b.part b.addr 16 with
    | (s, none) => ({ s with submits := s.submits.filter (fun x => x.sid != sid) } : State).dropRecord b
    | (s, some r) =>
      let plain := !recReserved r && !recCounts r
      if s.acceptHeld b.part r plain then s
      else
      let s := { s with submits := s.submits.filter (fun x => x.sid != sid) }
      let q := if plain then s.readTables b.part r else (s, {})
      let n := q.1.recCheck b.part r q.2
      let s := if n = 11 then q.1.mcRecord 8 b.part b.addr 0 0 else q.1
      let lid := s.nextId
      let L : Launch := { lid := lid, seq := b.seq, part := b.part, origin := b.origin, record := r, args := q.2.args.getD []
                          consts := q.2.consts.getD [], safe := q.2.safe.getD [], sched := q.2.sched.getD []
                          closed := n != 0, code := if n = 0 then 0 else 3, detail := n }
      let s := { s with nextId := s.nextId + 1, launches := s.launches.set lid L }
      let s := match b.origin with
        | .graph g => { s with graphs := s.graphs.mapV (fun x => if x.gid == g then { x with lid := some lid } else x) }
        | o => s.launched o
      if recStatus r = 0 || recStatus r % 16 != 0 then s
      else (s.writeVa b.part (recStatus r) (bytesOf 0 16)).1
def execLaunchAccept (sid : Nat) (s : State) : Res := .next (launchAccept sid s)

/-! ### POST (rule R391) -/

/-- The new result word. -/
def postValue (op : Nat) (r v : W64) : W64 :=
  match op with
  | 0 => v
  | 1 => if r.toNat < v.toNat then v else r
  | 2 => if v.toNat < r.toNat then v else r
  | 3 => r ||| v
  | _ => r + v

/-- POST. -/
def postBody (f : FmtR) (s : State) : State :=
  s.begin (.post f) false (fun s X G p =>
    let m := activeLanes G p f.ge f.gn f.g
    let P := ({} : Plan).guard f.ge f.gn f.g
    let P := { P with rk := [f.a.toNat] }
    if m == 0 then s.compute X G P f.y []
    else s.issueWith X G P f.y { infNone with kind := .post } (fun s =>
      let q : PostMsg := { pid := s.nextId, lid := G.lid, op := f.opx.toNat, v := G.uni f.a.toNat, core := X.core, slot := X.slot, gid := G.gid, iid := G.nextIid }
      { s with nextId := s.nextId + 1, posts := s.posts ++ [q] }))
def execPost (f : FmtR) (s : State) : Res := .next (postBody f s)

/-- POST_APPLY: the Caravan combines one value, after the earlier ones of its group. -/
def postApply (pid : Nat) (s : State) : State :=
  match s.posts.find? (fun q => q.pid == pid) with
  | none => s
  | some q =>
    if s.posts.any (fun r => r.gid == q.gid && decide (r.pid < pid)) then s
    else
      let s := { s with posts := s.posts.filter (fun r => r.pid != pid) }
      let s := s.updLaunch q.lid (fun L => { L with result := postValue q.op L.result q.v })
      match s.group q.core q.slot with
      | some G => if G.gid == q.gid then s.finish q.core q.slot q.iid .post else s
      | none => s
def execPostApply (pid : Nat) (s : State) : Res := .next (postApply pid s)

/-! ### TASKEXIT (rule R393) -/

/-- TASKEXIT. -/
def taskexitBody (f : FmtR) (s : State) : State :=
  s.begin (.taskexit f) false (fun s X G p =>
    let P := ({} : Plan).guard f.ge f.gn f.g
    match s.ready X G P with
    | (s, false) => s
    | (s, true) =>
      let x := activeLanes G p f.ge f.gn f.g
      if x == 0 then s.post X P f.y none infNone 0
      else
        let s := s.updLaunch G.lid (fun L => { L with closed := true })
        (s.updGroup X.core X.slot (fun G => (G.exitLanes X.split x).latchStop)).postControl X P f.y)
def execTaskexit (f : FmtR) (s : State) : Res := .next (taskexitBody f s)

/-! ### CONT (rules R387, R392) -/

/-- Registers that CONT saves. -/
def contNv (f : FmtR) : Nat := if f.opx.getLsbD 0 then 0 else f.ty.toNat + 1

/-- The bytes of a continuation record (rule R387). -/
def contBytes (G : Group) (p : Split) (seq first nv : Nat) (counter target : W64) : List Byte :=
  let ws : List Nat := [(p.pc + 8).toNat, (p.am &&& fullMask G.w).toNat, at_ G.tindex 32 + at_ G.idx 24 + at_ first 8 + nv,
      (G.idxReg 0).toNat + at_ (G.idxReg 1).toNat 32, (G.idxReg 2).toNat + at_ (G.idxReg 3).toNat 32]
    ++ (List.range 8).map (fun i => (G.pred i &&& fullMask G.w).toNat) ++ [counter.toNat, target.toNat, seq]
    ++ (List.range 64).map (fun i => (G.uni i).toNat)
  (ws.map (fun x => bytesOf x 8)).flatten
    ++ ((regRun first nv).map (fun n => ((List.range G.w).map (fun l => bytesOf (G.vlane n l).toNat 4)).flatten)).flatten

/-- The addresses whose pages CONT needs: the record's, written, and the counter's, read. -/
def contPages (va n counter : Nat) : List (Nat × Bool) :=
  ((List.range ((va + n - 1) / 65536 - va / 65536 + 1)).map (fun i => (if i = 0 then va else (va / 65536 + i) * 65536, true))) ++ [(counter, false)]

/-- CONT's PAGE and PROTECT: whether every page is there. -/
def State.contReach (s : State) (X : Ctx) (part : Nat) (ps : List (Nat × Bool)) : State × Bool :=
  let r := ps.foldl (fun (r : State × Option (Nat × Bool) × Option Nat) x =>
    match r.2.1 with
    | some _ => r
    | none => match r.1.translate (some X.core) part x.1 with
      | (s, none) => (s, some x, r.2.2)
      | (s, some e) =>
        let no := decide (2 ^ 57 ≤ x.1) || (if x.2 then !e.wr else !e.rd) || regionOf (e.pa x.1) != 0 || !s.regionOk (e.pa x.1)
        (s, none, if no && r.2.2.isNone then some x.1 else r.2.2)) (s, none, none)
  match r.2 with
  | (some x, _) => (r.1.pageFault X (if x.2 then 1 else 0) x.1 0, false)
  | (none, some va) => (r.1.raise X 7 0 (addrInfo va), false)
  | (none, none) => (r.1, true)

/-- The pair's earlier bytes of the lines of a run go to their homes ahead of what the core writes there (rules R321, R324): false while one is
on its way. -/
def State.contHome (s : State) (X : Ctx) (part va n : Nat) : State × Bool :=
  (List.range ((n + 127) / 128)).foldl (fun r i =>
    match r.1.translate (some X.core) part (va + 128 * i) with
    | (s, none) => (s, r.2)
    | (s, some e) =>
      let line := e.pa (va + 128 * i) / 128
      let q := s.comeHome X.core line
      (q.1, r.2 && q.2 && !(q.1.core X.core).sending line && !(q.1.core (partnerOf X.core)).sending line)) (s, true)

/-- Writes a run of bytes of the current group at its home, line by line. -/
def State.contWrite (s : State) (X : Ctx) (part va : Nat) (b : List Byte) : State :=
  (List.range ((b.length + 127) / 128)).foldl (fun s i =>
    match s.translate (some X.core) part (va + 128 * i) with
    | (s, none) => s
    | (s, some e) =>
      let pa := e.pa (va + 128 * i)
      let cells := cellsAt pa ((b.drop (128 * i)).take 128)
      let mig := match migOf e.mig e.frame pa with | some m => [(pa / 128, m)] | none => []
      (s.writeHome X.core (s.placeOf X.core X.slot) cells [] mig).l1Replace X.core cells) s

/-- CONT. -/
def contBody (f : FmtR) (s : State) : State :=
  s.begin (.cont f) false (fun s X G p =>
    let nv := contNv f
    let P0 : Plan := { rk := [f.a.toNat, f.b.toNat, f.c.toNat] }
    let P := { P0 with rv := regRun f.d.toNat nv, rk := List.range 64, rp := List.range 8, rx := List.range 4 }
    let va := (G.uni f.a.toNat).toNat
    let counter := (G.uni f.b.toNat).toNat
    let target := G.uni f.c.toNat
    let n := 640 + nv * 4 * G.w
    match s.ready X G P0 with
    | (s, false) => s
    | (s, true) =>
      if decide (1 < G.splits.length) || !p.stack.isEmpty then s.raise X 3 0 G.splits.length
      else if va % 128 != 0 then s.raise X 6 0 (addrInfo va)
      else if counter % 8 != 0 then s.raise X 6 0 (addrInfo counter)
      else if decide (2 ^ 57 ≤ va) then s.raise X 7 0 (addrInfo va)
      else if decide (2 ^ 57 ≤ counter) then s.raise X 7 0 (addrInfo counter)
      else if s.pagesHeld (some X.core) G.part ((contPages va n counter).map (fun x => (x.1, !x.2, x.2))) then s.stall X 14
      else match s.contReach X G.part (contPages va n counter) with
        | (s, false) => s
        | (s, true) =>
          if s.pathHeld G.part va n then s.stall X 14
          else match s.contHome X G.part va n with
          | (s, false) => s.stall X 14
          | (s, true) =>
          if decide (4096 ≤ (s.conts.filter (fun e => e.2.part == G.part)).length) then s.stall X 14
          else match s.ready X G P with
            | (s, false) => s
            | (s, true) =>
              match s.dead X G P with
              | (s, false) => s
              | (s, true) =>
                match s.take X P with
                | (s, false) => s
                | (s, true) =>
                  let s := (s.noteDead X G P).contWrite X G.part va (contBytes G p (s.seqOf G.lid) f.d.toNat nv (w64 counter) target)
                  let c : ContRec := { cid := s.nextId, lid := G.lid, part := G.part, va := va, counter := counter, target := target, nv := nv, first := f.d.toNat }
                  let s := { s with nextId := s.nextId + 1, conts := s.conts.set s.nextId c }
                  (s.updGroup X.core X.slot Group.kill).postControl X P f.y)
def execCont (f : FmtR) (s : State) : Res := .next (contBody f s)

/-! ### Completion (rules R368, R369) -/

/-- Whether nothing of a launch is left to run. -/
def State.launchOver (s : State) (L : Launch) : Bool :=
  !L.complete && (L.closed || decide (recTeams L.record ≤ L.next))
    && s.teams.all (fun e => e.2.lid != L.lid || (e.2.state == .ended && e.2.susp.isEmpty))
    && !(s.cores.any (fun e => e.2.slots.any (fun x => x.2.lid == L.lid)))
    && !(s.conts.any (fun e => e.2.lid == L.lid)) && !(s.copies.any (fun c => c.lid == L.lid && c.queue.isNone))
    && !(s.posts.any (fun q => q.lid == L.lid))

/-- Whether no write of a group that has ended is on its way home from a core. -/
def State.coreSettled (s : State) (c : Nat) : Bool :=
  let k := s.core c
  let live (gid : Nat) : Bool := k.slots.any (fun e => e.2.gid == gid)
  let copying (id : Nat) : Bool := (k.eng0 ++ k.eng1).any (fun x => x.id == id)
  k.homeq.all (fun h => (live h.gid && h.also.all (fun x => live x.1)) || copying h.gid) && k.packets.all (fun p => !p.write || p.reqs.all (fun q => live q.gid))


/-- An addition to a counter by the Caravan, at its home (rules R303, R369, R373): false where it cannot be made. -/
def State.caravanAdd (s : State) (part va amount : Nat) : State × Bool :=
  match s.translate none part va with
  | (s, none) => (s, false)
  | (s, some e) =>
    let pa := e.pa va
    if !e.rd || !e.wr || !s.regionOk pa || decide (2 ^ 57 ≤ va) then (s, false)
    else
      let q := s.homeRead pa 8
      if q.1.poisoned pa 8 then (q.1.readPoison part 0 pa 8, false)
      else
        let b := bytesOf ((numOf q.2 + amount) % 2 ^ 64) 8
        let s := q.1.homeWrite part 0 (cellsAt pa b) []
        (match s.migDup (migOf e.mig e.frame pa) with
          | some n => s.homeWrite part 0 (cellsAt (n + pa % 128) b) []
          | none => s, true)

/-- A write or an addition of rule R369 that could not be made leaves a record of KIND 13. -/
def orRecord (part va : Nat) (x : State × Bool) : State := if x.2 then x.1 else x.1.mcRecord 13 part va 0 0

/-- The status word at completion (rule R368). -/
def Launch.statusWord (L : Launch) : W64 :=
  w64 (at_ (if L.code != 0 then L.code else if L.closed then 2 else 1) 56 + at_ L.detail 32 + L.ended)

/-- LAUNCH_COMPLETE (rule R369): the release at `.sys`, then the status record, the DONE counter and the interrupt. -/
def launchComplete (lid : Nat) (s : State) : State :=
  match s.launches.find lid with
  | none => s
  | some L =>
    let st := recStatus L.record
    let status := st != 0 && st % 16 == 0
    let done := recDone L.record
    let counter := !(recDoneBad done) && doneKind done == 1
    if !(s.launchOver L) then s
    else
      let cs := s.partCores L.part
      let s := cs.foldl (fun s c => s.l1Flush c) s
      if cs.any (fun c => !(s.coreSettled c)) || (status && s.pathHeld L.part st 16) || (counter && s.pathHeld L.part (doneTgt done) 8) then s
      else
        let w := L.statusWord
        let s := if status then orRecord L.part st (s.writeVa L.part st (bytesOf w.toNat 8 ++ bytesOf L.result.toNat 8)) else s
        let s := if counter then orRecord L.part (doneTgt done) (s.caravanAdd L.part (doneTgt done) 1) else s
        let s := s.record L.part true (srcNo 3 0 0) 0x42 L.seq w L.result
        let s := { s with launches := s.launches.set lid { L with complete := true, code := fld w 56 8 }
                          teams := s.teams.filter (fun e => e.2.lid != lid) }
        match L.origin with
        | .packet q rid _ => s.packetDone q rid
        | .graph g => { s with graphs := s.graphs.mapV (fun x => if x.gid == g then { x with code := fld w 56 8 } else x) }
        | .word .. => s
def execLaunchComplete (lid : Nat) (s : State) : Res := .next (launchComplete lid s)

end Sys2Proof.Machine
end

