-- ==== Sys2Proof/Machine/Teams.lean ====
section
/-! DEFINITION. The distributor: the end of groups and teams, room on cores, admission, gangs, pre-emption requests, continuations and
budgets (rules R138, R147 to R152, R377 to R383, R388, R394). -/

namespace Sys2Proof.Machine

/-! ### The end of a group and of a team (rules R138, R188, R224, R363) -/

/-- A record of a team (rule R457). -/
def State.teamRecord (s : State) (T : Team) (kind place : Nat) : State :=
  s.record T.part true (srcNo 3 0 0) kind (s.seqOf T.lid) (w64 T.index) (w64 (place % 2 ^ 24))

/-- Whether a copy has an operand in its team's local store (rule R363). -/
def Copy.usesLs (c : Copy) : Bool := c.queue.isNone && (partLs c.src || partLs c.dst || c.kind == 3)

/-- A group's slot leaves it: every register of the slot changes generation. -/
def Core.vacate (k : Core) (g : Nat) : Core :=
  let k := (List.range 128).foldl (fun (k : Core) n => k.bumpGen g n) k
  { k with slots := k.slots.erase g
           islots := k.islots.mapV (fun i => if (i.cur.map (fun x => x.1)) == some g then { i with cur := none } else i) }

/-- Takes a team off the allocation requests of its cores (rule R224). -/
def State.dropRequest (s : State) (T : Team) : State :=
  T.cores.foldl (fun s c => s.updCore c (fun k => { k with allocs := k.allocs.filter (fun r => r.tid != T.tid) })) s

/-- Queues a suspended copy again on a core (rule R363). -/
def State.requeue (s : State) (tid c : Nat) (x : Copy) : State :=
  let x := { x with core := c, state := 1, batch := none, hdr := [] }
  let e := (s.core c).pickEngine x.pin
  s.updCore c (fun k => k.setEng e (k.eng e ++ [x]))
    |>.updTeam tid (fun T => { T with susp := T.susp.filter (fun y => y.id != x.id) })

/-- Removes every stash window of a team; its M lines are written back. -/
def State.unmapAll (s : State) (tid : Nat) : State :=
  match s.teams.find tid with
  | none => s
  | some T => (T.wins.map (fun e => e.1)).foldl (fun s w => s.unmapWin tid w) s

/-- The end of a team whose last group has ended: copies into its region are cancelled, those among them that a save had suspended too, and
its rows released; the region goes at once unless copies still use it. -/
def State.teamEnd (s : State) (tid place : Nat) : State :=
  match s.teams.find tid with
  | none => s
  | some T =>
    let s := T.susp.foldl (fun s x => s.requeue tid T.core x) s
    let stop (c : Copy) : Copy := if c.tid == tid && c.queue.isNone && partLs c.dst then { c with cancel := true } else c
    let cores := s.cores.mapV (fun k => { k with eng0 := k.eng0.map stop, eng1 := k.eng1.map stop })
    let s := { s with cores := cores }.dropRequest T
    let s := if s.copies.any (fun c => c.tid == tid && c.usesLs) then s else s.unmapAll tid
    let s := s.updTeam tid (fun T => { T with state := .ended, base := 0, limit := 0, req := none, relq := [], held := [] })
    let s := (s.dropSlots T).updPart T.part (fun P => { P with outstanding := P.outstanding.filter (fun t => t != tid) })
    let s := if T.cont.isSome then s else s.updLaunch T.lid (fun L => { L with ended := L.ended + 1 })
    s.teamRecord T 0x34 place

/-- Whether every instruction and every write of a group has reached its home (rule R138). -/
def Core.groupQuiet (k : Core) (G : Group) : Bool :=
  G.infl.isEmpty && !(k.homeq.any (fun h => h.carries G.gid)) && !(k.packets.any (fun p => p.write && p.reqs.any (fun r => r.gid == G.gid)))

/-- GROUP_END (rules R138, R152, R188): once every instruction and write of the group is complete, its slot and reserve return to the core. -/
def groupEnd (core slot : Nat) (s : State) : State :=
  match s.group core slot with
  | none => s
  | some G =>
    if !G.ending || !((s.core core).groupQuiet G) then s
    else
      let s := G.arms.foldl (fun s a => if capPlace a.2.cap == s.placeOf core slot then s else s.bumpCap a.2.cap) s
      let s := s.updCore core (fun k => k.vacate slot)
      let s := s.updTeam G.tid (fun T => { T with live := T.live.filter (fun i => i != G.idx) })
      match s.teams.find G.tid with
      | some T => if T.live.isEmpty && T.state != .ended then s.teamEnd G.tid (s.placeOf core slot) else s
      | none => s
def execGroupEnd (core slot : Nat) (s : State) : Res := .next (groupEnd core slot s)

/-! ### Room (rules R148, R149, R196, R222, R263) -/

/-- Whether a capability that names a slot is live in the group that left it (rule R196). -/
def State.forwarding (s : State) (c g : Nat) : Bool :=
  match (s.core c).fwd.find g with
  | none => false
  | some f =>
    let G : Option Group := match f.newPlace with
      | some (d, h) => (s.group d h).filter (fun (G : Group) => G.gid == f.gid)
      | none => (s.savedGroup f.gid).map (fun (x : Nat × Group) => x.2)
    match G with
    | some G => !G.ending && G.arms.any (fun a => capPlace a.2.cap == s.placeOf c g)
    | none => false

/-- The slots of a core that a group may be given. -/
def State.freeSlots (s : State) (c : Nat) : List Nat :=
  (List.range Config.groupSlots).filter (fun g => (s.group c g).isNone && !s.forwarding c g)

/-- Reserves of a core's resident groups, in granules (rule R23). -/
def Core.reserved (k : Core) : Nat := (k.slots.map (fun e => e.2.resv)).sum

/-- The spans of a core's local store that teams hold. -/
def State.lsSpans (s : State) (c : Nat) : List (Nat × Nat) :=
  (s.teams.filter (fun e => e.2.core == c && e.2.lsz != 0 && (e.2.state == .resident || e.2.state == .saving
    || (e.2.state == .ended && s.copies.any (fun x => x.tid == e.1 && x.usesLs))))).map (fun e => (e.2.lsBase, e.2.lsz))

/-- The lowest free span of `n` bytes of a core's local store. -/
def State.findLs (s : State) (c n : Nat) : Option Nat :=
  if n = 0 then some 0
  else
    let sp := s.lsSpans c
    let ok (b : Nat) : Bool := decide (b + n ≤ lsTotal) && !(sp.any (fun x => overlap b n x.1 x.2))
    ((0 :: sp.map (fun x => x.1 + x.2)).filter ok).foldl (fun (b : Option Nat) x => match b with
      | none => some x
      | some y => some (Nat.min x y)) none

/-- What a team needs of its core or pair: groups on the even or only core and on the odd one, width, reserve and local store, and the rows
of a window. -/
structure Need where
  tid : Nat
  pair : Bool
  even : Nat
  odd : Nat
  w : Nat
  resv : Nat
  lsz : Nat
  rows : Nat
  deriving DecidableEq, Repr

/-- A team that stands at a core, for the search of rule R224. -/
def Need.at (z : Need) (c : Nat) : Team :=
  { tid := z.tid, lid := 0, index := 0, part := 0, core := c, pair := z.pair, groups := z.even + z.odd, w := z.w, prio := 0, gang := false }

/-- The rows that a window would take at a core; none while none are free or a request waits there. -/
def State.rowsAt (s : State) (z : Need) (c : Nat) : Option Nat :=
  if z.rows = 0 then some 0
  else if (z.at c).cores.any (fun d => !(s.core d).allocs.isEmpty) then none
  else s.findRows (z.at c) z.rows

/-- Whether a core, or the pair whose even core it is, admits a team (rule R148). -/
def State.fitsAt (s : State) (z : Need) (c : Nat) : Bool :=
  let room (d k : Nat) : Bool :=
    decide (k ≤ (s.freeSlots d).length) && decide ((s.core d).reserved + k * z.resv ≤ Config.poolGranules)
  room c z.even && (z.odd == 0 || room (c + 1) z.odd) && (s.findLs c z.lsz).isSome && (s.rowsAt z c).isSome

/-- Resident groups of a core, or of the busier core of a pair (rule R380). -/
def State.busyAt (s : State) (pair : Bool) (c : Nat) : Nat :=
  if pair then Nat.max (s.core c).slots.length (s.core (c + 1)).slots.length else (s.core c).slots.length

/-- The core or pair that takes a team, outside those that drain for another gang (rule R380). -/
def State.pickPlace (s : State) (part lid : Nat) (z : Need) : Option Nat :=
  let away := ((s.launches.filter (fun e => e.1 != lid)).map (fun e => e.2.draining)).flatten
  ((s.partPlaces part z.pair).filter (fun c => !away.contains c && !(z.pair && away.contains (c + 1)) && s.fitsAt z c)).foldl
    (fun (b : Option Nat) c => match b with
      | none => some c
      | some d => if s.busyAt z.pair c < s.busyAt z.pair d then some c else some d) none

/-! ### Placing groups and teams (rules R38, R149, R263, R273, R380) -/

/-- The slot a group is given (rule R149). -/
def State.slotFor (s : State) (c : Nat) : Nat :=
  let load (g : Nat) : Nat := ((s.core c).slots.filter (fun e => e.1 % 4 == g % 4)).length
  ((s.freeSlots c).foldl (fun (b : Option Nat) g => match b with
    | none => some g
    | some h => if load g < load h then some g else some h) none).getD 0

/-- Places a group on a core, as its youngest. -/
def State.placeGroup (s : State) (c : Nat) (G : Group) : State × Nat :=
  let g := s.slotFor c
  let q := s.fresh
  (q.2.updCore c (fun k => { k with slots := k.slots.set g { G with admitted := q.1 }, fwd := k.fwd.erase g }), g)

/-- A launch's first team on a core invalidates the constant cache. -/
def Core.startLaunch (k : Core) (lid : Nat) : Core :=
  if k.ccLaunch.contains lid then k else { k with ccache := [], ccLaunch := k.ccLaunch ++ [lid] }

/-- The shape of a launch's teams. -/
def Launch.shape (L : Launch) : Need :=
  let n := evenGroups (recPair L.record) (recGroups L.record)
  { tid := 0, pair := recPair L.record, even := n, odd := recGroups L.record - n, w := recW L.record, resv := recReserve L.record, lsz := recLsz L.record, rows := 0 }

/-- The spill base of group `g` of team `t` (rule R365). -/
def Launch.spillBase (L : Launch) (t g : Nat) : Nat :=
  (recSpill L.record * 128 + (t * recGroups L.record + g) * (512 * recW L.record)) % 2 ^ 57

/-- Group `g` of team `t` of a launch as it starts (rule R38). -/
def State.newGroup (s : State) (L : Launch) (tid t g : Nat) : State × Group :=
  let q := s.fresh
  let w := recW L.record
  let ks := L.args.zipIdx.foldl (fun (k : Tab W64) a => k.set a.2 a.1) []
  (q.2, { gid := q.1, lid := L.lid, tid := tid, idx := g, tindex := t, part := L.part, w := w, resv := recReserve L.record, admitted := 0,
          regs := { k := ks }, spill := w64 (L.spillBase t g),
          splits := [{ id := 0, pc := recEntry L.record, am := fullMask w, own := fullMask w, since := s.cycle }] })

/-- The core of group `g` of a team. -/
def coreOfGroup (c : Nat) (pair : Bool) (groups g : Nat) : Nat := if pair && decide (evenGroups true groups ≤ g) then c + 1 else c

/-- Admits the next team of a launch at a core (rules R147, R148, R361). -/
def State.admitTeam (s : State) (L : Launch) (c : Nat) : State :=
  let r := L.record
  let t := L.next
  let q := s.fresh
  let T : Team := { tid := q.1, lid := L.lid, index := t, part := L.part, core := c, pair := recPair r, groups := recGroups r, w := recW r,
                    prio := recPrio r, gang := recGang r, order := q.1, live := List.range (recGroups r)
                    lsBase := (s.findLs c (recLsz r)).getD 0, lsz := recLsz r }
  let s := { q.2 with teams := q.2.teams.set q.1 (T.release L.sched) }.updLaunch L.lid (fun L => { L with next := t + 1 })
  let s := T.cores.foldl (fun s d => s.updCore d (fun k => k.startLaunch L.lid)) s
  let s := (List.range (recGroups r)).foldl (fun s g =>
    let x := s.newGroup L q.1 t g
    (x.1.placeGroup (coreOfGroup c T.pair T.groups g) x.2).1) s
  s.teamRecord T 0x30 (s.placeOf c 0)

/-! ### Resumption (rules R363, R421, R422) -/

/-- A saved register as it resumes. -/
def VReg.resume (r : VReg) : VReg :=
  match r.st with
  | .mapped => { r with st := .spilled, val := [] }
  | _ => r

/-- A saved split as it resumes: an instruction that waited or faulted issues again, and a split stopped at a SAFEPT goes on behind it. -/
def Split.resumed (p : Split) (now : Nat) : Split :=
  let p := if p.wait == .safe then { p with pc := p.pc + 8 } else p
  { p with wait := .ready, waited := false, batch := none, stall := 8, since := now, aged := false, word := none }

/-- A saved group as it resumes: its translation registers are marked for re-translation, its walk, under a new number, has no tile
staged (rule R245), and its registers coded PENDING and DELIVERED are to be allocated before it issues (rule R422). -/
def Group.resumed (G : Group) (now serial : Nat) : Group :=
  { G with regs := { G.regs with v := G.regs.v.mapV VReg.resume, t := G.regs.t.mapV (fun t => { t with stale := true }) }
           splits := G.splits.map (fun p => p.resumed now), walk := G.walk.map (fun w => { w with serial := w.serial + serial + 1 })
           preempt := none, stopped := false, safeMask := none
           unalloc := (G.regs.v.filter (fun e => e.2.st == .pending || e.2.st == .delivered)).map (fun e => e.1) }

/-- Notes where a group that left FORWARD slots is now (rule R196). -/
def State.forwardTo (s : State) (gid c g : Nat) : State :=
  let f (x : Fwd) : Fwd := if x.gid == gid then { x with newPlace := some (c, g) } else x
  { s with cores := s.cores.mapV (fun k => { k with fwd := k.fwd.mapV f }) }

/-- The shape of a saved team: the groups that were saved. -/
def Team.shape (T : Team) (resv : Nat) : Need :=
  let odd := (T.savedGroups.filter (fun G => T.pair && decide (evenGroups true T.groups ≤ G.idx))).length
  { tid := T.tid, pair := T.pair, even := T.savedGroups.length - odd, odd := odd, w := T.w, resv := resv, lsz := T.lsz, rows := T.limit - T.base }

/-- Restores a core's accumulator rows and marks for a window that now begins at row `b` (rule R422). -/
def Core.restoreRows (k : Core) (b n : Nat) (acc : Tab W32) (marks : Tab Nat) : Core :=
  let k := k.zeroRows b n
  { k with acc := acc.foldl (fun t e => t.set (b * 1024 + e.1) e.2) k.acc, marks := marks.foldl (fun t e => t.set (b + e.1) e.2) k.marks }

/-- Admits a saved team at a core. DESIGN CHOICE: a group that was saved inside its handler has its handler bank at once, also where the
trap reserve of rule R32 is then exceeded (log entry 124). -/
def State.resumeTeam (s : State) (tid c : Nat) : State :=
  match s.teams.find tid with
  | none => s
  | some T =>
    let L := s.launches.find T.lid
    let resv := (L.map (fun L => recReserve L.record)).getD 0
    let n := T.limit - T.base
    let b := (s.rowsAt (T.shape resv) c).getD 0
    let order := s.nextId
    let s := { s with nextId := s.nextId + 1 }
    let wins := T.wins.mapV (fun W => { W with st := [], need := [], mig := [] })
    let T' := { T with state := .resident, core := c, base := if n = 0 then 0 else b, limit := if n = 0 then 0 else b + n, order := order
                       lsBase := (s.findLs c T.lsz).getD 0, wins := wins, savedGroups := [], savedAcc := [], savedAcc1 := [], savedMarks := []
                       savedMarks1 := [], saveSlot := none, held := [] }
    let s := { s with teams := s.teams.set tid T' }.dropSlots T
    let s := if n = 0 then s else s.updCore c (fun k => k.restoreRows b n T.savedAcc T.savedMarks)
    let s := if n = 0 || !T.pair then s else s.updCore (partnerOf c) (fun k => k.restoreRows b n T.savedAcc1 T.savedMarks1)
    let s := T'.cores.foldl (fun s d => s.updCore d (fun k => k.startLaunch T.lid)) s
    let s := T.savedGroups.foldl (fun s G =>
      let d := coreOfGroup c T.pair T.groups G.idx
      let x := s.placeGroup d (G.resumed s.cycle s.nextId)
      x.1.forwardTo G.gid d x.2) s
    let s := s.applyAll tid T.held
    let s := T.susp.foldl (fun s x => s.requeue tid c x) s
    s.teamRecord T' 0x33 (s.placeOf c 0)

/-! ### Continuations (rules R387, R388) -/

/-- CONTINUATION_POLL: the counter is read at its home, and the continuation is ready once it has reached its target. -/
def contPoll (cid : Nat) (s : State) : State :=
  match s.conts.find cid with
  | none => s
  | some c =>
    if c.ready.isSome || s.pathHeld c.part c.counter 8 then s
    else match s.readVa c.part c.counter 8 with
      | (s, some b) =>
        if decide (c.target.toNat ≤ numOf b) then
          let q := s.fresh
          { q.2 with conts := q.2.conts.set cid { c with ready := some q.1 } }
        else s
      | (s, none) => s
def execContinuationPoll (cid : Nat) (s : State) : Res := .next (contPoll cid s)

/-- Words of a continuation record; one that cannot be read holds a free value. -/
def State.contWords (s : State) (part va n : Nat) : State × List W64 :=
  (List.range n).foldl (fun (r : State × List W64) i =>
    match r.1.readVa part (va + 8 * i) 8 with
    | (s, some b) => (s, r.2 ++ [w64 (numOf b)])
    | (s, none) => let q := s.drawFree; (q.2, r.2 ++ [q.1])) (s, [])

/-- Admits a ready continuation at a core, as a team of one group (rule R388). DESIGN CHOICE: its group keeps its number, so one whose number
is not 0 is no leader, and no group of its team may write `sys.awbase` or `sys.awlimit` (rule R223; log entry 125). -/
def State.resumeCont (s : State) (c : ContRec) (L : Launch) (core : Nat) : State :=
  let w := recW L.record
  let q := s.contWords c.part c.va (80 + c.nv * w / 2)
  let ws := q.2
  let s := q.1
  let word2 := wordAt ws 2
  let tid := s.nextId
  let gid := s.nextId + 1
  let T : Team := { tid := tid, lid := c.lid, index := fld word2 32 32, part := c.part, core := core, pair := false, groups := 1, w := w,
                    prio := recPrio L.record, gang := false, order := tid, live := [fld word2 24 8]
                    lsBase := (s.findLs core (recLsz L.record)).getD 0, lsz := recLsz L.record, cont := some c.cid }
  let lane (r l : Nat) : W32 := w32 ((wordAt ws (80 + (r * w + l) / 2)).toNat >>> (32 * (l % 2)))
  let regs : Regs :=
    { v := (List.range c.nv).map (fun r => (c.first + r, ({ st := .mapped, val := lanesOf w (lane r) } : VReg)))
      p := (List.range 8).map (fun i => (i, wordAt ws (5 + i) &&& fullMask w))
      k := (List.range 64).map (fun i => (i, wordAt ws (16 + i)))
      x := (List.range 4).map (fun i => (i, w32 ((wordAt ws (3 + i / 2)).toNat >>> (32 * (i % 2))))) }
  let am : Mask := wordAt ws 1 &&& fullMask w
  let G : Group := { gid := gid, lid := c.lid, tid := tid, idx := fld word2 24 8, tindex := fld word2 32 32, part := c.part, w := w
                     resv := recReserve L.record, admitted := 0, regs := regs, unalloc := (List.range c.nv).map (fun r => c.first + r)
                     spill := w64 (L.spillBase (fld word2 32 32) (fld word2 24 8)), cont := true
                     splits := [{ id := 0, pc := w64 (fld (wordAt ws 0) 0 57), am := am, own := am, since := s.cycle }] }
  let s := { s with nextId := s.nextId + 2, teams := s.teams.set tid (T.release L.sched), conts := s.conts.erase c.cid }
  let s := s.updCore core (fun k => k.startLaunch c.lid)
  let s := (s.placeGroup core G).1.acquire core gid 4
  s.teamRecord T 0x30 (s.placeOf core 0)

/-! ### Candidates (rule R379) -/

/-- What may be admitted. -/
inductive Cand where
  | saved (tid : Nat)
  | gang (lid : Nat)
  | cont (cid : Nat)
  | next (lid : Nat)
  deriving DecidableEq, Repr

/-- A candidate with its priority, whether it waits for its first admission, and its place among its like. -/
structure Ranked where
  prio : Nat
  waiting : Bool
  order : Nat
  cand : Cand
  deriving DecidableEq, Repr

/-- Whether a launch has a team that waits. -/
def Launch.waits (L : Launch) : Bool := !L.closed && !L.complete && L.code == 0 && decide (L.next < recTeams L.record)

/-- Gangs with a saved team, each as one candidate (rule R383). -/
def State.savedGangs (s : State) (part : Nat) : List Ranked :=
  s.launches.filterMap (fun e =>
    let saved := (s.teams.filter (fun t => t.2.lid == e.1 && t.2.gang && t.2.state == .saved)).map (fun t => t.2)
    if e.2.part == part && !saved.isEmpty then
      some ⟨recPrio e.2.record, false, (saved.map (fun T => T.order)).foldl Nat.min (s.nextId), .gang e.1⟩
    else none)

/-- Every candidate of a partition. -/
def State.candidates (s : State) (part : Nat) : List Ranked :=
  ((s.teams.filter (fun e => e.2.part == part && e.2.state == .saved && !e.2.gang)).map (fun e => ⟨e.2.prio, false, e.2.order, .saved e.1⟩))
    ++ s.savedGangs part
    ++ (s.conts.filterMap (fun e => match e.2.ready, s.launches.find e.2.lid with
        | some n, some L => if e.2.part == part then some ⟨recPrio L.record, false, n, .cont e.1⟩ else none
        | _, _ => none))
    ++ (s.launches.filter (fun e => e.2.part == part && e.2.waits)).map (fun e => ⟨recPrio e.2.record, true, e.1, .next e.1⟩)

/-- Whether one candidate comes before another. -/
def Ranked.before (a b : Ranked) : Bool :=
  if a.prio != b.prio then decide (b.prio < a.prio)
  else if a.waiting != b.waiting then b.waiting
  else decide (a.order < b.order)

/-- Inserts a candidate in order. -/
def insertCand (a : Ranked) (l : List Ranked) : List Ranked :=
  match l with
  | [] => [a]
  | b :: rest => if a.before b then a :: b :: rest else b :: insertCand a rest

/-- The candidates in the order in which the distributor takes them. -/
def State.ranked (s : State) (part : Nat) : List Ranked := (s.candidates part).foldl (fun l a => insertCand a l) []

/-- Whether a waiting candidate is held back by a saved team or ready continuation of its priority or above. -/
def heldBack (all : List Ranked) (a : Ranked) : Bool := a.waiting && all.any (fun b => !b.waiting && decide (a.prio ≤ b.prio))

/-! ### Gangs (rule R383) -/

/-- Admits every waiting team of a launch, or none. -/
def State.admitAll (s : State) (lid fuel : Nat) : Option State :=
  match fuel with
  | 0 => some s
  | n + 1 =>
    match s.launches.find lid with
    | none => none
    | some L =>
      match s.pickPlace L.part lid L.shape with
      | none => none
      | some c => (s.admitTeam L c).admitAll lid n

/-- Resumes every saved team of a gang, or none. -/
def State.resumeAll (s : State) (tids : List Nat) : Option State :=
  match tids with
  | [] => some s
  | t :: rest =>
    match s.teams.find t with
    | none => none
    | some T =>
      let resv := ((s.launches.find T.lid).map (fun L => recReserve L.record)).getD 0
      match s.pickPlace T.part T.lid (T.shape resv) with
      | none => none
      | some c => (s.resumeTeam t c).resumeAll rest

/-- A state in which the teams and groups of some cores are gone, as when those cores have drained. -/
def State.emptied (s : State) (cs : List Nat) : State :=
  let gone (T : Team) : Bool := cs.any (fun c => T.cores.contains c)
  let out := s.teams.filter (fun e => gone e.2)
  cs.foldl (fun s c => s.updCore c (fun k => { k with slots := [], allocs := [] }))
    { s with teams := s.teams.filter (fun e => !(out.any (fun x => x.1 == e.1))) }

/-- The cores that drain for a gang: in increasing order of resident groups until the gang would fit. -/
def State.drainSet (s : State) (L : Launch) (rest drained : List Nat) (fuel : Nat) : List Nat :=
  match fuel with
  | 0 => drained
  | n + 1 =>
    if ((s.emptied drained).admitAll L.lid (recTeams L.record - L.next)).isSome then drained
    else
      match rest.foldl (fun (b : Option Nat) c => match b with
          | none => some c
          | some d => if s.busyAt false c < s.busyAt false d then some c else some d) none with
      | none => drained
      | some c => s.drainSet L (rest.filter (fun d => d != c)) (drained ++ [c]) n

/-- A gang that waited too long ends its launch. -/
def State.gangEnds (s : State) (lid : Nat) : State :=
  s.updLaunch lid (fun L => { L with closed := true, code := 4, draining := [] })

/-- Whether a gang's wait is over. -/
def State.gangLate (s : State) (L : Launch) : Bool :=
  match L.headTime with
  | some t => decide (t + 1000 * recGwait L.record ≤ s.now)
  | none => false

/-- Whether a gang may not be admitted now: a saved team or ready continuation goes before it. -/
def State.gangHeld (s : State) (L : Launch) : Bool :=
  let all := s.ranked L.part
  all.any (fun a => a.cand == .next L.lid && heldBack all a)

/-- Admits every waiting team of a gang, where nothing goes before it. -/
def State.seatGang (s : State) (L : Launch) : Option State :=
  if s.gangHeld L then none else s.admitAll L.lid (recTeams L.record - L.next)

/-- The step of rule R383 for a gang whose head time has come and that has no placement: cores drain for it, until its wait is over. -/
def State.gangStep (s : State) (L : Launch) : State :=
  if (s.seatGang L).isSome then s
  else
    let s := if L.draining.isEmpty then
        let away := (s.launches.map (fun e => e.2.draining)).flatten
        let d := s.drainSet L ((s.partCores L.part).filter (fun c => !away.contains c)) [] (Config.coresPerPackage + 1)
        s.updLaunch L.lid (fun L => { L with draining := d })
      else s
    if s.gangLate L then s.gangEnds L.lid else s

/-- Notes the head time of a gang that is the first waiting candidate of its partition (rule R383). -/
def State.gangHead (s : State) (part : Nat) : State :=
  match ((s.ranked part).find? (fun a => a.waiting)).bind (fun a => match a.cand with | .next l => some l | _ => none) with
  | some l => if (s.launches.find l).any (fun (L : Launch) => recGang L.record) then
        s.updLaunch l (fun L => { L with headTime := some (L.headTime.getD s.now) })
      else s
  | none => s

/-- The step of rule R383 for every gang of a partition whose head time has come, in their order. -/
def State.gangSteps (s : State) (part : Nat) : State :=
  (s.ranked part).foldl (fun s a => match a.cand with
    | .next l => match s.launches.find l with
      | some L => if recGang L.record && L.headTime.isSome && L.waits then s.gangStep L else s
      | none => s
    | _ => s) s

/-- GANG_UNPLACED: the wait of a gang that fits nowhere is over. -/
def gangUnplaced (lid : Nat) (s : State) : State :=
  match s.launches.find lid with
  | none => s
  | some L =>
    if L.waits && recGang L.record && s.gangLate L && (s.seatGang L).isNone then s.gangEnds lid else s
def execGangUnplaced (lid : Nat) (s : State) : Res := .next (gangUnplaced lid s)

/-! ### Pre-emption requests (rules R381, R416, R418) -/

/-- A run of free save slots (rule R418). -/
def State.freeSave (s : State) (part n : Nat) : Option Nat :=
  let P := s.part part
  (List.range (fld P.savepool 0 12)).find? (fun b => decide (b + n ≤ fld P.savepool 0 12)
    && (List.range n).all (fun i => !P.slotsUsed.contains (b + i)))

/-- Save slots that a team needs. -/
def Team.saveSlots (T : Team) : Nat := if T.pair then 2 else 1

/-- Takes a team's save slots from the pool. -/
def State.takeSave (s : State) (T : Team) (n : Nat) : State :=
  s.updPart T.part (fun P => { P with slotsUsed := P.slotsUsed ++ (List.range T.saveSlots).map (fun i => n + i) })

/-- A request to save a team (rule R416): it enters SAVING with its save slots, and each of its groups is told. -/
def State.requestSave (s : State) (tid : Nat) : State :=
  match s.teams.find tid with
  | none => s
  | some T =>
    match s.freeSave T.part T.saveSlots with
    | none => s
    | some n =>
      if T.state != .resident then s
      else
        let s := s.updTeam tid (fun T => { T with state := .saving, saveSlot := some n })
        let s := s.takeSave T n
        let tell (G : Group) : Group := if G.tid == tid then { G with preempt := some s.now }.latchStop else G
        let cores := s.cores.mapV (fun k => { k with slots := k.slots.mapV tell })
        { s with cores := cores }.teamRecord T 0x31 (s.placeOf T.core 0)

/-- The resident teams of lower priority that may be saved, lowest priority first and the last admitted first. -/
def State.victims (s : State) (part prio : Nat) : List Team :=
  let ts := (s.teams.filter (fun e => e.2.part == part && e.2.state == .resident && decide (e.2.prio < prio) && !e.2.gang)).map (fun e => e.2)
  ts.foldl (fun (l : List Team) T =>
    let first := l.takeWhile (fun U => decide (U.prio < T.prio) || (U.prio == T.prio && decide (T.order < U.order)))
    first ++ T :: l.drop first.length) []

/-- A state without some teams and their groups. -/
def State.without (s : State) (tids : List Nat) : State :=
  { s with teams := s.teams.filter (fun e => !tids.contains e.1)
           cores := s.cores.mapV (fun k => { k with slots := k.slots.filter (fun e => !tids.contains e.2.tid)
                                                    allocs := k.allocs.filter (fun r => !tids.contains r.tid) }) }

/-- The teams whose removal would let a candidate fit; none where even all of them would not. -/
def State.chooseVictims (s : State) (fits : State → Bool) (ts : List Team) (got : List Nat) : Option (List Nat) :=
  if fits (s.without got) then some got
  else match ts with
    | [] => none
    | T :: rest => s.chooseVictims fits rest (got ++ [T.tid])

/-- Pre-emption for the first candidate, which fits nowhere (rule R381). -/
def State.preemptFor (s : State) (part prio : Nat) (fits : State → Bool) : State :=
  let P := s.part part
  if fld P.ctl 1 1 == 0 || !P.outstanding.isEmpty then s
  else match s.chooseVictims fits (s.victims part prio) [] with
    | none => s
    | some ts =>
      let s := ts.foldl (fun s t => s.requestSave t) s
      s.updPart part (fun P => { P with outstanding := ts.filter (fun t =>
        match s.teams.find t with | some T => T.state == .saving | none => false) })

/-! ### Admission -/

/-- The shape of a single candidate. -/
def State.shapeOf (s : State) (x : Cand) : Option (Nat × Need) :=
  match x with
  | .saved t => (s.teams.find t).map (fun T => (T.lid, T.shape (((s.launches.find T.lid).map (fun L => recReserve L.record)).getD 0)))
  | .cont c => (s.conts.find c).bind (fun C => (s.launches.find C.lid).map (fun L => (C.lid, { L.shape with pair := false, even := 1, odd := 0 })))
  | .next l => (s.launches.find l).map (fun L => (l, L.shape))
  | .gang _ => none

/-- Where a single candidate fits. -/
def State.placeFor (s : State) (part : Nat) (x : Cand) : Option Nat :=
  (s.shapeOf x).bind (fun z => s.pickPlace part z.1 z.2)

/-- Tries to place one candidate: the state after it, or none where it does not fit. -/
def State.seatCandidate (s : State) (part : Nat) (x : Cand) : Option State :=
  match x with
  | .saved t => (s.placeFor part x).map (fun c => s.resumeTeam t c)
  | .cont c => (s.placeFor part x).bind (fun core => match s.conts.find c with
      | some C => if s.pathHeld C.part C.va (640 + 4 * C.nv * 64) then none else (s.launches.find C.lid).map (fun L => s.resumeCont C L core)
      | none => none)
  | .gang l =>
    let ts := s.teams.filter (fun e => e.2.lid == l && e.2.gang)
    if ts.all (fun e => e.2.state == .saved || e.2.state == .ended) then
      s.resumeAll ((ts.filter (fun e => e.2.state == .saved)).map (fun e => e.1))
    else none
  | .next l => match s.launches.find l with
      | some L =>
        if recGang L.record then (s.seatGang L).map (fun s => s.updLaunch l (fun L => { L with draining := [] }))
        else (s.placeFor part x).map (fun c => s.admitTeam L c)
      | none => none

/-- Whether a candidate fits now, a gang with every team on a core or pair of its own choice (rule R381). -/
def State.fitsNow (s : State) (part : Nat) (x : Cand) : Bool :=
  match x with
  | .next l => match s.launches.find l with
      | some L => if recGang L.record then (s.seatGang L).isSome else (s.placeFor part x).isSome
      | none => false
  | .gang _ => (s.seatCandidate part x).isSome
  | _ => (s.placeFor part x).isSome

/-- Whether a gang still has a team on its way to its save record. -/
def State.gangSaving (s : State) (x : Cand) : Bool :=
  match x with
  | .gang l => s.teams.any (fun e => e.2.lid == l && e.2.gang && (e.2.state == .saving || e.2.state == .resident))
  | _ => false

/-- The first candidate that fits, in order. -/
def State.admitFirst (s : State) (part : Nat) (all rest : List Ranked) : Option State :=
  match rest with
  | [] => none
  | a :: more =>
    if heldBack all a then s.admitFirst part all more
    else match s.seatCandidate part a.cand with
      | some t => some t
      | none => s.admitFirst part all more

/-- ADMISSION (rules R379 to R383): the first candidate that fits is admitted, a gang whole; the gangs whose head time has come and that have
no placement then drain cores, or end; when the first candidate fits nowhere, pre-emption is requested. DESIGN CHOICE: a gang fits when each
of its teams does, on one core or pair (log entry 126). -/
def admission (part : Nat) (s : State) : State :=
  let s := s.gangHead part
  let all := s.ranked part
  let s' := ((s.admitFirst part all all).getD s).gangSteps part
  match all.head? with
  | none => s'
  | some a =>
    if heldBack all a || s.gangSaving a.cand || s.fitsNow part a.cand then s'
    else s'.preemptFor part a.prio (fun t => t.fitsNow part a.cand)
def execAdmission (part : Nat) (s : State) : Res := .next (admission part s)

/-! ### Activity budgets (rule R394) -/

/-- The allowance of a period: the budget less the overdraft; zero where the overdraft is greater, so that it is carried once. -/
def allowance (budget : Nat) (left : Int) : Int := max 0 ((budget : Int) - max 0 (-left))

/-- BUDGET_PERIOD: a partition's allowances at the start of a period of 1 µs. -/
def budgetPeriod (part : Nat) (s : State) : State :=
  let P := s.part part
  if s.now / 1000 = P.period then s
  else
    let b := P.pbud0
    let s := s.updPart part (fun P => { P with
      period := s.now / 1000
      copyLeft := allowance (256 * fld b 48 16) P.copyLeft
      hostLeft := allowance (256 * fld b 16 16) P.hostLeft
      migLeft := allowance (fld b 0 16) P.migLeft
      teleLeft := allowance (64 * fld P.pbud1 0 16) P.teleLeft })
    let term := Nat.min 2000 (fld b 32 16)
    let s := (s.partCores part).foldl (fun s c => s.updCore c (fun k =>
      { k with termLeft := allowance term k.termLeft, termFrom := if k.termLeft ≤ 0 then s.cycle else k.termFrom })) s
    s.flushBuffer part
def execBudgetPeriod (part : Nat) (s : State) : Res := .next (budgetPeriod part s)

end Sys2Proof.Machine
end

