-- ==== Sys2Proof/Machine/Preempt.lean ====
section
/-! DEFINITION. Fault batches and their answers, saving a team, power-gating, invalidation of translations and the partition map (rules
R281, R409 to R424, R450 to R452). -/

namespace Sys2Proof.Machine

/-! ### Fault batches (rules R409, R410, R413, R414) -/

/-- Entries of a partition's fault ring. -/
def ringEntries (pfring : W64) : Nat := 2 ^ (Nat.min (fld pfring 0 4) 8 + 6)

/-- The bytes of entry `i` of a batch. -/
def Batch.entry (b : Batch) (i : Nat) (p : FaultPage) : List Byte :=
  recBytes [w64 (at_ p.kind 62 + (if i = 0 then 2 ^ 61 else 0) + p.va),
            w64 (at_ b.num 48 + at_ i 40 + at_ b.pages.length 32 + b.place), w64 b.launch, w64 b.ticket]

/-- The launch of a partition with a sequence number. -/
def State.launchOf (s : State) (part seq : Nat) : Option Launch :=
  (s.launches.find? (fun e => e.2.part == part && e.2.seq == seq && !e.2.complete)).map (fun e => e.2)

/-- Ends a launch whose fault or save write failed, with a record of KIND 9 (rules R370, R409, R418). -/
def State.writeFails (s : State) (part va : Nat) (L : Option Launch) : State :=
  let s := s.mcRecord 9 part va 0 0
  match L with
  | some L => s.spillFault L.lid
  | none => s

/-- Replaces a batch of a partition. -/
def State.updBatch (s : State) (part num : Nat) (f : Batch → Batch) : State :=
  s.updPart part (fun P => { P with batches := updIf P.batches (fun b => b.num == num) f })

/-- FAULT_BATCH_WRITE: the partition's first batch that is not in the ring is written there, when it fits. -/
def faultBatchWrite (part : Nat) (s : State) : State :=
  let P := s.part part
  match P.batches.find? (fun b => !b.written) with
  | none => s
  | some b =>
    let size := ringEntries P.pfring
    let base := fld P.pfring 12 45 * 4096
    if size < (P.pfwptr - P.pfrptr).toNat + b.pages.length || s.pathHeld part base (32 * size) then s
    else
      let r := b.pages.zipIdx.foldl (fun (r : State × Option Nat) x =>
        let va := base + 32 * ((P.pfwptr.toNat + x.2) % size)
        match r with
        | (s, some bad) => (s, some bad)
        | (s, none) => match s.writeVa part va (b.entry x.2 x.1) with
          | (s, true) => (s, none)
          | (s, false) => (s, some va)) (s, none)
      let s := r.1.updBatch part b.num (fun b => { b with written := true })
      match r.2 with
      | some va => s.writeFails part va (s.launchOf part b.launch)
      | none =>
        let s := s.updPart part (fun P => { P with pfwptr := P.pfwptr + w32 b.pages.length })
        { s with replies := s.replies ++ [.faults part] }
def execFaultBatchWrite (part : Nat) (s : State) : Res := .next (faultBatchWrite part s)

/-- The saved groups of a partition that sleep on a batch, with their teams. -/
def State.savedOn (s : State) (part num : Nat) : List (Nat × Group) :=
  s.teams.flatMap (fun e => (e.2.savedGroups.filter (fun G => G.part == part && G.splits.any (fun p => p.batch == some num))).map (fun G => (e.1, G)))

/-- An answer to a batch (rules R331, R414): every split and copy of the partition that sleeps on it goes on, `f` and `h` saying how, and the
save record of a group that is saved keeps the answer. -/
def State.answer (s : State) (part num : Nat) (f : Split → Split) (h : Copy → Copy) : State :=
  let away := s.savedOn part num
  let split (p : Split) : Split := if p.batch == some num then f { p with batch := none } else p
  let sp (G : Group) : Group := if G.part == part then { G with splits := G.splits.map split } else G
  let cp (c : Copy) : Copy := if c.part == part && c.batch == some num then h { c with batch := none } else c
  let core (k : Core) : Core := { k with slots := k.slots.mapV sp, eng0 := k.eng0.map cp, eng1 := k.eng1.map cp }
  let team (T : Team) : Team := { T with savedGroups := T.savedGroups.map sp, susp := T.susp.map cp }
  let due := s.copies.filter (fun c => c.part == part && c.batch == some num && c.resolved)
  let vas := (((s.part part).batches.filter (fun b => b.num == num)).map (fun b => b.pages.map (fun p => p.va))).flatten
  let s := { s with cores := s.cores.mapV core, teams := s.teams.mapV team }
    |>.updPart part (fun P => { P with batches := P.batches.filter (fun b => b.num != num) })
  let s := away.foldl (fun s x => s.putSection x.1 x.2 batchAt (bytesOf (sp x.2).batchWord.toNat 8)) s
  due.foldl (fun s c => vas.foldl (fun s va => match s.copies.find? (fun d => d.id == c.id) with
    | some d => s.ownPage d va
    | none => s) s) s

/-- PFDONE_ANSWER: the faulting instructions issue again. -/
def execPfdoneAnswer (part : Nat) (batch : BitVec 16) (s : State) : Res :=
  .next (s.answer part batch.toNat (fun p => if p.wait == .fault then { p with wait := .ready, stall := 8 } else p) id)

/-- PFDONE_REFUSE: the faulting instructions raise PAGE, and a copy ends with ERR 5. -/
def pfdoneRefuse (part num : Nat) (s : State) : State :=
  match (s.part part).batches.find? (fun b => b.num == num) with
  | none => s
  | some b =>
    let at' : Nat × Nat := match b.pages with | p :: _ => (p.va, p.lane) | [] => (0, 0)
    s.answer part num (fun p => { p with wait := if p.wait == .fault then .ready else p.wait, stall := 8, refused := some at' })
      (fun c => { c with refused := true })
def execPfdoneRefuse (part : Nat) (batch : BitVec 16) (s : State) : Res := .next (pfdoneRefuse part batch.toNat s)

/-! ### Requests and force (rules R416, R418, R452) -/

/-- The teams a management request names: the team, or every resident team of its gang (rule R383). -/
def State.named (s : State) (part : Nat) (v : W64) : List Nat :=
  match s.launchOf part (fld (s.part part).preq0 0 32) with
  | none => []
  | some L =>
    match s.teams.find? (fun e => e.2.lid == L.lid && e.2.index == fld v 0 32 && e.2.cont.isNone && e.2.state == .resident) with
    | none => []
    | some (t, T) => if T.gang then (s.teams.filter (fun e => e.2.lid == L.lid && e.2.state == .resident)).map (fun e => e.1) else [t]

/-- Whether the save pool has room for a list of teams, each in a run of its own (rule R418). -/
def State.slotsFor (s : State) (ts : List Nat) : Bool :=
  match ts with
  | [] => true
  | t :: rest =>
    match s.teams.find t with
    | none => s.slotsFor rest
    | some T => match s.freeSave T.part T.saveSlots with
      | none => false
      | some n => (s.takeSave T n).slotsFor rest

/-- Whether a team that a management request names, or one of its gang, is on its way to its save record (rule R452). -/
def State.namedSaving (s : State) (part : Nat) (v : W64) : Bool :=
  match s.launchOf part (fld (s.part part).preq0 0 32) with
  | none => false
  | some L => s.teams.any (fun e => e.2.lid == L.lid && (e.2.gang || e.2.index == fld v 0 32) && e.2.cont.isNone && e.2.state == .saving)

/-- PREEMPT_REQUEST (rule R452): a write of PREQ1; it waits while the save pool lacks room, its bit 63 stands until the team is SAVED, and it
has no effect on a team that is not RESIDENT. -/
def preemptRequest (part : Nat) (v : W64) (s : State) : State :=
  let put (s : State) (x : W64) : State := s.updPart part (fun P => { P with preq1 := x })
  let s := put s (v &&& 0x80000000FFFFFFFF)
  if fld v 63 1 == 0 then s
  else match s.named part v with
    | [] => if s.namedSaving part v then s else put s (v &&& 0xFFFFFFFF)
    | ts => if s.slotsFor ts then ts.foldl (fun s t => s.requestSave t) s else s
def execPreemptRequest (part : Nat) (v : W64) (s : State) : Res := .next (preemptRequest part v s)

/-- A group stopped by force: its run-ahead rolls back, and a trap entry that waits for a bank has not happened yet. -/
def State.forceStop (s : State) (c g : Nat) : State :=
  let s := s.endAhead c g
  s.updGroup c g (fun G => { G with stopped := true, entry := none, causes := match G.entry with
    | some q => if q.deferred then q :: G.causes else G.causes
    | none => G.causes })

/-- PREEMPT_FORCE_TIMEOUT (rule R416): 20 µs after the request. -/
def execPreemptForceTimeout (core slot : Nat) (s : State) : Res :=
  .next (match s.group core slot with
    | none => s
    | some G => match G.preempt with
      | some t => if !G.stopped && !G.ending && decide (t + 20000 ≤ s.now) then s.forceStop core slot else s
      | none => s)

/-! ### Saving a team (rules R196, R363, R417 to R421) -/

/-- Registers of a group as the save leaves them (rules R20, R421): outside the mask, EMPTY; a MAPPED value goes to the spill area. -/
def savedReg (keep : Bool) (r : VReg) : VReg :=
  if !keep then {}
  else match r.st with
    | .mapped => { r with st := .spilled, val := [] }
    | _ => r

/-- The mask that applies at a save: when every live split stopped at a SAFEPT (rule R421). -/
def Group.saveMask (G : Group) : Option (BitVec 128) :=
  if G.splits.all (fun p => p.wait == .safe) then G.safeMask else none

/-- The code of rule R167 that a group's own state gives a live split; none where its issue slot decides between NOTSEL and SECOND. DESIGN
CHOICE: a split that a stop of its group holds at its next instruction has 3 (log entry 83). -/
def Group.stateCode (G : Group) (p : Split) : Option Nat :=
  if G.frame.any (fun f => f.split != p.id) || G.entry.any (fun q => q.split != p.id) then some 1
  else if G.entry.isSome then some 2
  else if G.stopped && !p.quiet then some 3
  else match p.wait with
    | .safe => some 3
    | .fault => some 4
    | .merge => some 5
    | .barrier _ => some 6
    | .arrival _ | .counter _ => some 7
    | .term _ | .drain _ | .alloc => some 14
    | .ready =>
      if 5 ≤ p.stall ∧ p.stall ≤ 7 then some p.stall
      else if p.word.isNone then some 8
      else if decide (9 ≤ p.stall) && decide (p.stall ≤ 14) then some p.stall
      else none

/-- A mask-stack entry's first word: kind code, whether a split instruction made it, and its join tag (DESIGN CHOICE, log entry 83). -/
def Entry.flags (e : Entry) : W64 :=
  w64 ((match e.kind with | .ifE => 1 | .loopE => 2 | .callE => 3) + (if e.bySplit then 8 else 0)
    + (match e.join with | some j => 16 + at_ j 32 | none => 0))

/-- Words of a mask stack as a save record holds them (rule R420). -/
def stackWords (st : List Entry) : List W64 :=
  (List.range 32).map (fun i => match st[i]? with
    | some e => [e.flags, e.outer, e.alt, e.addr]
    | none => [0, 0, 0, 0]) |>.flatten

/-- The words of a group section, by offset (rule R420). DESIGN CHOICE: the bits of the words whose form the rule does not give (log entry
83): a split's flags are live in bit 0 and its state code from bit 8, the join tags stand with the stack entries; the walk is BASE, TSTR,
NT, WALKNEXT and whether it is set; the pending causes are a bit for each code. -/
def groupWords (G : Group) : List (Nat × List W64) :=
  let held (i : Nat) : Option (Split × W64 × Mask × List Entry) := (G.split i).map (fun p => match G.frame with
    | some f => if f.split == i then (p, f.pc, f.am, f.stack) else (p, p.pc, p.am, p.stack)
    | none => (p, p.pc, p.am, p.stack))
  let entry (i : Nat) : List W64 := match held i with
    | some (p, pc, am, st) => [w64 (1 + at_ ((G.stateCode p).getD 15) 8), pc, am, w64 st.length] ++ stackWords st
    | none => List.replicate 132 0
  let frame : List W64 := match G.frame.bind (fun f => (G.split f.split).map (fun p => (f, p))) with
    | some (f, p) => [1, p.pc, p.am, w64 p.stack.length] ++ stackWords p.stack ++ [f.ra]
    | none => [0]
  let walk : List W64 := match G.walk with
    | some k => [w64 k.base, w64 k.tstr, w64 k.nt, w64 k.next, 1]
    | none => [0, 0, 0, 0, 0]
  let codes (lo : Nat) : W64 := w64 ((List.range 32).foldl (fun a j => a + at_ (regCode (G.vreg (lo + j))) (2 * j)) 0)
  let tw (n : Nat) : List W64 := let t := G.treg n; [t.w0, t.w1, t.w2]
  [(0, ((List.range 4).map entry).flatten),
   (0x1100, (List.range 64).map G.uni), (0x1300, (List.range 128).map G.pred),
   (0x1700, [w64 ((G.idxReg 0).toNat + at_ (G.idxReg 1).toNat 32), w64 ((G.idxReg 2).toNat + at_ (G.idxReg 3).toNat 32), G.remap] ++ walk),
   (0x1740, ((List.range 8).map tw).flatten),
   (0x1800, [G.deadread, G.sendstat, G.drift, w64 G.spillcnt, G.causesWord, G.trapcause, G.trappc, G.batchWord]),
   (0x1840, (List.range 4).map (fun i => codes (32 * i))), (0x1880, frame)]

/-- The handler bank's bytes. -/
def bankBytes (G : Group) : List Byte :=
  ((List.range 16).map (fun n => ((List.range G.w).map (fun l => bytesOf (G.hlane n l).toNat 4)).flatten)).flatten

/-- Writes a part of a save record; false when some write has failed. -/
def putPart (part : Nat) (r : State × Bool) (va : Nat) (b : List Byte) : State × Bool :=
  let q := r.1.writeLong part va b
  (q.1, r.2 && q.2)

/-- Writes a window's rows of one core (rule R419). -/
def putRows (part : Nat) (r : State × Bool) (va n : Nat) (acc : Tab W32) : State × Bool :=
  (List.range n).foldl (fun r i => putPart part r (va + 0x90000 + 4096 * i)
    (((List.range 1024).map (fun c => bytesOf (acc.get 0 (1024 * i + c)).toNat 4)).flatten)) r

/-- A stash window's window word (rule R264). -/
def Win.word (W : Win) (i : Nat) : W64 := w64 (at_ i 38 + (if W.wr then 2 ^ 37 else 0) + at_ (W.lines - 1) 26 + W.off)

/-- The words of a team header with the marks of one core's rows (rules R225, R264, R419). DESIGN CHOICE: the words stand in the order in
which the rule lists them, from offset 0; a window's address has bit 63 where the window is set, and both words are 0 where not (log entry
83). -/
def headerWords (T : Team) (seq : Nat) (marks : Tab Nat) : List W64 :=
  let win (i : Nat) : List W64 := match T.wins.find i with
    | some W => [W.word i, w64 (2 ^ 63 + W.va)]
    | none => [0, 0]
  [w64 (seq + at_ T.index 32), w64 T.groups, w64 T.span, w64 (T.limit - T.base)]
    ++ (List.range 16).map (fun i => w64 ((List.range 32).foldl (fun a j => a + at_ (marks.get 0 (32 * i + j)) (2 * j)) 0))
    ++ [w64 T.stage] ++ (List.range 64).map (fun e => w64 (T.sched.get 0 e)) ++ ((List.range 4).map win).flatten

/-- The context save record in memory (rules R225, R419, R420). The suspended copies and held additions, whose form is the hardware's own,
follow the header's words as free values. -/
def State.saveRecord (s : State) (T : Team) (va : Nat) : State × Bool :=
  let f := s.free
  let own (n : Nat) : List W64 := (List.range n).map (fun i => Config.freeWord (f + i))
  let bytes (ws : List W64) : List Byte := (ws.map (fun (x : W64) => bytesOf x.toNat 8)).flatten
  let n := if T.susp.isEmpty && T.held.isEmpty then 0 else 419
  let s := { s with free := f + n }
  let r := putPart T.part (s, true) va (bytes (headerWords T (s.seqOf T.lid) T.savedMarks ++ own n))
  let r := putPart T.part r (va + 0x10000) (T.bytes 0 T.lsz)
  let r := putRows T.part r va (T.limit - T.base) T.savedAcc
  let r := if T.pair then
      putRows T.part (putPart T.part r (va + 2 ^ 22) (bytes (headerWords T (s.seqOf T.lid) T.savedMarks1))) (va + 2 ^ 22) (T.limit - T.base) T.savedAcc1
    else r
  T.savedGroups.foldl (fun r G =>
    let at' := va + 0x290000 + 0x4000 * G.idx
    let r := (groupWords G).foldl (fun r x => putPart T.part r (at' + x.1) (bytes x.2)) r
    putPart T.part r (at' + 0x2000) (bankBytes G)) r

/-- Whether every group of a team that is being saved is stopped (rule R416). -/
def State.teamStopped (s : State) (T : Team) : Bool :=
  T.cores.all (fun c => (s.core c).slots.all (fun e => e.2.tid != T.tid || (!e.2.ending && e.2.stopped)))

/-- Whether a team that is being saved has nothing left to complete (rules R363, R417), and no copy owns a line that its save writes. -/
def State.quietTeam (s : State) (T : Team) : Bool :=
  s.teamStopped T && T.cores.all (fun c =>
    let k := s.core c
    !(k.termBusy T.tid) && k.slots.all (fun e => e.2.tid != T.tid
      || (k.groupQuiet e.2 && e.2.reloads.isEmpty && !(k.writeouts.any (fun w => w.gid == e.2.gid))
        && !(s.pathHeld T.part (e.2.spillVa 0) (512 * e.2.w)))))
    && !(s.copies.any (fun c => c.tid == T.tid && c.usesLs))
    && !(s.pathHeld T.part (s.slotVa T) (2 ^ 22 * T.saveSlots))

/-- Rows or marks of a window, numbered from its first row. -/
def windowOf {α : Type} (t : Tab α) (unit base limit : Nat) : Tab α :=
  (t.filter (fun e => decide (base * unit ≤ e.1) && decide (e.1 < limit * unit))).map (fun e => (e.1 - base * unit, e.2))

/-- A group leaves its core for its save record: its values go to the spill area, and its slot enters FORWARD while a capability that
names it is live (rules R196, R421). -/
def State.saveGroup (s : State) (c g : Nat) (G : Group) : State × Bool × Group :=
  let mask := G.saveMask
  let keep (n : Nat) : Bool := match mask with | some m => m.getLsbD n | none => true
  let s := ((G.regs.v.map (fun e => e.1)).filter (fun n => !keep n)).foldl (fun s n => s.disarm c g n) s
  let G := (s.group c g).getD G
  let r := G.regs.v.foldl (fun (r : State × Bool) e =>
    if keep e.1 && (e.2.st == .mapped || e.2.st == .delivered) then
      let q := r.1.writeSpill G e.1 e.2.val
      (q.1, r.2 && q.2)
    else r) (s, true)
  let G := { G with regs := { G.regs with v := G.regs.v.map (fun e => (e.1, savedReg (keep e.1) e.2)) } }
  let away := G.arms.any (fun a => capPlace a.2.cap == s.placeOf c g)
  let s := r.1.updCore c (fun k =>
    { k with slots := k.slots.erase g, fwd := if away then k.fwd.set g { gid := G.gid, newPlace := none } else k.fwd
             islots := k.islots.mapV (fun i => if (i.cur.map (fun x => x.1)) == some g then { i with cur := none } else i) })
  let moved (f : Fwd) : Fwd := if f.gid == G.gid then { f with newPlace := none } else f
  ({ s with cores := s.cores.mapV (fun k => { k with fwd := k.fwd.mapV moved }) }, r.2, G)

/-- Takes a team's claim off the weight banks of its cores (rule R210). -/
def Core.dropBanks (k : Core) (tid : Nat) : Core :=
  let f (b : Bank) : Bank := if b.team == some tid then { b with team := none } else b
  { k with bank0 := f k.bank0, bank1 := f k.bank1 }

/-- The copies of a team with a destination in its local store stop at a chunk boundary, its addition made (rule R363). -/
def State.suspend (s : State) (tid : Nat) : State :=
  let mine (c : Copy) : Bool := c.tid == tid && c.queue.isNone && partLs c.dst && c.pend.isNone
  let held := (s.copies.filter mine).map (fun c => { c with state := 8, hdr := [] })
  let cores := s.cores.mapV (fun k => { k with eng0 := k.eng0.filter (fun c => !mine c), eng1 := k.eng1.filter (fun c => !mine c) })
  { s with cores := cores }.updTeam tid (fun T => { T with susp := T.susp ++ held })

/-- TEAM_SAVE (rules R416 to R421): a SAVING team whose groups are stopped; its copies into its region stop, and it is saved, its groups in
increasing number, once its work is complete. -/
def teamSave (tid : Nat) (s : State) : State :=
  match s.teams.find tid with
  | none => s
  | some T =>
    if T.state != .saving || !(s.teamStopped T) then s
    else
      let s := s.suspend tid
      if !(s.quietTeam T) then s
      else
      let s := (T.wins.map (fun e => e.1)).foldl (fun s w => s.flushWin tid w) s
      let all := (T.cores.map (fun c => ((s.core c).slots.filter (fun e => e.2.tid == tid)).map (fun e => (c, e.1, e.2)))).flatten
      let groups := (List.range 256).filterMap (fun i => all.find? (fun x => x.2.2.idx == i))
      let r := groups.foldl (fun (r : State × Bool × List Group) x =>
        let q := r.1.saveGroup x.1 x.2.1 x.2.2
        (q.1, r.2.1 && q.2.1, r.2.2 ++ [q.2.2])) (s, true, [])
      let s := r.1
      let k := s.core T.core
      let k1 := s.core (partnerOf T.core)
      let q := s.fresh
      let wipe (W : Win) : Win := { W with st := [], need := [], mig := [] }
      let s := q.2.updTeam tid (fun T => { T with
        state := .saved, order := q.1, savedGroups := r.2.2, wins := T.wins.mapV wipe
        savedAcc := windowOf k.acc 1024 T.base T.limit, savedMarks := windowOf k.marks 1 T.base T.limit
        savedAcc1 := if T.pair then windowOf k1.acc 1024 T.base T.limit else []
        savedMarks1 := if T.pair then windowOf k1.marks 1 T.base T.limit else [] })
      let s := T.cores.foldl (fun s c => s.updCore c (fun k => k.dropBanks tid)) s
      let T := (s.teams.find tid).getD T
      let va := s.slotVa T
      let x := s.saveRecord T va
      let L := s.launches.find T.lid
      let s := x.1.updPart T.part (fun P => { P with outstanding := P.outstanding.filter (fun t => t != tid) })
      let P := s.part T.part
      let mine := fld P.preq1 63 1 == 1 && (L.map (fun L => L.seq)) == some (fld P.preq0 0 32)
        && (T.gang || fld P.preq1 0 32 == T.index)
        && !(s.teams.any (fun e => e.2.lid == T.lid && T.gang && e.2.state == .saving))
      let s := if mine then s.updPart T.part (fun P => { P with preq1 := setFld P.preq1 63 1 0 }) else s
      let s := (s.count T.part 14 1).teamRecord T 0x32 (s.placeOf T.core 0)
      if r.2.1 && x.2 then s else s.writeFails T.part va L
def execTeamSave (tid : Nat) (s : State) : Res := .next (teamSave tid s)

/-! ### Power (rule R424) -/

/-- Whether a core holds nothing that keeps it on. -/
def State.coreIdle (s : State) (c : Nat) : Bool :=
  let k := s.core c
  k.slots.isEmpty && !((List.range Config.groupSlots).any (s.forwarding c)) && k.eng0.isEmpty && k.eng1.isEmpty && k.tq.isEmpty && k.trun.isEmpty

/-- CORE_POWER_GATE: a core that holds nothing is power-gated or retired, once its dirty bytes are home. -/
def powerGate (core : Nat) (retire : Bool) (s : State) : State :=
  if !(s.coreIdle core) || (s.core core).power != .live then s
  else
    let s := s.l1Flush core
    if !(s.core core).homeq.isEmpty || !(s.core core).packets.isEmpty then s
    else s.updCore core (fun k => { k with power := if retire then .retired else .gated, l1 := [], tlb := [], ccache := [], ccLaunch := [], fwd := [], prefs := [] })
def execCorePowerGate (core : Nat) (retire : Bool) (s : State) : Res := .next (powerGate core retire s)

/-! ### Invalidation of translations (rules R277, R281, R451) -/

/-- The virtual range a TLBINV value names. -/
def invRange (v : W64) : Nat × Nat :=
  if fld v 62 1 == 1 then (0, 2 ^ 57)
  else
    let n := pageBytes (fld v 60 2)
    (fld v 0 41 * 65536 / n * n, n)

/-- TLBINV: a write of the register, ignored while an invalidation runs. -/
def tlbinvWrite (part : Nat) (v : W64) (s : State) : State :=
  if fld (s.part part).tlbinv 63 1 == 1 then s
  else s.updPart part (fun P => { P with tlbinv := v &&& w64 (2 ^ 64 - 1 - (2 ^ 60 - 2 ^ 41)) })
def execTlbinv (part : Nat) (v : W64) (s : State) : Res := .next (tlbinvWrite part v s)

/-- Whether a TLB entry of a partition overlaps a virtual range. -/
def TlbEnt.within (e : TlbEnt) (part lo n : Nat) : Bool := e.part == part && overlap e.vbase (pageBytes e.size) lo n

/-- A group's translation registers in a virtual range, marked. -/
def Group.markRange (G : Group) (part lo n : Nat) : Group :=
  let hit (t : TReg) : TReg := if decide (lo ≤ fld t.w0 0 57) && decide (fld t.w0 0 57 < lo + n) && fld t.w1 63 1 == 1 then { t with stale := true } else t
  if G.part != part then G
  else { G with regs := { G.regs with t := G.regs.t.mapV hit }, ra := G.ra.map (fun a => { a with regs := { a.regs with t := a.regs.t.mapV hit } }) }

/-- TLBINV_COMPLETE (rules R281, R282): every core of the partition has dropped its entries in the range, marked its translation registers,
and written back its dirty bytes and dropped its clean ones, and the windows over the range have lost their lines. DESIGN CHOICE: every
line of an L1 goes, in whatever page (log entry 82). -/
def tlbinvDone (part : Nat) (s : State) : State :=
  let v := (s.part part).tlbinv
  if fld v 63 1 == 0 then s
  else
    let r := invRange v
    let cs := s.partCores part
    let s := cs.foldl (fun s c => (s.l1Flush c).l1InvClean c (fun _ => true)) s
    let s := (s.teams.filter (fun e => e.2.part == part)).foldl (fun s t => t.2.wins.foldl (fun s w =>
      (w.2.st.filter (fun e => overlap (w.2.va + 128 * e.1) 128 r.1 r.2)).foldl (fun s e => s.recallAt t.1 w.1 e.1) s) s) s
    if cs.any (fun c => (s.core c).homeq.any (fun h => h.gid == 0)) then s
    else
      let s := cs.foldl (fun s c => s.updCore c (fun k =>
        { k with tlb := k.tlb.filter (fun e => !e.within part r.1 r.2), slots := k.slots.mapV (fun G => G.markRange part r.1 r.2) })) s
      let team (T : Team) : Team := { T with savedGroups := T.savedGroups.map (fun G => G.markRange part r.1 r.2) }
      { s with stackTlb0 := s.stackTlb0.filter (fun e => !e.within part r.1 r.2), stackTlb1 := s.stackTlb1.filter (fun e => !e.within part r.1 r.2)
               teams := s.teams.mapV team }.updPart part (fun P => { P with tlbinv := setFld P.tlbinv 63 1 0 })
def execTlbinvComplete (part : Nat) (s : State) : Res := .next (tlbinvDone part s)

/-! ### The partition map (rules R229, R377, R450, R454) -/

/-- A core passes to a partition: its histograms, and the counters of both partitions, start again (rules R229, R454). -/
def State.moveCore (s : State) (n p : Nat) : State :=
  let old := s.partOf n
  let s := { s with partmap := s.partmap.set n p }
  if old == p then s
  else
    let clear (P : Part) : Part := { P with pcnt := [] }
    ((s.updCore n (fun k => { k with hist := [], prefs := [] })).updPart old clear).updPart p clear

/-- PARTMAP_WRITE: core `n` passes to a partition while it holds nothing, unless its pair would be split. DESIGN CHOICE: such a write is
remembered, and the pair passes together when its partner is written with the same number (log entry 77). -/
def partmapWrite (n : Nat) (v : W64) (s : State) : State :=
  let p := fld v 0 3
  let m := partnerOf n
  if decide (Config.coresPerPackage ≤ n) || !(s.coreIdle n) then s
  else if s.partOf m == p then { s.moveCore n p with partAsk := s.partAsk.erase n }
  else if s.partAsk.find m == some p && s.coreIdle m then { (s.moveCore n p).moveCore m p with partAsk := (s.partAsk.erase n).erase m }
  else { s with partAsk := s.partAsk.set n p }
def execPartmapWrite (n : Nat) (v : W64) (s : State) : Res := .next (partmapWrite n v s)

end Sys2Proof.Machine
end

