-- ==== Sys2Proof/Machine/Queues.lean ====
section
/-! DEFINITION. Command queues, their packets, and task graphs (rules R371 to R376, R384, R385). -/

namespace Sys2Proof.Machine

/-! ### The queue registers (rule R371) -/

def Queue.en (Q : Queue) : Bool := fld Q.ctl 63 1 == 1
def Queue.part (Q : Queue) : Nat := fld Q.ctl 60 3
def Queue.slots (Q : Queue) : Nat := 2 ^ (if fld Q.ctl 0 5 < 4 ∨ 16 < fld Q.ctl 0 5 then 4 else fld Q.ctl 0 5)
def Queue.slotVa (Q : Queue) (p : Nat) : Nat := fld Q.base 12 45 * 4096 + 64 * (p % Q.slots)

/-- A write of QCTL: PART only while EN = 0; EN = 0 clears ERR and ESLOT. -/
def State.writeQctl (s : State) (q : Nat) (v : W64) : State :=
  s.updQueue q (fun Q =>
    let part := if Q.en then Q.part else fld v 60 3
    let ctl := w64 (at_ (fld v 63 1) 63 + at_ part 60 + at_ (fld v 8 1) 8 + fld v 0 5)
    if fld v 63 1 == 0 then { Q with ctl := ctl, err := 0, eslot := 0 } else { Q with ctl := ctl })

/-- QUEUE_ENABLE: a write of QCTL with EN = 1. -/
def execQueueEnable (q : Nat) (v : W64) (s : State) : Res := .next (if q < 64 then s.writeQctl q (setFld v 63 1 1) else s)
/-- QUEUE_DISABLE: a write of QCTL with EN = 0; packets that have begun run on. -/
def execQueueDisable (q : Nat) (v : W64) (s : State) : Res := .next (if q < 64 then s.writeQctl q (setFld v 63 1 0) else s)
/-- QWPTR_WRITE (rule R375). -/
def execQwptrWrite (q : Nat) (v : W64) (s : State) : Res :=
  .next (if q < 64 then s.updQueue q (fun Q => { Q with wptr := w32 (fld v 0 32) }) else s)

/-! ### Packets (rules R372 to R374, R376) -/

/-- Stops a queue in ERROR (rule R376). -/
def State.queueError (s : State) (q err : Nat) : State :=
  let s := s.updQueue q (fun Q => { Q with err := err, eslot := Q.rptr })
  if fld (s.queue q).ctl 8 1 == 1 then { s with replies := s.replies ++ [.queueError q] } else s

/-- Whether a header's reserved fields, SCOPE or NSM1 break rules R372 and R373. -/
def headerBad (h : W64) : Bool :=
  let typ := fld h 56 8
  let ns := fld h 54 2
  fld h 51 1 != 0 || fld h 32 16 != 0 || (if typ = 5 then fld h 48 3 == 0 || fld h 48 3 == 7 else fld h 48 3 != 0)
    || (if typ = 1 then false else if typ = 6 then ns != 1 else ns != 0)

/-- The words of a packet that its type does not list. -/
def unlisted (typ : Nat) : Nat :=
  match typ with
  | 2 => 2
  | 3 => 4
  | 4 | 5 => 3
  | 6 => 12
  | 7 => 2
  | _ => 1

/-- Whether the words after the header break rule R373. -/
def packetBad (ws : List W64) : Bool :=
  let typ := fld (wordAt ws 0) 56 8
  let w1 := wordAt ws 1
  let high := fld w1 57 7 != 0
  let src := (ws.drop 2).take 4
  let dst := (ws.drop 6).take 4
  let done := wordAt ws 10
  (ws.drop (unlisted typ)).any (fun x => x != 0)
    || (match typ with
        | 2 => high || w1.toNat % 128 != 0
        | 3 => high || w1.toNat % 64 != 0 || fld (wordAt ws 2) 32 32 != 0 || fld (wordAt ws 2) 0 32 == 0 || fld (wordAt ws 3) 57 7 != 0
            || (wordAt ws 3).toNat % 16 != 0
        | 4 | 5 | 7 => high || w1.toNat % 8 != 0
        | 6 => decide (2 < w1.toNat) || mutBad src || mutBad dst || doneBad done || decide (2 ≤ doneKind done) || partLs src || partLs dst
            || fld (wordAt ws 11) 57 7 != 0 || (wordAt ws 11).toNat % 8 != 0
        | _ => false)

/-- Whether a CWAIT packet of a queue has not completed. -/
def Queue.waits (Q : Queue) : Bool := Q.runs.any (fun r => r.typ == 4)

/-- Reads the slots of the packet at RPTR. -/
def State.readPacket (s : State) (Q : Queue) (n : Nat) : State × Option (List W64) :=
  (List.range n).foldl (fun (r : State × Option (List W64)) i =>
    match r with
    | (s, none) => (s, none)
    | (s, some ws) => match s.readWords Q.part (Q.slotVa (Q.rptr.toNat + i)) 8 with
      | (s, some x) => (s, some (ws ++ x))
      | (s, none) => (s, none)) (s, some [])

/-- A slot or record that cannot be read stops the queue with FAULT and a record of KIND 8. -/
def State.queueFault (s : State) (q va : Nat) : State := (s.mcRecord 8 (s.queue q).part va 0 0).queueError q 4

/-- The packet begins: RPTR passes its slots, and it runs (rule R374). -/
def State.startPacket (s : State) (q n : Nat) (ws : List W64) : State :=
  let h := wordAt ws 0
  let r : PRun := { rid := s.nextId, typ := fld h 56 8, irq := fld h 52 1 == 1, tag := w32 (fld h 0 32), words := ws, time := s.now }
  let s := { s with nextId := s.nextId + 1, turn := (q + 1) % 64 }.updQueue q (fun Q => { Q with rptr := Q.rptr + w32 n, runs := Q.runs ++ [r] })
  s.record (s.queue q).part true (srcNo 3 0 0) 0x40 (fld h 0 32) (w64 q) (w64 r.typ)

/-- PACKET_BEGIN (rules R374, R376): the packet at RPTR, once WPTR covers it, no CWAIT before it is open, and, with BAR, every
earlier packet is complete. -/
def packetBegin (q : Nat) (s : State) : State :=
  let Q := s.queue q
  let avail := (Q.wptr - Q.rptr).toNat
  if !Q.en || Q.err != 0 || avail = 0 || Q.waits || (List.range 4).any (fun i => s.pathHeld Q.part (Q.slotVa (Q.rptr.toNat + i)) 64) then s
  else if Q.slots < avail then s.queueError q 3
  else match s.readPacket Q 1 with
    | (s, none) => s.queueFault q (Q.slotVa Q.rptr.toNat)
    | (s, some hs) =>
      let h := wordAt hs 0
      let typ := fld h 56 8
      let n := fld h 54 2 + 1
      if typ = 0 || 7 < typ then s.queueError q 1
      else if headerBad h then s.queueError q 2
      else if avail < n || (fld h 53 1 == 1 && !Q.runs.isEmpty) then s
      else match s.readPacket Q n with
        | (s, none) => s.queueFault q (Q.slotVa Q.rptr.toNat)
        | (s, some ws) =>
          if packetBad ws then s.queueError q 2
          else if typ = 2 && s.pathHeld Q.part (wordAt ws 1).toNat 128 then s
          else if typ = 2 then
            match s.readWords Q.part (wordAt ws 1).toNat 16 with
            | (s, none) => s.queueFault q (wordAt ws 1).toNat
            | (s, some _) => s.startPacket q n ws
          else s.startPacket q n ws
def execPacketBegin (q : Nat) (s : State) : Res := .next (packetBegin q s)

/-- A running packet of a type. -/
def State.running (s : State) (q rid typ : Nat) : Option PRun :=
  (s.queue q).runs.find? (fun r => r.rid == rid && r.typ == typ)

/-- Notes that a packet's launch, graph or copy has been handed on. -/
def State.handed (s : State) (q rid : Nat) : State :=
  s.updQueue q (fun Q => { Q with runs := updIf Q.runs (fun r => r.rid == rid) (fun r => { r with begun := true }) })

/-- PACKET_NOP. -/
def execPacketNop (q rid : Nat) (s : State) : Res :=
  .next (match s.running q rid 1 with | some _ => s.packetDone q rid | none => s)

/-- PACKET_LAUNCH: the record goes to the Caravan. -/
def packetLaunch (q rid : Nat) (s : State) : State :=
  match s.running q rid 2 with
  | none => s
  | some r => if r.begun then s else ((s.submit (s.queue q).part (.packet q rid r.irq) (wordAt r.words 1).toNat).1).handed q rid
def execPacketLaunch (q rid : Nat) (s : State) : Res := .next (packetLaunch q rid s)

/-- PACKET_GRAPH: the graph starts at its first node. -/
def packetGraph (q rid : Nat) (s : State) : State :=
  match s.running q rid 3 with
  | none => s
  | some r =>
    if r.begun then s
    else
      let g : Graph := { gid := s.nextId, q := q, rid := rid, part := (s.queue q).part, node := (wordAt r.words 1).toNat
                         limit := fld (wordAt r.words 2) 0 32, status := (wordAt r.words 3).toNat }
      { s with nextId := s.nextId + 1, graphs := s.graphs.set s.nextId g }.handed q rid
def execPacketGraph (q rid : Nat) (s : State) : Res := .next (packetGraph q rid s)

/-- PACKET_CWAIT: the packet completes once its counter has reached its target. -/
def packetCwait (q rid : Nat) (s : State) : State :=
  match s.running q rid 4 with
  | none => s
  | some r =>
    if s.pathHeld (s.queue q).part (wordAt r.words 1).toNat 8 then s
    else match s.readVa (s.queue q).part (wordAt r.words 1).toNat 8 with
      | (s, some b) => if (wordAt r.words 2).toNat ≤ numOf b then s.packetDone q rid else s
      | (s, none) => s
def execPacketCwait (q rid : Nat) (s : State) : Res := .next (packetCwait q rid s)

/-- PACKET_CADD: the amount is added; an addition that cannot be made is dropped with a record of KIND 13. -/
def packetCadd (q rid : Nat) (s : State) : State :=
  match s.running q rid 5 with
  | none => s
  | some r =>
    let part := (s.queue q).part
    let va := (wordAt r.words 1).toNat
    if s.pathHeld part va 8 then s else (orRecord part va (s.caravanAdd part va (wordAt r.words 2).toNat)).packetDone q rid
def execPacketCadd (q rid : Nat) (s : State) : Res := .next (packetCadd q rid s)

/-- PACKET_TIMESTAMP: the time at which the packet began is written. -/
def packetTimestamp (q rid : Nat) (s : State) : State :=
  match s.running q rid 7 with
  | none => s
  | some r =>
    let part := (s.queue q).part
    let va := (wordAt r.words 1).toNat
    if s.pathHeld part va 8 then s else ((s.writeVa part va (bytesOf r.time 8)).1).packetDone q rid
def execPacketTimestamp (q rid : Nat) (s : State) : Res := .next (packetTimestamp q rid s)

/-- The core whose engine runs a packet's copy: the one with the fewest copies, the lowest on a tie. -/
def State.copyCore (s : State) (part : Nat) : Option Nat :=
  let load (c : Nat) : Nat := (s.core c).eng0.length + (s.core c).eng1.length
  (s.partCores part).foldl (fun (b : Option Nat) c => match b with
    | none => some c
    | some d => if load c < load d then some c else some d) none

/-- PACKET_COPY: the copy enters an engine of a core of the partition. -/
def packetCopy (q rid : Nat) (s : State) : State :=
  match s.running q rid 6 with
  | none => s
  | some r =>
    let part := (s.queue q).part
    match s.copyCore part with
    | none => s
    | some core =>
      let k := s.core core
      if r.begun || decide (32 ≤ (k.eng (k.pickEngine 0)).length) then s
      else
        let c : Copy := { id := s.nextId, ticket := 0, tid := 0, lid := 0, part := part, core := core, slot := 0, gid := 0, split := 0,
                          kind := fld (wordAt r.words 1) 0 2, src := (r.words.drop 2).take 4, dst := (r.words.drop 6).take 4
                          srec := [], drec := [], done := wordAt r.words 10, queue := some (q, rid) }
        match s.issueCopy c with
        | (s, some d) => ({ s with nextId := s.nextId + 1 }.pushCopy d).handed q rid
        | (s, none) => s
def execPacketCopy (q rid : Nat) (s : State) : Res := .next (packetCopy q rid s)

/-! ### Task graphs (rules R384, R385) -/

/-- Whether a node breaks rule R384. -/
def nodeBad (ws : List W64) : Bool :=
  let n := fld (wordAt ws 1) 0 3
  let selm := fld (wordAt ws 1) 6 2
  fld (wordAt ws 0) 57 7 != 0 || (wordAt ws 0).toNat % 128 != 0 || fld (wordAt ws 1) 8 56 != 0 || fld (wordAt ws 1) 3 3 != 0
    || decide (2 ≤ selm) || n == 0 || decide (4 < n) || (selm == 1 && n != 2)
    || (List.range 4).any (fun i => (wordAt ws (3 + i)).toNat % 64 != 0) || wordAt ws 7 != 0

/-- The successor that a result selects. -/
def nextNode (ws : List W64) (result : W64) : W64 :=
  let i := if fld (wordAt ws 1) 6 2 = 0 then Nat.min result.toNat (fld (wordAt ws 1) 0 3 - 1)
    else if (wordAt ws 2).toNat ≤ result.toNat then 1 else 0
  wordAt ws (3 + i)

/-- The graph ends: its status is written, and its packet completes. -/
def State.endGraph (s : State) (g : Graph) (code : Nat) : State :=
  let b := bytesOf (at_ code 56 + g.runs) 8 ++ bytesOf g.last 8
  let s := if g.status = 0 then s else (s.writeVa g.part g.status b).1
  { s with graphs := s.graphs.erase g.gid }.packetDone g.q g.rid

/-- GRAPH_NEXT_NODE: a node is read and launched, or the launch of the last one has completed and chooses the next. -/
def graphNext (gid : Nat) (s : State) : State :=
  match s.graphs.find gid with
  | none => s
  | some g =>
    if s.pathHeld g.part g.node 64 || (g.status != 0 && s.pathHeld g.part g.status 16) then s
    else if g.waiting then
      if g.code = 0 then s
      else if g.code != 1 && g.code != 2 then s.endGraph g g.code
      else
        let result := match g.lid.bind s.launches.find with | some L => L.result | none => 0
        let next := nextNode g.words result
        if next == 0 then s.endGraph g 1
        else { s with graphs := s.graphs.set gid { g with node := next.toNat, waiting := false, lid := none, code := 0 } }
    else match s.readWords g.part g.node 8 with
      | (s, none) => s.endGraph g 3
      | (s, some ws) =>
        let g := { g with last := g.node, words := ws }
        if nodeBad ws then s.endGraph g 3
        else if g.runs = g.limit then s.endGraph g 6
        else
          let q := s.submit g.part (.graph gid) (fld (wordAt ws 0) 0 57)
          { q.1 with graphs := q.1.graphs.set gid { g with waiting := true, runs := g.runs + 1 } }
def execGraphNextNode (gid : Nat) (s : State) : Res := .next (graphNext gid s)

end Sys2Proof.Machine
end

