-- ==== Sys2Proof/Machine/Links.lean ====
section
/-! DEFINITION. UALink ports and transactions between packages, and the host's accesses to memory (rules R434 to R445). -/

namespace Sys2Proof.Machine

/-! ### Reach (rules R436, R440) -/

/-- Gives the flows whose port is down to usable ports of their masks (rule R440): their transactions are sent again there. Where no port
is usable they stay, and move when one comes. -/
def State.moveFlows (s : State) : State :=
  { s with xacts := s.xacts.map (fun x =>
      if (s.port x.port).state != 0 then x
      else match s.usablePorts x.pkg with
        | [] => x
        | ps => { x with port := ps.getD ((x.core ^^^ x.pkg) % ps.length) 0 }) }

/-- What a change of the ports or of UROUTE does to the traffic: the flows of ports that are down move, and it is noted since when no usable
port has reached each package. -/
def State.noteReach (s : State) : State :=
  let s := s.moveFlows
  let pkgs := (s.uroute.map (fun e => e.1)) ++ (s.lostSince.map (fun e => e.1)) ++ (s.xacts.map (fun x => x.pkg))
  { s with lostSince := pkgs.foldl (fun t p =>
      if (s.usablePorts p).isEmpty then (match t.find p with | some _ => t | none => t.set p s.now) else t.erase p) s.lostSince }

/-! ### Port states (rule R439) -/

/-- The thresholds of a port; 0 acts as 1. -/
def Port.crcThr (p : Port) : Nat := Nat.max 1 (fld p.ctl 0 8)
def Port.repThr (p : Port) : Nat := Nat.max 1 (fld p.ctl 8 8)
def Port.repen (p : Port) : Bool := fld p.ctl 62 1 == 1

/-- The next narrower width; 0 where none is left. -/
def narrower (w : Nat) : Nat := if w = 4 then 2 else if w = 2 then 1 else 0

/-- A port that is down: it keeps its control register, and the lane repair that the configuration block records (rule R435). -/
def Port.down (p : Port) : Port := { ctl := p.ctl, spare := p.spare, replaced := p.replaced }

/-- Takes a port down. -/
def State.portDown (s : State) (j : Nat) : State := (s.updPort j Port.down).noteReach

/-- Retrains a port at the next narrower width, or takes it down where there is none; the buffer is kept. -/
def State.retrain (s : State) (j : Nat) : State :=
  let w := narrower (s.port j).width
  if w = 0 then s.portDown j else (s.updPort j (fun p => { p with state := 1, width := w, fails := 0 })).noteReach

/-- Changes a port that exists, and notes what it reaches. -/
def State.onPort (s : State) (j : Nat) (f : Port → Port) : State := if j < 12 then (s.updPort j f).noteReach else s

/-- The errors of the millisecond that ends now, and how many of them are a lane's. -/
def Port.lately (p : Port) (now : Nat) : List (Nat × Nat) := p.errs.filter (fun e => decide (now < e.2 + 1000000))
def Port.errors (p : Port) (now lane : Nat) : Nat := ((p.lately now).filter (fun e => e.1 == lane)).length

/-- An error of a lane: the port replays. -/
def Port.lapse (p : Port) (now lane : Nat) : Port :=
  { p with errs := p.lately now ++ [(lane, now)], replays := satAdd p.replays 1 32, buffer := true }

/-- FLIT_CRC_FAIL on one of the five physical lanes: the port replays; a failure while a repair waits is a failed replay. -/
def execFlitCrcFail (port lane : Nat) (s : State) : Res :=
  .next (if 5 ≤ lane then s else s.onPort port (fun p => match p.state with
    | 2 | 3 => { p.lapse s.now lane with state := 3 }
    | 4 => { p.lapse s.now lane with fails := p.fails + 1 }
    | _ => p))

/-- REPLAY_DRAINED. -/
def execReplayDrained (port : Nat) (s : State) : Res :=
  .next (s.onPort port (fun p => match p.state with
    | 3 => { p with state := 2, buffer := false }
    | 4 => { p with state := 5, buffer := false, fails := 0 }
    | _ => p))

/-- LANE_REPAIR_TRIGGER: a repair that waits for the replay counts the replays that fail from then on. -/
def execLaneRepairTrigger (port lane : Nat) (s : State) : Res :=
  .next (s.onPort port (fun p =>
    if !p.repen || !p.peer || p.spare || decide (5 ≤ lane) || decide (p.errors s.now lane < p.crcThr) then p
    else match p.state with
      | 2 => { p with state := 5, lane := lane }
      | 3 => { p with state := 4, lane := lane, fails := 0 }
      | _ => p))

/-- REPLAY_FAIL_THRESHOLD. -/
def execReplayFailThreshold (port : Nat) (s : State) : Res :=
  .next (s.onPort port (fun p => if p.state == 4 && decide (p.repThr ≤ p.fails) then { p with state := 5, fails := 0 } else p))

/-- The configuration block records a lane repair (rules R435, R462): firmware writes the field part into the other copy, and where that
copy verifies it is the one in force. DESIGN CHOICE: the update is made in one step (log entry 146). -/
def State.recordRepair (s : State) (port lane : Nat) : State :=
  let c := 1 - s.cfgCopy
  let b := Config.fieldWith s.identity s.mirror port lane
  let put (t : Tab Byte) (x : Byte × Nat) : Tab Byte := t.set ((Config.copyRange c).1 + x.2) x.1
  if Config.vendorVerifies b && Config.fieldVerifies s.identity b && decide (b.length = (Config.copyRange c).2) then
    { s with flash := b.zipIdx.foldl put s.flash, cfgCopy := c, mirror := b }
  else s

/-- REPAIR_COMPLETE. -/
def execRepairComplete (port : Nat) (s : State) : Res :=
  .next (if port < 12 && (s.port port).state == 5 then
    (s.onPort port (fun p => { p with state := if p.buffer then 3 else 2, spare := true, replaced := p.lane, errs := [] })).recordRepair port (s.port port).lane
  else s)

/-- REPAIR_FAIL. -/
def execRepairFail (port : Nat) (s : State) : Res := .next (if port < 12 && (s.port port).state == 5 then s.retrain port else s)

/-- LANE_FAIL. -/
def execLaneFail (port : Nat) (s : State) : Res :=
  let p := s.port port
  .next (if port < 12 && (p.state == 2 || p.state == 3) && (p.spare || !p.peer || !p.repen) then s.retrain port else s)

/-- The width that a first training negotiates (rule R434). DESIGN CHOICE: a free value among 4, 2 and 1 (log entry 154). -/
def trainedWidth (x : W64) : Nat := match x.toNat % 3 with | 0 => 4 | 1 => 2 | _ => 1

/-- TRAINING_COMPLETE: a port that retrains has its width; a first training negotiates one. -/
def execTrainingComplete (port : Nat) (celuno : Bool) (s : State) : Res :=
  .next (if port < 12 && (s.port port).state == 1 then
    let q := if (s.port port).width = 0 then (trainedWidth s.drawFree.1, s.drawFree.2) else ((s.port port).width, s)
    q.2.onPort port (fun p => { p with state := if p.buffer then 3 else 2, width := q.1, peer := celuno, replays := 0 })
  else s)

/-- PORT_DOWN: no width trains. -/
def execPortDown (port : Nat) (s : State) : Res := .next (if port < 12 then s.portDown port else s)

/-- UPCTL_ENABLE: a write of UPCTL; EN starts training, and EN = 0 takes the port down. -/
def State.writeUpctl (s : State) (port : Nat) (v : W64) : State :=
  if 12 ≤ port then s
  else
    let ctl := w64 (at_ (fld v 62 2) 62 + fld v 0 16)
    let was := fld (s.port port).ctl 63 1
    let s := s.updPort port (fun p => { p with ctl := ctl })
    if fld v 63 1 == 0 then s.portDown port
    else if was == 0 then s.onPort port (fun p => { p with state := 1, width := 0 })
    else s
def execUpctlEnable (port : Nat) (v : W64) (s : State) : Res := .next (s.writeUpctl port v)

/-! ### Transactions (rules R437, R438, R440, R441) -/

/-- Whether an incoming access may be made now: its line is in an enabled region, and no copy owns it. -/
def State.deviceOk (s : State) (a n : Nat) : Bool := decide (a + n ≤ Config.deviceBytes) && s.interleaved a && s.interleaved (a + n - 1)

/-- The entries of a partition's table that a lookup can find (rules R279, R280). -/
def State.tableEntries (s : State) (part : Nat) : List TlbEnt :=
  let ttb := (s.part part).ttb
  let base := fld ttb 25 27 * 2 ^ 25
  s.mem.filterMap (fun c =>
    if base ≤ c.1 ∧ c.1 < base + 2 ^ 25 ∧ c.1 % 32 = 7 ∧ 128 ≤ c.2.toNat then
      let e := c.1 - 7
      let w0 := w64 (numOf (memBytes s.mem e 8))
      let size := fld w0 58 2
      let va := fld w0 0 41 * 65536
      if fld ttb (60 + size) 1 == 1 && bucketOf va size == (e - base) / 128 && !s.poisoned e 32 then
        matchBucket part va size (memBytes s.mem e 32) (fun _ => false)
      else none
    else none)

/-- The entry by which a partition's table maps a device address with a permission (rule R442). -/
def State.mapping (s : State) (part pa : Nat) (write : Bool) : Option TlbEnt :=
  (s.tableEntries part).find? (fun e => decide (e.frame ≤ pa) && decide (pa < e.frame + pageBytes e.size) && (if write then e.wr else e.rd))

/-- The second place of a device line that a partition's table says is migrating, with its bit (rule R282). -/
def State.migAt (s : State) (pa : Nat) : Option (Nat × Nat) :=
  (List.range 8).findSome? (fun p => (s.tableEntries p).findSome? (fun e =>
    if e.frame ≤ pa ∧ pa < e.frame + pageBytes e.size then migOf e.mig e.frame pa else none))

/-- The L2 without the lines that a host writes (rule R335). -/
def State.l2Drop (s : State) (lines : List Nat) : State := { s with l2 := s.l2.filter (fun t => !(lines.any (fun l => l == t.line))) }

/-- A write by an agent outside the package at a physical address, at both places of a line of a migrating page (rules R282, R337). -/
def State.outsideWrite (s : State) (part a : Nat) (b : List Byte) : State :=
  (lineRuns a b).foldl (fun s x =>
    let s' := s.homeWrite part 0 (cellsAt x.1 x.2) []
    match s'.migDup (s.migAt x.1) with
    | some n => s'.homeWrite part 0 (cellsAt (n + x.1 % 128) x.2) []
    | none => s') s

/-- The old values that the lanes of one update of rule R304 find, and the value that it leaves. -/
def atomFold (opc n : Nat) (v : Nat) (bs : List W64) : List Nat × Nat :=
  bs.foldl (fun (r : List Nat × Nat) b => (r.1 ++ [r.2], atomOp opc n r.2 b.toNat 0)) ([], v)

/-- The promotion of a line for an acquire of another package (rules R329, R330): every core of this one that holds it with LREL, or is
recorded at its home, acts as a release and clears LREL, and then the record is cleared. Whether all of them have. -/
def State.promoteFor (s : State) (line : Nat) : State × Bool :=
  let acts (s : State) (c : Nat) : Bool := ((s.core c).l1line line).any (fun x => x.lrel) || (s.lrelHome.get [] line).contains c
  let r := (List.range Config.coresPerPackage).foldl (fun (r : State × Bool) c =>
    if !acts r.1 c then r
    else match r.1.coreRelease c with
      | (s, false) => (s, false)
      | (s, true) => (s.updCore c (fun k => { k with l1 := updIf k.l1 (fun x => x.line == line) (fun x => { x with lrel := false }) }), r.2)) (s, true)
  if r.2 then ({ r.1 with lrelHome := r.1.lrelHome.erase line }, true) else r

/-- Performs a transaction of package `src` (rules R434, R437, R438): reads and writes of 1 to 256 bytes, atomics and deliveries; no answer
while a copy owns a line of it, or while cores that an acquire promotes have not released. -/
def State.performRemote (s : State) (src : Nat) (op : RemoteOp) : State × Option Reply :=
  let busy (s : State) (a n : Nat) : Bool := (unitsOf 128 (cellsAt a (List.replicate n 0))).any s.owned
  let atom (a n : Nat) (prom : Bool) (f : State → Nat → State × Reply) : State × Option Reply :=
    if a % n != 0 || !(s.deviceOk a n) then (s, some .unsupported)
    else
      let r := if prom then s.promoteFor (a / 128) else (s, true)
      if !r.2 || busy r.1 a n then (r.1, none)
      else
        let q := r.1.homeRead a n
        if q.1.poisoned a n then (q.1.readPoison 0 0 a n, some .poisoned)
        else let t := f q.1 (numOf q.2); (t.1, some t.2)
  match op with
  | .write a b bad =>
    if b.isEmpty || decide (256 < b.length) || !(s.deviceOk a b.length) then (s, some .unsupported)
    else if busy s a b.length then (s, none)
    else
      let s := s.outsideWrite 0 a b
      ({ s with poison := (bad.filter (fun g => overlap (32 * g) 32 a b.length)).foldl addNew s.poison }, some .ack)
  | .read a n =>
    if n = 0 || decide (256 < n) || !(s.deviceOk a n) then (s, some .unsupported)
    else if busy s a n then (s, none)
    else
      let q := s.homeRead a n
      if q.1.poisoned a n then (q.1.readPoison 0 0 a n, some .poisoned) else (q.1, some (.bytes q.2))
  | .atomic a opc wide b c prom =>
    let n := if wide then 8 else 4
    atom a n prom (fun s o =>
      (if opc.toNat = 15 then s else s.outsideWrite 0 a (bytesOf (atomOp opc.toNat n o b.toNat c.toNat) n), .value (w64 o)))
  | .atomics a opc wide bs prom =>
    let n := if wide then 8 else 4
    atom a n prom (fun s o =>
      let r := atomFold opc.toNat n o bs
      (s.outsideWrite 0 a (bytesOf r.2 n), .bytes ((r.1.map (fun x => bytesOf x n)).flatten)))
  | .deliver cap mask lo hi pair rel =>
    if s.saveHeld cap pair then (s, none)
    else
      let q := s.decideDelivery cap pair mask lo hi (if rel then at_ (src % 1024) 14 else capPlace cap)
      (q.1, some (.value (w64 q.2)))

/-- UALINK_TRANSACTION_RECEIVE (rule R437): performed in sequence; one performed before gets its stored response again. -/
def transactionReceive (src flow seq : Nat) (op : RemoteOp) (s : State) : State :=
  let key := 2048 * src + flow
  let next := s.flowIn.get 0 key
  if seq < next then
    match s.responses.find? (fun r => r.1 == (src, flow, seq)) with
    | some r => { s with replies := s.replies ++ [r.2] }
    | none => s
  else if next < seq then s
  else match s.performRemote src op with
    | (s, none) => s
    | (s, some r) => { s with flowIn := s.flowIn.set key (seq + 1), responses := s.responses ++ [((src, flow, seq), r)], replies := s.replies ++ [r] }
def execUalinkTransactionReceive (src flow seq : Nat) (op : RemoteOp) (s : State) : Res := .next (transactionReceive src flow seq op s)

/-- A write that a core sent is done, for each instruction whose bytes it carries (rules R257, R336). -/
def State.writeDone (s : State) (c : Nat) (h : HomeWrite) : State :=
  h.also.foldl (fun s x => s.noteDone c x.1 x.2.1) (s.noteDone c h.gid h.split)

/-- WRITE_ACK (rule R438): the write, or an engine's addition to a counter, has taken effect at its home. -/
def writeAck (xid : Nat) (s : State) : State :=
  match s.xacts.find? (fun x => x.xid == xid) with
  | none => s
  | some x =>
    match x.op with
    | .write .. =>
      let done := (s.core x.core).homeq.filter (fun h => h.xid == some xid)
      let s := { s with xacts := s.xacts.filter (fun y => y.xid != xid) }.updCore x.core (fun k =>
        { k with homeq := k.homeq.filter (fun h => h.xid != some xid) })
      done.foldl (fun s h => s.writeDone x.core h) s
    | .atomic .. =>
      if (s.core x.core).slots.any (fun e => e.2.gid == x.gid && e.2.infl.any (fun i => i.id == x.iid)) then s
      else { s with xacts := s.xacts.filter (fun y => y.xid != xid) }
    | _ => s
def execWriteAck (xid : Nat) (s : State) : Res := .next (writeAck xid s)

/-- Whether an address lies in a package's memory. -/
def inPkg (pkg a : Nat) : Bool := regionOf a == 1 && a / 2 ^ 40 % 1024 == pkg

/-- The record of a lost transaction. -/
def State.lostRecord (s : State) (core slot pa : Nat) : State := s.mcRecord 10 (s.partOf core) pa (s.placeOf core slot) 0

/-- The reads in flight of a group that wait for another package, with the lanes that do. -/
def Group.lostReads (G : Group) (pkg : Nat) : List (Inflight × List LaneA) :=
  (G.infl.map (fun i => (i,
    if i.kind == .load || i.kind == .cload || i.kind == .gather || i.kind == .atom then
      i.acc.lanes.filter (fun x => inPkg pkg x.addr && (i.kind == .atom || (cellAt i.acc.got (if i.kind == .cload then x.va else x.addr)).isNone))
    else []))).filter (fun r => !r.2.isEmpty)

/-- The reads of a core that are lost, one for each line (DESIGN CHOICE; log entry 147), each with the slot of the first that waits for it;
an atomic's updates are transactions of their own. -/
def Core.lostLines (k : Core) (pkg : Nat) : List (Nat × Nat) :=
  (k.slots.flatMap (fun e => (e.2.lostReads pkg).flatMap (fun r => if r.1.kind == .atom then [] else r.2.map (fun x => (e.1, x.addr / 128))))).foldl
    (fun ls x => if ls.any (fun y => y.2 == x.2) then ls else ls ++ [x]) []

/-- A read, gather or atomic declared lost (rule R440): its destination is zero, and POISON is raised; one without return only ends. -/
def State.loseRead (s : State) (c g : Nat) (i : Inflight) (x : LaneA) : State :=
  let s := s.updCore c (fun k => { k with packets := (k.packets.map (fun p =>
    { p with reqs := p.reqs.filter (fun r => !(r.slot == g && r.iid == i.id)) })).filter (fun p => p.write || !p.reqs.isEmpty) })
  s.finishRead c g { i with acc := { i.acc with bad := if i.kind == .atom && i.writes.isEmpty then none else some (addrInfo x.va) } } (fun _ => 0)

/-- The writes of a core to a package are dropped: their instructions end, and no release waits for them (rule R440). -/
def State.dropWrites (s : State) (c pkg : Nat) : State :=
  let away (h : HomeWrite) : Bool := h.cells.any (fun x => inPkg pkg x.1)
  let gone := (s.core c).homeq.filter away
  gone.foldl (fun s h => (s.storeLeft c h.gid h.iid).writeDone c h)
    (s.updCore c (fun k => { k with homeq := k.homeq.filter (fun h => !away h), prefs := k.prefs.filter (fun p => !inPkg pkg (128 * p.line)) }))

/-- The remote address of a lost transaction: of a delivery, which has none, the start of its package (DESIGN CHOICE; log entry 147). -/
def Xact.lostPa (x : Xact) : Nat :=
  2 ^ 50 + at_ x.pkg 40 + (match x.op with
    | .write a _ _ | .atomic a _ _ _ _ _ | .atomics a _ _ _ _ | .read a _ => a % 2 ^ 40
    | .deliver .. => 0)

/-- TRANSACTION_LOSS_TIMEOUT (rule R440): no usable port has reached a package for 10 ms. -/
def transactionLoss (pkg : Nat) (s : State) : State :=
  match s.lostSince.find pkg with
  | none => s
  | some t =>
    if !(s.usablePorts pkg).isEmpty || s.now < t + 10000000 then s
    else
      let s := (s.xacts.filter (fun x => x.pkg == pkg)).foldl (fun s x => s.lostRecord x.core x.slot x.lostPa) s
      let s := s.cores.foldl (fun s e => (e.2.lostLines pkg).foldl (fun s x => s.lostRecord e.1 x.1 (128 * x.2)) s) s
      let s := { s with xacts := s.xacts.filter (fun x => x.pkg != pkg) }
      let mine (d : Delivery) : Bool := d.outcome.isNone && placePkg (capPlace d.cap) == pkg
      let s := { s with deliveries := updIf s.deliveries mine (fun d => { d with outcome := some 1 }) }
      let s := s.cores.foldl (fun s e => s.dropWrites e.1 pkg) s
      s.cores.foldl (fun s e => e.2.slots.foldl (fun s x => (x.2.lostReads pkg).foldl (fun s r =>
        match r.2 with | y :: _ => s.loseRead e.1 x.1 r.1 y | [] => s) s) s) s
def execTransactionLossTimeout (pkg : Nat) (s : State) : Res := .next (transactionLoss pkg s)

/-! ### The host (rules R335, R442 to R445) -/

/-- Whether every line of a host access is mapped with its permission, in device memory. -/
def State.hostMay (s : State) (part addr n : Nat) (write : Bool) : Bool :=
  n != 0 && s.deviceOk addr n
    && (unitsOf 128 (cellsAt addr (List.replicate n 0))).all (fun l => (s.mapping part (Nat.max addr (128 * l)) write).isSome)

/-- HOST_BAR2_WRITE (rules R442, R444): the bytes take effect at their home, in both places of a migrating page. -/
def hostWrite (part addr : Nat) (bytes : List Byte) (s : State) : State :=
  let lines := unitsOf 128 (cellsAt addr bytes)
  if s.hostWaits part || lines.any s.owned then s
  else if !(s.hostMay part addr bytes.length true) then { s with replies := s.replies ++ [.unsupported] }
  else
    ((s.outsideWrite part addr bytes).l2Drop lines).hostUsed part bytes.length
def execHostBar2Write (part addr : Nat) (bytes : List Byte) (s : State) : Res := .next (hostWrite part addr bytes s)

/-- The bytes of a host read at the home; a poisoned granule's are free values. -/
def State.hostBytes (s : State) (part pa n : Nat) : State × List Byte :=
  let q := s.homeRead pa n
  if q.1.poisoned pa n then
    let f := q.1.drawBytes n
    (f.1.readPoison part 0 pa n, (List.range n).map (fun i => if f.1.poisoned (pa + i) 1 then f.2.getD i 0 else q.2.getD i 0))
  else q

/-- HOST_BAR2_READ (rules R442, R445): a read at the home; all ones where the table does not map the address as readable. -/
def hostRead (part addr n : Nat) (s : State) : State :=
  let lines := unitsOf 128 (cellsAt addr (List.replicate n 0))
  if s.hostWaits part || lines.any s.owned then s
  else if !(s.hostMay part addr n false) then { s with replies := s.replies ++ [Reply.unsupported, Reply.bytes (List.replicate n 0xFF)] }
  else
    let q := s.hostBytes part addr n
    ({ q.1 with replies := q.1.replies ++ [Reply.bytes q.2] } : State).hostUsed part n
def execHostBar2Read (part addr n : Nat) (s : State) : Res := .next (hostRead part addr n s)

/-- Whether a host's coherent access reaches a line of device or host memory. -/
def State.cxlOk (s : State) (pa n : Nat) : Bool :=
  n != 0 && (if regionOf pa == 2 then decide ((pa % 2 ^ 50) + n ≤ 2 ^ 50) else decide (pa < 2 ^ 50) && s.deviceOk pa n)

/-- The partition whose HOST budget a host's coherent access uses: the lowest whose table maps the line (log entry 93). -/
def State.hostPart (s : State) (pa : Nat) : Option Nat :=
  (List.range 8).find? (fun p => (s.mapping p pa false).isSome || (s.mapping p pa true).isSome)

/-- CXL_CACHE_WRITE (rules R335, R337, R394, R444): a host's coherent write completes, and the sharers are invalidated; the host keeps the
lines it holds. -/
def cxlWrite (pa : Nat) (bytes : List Byte) (s : State) : State :=
  let p := s.hostPart pa
  let lines := unitsOf 128 (cellsAt pa bytes)
  if !(s.cxlOk pa bytes.length) || lines.any s.owned || p.any s.hostWaits then s
  else
    let t := (s.outsideWrite (p.getD 0) pa bytes).l2Drop lines
    { (match p with | some p => if regionOf pa == 2 then t else t.hostUsed p bytes.length | none => t) with hostHeld := s.hostHeld }
def execCxlCacheWrite (pa : Nat) (bytes : List Byte) (s : State) : Res := .next (cxlWrite pa bytes s)

/-- HOST_CXL_MEM_READ (rules R443, R445): the host reads a line at its home and may hold it; the directory records it. -/
def cxlRead (pa : Nat) (s : State) : State :=
  let a := pa / 128 * 128
  let p := s.hostPart pa
  if regionOf pa != 0 || !(s.deviceOk a 128) || s.owned (a / 128) || p.any s.hostWaits then s
  else
    let q := s.hostBytes 0 a 128
    { (match p with | some p => q.1.hostUsed p 128 | none => q.1) with hostHeld := addNew q.1.hostHeld (a / 128), replies := q.1.replies ++ [Reply.bytes q.2] }
def execHostCxlMemRead (pa : Nat) (s : State) : Res := .next (cxlRead pa s)

end Sys2Proof.Machine
end

