-- ==== Sys2Proof/Machine/Manage.lean ====
section
/-! DEFINITION. Telemetry, reset, the control space of PF 0 and its registers, the signed configuration block, and the SMBus commands
(rules R10, R432, R433, R447 to R465). -/

namespace Sys2Proof.Machine

/-! ### Stall codes and the passing of cycles (rules R167, R454) -/

/-- The state code of a live split in the current cycle (rule R167); `stall` is the code that its next instruction last had. -/
def State.stallCode (s : State) (c g : Nat) (G : Group) (p : Split) : Nat :=
  let i := (s.core c).islots.get {} (g % 4)
  if p.stall == 0 && p.since == s.cycle then 0
  else match G.stateCode p with
    | some code => code
    | none => if decide (i.since < s.cycle) && decide (s.cycle < i.busy) && (i.cur.map (fun x => x.1)) != some g then 16 else 15

/-- Counts the split-cycles of `n` cycles (rule R454, EVT 3); the cycle in which a split issued has code 0, and those after it the
code it has then. -/
def State.countStalls (s : State) (n : Nat) : State :=
  let sel (p i : Nat) : Option Nat :=
    let x := (s.part p).pcsel.get 0 i
    if fld x 63 1 == 1 && fld x 0 8 == 3 then some (fld x 8 5) else none
  let at' (t : State) (p code : Nat) : Nat := ((List.range Config.coresPerPackage).map (fun c =>
    if s.partOf c != p then 0
    else ((t.core c).slots.map (fun e => (e.2.splits.filter (fun q => t.stallCode c e.1 e.2 q == code)).length)).sum)).sum
  let later : State := { s with cycle := s.cycle + 1 }
  (List.range 8).foldl (fun (r : State) p =>
    (List.range 16).foldl (fun (r : State) i => match sel p i with
      | none => r
      | some code =>
        let k := if n = 0 then 0 else at' s p code + (n - 1) * at' later p code
        r.updPart p (fun P => { P with pcnt := P.pcnt.set i (P.pcnt.get 0 i + w64 k) })) r) s


/-! ### Program-counter sampling (rule R453) -/

/-- The sampling interval of a partition, in core cycles. -/
def Part.sampleEvery (P : Part) : Nat := 2 ^ Nat.min 24 (Nat.max 8 (fld P.sampctl 0 5))

/-- PC_SAMPLE: at the slot's phase, the next resident group of the slot in turn, with its lowest-coded split. -/
def pcSample (core islot : Nat) (s : State) : State :=
  let p := s.partOf core
  let P := s.part p
  let k := s.core core
  let mine := k.slots.filter (fun e => e.1 % 4 == islot)
  let i := k.islots.get {} islot
  let due := s.cycle % P.sampleEvery == (7 * (core % 96) + islot) % P.sampleEvery
  if fld P.sampctl 63 1 == 0 || !due || decide (Config.issueSlots ≤ islot) || k.power != .live then s
  else match ((mine.filter (fun e => decide (i.turn ≤ e.1))) ++ mine).head? with
    | none => s
    | some (g, G) =>
      let best := G.splits.foldl (fun (b : Option (Nat × Split)) q =>
        let code := s.stallCode core g G q
        match b with
        | none => some (code, q)
        | some x => if code < x.1 then some (code, q) else some x) none
      let s := s.updCore core (fun k => { k with islots := k.islots.set islot { i with turn := g + 1 } })
      match best with
      | none => s
      | some (code, q) =>
        s.record p false (srcNo 0 core islot) 1 (s.seqOf G.lid) (w64 (fld q.pc 0 57)) (w64 (at_ g 8 + at_ q.id 6 + code))
def execPcSample (core islot : Nat) (s : State) : Res := .next (pcSample core islot s)

/-- The samples that fall due in the next `n` cycles, each at its cycle's end. -/
def State.samples (s : State) (n : Nat) : State :=
  if s.parts.all (fun e => fld e.2.sampctl 63 1 == 0) then s
  else (List.range n).foldl (fun (t : State) j =>
    let t : State := { t with cycle := s.cycle + j }
    t.cores.foldl (fun t e => (List.range Config.issueSlots).foldl (fun t i => pcSample e.1 i t) t) t) s

/-- `n` core cycles pass: records that waited for a copy are written, the split-cycles are counted and their samples taken. -/
def State.elapse (s : State) (n : Nat) : State :=
  let s := s.landLate
  let r := if s.parts.any (fun e => e.2.pcsel.any (fun x => fld x.2 63 1 == 1 && fld x.2 0 8 == 3)) then s.countStalls n else s
  { r.samples n with cycle := s.cycle + n }

/-! ### Errors (rules R221, R261, R289, R458) and the timestamp (rule R447) -/

/-- An uncorrectable error arises in a part of the package (log entry 130): it is marked, and later reads find the mark. Only the mark of
an accumulator row is recorded at once (rules R221, R415). -/
def State.strike (s : State) (x : Strike) : State :=
  match x with
  | .granule g => if 32 * g < Config.deviceBytes then { s with poison := addNew s.poison g } else s
  | .word tid w => s.updTeam tid (fun T => if 8 * w < T.lsz then { T with lsBad := addNew T.lsBad w } else T)
  | .weight c b u => s.updCore c (fun k => k.setBank b { k.bank b with bad := addNew (k.bank b).bad u })
  | .index c b => s.updCore c (fun k => k.setBank b { k.bank b with metaMark := true })
  | .row c row =>
    if 512 ≤ row || (s.core c).marks.get 0 row == 1 then s
    else
      let vals (k : Core) : Tab W32 := (List.range 1024).foldl (fun t n => t.set (1024 * row + n) (w32 (Config.poisonedSum (s.free + n)).toNat)) k.acc
      ({ s with free := s.free + 1024 }.updCore c (fun k => { k.markRow row 2 with acc := vals k })).mcRecord 5 (s.partOf c) row (s.placeOf c 0) 0

/-- The field of CECOUNT that counts an error. -/
def errLo (e : ErrPlace) : Nat := match e with | .hbm => 48 | .l2 => 32 | .ls => 16

/-- CORRECTED_ERROR: the count saturates; where it becomes a multiple of THR, a record of KIND 11 is written. -/
def correctedError (place : ErrPlace) (pa : Nat) (s : State) : State :=
  let c := fld s.cecount (errLo place) 16
  let n := satAdd c 1 16
  let thr := fld s.cecount 0 16
  let t := { s with cecount := setFld s.cecount (errLo place) 16 n }
  if thr != 0 && n != c && n % thr == 0 then t.mcRecord 11 0 pa 0 (Config.syndrome pa) else t
def execCorrectedError (place : ErrPlace) (pa : Nat) (s : State) : Res := .next (correctedError place pa s)

/-- TIMESTAMP_SYNC: package 0 is the reference; every other takes the reference's reading. A reading never goes back: a package that is
ahead holds its reading until the reference has come up to it. -/
def timestampSync (ns : Nat) (s : State) : State :=
  if fld s.pkgid 0 10 == 0 then s
  else if s.now ≤ ns then { s with ts0 := ns, tsCycle := s.cycle }
  else { s with ts0 := s.now, tsCycle := s.cycle + 2 * (s.now - ns) }
def execTimestampSync (ns : Nat) (s : State) : Res := .next (timestampSync ns s)

/-! ### Boot: the configuration block and the firmware image (rules R462, R463) -/

/-- Bytes of flash. -/
def State.flashBytes (s : State) (r : Nat × Nat) : List Byte := (List.range r.2).map (fun i => s.flash.get 0xFF (r.1 + i))

/-- Whether both parts of a configuration copy verify: the vendor part under the firmware key, the field part under the identity key. -/
def State.copyOk (s : State) (b : List Byte) : Bool := Config.vendorVerifies b && Config.fieldVerifies s.identity b

/-- The configuration copy that is loaded: the one whose signatures verify and whose sequence number is higher. -/
def State.chooseCopy (s : State) : Option Nat :=
  let a := s.flashBytes (Config.copyRange 0)
  let b := s.flashBytes (Config.copyRange 1)
  if s.copyOk a && (!s.copyOk b || decide ((Config.copySequence b).toNat ≤ (Config.copySequence a).toNat)) then some 0
  else if s.copyOk b then some 1
  else none

/-- The spare maps and retired channels that a configuration copy records (rule R462). -/
def fieldMaps (b : List Byte) : FieldMaps := { rows := Config.fieldRows b, ways := Config.fieldWays b, channels := Config.fieldChannels b }

/-- The UALink lane repairs that a configuration copy records (rules R435, R462). -/
def fieldPorts (b : List Byte) : Tab Port :=
  (List.range 12).map (fun j =>
    let x := Config.fieldRepair b j
    (j, if x.getLsbD 3 then { spare := true, replaced := x.toNat % 4 } else {}))

/-- Whether the boot ROM accepts a firmware image. -/
def acceptsImage (mirror img : List Byte) : Bool :=
  Config.sha512 (Config.imageKey img) == Config.romDigest && Config.signatureVerifies img
    && decide ((Config.rollbackFloor mirror).toNat ≤ (Config.imageVersion img).toNat)

/-- Loads the configuration block at a cold reset, with the lane repairs and the spare maps of its field part (rule R460), and the firmware
image at any reset: slot 0, then slot 1, else recovery. -/
def State.boot (s : State) (cold : Bool) : State :=
  let s := if cold then
      match s.chooseCopy with
      | some c =>
        let b := s.flashBytes (Config.copyRange c)
        { s with cfgCopy := c, mirror := b, maps := fieldMaps b, ports := fieldPorts b }
      | none => s
    else s
  let i0 := s.flashBytes (Config.imageRange 0)
  let i1 := s.flashBytes (Config.imageRange 1)
  if acceptsImage s.mirror i0 then { s with imgSlot := 0, image := i0, rstate := .running }
  else if acceptsImage s.mirror i1 then { s with imgSlot := 1, image := i1, rstate := .running }
  else { s with rstate := .recovery }

/-! ### Reset (rules R424, R459, R460) -/

/-- Cores after a reset: their cycle counters start from 0 (rule R143), their arrays are idle from then on (R217), and a retired core stays
out of use. -/
def State.coresAfter (s : State) : Tab Core :=
  (List.range Config.coresPerPackage).map (fun c =>
    (c, { power := if (s.core c).power == .retired then .retired else .live, born := s.cycle, idleSince := s.cycle }))

/-- Ports after a reset: their registers at reset values, the lane repairs kept. -/
def State.portsAfter (s : State) : Tab Port := s.ports.mapV (fun p => { spare := p.spare, replaced := p.replaced })

/-- What both kinds of reset do outside memory and the timestamp: everything at its reset value, the launches, save slots, parked
continuations, fault batches and FORWARD slots gone, and a new capability key. -/
def State.restart (s : State) : State :=
  { State.reset with
    cycle := s.cycle, agenda := s.agenda, free := s.free, nextId := s.nextId
    cores := s.coresAfter, ports := s.portsAfter
    parts := (List.range 8).map (fun p => (p, { scopetab := w64 (Config.scopeVa p).toNat }))
    key := Config.drawKey s.keys, prevKey := s.key, keys := s.keys + 1, resets := s.resets + 1
    identity := Config.deriveIdentity s.resets
    flash := s.flash, imgSlot := s.imgSlot, image := s.image, cfgCopy := s.cfgCopy, mirror := s.mirror, maps := s.maps, replies := s.replies }

/-- A cold reset: the contents of HBM are lost, and the timestamp starts from 0. -/
def State.coldReset (s : State) : State := (({ s.restart with tsCycle := s.cycle, ports := [], maps := {} } : State).boot true).writeScopes

/-- The writes that wait in the cores, taken home before a warm reset, in the order in which they were queued. -/
def State.drainAll (s : State) : State :=
  let all : Tab (Nat × HomeWrite) := s.cores.foldl (fun t e => e.2.homeq.foldl (fun t h => t.set h.id (e.1, h)) t) []
  all.foldl (fun s x =>
    let h := x.2.2
    if (unitsOf 128 h.cells).any (fun l => regionOf (128 * l) == 1) then s
    else s.writeHome x.2.1 (s.placeOf x.2.1 h.slot) h.cells h.poison h.mig) s

/-- A warm reset (rule R459): the dirty lines of every L1 and stash window go to HBM; where the identity key differs from its new
derivation, the package takes a cold reset (rule R463). -/
def State.warmReset (s : State) : State :=
  let free (c : Copy) : Copy := { c with owned := [] }
  let core (k : Core) : Core := { k with eng0 := k.eng0.map free, eng1 := k.eng1.map free }
  let s : State := { s with cores := s.cores.mapV core }
  let s := (s.teams.map (fun e => e.1)).foldl (fun s t => s.unmapAll t) s
  let s := (((s.cores.map (fun e => e.1)).foldl (fun s c => s.l1Flush c) s).drainAll).landLate
  if Config.deriveIdentity s.resets != s.identity then s.coldReset
  else
    (({ s.restart with mem := s.mem, poison := s.poison, ts0 := s.ts0, tsCycle := s.tsCycle, warm := true, identity := s.identity } : State).boot false).writeScopes

def execPowerOn (s : State) : Res := .next s.coldReset
def execResetctlWarm (s : State) : Res := .next s.warmReset
def execPcieHotReset (s : State) : Res := .next s.warmReset

/-! ### The control space of PF 0 (rules R449, R450) -/

/-- A register of PF 0's space. -/
inductive RegAt where
  | mc (i : Nat)
  | cecount
  | resetctl
  | pkgid
  | upctl (j : Nat)
  | upstat (j : Nat)
  | partmap (n : Nat)
  | queue (q i : Nat)
  | uroute (p : Nat)
  | region (i : Nat)
  | part (p off : Nat)
  deriving DecidableEq, Repr

/-- The register at an offset of PF 0's space; none where the offset is reserved. -/
def regAt (off : Nat) : Option RegAt :=
  if off % 8 != 0 then none
  else if 0x400 ≤ off ∧ off < 0x428 then some (.mc ((off - 0x400) / 8))
  else if off = 0x428 then some .cecount
  else if off = 0x430 then some .resetctl
  else if off = 0x800 then some .pkgid
  else if 0x1000 ≤ off ∧ off < 0x10C0 then some (if off % 16 = 0 then .upctl ((off - 0x1000) / 16) else .upstat ((off - 0x1000) / 16))
  else if 0x2000 ≤ off ∧ off < 0x2600 then some (.partmap ((off - 0x2000) / 8))
  else if 0x4000 ≤ off ∧ off < 0x5000 then (if off % 64 < 40 then some (.queue ((off - 0x4000) / 64) (off % 64 / 8)) else none)
  else if 0x10000 ≤ off ∧ off < 0x12000 then some (.uroute ((off - 0x10000) / 8))
  else if 0x20000 ≤ off ∧ off < 0x20200 then some (.region ((off - 0x20000) / 8))
  else if 0x800000 ≤ off ∧ off < 0x880000 then some (.part ((off - 0x800000) / 65536) (off % 65536))
  else none

/-- A register of a partition's block that is kept as a word, or the parts of the block behind it. -/
inductive PartReg where
  | ctl | ttb | tlbinv | trapvec | trapend | pfring | pfwptr | pfrptr | pfdone | savepool | pbud0 | pbud1 | scopetab | preq0 | preq1 | sampctl
  | sample (i : Nat)
  | event (i : Nat)
  | pcsel (i : Nat)
  | pcnt (i : Nat)
  | scope (i : Nat)
  | queue (q i : Nat)
  | none
  deriving DecidableEq, Repr

/-- The register at an offset of a partition's block. -/
def partRegAt (off : Nat) : PartReg :=
  match off with
  | 0x00 => .ctl
  | 0x08 => .ttb
  | 0x10 => .tlbinv
  | 0x18 => .trapvec
  | 0x20 => .trapend
  | 0x28 => .pfring
  | 0x30 => .pfwptr
  | 0x38 => .pfrptr
  | 0x40 => .pfdone
  | 0x48 => .savepool
  | 0x50 => .pbud0
  | 0x58 => .pbud1
  | 0x60 => .scopetab
  | 0x68 => .preq0
  | 0x70 => .preq1
  | 0xF8 => .sampctl
  | _ =>
    if off % 8 != 0 then .none
    else if 0x100 ≤ off ∧ off < 0x128 then .sample ((off - 0x100) / 8)
    else if 0x140 ≤ off ∧ off < 0x168 then .event ((off - 0x140) / 8)
    else if 0x200 ≤ off ∧ off < 0x280 then .pcsel ((off - 0x200) / 8)
    else if 0x300 ≤ off ∧ off < 0x380 then .pcnt ((off - 0x300) / 8)
    else if 0x1000 ≤ off ∧ off < 0x1100 then .scope ((off - 0x1000) / 8)
    else if 0x2000 ≤ off ∧ off < 0x3000 ∧ off % 64 < 40 then .queue ((off - 0x2000) / 64) (off % 64 / 8)
    else .none

/-- The bits of a value that lie in the fields of a register, given as (lowest bit, length) (rule R10). -/
def keepBits (v : W64) (fs : List (Nat × Nat)) : W64 := w64 (fs.map (fun f => at_ (fld v f.1 f.2) f.1)).sum

/-! #### Reading -/

/-- The STATE of a queue (rule R371). -/
def State.queueState (s : State) (Q : Queue) : Nat :=
  let avail := (Q.wptr - Q.rptr).toNat
  if !Q.en then 0
  else if Q.err != 0 then 4
  else if avail = 0 then (if Q.runs.isEmpty then 1 else if Q.waits then 3 else 2)
  else
    let barred := match (s.readPacket Q 1).2 with
      | some ws => avail < fld (wordAt ws 0) 54 2 + 1 || (fld (wordAt ws 0) 53 1 == 1 && !Q.runs.isEmpty)
      | none => false
    if Q.waits || barred then 3 else 2

def State.readQueueReg (s : State) (q i : Nat) : W64 :=
  let Q := s.queue q
  match i with
  | 0 => Q.base
  | 1 => Q.ctl
  | 2 => w64 Q.wptr.toNat
  | 3 => w64 Q.rptr.toNat
  | _ => w64 (at_ (s.queueState Q) 60 + at_ Q.err 56 + Q.eslot.toNat)

def Ring.read (r : Ring) (i : Nat) : W64 :=
  match i with
  | 0 => r.base
  | 1 => r.ctl
  | 2 => w64 r.wptr.toNat
  | 3 => w64 r.rptr.toNat
  | _ => w64 r.drop.toNat

/-- UPSTAT of a port (rule R435). -/
def Port.stat (p : Port) : W64 :=
  w64 (at_ p.state 60 + at_ p.width 57 + (if p.peer then 2 ^ 56 else 0) + (if p.spare then 2 ^ 55 else 0) + at_ p.replaced 52 + p.replays)

/-- A register of a partition's block. -/
def State.readPart (s : State) (p : Nat) (r : PartReg) : W64 :=
  let P := s.part p
  match r with
  | .ctl => P.ctl
  | .ttb => P.ttb
  | .tlbinv => P.tlbinv
  | .trapvec => P.trapvec
  | .trapend => P.trapend
  | .pfring => P.pfring
  | .pfwptr => w64 P.pfwptr.toNat
  | .pfrptr => w64 P.pfrptr.toNat
  | .pfdone => 0
  | .savepool => P.savepool
  | .pbud0 => P.pbud0
  | .pbud1 => P.pbud1
  | .scopetab => P.scopetab
  | .preq0 => P.preq0
  | .preq1 => P.preq1
  | .sampctl => P.sampctl
  | .sample i => P.sample.read i
  | .event i => P.event.read i
  | .pcsel i => P.pcsel.get 0 i
  | .pcnt i => P.pcnt.get 0 i
  | .scope i => s.scopeWord (i / 4) (i % 4)
  | .queue q i => if (s.queue q).part == p then s.readQueueReg q i else 0
  | .none => 0

/-- Reads a word of PF 0's space; reserved offsets read zero (rule R450). -/
def State.readReg (s : State) (off : Nat) : W64 :=
  match regAt off with
  | none => 0
  | some (.mc i) => s.mc.read i
  | some .cecount => s.cecount
  | some .resetctl => s.resetctl
  | some .pkgid => s.pkgid
  | some (.upctl j) => (s.port j).ctl
  | some (.upstat j) => (s.port j).stat
  | some (.partmap n) => w64 (s.partOf n)
  | some (.queue q i) => s.readQueueReg q i
  | some (.uroute p) => s.uroute.get 0 p
  | some (.region i) => s.regions.get 0 i
  | some (.part p o) => s.readPart p (partRegAt o)

/-! #### Writing -/

def State.writeQueueReg (s : State) (q i : Nat) (v : W64) : State :=
  match i with
  | 0 => s.updQueue q (fun Q => { Q with base := keepBits v [(12, 45)] })
  | 1 => s.writeQctl q v
  | 2 => s.updQueue q (fun Q => { Q with wptr := w32 (fld v 0 32) })
  | 3 => if (s.queue q).en then s else s.updQueue q (fun Q => { Q with rptr := w32 (fld v 0 32) })
  | _ => s

/-- A write of a ring's register: WPTR is RO, DROP is W1C (rule R455). -/
def Ring.write (r : Ring) (i : Nat) (v : W64) : Ring :=
  match i with
  | 0 => { r with base := keepBits v [(12, 45)] }
  | 1 => { r with ctl := keepBits v [(63, 1), (0, 4)] }
  | 3 => { r with rptr := w32 (fld v 0 32) }
  | 4 => { r with drop := r.drop &&& ~~~(w32 (fld v 0 32)) }
  | _ => r

/-- A write of a partition's register, under its access codes. -/
def State.writePart (s : State) (p : Nat) (r : PartReg) (v : W64) : State :=
  let up (f : Part → Part) : State := s.updPart p f
  match r with
  | .ctl => up (fun P => { P with ctl := keepBits v [(1, 1)] })
  | .ttb => up (fun P => { P with ttb := keepBits v [(60, 4), (25, 27)] })
  | .tlbinv => tlbinvWrite p v s
  | .trapvec => up (fun P => { P with trapvec := keepBits v [(63, 1), (3, 54)] })
  | .trapend => up (fun P => { P with trapend := P.trapend &&& ~~~(keepBits v [(0, 32)]) })
  | .pfring => up (fun P => { P with pfring := keepBits v [(63, 1), (12, 45), (0, 4)] })
  | .pfrptr => up (fun P => { P with pfrptr := w32 (fld v 0 32) })
  | .pfdone =>
    if fld v 63 1 == 1 then pfdoneRefuse p (fld v 0 16) s
    else s.answer p (fld v 0 16) (fun q => if q.wait == .fault then { q with wait := .ready, stall := 8 } else q) id
  | .savepool => up (fun P => { P with savepool := keepBits v [(22, 35), (0, 12)] })
  | .pbud0 => up (fun P => { P with pbud0 := v })
  | .pbud1 => up (fun P => { P with pbud1 := keepBits v [(0, 16)] })
  | .preq0 => up (fun P => { P with preq0 := keepBits v [(0, 32)] })
  | .preq1 => preemptRequest p v s
  | .sampctl => up (fun P => { P with sampctl := keepBits v [(63, 1), (0, 5)] })
  | .sample i => up (fun P => { P with sample := P.sample.write i v })
  | .event i => up (fun P => { P with event := P.event.write i v })
  | .pcsel i => up (fun P => { P with pcsel := P.pcsel.set i (keepBits v [(63, 1), (0, 13)]) })
  | .pcnt i => up (fun P => { P with pcnt := P.pcnt.set i v })
  | .queue q i => if (s.queue q).part == p then s.writeQueueReg q i v else s
  | .pfwptr | .scopetab | .scope _ | .none => s

/-- The fields of word `w` of an interleave region (rule R287); a mask's bits [8:4] read as zero. -/
def regionFields (w : Nat) : List (Nat × Nat) :=
  let mask : List (Nat × Nat) := [(0, 4), (9, 23)]
  let high : List (Nat × Nat) := [(32, 4), (41, 23)]
  match w with
  | 0 => [(63, 1), (48, 9), (32, 9), (0, 32)]
  | 1 | 2 => high ++ mask
  | 3 => mask
  | _ => [(0, 64)]

/-- Writes a word of PF 0's space, under the register's access codes (rules R10, R450). -/
def State.writeReg (s : State) (off : Nat) (v : W64) : State :=
  match regAt off with
  | none => s
  | some (.mc i) => { s with mc := s.mc.write i v }
  | some .cecount => { s with cecount := (s.cecount &&& ~~~(keepBits v [(16, 48)])) &&& ~~~(0xFFFF : W64) ||| keepBits v [(0, 16)] }
  | some .resetctl => if fld v 0 1 == 1 then s.warmReset else s
  | some .pkgid => if (List.range 12).all (fun j => (s.port j).state == 0) then { s with pkgid := keepBits v [(0, 10)] } else s
  | some (.upctl j) => s.writeUpctl j v
  | some (.upstat _) => s
  | some (.partmap n) => partmapWrite n v s
  | some (.queue q i) => s.writeQueueReg q i v
  | some (.uroute p) => ({ s with uroute := s.uroute.set p (keepBits v [(0, 12)]) } : State).noteReach
  | some (.region i) => { s with regions := s.regions.set i (keepBits v (regionFields (i % 8))) }
  | some (.part p o) => s.writePart p (partRegAt o) v
def execRegisterWrite (off : Nat) (v : W64) (s : State) : Res := .next (s.writeReg off v)

/-! ### SMBus commands (rules R463 to R465) -/

/-- The answer to a command. -/
def State.say (s : State) (r : Reply) : State := { s with replies := s.replies ++ [r] }

/-- A command that recovery does not answer. -/
def State.whenRunning (s : State) (f : State → State) : State := if s.rstate == .running then f s else s.say .nack

def execStatus (s : State) : Res := .next (s.say (.status s.warm s.rstate (Config.imageVersion s.image)))
def execRead (off : Nat) (s : State) : Res := .next (s.whenRunning (fun s => s.say (.value (s.readReg (off % 2 ^ 32)))))
def execWrite (off : Nat) (v : W64) (s : State) : Res := .next (s.whenRunning (fun s => (s.say .ack).writeReg (off % 2 ^ 32) v))
def execWarm (s : State) : Res := .next (s.whenRunning (fun s => (s.say .ack).warmReset))
def execCold (s : State) : Res := .next (s.whenRunning (fun s => (s.say .ack).coldReset))

/-- The command codes of the table of rule R465; any other is refused with a NACK. -/
def smbusCodes : List Nat := [0x01, 0x02, 0x03, 0x10, 0x11, 0x20, 0x30, 0x31]
def State.command (s : State) (code : Nat) : State := if smbusCodes.contains code then s else s.say .nack

/-- Bytes of a value, highest first. -/
def bigEndian (x n : Nat) : List Byte := (bytesOf x n).reverse

/-- Bytes 0 to 327 of an attestation report (rule R464). -/
def State.reportBody (s : State) (nonce : List Byte) : List Byte :=
  bytesOf 1 4 ++ bytesOf ((if s.warm then 1 else 0) + (if s.rstate == .recovery then 2 else 0)) 4 ++ nonce ++ bytesOf s.now 8
    ++ bigEndian (Config.sha512 s.image).toNat 64 ++ bigEndian (Config.sha512 s.mirror).toNat 64
    ++ bytesOf (Config.imageVersion s.image).toNat 8 ++ bytesOf (Config.copySequence s.mirror).toNat 8
    ++ [4] ++ bigEndian (Config.identityPublic s.identity).toNat 132 ++ List.replicate 3 0

/-- ATTEST: the report with its signature; a nonce of another length is refused. -/
def attest (nonce : List Byte) (s : State) : State :=
  s.whenRunning (fun s =>
    if nonce.length != 32 then s.say .nack
    else
      let b := s.reportBody nonce
      let q := Config.ecdsaSign s.identity (Config.sha512 b)
      s.say (.bytes (b ++ bigEndian q.1.toNat 66 ++ bigEndian q.2.toNat 66)))
def execAttest (nonce : List Byte) (s : State) : Res := .next (attest nonce s)

/-- FLASHRD: up to 32 bytes. -/
def flashRead (off n : Nat) (s : State) : State :=
  if 32 < n || 2 ^ 32 < off + n then s.say .nack else s.say (.bytes (s.flashBytes (off, n)))
def execFlashrd (off n : Nat) (s : State) : Res := .next (flashRead off n s)

/-- Whether bytes from an offset lie in the configuration copy in force, or in the image slot that is running. -/
def State.flashHeld (s : State) (off n : Nat) : Bool :=
  let hit (r : Nat × Nat) : Bool := overlap r.1 r.2 off n
  hit (Config.copyRange s.cfgCopy) || (s.rstate == .running && hit (Config.imageRange s.imgSlot))

/-- FLASHWR: up to 32 bytes, refused where the flash is in force. -/
def flashWrite (off : Nat) (bytes : List Byte) (s : State) : State :=
  if 32 < bytes.length || 2 ^ 32 < off + bytes.length || s.flashHeld off bytes.length then s.say .nack
  else
    let put (t : Tab Byte) (x : Byte × Nat) : Tab Byte := t.set (off + x.2) x.1
    ({ s with flash := bytes.zipIdx.foldl put s.flash } : State).say .ack
def execFlashwr (off : Nat) (bytes : List Byte) (s : State) : Res := .next (flashWrite off bytes s)

end Sys2Proof.Machine
end

