-- ==== Sys2Proof/Machine/Sched.lean ====
section
/-! DEFINITION. What the package does next: the issue slots' choice (rules R158 to R161), the internal events that are due, and the
placing of one instruction where the next step fetches it. -/

namespace Sys2Proof.Machine

/-! ### The choice of an issue slot (rule R160) -/

/-- A split that may issue: its group's slot, the group, the split. -/
abbrev Runner := Nat × Group × Split

/-- The order of rule R160: admission, then split number. -/
def older (a b : Runner) : Bool :=
  decide (a.2.1.admitted < b.2.1.admitted) || (a.2.1.admitted == b.2.1.admitted && decide (a.2.2.id < b.2.2.id))

def oldest (l : List Runner) : Option Runner :=
  l.foldl (fun b x => match b with
    | none => some x
    | some y => if older x y then some x else some y) none

/-- The splits bound to an issue slot that may be tried in this cycle. -/
def State.runners (s : State) (core islot : Nat) : List Runner :=
  ((s.core core).slots.filter (fun e => e.1 % 4 == islot && !e.2.ending)).flatMap (fun e =>
    (e.2.splits.filter (fun p => e.2.mayRun p && decide (p.tried ≤ s.cycle))).map (fun p => (e.1, e.2, p)))

/-- Whether a split's age counter stands at 4,096 (rule R161). -/
def Split.old (p : Split) (cycle : Nat) : Bool := p.aged || decide (p.since + 4096 ≤ cycle)

/-- The split an issue slot picks (rule R160). -/
def State.pick (s : State) (core islot : Nat) : Option Runner :=
  let i := (s.core core).islots.get {} islot
  let rdy := s.runners core islot
  let isCur (r : Runner) : Bool := i.cur == some (r.1, r.2.2.id)
  if decide (s.cycle < i.busy) || (s.core core).power != .live then none
  else match oldest (rdy.filter (fun r => r.2.2.old s.cycle)) with
    | some r => some r
    | none =>
      match rdy.find? isCur with
      | some r => if !i.yielded then some r else match oldest (rdy.filter (fun x => !isCur x)) with
          | some x => some x
          | none => some r
      | none => oldest rdy

/-- The state in which a picked split is tried: it is the current one, and is not tried again in this cycle. -/
def State.tryOne (s : State) (core : Nat) (r : Runner) : State :=
  { s.updGroup core r.1 (fun G => G.updSplit r.2.2.id (fun p => { p with tried := s.cycle + 1 })) with cur := ⟨core, r.1, r.2.2.id⟩ }

/-- What the current split does when it is tried. -/
inductive Turn where
  | done (s : State)
  | run (i : Instr) (s : State)

/-- The turn of the current split: where it has a deferred cause to take, its group's due cause (rules R402, R403), else, once its group's
registers are allocated (rule R422), its fetched word, decoded (rules R60, R159). -/
def State.turnOf (s : State) : Turn :=
  let X := s.cur
  match s.group X.core X.slot with
  | none => .done s
  | some G =>
    if G.heldForCause X.split then .done (s.takeDue X.core X.slot)
    else match s.allocate X with
    | (s, false) => .done (s.stall X 11)
    | (s, true) =>
      let s := if (G.split X.split).any (fun p => p.word.isNone) then s.fetch X else s
      match s.group X.core X.slot with
      | none => .done s
      | some G =>
        match (G.split X.split).bind (fun p => p.word) with
        | none => .done s
        | some w =>
          match decode (s.env G) w with
          | .error e => .done (s.illegal X e)
          | .ok i => .run i s

/-! ### The stall codes of the splits that no slot tried (rule R167) -/

/-- The code that a turn of a split would leave it with, where each instruction does as `run` says; 15 where it would issue. -/
def State.tryCode (run : Instr → State → Res) (s : State) (c : Nat) (r : Runner) : Nat :=
  match (s.tryOne c r).turnOf with
  | .done t => if ((t.group c r.1).bind (fun G => G.split r.2.2.id)).any (fun p => p.stall == 11) then 11 else 15
  | .run i t => match run i t with
    | .next u => match (u.group c r.1).bind (fun G => G.split r.2.2.id) with
      | some p => if p.stall == 0 then 15 else p.stall
      | none => 15
    | _ => 15

/-- Whether a partition counts stall codes or samples them (rules R453, R454). -/
def State.watched (s : State) : Bool :=
  s.parts.any (fun e => fld e.2.sampctl 63 1 == 1 || e.2.pcsel.any (fun x => fld x.2 63 1 == 1 && fld x.2 0 8 == 3))

/-- Where codes are watched, those of the splits that were not tried in this cycle are brought up to date. -/
def State.refresh (run : Instr → State → Res) (s : State) : State :=
  if !s.watched then s
  else
    let rs := s.cores.flatMap (fun e => (List.range Config.issueSlots).flatMap (fun i => (s.runners e.1 i).map (fun r => (e.1, r))))
    (rs.filter (fun x => x.2.2.2.word.isSome)).foldl (fun t x =>
      t.updGroup x.1 x.2.1 (fun G => G.updSplit x.2.2.2.id (fun p => { p with stall := s.tryCode run x.1 x.2 }))) s

/-! ### Internal events -/

/-- The events of one core that its units may have due. -/
def State.coreEvents (s : State) (c : Nat) (k : Core) : List Instr :=
  let group (e : Nat × Group) : List Instr :=
    let G := e.2
    [.causeTaken c e.1, .preemptForceTimeout c e.1, .groupEnd c e.1]
      ++ G.infl.map (fun i => if i.kind == .alu || i.kind == .lstore then .instructionComplete c e.1 i.id else .loadDataReturn c e.1 i.id)
      ++ G.reloads.map (fun r => .reloadDone c e.1 r.reg)
      ++ (G.splits.filter (fun p => decide (p.since < s.cycle) && (s.cycle - p.since) % 2048 == 0
            && (match p.wait with | .counter _ => true | _ => false))).map (fun p => .cwaitPoll c e.1 p.id)
  k.slots.flatMap group
    ++ k.writeouts.map (fun w => .spillWriteoutDone c w.id)
    ++ (k.misses ++ k.prefs.map (fun p => p.line)).map (fun l => .l1MissFill c l)
    ++ k.homeq.flatMap (fun h => [.writeAtHome c h.id] ++ (unitsOf 128 h.cells).map (fun l => .copyRecall c l))
    ++ k.packets.flatMap (fun p => [.packetOpenTimeout c p.id, .packetIdleTimeout c p.id, .gatherExpander c p.id, .packetReturn c p.id])
    ++ [.termEntryStart c, .weightLoadStart c]
    ++ k.trun.flatMap (fun e => [.weightLoadComplete c e.id, .multiplyComplete c e.id, .termEntryComplete c e.id])
    ++ [.arrayClockGate c, .arrayWakeGrant c, .arrayWakeComplete c, .handlerBankGrant c]
    ++ [0, 1].flatMap (fun e => [.copyError c e, .copyStart c e, .copyComplete c e, .copyChunk c e])

/-- The events of the teams, the Caravan, the distributor and the partitions. -/
def State.packageEvents (s : State) : List Instr :=
  let probes : List Instr := s.cores.flatMap (fun e => (e.2.slots.flatMap (fun g => g.2.infl.filter (fun i => i.kind == .atom))).flatMap (fun i =>
    i.acc.wait.map (fun c => .promotionProbe c i.ref)))
  let team (e : Nat × Team) : List Instr :=
    [.accumulatorAllocation e.1, .scheduleRepeatIssue e.1, .teamSave e.1]
      ++ e.2.wins.flatMap (fun w => w.2.need.map (fun n => .stashFill e.1 w.1 n.1))
  let run (q : Nat) (r : PRun) : Instr := match r.typ with
    | 1 => .packetNop q r.rid
    | 2 => .packetLaunch q r.rid
    | 3 => .packetGraph q r.rid
    | 4 => .packetCwait q r.rid
    | 5 => .packetCadd q r.rid
    | 6 => .packetCopy q r.rid
    | _ => .packetTimestamp q r.rid
  let queues : List Instr := (s.queues.filter (fun e => decide (s.turn ≤ e.1)) ++ s.queues.filter (fun e => decide (e.1 < s.turn))).flatMap (fun e =>
    e.2.runs.map (run e.1) ++ [.packetBegin e.1])
  let part (p : Nat) : List Instr :=
    let r := (s.part p).preq1
    [.budgetPeriod p, .faultBatchWrite p, .tlbinvComplete p] ++ (if fld r 63 1 == 1 then [.preemptRequest p r] else []) ++ [.admission p]
  probes
    ++ s.deliveries.flatMap (fun d => [.deliveryArrival d.did, .sendOutcomeReturn d.did])
    ++ s.teams.flatMap team
    ++ s.posts.map (fun p => .postApply p.pid) ++ s.submits.map (fun b => .launchAccept b.sid)
    ++ s.launches.flatMap (fun e => [.gangUnplaced e.1, .launchComplete e.1])
    ++ s.graphs.map (fun e => .graphNextNode e.1) ++ queues
    ++ s.conts.map (fun e => .continuationPoll e.1)
    ++ (List.range 8).flatMap part
    ++ s.lostSince.map (fun e => .transactionLossTimeout e.1)

/-- The internal events that may be due, in the order in which the package tries them. -/
def State.dueEvents (s : State) : List Instr := s.cores.flatMap (fun e => s.coreEvents e.1 e.2) ++ s.packageEvents

/-- The issue slots that have a split to try. -/
def State.readySlots (s : State) : List (Nat × Nat) :=
  s.cores.flatMap (fun e => ((List.range Config.issueSlots).filter (fun i => (s.pick e.1 i).isSome)).map (fun i => (e.1, i)))

/-- A core cycle passes. -/
def State.tick (run : Instr → State → Res) (s : State) : State := (s.refresh run).elapse 1

/-! ### Placing one instruction (log entry 1) -/

/-- The address at which a placed instruction stands. -/
def placedVa : Nat := 0x10000

/-- Whether a word passes the word checks in a handler only. -/
def onlyHandler (word : W64) : Bool :=
  match decode ⟨false, 32, 2 ^ 14⟩ word with
  | .ok _ => false
  | .error _ => match decode ⟨true, 32, 2 ^ 14⟩ word with
    | .ok _ => true
    | .error _ => false

/-- The group that runs a placed instruction: 32 lanes, one split, at `placedVa`; in a handler where the word is one that only a
handler may run. -/
def placedGroup (word : W64) : Group :=
  let own := fullMask 32
  let p : Split := { id := 0, pc := w64 placedVa, am := own, own := own }
  { gid := 1, lid := 0, tid := 0, idx := 0, tindex := 0, part := 0, w := 32, resv := 256, admitted := 0, splits := [p]
    frame := if onlyHandler word then some { split := 0, pc := p.pc, am := own, stack := [], ra := p.pc + 8 } else none }

/-- The package with a word placed in memory and a group of core 0 about to run it: the group alone on issue slot 0, its launch and
team, the pages of the first 32 GiB mapped onto device memory in use, and the turn of the issue slot. -/
def State.placeWord (s : State) (word : W64) : State :=
  let e : TlbEnt := { part := 0, size := 3, vbase := 0, frame := 0, rd := true, wr := true, mig := none }
  let k := s.core 0
  let k := { k with power := .live, slots := Tab.set (k.slots.filter (fun x => x.1 % 4 != 0)) 0 (placedGroup word)
                    islots := k.islots.set 0 {}, tlb := e :: k.tlb }
  let L : Launch := { lid := 0, seq := 0, part := 0, origin := .graph 0, record := List.replicate 13 0 ++ [0x4000, 0, 0], next := 1 }
  let T : Team := { tid := 0, lid := 0, index := 0, part := 0, core := 0, pair := false, groups := 1, w := 32, prio := 0, gang := false
                    live := [1], lsz := 65536 }
  { s with
    cores := s.cores.set 0 k, launches := s.launches.set 0 L, teams := s.teams.set 0 T
    regions := ((((s.regions.set 0 0x8020000000000000).set 4 (BitVec.allOnes 64)).set 5 (BitVec.allOnes 64)).set 6 (BitVec.allOnes 64)).set 7 (BitVec.allOnes 64)
    mem := memSetAll s.mem (cellsAt placedVa (bytesOf word.toNat 8))
    poison := s.poison.filter (fun g => g != placedVa / 32)
    partmap := s.partmap.set 0 0
    nextId := Nat.max 2 s.nextId
    agenda := (0, .issue 0 0) :: s.agenda }

end Sys2Proof.Machine
end

