-- ==== Sys2Proof/Machine/Dispatch.lean ====
section
/-! DEFINITION. The meaning of every row of the opcode table: one arm for each constructor of Instr. -/

namespace Sys2Proof.Machine

/-- The meaning of an instruction or event. -/
def exec (i : Instr) (s : State) : Host.Outcome State Fault Refusal :=
  match i with
  | .nop f => Sys2Proof.Machine.execNop f s
  | .exit f => Sys2Proof.Machine.execExit f s
  | .trap f => Sys2Proof.Machine.execTrap f s
  | .bkpt f => Sys2Proof.Machine.execBkpt f s
  | .safept f => Sys2Proof.Machine.execSafept f s
  | .sread f => Sys2Proof.Machine.execSread f s
  | .swrite f => Sys2Proof.Machine.execSwrite f s
  | .awlimitReqWrite core slot req => Sys2Proof.Machine.execAwlimitReqWrite core slot req s
  | .accumulatorAllocation tid => Sys2Proof.Machine.execAccumulatorAllocation tid s
  | .clk f => Sys2Proof.Machine.execClk f s
  | .rth f => Sys2Proof.Machine.execRth f s
  | .add f => Sys2Proof.Machine.execAdd f s
  | .sub f => Sys2Proof.Machine.execSub f s
  | .mul f => Sys2Proof.Machine.execMul f s
  | .mulhi f => Sys2Proof.Machine.execMulhi f s
  | .mad f => Sys2Proof.Machine.execMad f s
  | .div f => Sys2Proof.Machine.execDiv f s
  | .rem f => Sys2Proof.Machine.execRem f s
  | .min f => Sys2Proof.Machine.execMin f s
  | .max f => Sys2Proof.Machine.execMax f s
  | .abs f => Sys2Proof.Machine.execAbs f s
  | .neg f => Sys2Proof.Machine.execNeg f s
  | .lea f => Sys2Proof.Machine.execLea f s
  | .and f => Sys2Proof.Machine.execAnd f s
  | .or f => Sys2Proof.Machine.execOr f s
  | .xor f => Sys2Proof.Machine.execXor f s
  | .not f => Sys2Proof.Machine.execNot f s
  | .shl f => Sys2Proof.Machine.execShl f s
  | .shr f => Sys2Proof.Machine.execShr f s
  | .sar f => Sys2Proof.Machine.execSar f s
  | .rot f => Sys2Proof.Machine.execRot f s
  | .bfe f => Sys2Proof.Machine.execBfe f s
  | .bfi f => Sys2Proof.Machine.execBfi f s
  | .brev f => Sys2Proof.Machine.execBrev f s
  | .popc f => Sys2Proof.Machine.execPopc f s
  | .clz f => Sys2Proof.Machine.execClz f s
  | .ctz f => Sys2Proof.Machine.execCtz f s
  | .tcnt f => Sys2Proof.Machine.execTcnt f s
  | .cmp f => Sys2Proof.Machine.execCmp f s
  | .pand f => Sys2Proof.Machine.execPand f s
  | .por f => Sys2Proof.Machine.execPor f s
  | .pxor f => Sys2Proof.Machine.execPxor f s
  | .pnot f => Sys2Proof.Machine.execPnot f s
  | .sel f => Sys2Proof.Machine.execSel f s
  | .mov f => Sys2Proof.Machine.execMov f s
  | .movi f => Sys2Proof.Machine.execMovi f s
  | .movx f => Sys2Proof.Machine.execMovx f s
  | .movxw f => Sys2Proof.Machine.execMovxw f s
  | .addI f => Sys2Proof.Machine.execAddI f s
  | .subI f => Sys2Proof.Machine.execSubI f s
  | .mulI f => Sys2Proof.Machine.execMulI f s
  | .andI f => Sys2Proof.Machine.execAndI f s
  | .orI f => Sys2Proof.Machine.execOrI f s
  | .xorI f => Sys2Proof.Machine.execXorI f s
  | .shlI f => Sys2Proof.Machine.execShlI f s
  | .shrI f => Sys2Proof.Machine.execShrI f s
  | .sarI f => Sys2Proof.Machine.execSarI f s
  | .rotI f => Sys2Proof.Machine.execRotI f s
  | .cmpI f => Sys2Proof.Machine.execCmpI f s
  | .minI f => Sys2Proof.Machine.execMinI f s
  | .maxI f => Sys2Proof.Machine.execMaxI f s
  | .bfeI f => Sys2Proof.Machine.execBfeI f s
  | .fadd f => Sys2Proof.Machine.execFadd f s
  | .fsub f => Sys2Proof.Machine.execFsub f s
  | .fmul f => Sys2Proof.Machine.execFmul f s
  | .fma f => Sys2Proof.Machine.execFma f s
  | .fmin f => Sys2Proof.Machine.execFmin f s
  | .fmax f => Sys2Proof.Machine.execFmax f s
  | .fclass f => Sys2Proof.Machine.execFclass f s
  | .frcp f => Sys2Proof.Machine.execFrcp f s
  | .frsq f => Sys2Proof.Machine.execFrsq f s
  | .fsqrt f => Sys2Proof.Machine.execFsqrt f s
  | .fexp2 f => Sys2Proof.Machine.execFexp2 f s
  | .flog2 f => Sys2Proof.Machine.execFlog2 f s
  | .fcmp f => Sys2Proof.Machine.execFcmp f s
  | .cvt f => Sys2Proof.Machine.execCvt f s
  | .ifThen f => Sys2Proof.Machine.execIfThen f s
  | .ifs f => Sys2Proof.Machine.execIfs f s
  | .elseArm f => Sys2Proof.Machine.execElseArm f s
  | .endif f => Sys2Proof.Machine.execEndif f s
  | .loop f => Sys2Proof.Machine.execLoop f s
  | .endloop f => Sys2Proof.Machine.execEndloop f s
  | .breakLoop f => Sys2Proof.Machine.execBreakLoop f s
  | .continueLoop f => Sys2Proof.Machine.execContinueLoop f s
  | .call f => Sys2Proof.Machine.execCall f s
  | .ret f => Sys2Proof.Machine.execRet f s
  | .lxch f => Sys2Proof.Machine.execLxch f s
  | .pqry f => Sys2Proof.Machine.execPqry f s
  | .red f => Sys2Proof.Machine.execRed f s
  | .scan f => Sys2Proof.Machine.execScan f s
  | .matchLanes f => Sys2Proof.Machine.execMatchLanes f s
  | .elect f => Sys2Proof.Machine.execElect f s
  | .bcast f => Sys2Proof.Machine.execBcast f s
  | .topk f => Sys2Proof.Machine.execTopk f s
  | .barinit f => Sys2Proof.Machine.execBarinit f s
  | .bararv f => Sys2Proof.Machine.execBararv f s
  | .barwait f => Sys2Proof.Machine.execBarwait f s
  | .barinv f => Sys2Proof.Machine.execBarinv f s
  | .arm f => Sys2Proof.Machine.execArm f s
  | .cap f => Sys2Proof.Machine.execCap f s
  | .send f => Sys2Proof.Machine.execSend f s
  | .disarm f => Sys2Proof.Machine.execDisarm f s
  | .place f => Sys2Proof.Machine.execPlace f s
  | .scope f => Sys2Proof.Machine.execScope f s
  | .deliveryArrival did => Sys2Proof.Machine.execDeliveryArrival did s
  | .sendOutcomeReturn did => Sys2Proof.Machine.execSendOutcomeReturn did s
  | .twin f => Sys2Proof.Machine.execTwin f s
  | .tldw f => Sys2Proof.Machine.execTldw f s
  | .tldws f => Sys2Proof.Machine.execTldws f s
  | .tmma f => Sys2Proof.Machine.execTmma f s
  | .tmmaq f => Sys2Proof.Machine.execTmmaq f s
  | .tfeed f => Sys2Proof.Machine.execTfeed f s
  | .tzero f => Sys2Proof.Machine.execTzero f s
  | .tdrain f => Sys2Proof.Machine.execTdrain f s
  | .twait f => Sys2Proof.Machine.execTwait f s
  | .tbound f => Sys2Proof.Machine.execTbound f s
  | .thist f => Sys2Proof.Machine.execThist f s
  | .trecode f => Sys2Proof.Machine.execTrecode f s
  | .tdecode f => Sys2Proof.Machine.execTdecode f s
  | .termEntryStart core => Sys2Proof.Machine.execTermEntryStart core s
  | .weightLoadStart core => Sys2Proof.Machine.execWeightLoadStart core s
  | .weightLoadComplete core eid => Sys2Proof.Machine.execWeightLoadComplete core eid s
  | .multiplyComplete core eid => Sys2Proof.Machine.execMultiplyComplete core eid s
  | .termEntryComplete core eid => Sys2Proof.Machine.execTermEntryComplete core eid s
  | .arrayClockGate core => Sys2Proof.Machine.execArrayClockGate core s
  | .arrayWakeGrant core => Sys2Proof.Machine.execArrayWakeGrant core s
  | .arrayWakeComplete core => Sys2Proof.Machine.execArrayWakeComplete core s
  | .ld f => Sys2Proof.Machine.execLd f s
  | .st f => Sys2Proof.Machine.execSt f s
  | .ldc f => Sys2Proof.Machine.execLdc f s
  | .ldl f => Sys2Proof.Machine.execLdl f s
  | .stl f => Sys2Proof.Machine.execStl f s
  | .gather f => Sys2Proof.Machine.execGather f s
  | .scatter f => Sys2Proof.Machine.execScatter f s
  | .fence f => Sys2Proof.Machine.execFence f s
  | .translate f => Sys2Proof.Machine.execTranslate f s
  | .pref f => Sys2Proof.Machine.execPref f s
  | .atom f => Sys2Proof.Machine.execAtom f s
  | .atomg f => Sys2Proof.Machine.execAtomg f s
  | .l1inv f => Sys2Proof.Machine.execL1inv f s
  | .l1flush f => Sys2Proof.Machine.execL1flush f s
  | .stmap f => Sys2Proof.Machine.execStmap f s
  | .stunmap f => Sys2Proof.Machine.execStunmap f s
  | .stflush f => Sys2Proof.Machine.execStflush f s
  | .awinit f => Sys2Proof.Machine.execAwinit f s
  | .awadd f => Sys2Proof.Machine.execAwadd f s
  | .awwait f => Sys2Proof.Machine.execAwwait f s
  | .cadd f => Sys2Proof.Machine.execCadd f s
  | .cwait f => Sys2Proof.Machine.execCwait f s
  | .cwaitPoll core slot split => Sys2Proof.Machine.execCwaitPoll core slot split s
  | .remapld f => Sys2Proof.Machine.execRemapld f s
  | .loadDataReturn core slot iid => Sys2Proof.Machine.execLoadDataReturn core slot iid s
  | .writeAtHome core wid => Sys2Proof.Machine.execWriteAtHome core wid s
  | .l1Eviction core line => Sys2Proof.Machine.execL1Eviction core line s
  | .l1MissFill core line => Sys2Proof.Machine.execL1MissFill core line s
  | .packetOpenTimeout core pid => Sys2Proof.Machine.execPacketOpenTimeout core pid s
  | .packetIdleTimeout core pid => Sys2Proof.Machine.execPacketIdleTimeout core pid s
  | .gatherExpander core pid => Sys2Proof.Machine.execGatherExpander core pid s
  | .packetReturn core pid => Sys2Proof.Machine.execPacketReturn core pid s
  | .stashFill tid win line => Sys2Proof.Machine.execStashFill tid win line s
  | .stashRecall tid win line => Sys2Proof.Machine.execStashRecall tid win line s
  | .copyRecall core line => Sys2Proof.Machine.execCopyRecall core line s
  | .promotionProbe core oid => Sys2Proof.Machine.execPromotionProbe core oid s
  | .migrationLineCopy part va => Sys2Proof.Machine.execMigrationLineCopy part va s
  | .spillWriteoutDone core wid => Sys2Proof.Machine.execSpillWriteoutDone core wid s
  | .reloadDone core slot reg => Sys2Proof.Machine.execReloadDone core slot reg s
  | .instructionComplete core slot iid => Sys2Proof.Machine.execInstructionComplete core slot iid s
  | .ageSaturate core slot split => Sys2Proof.Machine.execAgeSaturate core slot split s
  | .instructionFetch core slot split => Sys2Proof.Machine.execInstructionFetch core slot split s
  | .groupEnd core slot => Sys2Proof.Machine.execGroupEnd core slot s
  | .cpy f => Sys2Proof.Machine.execCpy f s
  | .cpyEnc f => Sys2Proof.Machine.execCpyEnc f s
  | .cpyDec f => Sys2Proof.Machine.execCpyDec f s
  | .cpyGather f => Sys2Proof.Machine.execCpyGather f s
  | .stage f => Sys2Proof.Machine.execStage f s
  | .cpystat f => Sys2Proof.Machine.execCpystat f s
  | .copyStart core eng => Sys2Proof.Machine.execCopyStart core eng s
  | .copyChunk core eng => Sys2Proof.Machine.execCopyChunk core eng s
  | .copyComplete core eng => Sys2Proof.Machine.execCopyComplete core eng s
  | .copyError core eng => Sys2Proof.Machine.execCopyError core eng s
  | .scheduleRepeatIssue tid => Sys2Proof.Machine.execScheduleRepeatIssue tid s
  | .launch f => Sys2Proof.Machine.execLaunch f s
  | .post f => Sys2Proof.Machine.execPost f s
  | .postApply pid => Sys2Proof.Machine.execPostApply pid s
  | .cont f => Sys2Proof.Machine.execCont f s
  | .taskexit f => Sys2Proof.Machine.execTaskexit f s
  | .launchAccept sid => Sys2Proof.Machine.execLaunchAccept sid s
  | .launchComplete lid => Sys2Proof.Machine.execLaunchComplete lid s
  | .qwptrWrite q v => Sys2Proof.Machine.execQwptrWrite q v s
  | .queueEnable q v => Sys2Proof.Machine.execQueueEnable q v s
  | .queueDisable q v => Sys2Proof.Machine.execQueueDisable q v s
  | .packetBegin q => Sys2Proof.Machine.execPacketBegin q s
  | .packetNop q rid => Sys2Proof.Machine.execPacketNop q rid s
  | .packetLaunch q rid => Sys2Proof.Machine.execPacketLaunch q rid s
  | .packetGraph q rid => Sys2Proof.Machine.execPacketGraph q rid s
  | .graphNextNode gid => Sys2Proof.Machine.execGraphNextNode gid s
  | .packetCwait q rid => Sys2Proof.Machine.execPacketCwait q rid s
  | .packetCadd q rid => Sys2Proof.Machine.execPacketCadd q rid s
  | .packetCopy q rid => Sys2Proof.Machine.execPacketCopy q rid s
  | .packetTimestamp q rid => Sys2Proof.Machine.execPacketTimestamp q rid s
  | .admission part => Sys2Proof.Machine.execAdmission part s
  | .gangUnplaced lid => Sys2Proof.Machine.execGangUnplaced lid s
  | .continuationPoll cid => Sys2Proof.Machine.execContinuationPoll cid s
  | .budgetPeriod part => Sys2Proof.Machine.execBudgetPeriod part s
  | .causeTaken core slot => Sys2Proof.Machine.execCauseTaken core slot s
  | .handlerBankGrant core => Sys2Proof.Machine.execHandlerBankGrant core s
  | .faultBatchWrite part => Sys2Proof.Machine.execFaultBatchWrite part s
  | .pfdoneAnswer part batch => Sys2Proof.Machine.execPfdoneAnswer part batch s
  | .pfdoneRefuse part batch => Sys2Proof.Machine.execPfdoneRefuse part batch s
  | .preemptRequest part v => Sys2Proof.Machine.execPreemptRequest part v s
  | .preemptForceTimeout core slot => Sys2Proof.Machine.execPreemptForceTimeout core slot s
  | .teamSave tid => Sys2Proof.Machine.execTeamSave tid s
  | .corePowerGate core retire => Sys2Proof.Machine.execCorePowerGate core retire s
  | .tlbinv part v => Sys2Proof.Machine.execTlbinv part v s
  | .tlbinvComplete part => Sys2Proof.Machine.execTlbinvComplete part s
  | .partmapWrite n v => Sys2Proof.Machine.execPartmapWrite n v s
  | .registerWrite off v => Sys2Proof.Machine.execRegisterWrite off v s
  | .ualinkTransactionReceive src flow seq op => Sys2Proof.Machine.execUalinkTransactionReceive src flow seq op s
  | .writeAck xid => Sys2Proof.Machine.execWriteAck xid s
  | .flitCrcFail port lane => Sys2Proof.Machine.execFlitCrcFail port lane s
  | .replayDrained port => Sys2Proof.Machine.execReplayDrained port s
  | .laneRepairTrigger port lane => Sys2Proof.Machine.execLaneRepairTrigger port lane s
  | .replayFailThreshold port => Sys2Proof.Machine.execReplayFailThreshold port s
  | .repairComplete port => Sys2Proof.Machine.execRepairComplete port s
  | .repairFail port => Sys2Proof.Machine.execRepairFail port s
  | .laneFail port => Sys2Proof.Machine.execLaneFail port s
  | .trainingComplete port celuno => Sys2Proof.Machine.execTrainingComplete port celuno s
  | .portDown port => Sys2Proof.Machine.execPortDown port s
  | .transactionLossTimeout pkg => Sys2Proof.Machine.execTransactionLossTimeout pkg s
  | .upctlEnable port v => Sys2Proof.Machine.execUpctlEnable port v s
  | .hostBar2Write part addr bytes => Sys2Proof.Machine.execHostBar2Write part addr bytes s
  | .hostBar2Read part addr n => Sys2Proof.Machine.execHostBar2Read part addr n s
  | .cxlCacheWrite pa bytes => Sys2Proof.Machine.execCxlCacheWrite pa bytes s
  | .pcSample core islot => Sys2Proof.Machine.execPcSample core islot s
  | .correctedError place pa => Sys2Proof.Machine.execCorrectedError place pa s
  | .timestampSync ns => Sys2Proof.Machine.execTimestampSync ns s
  | .powerOn => Sys2Proof.Machine.execPowerOn s
  | .resetctlWarm => Sys2Proof.Machine.execResetctlWarm s
  | .pcieHotReset => Sys2Proof.Machine.execPcieHotReset s
  | .status => Sys2Proof.Machine.execStatus s
  | .read off => Sys2Proof.Machine.execRead off s
  | .write off v => Sys2Proof.Machine.execWrite off v s
  | .warm => Sys2Proof.Machine.execWarm s
  | .cold => Sys2Proof.Machine.execCold s
  | .attest nonce => Sys2Proof.Machine.execAttest nonce s
  | .flashrd off n => Sys2Proof.Machine.execFlashrd off n s
  | .flashwr off bytes => Sys2Proof.Machine.execFlashwr off bytes s
  | .hostCxlMemRead pa => Sys2Proof.Machine.execHostCxlMemRead pa s

end Sys2Proof.Machine
end

