-- ==== Sys2Proof/Machine/Step.lean ====
section
/-! DEFINITION. One step of the package: the next move of the agenda, or, where the agenda is empty, the next internal event, issue turn or
cycle; and the placing of one instruction. -/

namespace Sys2Proof.Machine

/-- The turn of an issue slot (rule R160). -/
def issueTurn (core islot : Nat) (s : State) : Res :=
  match s.pick core islot with
  | none => .next s
  | some r =>
    match (s.tryOne core r).turnOf with
    | .done s => .next s
    | .run i s => exec i s

/-- A move of the agenda; a word of the instruction set is no event, and nothing happens. -/
def perform (m : Move) (s : State) : Res :=
  match m with
  | .issue core islot => issueTurn core islot s
  | .event i => if (encode i).isNone then exec i (s.refresh exec) else .next s
  | .strike x => .next (s.strike x)
  | .command code => .next (s.command code)

/-- The first internal event whose meaning changes the state, with what it gives. -/
def firstDue (s : State) (l : List Instr) : Option Res :=
  match l with
  | [] => none
  | i :: rest =>
    match exec i s with
    | .next t => if t = s then firstDue s rest else some (.next t)
    | r => some r

/-- The package left to itself: an internal event, else an issue turn, else a cycle. -/
def policy (s : State) : Res :=
  match firstDue s s.dueEvents with
  | some r => r
  | none =>
    match s.readySlots with
    | (c, i) :: _ => issueTurn c i s
    | [] => .next (s.tick exec)

/-- One step. -/
def step (s : State) : Host.Outcome State Fault Refusal :=
  match s.agenda with
  | (d, m) :: rest => perform m ((({ s with agenda := rest } : State).refresh exec).elapse d)
  | [] => policy s

/-- A word placed where the next step fetches and runs it. -/
def State.withFetchWord (s : State) (nbits w : Nat) : State := s.placeWord (BitVec.ofNat 64 (w % 2 ^ nbits))

end Sys2Proof.Machine
end

