-- ==== Sys2Proof/Safety.lean ====
section
/-! DEFINITION. The terms in which claims about the package are stated: runs that stop nowhere, a group about to issue an instruction,
and what an issue changes. -/

namespace Sys2Proof

/-- A run of `k` steps from `s` that meets no fault and no refusal, and the state it reaches. -/
def Reaches (k : Nat) (s t : Machine.State) : Prop := core.run k s = .next t

/-- A state from which no run meets a fault or a refusal. -/
def Safe (s : Machine.State) : Prop := ∀ k, ∃ t, Reaches k s t

/-- A property that every step keeps. -/
def Kept (P : Machine.State → Prop) : Prop := ∀ s t, P s → Machine.step s = .next t → P t

namespace Machine

/-- The current slot holds group `G`, whose one split `p` is the current one; nothing of the group is in flight, it runs ahead of no page
fault, and no answer of the host waits for it. -/
structure Quiet (s : State) (G : Group) (p : Split) : Prop where
  here : s.group s.cur.core s.cur.slot = some G
  only : G.splits = [p]
  num : p.id = s.cur.split
  answered : p.refused = none
  ahead : G.ra = none
  idle : G.infl = []
  loads : G.reloads = []

/-- A quiet group that has armed no register. -/
structure Calm (s : State) (G : Group) (p : Split) : Prop extends Quiet s G p where
  arms : G.arms = []

/-- A group with its vector registers replaced. -/
def Group.withV (G : Group) (v : Tab VReg) : Group := { G with regs := { G.regs with v := v } }

/-- The sources of a plan that a last-use bit frees (rule R21). -/
def Plan.freed (P : Plan) : List Nat := (P.lu.eraseDups).filter (fun n => !P.wv.contains n && !P.nd.contains n)

/-- A group with the freed sources of a plan gone. -/
def Group.release (G : Group) (P : Plan) : Group := P.freed.foldl (fun G n => G.setV n {}) G

/-- The vector registers that a plan names are MAPPED or EMPTY; reads of EMPTY registers raise nothing; and the pool has room for the
EMPTY destinations once the freed sources are gone (rules R19, R20, R22, R24). -/
structure Named (s : State) (G : Group) (P : Plan) : Prop where
  src : ∀ n ∈ P.rv, (G.vreg n).st = .mapped ∨ (G.vreg n).st = .empty
  dst : ∀ n ∈ P.wv, (G.vreg n).st = .mapped ∨ (G.vreg n).st = .empty
  quiet : fld G.deadread 1 1 = 0
  room : let need := ((P.wv.eraseDups).filter G.needsRoom).length * G.gran
    need = 0 ∨ ({ s.core s.cur.core with slots := (s.core s.cur.core).slots.set s.cur.slot (G.release P) }).fits (G.release P) need = true

/-- A vector register after an issue: a destination that was EMPTY is MAPPED, a freed source is EMPTY, another is as before. -/
def Plan.after (P : Plan) (G : Group) (n : Nat) : VReg :=
  if P.wv.contains n then (if (G.vreg n).st = .empty then { st := .mapped } else G.vreg n)
  else if P.lu.contains n && !P.nd.contains n then {}
  else G.vreg n

/-- `sys.deadread` after an issue (rules R22, R37). -/
def Plan.deadread (P : Plan) (X : Ctx) (G : Group) : W64 :=
  match G.deadReads X P with
  | [] => G.deadread
  | n :: ns => deadWord G.deadread (ns.foldl Nat.min n)

/-- A split after its instruction has issued, its next instruction at `pc`. -/
def Split.issued (p : Split) (cycle : Nat) (pc : W64) : Split :=
  { p with pc := pc, since := cycle, aged := false, word := none, stall := 0, waited := false, wait := .ready, refused := none }

/-- The package changed in the issue slots, the groups' slots and the event counters alone. -/
structure OnlySlots (s t : State) : Prop where
  rest : t = { s with cores := t.cores, parts := t.parts }
  counters : ∀ q, t.part q = { s.part q with pcnt := (t.part q).pcnt }
  cores : ∀ c, t.core c = { s.core c with slots := (t.core c).slots, islots := (t.core c).islots }
  others : ∀ c g, ¬(c = s.cur.core ∧ g = s.cur.slot) → t.group c g = s.group c g

/-- What the issue of an instruction of plan `P` with in-flight entry `e` changes, from `s` with group `G` and split `p`: only the group,
the issue slot's choice and the event counters; in the group, the entry is in flight, the split is at `pc`, the vector registers are as
`Plan.after` gives them and `sys.deadread` as `Plan.deadread` gives it. -/
structure Issued (s t : State) (G : Group) (p : Split) (P : Plan) (pc : W64) (e : Inflight) : Prop where
  only : OnlySlots s t
  group : ∃ v, t.group s.cur.core s.cur.slot = some { G.withV v with
    splits := [p.issued s.cycle pc]
    infl := [{ e with id := G.nextIid, split := p.id, reads := P.rv }]
    nextIid := G.nextIid + 1
    deadread := P.deadread s.cur G } ∧ ∀ n, v.get {} n = P.after G n

/-- The word checks pass (rule R60). -/
def Legal (s : State) (G : Group) (i : Instr) : Prop := i.check (s.env G) = none

/-- Instruction `i` of plan `P` issues with the register writes `ws`, which are then in flight. -/
def Computes (s : State) (G : Group) (p : Split) (i : Instr) (P : Plan) (ws : List RegW) : Prop :=
  Legal s G i → p.am ≠ 0 → Named s G P →
    ∃ t, exec i s = .next t ∧ Issued s t G p P (p.pc + 8) { id := 0, split := 0, pc := 0, writes := ws }

/-- A format R instruction that computes `val` of its operands in each active lane: in every calm state, whatever its operands are, it
issues with the writes that rule R70 gives. -/
def FormR (mk : FmtR → Instr) (h : FmtR → Shape) (sx : FmtR → Bool) (val : FmtR → Nat → Nat → Nat → Nat) : Prop :=
  ∀ s G p f, Calm s G p →
    Computes s G p (mk f) (planR f (h f)) (putAll G.w (activeLanes G p f.ge f.gn f.g) f.sd f.d.toNat (h f).wd (sx f) (fun l =>
      val f (G.opnd f.sa f.a.toNat (h f).wa l) (if (h f).useB then G.opnd f.sb f.b.toNat (h f).wb l else 0)
        (if (h f).useC then G.opnd f.sc f.c.toNat (h f).wc l else 0)))

/-- The registers that a format I word names. -/
def planI (f : FmtI) (pred : Bool) : Plan :=
  ((({} : Plan).guard f.ge f.gn f.g).src (spI f.sa) f.a.toNat (tyiWide f.tyi) f.la).dst (if pred then spPred else spI f.sd) f.d.toNat
    (tyiWide f.tyi && !pred)

/-- A format I instruction that computes `val` of operand A and its immediate, taken to the operand's width. -/
def FormI (mk : FmtI → Instr) (pred : Bool) (val : FmtI → Nat → Nat → Nat) : Prop :=
  ∀ s G p f, Calm s G p →
    Computes s G p (mk f) (planI f pred) (putAll G.w (activeLanes G p f.ge f.gn f.g) (if pred then spPred else spI f.sd) f.d.toNat
      (tyiWide f.tyi && !pred) (tyiSigned f.tyi) (fun l =>
        val f (G.opnd (spI f.sa) f.a.toNat (tyiWide f.tyi) l) (immI f (nI f))))

/-- Element `k` of `e` bits of a pattern (rule R73). -/
def elem (x e k : Nat) : Nat := x / 2 ^ (k * e) % 2 ^ e

/-- The value that a signed-digit form with the lowest digit first stands for (rule R84). -/
def digits (l : List Int) : Int :=
  match l with
  | [] => 0
  | d :: rest => d + 2 * digits rest

/-- A signed-binary form in which no two adjacent digits are non-zero (rule R84). -/
def NonAdjacent (l : List Int) : Prop :=
  match l with
  | [] => True
  | [d] => d = -1 ∨ d = 0 ∨ d = 1
  | d :: e :: rest => (d = -1 ∨ d = 0 ∨ d = 1) ∧ (d = 0 ∨ e = 0) ∧ NonAdjacent (e :: rest)

/-- The current group is `H` afterwards, and beside it only the issue slot's choice and the event counters have changed. -/
structure Moved (s t : State) (H : Group) : Prop where
  only : OnlySlots s t
  group : t.group s.cur.core s.cur.slot = some H

/-- A calm group after a control instruction that leaves its split with a mask, a stack and a PC, or without live lanes. -/
def Group.went (G : Group) (p : Split) (cycle : Nat) (r : Option (Mask × List Entry × W64)) : Group :=
  match r with
  | some (am, st, pc) => { G with splits := [{ p.issued cycle pc with am := am, stack := st }]
                                  infl := [{ id := G.nextIid, split := p.id, pc := 0 }], nextIid := G.nextIid + 1 }
  | none => { G.kill with infl := [{ id := G.nextIid, split := p.id, pc := 0 }], nextIid := G.nextIid + 1 }

/-- A control instruction without a target whose own steps give `r`: mask, stack and next PC, or none for STACK (rules R127, R132). -/
def Controls (s : State) (G : Group) (p : Split) (i : Instr) (r : Option (Mask × List Entry × W64)) : Prop :=
  Legal s G i →
    match r with
    | none => exec i s = .next (s.raise s.cur 2 0 p.stack.length)
    | some (am, st, next) => ∃ t, exec i s = .next t ∧ Moved s t (G.went p s.cycle (advance am st next))

/-- A control instruction with a target: its word must be of a permitted kind, before every other effect (rules R53, R132). -/
def ControlsTo (s : State) (G : Group) (p : Split) (i : Instr) (f : FmtB) (ok : List Nat) (r : Option (Mask × List Entry × W64)) : Prop :=
  ∀ w, s.fetchAt s.cur G.part (p.pc + 8 * f.off.signExtend 64).toNat = (s, some w) →
    (Legal s G i → opcode w ∉ ok → exec i s = .next (s.raise s.cur 1 0 (8 * 2 ^ 16))) ∧ (opcode w ∈ ok → Controls s G p i r)

/-- A cross-lane instruction of row 0x6_ with the writes `out` over its active lanes; one that is `whole` has no destination and no effect
without an active lane (rules R168, R173, R174, R176). -/
def LaneForm (mk : FmtR → Instr) (h : FmtR → Nat → Shape) (whole : Bool) (out : FmtR → Group → Mask → List RegW) : Prop :=
  ∀ s G p f, Calm s G p →
    let m := activeLanes G p f.ge f.gn f.g
    let P := planR f (h f G.w)
    let none' := whole && m == 0
    Computes s G p (mk f) (if none' then { P with wv := [], wk := [], wp := [], wh := [], nd := P.wv } else P) (if none' then [] else out f G m)

/-- The number that a finite value stands for; 0 for the others. -/
def FVal.rat (x : FVal) : ℚ :=
  match x with
  | .num neg m e => (if neg then -1 else 1) * m * (2 : ℚ) ^ e
  | _ => 0

/-- Whether a value is finite. -/
def FVal.finite (x : FVal) : Bool := match x with | .num _ _ _ => true | _ => false

/-- The largest finite value of a float type, and its smallest normal one (rules R94 and R99). -/
def largest (ty : BitVec 4) : ℚ :=
  match ty.toNat with
  | 0 => 65504
  | 1 => (2 - 1 / 2 ^ 7) * 2 ^ 127
  | 2 => (2 - 1 / 2 ^ 23) * 2 ^ 127
  | 3 => (2 - 1 / 2 ^ 52) * 2 ^ 1023
  | 4 => 448
  | 5 => 57344
  | 6 => 4096
  | _ => 16
def normal (ty : BitVec 4) : ℚ :=
  match ty.toNat with
  | 0 => 1 / 2 ^ 14
  | 1 => 1 / 2 ^ 126
  | 2 => 1 / 2 ^ 126
  | 3 => 1 / 2 ^ 1022
  | 4 => 1 / 2 ^ 6
  | 5 => 1 / 2 ^ 14
  | _ => 0

/-- Code `r` of a float type is the real number `x` rounded onto the type's finite values (rules R97 and R100): the value next to `x` on the
side that the mode names, or the nearest one, at a tie the code whose LSB is 0. -/
def Rounds (ty : BitVec 4) (mode : RMode) (x : ℝ) (r : Nat) : Prop :=
  let v (y : Nat) : ℝ := ((fop ty false y).rat : ℝ)
  (fop ty false r).finite = true ∧ ∀ y, (fop ty false y).finite = true →
    match mode with
    | .rd => v r ≤ x ∧ (v y ≤ x → v y ≤ v r)
    | .ru => x ≤ v r ∧ (x ≤ v y → v r ≤ v y)
    | .rz => |v r| ≤ |x| ∧ 0 ≤ x * v r ∧ (|v y| ≤ |x| → 0 ≤ x * v y → |v y| ≤ |v r|)
    | .rn => |x - v r| ≤ |x - v y| ∧ (|x - v r| = |x - v y| → v y ≠ v r → r % 2 = 0)

/-- Whether `x` overflows a float type in a mode to a result that is not the type's largest value (rules R97, R100 and R101). -/
def Overflows (ty : BitVec 4) (mode : RMode) (x : ℝ) : Prop :=
  let top : ℝ := (largest ty : ℝ)
  match mode with
  | .rz => False
  | .ru => top < x
  | .rd => x < -top
  | .rn => match ty.toNat with
    | 0 => 65520 ≤ |x|
    | 1 => (2 - 1 / 2 ^ 8) * 2 ^ 127 ≤ |x|
    | 2 => (2 - 1 / 2 ^ 24) * 2 ^ 127 ≤ |x|
    | 3 => (2 - 1 / 2 ^ 53) * 2 ^ 1023 ≤ |x|
    | 4 => 464 < |x|
    | 5 => 61440 ≤ |x|
    | _ => top < |x|

/-- Code `r` is the result that a float type gives the real number `x`, not zero, in a mode, with `.fz` where `fz` is set (rules R96, R97, R100
and R101): an overflow gives an infinity, or NaN or NaR in a type without one; a zero result keeps the sign of `x` in a binary format. -/
def Puts (ty : BitVec 4) (mode : RMode) (fz : Bool) (x : ℝ) (r : Nat) : Prop :=
  let infs : Bool := decide (ty.toNat ≤ 5) && ty != 4
  (Overflows ty mode x →
    (infs = false → fop ty false r = .nan) ∧ (infs = true → (0 < x → fop ty false r = .inf false) ∧ (x < 0 → fop ty false r = .inf true)))
  ∧ (¬ Overflows ty mode x → ∃ r', Rounds ty mode x r'
      ∧ (fz = false ∨ (normal ty : ℚ) ≤ |(fop ty false r').rat| → (fop ty false r).finite = true ∧ (fop ty false r).rat = (fop ty false r').rat)
      ∧ (fz = true → |(fop ty false r').rat| < (normal ty : ℚ) → (fop ty false r).finite = true ∧ (fop ty false r).rat = 0)
      ∧ (ty.toNat ≤ 5 → ((fop ty false r).isNeg = true ↔ x < 0)))

/-- A vector register's lanes as `lanesOf` lists them. -/
def Group.lanes (G : Group) (n : Nat) : Lanes := lanesOf G.w (fun l => G.vlane n l)

/-- The group's part of an issue: as `Issued`, whatever else of the package the instruction has changed; of the cores, only the slots and
what `more` names. -/
structure Posted (s t : State) (G : Group) (p : Split) (P : Plan) (e : Inflight) (more : Core → Core) : Prop where
  group : ∃ v, t.group s.cur.core s.cur.slot = some { G.withV v with
    splits := [p.issued s.cycle (p.pc + 8)]
    infl := [{ e with id := G.nextIid, split := p.id, reads := P.rv }]
    nextIid := G.nextIid + 1
    deadread := P.deadread s.cur G } ∧ ∀ n, v.get {} n = P.after G n
  here : ∃ sl is, t.core s.cur.core = { more (s.core s.cur.core) with slots := sl, islots := is }
  cores : ∀ c, c ≠ s.cur.core → t.core c = s.core c
  others : ∀ c g, ¬(c = s.cur.core ∧ g = s.cur.slot) → t.group c g = s.group c g
  counters : ∀ q, t.part q = { s.part q with pcnt := (t.part q).pcnt }

/-- A 16-byte object of the group's team at offset `v`: aligned, inside the reservation, mapped by no window, not poisoned (rules R180,
R262). -/
structure Object (s : State) (G : Group) (v : Nat) (T : Team) : Prop where
  team : s.teams.find G.tid = some T
  aligned : v % 16 = 0
  small : v < 2 ^ 19
  inside : v + 16 ≤ T.lsz
  windows : T.wins = []
  clean : T.bad v 16 = false

/-- A group whose splits that wait on the object at `o` of team `tid` are released. -/
def Group.woken (G : Group) (tid o : Nat) : Group :=
  if G.tid = tid ∧ G.stopped = false then
    { G with splits := G.splits.map (fun p => if p.wait = .barrier o ∨ p.wait = .arrival o then { p with wait := .ready } else p) }
  else G

/-- A barrier instruction is done: team `T` holds `T'`, the group's entry is in flight, and, where `wake` is set, the waiters of the object
at `o` are released; nothing else has changed but the issue slot's choice and the event counters. -/
structure ObjectDone (s t : State) (G : Group) (p : Split) (e : Inflight) (T' : Team) (wake : Bool) (o : Nat) : Prop where
  rest : t = { s with cores := t.cores, parts := t.parts, teams := t.teams }
  team : t.teams.find G.tid = some T'
  teams : ∀ k, k ≠ G.tid → t.teams.find k = s.teams.find k
  group : t.group s.cur.core s.cur.slot = some { G with
    splits := [p.issued s.cycle (p.pc + 8)], infl := [{ e with id := G.nextIid, split := p.id }], nextIid := G.nextIid + 1 }
  others : ∀ c g, ¬(c = s.cur.core ∧ g = s.cur.slot) →
    t.group c g = (s.group c g).map (fun H => if wake then H.woken G.tid o else H)

/-- A handler entered for cause `q` at split `p` (rules R401 and R405): `sys.trapcause` and `sys.trappc` hold the cause, the frame holds the split's
PC, AM, stack and resume address, and the split stands at the vector's entry with an empty stack and a cleared handler bank. -/
def Entered (vec : W64) (G : Group) (p : Split) (q : Cause) (H : Group) : Prop :=
  ∃ cause : W64, fld cause 59 5 = q.code ∧ fld cause 58 1 = (if q.deferred then 1 else 0) ∧ fld cause 57 1 = (if G.causes = [] then 0 else 1)
    ∧ fld cause 50 6 = q.lane % 64 ∧ fld cause 0 48 = q.info.toNat
    ∧ H = { G with
        trapcause := cause, trappc := q.pc, entry := none, regs := { G.regs with h := [] }
        frame := some { split := p.id, pc := p.pc, am := p.am, stack := p.stack, ra := q.ra, refused := if q.deferred then p.refused else none }
        splits := [{ p with pc := w64 (fld vec 3 54 * 8), am := if p.am = 0 then p.own else p.am, stack := [], word := none
                            wait := .ready, waited := false, batch := none, refused := none, stall := 8 }] }

/-- The registers `r` are the registers `b` of a group of `w` lanes after the writes `ws` in their order (rules R19, R20): a lane of a MAPPED
vector register, of a predicate or of a handler-bank register holds what the last write whose mask names it gave it, every other register
what the last write of it gave it, and what no write names is as before. -/
structure Written (w : Nat) (ws : List RegW) (b r : Regs) : Prop where
  state : ∀ n, (r.v.get {} n).st = (b.v.get {} n).st
  vector : ∀ n l, l < w → (b.v.get {} n).st = .mapped →
    laneOf (r.v.get {} n).val l = match (ws.filter (fun x => x.sp == .vec && x.num == n && inMask x.mask l)).getLast? with
      | some x => laneOf x.vals l
      | none => laneOf (b.v.get {} n).val l
  others : ∀ n, (b.v.get {} n).st ≠ .mapped ∨ (∀ x ∈ ws, ¬(x.sp = .vec ∧ x.num = n)) → r.v.get {} n = b.v.get {} n
  uniform : ∀ n, r.k.get 0 n = match (ws.filter (fun x => x.sp == .uni && x.num == n)).getLast? with
    | some x => x.word
    | none => b.k.get 0 n
  predicate : ∀ n l, (r.p.get 0 n).getLsbD l = match (ws.filter (fun x => x.sp == .pred && x.num == n && inMask x.mask l)).getLast? with
    | some x => x.word.getLsbD l
    | none => (b.p.get 0 n).getLsbD l
  index : ∀ n, r.x.get 0 n = match (ws.filter (fun x => x.sp == .idx && x.num == n)).getLast? with
    | some x => BitVec.ofNat 32 x.word.toNat
    | none => b.x.get 0 n
  translation : ∀ n, r.t.get {} n = match (ws.filter (fun x => x.sp == .trans && x.num == n)).getLast? with
    | some x => x.trans
    | none => b.t.get {} n
  handler : ∀ n l, l < w → laneOf (r.h.get [] n) l = match (ws.filter (fun x => x.sp == .hb && x.num == n && inMask x.mask l)).getLast? with
    | some x => laneOf x.vals l
    | none => laneOf (b.h.get [] n) l
  bank : ∀ n, (∀ x ∈ ws, ¬(x.sp = .hb ∧ x.num = n)) → r.h.get [] n = b.h.get [] n

/-- Beside one group, nothing of the package has changed. -/
structure OnlyGroup (s t : State) (c g : Nat) (H : Group) : Prop where
  group : t.group c g = some H
  others : ∀ d h, ¬(d = c ∧ h = g) → t.group d h = s.group d h
  rest : t = { s with cores := t.cores }

/-- The records of a partition's teams go nowhere: its event ring is off, its budget is not set, and none waits (rules R394, R455). -/
abbrev State.unrecorded (s : State) (p : Nat) : Prop :=
  fld (s.part p).event.ctl 63 1 = 0 ∧ fld (s.part p).pbud1 0 16 = 0 ∧ (s.part p).buffer = [] ∧ s.late = []

/-! ### Memory accesses -/

/-- The physical and the virtual address of an offset through a translation register (rules R16, R277). -/
def Group.pa (G : Group) (tr : Nat) (o : Int) : Nat := fld (G.treg tr).w1 0 52 + o.toNat
def Group.va (G : Group) (tr : Nat) (o : Int) : Nat := fld (G.treg tr).w0 0 57 + o.toNat

/-- An offset of `n` bytes passes the checks of rule R295 through a valid, fresh translation register of a page that does not migrate. -/
structure Through (s : State) (G : Group) (tr n : Nat) (rd wr : Bool) (o : Int) : Prop where
  valid : fld (G.treg tr).w1 63 1 = 1
  fresh : (G.treg tr).stale = false
  still : (G.treg tr).mig = none
  low : 0 ≤ o
  high : o < fld (G.treg tr).w2 0 36
  top : G.va tr o < 2 ^ 57
  aligned : G.va tr o % n = 0
  page : fld (G.treg tr).w1 0 52 % pageBytes (fld (G.treg tr).w1 52 4) = fld (G.treg tr).w0 0 57 % pageBytes (fld (G.treg tr).w1 52 4)
  reads : rd = true → fld (G.treg tr).w1 62 1 = 1
  writes : wr = true → fld (G.treg tr).w1 61 1 = 1
  region : s.regionOk (G.pa tr o) = true

/-- Where the accesses of `n` bytes of an instruction of plan `P`, at the offsets `off` of `lanes` through a translation register, raise a cause and
do nothing else (rules R295, R401): ALIGN with the lowest misaligned lane; else PROTECT with the lowest one whose register is not valid or whose
address is out of range; else PAGE for one lane's page that has no translation, where the fault ring is off; else PROTECT with the
lowest one without its permission or in a region that refuses it. -/
def TrapsAt (s : State) (G : Group) (i : Instr) (P : Plan) (tr n : Nat) (rd wr : Bool) (lanes : List Nat) (off : Nat → Int) : Prop :=
  let t := G.treg tr
  let e := t.entry G.part
  let va (l : Nat) : Int := (fld t.w0 0 57 : Int) + off l
  let out (l : Nat) : Bool := decide (fld t.w1 63 1 = 0 ∨ va l < 0 ∨ 2 ^ 57 ≤ va l)
  Legal s G i → Named s G P →
    (∀ l, lanes.find? (fun l => decide (va l % n ≠ 0)) = some l → exec i s = .next (s.raise s.cur 6 l (addrInfo (wrapInt (va l) 64))))
    ∧ ((∀ l ∈ lanes, va l % n = 0) →
      (∀ l, lanes.find? out = some l → exec i s = .next (s.raise s.cur 7 l (addrInfo (wrapInt (va l) 64))))
      ∧ ((∀ l ∈ lanes, out l = false) → t.stale = false →
        (∀ l, lanes = [l] → off l < 0 ∨ fld t.w2 0 36 ≤ off l → s.walkHeld (some s.cur.core) G.part (va l).toNat = false →
          s.translate (some s.cur.core) G.part (va l).toNat = (s, none) → fld (s.part G.part).pfring 63 1 = 0 →
          exec i s = .next (s.raise s.cur 8 l (addrInfo (va l).toNat)))
        ∧ ((∀ l ∈ lanes, 0 ≤ off l ∧ off l < fld t.w2 0 36) →
          ∀ l, lanes.find? (fun l => (rd && !e.rd) || (wr && !e.wr) || !s.regionOk (e.pa (va l).toNat)) = some l →
            exec i s = .next (s.raise s.cur 7 l (addrInfo (va l).toNat)))))

/-- The current core has no write on its way and no packet. -/
structure Clear (s : State) : Prop where
  homeq : (s.core s.cur.core).homeq = []
  packets : (s.core s.cur.core).packets = []

/-- The lane accesses of an instruction through a translation register. -/
def Group.accesses (G : Group) (tr : Nat) (lanes : List Nat) (off : Nat → Int) : List LaneA :=
  lanes.map (fun l => { lane := l, addr := G.pa tr (off l), va := G.va tr (off l) })

/-- The current group after the issue of an instruction of plan `P` with in-flight entry `e`, whatever else of the package changes. -/
def Went (s t : State) (G : Group) (p : Split) (P : Plan) (e : Inflight) : Prop :=
  ∃ v, t.group s.cur.core s.cur.slot = some { G.withV v with
    splits := [p.issued s.cycle (p.pc + 8)]
    infl := [{ e with id := G.nextIid, split := p.id, reads := P.rv }]
    nextIid := G.nextIid + 1
    deadread := P.deadread s.cur G } ∧ ∀ n, v.get {} n = P.after G n

/-- No copy owns a line, no window holds it, it lies in the package's own memory or the host's, within the partition's budget for host traffic
(rule R394), neither L1 of core `c`'s pair has it or has a write on its way, and no granule is poisoned. -/
structure AtHome (s : State) (c line : Nat) : Prop where
  owned : s.owned line = false
  barred : s.barred (s.partOf c) c line = false
  holders : s.holders line = []
  near : regionOf (128 * line) ≠ 1
  mine : (s.core c).l1line line = none ∧ (s.core c).homeq = []
  partner : (s.core (partnerOf c)).l1line line = none ∧ (s.core (partnerOf c)).homeq = []
  clean : s.poison = []

/-- The local-store reservation of a group's team, with no window in it and no poisoned word. -/
structure Store (s : State) (G : Group) (T : Team) : Prop where
  team : s.teams.find G.tid = some T
  windows : T.wins = []
  clean : T.lsBad = []

/-- An offset of `n` bytes that LDL may access (rules R262, R295). -/
def Team.inside (T : Team) (n : Nat) (o : Int) : Prop := 0 ≤ o ∧ o + n ≤ T.lsz ∧ o % n = 0

/-! ### The term engine -/

/-- A calm group whose team `T` has no pending allocation and no stash window, and whose split has all its lanes active (rules R224, R236). -/
structure Terms (s : State) (G : Group) (p : Split) (T : Team) : Prop extends Calm s G p where
  team : s.teams.find G.tid = some T
  served : T.req = none
  whole : p.am = p.own
  lanes : p.am ≠ 0
  windows : T.wins = []

/-- The current core's term queue has room for the current slot's instruction, none of a higher slot having entered it in this cycle (rule R214; log
entry 148). -/
structure HasRoom (s : State) : Prop where
  short : (s.core s.cur.core).tq.length < 16
  turn : ∀ e ∈ (s.core s.cur.core).tq, e.issued = s.cycle → e.slot % 4 ≤ s.cur.slot % 4

/-- What a queue entry sampled of its team's local store at its issue stands there unchanged, under no window and without a poisoned word. -/
def Sampled (s : State) (e : TermEntry) : Prop :=
  ∀ T, s.teams.find e.tid = some T → T.wins = [] ∧ T.lsBad = [] ∧ T.bytes e.off e.bytes.length = e.bytes ∧ T.bytes e.ioff e.ibytes.length = e.ibytes

/-- The float type of a term format's code (rules R48 and R205). -/
def termType (af : Nat) : BitVec 4 :=
  match af with
  | 2 => 4
  | 3 => 5
  | 4 => 7
  | 5 => 6
  | 6 => 0
  | 7 => 1
  | 8 => 2
  | _ => 3

/-- The value of an element's or a weight's code (rules R104, R205). -/
def termValue (af code : Nat) : FVal :=
  if af ≤ 1 then ofInt (sextNat code (twidth af)) else fop (termType af) false code

/-- An element whose count, exponent field and positions fit their fields of a block (rules R106, R108, R109). -/
def TElem.Fits (af : Nat) (e : TElem) : Prop :=
  match e with
  | .zero => True
  | .special k => 2 ≤ af ∧ k ≤ 2
  | .terms x ts => ts ≠ [] ∧ ts.length ≤ (tparam af).bound ∧ x < 2 ^ (tparam af).ew ∧ ∀ t ∈ ts, t.2 < 2 ^ (tparam af).pw
  | .over => False

/-- The entry `e` joins the current core's term queue, behind the earlier entries, for an instruction of plan `P` with the register writes `ws`; `more` says
what else the instruction does to its group, and nothing beside the group, the queue and the weight bank records has changed. -/
structure Queued (s t : State) (G : Group) (p : Split) (P : Plan) (ws : List RegW) (more : Group → Group) (e : TermEntry) : Prop where
  group : ∃ v, t.group s.cur.core s.cur.slot = some (more { G.withV v with
    splits := [p.issued s.cycle (p.pc + 8)]
    infl := [{ id := G.nextIid, split := p.id, pc := p.pc, kind := .term, ref := (s.core s.cur.core).nextId, writes := ws, reads := P.rv }]
    nextIid := G.nextIid + 1
    deadread := P.deadread s.cur G }) ∧ ∀ n, v.get {} n = P.after G n
  queue : (t.core s.cur.core).tq = (s.core s.cur.core).tq ++ [e]
  sums : (t.core s.cur.core).acc = (s.core s.cur.core).acc
  only : t = { s with cores := t.cores, parts := t.parts }
  id : e.id = (s.core s.cur.core).nextId
  owner : e.slot = s.cur.slot ∧ e.gid = G.gid ∧ e.iid = G.nextIid ∧ e.tid = G.tid ∧ e.w = G.w ∧ e.issued = s.cycle
    ∧ e.head = max s.cycle (s.core s.cur.core).headFrom

/-- The registers that TLDW and TLDWS name (rule R239). -/
def planLoad (f : FmtX) (sparse : Bool) : Plan :=
  let P := planX f true sparse
  let P := { P with rk := f.b.toNat :: (if sparse then f.c.toNat :: P.rk else P.rk) }
  if xopSrc f = 0 then { P with rv := rangeOf f f.a.toNat, lu := if f.la == 1 then rangeOf f f.a.toNat else [] }
  else { P with rk := f.a.toNat :: P.rk }

/-- The registers that TMMA names (rule R239). -/
def planMul (f : FmtX) : Plan :=
  let P := planX f true true
  let P := { P with rk := f.c.toNat :: P.rk }
  if xopSrc f = 0 then { P with rv := rangeOf f f.a.toNat, lu := if f.la == 1 then rangeOf f f.a.toNat else [] }
  else { P with rk := f.a.toNat :: P.rk }

/-- Nothing that a release waits for: no write is on its way from the current core, no packet is open, every L1 line is clean, and no group of the
current group's number has an instruction in flight (rules R271, R305). -/
structure Drained (s : State) (G : Group) : Prop extends Clear s where
  clean : ∀ L ∈ (s.core s.cur.core).l1, L.dirty = 0
  none' : ∀ e ∈ (s.core s.cur.core).slots, e.2.gid = G.gid → e.2.infl = []

/-- Nothing that a release above the pair waits for: the partner has no write-back on its way either, and its L1 is clean (rules R271, R325). -/
structure PairDrained (s : State) (G : Group) : Prop extends Drained s G where
  partner : (s.core (partnerOf s.cur.core)).homeq = []
  tidy : ∀ L ∈ (s.core (partnerOf s.cur.core)).l1, L.dirty = 0

/-- The payload bits of an element's zigzag value, and of a list of elements after the element `prev`, with Rice parameter `k` and width `w` (rule
R352). -/
def riceBits (k w prev : Nat) : List Nat → List Bool
  | [] => []
  | x :: xs =>
    let d := (x + 2 ^ w - prev) % 2 ^ w
    let z := if d < 2 ^ (w - 1) then 2 * d else 2 * (2 ^ w - d) - 1
    let low (n : Nat) : List Bool := (List.range n).map z.testBit
    (if z / 2 ^ k < 32 then List.replicate (z / 2 ^ k) true ++ [false] ++ low k else List.replicate 32 true ++ low w) ++ riceBits k w x xs

/-- An access of `n` bytes of one line outside any core that entry `e` of the first stack's TLB serves: permitted, in an enabled region of the
package's own or the host's memory, in a page that does not migrate, to a line that no copy owns and no window holds, without poison. -/
structure Mapped (s : State) (part va n : Nat) (e : TlbEnt) : Prop where
  found : s.stackTlb0.find? (fun (e : TlbEnt) => e.covers part va) = some e
  low : va < 2 ^ 57
  may : e.rd = true ∧ e.wr = true ∧ s.regionOk (e.pa va) = true
  near : regionOf (e.pa va) ≠ 1
  still : e.mig = none
  size : 0 < n
  inside : e.pa va % 128 + n ≤ 128
  path : s.pathHeld part va n = false
  owned : s.owned (e.pa va / 128) = false
  holders : s.holders (e.pa va / 128) = []
  clean : s.poison = []

/-- The packet `r` of queue `q` completes: it runs no longer, and its interrupt is sent where the packet and the queue ask for one (rules R372, R373). -/
structure PacketEnd (s t : State) (q : Nat) (r : PRun) : Prop where
  queue : t.queue q = { s.queue q with runs := (s.queue q).runs.filter (fun x => x.rid != r.rid) }
  others : ∀ j, j ≠ q → t.queue j = s.queue j
  irq : t.replies = s.replies ++ (if r.irq = true ∧ fld (s.queue q).ctl 8 1 = 1 then [.irq (s.queue q).part r.tag] else [])

/-- The address of the machine-check ring's next slot (rule R455). -/
def Ring.slot (r : Ring) : Nat := fld r.base 12 45 * 4096 + 32 * (r.wptr.toNat % 2 ^ (min (fld r.ctl 0 4) 12 + 8))

/-- The machine-check ring takes a record at once: it is on and has room, no record waits, and its slot lies outside other packages' memory in a
line that no copy owns and no window holds (rules R331, R455). -/
structure Checkable (s : State) : Prop where
  on : fld s.mc.ctl 63 1 = 1
  room : s.mc.full = false
  near : regionOf s.mc.slot ≠ 1
  holders : s.holders (s.mc.slot / 128) = []
  owned : s.owned (s.mc.slot / 128) = false
  late : s.late = []

/-- One machine-check record has been written, and memory has changed nowhere else (rule R415). -/
def Checked (s t : State) (kind part pa place : Nat) (synd : W64) : Prop :=
  t.mc = { s.mc with wptr := s.mc.wptr + 1 }
    ∧ t.mem = memSetAll s.mem (cellsAt s.mc.slot (recBytes [w64 s.now, w64 (kind * 2 ^ 56 + part * 2 ^ 53 + pa % 2 ^ 52), w64 (place % 2 ^ 24), synd]))

/-- Instruction `i` leaves port `j` as `q`, and changes nothing else of `u` but the transactions' ports and the times since which packages are cut
off: a transaction whose port is down moves to a usable port towards its package, where there is one, and is else as before; a package
that a usable port reaches is not cut off anew, and one that none reaches is cut off from when that began (rule R440). -/
def PortOnly (s u : State) (i : Instr) (j : Nat) (q : Port) : Prop :=
  ∃ t, exec i s = .next t ∧ t.port j = q ∧ (∀ k, k ≠ j → t.port k = s.port k)
    ∧ t = { u with ports := t.ports, lostSince := t.lostSince, xacts := t.xacts } ∧ t.xacts.length = s.xacts.length
    ∧ (∀ (n : Nat) (x : Xact), s.xacts[n]? = some x → ∃ y : Xact, t.xacts[n]? = some y ∧ y = { x with port := y.port }
        ∧ if (t.port x.port).state = 0 ∧ t.usablePorts x.pkg ≠ [] then y.port ∈ t.usablePorts x.pkg else y = x)
    ∧ ∀ pkg, (t.usablePorts pkg ≠ [] → s.lostSince.find pkg = none → t.lostSince.find pkg = none)
      ∧ (t.usablePorts pkg = [] → ∀ t0, s.lostSince.find pkg = some t0 → t.lostSince.find pkg = some t0)
      ∧ (t.usablePorts pkg = [] → s.lostSince.find pkg = none → (∃ x ∈ s.xacts, x.pkg = pkg) → t.lostSince.find pkg = some s.now)

end Machine

end Sys2Proof
end

