-- ==== Sys2Proof/Certificates/Slice0/Obligations.lean ====
section
/-! DEFINITION. The statements about the package, for the provers: each either stands here whole, or is the conjunction of clauses that do. -/

open Sys2Proof Sys2Proof.Machine

/-! ### Encoding -/

/-- Words that the programs of chapters 3 to 21 print decode to the instructions they stand for. -/
def Obligations.PrintedWordsDecode : Prop :=
  decode ⟨false, 32, 0⟩ 0x1006041008158030 =
    .ok (.add ⟨3, 1, 2, 0, 1, 0, 0, 5, 0, 1, 1, 0, 0, 0, 0, 6, 0⟩)
  ∧ decode ⟨false, 32, 0⟩ 0x5400000000120000 = .ok (.loop ⟨0, 0, 0, 9, 0, 0, 0⟩)
  ∧ decode ⟨false, 32, 0⟩ 0x37022468ACF00000 = .ok (.movi ⟨1, 0x12345678, 0, 0, 0, 0, 0, 0, 0⟩)
  ∧ decode ⟨false, 32, 0⟩ 0x8800000000000000 = .ok (.twait ⟨0, 0, 0, 0, 0, 0, 0, 0, 0, 0, 0, 0⟩)
  ∧ decode ⟨false, 32, 0⟩ 0x97000000000000F0 = .ok (.fence ⟨0, 0, 0, 0, 0, 0, 0, 0, 0, 0, 0, 0, 0, 3, 3, 0, 0, 0⟩)

/-- The decoder reads back the word that the encoder gives a well-formed instruction, with every operand. -/
def Obligations.DecodeEncode : Prop :=
  ∀ (env : Env) (i : Instr) (w : W64), encode i = some w → i.check env = none → decode env w = .ok i

/-- An instruction that the decoder reads from a word encodes to that word: no bit of a word is dropped. -/
def Obligations.EncodeDecode : Prop :=
  ∀ (env : Env) (i : Instr) (w : W64), decode env w = .ok i → encode i = some w

/-- A word is decoded only when it passes its word checks, and a decoded word passes them; the check that a word fails is 1
where its opcode is not assigned, else the first that its instruction fails. -/
def Clause.DecodeChecks : Prop :=
  ∀ (env : Env) (w : W64),
    (∀ i, decode env w = .ok i → i.check env = none)
    ∧ ∀ e, decode env w = .error e ↔ (decodeWord w = none ∧ e = bad 1) ∨ ∃ i, decodeWord w = some i ∧ i.check env = some e
/-! ### Integer instructions -/

/-- Rule R75: each element of ADD, SUB, MIN, MAX, ABS and NEG is computed exactly, saturated under `.sat`, and wrapped. -/
def Clause.ElementArithmetic : Prop :=
  ∀ (mk : FmtR → Instr) (x : Int → Int → Int) (useB mayBeSat : Bool),
    (mk, x, useB, mayBeSat) ∈ [
      (Instr.add, (fun a b => a + b), true, true),
      (Instr.sub, (fun a b => a - b), true, true),
      (Instr.min, (fun a b => if a ≤ b then a else b), true, false),
      (Instr.max, (fun a b => if a ≥ b then a else b), true, false),
      (Instr.abs, (fun a _ => if a < 0 then -a else a), false, true),
      (Instr.neg, (fun a _ => -a), false, true)] →
    ∃ val, FormR mk (fun f => shInt f.ty useB false) (fun f => f.ty == 6) val
      ∧ ∀ f a b c k, k < tyWidth f.ty / tyElem f.ty →
          let e := tyElem f.ty
          let v (n : Nat) : Int := if tyIsSigned f.ty then sextNat (elem n e k) e else (elem n e k : Int)
          elem (val f a b c) e k = wrapInt (let r := x (v a) (v b)
            if mayBeSat && f.opx.getLsbD 0 then
              (if tyIsSigned f.ty then max (-(2 ^ (e - 1) : Int)) (min r (2 ^ (e - 1) - 1)) else max 0 (min r (2 ^ e - 1)))
            else r) e

/-- Rule R76: MUL, MULHI and MAD, with `.wide`. -/
def Clause.Multiply : Prop :=
  let n (f : FmtR) : Nat := if tyIs64 f.ty then 64 else 32
  let out (f : FmtR) : Nat := if f.opx = 1 then 64 else n f
  let v (f : FmtR) (n x : Nat) : Int := if tyIsSigned f.ty then sextNat x n else ((x % 2 ^ n : Nat) : Int)
  let wide (f : FmtR) : Bool := tyIs64 f.ty || f.opx == 1
  let sh (f : FmtR) (c : Bool) : Shape := { wd := wide f, wa := tyIs64 f.ty, wb := tyIs64 f.ty, wc := wide f, useC := c }
  FormR .mul (fun f => sh f false) (fun f => f.ty == 6) (fun f a b _ => wrapInt (v f (n f) a * v f (n f) b) (out f))
  ∧ FormR .mulhi (fun f => shInt f.ty true false) (fun f => f.ty == 6)
      (fun f a b _ => wrapInt (v f (n f) a * v f (n f) b) (2 * n f) / 2 ^ n f)
  ∧ FormR .mad (fun f => sh f true) (fun f => f.ty == 6)
      (fun f a b c => wrapInt (v f (n f) a * v f (n f) b + v f (out f) c) (out f))

/-- Rule R77: DIV and REM truncate toward zero, and neither traps on a zero divisor or on overflow. -/
def Clause.Divide : Prop :=
  let n (f : FmtR) : Nat := if tyIs64 f.ty then 64 else 32
  let v (f : FmtR) (x : Nat) : Int := if tyIsSigned f.ty then sextNat x (n f) else ((x % 2 ^ n f : Nat) : Int)
  let q (f : FmtR) (a b : Int) : Int :=
    if b = 0 then -1 else if tyIsSigned f.ty = true ∧ a = -(2 ^ (n f - 1) : Int) ∧ b = -1 then a else a.tdiv b
  let m (f : FmtR) (a b : Int) : Int :=
    if b = 0 then a else if tyIsSigned f.ty = true ∧ a = -(2 ^ (n f - 1) : Int) ∧ b = -1 then 0 else a - a.tdiv b * b
  FormR .div (fun f => shInt f.ty true false) (fun f => f.ty == 6) (fun f a b _ => wrapInt (q f (v f a) (v f b)) (n f))
  ∧ FormR .rem (fun f => shInt f.ty true false) (fun f => f.ty == 6) (fun f a b _ => wrapInt (m f (v f a) (v f b)) (n f))

/-- Rules R78 and R79: LEA adds the shifted operand, and AND, OR, XOR and NOT act on each bit, with `.nb` on the complement of b. -/
def Clause.AddressAndLogic : Prop :=
  let n (f : FmtR) : Nat := if tyIs64 f.ty then 64 else 32
  FormR .lea (fun f => { wd := tyIs64 f.ty, wa := tyIs64 f.ty }) (fun f => f.ty == 6) (fun f a b _ =>
    wrapInt ((a : Int) + (if f.ty = 7 then sextNat b 32 else ((b % 2 ^ 32 : Nat) : Int)) * 2 ^ f.opx.toNat) (n f))
  ∧ ∀ (mk : FmtR → Instr) (op : Bool → Bool → Bool) (useB : Bool),
      (mk, op, useB) ∈ [(Instr.and, (fun a b => a && b), true), (Instr.or, (fun a b => a || b), true),
        (Instr.xor, (fun a b => a != b), true), (Instr.not, (fun a _ => !a), false)] →
      ∃ val, FormR mk (fun f => shInt f.ty useB false) (fun _ => false) val
        ∧ ∀ f a b c i, i < n f → (val f a b c).testBit i = op (a.testBit i) (b.testBit i != f.opx.getLsbD 0)

/-- Rule R80: SHL, SHR, SAR and ROT by an unsigned 32-bit amount, below the width and above it. -/
def Clause.Shifts : Prop :=
  let n (f : FmtR) : Nat := if tyIs64 f.ty then 64 else 32
  ∀ (mk : FmtR → Instr) (src : Nat → Nat → Nat → Option Nat),
    (mk, src) ∈ [
      (Instr.shl, (fun _n s i => if s ≤ i then some (i - s) else none)),
      (Instr.shr, (fun n s i => if i + s < n then some (i + s) else none)),
      (Instr.sar, (fun n s i => some (min (i + s) (n - 1)))),
      (Instr.rot, (fun n s i => some ((i + (n - s % n)) % n)))] →
    ∃ val, FormR mk (fun f => { wd := tyIs64 f.ty, wa := tyIs64 f.ty }) (fun _ => false) val
      ∧ ∀ f a s c i, i < n f → a < 2 ^ n f →
          (val f a s c).testBit i = match src (n f) s i with | some j => a.testBit j | none => false

/-- Rules R81, R82 and R83: bit fields taken out and put in, bits reversed, and bits and leading and trailing zeros counted. -/
def Clause.BitFields : Prop :=
  let n (f : FmtR) : Nat := if tyIs64 f.ty then 64 else 32
  let shift (f : FmtR) : Shape := { wd := tyIs64 f.ty, wa := tyIs64 f.ty, useC := true }
  let count (f : FmtR) : Shape := { wa := tyIs64 f.ty, wb := tyIs64 f.ty, wc := tyIs64 f.ty, useB := false }
  FormR .bfe shift (fun f => f.ty == 6) (fun f a b c =>
    let pos := b % 256
    let len := c % 256
    if len = 0 ∨ pos ≥ n f then 0
    else
      let top := min (pos + len) (n f) - 1
      let w := top - pos + 1
      let field := a / 2 ^ pos % 2 ^ w
      if tyIsSigned f.ty then wrapInt (sextNat field w) (n f) else field)
  ∧ (∃ val, FormR .bfi (fun f => { shInt f.ty true true with wc := false }) (fun _ => false) val
      ∧ ∀ f a b c i, i < n f → a < 2 ^ n f →
          (val f a b c).testBit i =
            if c % 256 ≤ i ∧ i < min (c % 256 + c / 256 % 256) (n f) then b.testBit (i - c % 256) else a.testBit i)
  ∧ (∃ val, FormR .brev (fun f => shInt f.ty false false) (fun _ => false) val
      ∧ ∀ f a b c i, i < n f → (val f a b c).testBit i = a.testBit (n f - 1 - i))
  ∧ FormR .popc count (fun _ => false) (fun f a _ _ => ((Finset.range (n f)).filter (fun i => a.testBit i = true)).card)
  ∧ (∃ val, FormR .clz count (fun _ => false) val
      ∧ ∀ f a b c, val f a b c ≤ n f ∧ (∀ i, i < val f a b c → a.testBit (n f - 1 - i) = false)
          ∧ (val f a b c < n f → a.testBit (n f - 1 - val f a b c) = true))
  ∧ (∃ val, FormR .ctz count (fun _ => false) val
      ∧ ∀ f a b c, val f a b c ≤ n f ∧ (∀ i, i < val f a b c → a.testBit i = false)
          ∧ (val f a b c < n f → a.testBit (val f a b c) = true))

/-- Rule R84: TCNT counts the non-zero digits of the form in which no two adjacent digits are non-zero, and adds or takes the largest of
the elements' counts. -/
def Clause.TermCount : Prop :=
  ∃ (val : FmtR → Nat → Nat → Nat → Nat) (count : Int → Nat),
    FormR .tcnt (fun f => { wa := tyIs64 f.ty, wb := tyIs64 f.ty, wc := tyIs64 f.ty, useB := false }) (fun _ => false) val
    ∧ (∀ l x, NonAdjacent l → digits l = x → -(2 ^ 64 : Int) < x → x < 2 ^ 64 → count x = (l.filter (fun d => d ≠ 0)).length)
    ∧ (∀ x : Int, -(2 ^ 64 : Int) < x → x < 2 ^ 64 → ∃ l, NonAdjacent l ∧ digits l = x)
    ∧ ∀ f a b c,
        let e := tyElem f.ty
        let v (k : Nat) : Int := if tyIsSigned f.ty then sextNat (elem a e k) e else (elem a e k : Int)
        let counts := (List.range (tyWidth f.ty / e)).map (fun k => count (v k))
        val f a b c = if f.opx.getLsbD 0 then counts.foldl max 0 else counts.sum

/-- Rules R85, R86 and R87: CMP writes the truth of its condition, PAND, POR, PXOR and PNOT combine predicates, and SEL chooses. -/
def Clause.ComparesAndSelects : Prop :=
  let n (f : FmtR) : Nat := if tyIs64 f.ty then 64 else 32
  let v (f : FmtR) (x : Nat) : Int := if tyIsSigned f.ty then sextNat x (n f) else ((x % 2 ^ n f : Nat) : Int)
  let bit (b : Bool) : Nat := if b then 1 else 0
  let inv (f : FmtR) (k x : Nat) : Bool := (x != 0) ^^ f.opx.getLsbD k
  FormR .cmp (fun f => { shInt f.ty true false with wd := false }) (fun _ => false) (fun f a b _ => bit (
    match f.opx.toNat with
    | 0 => decide (v f a = v f b)
    | 1 => decide (v f a ≠ v f b)
    | 2 => decide (v f a < v f b)
    | 3 => decide (v f a ≤ v f b)
    | 4 => decide (v f a > v f b)
    | 5 => decide (v f a ≥ v f b)
    | _ => decide ((a &&& b) % 2 ^ n f ≠ 0)))
  ∧ FormR .pand (fun _ => {}) (fun _ => false) (fun f a b _ => bit (inv f 0 a && inv f 1 b))
  ∧ FormR .por (fun _ => {}) (fun _ => false) (fun f a b _ => bit (inv f 0 a || inv f 1 b))
  ∧ FormR .pxor (fun _ => {}) (fun _ => false) (fun f a b _ => bit (inv f 0 a ^^ inv f 1 b))
  ∧ FormR .pnot (fun _ => { useB := false }) (fun _ => false) (fun _ a _ _ => bit (a == 0))
  ∧ FormR .sel (fun f => { shInt f.ty true true with wc := false }) (fun _ => false) (fun _ a b c => if c = 0 then b else a)

/-- Rule R91: each format I instruction has the effect of its register form with the immediate as b; the amount of a shift is bits
[31:0] of the immediate, and BFE's pos and len are its low bytes. -/
def Clause.ImmediateForms : Prop :=
  let n (f : FmtI) : Nat := if tyiWide f.tyi then 64 else 32
  let sg (f : FmtI) : Bool := tyiSigned f.tyi
  let v (f : FmtI) (x : Nat) : Int := if sg f then sextNat x (n f) else ((x % 2 ^ n f : Nat) : Int)
  let sat (f : FmtI) (x : Int) : Int :=
    if f.opx.getLsbD 0 then
      (if sg f then max (-(2 ^ (n f - 1) : Int)) (min x (2 ^ (n f - 1) - 1)) else max 0 (min x (2 ^ n f - 1)))
    else x
  let nb (f : FmtI) (b : Nat) : Nat := if f.opx.getLsbD 0 then 2 ^ n f - 1 - b % 2 ^ n f else b
  FormI .addI false (fun f a b => wrapInt (sat f (v f a + v f b)) (n f))
  ∧ FormI .subI false (fun f a b => wrapInt (sat f (v f a - v f b)) (n f))
  ∧ FormI .mulI false (fun f a b => wrapInt (v f a * v f b) (n f))
  ∧ FormI .andI false (fun f a b => a &&& nb f b)
  ∧ FormI .orI false (fun f a b => a ||| nb f b)
  ∧ FormI .xorI false (fun f a b => a ^^^ nb f b)
  ∧ FormI .shlI false (fun f a b => let s := b % 2 ^ 32; if s < n f then a * 2 ^ s % 2 ^ n f else 0)
  ∧ FormI .shrI false (fun f a b => let s := b % 2 ^ 32; if s < n f then a / 2 ^ s else 0)
  ∧ FormI .sarI false (fun f a b => wrapInt (sextNat a (n f) / 2 ^ min (b % 2 ^ 32) (n f)) (n f))
  ∧ FormI .rotI false (fun f a b => let s := b % 2 ^ 32 % n f; (a * 2 ^ s + a / 2 ^ (n f - s)) % 2 ^ n f)
  ∧ FormI .minI false (fun f a b => wrapInt (min (v f a) (v f b)) (n f))
  ∧ FormI .maxI false (fun f a b => wrapInt (max (v f a) (v f b)) (n f))
  ∧ FormI .bfeI false (fun f a b =>
      let pos := b % 256
      let len := b / 256 % 256
      if len = 0 ∨ pos ≥ n f then 0
      else
        let w := min (pos + len) (n f) - pos
        let field := a / 2 ^ pos % 2 ^ w
        if sg f then wrapInt (sextNat field w) (n f) else field)
  ∧ FormI .cmpI true (fun f a b =>
      let x : Bool := match f.opx.toNat with
        | 0 => decide (v f a = v f b)
        | 1 => decide (v f a ≠ v f b)
        | 2 => decide (v f a < v f b)
        | 3 => decide (v f a ≤ v f b)
        | 4 => decide (v f a > v f b)
        | 5 => decide (v f a ≥ v f b)
        | _ => decide ((a &&& b) % 2 ^ n f ≠ 0)
      if x then 1 else 0)

/-! ### Moves -/

/-- Rules R88 and R89: MOV copies an operand in its three forms, and MOVI writes an immediate. -/
def Clause.Moves : Prop :=
  ∀ s G p, Calm s G p →
    (∀ f : FmtR, let m := activeLanes G p f.ge f.gn f.g
      let P := ({} : Plan).guard f.ge f.gn f.g
      (f.opx = 0 → Computes s G p (.mov f) ((P.src f.sa f.a.toNat (f.ty == 3) f.la).dst f.sd f.d.toNat (f.ty == 3))
        (putAll G.w m f.sd f.d.toNat (f.ty == 3) false (fun l => G.opnd f.sa f.a.toNat (f.ty == 3) l)))
      ∧ (f.opx = 1 → Computes s G p (.mov f) { P with rk := [f.a.toNat], wx := [f.d.toNat] }
          (if m = 0 then [] else [{ sp := .idx, num := f.d.toNat, word := ((G.uni f.a.toNat).setWidth 32).setWidth 64 }]))
      ∧ (f.opx = 2 → Computes s G p (.mov f) ({ P with rx := [f.a.toNat] }.dst f.sd f.d.toNat false)
          (putAll G.w m f.sd f.d.toNat false true (fun _ => (G.idxReg f.a.toNat).toNat))))
    ∧ ∀ f : FmtK, let m := activeLanes G p f.ge f.gn f.g
      let P := (({} : Plan).guard f.ge f.gn f.g).dst f.sd f.d.toNat false
      let word : W64 := if f.part = 2 then f.imm32 ++ (G.uni f.d.toNat).setWidth 32
        else if f.part = 0 then f.imm32.signExtend 64 else f.imm32.setWidth 64
      (f.sd = spUni → Computes s G p (.movi f) P (if m = 0 then [] else [{ sp := .uni, num := f.d.toNat, word := word }]))
      ∧ (f.sd ≠ spUni → Computes s G p (.movi f) P (putAll G.w m f.sd f.d.toNat false false (fun _ => f.imm32.toNat)))

/-- Rules R31 and R90: MOVX and MOVXW reach register N + x[i] inside the declared array that holds N, and raise REGINDEX elsewhere, once the
registers that their word names let them issue. -/
def Clause.IndexedMoves : Prop :=
  ∀ s G p (f : FmtR), Calm s G p → p.am ≠ 0 →
    let ix := (f.opx.extractLsb' 0 2).toNat
    let w := f.ty == 3
    let m := activeLanes G p f.ge f.gn f.g
    let P := ({} : Plan).guard f.ge f.gn f.g
    let e (n : Nat) : Int := n + (G.idxReg ix).toInt
    let array (n : Nat) : Option (Nat × Nat) := (s.arrays G).find? (fun a => decide (a.1 ≤ n ∧ n < a.1 + a.2))
    let within (n : Nat) : Prop := ∃ b len, array n = some (b, len) ∧ (b : Int) ≤ e n ∧ e n < b + len
      ∧ (w = true → e n % 2 = 0 ∧ e n + 1 < b + len)
    let ready (P : Plan) : Prop := ∀ n ∈ P.rv ++ P.wv, (G.vreg n).st = .mapped ∨ (G.vreg n).st = .empty
    (within f.a.toNat → Computes s G p (.movx f)
        { ((P.src spVec (e f.a.toNat).toNat w f.la).dst spVec f.d.toNat w) with rx := [ix] }
        (putAll G.w m spVec f.d.toNat w false (fun l => G.opnd spVec (e f.a.toNat).toNat w l)))
    ∧ (within f.d.toNat → Computes s G p (.movxw f)
        { ((P.src f.sa f.a.toNat w f.la).dst spVec (e f.d.toNat).toNat w) with rx := [ix] }
        (putAll G.w m spVec (e f.d.toNat).toNat w false (fun l => G.opnd f.sa f.a.toNat w l)))
    ∧ (¬ within f.a.toNat → Legal s G (.movx f) → ready (P.dst spVec f.d.toNat w) →
        exec (.movx f) s = .next (s.raise s.cur 4 0 (f.a.toNat * 2 ^ 32 + (G.idxReg ix).toNat)))
    ∧ (¬ within f.d.toNat → Legal s G (.movxw f) → ready (P.src f.sa f.a.toNat w f.la) →
        exec (.movxw f) s = .next (s.raise s.cur 4 0 (f.d.toNat * 2 ^ 32 + (G.idxReg ix).toNat)))

/-! ### Structured control -/

/-- Rule R127: `advance`, with which every control instruction ends. -/
def Clause.Advance : Prop :=
  ∀ (am : Mask) (st : List Entry) (next : W64),
    (am ≠ 0 → advance am st next = some (am, st, next))
    ∧ (st = [] → advance 0 st next = none)
    ∧ (∀ e rest, st = e :: rest → e.kind = .ifE ∨ e.kind = .loopE → advance 0 st next = some (0, st, e.addr))
    ∧ (∀ e rest, st = e :: rest → e.kind = .callE → e.outer ≠ 0 → advance 0 st next = some (e.outer, rest, e.addr))
    ∧ (∀ e rest, st = e :: rest → e.kind = .callE → e.outer = 0 → advance 0 st next = advance 0 rest next)

/-- Rules R129, R132, R133 and R154: IF, IFS, ELSE and ENDIF in a calm group. IFS forms a second split when both arms have lanes, the
word at RESUME is an ELSE, and the group runs no handler; else it acts as IF. -/
def Clause.Conditionals : Prop :=
  ∀ s G p (f : FmtB), Calm s G p →
    let cond : Mask := if f.pe = 0 then BitVec.allOnes 64 else if f.pn = 1 then ~~~(G.pred f.p.toNat) else G.pred f.p.toNat
    let target := p.pc + 8 * f.off.signExtend 64
    let taken := p.am &&& cond
    let pend := p.am &&& ~~~cond
    let entry (bySplit : Bool) : Entry := { kind := .ifE, outer := p.am, alt := pend, addr := target, bySplit := bySplit }
    let push (bySplit : Bool) : Option (Mask × List Entry × W64) :=
      if p.stack.length ≥ 32 then none else some (taken, entry bySplit :: p.stack, p.pc + 8)
    ControlsTo s G p (.ifThen f) f [0x52, 0x53] (push false)
    ∧ ((taken = 0 ∨ pend = 0 ∨ G.frame ≠ none ∨ p.stack.length ≥ 32) → ControlsTo s G p (.ifs f) f [0x52, 0x53] (push true))
    ∧ (∀ w, s.fetchAt s.cur G.part target.toNat = (s, some w) → opcode w = 0x53 → Controls s G p (.ifs f) (push true))
    ∧ (∀ w, s.fetchAt s.cur G.part target.toNat = (s, some w) → opcode w = 0x52 → Legal s G (.ifs f) → taken ≠ 0 → pend ≠ 0 → G.frame = none →
        p.stack.length < 32 →
        let mine : Entry := { entry true with alt := 0, join := some G.nextTag }
        let a : Split := { p.issued s.cycle (p.pc + 8) with am := taken, stack := mine :: p.stack, own := p.own &&& ~~~pend }
        let b : Split := { id := if p.id = 0 then 1 else 0, pc := target + 8, am := pend, own := pend, since := s.cycle
                           stack := { mine with addr := target + 8 * (decodeB w).off.signExtend 64 } :: p.stack }
        ∃ t, exec (.ifs f) s = .next t ∧ Moved s t { G with
          splits := if p.id = 0 then [a, b] else [b, a], nextTag := G.nextTag + 1
          infl := [{ id := G.nextIid, split := p.id, pc := 0 }], nextIid := G.nextIid + 1 })
    ∧ ControlsTo s G p (.elseArm f) f [0x53] (match p.stack with
        | e :: rest => if e.kind = .ifE then some (e.alt, { e with alt := 0, addr := target } :: rest, p.pc + 8) else none
        | [] => none)
    ∧ Controls s G p (.endif f) (match p.stack with
        | e :: rest => if e.kind = .ifE then some (e.outer, rest, p.pc + 8) else none
        | [] => none)

/-- Rules R129, R154 and R155: ENDIF of a split whose top entry has a join tag that another live split holds: it waits in MERGE until the other does,
then the two merge in one step: the lower-numbered one goes on from its ENDIF with both splits' lanes, each stack entry with what the two
agree on, and the other has ended. That the one which goes on counts as having issued, for its age, is the model's choice (log entry 141). -/
def Clause.Merge : Prop :=
  ∀ s G (a b : Split) (f : FmtB) (ea eb : Entry) ra rb j (second : Bool),
    let p := if second then b else a
    let q := if second then a else b
    s.group s.cur.core s.cur.slot = some G → G.splits = [a, b] → a.id < b.id → p.id = s.cur.split → p.refused = none → G.ra = none → G.infl = [] →
    G.reloads = [] → G.causes = [] → G.preempt = none → Legal s G (.endif f) → a.stack = ea :: ra → b.stack = eb :: rb → ea.kind = .ifE → eb.kind = .ifE →
    ea.join = some j → eb.join = some j → ra.length = rb.length →
      (q.wait ≠ .merge → ∃ t, exec (.endif f) s = .next t
        ∧ OnlyGroup s t s.cur.core s.cur.slot { G with splits :=
            let p' := { p with wait := .merge, stall := 5, waited := true }
            if second then [a, p'] else [p', b] })
      ∧ (q.wait = .merge → q.refused = none → ea.outer &&& eb.outer ≠ 0 → ∃ t, ∃ st : List Entry, exec (.endif f) s = .next t
        ∧ Moved s t { G with
            splits := [{ a.issued s.cycle (a.pc + 8) with am := ea.outer &&& eb.outer, stack := st, own := a.own ||| b.own }]
            infl := [{ id := G.nextIid, split := p.id, pc := 0 }], nextIid := G.nextIid + 1 }
        ∧ st.length = ra.length
        ∧ ∀ (n : Nat) (x y : Entry), ra[n]? = some x → rb[n]? = some y → ∃ z, st[n]? = some { x with outer := x.outer &&& y.outer, alt := z }
            ∧ (x.kind = .ifE → z = x.alt &&& y.alt) ∧ (x.kind = .loopE → z = x.alt ||| y.alt))

/-- Rules R129 and R130: LOOP, ENDLOOP, BREAK and CONTINUE; a BREAK or CONTINUE acts on the innermost LOOP entry above every CALL entry,
below the IF entries `ifs`. -/
def Clause.Loops : Prop :=
  ∀ s G p (f : FmtB), Calm s G p →
    let cond : Mask := if f.pe = 0 then BitVec.allOnes 64 else if f.pn = 1 then ~~~(G.pred f.p.toNat) else G.pred f.p.toNat
    let target := p.pc + 8 * f.off.signExtend 64
    let x := p.am &&& cond
    ControlsTo s G p (.loop f) f [0x55]
      (if p.stack.length ≥ 32 then none else some (p.am, { kind := .loopE, outer := p.am, addr := target } :: p.stack, p.pc + 8))
    ∧ ControlsTo s G p (.endloop f) f [0x54] (match p.stack with
        | e :: rest =>
          let again := (p.am ||| e.alt) &&& cond
          if e.kind ≠ .loopE then none
          else if again ≠ 0 then some (again, { e with alt := 0 } :: rest, target + 8) else some (e.outer, rest, p.pc + 8)
        | [] => none)
    ∧ (∀ ifs e rest, p.stack = ifs ++ e :: rest → (∀ a ∈ ifs, a.kind = .ifE) → e.kind = .loopE →
        let left := ifs.map (fun a => { a with outer := a.outer &&& ~~~x, alt := a.alt &&& ~~~x })
        ControlsTo s G p (.breakLoop f) f [0x55] (some (p.am &&& ~~~x, left ++ e :: rest, p.pc + 8))
        ∧ ControlsTo s G p (.continueLoop f) f [0x55] (some (p.am &&& ~~~x, left ++ { e with alt := e.alt ||| x } :: rest, p.pc + 8)))
    ∧ ((∀ ifs e rest, p.stack = ifs ++ e :: rest → (∀ a ∈ ifs, a.kind = .ifE) → e.kind ≠ .loopE) →
        ControlsTo s G p (.breakLoop f) f [0x55] none ∧ ControlsTo s G p (.continueLoop f) f [0x55] none)

/-- Rule R131: CALL pushes where it takes a lane, and RET removes its lanes from every entry above the innermost CALL. -/
def Clause.Calls : Prop :=
  ∀ s G p (f : FmtB), Calm s G p →
    let cond : Mask := if f.pe = 0 then BitVec.allOnes 64 else if f.pn = 1 then ~~~(G.pred f.p.toNat) else G.pred f.p.toNat
    let target := p.pc + 8 * f.off.signExtend 64
    let x := p.am &&& cond
    (∀ w, s.fetchAt s.cur G.part target.toNat = (s, some w) → opAssigned (opcode w) = true → Controls s G p (.call f)
      (if x = 0 then some (p.am, p.stack, p.pc + 8)
       else if p.stack.length ≥ 32 then none
       else some (x, { kind := .callE, outer := p.am, addr := p.pc + 8 } :: p.stack, target)))
    ∧ (∀ above e rest, p.stack = above ++ e :: rest → (∀ a ∈ above, a.kind ≠ .callE) → e.kind = .callE →
        Controls s G p (.ret f) (some (p.am &&& ~~~x,
          above.map (fun a => { a with outer := a.outer &&& ~~~x, alt := a.alt &&& ~~~x }) ++ e :: rest, p.pc + 8)))
    ∧ ((∀ a ∈ p.stack, a.kind ≠ .callE) → Controls s G p (.ret f) none)

/-! ### System instructions -/

/-- Rules R137, R140, R141, R143 and R257: NOP, SAFEPT without a pending request, SREAD, and CLK, with `.wait` once every earlier write of the split
is home; where one was not when the CLK came to be the split's next instruction, the cycle of the last completion is sampled. -/
def Clause.SystemReads : Prop :=
  ∀ s G p (f : FmtS), Calm s G p →
    let m := activeLanes G p f.ge f.gn f.g
    let P := ({} : Plan).guard f.ge f.gn f.g
    let sel := f.sel.toNat
    Computes s G p (.nop f) {} []
    ∧ (G.preempt = none ∨ G.frame ≠ none → Computes s G p (.safept f) {} [])
    ∧ Computes s G p (.sread f)
        (let Q := P.dst f.sd f.d.toNat (f.sop == 1)
         if sel ≥ 0x40 then { Q with rt := [(sel - 0x40) / 4] } else Q)
        (putAll G.w m f.sd f.d.toNat (f.sop == 1 || f.sd == spUni) false (fun l => (s.sysReg s.cur G sel l).toNat))
    ∧ (let at' := if f.sop = 1 ∧ (p.waited = true ∨ p.since < p.doneAt) then p.doneAt else s.cycle
       (f.sop = 1 → (∀ h ∈ (s.core s.cur.core).homeq, ¬(h.gid = G.gid ∧ h.split = p.id) ∧ ∀ x ∈ h.also, ¬(x.1 = G.gid ∧ x.2.1 = p.id))
        ∧ ∀ q ∈ (s.core s.cur.core).packets, q.write = true → ∀ r ∈ q.reqs, ¬(r.gid = G.gid ∧ r.split = p.id)) →
        Computes s G p (.clk f) (P.dst f.sd f.d.toNat true)
          (putAll G.w m f.sd f.d.toNat true false (fun _ =>
            (if sel = 0 then s.ts0 + (at' - s.tsCycle) / 2 else at' - (s.core s.cur.core).born) % 2 ^ 64)))

/-- Rules R34 to R37 and R58: what the system registers of a group hold. -/
def Clause.SystemRegisters : Prop :=
  ∀ (s : State) (X : Ctx) (G : Group) (l : Nat), s.group X.core X.slot = some G →
    let place := s.sysReg X G 3 l
    let pool := s.sysReg X G 5 l
    (l < 64 → (s.sysReg X G 0 l).toNat = l)
    ∧ (G.idx < 2 ^ 64 → (s.sysReg X G 1 l).toNat = G.idx) ∧ (G.tindex < 2 ^ 64 → (s.sysReg X G 2 l).toNat = G.tindex)
    ∧ (X.slot < 64 → X.core < 192 → s.pkgid.toNat < 1024 →
        fld place 0 6 = X.slot ∧ fld place 6 7 = X.core % 96 ∧ fld place 13 1 = X.core / 96 ∧ fld place 14 10 = s.pkgid.toNat ∧ fld place 24 40 = 0)
    ∧ (G.held < 2 ^ 14 → G.resv < 2 ^ 14 → (s.core X.core).free < 2 ^ 14 → G.spillcnt < 2 ^ 16 →
        fld pool 0 16 = G.held ∧ fld pool 16 16 = (s.core X.core).free ∧ fld pool 32 16 = G.resv ∧ fld pool 48 16 = G.spillcnt)
    ∧ s.sysReg X G 6 l = G.spill ∧ s.sysReg X G 7 l = G.deadread ∧ s.sysReg X G 8 l = G.sendstat
    ∧ s.sysReg X G 9 l = G.trapcause ∧ s.sysReg X G 10 l = G.trappc ∧ s.sysReg X G 13 l = G.drift
    ∧ ∀ n w, n < 8 → w < 3 → s.sysReg X G (0x40 + 4 * n + w) l =
        (match w with | 0 => (G.treg n).w0 | 1 => (G.treg n).w1 | _ => (G.treg n).w2)
/-! ### Cross-lane instructions -/

/-- Rules R172 and R173: LXCH takes each lane's value from a lane of its own segment, and leaves it where that lane is inactive; BCAST
copies one lane's value to every active lane. -/
def Clause.LaneExchange : Prop :=
  let wide (f : FmtR) : Bool := f.ty == 3
  let sh (f : FmtR) (_ : Nat) : Shape := { wd := wide f, wa := wide f }
  ∃ (src : FmtR → Group → Mask → Nat → Nat) (keep : FmtR → Group → Mask → Mask) (from' : FmtR → Group → Mask → Nat),
    LaneForm .lxch sh false (fun f G m => putAll G.w (keep f G m) f.sd f.d.toNat (wide f) false (fun l => G.opnd f.sa f.a.toNat (wide f) (src f G m l)))
    ∧ LaneForm .bcast sh true (fun f G m => putAll G.w m f.sd f.d.toNat (wide f) false (fun _ => G.opnd f.sa f.a.toNat (wide f) (from' f G m)))
    ∧ (∀ f G m l, l < G.w → l < 64 →
        let b := G.opnd f.sb f.b.toNat false l
        let amt := b % 64
        let seg := b / 256 % 8
        let n := if seg = 0 then G.w else min (2 ^ seg) G.w
        let base := l - l % n
        let j := l % n
        (f.opx.toNat % 4 = 0 → src f G m l = base + amt % n)
        ∧ (f.opx.toNat % 4 = 1 → src f G m l = base + (j + amt) % n)
        ∧ (f.opx.toNat % 4 = 2 → src f G m l = base + (n - 1 - j))
        ∧ (f.opx.toNat % 4 = 3 → inMask m l = true → base ≤ src f G m l ∧ src f G m l < base + n ∧ inMask m (src f G m l) = true
            ∧ ∀ k, base ≤ k → k < src f G m l → inMask m k = false)
        ∧ inMask (keep f G m) l = (inMask m l && inMask m (src f G m l)))
    ∧ ∀ f G m, let b := (G.uni f.b.toNat).toNat % 2 ^ 32
        (b < G.w → inMask m b = true → from' f G m = b)
        ∧ (¬(b < G.w ∧ inMask m b = true) → (∃ l, l < G.w ∧ inMask m l = true) →
            from' f G m < G.w ∧ inMask m (from' f G m) = true ∧ ∀ k, k < from' f G m → inMask m k = false)

/-- Rules R174 and R175: PQRY counts the active lanes in which a predicate holds, ELECT picks the lowest active lane, and MATCH gives each
lane the mask of the active lanes with its value. -/
def Clause.Votes : Prop :=
  let bit (b : Bool) : Nat := if b then 1 else 0
  ∃ match' : FmtR → Group → Mask → Nat → Nat,
    LaneForm .pqry (fun f w => { wd := f.opx == 3 && w == 64, useB := decide (f.opx.toNat ≤ 1) }) true (fun f G m =>
      let hit := (Finset.range G.w).filter (fun l => inMask m l = true ∧ inMask (G.pred f.a.toNat) l = true)
      let all := (Finset.range G.w).filter (fun l => inMask m l = true)
      let t := (G.uni f.b.toNat).toNat
      putAll G.w m f.sd f.d.toNat (f.opx == 3 && (f.sd == spUni || G.w == 64)) false (fun _ =>
        match f.opx.toNat with
        | 0 => bit (decide (hit.card ≥ t))
        | 1 => bit (decide (all.card - hit.card ≤ t))
        | 2 => bit (decide (hit.card = 0 ∨ hit.card = all.card))
        | 3 => (m &&& G.pred f.a.toNat &&& fullMask G.w).toNat
        | _ => hit.card))
    ∧ (∀ s G p (f : FmtR), Calm s G p → let m := activeLanes G p f.ge f.gn f.g
        Computes s G p (.elect f) ((({} : Plan).guard f.ge f.gn f.g).dst spPred f.d.toNat false)
          (putAll G.w m spPred f.d.toNat false false (fun l => bit (some l == (List.range G.w).find? (fun k => inMask m k)))))
    ∧ LaneForm .matchLanes (fun f w => { wd := w == 64, wa := f.ty == 3, useB := false }) false (fun f G m =>
        putAll G.w m f.sd f.d.toNat (G.w == 64) false (match' f G m))
    ∧ ∀ f G m l k, G.w ≤ 64 → (match' f G m l).testBit k =
        decide (k < G.w ∧ inMask m k = true ∧ G.opnd f.sa f.a.toNat (f.ty == 3) k = G.opnd f.sa f.a.toNat (f.ty == 3) l)

/-- Rules R176, R177 and R178 for integers: RED combines the active lanes exactly and wraps or saturates once, SCAN gives each active lane
the combination of those up to it or before it, and TOPK selects the lanes that fewer than k active lanes precede. -/
def Clause.IntegerReductions : Prop :=
  let w (f : FmtR) : Bool := tyIs64 f.ty
  let n (f : FmtR) : Nat := if tyIs64 f.ty then 64 else 32
  let v (f : FmtR) (G : Group) (l : Nat) : Int :=
    let x := G.opnd f.sa f.a.toNat (w f) l
    if tyIsSigned f.ty then sextNat x (n f) else ((x % 2 ^ n f : Nat) : Int)
  let op (f : FmtR) (a b : Int) : Int := match (redRop f).toNat with
    | 0 => a + b
    | 1 => min a b
    | 2 => max a b
    | 3 => ((a.toNat &&& b.toNat : Nat) : Int)
    | 4 => ((a.toNat ||| b.toNat : Nat) : Int)
    | _ => ((a.toNat ^^^ b.toNat : Nat) : Int)
  let out (f : FmtR) (x : Int) : Nat := wrapInt (if f.opx.getLsbD 0 then
    (if tyIsSigned f.ty then max (-(2 ^ (n f - 1) : Int)) (min x (2 ^ (n f - 1) - 1)) else max 0 (min x (2 ^ n f - 1))) else x) (n f)
  let idv (f : FmtR) : Int := match (redRop f).toNat with
    | 1 => if tyIsSigned f.ty then 2 ^ (n f - 1) - 1 else 2 ^ n f - 1
    | 2 => if tyIsSigned f.ty then -(2 ^ (n f - 1)) else 0
    | 3 => 2 ^ n f - 1
    | _ => 0
  let active (G : Group) (m : Mask) : List Nat := (List.range G.w).filter (fun l => inMask m l)
  let fold (f : FmtR) (ls : List Int) : Int := match ls with | [] => idv f | x :: rest => rest.foldl (op f) x
  ∀ s G p (f : FmtR), Calm s G p → let m := activeLanes G p f.ge f.gn f.g
    (m = 0 → Computes s G p (.red f)
        (let Q := planR f { wd := classIs64 (!redFcl f) f.ty, wa := classIs64 (!redFcl f) f.ty, useB := false }
         { Q with wv := [], wk := [], wp := [], wh := [], nd := Q.wv }) [])
    ∧ (redFcl f = false → m ≠ 0 → active G m ≠ [] → Computes s G p (.red f) (planR f { wd := w f, wa := w f, useB := false })
      (putAll G.w m f.sd f.d.toNat (w f) (f.ty == 6) (fun _ => out f (fold f ((active G m).map (v f G))))))
    ∧ (redFcl f = false → ∃ val : Nat → Nat, Computes s G p (.scan f) (planR f { wd := w f, wa := w f, useB := false })
          (putAll G.w m f.sd f.d.toNat (w f) false val)
        ∧ ∀ l ∈ active G m, val l = out f (fold f (((active G m).filter (fun k => if redExc f then k < l else k ≤ l)).map (v f G))))
    ∧ (f.opx.getLsbD 1 = false → G.w ≤ 64 → Computes s G p (.topk f) (planR f { wa := w f })
        (putAll G.w m spPred f.d.toNat false false (fun l =>
          if ((active G m).filter (fun j => if v f G j = v f G l then decide (j < l)
              else decide (v f G j < v f G l) == f.opx.getLsbD 0)).length < (G.uni f.b.toNat).toNat % 2 ^ 32 then 1 else 0)))

/-- Rules R111, R176, R177 and R178 for floats: RED combines over the binary tree, SCAN from lane to lane, and TOPK ranks the values
exactly with NaN last. -/
def Clause.FloatReductions : Prop :=
  let w (f : FmtR) : Bool := f.ty == 3
  let v (f : FmtR) (G : Group) (l : Nat) : FVal := fop f.ty (fzOf f) (G.opnd f.sa f.a.toNat (w f) l)
  let op (f : FmtR) (a b : FVal) : FVal := match (redRop f).toNat with
    | 0 => fop f.ty (fzOf f) (fput f.ty (modeOf f) (fzOf f) false (fAdd (modeOf f) a b))
    | 1 => fMinMax false a b
    | _ => fMinMax true a b
  let idv (f : FmtR) : FVal := match (redRop f).toNat with
    | 1 => .inf false
    | 2 => .inf true
    | _ => .num false 0 0
  let active (G : Group) (m : Mask) : List Nat := (List.range G.w).filter (fun l => inMask m l)
  let fold (f : FmtR) (ls : List FVal) : FVal := match ls with | [] => idv f | x :: rest => rest.foldl (op f) x
  ∀ s G p (f : FmtR), Calm s G p → let m := activeLanes G p f.ge f.gn f.g
    (redFcl f = true → m ≠ 0 → active G m ≠ [] → Computes s G p (.red f) (planR f { wd := w f, wa := w f, useB := false })
      (putAll G.w m f.sd f.d.toNat (w f) false (fun _ => fput f.ty (modeOf f) (fzOf f) false
        ((treeSum (op f) 6 ((List.range G.w).map (fun l => if inMask m l then some (v f G l) else none))).getD .nan))))
    ∧ (redFcl f = true → ∃ val : Nat → Nat, Computes s G p (.scan f) (planR f { wd := w f, wa := w f, useB := false })
          (putAll G.w m f.sd f.d.toNat (w f) false val)
        ∧ ∀ l ∈ active G m, val l = fput f.ty (modeOf f) (fzOf f) false
            (fold f (((active G m).filter (fun k => if redExc f then k < l else k ≤ l)).map (v f G))))
    ∧ (f.opx.getLsbD 1 = true → G.w ≤ 64 → Computes s G p (.topk f) (planR f { wa := w f })
        (putAll G.w m spPred f.d.toNat false false (fun l =>
          let x (j : Nat) : FVal := fop f.ty false (G.opnd f.sa f.a.toNat (w f) j)
          let before (j : Nat) : Bool := match x j, x l with
            | .nan, .nan => decide (j < l)
            | .nan, _ => false
            | _, .nan => true
            | a, b => match fCmp a b with
              | some .lt => f.opx.getLsbD 0
              | some .gt => !f.opx.getLsbD 0
              | _ => decide (j < l)
          if ((active G m).filter before).length < (G.uni f.b.toNat).toNat % 2 ^ 32 then 1 else 0)))

/-! ### Float instructions -/

/-- Rules R97, R118, R119 and R122 on values: sums, products and fused sums of finite values are exact, with the sign of an exact zero that
rule R97 gives; infinities and NaN follow IEEE 754; comparison is of the numbers; FMIN and FMAX
return an operand; and rounding to an integer follows its mode. -/
def Clause.FloatValues : Prop :=
  ∀ (mode : RMode) (a b c : FVal),
    (a.finite = true → b.finite = true →
      (fAdd mode a b).finite = true ∧ (fAdd mode a b).rat = a.rat + b.rat
      ∧ (fSub mode a b).finite = true ∧ (fSub mode a b).rat = a.rat - b.rat
      ∧ (fMul a b).finite = true ∧ (fMul a b).rat = a.rat * b.rat ∧ (fMul a b).isNeg = (a.isNeg != b.isNeg)
      ∧ (c.finite = true → (fFma mode a b c).finite = true ∧ (fFma mode a b c).rat = a.rat * b.rat + c.rat)
      ∧ (a.rat + b.rat = 0 → (fAdd mode a b).isNeg = if a.isNeg = b.isNeg then a.isNeg else decide (mode = .rd))
      ∧ fCmp a b = some (if a.rat < b.rat then .lt else if a.rat = b.rat then .eq else .gt))
    ∧ (∀ n, b.finite = true → fAdd mode (.inf n) b = .inf n ∧ fAdd mode b (.inf n) = .inf n
        ∧ fMul (.inf n) b = (if b.rat = 0 then .nan else .inf (n != b.isNeg))
        ∧ fCmp (.inf n) b = some (if n then .lt else .gt))
    ∧ (∀ n, fAdd mode (.inf n) (.inf n) = .inf n ∧ fAdd mode (.inf n) (.inf !n) = .nan)
    ∧ fAdd mode .nan a = .nan ∧ fAdd mode a .nan = .nan ∧ fMul .nan a = .nan ∧ fMul a .nan = .nan ∧ fCmp .nan a = none ∧ fCmp a .nan = none
    ∧ (∀ isMax, fMinMax isMax a .nan = a ∧ fMinMax isMax .nan a = a
        ∧ (a.finite = true → b.finite = true → a.rat < b.rat → fMinMax isMax a b = (if isMax then b else a) ∧ fMinMax isMax b a = (if isMax then b else a))
        ∧ (a.finite = true → b.finite = true → a.rat = b.rat → a.isNeg = true → b.isNeg = false →
            fMinMax isMax a b = (if isMax then b else a) ∧ fMinMax isMax b a = (if isMax then b else a)))
    ∧ ∀ neg m e, let x := FVal.rat (.num neg m e)
        roundInt .rd neg m e = ⌊x⌋ ∧ roundInt .ru neg m e = ⌈x⌉ ∧ roundInt .rz neg m e = (if neg then ⌈x⌉ else ⌊x⌋)
        ∧ |x - roundInt .rn neg m e| ≤ 1 / 2 ∧ (|x - roundInt .rn neg m e| = 1 / 2 → roundInt .rn neg m e % 2 = 0)

/-- Rules R94 to R99 and R116: what the codes of the binary formats stand for, by their sign, exponent and fraction fields; with `.fz` a
subnormal of FP64, FP32, FP16 or BF16 reads as zero of its sign; and what the codes of T8 and T6 stand for, by the regimes of rule R99. -/
def Clause.FloatCodes : Prop :=
  (∀ (ty : BitVec 4) (w f bias : Nat), (ty, w, f, bias) ∈ [((0 : BitVec 4), 16, 10, 15), (1, 16, 7, 127), (2, 32, 23, 127), (3, 64, 52, 1023), (4, 8, 3, 7), (5, 8, 2, 15)] →
    ∀ x, let v := fop ty false x
      let neg : Bool := x / 2 ^ (w - 1) % 2 == 1
      let sg : ℚ := if neg then -1 else 1
      let e := x / 2 ^ f % 2 ^ (w - 1 - f)
      let m := x % 2 ^ f
      let special : Bool := if ty = 4 then e == 15 && m == 7 else e == 2 ^ (w - 1 - f) - 1
      (special = true → v = if ty = 4 ∨ m ≠ 0 then .nan else .inf neg)
      ∧ (special = false → v.finite = true ∧ v.isNeg = neg
          ∧ (e = 0 → v.rat = sg * m * (2 : ℚ) ^ (1 - (bias : Int) - f))
          ∧ (e ≠ 0 → v.rat = sg * (2 ^ f + m) * (2 : ℚ) ^ ((e : Int) - bias - f)))
      ∧ (ty.toNat ≤ 3 → (special = true ∨ e ≠ 0 ∨ m = 0) → fop ty true x = v)
      ∧ (ty.toNat ≤ 3 → special = false → e = 0 → (fop ty true x).finite = true ∧ (fop ty true x).rat = 0 ∧ (fop ty true x).isNeg = neg))
  ∧ (∀ (ty : BitVec 4) (n lo k nf : Nat) (low : Int), (ty, n, lo, k, nf, low) ∈ [
        ((6 : BitVec 4), 7, 0x02, 2, 0, (-10 : Int)), (6, 7, 0x04, 2, 1, -8), (6, 7, 0x08, 2, 2, -6), (6, 7, 0x10, 2, 3, -4), (6, 7, 0x20, 2, 4, -2), (6, 7, 0x40, 2, 4, 0),
        (6, 7, 0x60, 2, 3, 2), (6, 7, 0x70, 2, 2, 4), (6, 7, 0x78, 2, 1, 6), (6, 7, 0x7C, 2, 0, 8), (6, 7, 0x01, 1, 0, -12), (6, 7, 0x7E, 1, 0, 10), (6, 7, 0x7F, 1, 0, 12),
        (7, 5, 0x02, 1, 1, -3), (7, 5, 0x04, 1, 2, -2), (7, 5, 0x08, 1, 3, -1), (7, 5, 0x10, 1, 3, 0), (7, 5, 0x18, 1, 2, 1), (7, 5, 0x1C, 1, 1, 2), (7, 5, 0x01, 1, 0, -4),
        (7, 5, 0x1E, 1, 0, 3), (7, 5, 0x1F, 1, 0, 4)] →
      ∀ e m neg, e < k → m < 2 ^ nf →
        let v := fop ty false (lo + e * 2 ^ nf + m + neg % 2 * 2 ^ n)
        v.finite = true ∧ v.isNeg = decide (neg % 2 = 1) ∧ v.rat = (if neg % 2 = 1 then -1 else 1) * (1 + (m : ℚ) / 2 ^ nf) * (2 : ℚ) ^ (low + (e : Int)))
  ∧ fop 6 false 0 = .num false 0 0 ∧ fop 6 false 0x80 = .nan ∧ fop 7 false 0 = .num false 0 0 ∧ fop 7 false 0x20 = .nan

/-- Rules R95 to R97, R100, R101 and R116: `fput` rounds a value once into its type, in each mode, with `.fz` and with `.sat`; it writes the
canonical NaN; and infinities and zeros keep their sign where the type has them. -/
def Clause.FloatRounding : Prop :=
  ∀ (ty : BitVec 4) (mode : RMode) (fz : Bool), ty.toNat ≤ 7 → (fz = true → ty.toNat ≤ 3) →
    let infs : Bool := decide (ty.toNat ≤ 5) && ty != 4
    let top (neg : Bool) : ℚ := if neg then -largest ty else largest ty
    (∀ v : FVal, v.finite = true → v.rat ≠ 0 →
      Puts ty mode fz (v.rat : ℝ) (fput ty mode fz false v)
      ∧ (¬ Overflows ty mode (v.rat : ℝ) → fput ty mode fz true v = fput ty mode fz false v)
      ∧ (Overflows ty mode (v.rat : ℝ) → (fop ty false (fput ty mode fz true v)).rat = top (decide (v.rat < 0))))
    ∧ (∀ sat, fput ty mode fz sat .nan = [0x7E00, 0x7FC0, 0x7FC00000, 0x7FF8000000000000, 0x7F, 0x7E, 0x80, 0x20].getD ty.toNat 0)
    ∧ (∀ neg, fop ty false (fput ty mode fz false (.inf neg)) = (if infs then .inf neg else .nan)
        ∧ (fop ty false (fput ty mode fz true (.inf neg))).rat = top neg)
    ∧ ∀ neg e sat, let v := fop ty false (fput ty mode fz sat (.num neg 0 e))
        v.finite = true ∧ v.rat = 0 ∧ v.isNeg = (neg && decide (ty.toNat ≤ 5))

/-- Rules R120 and R121: FRCP, FSQRT and FRSQ are the exact value rounded once; FEXP2 of an integer and FLOG2 of a power of two are exact, and
a FEXP2 of 128 or more overflows; the special inputs of the five; and FCLASS sets the one bit of its operand's class. -/
def Clause.FloatFunctions : Prop :=
  (∀ (ty : BitVec 4) (mode : RMode) (fz : Bool) (v : FVal), ty = 2 ∨ ty = 3 → v.finite = true → v.rat ≠ 0 →
    let put (mode : RMode) (x : FVal) : Nat := fput ty mode fz false x
    Puts ty mode fz (1 / (v.rat : ℝ)) (put mode (fRcp v))
    ∧ (0 < v.rat → Puts ty mode fz (Real.sqrt (v.rat : ℝ)) (put mode (fSqrt v)) ∧ Puts ty .rn fz (1 / Real.sqrt (v.rat : ℝ)) (put .rn (fRsq v)))
    ∧ (v.rat < 0 → fSqrt v = .nan ∧ fRsq v = .nan ∧ fLog2 v = .nan)
    ∧ (∀ k : Int, -149 ≤ k → k ≤ 127 → v.rat = k → (fExp2 v).finite = true ∧ (fExp2 v).rat = (2 : ℚ) ^ k)
    ∧ (128 ≤ v.rat → fop 2 false (fput 2 .rn fz false (fExp2 v)) = .inf false)
    ∧ (∀ k : Int, v.rat = (2 : ℚ) ^ k → (fLog2 v).finite = true ∧ (fLog2 v).rat = k ∧ (fLog2 v).isNeg = decide (k < 0)))
  ∧ (∀ (neg : Bool) (e : Int), let z := FVal.num neg 0 e
      fRcp z = .inf neg ∧ (fSqrt z).rat = 0 ∧ (fSqrt z).isNeg = neg ∧ fRsq z = .inf neg ∧ (fExp2 z).rat = 1 ∧ fLog2 z = .inf true
      ∧ (fRcp (.inf neg)).rat = 0 ∧ (fRcp (.inf neg)).finite = true ∧ (fRcp (.inf neg)).isNeg = neg)
  ∧ fSqrt (.inf false) = .inf false ∧ fSqrt (.inf true) = .nan ∧ fRsq (.inf true) = .nan ∧ fLog2 (.inf false) = .inf false ∧ fLog2 (.inf true) = .nan
  ∧ (fRsq (.inf false)).rat = 0 ∧ (fRsq (.inf false)).finite = true ∧ (fRsq (.inf false)).isNeg = false
  ∧ fExp2 (.inf false) = .inf false ∧ (fExp2 (.inf true)).rat = 0 ∧ (fExp2 (.inf true)).finite = true ∧ (fExp2 (.inf true)).isNeg = false
  ∧ fRcp .nan = .nan ∧ fSqrt .nan = .nan ∧ fRsq .nan = .nan ∧ fExp2 .nan = .nan ∧ fLog2 .nan = .nan
  ∧ ∀ (ty : BitVec 4) (x : Nat), ty.toNat ≤ 7 → x < 2 ^ (fltFmt ty.toNat).width →
      let v := fop ty false x
      let bit : Nat := match v with
        | .nan => if ty.toNat ≤ 5 then 8 else 9
        | .inf neg => if neg then 0 else 7
        | .num neg _ _ =>
          if v.rat = 0 then (if neg then 3 else 4)
          else if |v.rat| < normal ty then (if neg then 2 else 5)
          else (if neg then 1 else 6)
      fClass (fltFmt ty.toNat) x = 2 ^ bit

/-- Rules R116, R118 to R122 and R124: each float instruction reads its operands' values, computes exactly, and rounds once into the
destination; FCMP writes the truth of its condition, and CVT clamps what it rounds to an integer. FEXP2 and FLOG2 round 2^a and log2 a, taken to
the digits of log entry 14, to nearest. -/
def Clause.FloatInstructions : Prop :=
  let sh (f : FmtR) (useB useC : Bool) : Shape :=
    { wd := f.ty == 3, wa := f.ty == 3, wb := f.ty == 3, wc := f.ty == 3, useB := useB, useC := useC }
  let x (f : FmtR) (n : Nat) : FVal := fop f.ty (f.opx.getLsbD 2) n
  let put (f : FmtR) (v : FVal) : Nat := fput f.ty (modeOf f) (f.opx.getLsbD 2) false v
  FormR .fadd (fun f => sh f true false) (fun _ => false) (fun f a b _ => put f (fAdd (modeOf f) (x f a) (x f b)))
  ∧ FormR .fsub (fun f => sh f true false) (fun _ => false) (fun f a b _ => put f (fSub (modeOf f) (x f a) (x f b)))
  ∧ FormR .fmul (fun f => sh f true false) (fun _ => false) (fun f a b _ => put f (fMul (x f a) (x f b)))
  ∧ FormR .fma (fun f => sh f true true) (fun _ => false) (fun f a b c => put f (fFma (modeOf f) (x f a) (x f b) (x f c)))
  ∧ FormR .fmin (fun f => sh f true false) (fun _ => false) (fun f a b _ => put f (fMinMax false (x f a) (x f b)))
  ∧ FormR .fmax (fun f => sh f true false) (fun _ => false) (fun f a b _ => put f (fMinMax true (x f a) (x f b)))
  ∧ FormR .frcp (fun f => sh f false false) (fun _ => false) (fun f a _ _ => put f (fRcp (x f a)))
  ∧ FormR .fsqrt (fun f => sh f false false) (fun _ => false) (fun f a _ _ => put f (fSqrt (x f a)))
  ∧ FormR .frsq (fun f => sh f false false) (fun _ => false) (fun f a _ _ => put f (fRsq (x f a)))
  ∧ FormR .fexp2 (fun f => sh f false false) (fun _ => false) (fun f a _ _ => fput f.ty .rn (f.opx.getLsbD 2) false (fExp2 (x f a)))
  ∧ FormR .flog2 (fun f => sh f false false) (fun _ => false) (fun f a _ _ => fput f.ty .rn (f.opx.getLsbD 2) false (fLog2 (x f a)))
  ∧ FormR .fclass (fun f => { sh f false false with wd := false }) (fun _ => false) (fun f a _ _ =>
      fClass (fltFmt f.ty.toNat) (a % 2 ^ (fltFmt f.ty.toNat).width))
  ∧ FormR .fcmp (fun f => { sh f true false with wd := false }) (fun _ => false) (fun f a b _ =>
      let o := fCmp (fop f.ty false a) (fop f.ty false b)
      let holds : Bool := match f.opx.toNat with
        | 0 => o == some .eq
        | 1 => o != some .eq
        | 2 => o == some .lt
        | 3 => o == some .lt || o == some .eq
        | 4 => o == some .gt
        | 5 => o == some .gt || o == some .eq
        | 6 => o != none
        | _ => o == none
      if holds then 1 else 0)
  ∧ FormR .cvt (fun f => { wd := classIs64 (cvtDcl f) f.ty, wa := classIs64 (cvtScl f) (cvtSty f), useB := false })
      (fun f => cvtDcl f && f.ty == 6) (fun f a _ _ =>
        let src := cvtSty f
        let v : FVal := if cvtScl f then ofInt (ival (tyIsSigned src) (tyElem src) a) else fop src false a
        if cvtDcl f then
          let n := tyElem f.ty
          let largest : Int := if tyIsSigned f.ty then 2 ^ (n - 1) - 1 else 2 ^ n - 1
          let smallest : Int := if tyIsSigned f.ty then -(2 ^ (n - 1)) else 0
          wrapInt (match v with
            | .nan => 0
            | .inf neg => if neg then smallest else largest
            | .num neg m e => max smallest (min largest (roundInt (modeOf f) neg m e))) (tyWidth f.ty)
        else fput f.ty (modeOf f) false (f.opx.getLsbD 2) v)

/-! ### Exceptions -/

/-- Rules R32, R400, R401 and R405: a precise cause, raised in a calm group outside a handler with TRAPVEC.V = 1, enters the handler where the
trap reserve has W granules, and waits for a bank where it has not: `sys.trapcause` and `sys.trappc` are written, the frame holds the
split's PC, AM, stack and resume address, and the handler starts at ENTRY × 8 with an empty stack and a cleared handler bank. -/
def Clause.TakeException : Prop :=
  ∀ s G p (code lane info : Nat), Calm s G p → code < 32 → G.frame = none →
    let vec := (s.part G.part).trapvec
    let t := s.raise s.cur code lane info
    let resume : W64 := if code = 11 ∨ code = 12 then p.pc + 8 else p.pc
    fld vec 63 1 = 1 →
      ((s.core s.cur.core).trapUsed + G.w ≤ Config.trapGranules →
        ∃ cause : W64, fld cause 59 5 = code ∧ fld cause 58 1 = 0 ∧ fld cause 57 1 = (if G.causes = [] then 0 else 1)
          ∧ fld cause 50 6 = lane % 64 ∧ fld cause 0 48 = info % 2 ^ 48
          ∧ Moved s t { G with
              trapcause := cause, trappc := p.pc, entry := none, regs := { G.regs with h := [] }
              frame := some { split := p.id, pc := p.pc, am := p.am, stack := p.stack, ra := resume }
              splits := [{ p with pc := w64 (fld vec 3 54 * 8), am := if p.am = 0 then p.own else p.am, stack := [], word := none
                                  wait := .ready, waited := false, batch := none, refused := none, stall := 8 }] })
      ∧ ((s.core s.cur.core).trapUsed + G.w > Config.trapGranules →
        Moved s t { G with
          entry := some { code := code, deferred := false, split := p.id, info := BitVec.ofNat 48 info, lane := lane, pc := p.pc, ra := resume }
          splits := [{ p with stall := 2, wait := .ready, batch := none, refused := none, waited := false }] })

/-- Rules R157, R167 and R405: a precise cause of one of several splits: the others are held in TRAPHOLD, and none of them runs, while that
split's handler does; their own state is as before. -/
def Clause.OthersHeld : Prop :=
  ∀ s G p (before after : List Split) (code lane info : Nat), s.group s.cur.core s.cur.slot = some G → G.splits = before ++ p :: after →
    p.id = s.cur.split → (∀ q ∈ before ++ after, q.id ≠ p.id) → G.ra = none → code < 32 → G.frame = none → G.entry = none →
    (s.core s.cur.core).trapUsed + G.w ≤ Config.trapGranules →
    let vec := (s.part G.part).trapvec
    fld vec 63 1 = 1 → ∃ H, Moved s (s.raise s.cur code lane info) H
      ∧ H.splits = before ++ { p with pc := w64 (fld vec 3 54 * 8), am := if p.am = 0 then p.own else p.am, stack := [], word := none
                                      wait := .ready, waited := false, batch := none, refused := none, stall := 8 } :: after
      ∧ (∃ fr, H.frame = some fr ∧ fr.split = p.id ∧ fr.pc = p.pc ∧ fr.am = p.am ∧ fr.stack = p.stack)
      ∧ ∀ q ∈ before ++ after, H.mayRun q = false
        ∧ (q.stall ≠ 0 ∨ q.since ≠ s.cycle → (s.raise s.cur code lane info).stallCode s.cur.core s.cur.slot H q = 1)

/-- Rule R408: a cause raised while TRAPVEC.V = 0, or by an instruction of a handler, ends the group without a handler, discards its
frame and pending causes, and counts it in TRAPEND. -/
def Clause.EndWithoutHandler : Prop :=
  ∀ s G p (code lane info : Nat), Calm s G p → code < 32 → fld (s.part G.part).trapvec 63 1 = 0 ∨ G.frame ≠ none →
    let t := s.raise s.cur code lane info
    let old := (s.part G.part).trapend
    t.group s.cur.core s.cur.slot = some { G with splits := [], frame := none, entry := none, causes := [], ending := true }
    ∧ (∀ c g, ¬(c = s.cur.core ∧ g = s.cur.slot) → t.group c g = s.group c g)
    ∧ t = { s with cores := t.cores, parts := t.parts }
    ∧ fld (t.part G.part).trapend 0 32 = min (fld old 0 32 + 1) (2 ^ 32 - 1) ∧ fld (t.part G.part).trapend 32 5 = code

/-- Rule R407: RTH ends the handler: the split takes back its mask and stack and goes on at RA, and the handler bank is gone. -/
def Obligations.ReturnFromException : Prop :=
  ∀ s G p (f : FmtS) (fr : Frame), Calm s G p → G.frame = some fr → fr.split = p.id → Legal s G (.rth f) →
    ∃ t, exec (.rth f) s = .next t ∧ Moved s t { G with
      frame := none, regs := { G.regs with h := [] }
      splits := [{ p with pc := fr.ra, am := fr.am, stack := fr.stack, word := none, stall := 0, since := s.cycle, aged := false, refused := fr.refused }] }

/-- Rule R139: TRAP raises SOFT and BKPT raises BKPT, with SEL as their code, when a lane is active; else neither has an effect. -/
def Obligations.SoftwareTraps : Prop :=
  ∀ (mk : FmtS → Instr) (code : Nat), (mk, code) ∈ [(Instr.trap, 11), (Instr.bkpt, 12)] →
    ∀ s G p (f : FmtS), Calm s G p → p.am ≠ 0 → Legal s G (mk f) →
      (activeLanes G p f.ge f.gn f.g ≠ 0 → exec (mk f) s = .next (s.raise s.cur code 0 f.sel.toNat))
      ∧ (activeLanes G p f.ge f.gn f.g = 0 → ∃ t, exec (mk f) s = .next t ∧ Moved s t { G with
          splits := [p.issued s.cycle (p.pc + 8)], infl := [{ id := G.nextIid, split := p.id, pc := 0 }], nextIid := G.nextIid + 1 })

/-- Rules R60 and R61: an instruction of an encoded word that fails a word check raises ILLEGAL, whatever its mask and guard, and has no
other effect; the cause names the check and the field. -/
def Clause.IllegalFirst : Prop :=
  ∀ s G p (i : Instr) (e : Illegal), Calm s G p → (encode i).isSome = true → i.check (s.env G) = some e →
    exec i s = .next (s.raise s.cur 1 0 (e.check * 2 ^ 16 + e.space.toNat * 2 ^ 7 + e.num.toNat))

/-- Rule R127: an instruction that is not a control instruction does not issue with AM = 0; only the stall code of its split is recorded. -/
def Clause.NoIssueWithoutLanes : Prop :=
  ∀ s G p (i : Instr), Calm s G p → G.preempt = none → (encode i).isSome = true → Legal s G i → p.am = 0 →
    opcode ((encode i).getD 0) / 16 ≠ 5 → opcode ((encode i).getD 0) ≠ 9 →
    exec i s = .next (s.setGroup s.cur.core s.cur.slot { G with splits := [{ p with stall := 8 }] })

/-! ### EXIT, SAFEPT, SWRITE -/

/-- Rules R138 and R156: EXIT ends its active lanes in the mask and in every stack entry; the split that has none left ends, and with it
the group; an EXIT without an active lane has no effect. -/
def Clause.Exit : Prop :=
  ∀ s G p (f : FmtS), Calm s G p → G.preempt = none → p.am ≠ 0 → Legal s G (.exit f) →
    let x := activeLanes G p f.ge f.gn f.g
    let e : Inflight := { id := G.nextIid, split := p.id, pc := 0 }
    let q : Split := { p with am := p.am &&& ~~~x, own := p.own &&& ~~~x
                              stack := p.stack.map (fun a => { a with outer := a.outer &&& ~~~x, alt := a.alt &&& ~~~x }) }
    let ended : Group := { G with splits := [], frame := none, entry := none, causes := [], ending := true, infl := [e], nextIid := G.nextIid + 1 }
    ∃ t H, exec (.exit f) s = .next t ∧ Moved s t H
      ∧ (x = 0 → H = { G with splits := [p.issued s.cycle (p.pc + 8)], infl := [e], nextIid := G.nextIid + 1 })
      ∧ (x ≠ 0 → p.own &&& ~~~x = 0 → H = ended)
      ∧ (x ≠ 0 → p.own &&& ~~~x ≠ 0 → advance q.am q.stack (p.pc + 8) = none → H = ended)
      ∧ (∀ am st pc, x ≠ 0 → p.own &&& ~~~x ≠ 0 → advance q.am q.stack (p.pc + 8) = some (am, st, pc) →
          H = { G with splits := [{ q.issued s.cycle pc with am := am, stack := st }], infl := [e], nextIid := G.nextIid + 1 })

/-- Rules R140 and R416: SAFEPT stops the split, and with it a group of one split, while a pre-emption request is pending, and notes the
live mask of its safe point. -/
def Clause.SafePoint : Prop :=
  ∀ s G p (f : FmtS) (L : Launch), Calm s G p → G.preempt ≠ none → G.frame = none → G.entry = none → p.am ≠ 0 → Legal s G (.safept f) →
    s.launches.find G.lid = some L →
    ∃ t, exec (.safept f) s = .next t ∧ Moved s t { G with
      safeMask := some (L.safe.getD f.sel.toNat 0 ||| G.safeMask.getD 0), stopped := true
      splits := [{ p with wait := .safe, stall := 3, waited := true }] }

/-- Rules R33, R37, R142, R197 and R223: SWRITE writes the fields of a writable register when a lane is active, and is ignored elsewhere. -/
def Clause.SystemWrites : Prop :=
  ∀ s G p (f : FmtS), Calm s G p → p.am ≠ 0 → Legal s G (.swrite f) →
    let v := G.uni f.a.toNat
    let active := activeLanes G p f.ge f.gn f.g
    let e : Inflight := { id := G.nextIid, split := p.id, pc := 0 }
    let H : Group := { G with splits := [p.issued s.cycle (p.pc + 8)], infl := [e], nextIid := G.nextIid + 1 }
    (active ≠ 0 → f.sel = 7 → ∃ t d, exec (.swrite f) s = .next t ∧ Moved s t { H with deadread := d }
        ∧ fld d 16 32 = fld v 16 32 ∧ fld d 1 1 = fld v 1 1 ∧ fld d 8 7 = fld G.deadread 8 7
        ∧ fld d 0 1 = if fld v 0 1 = 1 then 0 else fld G.deadread 0 1)
    ∧ (active ≠ 0 → f.sel = 8 → ∃ t, exec (.swrite f) s = .next t ∧ Moved s t { H with sendstat := v })
    ∧ (active ≠ 0 → f.sel = 11 → G.idx = 0 → ∀ T, s.teams.find G.tid = some T →
        ∃ t, exec (.swrite f) s = .next t ∧ t.group s.cur.core s.cur.slot = some H
          ∧ t.teams.find G.tid = some { T with span := fld v 16 9 } ∧ t = { s with cores := t.cores, parts := t.parts, teams := t.teams })
    ∧ (active ≠ 0 → f.sel = 12 → G.idx = 0 → ∀ T, s.teams.find G.tid = some T → T.req = none →
        ∃ t, exec (.swrite f) s = .next t
          ∧ t.group s.cur.core s.cur.slot = some { H with infl := [{ e with kind := .alloc }] }
          ∧ t.teams.find G.tid = some { T with req := some (min (fld v 16 10) 512, s.nextId) }
          ∧ (t.core T.core).allocs = (s.core T.core).allocs ++ [⟨G.tid, min (fld v 16 10) 512, s.nextId⟩]
          ∧ t = { s with cores := t.cores, parts := t.parts, teams := t.teams, nextId := s.nextId + 1 })
    ∧ (active = 0 ∨ f.sel ∉ [7, 8, 11, 12] ∨ f.sel ∈ [11, 12] ∧ G.idx ≠ 0 →
        ∃ t, exec (.swrite f) s = .next t ∧ Moved s t H)

/-! ### Barrier objects -/

/-- Rules R179 to R183: the barrier instructions on an object in the team's local store. BARINIT and BARINV begin a new epoch and release
the waiters, BARARV, once the split's writes are home, counts one arrival, returns its token and ends the phase with the last, BARWAIT waits
while its token's phase is current and is an acquire where it writes 1 (R323, R332), and an object out of place or without V raises ALIGN,
PROTECT or BARRIER with no effect. -/
def Obligations.BarrierObjects : Prop :=
  ∀ s G p (f : FmtR), Calm s G p → p.am ≠ 0 → G.preempt = none → activeLanes G p f.ge f.gn f.g ≠ 0 →
    let v := (G.uni f.a.toNat).toNat
    let kB := G.uni f.b.toNat
    let none' : Inflight := { id := 0, split := 0, pc := 0 }
    (∀ T, Object s G v T →
      let w0 := (T.obj v).1
      let w1 := (T.obj v).2
      let two (a b : W64) : Team := T.put v (bytesOf a.toNat 8 ++ bytesOf b.toNat 8)
      (Legal s G (.barinit f) → 1 ≤ kB.toNat → kB.toNat ≤ 4095 → ∃ t x, exec (.barinit f) s = .next t
          ∧ x.toNat = 2 ^ 63 + (fld w0 48 8 + 1) % 256 * 2 ^ 48 + kB.toNat * 2 ^ 16
          ∧ ObjectDone s t G p none' (two x 0) true v)
      ∧ (Legal s G (.barinit f) → kB.toNat = 0 ∨ 4095 < kB.toNat → exec (.barinit f) s = .next (s.raise s.cur 10 0 v))
      ∧ (Legal s G (.barinv f) → ∃ t x, exec (.barinv f) s = .next t
          ∧ fld x 0 48 = fld w0 0 48 ∧ fld x 48 8 = (fld w0 48 8 + 1) % 256 ∧ fld x 56 7 = fld w0 56 7 ∧ fld x 63 1 = 0
          ∧ ObjectDone s t G p none' (two x w1) true v)
      ∧ (Legal s G (.bararv f) → fld w0 63 1 = 1 → Clear s → (∀ e ∈ (s.core s.cur.core).slots, e.2.gid = G.gid → e.2.infl = []) →
          ∃ t x token, exec (.bararv f) s = .next t
          ∧ token.toNat = fld w0 48 8 * 2 ^ 16 + fld w0 32 16
          ∧ (let last := (fld w0 0 12 + 1 = fld w0 16 12)
             fld x 0 12 = (if last then 0 else (fld w0 0 12 + 1) % 2 ^ 12)
             ∧ fld x 32 16 = (if last then (fld w0 32 16 + 1) % 2 ^ 16 else fld w0 32 16)
             ∧ fld x 12 20 = fld w0 12 20 ∧ fld x 48 16 = fld w0 48 16
             ∧ ObjectDone s t G p { none' with writes := [{ sp := .uni, num := f.d.toNat, word := token }] } (two x w1) (decide last) v))
      ∧ (Legal s G (.bararv f) → fld w0 63 1 = 0 → exec (.bararv f) s = .next (s.raise s.cur 10 0 v))
      ∧ (Legal s G (.barwait f) →
          let writes (r : Nat) : List RegW := putAll G.w (activeLanes G p f.ge f.gn f.g) spPred f.d.toNat false false (fun _ => r)
          let H : Group := { G with splits := [p.issued s.cycle (p.pc + 8)], nextIid := G.nextIid + 1 }
          let done (r : Nat) : Group := { H with infl := [{ id := G.nextIid, split := p.id, pc := 0, writes := writes r }] }
          (fld w0 63 1 = 0 ∨ fld w0 48 8 ≠ fld kB 16 8 → ∃ t, exec (.barwait f) s = .next t ∧ Moved s t (done 0))
          ∧ (fld w0 63 1 = 1 → fld w0 48 8 = fld kB 16 8 → fld w0 32 16 ≠ fld kB 0 16 →
              ∃ t, exec (.barwait f) s = .next t ∧ t.group s.cur.core s.cur.slot = some (done 1)
                ∧ (∀ c g, ¬(c = s.cur.core ∧ g = s.cur.slot) → t.group c g = s.group c g)
                ∧ (∀ q ∈ (t.core s.cur.core).packets, q.write = false → G.gid ∈ q.bars)
                ∧ t = { s with cores := t.cores, parts := t.parts })
          ∧ (fld w0 63 1 = 1 → fld w0 48 8 = fld kB 16 8 → fld w0 32 16 = fld kB 0 16 →
              ∃ t, exec (.barwait f) s = .next t
                ∧ Moved s t { G with splits := [{ p with wait := .barrier v, stall := 6, waited := true }] })))
    ∧ ∀ i ∈ [Instr.barinit f, .barinv f, .bararv f, .barwait f], Legal s G i →
        (v % 16 ≠ 0 → exec i s = .next (s.raise s.cur 6 0 (v % 2 ^ 19)))
        ∧ (v % 16 = 0 → 2 ^ 19 ≤ v → exec i s = .next (s.raise s.cur 7 0 (v % 2 ^ 19)))
        ∧ (∀ T, s.teams.find G.tid = some T → v % 16 = 0 → v < 2 ^ 19 → T.lsz < v + 16 → exec i s = .next (s.raise s.cur 7 0 (v % 2 ^ 19)))

/-! ### Capabilities and deliveries -/

/-- Rules R188 and R190: ARM of a register that is not armed makes it PENDING and writes a capability of the group's place, the register's next
generation (or the kept one of a reusable capability armed again), its number, mode and rights, sealed under the package's key. Without an
active lane it has no effect. -/
def Clause.ArmRegister : Prop :=
  ∀ s G p (f : FmtR), Quiet s G p → p.am ≠ 0 → Legal s G (.arm f) →
    (activeLanes G p f.ge f.gn f.g = 0 → ∃ t, exec (.arm f) s = .next t ∧ Moved s t { G with
      splits := [p.issued s.cycle (p.pc + 8)], infl := [{ id := G.nextIid, split := p.id, pc := 0 }], nextIid := G.nextIid + 1 })
    ∧ (activeLanes G p f.ge f.gn f.g ≠ 0 → s.cur.slot < 64 → s.cur.core < 192 →
        let n := f.a.toNat
        let pair := f.ty == 3
        let regs := if pair then [n, n + 1] else [n]
        let k := s.core s.cur.core
        let need := (regs.filter (fun r => !(G.vreg r).st.holds)).length * G.gran
        let keep := bBit f 0
        (∀ r ∈ regs, G.armOf r = none) → G.armedGranules regs + regs.length * G.gran ≤ G.resv → need = 0 ∨ k.fits G need = true →
        ∃ t cap v, exec (.arm f) s = .next t
          ∧ capPlace cap = s.placeOf s.cur.core s.cur.slot ∧ capReg cap = n ∧ capMode cap = (if pair then 16 else 0) + f.opx.toNat * 2
          ∧ capRights cap = (if keep then 2 else 1) ∧ fld cap 0 14 = sealOf s.key cap
          ∧ capGen cap = (if bBit f 1 && k.reuses G (s.placeOf s.cur.core s.cur.slot) s.cur.slot n regs then k.gen s.cur.slot n % 4096
              else (k.gen s.cur.slot n + 1) % 4096)
          ∧ (∀ r, v.get {} r = if r ∈ regs then { st := .pending } else G.vreg r)
          ∧ (let a : Arm := ⟨cap, (t.core s.cur.core).gen s.cur.slot n, pair, keep⟩
             t.group s.cur.core s.cur.slot = some { G.withV v with
               arms := G.arms.set n a, lastArms := G.lastArms.set n a, splits := [p.issued s.cycle (p.pc + 8)], nextIid := G.nextIid + 1
               infl := [{ id := G.nextIid, split := p.id, pc := 0, writes := [{ sp := .uni, num := f.d.toNat, word := cap }] }] })
          ∧ (∀ c g, ¬(c = s.cur.core ∧ g = s.cur.slot) → t.group c g = s.group c g)
          ∧ t = { s with cores := t.cores, parts := t.parts })

/-- Rules R191 and R199: CAP reads an armed register's capability, 0 where it is not armed; PLACE reads a capability's place; SCOPE gives the
lowest scope that encloses this group and a place. -/
def Clause.CapabilityReads : Prop :=
  ∀ s G p (f : FmtR), Quiet s G p →
    let m := activeLanes G p f.ge f.gn f.g
    let P := (({} : Plan).guard f.ge f.gn f.g).dst spUni f.d.toNat false
    let here := s.placeOf s.cur.core s.cur.slot
    let there := (G.uni f.a.toNat).toNat % 2 ^ 24
    Computes s G p (.cap f) P (putAll G.w m spUni f.d.toNat true false (fun _ =>
      match G.armOf f.a.toNat with | some (_, a) => a.cap.toNat | none => 0))
    ∧ Computes s G p (.place f) { P with rk := [f.a.toNat] } (putAll G.w m spUni f.d.toNat true false (fun _ => fld (G.uni f.a.toNat) 40 24))
    ∧ Computes s G p (.scope f) { P with rk := [f.a.toNat] } (putAll G.w m spUni f.d.toNat true false (fun _ =>
        if here = there then 0 else if here / 2 ^ 6 = there / 2 ^ 6 then 1 else if here / 2 ^ 7 = there / 2 ^ 7 then 2
        else if here / 2 ^ 13 = there / 2 ^ 13 then 3 else if here / 2 ^ 14 = there / 2 ^ 14 then 4 else 5))

/-- Rules R20, R188 and R191: DISARM frees an armed register, or both halves of an armed pair, where it is PENDING and keeps the value of one that
is DELIVERED; the generation that the capability names advances, so that it is stale; a register that is not armed is left alone. -/
def Clause.DisarmRegister : Prop :=
  ∀ s G p (f : FmtR), Quiet s G p → p.am ≠ 0 → Legal s G (.disarm f) →
    let n := f.a.toNat
    let H : Group := { G with splits := [p.issued s.cycle (p.pc + 8)], infl := [{ id := G.nextIid, split := p.id, pc := 0 }], nextIid := G.nextIid + 1 }
    (∀ b a, activeLanes G p f.ge f.gn f.g ≠ 0 → G.armOf n = some (b, a) → (f.ty = 3 → b = n ∧ a.pair = true ∧ G.arms.find (n + 1) = none
        ∧ (G.arms.erase n).find (n + 1 - (n + 1) % 2) = none) →
      let regs := if a.pair then [b, b + 1] else [b]
      let core := placeCore (capPlace a.cap)
      let slot := placeSlot (capPlace a.cap)
      ∃ t v, exec (.disarm f) s = .next t ∧ t.group s.cur.core s.cur.slot = some { H.withV v with arms := G.arms.erase b }
        ∧ (∀ r, r ∉ regs → v.get {} r = G.vreg r)
        ∧ (∀ r ∈ regs, ((G.vreg r).st = .pending → (v.get {} r).st = .empty)
            ∧ ((G.vreg r).st = .delivered → (v.get {} r).st = .mapped ∧ (v.get {} r).val = (G.vreg r).val))
        ∧ (t.core core).gen slot (capReg a.cap) = ((s.core core).gen slot (capReg a.cap) + 1) % 4096
        ∧ t = { s with cores := t.cores, parts := t.parts })
    ∧ (activeLanes G p f.ge f.gn f.g = 0 ∨ G.armOf n = none ∧ (f.ty = 3 → G.armOf (n + 1) = none) →
        ∃ t, exec (.disarm f) s = .next t ∧ Moved s t H)

/-- Rules R192, R194, R437, R441 and R446: SEND posts one delivery with the active lanes' values and the capability as it stands; one for another
package goes out as the next transaction of its flow, and its outcome is STALECAP at once where no usable port reaches that package; a SEND
without an active lane posts none and is complete as it issues. -/
def Clause.SendDelivery : Prop :=
  ∀ s G p (f : FmtR), Calm s G p → p.am ≠ 0 → Legal s G (.send f) →
    let m := activeLanes G p f.ge f.gn f.g
    let pair := f.ty == 3
    let cap := G.uni f.a.toNat
    let P := { (({} : Plan).guard f.ge f.gn f.g).src spVec f.b.toNat pair f.lb with rk := [f.a.toNat] }
    Named s G P →
      (m = 0 → ∃ t v, exec (.send f) s = .next t ∧ (∀ n, v.get {} n = P.after G n)
          ∧ t.group s.cur.core s.cur.slot = some { G.withV v with
              splits := [{ p.issued s.cycle (p.pc + 8) with doneAt := s.cycle }], nextIid := G.nextIid + 1, deadread := P.deadread s.cur G }
          ∧ (∀ c g, ¬(c = s.cur.core ∧ g = s.cur.slot) → t.group c g = s.group c g) ∧ t = { s with cores := t.cores, parts := t.parts })
      ∧ (m ≠ 0 → ∃ t d, exec (.send f) s = .next t ∧ Posted s t G p P { id := 0, split := 0, pc := 0, kind := .send } id
          ∧ t = { s with cores := t.cores, parts := t.parts, deliveries := s.deliveries ++ [d], nextId := t.nextId, xacts := t.xacts, flowOut := t.flowOut }
          ∧ d.did = s.nextId ∧ d.core = s.cur.core ∧ d.slot = s.cur.slot ∧ d.gid = G.gid ∧ d.split = p.id ∧ d.iid = G.nextIid ∧ d.cap = cap
          ∧ d.mask = m &&& fullMask G.w ∧ d.lo = G.lanes f.b.toNat ∧ d.hi = (if pair then G.lanes (f.b.toNat + 1) else [])
          ∧ d.pair = pair ∧ d.rel = f.opx.getLsbD 0 ∧ d.place = s.placeOf s.cur.core s.cur.slot
          ∧ (let pkg := fld cap 54 10
             let ports := s.usablePorts pkg
             let key := 2048 * pkg + 768 + s.cur.core
             (pkg = fld s.pkgid 0 10 → d.outcome = none ∧ d.xid = none ∧ t.xacts = s.xacts ∧ t.flowOut = s.flowOut ∧ t.nextId = s.nextId + 1)
             ∧ (pkg ≠ fld s.pkgid 0 10 → ports = [] →
                  d.outcome = some 1 ∧ d.xid = none ∧ t.xacts = s.xacts ∧ t.flowOut = s.flowOut ∧ t.nextId = s.nextId + 1)
             ∧ (pkg ≠ fld s.pkgid 0 10 → ports ≠ [] → ∃ x, t.xacts = s.xacts ++ [x] ∧ d.outcome = none ∧ d.xid = some x.xid ∧ x.pkg = pkg
                  ∧ x.seq = s.flowOut.get 0 key ∧ t.flowOut = s.flowOut.set key (x.seq + 1) ∧ x.op = .deliver cap d.mask d.lo d.hi pair d.rel
                  ∧ ((∀ y ∈ s.xacts, ¬(y.pkg = pkg ∧ y.flow = 768 + s.cur.core)) →
                      x.port = ports.getD ((s.cur.core ^^^ pkg) % ports.length) 0))))

/-- Rules R186, R187, R193, R194, R195 and R197: a delivery whose capability is sealed under the present key, has one right, and names a register
that its live group still has armed under it, is stored where the register or its pair is PENDING, lane by lane as MAP says, and raises a pending
OVERWRITE where it is DELIVERED; a broken seal, bad rights or a pair sent to one register count BADCAP, and an old generation or an empty slot
STALECAP. -/
def Clause.Deliveries : Prop :=
  ∀ (s : State) (d : Delivery), s.deliveries.find? (fun e => e.did == d.did) = some d → s.deliverable d = true → d.rel = false →
    fld d.cap 54 10 = fld s.pkgid 0 10 → s.saveHeld d.cap d.pair = false →
    let pl := capPlace d.cap
    let core := placeCore pl
    let sealed := fld d.cap 0 14 = sealOf s.key d.cap
    let good := sealed ∧ (capRights d.cap = 1 ∨ capRights d.cap = 2) ∧ pl / 64 % 128 < 96 ∧ (s.core core).power = .live
      ∧ (s.core core).fwd.find (placeSlot pl) = none
    let n := capReg d.cap
    let outcome (t : State) (o : Nat) : Prop :=
      t.deliveries = updIf s.deliveries (fun e => e.did == d.did) (fun e => { e with outcome := some o })
    (fld d.cap 0 14 ≠ sealOf s.key d.cap → (fld d.cap 0 14 ≠ sealOf s.prevKey d.cap ∨ s.resets ≤ 1) →
      ∃ t, exec (.deliveryArrival d.did) s = .next t ∧ outcome t 3 ∧ t.cores = s.cores)
    ∧ (sealed → capRights d.cap = 0 ∨ capRights d.cap = 3 → ∃ t, exec (.deliveryArrival d.did) s = .next t ∧ outcome t 3 ∧ t.cores = s.cores)
    ∧ (good → s.group core (placeSlot pl) = none → ∃ t, exec (.deliveryArrival d.did) s = .next t ∧ outcome t 1 ∧ t.cores = s.cores)
    ∧ (∀ G, good → s.group core (placeSlot pl) = some G → G.ra = none → G.ending = false →
        let live := (s.core core).gen (placeSlot pl) n = capGen d.cap ∧ G.keeps d.cap = true
        ((¬ live ∨ (G.vreg n).st ≠ .pending ∧ (G.vreg n).st ≠ .delivered) → ∃ t, exec (.deliveryArrival d.did) s = .next t ∧ outcome t 1
            ∧ t.group core (placeSlot pl) = some G)
        ∧ (live → (G.vreg n).st = .pending → d.pair = false → capMode d.cap < 16 →
            ∃ t v, exec (.deliveryArrival d.did) s = .next t ∧ outcome t 0 ∧ t.group core (placeSlot pl) = some (G.withV v)
              ∧ (∀ r, r ≠ n → v.get {} r = G.vreg r) ∧ (v.get {} n).st = .delivered
              ∧ (v.get {} n).val = fillLanes G.w (capMode d.cap / 2 % 8) d.mask d.lo)
        ∧ (live → (G.vreg n).st = .pending → (G.vreg (n + 1)).st = .pending → d.pair = true → 16 ≤ capMode d.cap →
            ∃ t v, exec (.deliveryArrival d.did) s = .next t ∧ outcome t 0 ∧ t.group core (placeSlot pl) = some (G.withV v)
              ∧ (∀ r, r ≠ n → r ≠ n + 1 → v.get {} r = G.vreg r) ∧ (v.get {} n).st = .delivered ∧ (v.get {} (n + 1)).st = .delivered
              ∧ (v.get {} n).val = fillLanes G.w (capMode d.cap / 2 % 8) d.mask d.lo
              ∧ (v.get {} (n + 1)).val = fillLanes G.w (capMode d.cap / 2 % 8) d.mask d.hi)
        ∧ (live → (G.vreg n).st = .pending ∨ (G.vreg n).st = .delivered → d.pair ≠ decide (16 ≤ capMode d.cap) →
            ∃ t, exec (.deliveryArrival d.did) s = .next t ∧ outcome t 3 ∧ t.group core (placeSlot pl) = some G)
        ∧ (live → (G.vreg n).st = .delivered → d.pair = decide (capMode d.cap / 16 = 1) → ∃ t, exec (.deliveryArrival d.did) s = .next t ∧ outcome t 2
            ∧ t.group core (placeSlot pl) = some (G.overwrite n)))

/-- Rules R192, R197 and R198: when the outcome of a SEND returns, its sender counts it, saturating at 65,535, and the SEND completes; one with
`.rel` to another package once its split's earlier writes are home. -/
def Clause.SendOutcomes : Prop :=
  ∀ (s : State) (d : Delivery) (o : Nat) (G : Group), s.deliveries.find? (fun e => e.did == d.did) = some d → d.outcome = some o → o < 4 →
    s.group d.core d.slot = some G → G.gid = d.gid → G.ending = false →
    d.rel = false ∨ fld d.cap 54 10 = fld s.pkgid 0 10 ∨ (s.core d.core).l1 = [] ∧ (s.core (partnerOf d.core)).l1 = []
      ∧ (s.core (partnerOf d.core)).homeq = [] ∧ s.writesDrained d.core d.gid d.split d.iid = true →
    ∃ t x, exec (.sendOutcomeReturn d.did) s = .next t
      ∧ t.group d.core d.slot = some { G.noteDone d.split s.cycle with sendstat := x, infl := G.infl.filter (fun i => i.id != d.iid) }
      ∧ fld x (48 - 16 * o) 16 = min (fld G.sendstat (48 - 16 * o) 16 + 1) 65535
      ∧ (∀ k, k < 4 → k ≠ o → fld x (48 - 16 * k) 16 = fld G.sendstat (48 - 16 * k) 16)
      ∧ t.deliveries = s.deliveries.filter (fun e => e.did != d.did) ∧ t.xacts = s.xacts.filter (fun x => some x.xid != d.xid)

/-! ### Steps, fetch, reset and memory -/

/-- Rules R53, R159 and R160: the turn of an issue slot runs the decoded word of the split it picks, which is the word fetched at the
split's PC; a word that does not decode raises ILLEGAL; an event on the agenda is exec of that event, an uncorrectable error (log entry
130) makes its mark, and an SMBus command code that the table of R465 lacks is answered with a NACK. Where stall codes are watched they are brought up
to date around it (R167). -/
def Obligations.StepRunsDecoded : Prop :=
  (∀ (s : State) d c k rest r G p, s.agenda = (d, Move.issue c k) :: rest →
    let s0 := (({ s with agenda := rest } : State).refresh exec).elapse d
    let s1 := s0.tryOne c r
    s0.pick c k = some r → s1.group c r.1 = some G → G.split r.2.2.id = some p → G.heldForCause p.id = false → G.unalloc = [] →
      (∀ w i, p.word = some w → decode (s1.env G) w = .ok i → step s = exec i s1)
      ∧ (∀ w e, p.word = some w → decode (s1.env G) w = .error e → step s = .next (s1.illegal s1.cur e))
      ∧ (∀ w i, p.word = none → p.refused = none → s1.fetchAt s1.cur G.part p.pc.toNat = (s1, some w) → decode (s1.env G) w = .ok i →
          step s = exec i (s1.setGroup c r.1 (G.updSplit r.2.2.id (fun q => { q with word := some w, stall := 15 })))))
  ∧ (∀ (s : State) d i rest, s.agenda = (d, Move.event i) :: rest → encode i = none →
      step s = exec i (((({ s with agenda := rest } : State).refresh exec).elapse d).refresh exec))
  ∧ (∀ (s : State) d x rest, s.agenda = (d, Move.strike x) :: rest →
      step s = .next (((({ s with agenda := rest } : State).refresh exec).elapse d).strike x))
  ∧ (∀ (s : State) d code rest, s.agenda = (d, Move.command code) :: rest → code ∉ [0x01, 0x02, 0x03, 0x10, 0x11, 0x20, 0x30, 0x31] →
      let t := (({ s with agenda := rest } : State).refresh exec).elapse d
      step s = .next { t with replies := t.replies ++ [.nack] })
  ∧ (∀ s : State, (∀ e ∈ s.parts, fld e.2.sampctl 63 1 = 0 ∧ ∀ x ∈ e.2.pcsel, fld x.2 63 1 = 0) → s.refresh exec = s)

/-- The package left to itself (the model's own order, log entry 3): with nothing on the agenda, a step is the first internal event that
changes the state, else the turn of the first issue slot that has a split to try, else a cycle. -/
def Clause.StepAlone : Prop :=
  ∀ s : State, s.agenda = [] →
    (∀ i t pre post, s.dueEvents = pre ++ i :: post → (∀ j ∈ pre, exec j s = .next s) → exec i s = .next t → t ≠ s → step s = .next t)
    ∧ ((∀ j ∈ s.dueEvents, exec j s = .next s) →
        (∀ c k rest, s.readySlots = (c, k) :: rest → step s = issueTurn c k s) ∧ (s.readySlots = [] → step s = .next (s.tick exec)))

/-- Rules R53, R159, R276 and R331: a fetch translates the PC, needs RD and a region that accepts it, raises PROTECT or POISON where it may not
read, waits while a copy owns the line, and reads the eight bytes of memory at the physical address, lowest byte first; INSTRUCTION_FETCH gives
a split the word at its PC. -/
def Clause.FetchReads : Prop :=
  ∀ (s : State) (X : Ctx) (part va : Nat) (e : TlbEnt), (s.core X.core).tlb.find? (fun (e : TlbEnt) => e.covers part va) = some e → va < 2 ^ 57 →
    let pa := e.pa va
    (e.rd = false ∨ s.regionOk pa = false → s.fetchAt X part va = (s.raise X 7 0 (va / 512 % 2 ^ 48), none))
    ∧ (e.rd = true → s.regionOk pa = true → s.owned (pa / 128) = true → s.fetchAt X part va = (s, none))
    ∧ (e.rd = true → s.regionOk pa = true → s.owned (pa / 128) = false → s.barred part X.core (pa / 128) = true → s.fetchAt X part va = (s, none))
    ∧ (e.rd = true → s.regionOk pa = true → s.owned (pa / 128) = false → s.barred part X.core (pa / 128) = false →
        regionOf pa ≠ 1 → (∀ l, s.holders l = []) →
        let t := if regionOf pa = 2 then s.l2Look X.core (pa / 128) (secsOf pa 8) false else s
        let w := w64 (numOf ((List.range 8).map (fun i => memGet s.mem (pa + i))))
        (s.poisoned pa 8 = true → s.fetchAt X part va = ((t.readPoison part (s.placeOf X.core X.slot) pa 8).raise X 13 0 (va / 512 % 2 ^ 48), none))
        ∧ (s.poisoned pa 8 = false → s.fetchAt X part va = (t, some w)
          ∧ ∀ G p, s.group X.core X.slot = some G → G.splits = [p] → G.part = part → p.id = X.split → p.pc.toNat = va → p.word = none →
              p.refused = none → p.wait = .ready → G.stopped = false → G.entry = none → G.frame = none → G.causes = [] →
              exec (.instructionFetch X.core X.slot X.split) s =
                .next (t.setGroup X.core X.slot { G with splits := [{ p with word := some w, stall := 15 }] })))

/-- Rules R459 and R460 (with the register descriptions' reset values): a package out of reset holds no team, launch or packet, its
caches, rings and queues are empty, its control registers read their reset values and its timestamp is 0. Its memory lists nothing and marks no
poison, and every register that the spec gives no reset value holds 0: the model's choices (log entries 2 and 5). Its partitions' copies of the
scope table are placed (log entry 99). -/
def Obligations.ResetState : Prop :=
  let s := State.reset
  s.now = 0 ∧ s.mem = [] ∧ s.poison = [] ∧ s.l2 = [] ∧ s.stackTlb0 = [] ∧ s.stackTlb1 = [] ∧ s.teams = [] ∧ s.launches = [] ∧ s.conts = []
  ∧ s.graphs = [] ∧ s.deliveries = [] ∧ s.xacts = []
  ∧ (∀ c, s.core c = {}) ∧ (∀ p, p < 8 → s.part p = { scopetab := (Config.scopeVa p).setWidth 64 }) ∧ (∀ q, s.queue q = {})
  ∧ (∀ j, j < 12 → (s.port j).state = 0) ∧ s.maps = {} ∧ s.late = []
  ∧ s.readReg 0x428 = 0x400 ∧ (∀ j, j < 12 → s.readReg (0x1000 + 16 * j) = 0x4000000000000810 ∧ s.readReg (0x1008 + 16 * j) = 0)
  ∧ (∀ off, ¬(off = 0x428) → ¬(0x1000 ≤ off ∧ off < 0x10C0) → ¬(0x800000 ≤ off) → s.readReg off = 0)

/-- The memory of the package after reset is in its canonical form (with MemoryCanonical: in every state a run reaches). -/
def Obligations.MemoryCanonicalAtReset : Prop := Memory.wf State.reset.mem = true

/-- No step takes memory out of its canonical form: the addresses listed rise strictly, and none lists the byte that an unlisted address
holds, so equal memories are equal data. -/
def Obligations.MemoryCanonical : Prop := Kept (fun s => Memory.wf s.mem = true)

/-- Rules R290, R328 and R292: the bytes that a write at a home leaves are read back there, every other address of memory keeps its
byte, and the reads and writes are those of the one list of cells. -/
def Obligations.ReadAfterWrite : Prop :=
  ∀ m : List Host.Cell, Memory.wf m = true →
    (∀ a x b, memGet (memSet m a x) b = if b = a then x else memGet m b) ∧ (∀ a x, Memory.wf (memSet m a x) = true)
    ∧ (∀ (a : Nat) (bs : List Byte) (b : Nat), memGet (memSetAll m (cellsAt a bs)) b = if a ≤ b ∧ b < a + bs.length then bs.getD (b - a) 0 else memGet m b)
    ∧ ∀ m', Memory.wf m' = true → (∀ a, memGet m a = memGet m' a) → m = m'

/-! ### The reset events -/

/-- Rules R143, R186, R424, R432, R459 and R460: power-on and COLD give a package whose launches, teams, queues, rings and control registers are at
their reset values, whose timestamp is 0, whose cores count their cycles from 0, which holds a new capability key, and where each partition's copy of
the scope table stands in memory at the place of log entry 99; a warm reset does so too, but keeps the rest of memory, its poison marks and the timestamp where no
dirty byte waits and the identity key is as before. After power-on the rest of memory reads 0 (the model's choice, log entry 2), and a core that was retired
stays so (log entry 98). The SMBus commands are acknowledged while the firmware runs and refused in recovery. -/
def Obligations.ResetEvents : Prop :=
  ∀ s : State,
    let clean (t : State) : Prop :=
      t.teams = [] ∧ t.launches = [] ∧ t.conts = [] ∧ t.graphs = [] ∧ t.deliveries = [] ∧ t.queues = [] ∧ t.partmap = []
      ∧ t.regions = [] ∧ t.l2 = [] ∧ t.xacts = [] ∧ t.mc = {} ∧ t.cecount = 0x400 ∧ t.key = Config.drawKey s.keys ∧ t.prevKey = s.key
      ∧ (∀ p, p < 8 → t.part p = { scopetab := w64 (Config.scopeVa p).toNat }) ∧ t.scopeDone = true ∧ t.late = []
      ∧ (∀ p j, p < 8 → j < 32 → numOf (memBytes t.mem (Config.scopeAt p + 8 * j) 8) = (t.scopeWord (j / 4) (j % 4)).toNat)
      ∧ (∀ c, c < 192 → t.core c = { power := if (s.core c).power = .retired then .retired else .live, born := s.cycle, idleSince := s.cycle })
      ∧ t.cycle = s.cycle
    let apart (a : Nat) : Prop := ∀ p, p < 8 → a / 256 ≠ Config.scopeAt p / 256
    (∃ t, exec .powerOn s = .next t ∧ clean t ∧ t.now = 0 ∧ t.warm = false ∧ ∀ a, apart a → memGet t.mem a = 0)
    ∧ (Config.deriveIdentity s.resets = s.identity → s.teams = [] → (∀ c, (s.core c).l1 = [] ∧ (s.core c).homeq = []) → s.late = [] →
        ∃ t, exec .resetctlWarm s = .next t ∧ exec .pcieHotReset s = .next t ∧ exec (.registerWrite 0x430 1) s = .next t
          ∧ clean t ∧ t.warm = true ∧ t.now = s.now ∧ t.identity = s.identity
          ∧ ∀ a, apart a → memGet t.mem a = memGet s.mem a ∧ (a / 32 ∈ t.poison ↔ a / 32 ∈ s.poison))
    ∧ (s.rstate = .running → exec .cold s = exec .powerOn { s with replies := s.replies ++ [.ack] }
        ∧ exec .warm s = exec .resetctlWarm { s with replies := s.replies ++ [.ack] })
    ∧ (s.rstate = .recovery → exec .cold s = .next { s with replies := s.replies ++ [.nack] }
        ∧ exec .warm s = .next { s with replies := s.replies ++ [.nack] })
/-! ### Completion, spills, causes and the ends of groups -/

/-- Rules R19, R20, R29 and R163: when an instruction that computes completes, its writes reach the registers in their order, lane by lane
under the mask of a vector or predicate write, and it leaves the scoreboard; no other register of the group changes. One that issued before a
run-ahead writes its checkpoint too. -/
def Clause.Completion : Prop :=
  ∀ s c g iid G (i : Inflight), s.group c g = some G → G.infl.find? (fun i => i.id == iid) = some i → i.kind = .alu →
    ∃ t r a, exec (.instructionComplete c g iid) s = .next t
      ∧ OnlyGroup s t c g { G.noteDone i.split s.cycle with regs := r, ra := a, infl := G.infl.filter (fun j => j.id != iid) }
      ∧ Written G.w i.writes G.regs r
      ∧ (G.ra = none ∨ i.ahead = true → a = G.ra)
      ∧ ∀ x, G.ra = some x → i.ahead = false → ∃ y, a = some { x with regs := y } ∧ Written G.w i.writes x.regs y

/-- Rules R161 and R314: a split that has not issued for 4,096 cycles is aged, and a split that waits on a counter reads it again at a
poll; the rest of the package is as before. -/
def Clause.AgesAndPolls : Prop :=
  ∀ s c g n G, s.group c g = some G →
    (∃ t, exec (.ageSaturate c g n) s = .next t
      ∧ OnlyGroup s t c g { G with splits := G.splits.map (fun p => if p.id = n ∧ p.since + 4096 ≤ s.cycle then { p with aged := true } else p) })
    ∧ (∀ p pa, G.splits = [p] → p.id = n → p.wait = .counter pa →
        ∃ t, exec (.cwaitPoll c g n) s = .next t ∧ OnlyGroup s t c g { G with splits := [{ p with wait := .ready }] })

/-- Rules R20, R25, R27, R331 and R370: a spilled register's value goes to its place in the spill area, once no copy owns it and an
earlier write-out of the register has landed, and its granules are then free; a reload brings the value back from there and the register is MAPPED;
where the spill area cannot be written or read, the launch ends. -/
def Obligations.SpillsAndReloads : Prop :=
  (∀ s c w, (s.core c).writeouts.find? (fun x => x.id == w.id) = some w → s.pathHeld w.part w.va (4 * w.val.length) = false →
    let s' := s.updCore c (fun k => { k with writeouts := k.writeouts.filter (fun x => x.id != w.id) })
    let r := s'.writeLong w.part w.va ((w.val.map (fun (x : W32) => bytesOf x.toNat 4)).flatten)
    (∀ v, (s.core c).writeouts.find? (fun x => x.gid == w.gid && x.reg == w.reg) = some v → v.id ≠ w.id → exec (.spillWriteoutDone c w.id) s = .next s)
    ∧ ((s.core c).writeouts.find? (fun x => x.gid == w.gid && x.reg == w.reg) = some w →
      (r.2 = true → exec (.spillWriteoutDone c w.id) s = .next r.1)
      ∧ (r.2 = false → ∃ t, exec (.spillWriteoutDone c w.id) s = .next t
          ∧ ∀ d g H, t.group d g = some H → H.lid = w.lid → H.splits = [] ∧ H.ending = true)))
  ∧ (∀ s c g n G r, s.group c g = some G → G.reloads.find? (fun r => r.reg == n) = some r →
      (s.core c).writeouts.any (fun w => w.gid == G.gid && w.reg == n) = false → s.pathHeld G.part (G.spillVa n) (4 * G.w) = false →
      let rd := s.readLong G.part ((G.spill.toNat + n * G.w * 4) % 2 ^ 57) (4 * G.w)
      (∀ b, rd = (s, some b) → ∃ t v, exec (.reloadDone c g n) s = .next t
          ∧ t.group c g = some { G.withV v with reloads := G.reloads.filter (fun r => r.reg != n) }
          ∧ (∀ m, m ≠ n → v.get {} m = G.vreg m)
          ∧ (∀ l, l < G.w → laneOf ((v.get {} n).early.getD (v.get {} n).val) l = w32 (numOf ((b.drop (4 * l)).take 4)))
          ∧ (r.early = false → (v.get {} n).st = .mapped ∧ (v.get {} n).early = none) ∧ (r.early = true → (v.get {} n).st = (G.vreg n).st))
      ∧ (∀ u, rd = (u, none) → exec (.reloadDone c g n) s = .next (u.spillFault G.lid)))

/-- Rules R32, R296, R401, R402, R403 and R405: a group takes its pending deferred cause at its split's next instruction, with `sys.trappc` at that
instruction, but for POISON at the instruction that read (R296 against R401's words; the choice is log entry 31); a group that waits for a
handler bank enters its handler when the trap reserve has room for it. -/
def Clause.CausesTaken : Prop :=
  ∀ s c g G p q, s.group c g = some G → G.splits = [p] → q.code < 32 → q.lane < 64 → G.frame = none → G.stopped = false → G.ra = none →
    (s.core c).trapUsed + G.w ≤ Config.trapGranules →
    let vec := (s.part G.part).trapvec
    (fld vec 63 1 = 1 → G.causes = [q] → G.entry = none → p.wait = .ready ∨ p.wait = .merge ∨ p.wait = .fault →
      ∃ t H, exec (.causeTaken c g) s = .next t ∧ OnlyGroup s t c g H
        ∧ Entered vec { G with causes := [] } p { q with deferred := true, split := p.id, pc := if q.code = 13 then q.pc else p.pc, ra := p.pc } H)
    ∧ (G.entry = some q → q.split = p.id → (∀ e ∈ (s.core c).slots, e.2.entry ≠ none → e = (g, G)) → (g, G) ∈ (s.core c).slots →
      ∃ t H, exec (.handlerBankGrant c) s = .next t ∧ OnlyGroup s t c g H ∧ Entered vec G p q H)

/-- Rule R416: a group that has not stopped 20 µs after a pre-emption request is stopped by force at its splits' next instructions. -/
def Clause.ForcedStop : Prop :=
  ∀ s c g G at', s.group c g = some G → G.preempt = some at' → G.stopped = false → G.ending = false → at' + 20000 ≤ s.now → G.ra = none →
    G.entry = none →
    ∃ t, exec (.preemptForceTimeout c g) s = .next t ∧ OnlyGroup s t c g { G with stopped := true }

/-- Rules R138, R152, R188 and R378: a group that has ended leaves its slot once its instructions and writes are complete, and every register of the
slot has a new generation; with the team's last group the team ends, its accumulator rows are free, and its launch counts it. -/
def Obligations.GroupsEnd : Prop :=
  ∀ s c g G T, s.group c g = some G → G.ending = true → (s.core c).groupQuiet G = true → (∀ a ∈ G.arms, capPlace a.2.cap = s.placeOf c g) →
    s.teams.find G.tid = some T → T.tid = G.tid →
    let left := T.live.filter (fun i => i != G.idx)
    let gone (t : State) : Prop := (t.core c).slots = (s.core c).slots.erase g ∧ ∀ n, n < 128 → (t.core c).gen g n = ((s.core c).gen g n + 1) % 4096
    (left ≠ [] ∨ T.state = .ended → ∃ t, exec (.groupEnd c g) s = .next t ∧ gone t ∧ t.teams.find G.tid = some { T with live := left }
        ∧ t = { s with cores := t.cores, teams := t.teams })
    ∧ (left = [] → T.state ≠ .ended → T.wins = [] → T.pair = false → s.unrecorded T.part → ∃ t T', exec (.groupEnd c g) s = .next t ∧ gone t
        ∧ t.teams.find G.tid = some T' ∧ T'.state = .ended ∧ T'.live = [] ∧ T'.base = 0 ∧ T'.limit = 0 ∧ T'.req = none
        ∧ ∀ L, T.cont = none → s.launches.find T.lid = some L → t.launches.find T.lid = some { L with ended := L.ended + 1 })

/-- Rule R224: once a team's earlier term instructions are done its request frees its rows, and is served when it is the first of its core: the lowest
free run of rows, every row zero and unmarked, becomes its window, and the write that asked for it completes; AWLIMIT's REQ makes a request. That a request changes nothing while one is
pending (log entry 112), and that AWBASE and AWLIMIT read 0 between the two steps (log entry 140), is the model's choice. -/
def Clause.RowAllocation : Prop :=
  (∀ s tid T n k b rest, s.teams.find tid = some T → T.tid = tid → T.pair = false → T.req = some (n, k) → n ≤ 512 →
    (s.core T.core).allocs = ⟨tid, n, k⟩ :: rest → s.termBusy T = false →
    (n = 0 ∧ b = 0 ∨ 0 < n ∧ b + n ≤ 512 ∧ s.rowsFree T b n = true ∧ ∀ a, a < b → s.rowsFree T a n = false) →
    ∃ t, exec (.accumulatorAllocation tid) s = .next t
      ∧ t.teams.find tid = some { T with base := b, limit := b + n, req := none }
      ∧ (∀ r j, j < 1024 → (t.core T.core).acc.get 0 (1024 * r + j) = if b ≤ r ∧ r < b + n then 0 else (s.core T.core).acc.get 0 (1024 * r + j))
      ∧ (∀ r, (t.core T.core).marks.get 0 r = if b ≤ r ∧ r < b + n then 0 else (s.core T.core).marks.get 0 r)
      ∧ (t.core T.core).allocs = rest.filter (fun r => r.tid != tid)
      ∧ (∀ g, t.group T.core g = (s.group T.core g).map (fun G => if G.tid = tid then
          { (G.infl.filter (fun i => i.kind == .alloc)).foldl (fun G i => G.noteDone i.split s.cycle) G with infl := G.infl.filter (fun i => i.kind != .alloc) }
          else G))
      ∧ t = { s with cores := t.cores, teams := t.teams })
  ∧ (∀ s tid T n k r rest, s.teams.find tid = some T → T.tid = tid → T.pair = false → T.req = some (n, k) → s.termBusy T = false →
      (s.core T.core).allocs = r :: rest → r.tid ≠ tid →
      ∃ t, exec (.accumulatorAllocation tid) s = .next t ∧ t.teams.find tid = some { T with base := 0, limit := 0 } ∧ t = { s with teams := t.teams })
  ∧ (∀ s c g G T (req : W64), s.group c g = some G → G.idx = 0 → s.teams.find G.tid = some T → T.pair = false →
      (T.req = none → ∃ t, exec (.awlimitReqWrite c g req) s = .next t
        ∧ t.teams.find G.tid = some { T with req := some (min (fld req 16 10) 512, s.nextId) }
        ∧ (t.core T.core).allocs = (s.core T.core).allocs ++ [⟨G.tid, min (fld req 16 10) 512, s.nextId⟩])
      ∧ (T.req ≠ none → exec (.awlimitReqWrite c g req) s = .next s))
/-! ### Loads and stores -/

/-- Rules R56, R269, R291, R295 and R298: LD asks for the bytes of its active lanes at the addresses that the translation register and its offsets
give; its destination is then MAPPED and written when they come. LDC asks for constant addresses of its launch. Neither changes memory. -/
def Clause.LoadIssues : Prop :=
  ∀ s G p (f : FmtM), Calm s G p → p.am ≠ 0 → Clear s → f.ord = 0 →
    let m := activeLanes G p f.ge f.gn f.g
    let n := sizeBytes f.size
    let k := sizeRegs f.size
    let e (a : Acc) (kind : IKind) : Inflight := { id := 0, split := 0, pc := p.pc, kind := kind, acc := a, writes := readWrites f.d.toNat k m }
    (Legal s G (.ld f) → let P := { planM f true 0 with wv := regRun f.d.toNat k }
      Named s G P → (∀ l ∈ lanesIn m G.w, Through s G f.tr.toNat n true false (G.offset f true l)) → (∀ L ∈ (s.core s.cur.core).l1, L.poison = 0) →
      ∃ t a, exec (.ld f) s = .next t ∧ Issued s t G p P (p.pc + 8) (e a .load)
        ∧ a.lanes = G.accesses f.tr.toNat (lanesIn m G.w) (G.offset f true) ∧ a.size = n ∧ a.sx = decide (f.size = 1 ∨ f.size = 3)
        ∧ a.bypass = decide (f.hint = 2) ∧ ((s.core s.cur.core).l1 = [] → a.got = []))
    ∧ (∀ L, Legal s G (.ldc f) → s.launches.find G.lid = some L → let P := { planM f false 0 with wv := regRun f.d.toNat k }
      Named s G P →
      (∀ l ∈ lanesIn m G.w, ∃ b size, let o := G.offset f true l
        0 ≤ o ∧ o < 2 ^ 22 ∧ o % n = 0 ∧ L.consts[o.toNat / 65536]? = some (b, size) ∧ o.toNat % 65536 + n ≤ size.toNat
        ∧ ((s.core s.cur.core).constLine (b.toNat + o.toNat % 65536)).isSome = true) →
      ∃ t a, exec (.ldc f) s = .next t ∧ Issued s t G p P (p.pc + 8) (e a .cload) ∧ a.size = n
        ∧ a.lanes = (lanesIn m G.w).map (fun l => let o := (G.offset f true l).toNat
            { lane := l, addr := 0, va := ((L.consts[o / 65536]?).getD (0, 0)).1.toNat + o % 65536 }))

/-- Rules R294, R295, R298, R299 and R401: an access whose alignment, register, range, page or region a lane fails does nothing but raise
its cause, ALIGN before PROTECT, with the lowest lane that fails and its address: LD, ST, ATOM, ATOMG, GATHER and SCATTER through a
translation register, LDC within the blocks of its launch, LDL and STL within the local store. A page without a translation raises PAGE where the
partition's fault ring is off. -/
def Clause.AccessTraps : Prop :=
  ∀ s G p (f : FmtM), Calm s G p → p.am ≠ 0 → f.ord = 0 →
    let lanes := lanesIn (activeLanes G p f.ge f.gn f.g) G.w
    let n := sizeBytes f.size
    let k := sizeRegs f.size
    let opc := aopOpc f
    let o (l : Nat) : Int := ((G.vlane f.a.toNat l).toNat * (if f.sc = 1 then n else 1) : Nat) + f.disp.toInt * (n : Int)
    let P0 := planM f true (if opc = 15 then 0 else if opc = 9 then 2 * k else k)
    TrapsAt s G (.ld f) { planM f true 0 with wv := regRun f.d.toNat k } f.tr.toNat n true false lanes (G.offset f true)
    ∧ TrapsAt s G (.st f) (planM f true k) f.tr.toNat n false true lanes (G.offset f true)
    ∧ (∀ mk ∈ [Instr.atom, Instr.atomg],
        TrapsAt s G (mk f) (if aopNr f then P0 else { P0 with wv := regRun f.d.toNat k }) f.tr.toNat n true true lanes (G.offset f false))
    ∧ (fld G.remap 62 2 = 0 → TrapsAt s G (.gather f) { planM f true 0 with wv := regRun f.d.toNat k } f.tr.toNat n true false lanes o
        ∧ TrapsAt s G (.scatter f) (planM f true k) f.tr.toNat n false true lanes o)
    ∧ (∀ L, Legal s G (.ldc f) → s.launches.find G.lid = some L → Named s G { planM f false 0 with wv := regRun f.d.toNat k } →
        let within (l : Nat) : Bool := match L.consts[(G.offset f true l).toNat / 65536]? with
          | some (_, size) => decide (0 ≤ G.offset f true l ∧ G.offset f true l < 2 ^ 22 ∧ (G.offset f true l).toNat % 65536 + n ≤ size.toNat)
          | none => false
        (∀ l, lanes.find? (fun l => decide (G.offset f true l % n ≠ 0)) = some l →
          exec (.ldc f) s = .next (s.raise s.cur 6 l (addrInfo (wrapInt (G.offset f true l) 64))))
        ∧ ((∀ l ∈ lanes, G.offset f true l % n = 0) → ∀ l, lanes.find? (fun l => !within l) = some l →
            exec (.ldc f) s = .next (s.raise s.cur 7 l (addrInfo (wrapInt (G.offset f true l) 64)))))
    ∧ ∀ T, s.teams.find G.tid = some T → ∀ i ∈ [Instr.ldl f, Instr.stl f], Legal s G i →
        Named s G (if i = .ldl f then { planM f false 0 with wv := regRun f.d.toNat k } else planM f false k) →
        (∀ l, lanes.find? (fun l => decide (G.offset f true l % n ≠ 0)) = some l → exec i s = .next (s.raise s.cur 6 l (wrapInt (G.offset f true l) 19)))
        ∧ ((∀ l ∈ lanes, G.offset f true l % n = 0) → ∀ l, lanes.find? (fun l => decide (G.offset f true l < 0 ∨ T.lsz < G.offset f true l + n)) = some l →
            exec i s = .next (s.raise s.cur 7 l (wrapInt (G.offset f true l) 19)))

/-- Rules R135, R269, R297, R298, R321 and R336: ST with `.bl1` sends its lanes' bytes home, those of the package's own memory and the host's as one
write in increasing lane, those of other packages after it as a write for each run of adjacent bytes of a line (the cut is log entry 12's);
dirty bytes of its line in the core's L1 go home before it. Other stores to the package's own memory make their bytes dirty in the core's
L1, a later lane's over an earlier one's. Memory is as before until they reach their homes. -/
def Clause.StoreIssues : Prop :=
  ∀ s G p (f : FmtM), Calm s G p → p.am ≠ 0 → Clear s → f.ord = 0 → p.fenceRel = false → Legal s G (.st f) →
    let m := activeLanes G p f.ge f.gn f.g
    let n := sizeBytes f.size
    let k := sizeRegs f.size
    let P := planM f true k
    let none' : Inflight := { id := 0, split := 0, pc := 0 }
    Named s G P → (∀ l ∈ lanesIn m G.w, Through s G f.tr.toNat n false true (G.offset f true l)) →
      let bytes (l : Nat) : List Host.Cell := cellsAt (G.pa f.tr.toNat (G.offset f true l)) (bytesOf (G.vnum f.b.toNat k l) n)
      let here := s.core s.cur.core
      let there := s.core (partnerOf s.cur.core)
      (m &&& fullMask G.w = 0 → ∃ t, exec (.st f) s = .next t ∧ Issued s t G p P (p.pc + 8) none')
      ∧ (m &&& fullMask G.w ≠ 0 → f.hint = 2 → (∀ L ∈ here.l1, L.dirty = 0) → (∀ L ∈ there.l1, L.dirty = 0) → there.homeq = [] →
          ∃ t hs, exec (.st f) s = .next t
          ∧ Posted s t G p P { none' with kind := .store } (fun c => { c with homeq := hs })
          ∧ (let all := ((lanesIn m G.w).map bytes).flatten
             let far := (all.filter (fun c => regionOf c.1 = 1)).foldl (fun (u : Tab Byte) c => u.set c.1 c.2) []
             let near := all.filter (fun c => regionOf c.1 ≠ 1)
             let runs := if near = [] then hs else hs.drop 1
             (hs.map (fun h => h.cells)).flatten = near ++ far
             ∧ (near ≠ [] → ∃ h, hs.head? = some h ∧ h.cells = near ∧ h.id = s.nextId)
             ∧ (∀ h ∈ runs, h.cells ≠ [] ∧ (∀ j, j + 1 < h.cells.length → (h.cells.getD (j + 1) (0, 0)).1 = (h.cells.getD j (0, 0)).1 + 1
                  ∧ (h.cells.getD (j + 1) (0, 0)).1 % 128 ≠ 0))
             ∧ (∀ j, j + 1 < runs.length → ∀ x y, ((runs.map (fun h => h.cells)).getD j []).getLast? = some x →
                  ((runs.map (fun h => h.cells)).getD (j + 1) []).head? = some y → y.1 ≠ x.1 + 1 ∨ y.1 % 128 = 0))
          ∧ (∀ h ∈ hs, h.gid = G.gid ∧ h.split = p.id ∧ h.iid = G.nextIid ∧ h.slot = s.cur.slot)
          ∧ t = { s with cores := t.cores, parts := t.parts, nextId := s.nextId + hs.length })
      ∧ (∀ l L, f.hint = 2 → lanesIn m G.w = [l] → let a := G.pa f.tr.toNat (G.offset f true l)
          regionOf a = 0 → here.l1 = [L] → L.line = a / 128 → L.dirty ≠ 0 → L.lrel = false → L.mig = none → s.pairNow (s.partOf s.cur.core) L.va L.line = none →
            there.l1 = [] → there.homeq = [] →
          s.owned L.line = false → s.holders L.line = [] → s.poison = [] → Memory.wf s.mem = true →
          ∃ t h, exec (.st f) s = .next t ∧ (t.core s.cur.core).homeq = [h] ∧ h.cells = bytes l
            ∧ (∃ K, (t.core s.cur.core).l1line L.line = some K ∧ K.dirty = 0 ∧ K.data = L.data)
            ∧ ∀ b, memGet t.mem b = if b / 128 = L.line ∧ bit128 L.dirty (b % 128) = true then L.data.getD (b % 128) 0 else memGet s.mem b)
      ∧ (f.hint.toNat < 2 → (∀ l ∈ lanesIn m G.w, regionOf (G.pa f.tr.toNat (G.offset f true l)) = 0
            ∧ there.l1line (G.pa f.tr.toNat (G.offset f true l) / 128) = none) →
          here.l1.length + (lanesIn m G.w).length ≤ 12 → (∀ L ∈ here.l1, L.data.length = 128) → there.homeq = [] →
          ∃ t, exec (.st f) s = .next t ∧ Went s t G p P none' ∧ t = { s with cores := t.cores, parts := t.parts }
            ∧ ∀ ln, let mine := (lanesIn m G.w).filter (fun l => decide (G.pa f.tr.toNat (G.offset f true l) / 128 = ln))
              let old := here.l1line ln
              (mine = [] → (t.core s.cur.core).l1line ln = old)
              ∧ (mine ≠ [] → ∃ L, (t.core s.cur.core).l1line ln = some L ∧ ∀ i, i < 128 →
                  let last := (mine.filter (fun l => decide (G.pa f.tr.toNat (G.offset f true l) ≤ 128 * ln + i
                    ∧ 128 * ln + i < G.pa f.tr.toNat (G.offset f true l) + n))).getLast?
                  L.data.getD i 0 = (match last with
                    | some l => (bytesOf (G.vnum f.b.toNat k l) n).getD (128 * ln + i - G.pa f.tr.toNat (G.offset f true l)) 0
                    | none => old.elim 0 (fun K => K.data.getD i 0))
                  ∧ bit128 L.dirty i = (last.isSome || old.any (fun K => bit128 K.dirty i))))

/-- Rules R269, R271, R284, R305 and R330: an ordered access. LD with `.acq` issues as an acquire, which takes effect as its data comes: above the
pair the clean bytes of the L1s go; until then the split's later accesses wait in UNIT. ST with `.rel` waits in UNIT while an earlier write of
its split is on its way to its home; then at `.grp` to `.pair` its line carries LREL, and above the pair it is sent home itself. -/
def Clause.OrderedAccesses : Prop :=
  ∀ s G p (f : FmtM), p.am ≠ 0 →
    let m := activeLanes G p f.ge f.gn f.g
    let n := sizeBytes f.size
    let k := sizeRegs f.size
    let Pl := { planM f true 0 with wv := regRun f.d.toNat k }
    let here := s.core s.cur.core
    let there := s.core (partnerOf s.cur.core)
    let held : Group := { G with splits := [{ p with stall := 14 }] }
    (Calm s G p → Clear s → f.ord = 1 → f.hint = 2 → Legal s G (.ld f) → Named s G Pl →
      (∀ l ∈ lanesIn m G.w, Through s G f.tr.toNat n true false (G.offset f true l)) →
      ∃ t a, exec (.ld f) s = .next t ∧ Issued s t G p Pl (p.pc + 8)
          { id := 0, split := 0, pc := p.pc, kind := .load, acc := a, acq := true, writes := readWrites f.d.toNat k m }
        ∧ a.scope = f.scope.toNat ∧ a.lanes = G.accesses f.tr.toNat (lanesIn m G.w) (G.offset f true))
    ∧ (∀ c g sc, 3 ≤ sc → ∀ d ∈ [c, partnerOf c], ((s.acquire c g sc).core d).l1 =
        ((s.core d).l1.filter (fun L => L.dirty != 0)).map (fun L => { L with valid := 0, poison := 0, kept := 0 }))
    ∧ (∀ i, s.group s.cur.core s.cur.slot = some G → G.splits = [p] → p.id = s.cur.split → p.refused = none → G.ra = none → G.reloads = [] →
        G.preempt = none → G.infl = [i] → i.acq = true → i.split = p.id → i.writes = [] →
        (Legal s G (.ld f) → Named s G Pl → exec (.ld f) s = .next (s.setGroup s.cur.core s.cur.slot held))
        ∧ (Legal s G (.st f) → Named s G (planM f true k) → exec (.st f) s = .next (s.setGroup s.cur.core s.cur.slot held)))
    ∧ (∀ l, Calm s G p → G.preempt = none → p.fenceRel = false → f.ord = 2 → Legal s G (.st f) → Named s G (planM f true k) → lanesIn m G.w = [l] →
        Through s G f.tr.toNat n false true (G.offset f true l) →
        let a := G.pa f.tr.toNat (G.offset f true l)
        let q : Inflight := { id := 0, split := 0, pc := 0 }
        regionOf a = 0 → here.l1 = [] → there.l1 = [] → there.homeq = [] → here.packets = [] →
        (∀ h, here.homeq = [h] → h.gid = G.gid → h.gid ≠ 0 → h.split = p.id → h.iid < G.nextIid → h.also = [] →
            (∀ c ∈ h.cells, c.1 / 128 ≠ a / 128) →
            ∃ t, exec (.st f) s = .next t ∧ t.group s.cur.core s.cur.slot = some held ∧ (t.core s.cur.core).homeq = [h] ∧ t.mem = s.mem)
        ∧ (here.homeq = [] → f.scope.toNat ≤ 2 → f.hint ≠ 2 → f.hint ≠ 3 → ∃ t L, exec (.st f) s = .next t ∧ Went s t G p (planM f true k) q
            ∧ (t.core s.cur.core).l1line (a / 128) = some L ∧ L.lrel = true ∧ (t.core s.cur.core).homeq = [])
        ∧ (here.homeq = [] → 3 ≤ f.scope.toNat → ∃ t h, exec (.st f) s = .next t ∧ Went s t G p (planM f true k) { q with kind := .store }
            ∧ (t.core s.cur.core).homeq = [h] ∧ h.cells = cellsAt a (bytesOf (G.vnum f.b.toNat k l) n) ∧ (t.core s.cur.core).l1line (a / 128) = none))

/-- Rules R262, R295 and R298: LDL reads the bytes of the team's local store as it issues, and STL writes them, in increasing lane; LDL changes no
byte, and STL of one lane changes its own bytes alone. -/
def Obligations.LocalAccesses : Prop :=
  ∀ s G p (f : FmtM) T, Calm s G p → p.am ≠ 0 → f.ord = 0 → p.fenceRel = false → Store s G T →
    let m := activeLanes G p f.ge f.gn f.g
    let n := sizeBytes f.size
    let k := sizeRegs f.size
    (∀ l ∈ lanesIn m G.w, T.inside n (G.offset f true l)) →
      (Legal s G (.ldl f) → let P := { planM f false 0 with wv := regRun f.d.toNat k }
        Named s G P → ∃ t a, exec (.ldl f) s = .next t
          ∧ Issued s t G p P (p.pc + 8) { id := 0, split := 0, pc := p.pc, kind := .lload, acc := a, writes := readWrites f.d.toNat k m }
          ∧ a.size = n ∧ a.sx = decide (f.size = 1 ∨ f.size = 3) ∧ a.bad = none
          ∧ a.lanes = (lanesIn m G.w).map (fun l => { lane := l, addr := (G.offset f true l).toNat })
          ∧ a.got = ((lanesIn m G.w).map (fun l => cellsAt (G.offset f true l).toNat (T.bytes (G.offset f true l).toNat n))).flatten)
      ∧ (Legal s G (.stl f) → let P := planM f false k
        Named s G P → ∃ t, exec (.stl f) s = .next t ∧ Went s t G p P { id := 0, split := 0, pc := 0 }
          ∧ t = { s with cores := t.cores, parts := t.parts, teams := t.teams }
          ∧ t.teams.find G.tid = some ((lanesIn m G.w).foldl (fun U l => U.put (G.offset f true l).toNat (bytesOf (G.vnum f.b.toNat k l) n)) T)
          ∧ ∀ tid, tid ≠ G.tid → t.teams.find tid = s.teams.find tid)

/-- Rules R283, R284, R285 and R301: with the remap mode that changes no index, a GATHER or SCATTER of one lane opens a packet of its line, of its
own direction, with an entry of its offset and size, and for a SCATTER its bytes; without a lane it opens none. -/
def Clause.CollectedAccesses : Prop :=
  ∀ s G p (f : FmtM), Calm s G p → p.am ≠ 0 → Clear s → f.ord = 0 → p.fenceRel = false → fld G.remap 62 2 = 0 →
    let m := activeLanes G p f.ge f.gn f.g
    let n := sizeBytes f.size
    let k := sizeRegs f.size
    let o (l : Nat) : Int := ((G.vlane f.a.toNat l).toNat * (if f.sc = 1 then n else 1) : Nat) + f.disp.toInt * (n : Int)
    let packet (l : Nat) (write : Bool) (cells : List Host.Cell) (q : Packet) : Prop :=
      q.id = (s.core s.cur.core).nextId ∧ q.line = G.pa f.tr.toNat (o l) / 128 ∧ q.write = write ∧ q.opened = s.cycle ∧ q.joined = s.cycle
      ∧ q.entries = [(G.pa f.tr.toNat (o l) % 128, n)] ∧ q.writes = cells ∧ q.reqs = [⟨s.cur.slot, G.nextIid, G.gid, p.id⟩]
      ∧ q.departed = false ∧ q.served = false
    let one (q : Packet) (c : Core) : Core := { c with packets := [q], nextId := c.nextId + 1 }
    (∀ l, Legal s G (.gather f) → lanesIn m G.w = [l] → let P := { planM f true 0 with wv := regRun f.d.toNat k }
      Named s G P → Through s G f.tr.toNat n true false (o l) → ∃ t q a, exec (.gather f) s = .next t ∧ packet l false [] q
        ∧ Posted s t G p P { id := 0, split := 0, pc := p.pc, kind := .gather, acc := a, writes := readWrites f.d.toNat k m } (one q)
        ∧ a.lanes = G.accesses f.tr.toNat [l] o ∧ a.wait = [q.id] ∧ a.size = n ∧ a.got = [] ∧ t = { s with cores := t.cores, parts := t.parts })
    ∧ (∀ l, Legal s G (.scatter f) → lanesIn m G.w = [l] → let P := planM f true k
      Named s G P → Through s G f.tr.toNat n false true (o l) → ∃ t q a, exec (.scatter f) s = .next t
        ∧ packet l true (cellsAt (G.pa f.tr.toNat (o l)) (bytesOf (G.vnum f.b.toNat k l) n)) q
        ∧ Posted s t G p P { id := 0, split := 0, pc := p.pc, kind := .scatter, acc := a } (one q) ∧ t = { s with cores := t.cores, parts := t.parts })
    ∧ (lanesIn m G.w = [] →
        (Legal s G (.gather f) → let P := { planM f true 0 with wv := regRun f.d.toNat k }
          Named s G P → ∃ t a, exec (.gather f) s = .next t
            ∧ Went s t G p P { id := 0, split := 0, pc := p.pc, kind := .lload, acc := a, writes := readWrites f.d.toNat k m }
            ∧ a.lanes = [] ∧ (t.core s.cur.core).packets = [])
        ∧ (Legal s G (.scatter f) → let P := planM f true k
          Named s G P → ∃ t a, exec (.scatter f) s = .next t ∧ Went s t G p P { id := 0, split := 0, pc := p.pc, acc := a }
            ∧ (t.core s.cur.core).packets = []))

/-- Rules R302, R303, R304, R313 and R329: an atomic, whole or per lane, asks for its operation at the addresses of its active lanes with their
operands, and CADD for an addition at its counter; the packages' memory changes when they reach their homes. An ATOM's update of one lane in
another package leaves as a transaction (R437). -/
def Clause.AtomicsIssue : Prop :=
  ∀ s G p (f : FmtM), Calm s G p → p.am ≠ 0 → Clear s → f.ord = 0 → p.fenceRel = false →
    let m := activeLanes G p f.ge f.gn f.g
    let n := sizeBytes f.size
    let k := sizeRegs f.size
    let opc := aopOpc f
    let P0 := planM f true (if opc = 15 then 0 else if opc = 9 then 2 * k else k)
    let P := if aopNr f then P0 else { P0 with wv := regRun f.d.toNat k }
    let at' := G.accesses f.tr.toNat (lanesIn m G.w) (G.offset f false)
    (∀ mk ∈ [Instr.atom, Instr.atomg], Legal s G (mk f) → Named s G P → (∀ l ∈ lanesIn m G.w, Through s G f.tr.toNat n true true (G.offset f false l)) →
      (∀ x ∈ at', regionOf x.addr ≠ 1) → ∃ t a, exec (mk f) s = .next t ∧ Posted s t G p P
          { id := 0, split := 0, pc := p.pc, kind := .atom, acc := a, ref := s.nextId, writes := if aopNr f then [] else readWrites f.d.toNat k m } id
        ∧ a.size = n ∧ a.opc = opc ∧ a.prom = aopPr f
        ∧ a.lanes = at'.map (fun x => if opc = 9 then { x with c := w64 (G.vnum f.b.toNat k x.lane), b := w64 (G.vnum (f.b.toNat + k) k x.lane) }
                                      else { x with b := w64 (G.vnum f.b.toNat k x.lane) })
        ∧ t = { s with cores := t.cores, parts := t.parts, nextId := s.nextId + 1 })
    ∧ (∀ x, Legal s G (.atom f) → Named s G P → at' = [x] → regionOf x.addr = 1 → (∀ l ∈ lanesIn m G.w, Through s G f.tr.toNat n true true (G.offset f false l)) →
      ∃ t a y, exec (.atom f) s = .next t ∧ Went s t G p P
          { id := 0, split := 0, pc := p.pc, kind := .atom, acc := a, ref := s.nextId, writes := if aopNr f then [] else readWrites f.d.toNat k m }
        ∧ t.xacts = s.xacts ++ [y] ∧ y.pkg = x.addr / 2 ^ 40 % 1024 ∧ y.core = s.cur.core ∧ y.slot = s.cur.slot ∧ y.iid = G.nextIid
        ∧ a.lanes.map (fun z => RemoteOp.atomic (z.addr % 2 ^ 40) (BitVec.ofNat 5 opc) (n == 8) z.b z.c (aopPr f && decide (5 ≤ f.scope.toNat))) = [y.op]
        ∧ t.mem = s.mem)
    ∧ (∀ l rest, Legal s G (.cadd f) → lanesIn m G.w = l :: rest → let P := { planM f true 0 with rk := (planM f true 0).rk ++ [f.b.toNat] }
      Named s G P → Through s G f.tr.toNat 8 true true (G.offset f true l) → regionOf (G.pa f.tr.toNat (G.offset f true l)) ≠ 1 →
      ∃ t a, exec (.cadd f) s = .next t ∧ Issued s t G p P (p.pc + 8) { id := 0, split := 0, pc := p.pc, kind := .atom, acc := a }
        ∧ a.size = 8 ∧ a.opc = 0 ∧ a.wait = []
        ∧ a.lanes = [{ lane := 0, addr := G.pa f.tr.toNat (G.offset f true l), va := G.va f.tr.toNat (G.offset f true l), b := G.uni f.b.toNat }])
/-! ### Order, translation, the L1 and the stash -/

/-- Rules R271, R305 and R330: with nothing on its way, a FENCE issues; at a scope above the pair an acquire leaves the core's L1 no clean byte and
keeps the dirty ones, and so its partner's (R325, log entry 133); a release at a scope up to the pair marks the split's next write, and one
above it writes a dirty line home; without an active lane it has no effect. -/
def Clause.Fences : Prop :=
  ∀ s G p (f : FmtM), Calm s G p → Clear s → p.am ≠ 0 → Legal s G (.fence f) →
    let there := s.core (partnerOf s.cur.core)
    f.ord = 1 ∨ ((s.core s.cur.core).l1 = [] ∧ there.l1 = [] ∧ there.homeq = []) →
    (∀ e ∈ (s.core s.cur.core).slots, e.2.gid = G.gid → e.2.infl = []) →
    let m := activeLanes G p f.ge f.gn f.g
    let rel := f.ord.getLsbD 1 = true ∧ f.scope.toNat ≤ 2 ∧ m ≠ 0
    ∃ t, exec (.fence f) s = .next t ∧ t = { s with cores := t.cores, parts := t.parts }
      ∧ t.group s.cur.core s.cur.slot = some { G with
          splits := [{ p.issued s.cycle (p.pc + 8) with fenceRel := p.fenceRel || decide rel }]
          infl := [{ id := G.nextIid, split := p.id, pc := 0 }], nextIid := G.nextIid + 1 }
      ∧ ∀ c ∈ [s.cur.core, partnerOf s.cur.core],
          (f.ord = 1 → 3 ≤ f.scope.toNat → m ≠ 0 → ∀ l, (t.core c).l1line l =
            (match (s.core c).l1.find? (fun x => x.line == l && x.dirty != 0) with
              | some L => some { L with valid := 0, poison := 0, kept := 0 }
              | none => none))
          ∧ (m = 0 ∨ f.scope.toNat < 3 → (t.core c).l1 = (s.core c).l1)

/-- Rules R271, R305 and R325: a release FENCE above the pair writes back the dirty bytes of the pair's L1s, its own and its partner's (log entry
133), in the step in which it issues where nothing holds them up; where a write-back is held up by a copy that owns its line, it waits in
MEMWAIT and the bytes are queued for their home. -/
def Clause.ReleaseFences : Prop :=
  ∀ s G p (f : FmtM) c L, Calm s G p → Clear s → p.am ≠ 0 → Legal s G (.fence f) → activeLanes G p f.ge f.gn f.g ≠ 0 →
    f.ord = 2 → 3 ≤ f.scope.toNat → G.preempt = none → (∀ e ∈ (s.core s.cur.core).slots, e.2.gid = G.gid → e.2.infl = []) →
    c ∈ [s.cur.core, partnerOf s.cur.core] → (s.core (partnerOf s.cur.core)).homeq = [] →
    (∀ d ∈ [s.cur.core, partnerOf s.cur.core], (s.core d).l1 = if d = c then [L] else []) →
    L.dirty ≠ 0 → L.lrel = false → L.mig = none → s.pairNow (s.partOf c) L.va L.line = none → regionOf (128 * L.line) = 0 → s.holders L.line = [] → s.poison = [] →
    s.barred (s.partOf c) c L.line = false →
      (s.owned L.line = false → ∃ t, exec (.fence f) s = .next t ∧ (t.core c).l1 = [L.clean]
          ∧ t.mem = memSetAll s.mem L.dirtyCells
          ∧ t.group s.cur.core s.cur.slot = some { G with splits := [p.issued s.cycle (p.pc + 8)]
                                                          infl := [{ id := G.nextIid, split := p.id, pc := 0 }], nextIid := G.nextIid + 1 })
      ∧ (s.owned L.line = true → ∃ t h, exec (.fence f) s = .next t ∧ (t.core c).l1 = [L.clean] ∧ (t.core c).homeq = [h] ∧ h.cells = L.dirtyCells
          ∧ h.gid = 0 ∧ t.mem = s.mem ∧ t.group s.cur.core s.cur.slot = some { G with splits := [{ p with stall := 7 }] })

/-- Rules R16, R276, R277, R283, R294, R306 and R315: TRANSLATE fills a translation register from the entry that covers its address; REMAPLD takes a
remap descriptor whose fields suit its mode and raises ILLEGAL by check 9 for another; neither has an effect without an active lane, where
also a descriptor that does not suit raises nothing (log entry 119: R294 against R61). -/
def Clause.Descriptors : Prop :=
  ∀ s G p (f : FmtM), Calm s G p → p.am ≠ 0 →
    let m := activeLanes G p f.ge f.gn f.g
    let H : Group := { G with splits := [p.issued s.cycle (p.pc + 8)], infl := [{ id := G.nextIid, split := p.id, pc := 0 }], nextIid := G.nextIid + 1 }
    let va := (G.uni f.a.toNat).toNat
    let d := G.uni f.a.toNat
    let suits := fld d 32 18 = 0 ∧ (match fld d 62 2 with
      | 0 => fld d 57 5 = 0 ∧ fld d 0 32 = 0 ∧ fld d 50 7 = 0
      | 1 => fld d 0 32 ≠ 0 ∧ fld d 50 7 = 0
      | 2 => fld d 57 5 ≠ 0 ∧ fld d 50 7 = 0
      | _ => fld d 57 5 = 0 ∧ fld d 0 32 = 0)
    (Legal s G (.translate f) →
      (m ≠ 0 → 2 ^ 57 ≤ va → exec (.translate f) s = .next (s.raise s.cur 7 0 (va / 512 % 2 ^ 48)))
      ∧ (∀ e, m ≠ 0 → va < 2 ^ 57 → (s.core s.cur.core).tlb.find? (fun (e : TlbEnt) => e.covers G.part va) = some e → e.size < 4 → e.pa va < 2 ^ 52 →
          ∃ t x r, exec (.translate f) s = .next t ∧ Moved s t { H with regs := { G.regs with t := r } }
            ∧ r.get {} f.d.toNat = x ∧ (∀ n, n ≠ f.d.toNat → r.get {} n = G.treg n)
            ∧ fld x.w0 0 57 = va ∧ fld x.w1 63 1 = 1 ∧ fld x.w1 62 1 = (if e.rd then 1 else 0) ∧ fld x.w1 61 1 = (if e.wr then 1 else 0)
            ∧ fld x.w1 52 4 = e.size ∧ fld x.w1 0 52 = e.pa va ∧ fld x.w2 0 36 = e.vbase + pageBytes e.size - va ∧ x.stale = false)
      ∧ (m = 0 → ∃ t, exec (.translate f) s = .next t ∧ Moved s t H))
    ∧ (Legal s G (.remapld f) →
      (m ≠ 0 → suits → ∃ t, exec (.remapld f) s = .next t ∧ Moved s t { H with remap := d })
      ∧ (m ≠ 0 → ¬ suits → exec (.remapld f) s = .next (s.raise s.cur 1 0 (9 * 2 ^ 16 + 2 ^ 7 + f.a.toNat)))
      ∧ (m = 0 → ∃ t, exec (.remapld f) s = .next t ∧ Moved s t H))

/-- Rules R271, R275, R307, R308 and R331: PREF raises nothing for a lane that may not be read, and brings a readable line into the L2; one of a line that a
copy owns waits in the core (log entry 36); L1INV `.all` leaves the L1 no clean byte, and L1FLUSH `.all` writes the dirty bytes to memory and
keeps them readable, clean. -/
def Obligations.CacheHints : Prop :=
  ∀ s G p (f : FmtM), Calm s G p → p.am ≠ 0 →
    let m := activeLanes G p f.ge f.gn f.g
    let P := planM f true 0
    let Q := planM f false 0
    let none' : Inflight := { id := 0, split := 0, pc := 0 }
    (Legal s G (.pref f) → Named s G P →
      (m &&& fullMask G.w = 0 ∨ fld (G.treg f.tr.toNat).w1 63 1 = 0 → ∃ t, exec (.pref f) s = .next t ∧ Issued s t G p P (p.pc + 8) none')
      ∧ (∀ l, f.hint.toNat = 2 → lanesIn m G.w = [l] → Through s G f.tr.toNat 1 true false (G.offset f true l) →
          let line := G.pa f.tr.toNat (G.offset f true l) / 128
          regionOf (128 * line) = 0 → s.poison = [] → s.owned line = false → s.holders line = [] → s.l2Held s.cur.core line = 0 →
          ∃ t x, exec (.pref f) s = .next t ∧ Went s t G p P none' ∧ t = { s with cores := t.cores, parts := t.parts, l2 := t.l2 }
            ∧ x ∈ t.l2 ∧ x.line = line ∧ x.stack = s.sliceOf (stackOf s.cur.core) line ∧ x.secs = 15)
      ∧ (∀ l, lanesIn m G.w = [l] → Through s G f.tr.toNat 1 true false (G.offset f true l) →
          let line := G.pa f.tr.toNat (G.offset f true l) / 128
          s.owned line = true → ⟨line, f.hint⟩ ∉ (s.core s.cur.core).prefs → ∃ t, exec (.pref f) s = .next t ∧ Went s t G p P none'
            ∧ t = { s with cores := t.cores, parts := t.parts } ∧ (t.core s.cur.core).prefs = (s.core s.cur.core).prefs ++ [⟨line, f.hint⟩]))
    ∧ (Legal s G (.l1inv f) → Named s G Q → m ≠ 0 → f.size = 1 → ∃ t, exec (.l1inv f) s = .next t ∧ Went s t G p Q none'
        ∧ t = { s with cores := t.cores, parts := t.parts } ∧ (∀ L ∈ (t.core s.cur.core).l1, L.valid = 0 ∧ L.dirty ≠ 0)
        ∧ ∀ L ∈ (s.core s.cur.core).l1, L.dirty ≠ 0 → { L with valid := 0, poison := 0, kept := 0 } ∈ (t.core s.cur.core).l1)
    ∧ (∀ L, Legal s G (.l1flush f) → Named s G Q → Clear s → m ≠ 0 → f.size = 1 → (s.core s.cur.core).l1 = [L] → L.lrel = false → L.mig = none →
        s.pairNow (s.partOf s.cur.core) L.va L.line = none → (s.core (partnerOf s.cur.core)).homeq = [] → s.owned L.line = false → s.holders L.line = [] →
          regionOf (128 * L.line) ≠ 1 → s.barred (s.partOf s.cur.core) s.cur.core L.line = false →
        s.poison = [] →
        ∃ t L', exec (.l1flush f) s = .next t ∧ Went s t G p Q none' ∧ (t.core s.cur.core).l1 = [L'] ∧ L'.dirty = 0 ∧ L'.line = L.line
          ∧ (∀ i, i < 128 → bit128 L.dirty i = true → L'.data.getD i 0 = L.data.getD i 0 ∧ (L'.valid.getLsbD (i / 32) = true ∨ bit128 L'.kept i = true))
          ∧ t.mem = memSetAll s.mem (((List.range 128).filter (bit128 L.dirty)).map (fun i => (128 * L.line + i, L.data.getD i 0))))

/-- Rules R264, R265, R309 and R310: STMAP maps a window of the team's local store onto lines of a page; STFLUSH writes its modified lines to memory
and keeps them exclusive; STUNMAP removes it, and the bytes of the lines that it never held become zero. STFLUSH and STUNMAP wait while an LDL
or STL of the team waits for a line of the window (log entry 145). -/
def Clause.StashWindows : Prop :=
  ∀ s G p (f : FmtM) T, Calm s G p → p.am ≠ 0 → s.teams.find G.tid = some T → T.tid = G.tid → (∀ h ∈ (s.core T.core).homeq, h.gid ≠ 0) →
    let m := activeLanes G p f.ge f.gn f.g
    let H : Group := { G with splits := [p.issued s.cycle (p.pc + 8)], infl := [{ id := G.nextIid, split := p.id, pc := 0 }], nextIid := G.nextIid + 1 }
    let done (t : State) : Prop := t.group s.cur.core s.cur.slot = some H ∧ ∀ k, k ≠ G.tid → t.teams.find k = s.teams.find k
    let b := G.uni f.b.toNat
    let o := G.offset f false ((lanesIn m G.w).headD 0)
    let n := fld b 26 11 + 1
    let w := f.disp.toNat
    (Legal s G (.stmap f) → T.wins = [] → lanesIn m G.w ≠ [] → (planM f true 0).rv = [] → fld b 40 24 = 0 → fld b 19 7 = 0 →
        Through s G f.tr.toNat 128 true false o → o + 128 * n ≤ fld (G.treg f.tr.toNat).w2 0 36 → fld b 0 19 % 128 = 0 → fld b 0 19 + 128 * n ≤ T.lsz →
        ∃ t, exec (.stmap f) s = .next t ∧ done t ∧ t.mem = s.mem
          ∧ t.teams.find G.tid = some { T with wins := [(fld b 38 2, { va := G.va f.tr.toNat o, wr := fld b 37 1 == 1, lines := n, off := fld b 0 19 })] })
    ∧ (∀ W, m ≠ 0 → T.wins = [(w, W)] → s.winAwaited G.tid w = false →
        (Legal s G (.stunmap f) → W.st = [] → ∃ t T', exec (.stunmap f) s = .next t ∧ done t ∧ t.mem = s.mem ∧ t.teams.find G.tid = some T'
            ∧ T'.wins = [] ∧ T'.ls = (List.range W.lines).foldl (fun x i => lsSet x (W.off + 128 * i) (List.replicate 128 0)) T.ls)
        ∧ (Legal s G (.stflush f) → (∀ e ∈ W.st, e.2.1 ≠ .m) → ∃ t, exec (.stflush f) s = .next t ∧ done t ∧ t.mem = s.mem ∧ t.teams.find G.tid = some T)
        ∧ (∀ i line, Legal s G (.stflush f) → W.st = [(i, (.m, line))] → W.mig = [] → (s.part T.part).ttb = 0 → regionOf (128 * line) ≠ 1 →
          ∃ t, exec (.stflush f) s = .next t ∧ done t
            ∧ t.mem = memSetAll s.mem (cellsAt (128 * line) (T.bytes (W.off + 128 * i) 128))
            ∧ t.teams.find G.tid = some { T with wins := [(w, { W with st := [(i, (.e, line))] })] }))
    ∧ (m ≠ 0 → T.wins ≠ [] → s.winAwaited G.tid w = true → ∀ mk ∈ [Instr.stunmap, Instr.stflush], Legal s G (mk f) →
        ∃ t, exec (mk f) s = .next t ∧ t.teams = s.teams ∧ t.mem = s.mem
          ∧ (G.preempt = none → t.group s.cur.core s.cur.slot = some { G with splits := [{ p with stall := 14 }] }))

/-! ### Arrival words and counters -/

/-- Rules R267, R268, R311 and R312: AWINIT begins a phase of its target, AWADD adds bytes and ends the phase that they fill, each returning a
generation, and AWWAIT waits while the phase of its token is current. -/
def Clause.ArrivalWords : Prop :=
  ∀ s G p (f : FmtM) T, Calm s G p → Clear s → p.am ≠ 0 → f.ord = 0 → p.fenceRel = false → G.preempt = none →
    let m := activeLanes G p f.ge f.gn f.g
    let oI := G.offset f false ((lanesIn m G.w).headD 0)
    let o := oI.toNat
    m ≠ 0 → 0 ≤ oI → Object s G o T → T.tid = G.tid → (planM f false 0).rv = [] →
    let w0 := (T.obj o).1
    let w1 := (T.obj o).2
    let b := G.uni f.b.toNat
    let two (x y : W64) : Team := T.put o (bytesOf x.toNat 8 ++ bytesOf y.toNat 8)
    let e (g : Nat) : Inflight := { id := 0, split := 0, pc := 0, writes := [{ sp := .uni, num := f.d.toNat, word := w64 g }] }
    (Legal s G (.awinit f) → (b.toNat = 0 ∨ 2 ^ 32 ≤ b.toNat → exec (.awinit f) s = .next (s.raise s.cur 10 0 o))
      ∧ (1 ≤ b.toNat → b.toNat < 2 ^ 32 → ∃ t x y, exec (.awinit f) s = .next t ∧ ObjectDone s t G p (e ((fld w1 0 16 + 1) % 2 ^ 16)) (two x y) true o
          ∧ x.toNat = b.toNat * 2 ^ 32 ∧ y.toNat = 2 ^ 17 + (fld w1 0 16 + 1) % 2 ^ 16))
    ∧ (Legal s G (.awadd f) → let c := fld w0 0 32 + fld b 0 32
        ∃ t x y, exec (.awadd f) s = .next t
        ∧ ObjectDone s t G p (e (fld w1 0 16)) (two x y) (decide (fld w1 17 1 = 1 ∧ fld w0 32 32 ≤ c)) o ∧ fld x 32 32 = fld w0 32 32
        ∧ (fld w1 17 1 = 0 → x = w0 ∧ fld y 32 32 = min (fld w1 32 32 + 1) (2 ^ 32 - 1) ∧ fld y 0 32 = fld w1 0 32)
        ∧ (fld w1 17 1 = 1 → c < fld w0 32 32 → fld x 0 32 = c ∧ y = w1)
        ∧ (fld w1 17 1 = 1 → fld w0 32 32 ≤ c → fld x 0 32 = 0 ∧ fld y 0 16 = (fld w1 0 16 + 1) % 2 ^ 16 ∧ fld y 17 1 = 1 ∧ fld y 32 32 = fld w1 32 32
            ∧ fld y 18 1 = if fld w0 32 32 < c then 1 else fld w1 18 1))
    ∧ (Legal s G (.awwait f) →
        (fld w1 17 1 = 1 ∧ fld w1 0 16 = fld b 0 16 → ∃ t, exec (.awwait f) s = .next t
          ∧ Moved s t { G with splits := [{ p with wait := .arrival o, stall := 7, waited := true }] })
        ∧ (¬(fld w1 17 1 = 1 ∧ fld w1 0 16 = fld b 0 16) → ∃ t, exec (.awwait f) s = .next t ∧ Moved s t { G with
            splits := [p.issued s.cycle (p.pc + 8)], nextIid := G.nextIid + 1
            infl := [{ id := G.nextIid, split := p.id, pc := 0, writes := putAll G.w m spPred f.d.toNat false false (fun _ => fld w1 17 1) }] }))

/-- Rule R314: CWAIT reads its counter at its home and goes on where it has reached the value of B; else the split waits for the line to
be written, and reads again. -/
def Clause.CounterWaits : Prop :=
  ∀ s G p (f : FmtM) l rest, Calm s G p → Clear s → p.am ≠ 0 → f.ord = 0 → G.preempt = none → Legal s G (.cwait f) →
    lanesIn (activeLanes G p f.ge f.gn f.g) G.w = l :: rest →
    let o := G.offset f true l
    let a := G.pa f.tr.toNat o
    let P := { planM f true 0 with rk := (planM f true 0).rk ++ [f.b.toNat] }
    Named s G P → Through s G f.tr.toNat 8 true false o → AtHome s s.cur.core (a / 128) →
    let x := numOf ((List.range 8).map (fun i => memGet s.mem (a + i)))
    ((G.uni f.b.toNat).toNat ≤ x → ∃ t, exec (.cwait f) s = .next t ∧ t.mem = s.mem ∧ Went s t G p P { id := 0, split := 0, pc := 0 }
        ∧ (regionOf a = 0 → Issued s t G p P (p.pc + 8) { id := 0, split := 0, pc := 0 }))
    ∧ (x < (G.uni f.b.toNat).toNat → ∃ t, exec (.cwait f) s = .next t ∧ t.mem = s.mem
        ∧ t.group s.cur.core s.cur.slot = some { G with splits := [{ p with wait := .counter a, stall := 7, waited := true }] }
        ∧ (regionOf a = 0 → Moved s t { G with splits := [{ p with wait := .counter a, stall := 7, waited := true }] }))
/-! ### Data returns, writes at homes, packets and stash lines -/

/-- Rules R296, R298, R303, R305 and R325: when its bytes have come, a read writes its destination registers, sign-extended where its size says so, or zero
with a pending POISON; an atomic of one lane at its home reads the old value, leaves the new one in memory and returns the old. -/
def Clause.DataReturns : Prop :=
  ∀ s c g iid G (i : Inflight) d k m, s.group c g = some G → G.infl.find? (fun i => i.id == iid) = some i → i.acq = false → G.ra = none →
    G.ending = false → i.writes = readWrites d k m →
    let done (H : Group) (val : Nat → Nat) : Prop :=
      H.infl = G.infl.filter (fun j => j.id != iid) ∧ (∀ n, n < d ∨ d + k ≤ n → H.vreg n = G.vreg n)
      ∧ ∀ j l, j < k → l < G.w → (G.vreg (d + j)).st = .mapped →
          laneOf (H.vreg (d + j)).val l = if inMask m l then w32 (val l >>> (32 * j)) else laneOf (G.vreg (d + j)).val l
    (i.kind = .load ∧ i.acc.bypass = false ∧ i.acc.full = true ∨ i.kind = .lload ∧ (i.acc.lanes = [] ∨ i.acc.got ≠ []) →
      ∃ t H, exec (.loadDataReturn c g iid) s = .next t ∧ OnlyGroup s t c g H
        ∧ (i.acc.bad = none → done H (fun l => match i.acc.lanes.find? (fun x => x.lane == l) with
            | some x => extend i.acc.size i.acc.sx (cellNum i.acc.got x.addr i.acc.size)
            | none => 0) ∧ H.causes = G.causes)
        ∧ (∀ a, i.acc.bad = some a → i.ahead = false → done H (fun _ => 0)
            ∧ H.causes = G.causes ++ [{ code := 13, split := i.split, info := BitVec.ofNat 48 a, pc := i.pc }]))
    ∧ (∀ x, i.kind = .atom → i.acc.wait = [] → i.acc.lanes = [x] → x.mig = none → i.acc.bad = none → i.acc.prom = false → i.acc.lrel = false →
        i.acc.size = 4 ∨ i.acc.size = 8 → x.addr % i.acc.size = 0 → AtHome s c (x.addr / 128) →
        let o := numOf ((List.range i.acc.size).map (fun j => memGet s.mem (x.addr + j)))
        ∃ t H, exec (.loadDataReturn c g iid) s = .next t ∧ t.group c g = some H ∧ done H (fun l => if l = x.lane then o else 0)
          ∧ t.mem = if i.acc.opc = 15 then s.mem
                    else memSetAll s.mem (cellsAt x.addr (bytesOf (atomOp i.acc.opc i.acc.size o x.b.toNat x.c.toNat) i.acc.size)))

/-- Rules R302 and R119: the new value that each operation of an atomic gives from the old value `o` and operand `b` at 4 and at 8 bytes;
for `.cas`, `c` is what it compares with. -/
def Clause.AtomicValues : Prop :=
  ∀ n o b c, n = 4 ∨ n = 8 → o < 2 ^ (8 * n) → b < 2 ^ (8 * n) → c < 2 ^ (8 * n) →
    let v (opc : Nat) : Nat := atomOp opc n o b c
    let sg (x : Nat) : Int := if x < 2 ^ (8 * n - 1) then x else (x : Int) - 2 ^ (8 * n)
    let ty : BitVec 4 := if n = 8 then 3 else 2
    let flt (x : FVal) : Nat := fput ty .rn false false x
    v 0 = (o + b) % 2 ^ (8 * n)
    ∧ v 1 ∈ [o, b] ∧ sg (v 1) = min (sg o) (sg b) ∧ v 2 = min o b ∧ v 3 ∈ [o, b] ∧ sg (v 3) = max (sg o) (sg b) ∧ v 4 = max o b
    ∧ (∀ j, (v 5).testBit j = (o.testBit j && b.testBit j) ∧ (v 6).testBit j = (o.testBit j || b.testBit j) ∧ (v 7).testBit j = (o.testBit j != b.testBit j))
    ∧ v 8 = b ∧ v 9 = (if o = c then b else o) ∧ v 10 = (if b ≤ o then 0 else o + 1) ∧ v 11 = (if o = 0 ∨ b < o then b else o - 1)
    ∧ v 12 = flt (fAdd .rn (fop ty false o) (fop ty false b)) ∧ v 13 = flt (fMinMax false (fop ty false o) (fop ty false b))
    ∧ v 14 = flt (fMinMax true (fop ty false o) (fop ty false b)) ∧ v 15 = o

/-- Rules R269, R290, R292 and R321: a group's write on its way, the first of its lines from the pair, takes effect at its home: memory holds its bytes, in order, and
every other byte is as before; it is then no longer on its way. -/
def Clause.WritesReachHome : Prop :=
  ∀ s c (h : HomeWrite), (s.core c).homeq = [h] → (s.core (partnerOf c)).homeq = [] → h.gid ≠ 0 → h.xid = none → h.lrel = false → h.mig = [] → h.poison = [] →
    h.cells ≠ [] → (∀ x ∈ h.cells, let l := x.1 / 128
      s.owned l = false ∧ s.holders l = [] ∧ regionOf (128 * l) ≠ 1 ∧ s.barred (s.partOf c) c l = false
      ∧ (s.core c).l1line l = none ∧ (s.core (partnerOf c)).l1line l = none) → s.poison = [] →
      ∃ t, exec (.writeAtHome c h.id) s = .next t ∧ t.mem = memSetAll s.mem h.cells ∧ (t.core c).homeq = [] ∧ t.teams = s.teams

/-- Rules R289, R331, R336, R437 and R438: a write for another package, the first of its line, departs through a usable port, once, and is held
until WRITE_ACK; it carries the poison marks of its granules; a write waits while a copy owns a line of it. -/
def Clause.WritesToPackages : Prop :=
  ∀ s c (h : HomeWrite) a b rest, (s.core c).homeq.find? (fun x => x.id == h.id) = some h → h.cells = (a, b) :: rest → h.xid = none →
    (∀ x ∈ h.cells, x.1 / 128 = a / 128) →
    (s.owned (a / 128) = true → exec (.writeAtHome c h.id) s = .next s)
    ∧ (s.mayLand c h = true → regionOf (128 * (a / 128)) = 1 → s.usablePorts (a / 128 * 128 / 2 ^ 40 % 1024) ≠ [] →
        ∃ t x, exec (.writeAtHome c h.id) s = .next t ∧ t.xacts = s.xacts ++ [x] ∧ x.xid = s.nextId ∧ x.pkg = a / 128 * 128 / 2 ^ 40 % 1024
          ∧ x.op = .write (a % 2 ^ 40) (h.cells.map (fun y => y.2)) (h.poison.map (fun g => g % 2 ^ 35)) ∧ x.core = c ∧ t.mem = s.mem
          ∧ (t.core c).homeq = updIf (s.core c).homeq (fun e => e.id == h.id) (fun e => { e with xid := some s.nextId }))
    ∧ (∀ x d w bad, s.xacts.find? (fun y => y.xid == x.xid) = some x → x.op = .write d w bad → ∃ t, exec (.writeAck x.xid) s = .next t
        ∧ t.xacts = s.xacts.filter (fun y => y.xid != x.xid) ∧ (t.core x.core).homeq = (s.core x.core).homeq.filter (fun e => e.xid != some x.xid)
        ∧ t.mem = s.mem)

/-- Rules R269, R270 and R272: a miss brings the line's bytes from memory under the L1's own dirty bytes, with every sector valid, also those
that no load reads (log entry 113); an eviction writes a line's dirty bytes to memory and the line goes. -/
def Clause.L1Lines : Prop :=
  ∀ s c line, s.owned line = false → s.holders line = [] → regionOf (128 * line) = 0 → s.poison = [] → (s.core c).homeq = [] →
    (s.core (partnerOf c)).l1line line = none → (s.core (partnerOf c)).homeq = [] → (∀ q ∈ (s.core c).prefs, q.line ≠ line) →
    (∀ L, line ∈ (s.core c).misses → (s.core c).l1line line = some L → ∃ t L', exec (.l1MissFill c line) s = .next t
        ∧ (t.core c).l1line line = some L' ∧ L'.valid = 15 ∧ L'.dirty = L.dirty ∧ t.mem = s.mem
        ∧ ∀ i, i < 128 → L'.data.getD i 0 = if bit128 L.dirty i || L.valid.getLsbD (i / 32) then L.data.getD i 0 else memGet s.mem (128 * line + i))
    ∧ (line ∈ (s.core c).misses → (s.core c).l1 = [] → ∃ t L', exec (.l1MissFill c line) s = .next t
        ∧ (t.core c).l1line line = some L' ∧ L'.valid = 15 ∧ L'.dirty = 0 ∧ t.mem = s.mem
        ∧ ∀ i, i < 128 → L'.data.getD i 0 = memGet s.mem (128 * line + i))
    ∧ (∀ L, (s.core c).l1 = [L] → L.line = line → L.lrel = false → L.mig = none → s.pairNow (s.partOf c) L.va line = none →
      ∃ t, exec (.l1Eviction c line) s = .next t ∧ (t.core c).l1 = []
        ∧ t.mem = memSetAll s.mem (((List.range 128).filter (bit128 L.dirty)).map (fun i => (128 * line + i, L.data.getD i 0))))

/-- Rules R284, R285, R286 and R301: a packet departs 64 cycles after it opened or 8 after its last request; a departed packet is served at its
line's home, a read with the bytes of its entries and a write with its bytes; a gather whose last packet returns writes its destination. -/
def Clause.Packets : Prop :=
  ∀ s c (q : Packet), (s.core c).packets = [q] →
    (q.opened + 64 ≤ s.cycle → ∃ t, exec (.packetOpenTimeout c q.id) s = .next t ∧ (t.core c).packets = [{ q with departed := true }] ∧ t.mem = s.mem)
    ∧ (q.joined + 8 ≤ s.cycle → ∃ t, exec (.packetIdleTimeout c q.id) s = .next t ∧ (t.core c).packets = [{ q with departed := true }] ∧ t.mem = s.mem)
    ∧ (q.departed = true → q.served = false → AtHome s c q.line → regionOf (128 * q.line) = 0 →
        (q.write = false → ∃ t, exec (.gatherExpander c q.id) s = .next t ∧ t.mem = s.mem ∧ (t.core c).packets = [{ q with
            served := true, bad := []
            data := (q.entries.map (fun e => cellsAt (128 * q.line + e.1) ((memBytes s.mem (128 * q.line) 128).drop e.1 |>.take e.2))).flatten }])
        ∧ (q.write = true → q.mig = none → q.lrel = false → (∀ x ∈ q.writes, x.1 / 128 = q.line) → ∃ t, exec (.gatherExpander c q.id) s = .next t
            ∧ (t.core c).packets = [] ∧ t.mem = memSetAll s.mem q.writes))
    ∧ (∀ r G i d k m, q.served = true → q.reqs = [r] → q.bad = [] → s.group c r.slot = some G → G.gid = r.gid → G.ra = none → G.infl = [i] → i.id = r.iid →
        i.acc.wait = [q.id] → i.acc.bad = none → i.acq = false → i.writes = readWrites d k m →
        ∃ t H, exec (.packetReturn c q.id) s = .next t ∧ t.group c r.slot = some H ∧ (t.core c).packets = [] ∧ H.infl = [] ∧ t.mem = s.mem
          ∧ ∀ j l x, j < k → l < G.w → inMask m l = true → (G.vreg (d + j)).st = .mapped → i.acc.lanes.find? (fun x => x.lane == l) = some x →
              laneOf (H.vreg (d + j)).val l =
                w32 (extend i.acc.size i.acc.sx (cellNum (i.acc.got ++ q.data) x.addr i.acc.size) >>> (32 * j)))

/-- Rules R264, R265, R282, R331, R333 and R337: a wanted line of a stash window is filled from memory, exclusive where no other window and no host holds it and
modified for a write, or waits while a copy owns it; a recall writes a modified line back; a line that its copy has written is passed on;
and the migration engine copies a line to its new frame and sets its bit. -/
def Clause.StashLines : Prop :=
  (∀ s tid T w W i wr line, s.teams = [(tid, T)] → T.wins = [(w, W)] → W.need = [(i, wr, line)] → W.st = [] →
    (s.owned line = true → exec (.stashFill tid w i) s = .next s)
    ∧ (s.owned line = false → (s.part T.part).ttb = 0 → regionOf (128 * line) ≠ 1 → s.barred T.part T.core line = false → s.poison = [] →
      ∃ t T', exec (.stashFill tid w i) s = .next t ∧ t.teams.find tid = some T' ∧ t.mem = s.mem
        ∧ T'.wins = [(w, { W with need := [], st := [(i, (if wr then .m else if s.hostHeld.contains line then .s else .e, line))] })]
        ∧ T'.ls = lsSet T.ls (W.off + 128 * i) (memBytes s.mem (128 * line) 128)))
  ∧ (∀ s tid T w W i line, s.teams = [(tid, T)] → T.wins = [(w, W)] → W.st = [(i, (.m, line))] → W.mig = [] → (s.part T.part).ttb = 0 → T.lsBad = [] →
      regionOf (128 * line) ≠ 1 → ∃ t, exec (.stashRecall tid w i) s = .next t ∧ t.mem = memSetAll s.mem (cellsAt (128 * line) (T.bytes (W.off + 128 * i) 128))
        ∧ t.teams = [(tid, { T with wins := [(w, { W with st := [] })] })])
  ∧ (∀ s c line d turn, (s.core c).eng0 = [d] → d.owned = [(line, (0, turn))] → (s.core c).homeq = [] → (∀ e ∈ s.teams, e.2.held = []) →
      ∃ t, exec (.copyRecall c line) s = .next t ∧ (t.core c).eng0 = [{ d with owned := [] }] ∧ t.mem = s.mem)
  ∧ (∀ s part (va : W64) e new bit, matchAt s.mem (s.part part).ttb part (va.toNat % 2 ^ 57) = some e →
      let old := e.pa (va.toNat % 2 ^ 57) / 128
      migOf e.mig e.frame (128 * old) = some (new, bit) → (memGet s.mem (bit / 8)).getLsbD (bit % 8) = false → fld (s.part part).pbud0 0 16 = 0 →
      s.owned old = false → s.owned (new / 128) = false → s.owned (bit / 1024) = false → s.regionOk new = true → new % 128 = 0 → s.poison = [] → s.teams = [] →
      regionOf (128 * old) = 0 → regionOf new = 0 → regionOf (bit / 8) = 0 →
      let m := memSetAll s.mem (cellsAt new (memBytes s.mem (128 * old) 128))
      ∃ t, exec (.migrationLineCopy part va) s = .next t
        ∧ t.mem = memSet m (bit / 8) (memGet m (bit / 8) ||| BitVec.ofNat 8 (2 ^ (bit % 8))))

/-- Rules R329 and R330: a probed core that holds nothing of a release for the lines of the acquire answers; one whose L1 holds such a line acts as a
release first: its dirty bytes go to memory and the line is no longer marked. -/
def Clause.Probes : Prop :=
  ∀ s c g core G i rest, s.atomOf i.ref = some (c, g, i) → s.group c g = some G → G.infl = [i] → i.acc.wait = core :: rest → core ∉ rest →
    let answered (t : State) : Prop := ∃ H, t.group c g = some H ∧ H.infl = [{ i with acc := { i.acc with wait := rest } }]
    ((∀ x ∈ i.acc.lanes, (s.lrelHome.get [] (x.addr / 128)).contains core = false) → (s.core core).l1 = [] →
      ∃ t, exec (.promotionProbe core i.ref) s = .next t ∧ t.mem = s.mem ∧ answered t)
    ∧ (∀ L x, x ∈ i.acc.lanes → (s.core core).l1 = [L] → L.line = x.addr / 128 → L.lrel = true → L.mig = none → (s.core core).packets = [] →
        s.pairNow (s.partOf core) L.va L.line = none → (s.core (partnerOf core)).homeq = [] → (s.core core).homeq = [] →
          s.barred (s.partOf core) core L.line = false →
        s.owned L.line = false → s.holders L.line = [] → regionOf (128 * L.line) ≠ 1 → s.poison = [] →
        ∃ t L', exec (.promotionProbe core i.ref) s = .next t ∧ answered t ∧ (t.core core).l1 = [L'] ∧ L'.lrel = false ∧ L'.dirty = 0
          ∧ t.mem = memSetAll s.mem (((List.range 128).filter (bit128 L.dirty)).map (fun i => (128 * L.line + i, L.data.getD i 0))))
/-! ### The term engine -/

/-- Rules R209, R214, R224, R236 and R240 to R242: TLDW and TLDWS whose values, extents and queue allow them enter the term queue with the weights of their
registers or of the local store, and their bank belongs to the team from then on. -/
def Clause.WeightLoads : Prop :=
  ∀ (mk : FmtX → Instr) (sparse : Bool), (mk, sparse) ∈ [(Instr.tldw, false), (Instr.tldws, true)] →
    ∀ s G p T (f : FmtX), Terms s G p T → Legal s G (mk f) → Named s G (planLoad f sparse) → HasRoom s →
      let x := G.uni f.b.toNat
      let fb := G.uni f.fbk.toNat
      let cw := G.uni f.cwk.toNat
      let a := G.uni f.a.toNat
      let c := G.uni f.c.toNat
      let w := twidth (fbB fb)
      let n := loadRows x * loadCols x
      fbBad fb = false → loadBad x fb (xopSrc f).toNat = false → (sparse = true → cwBad cw = false ∧ cwSpe cw = true ∧ c.toNat + n ≤ T.lsz) →
      (xopSrc f = 0 → oddRange w f.a.toNat = false ∧ regsFor n w G.w = xopCnt f) → (xopSrc f = 1 → a.toNat + loadSpan x fb ≤ T.lsz) →
      xopSrc f = 0 ∨ xopSrc f = 1 →
      ∃ t e, exec (mk f) s = .next t ∧ Queued s t G p (planLoad f sparse) [] id e
        ∧ e.kind = .load ∧ e.bank = xopBank f ∧ e.fb = fb ∧ e.word = x ∧ e.src = (xopSrc f).toNat ∧ e.sparse = sparse
        ∧ (xopSrc f = 0 → e.els = (G.elements f.a.toNat w n).map w64) ∧ (xopSrc f = 1 → e.off = a.toNat ∧ e.bytes = T.bytes a.toNat (loadSpan x fb))
        ∧ (sparse = true → e.cw = cw ∧ e.ioff = c.toNat ∧ e.ibytes = T.bytes c.toNat n)
        ∧ (e.clear = false ↔ ((s.core s.cur.core).bank (xopBank f)).team = some G.tid ∧ ((s.core s.cur.core).bank (xopBank f)).bfmt = fbB fb)
        ∧ ((t.core s.cur.core).bank (xopBank f)).team = some G.tid ∧ ((t.core s.cur.core).bank (xopBank f)).bfmt = fbB fb
        ∧ ((t.core s.cur.core).bank (xopBank f)).wts = ((s.core s.cur.core).bank (xopBank f)).wts

/-- Rules R206, R214, R223, R236, R244 and R245: TMMA enters the term queue with its activations, of registers or of blocks in the local store, and TMMAQ with the
next tile of the walk that TFEED set, which it moves on; TFEED begins a walk. -/
def Clause.Multiplies : Prop :=
  ∀ s G p T (f : FmtX), Terms s G p T → HasRoom s →
    let x := G.uni f.c.toNat
    let fb := G.uni f.fbk.toNat
    let cw := G.uni f.cwk.toNat
    let a := G.uni f.a.toNat
    let w := twidth (fbA fb)
    let n := tileM x * depth (tileQ x) cw
    let b := (s.core s.cur.core).bank (xopBank f)
    let win := T.window G.idx
    let good := fbBad fb = false ∧ cwBad cw = false ∧ tileBad x fb cw = false ∧ (b.team = some G.tid → b.bfmt = fbB fb)
      ∧ (∀ y ∈ scaleExt fb cw x, y.1 + y.2 ≤ T.lsz) ∧ fld x 0 9 + tileM x ≤ win.2
    let entry (e : TermEntry) : Prop := e.kind = .mul ∧ e.bank = xopBank f ∧ e.fb = fb ∧ e.cw = cw ∧ e.word = x ∧ e.row = win.1 + fld x 0 9
      ∧ e.foreign = (b.team != some G.tid)
      ∧ (let nb := depth (tileQ x) cw / fbBl fb
         let scales (on : Bool) (at' n : Nat) : List Nat := if on then (List.range n).map (fun j => numOf (T.bytes (4 * at' + 4 * j) 4)) else []
         e.ascale = scales (fbAsc fb) (fld fb 23 17) (tileM x * nb) ∧ e.bscale = scales (fbBsc fb) (fld fb 40 17) (modeCols (fbA fb) * nb))
    (good → Legal s G (.tmma f) → Named s G (planMul f) →
      (xopSrc f = 0 → oddRange w f.a.toNat = false → regsFor n w G.w = xopCnt f → ∃ t e, exec (.tmma f) s = .next t
        ∧ Queued s t G p (planMul f) [] id e ∧ entry e ∧ e.src = 0 ∧ e.fill = 10 ∧ e.els = (G.elements f.a.toNat w n).map w64)
      ∧ (xopSrc f = 1 → fld a 38 26 = 0 → fld a 19 5 = 0 → fld a 0 19 % 32 = 0 → fld a 0 19 + 32 * feederLen a ≤ T.lsz → ∃ t e, exec (.tmma f) s = .next t
        ∧ Queued s t G p (planMul f) [] id e ∧ entry e ∧ e.src = 1 ∧ e.fill = 14 ∧ e.off = fld a 0 19 ∧ e.bytes = T.bytes (fld a 0 19) (32 * feederLen a)))
    ∧ (∀ k, good → Legal s G (.tmmaq f) → G.walk = some k → k.nt ≠ 0 → let P := { planX f true true with rk := f.c.toNat :: (planX f true true).rk }
        Named s G P → ∃ t e, exec (.tmmaq f) s = .next t
        ∧ Queued s t G p P [] (fun H => { H with walk := some { k with next := (k.next + 1) % k.nt } }) e
        ∧ entry e ∧ e.src = 2 ∧ e.off = k.base + 32 * k.next * k.tstr ∧ e.bytes = T.bytes (k.base + 32 * k.next * k.tstr) (32 * k.tstr))
    ∧ (Legal s G (.tfeed f) → fld a 56 8 = 0 → fld a 40 8 = 0 → fld a 19 5 = 0 → fld a 24 16 ≠ 0 → fld a 24 16 ≤ 16384 → fld a 0 19 % 32 = 0 →
        fld a 0 19 + 32 * (fld a 48 8 + 1) * fld a 24 16 ≤ T.lsz → ∃ t k, exec (.tfeed f) s = .next t
        ∧ Moved s t { G with splits := [p.issued s.cycle (p.pc + 8)], infl := [{ id := G.nextIid, split := p.id, pc := 0 }], nextIid := G.nextIid + 1
                             walk := some k }
        ∧ k.base = fld a 0 19 ∧ k.tstr = fld a 24 16 ∧ k.nt = fld a 48 8 + 1 ∧ k.next = 0)

/-- Rules R214, R223, R226, R230, R236, R247 to R250 and R400: TZERO, TDRAIN and THIST enter the term queue, the drain holding its split until it starts; rows outside the group's
window raise WINDOW; TWAIT goes on when none of its group's entries is left, and else waits for them. -/
def Clause.RowInstructions : Prop :=
  ∀ s G p T (f : FmtX), Terms s G p T → G.preempt = none → HasRoom s →
    let x := G.uni f.c.toNat
    let fb := G.uni f.fbk.toNat
    let w := drainWidth (fbA fb) (fld fb 60 4)
    let win := T.window G.idx
    let ws : List RegW := (regRun f.d.toNat (xopCnt f)).map (fun r => { sp := .vec, num := r, mask := fullMask G.w })
    let PD : Plan := { rk := [f.c.toNat, f.fbk.toNat], wv := regRun f.d.toNat (xopCnt f) }
    let PH : Plan := { rk := [f.a.toNat], wv := regRun f.d.toNat (xopCnt f), full := true }
    let fits := fld x 0 9 + rowCount x ≤ win.2
    (Legal s G (.tzero f) → rowBad x none = false →
      (fits → ∃ t e, exec (.tzero f) s = .next t ∧ Queued s t G p { rk := [f.c.toNat] } [] id e ∧ e.kind = .zero ∧ e.word = x ∧ e.row = win.1 + fld x 0 9)
      ∧ (¬ fits → exec (.tzero f) s = .next (s.raise s.cur 9 0 (max (fld x 0 9) win.2))))
    ∧ (Legal s G (.tdrain f) → Named s G PD → fbBad fb = false → rowBad x (some fb) = false → oddRange w f.d.toNat = false →
        regsFor (rowCount x * colCount x) w G.w = xopCnt f → fits → (∀ e ∈ (s.core s.cur.core).tq, e.id ≠ (s.core s.cur.core).nextId) →
        ∃ t e, exec (.tdrain f) s = .next t
          ∧ Queued s t G p PD ws (fun H => { H with splits := H.splits.map (fun q => { q with wait := .drain e.id, stall := 14 }) }) e
          ∧ e.kind = .drain ∧ e.word = x ∧ e.fb = fb ∧ e.row = win.1 + fld x 0 9 ∧ e.dst = f.d.toNat ∧ e.cnt = xopCnt f)
    ∧ (Legal s G (.thist f) → Named s G PH → regsFor 34 32 G.w = xopCnt f →
        ∃ t e, exec (.thist f) s = .next t ∧ Queued s t G p PH ws id e ∧ e.kind = .hist ∧ e.word = G.uni f.a.toNat ∧ e.dst = f.d.toNat ∧ e.cnt = xopCnt f)
    ∧ (Legal s G (.twait f) → p.waited = false →
        (s.termsOf G (f.xop.getLsbD 0) = [] → ∃ t, exec (.twait f) s = .next t ∧ Moved s t { G with
            splits := [p.issued s.cycle (p.pc + 8)], infl := [{ id := G.nextIid, split := p.id, pc := 0 }], nextIid := G.nextIid + 1 })
        ∧ (s.termsOf G (f.xop.getLsbD 0) ≠ [] → ∃ t, exec (.twait f) s = .next t ∧ Moved s t { G with
            splits := [{ p with wait := .term (s.termsOf G (f.xop.getLsbD 0)), stall := 14, waited := true }] }))

/-- Rules R106, R223, R251 to R254: TWIN reads the group's window, TBOUND the bound of a multiply's time, TRECODE writes its range as blocks to the local store and
gives their granules, and TDECODE reads blocks into its range; either raises ALIGN at an offset that is not of a granule, which names the offset's
register (log entry 121). -/
def Clause.TermValues : Prop :=
  ∀ s G p T (f : FmtX), Terms s G p T →
    let e (v : W64) : Inflight := { id := 0, split := 0, pc := 0, writes := [{ sp := .uni, num := f.d.toNat, word := v }] }
    let blocks (v : W64) : Inflight := { id := 0, split := 0, pc := 0, term := true, writes := [{ sp := .uni, num := f.d.toNat, word := v }] }
    let x := G.uni f.c.toNat
    let fb := G.uni f.fbk.toNat
    let cw := G.uni f.cwk.toNat
    let af := fbA fb
    let win := T.window G.idx
    let n := recodeCount af G.w (xopCnt f)
    (Legal s G (.twin f) → ∃ t v, exec (.twin f) s = .next t ∧ Issued s t G p { wk := [f.d.toNat] } (p.pc + 8) (e v)
        ∧ (T.span < 2 ^ 16 → win.1 < 2 ^ 16 → win.2 < 2 ^ 16 → fld v 32 16 = T.span ∧ fld v 16 16 = win.1 ∧ fld v 0 16 = win.2))
    ∧ (Legal s G (.tbound f) → fbBad fb = false → cwBad cw = false → tileBad x fb cw = false → (∀ y ∈ scaleExt fb cw x, y.1 + y.2 ≤ T.lsz) →
        let P := { planX f true true with rk := f.c.toNat :: (planX f true true).rk, wk := [f.d.toNat] }
        ∃ t, exec (.tbound f) s = .next t ∧ Issued s t G p P (p.pc + 8) (e (w64 ((if xopSrc f = 0 then 10 else 14) + tileM x * (tparam af).bound
          + (if af ≤ 1 then 6 else if af = 9 then 12 else if fbAsc fb || fbBsc fb then 10 else 8)))))
    ∧ (Legal s G (.trecode f) → p.fenceRel = false → T.lsBad = [] → fbBad fb = false → (af = 9 → xopCnt f % 2 = 0) → oddRange (twidth af) f.a.toNat = false →
        x.toNat % 32 = 0 → x.toNat + 32 * (ceilDiv n 16 * (tparam af).most) ≤ T.lsz →
        let P : Plan := { rk := [f.c.toNat, f.fbk.toNat], rv := rangeOf f f.a.toNat, lu := if f.la == 1 then rangeOf f f.a.toNat else [], wk := [f.d.toNat] }
        let b := blocksOf af ((G.elements f.a.toNat (twidth af) n).map (recodeElem af)) (ceilDiv n 16)
        Named s G P → ∃ t, exec (.trecode f) s = .next t ∧ Went s t G p P (blocks (w64 (b.length / 32)))
          ∧ t = { s with cores := t.cores, parts := t.parts, teams := t.teams } ∧ t.teams.find G.tid = some (T.put x.toNat b)
          ∧ ∀ k, k ≠ G.tid → t.teams.find k = s.teams.find k)
    ∧ (Legal s G (.tdecode f) → let a := (G.uni f.a.toNat).toNat
        T.lsBad = [] → fbBad fb = false → (af = 9 → xopCnt f % 2 = 0) → oddRange (twidth af) f.d.toNat = false → a % 32 = 0 →
        a + 32 * (ceilDiv n 16 * (tparam af).most) ≤ T.lsz →
        let P : Plan := { rk := [f.a.toNat, f.fbk.toNat], wv := regRun f.d.toNat (xopCnt f), full := true }
        let els := ((readBlocks af (T.bytes a (32 * (ceilDiv n 16 * (tparam af).most))) (ceilDiv n 16 * (tparam af).most) (ceilDiv n 16)).1.take n).map (decodeElem af)
        let ws : List RegW := (List.range (xopCnt f)).map (fun r =>
          { sp := .vec, num := f.d.toNat + r, mask := fullMask G.w, vals := placeReg els (twidth af) G.w r })
        Named s G P → ∃ t, exec (.tdecode f) s = .next t ∧ Issued s t G p P (p.pc + 8) { id := 0, split := 0, pc := 0, term := true, writes := ws })
    ∧ (fbBad fb = false → (af = 9 → xopCnt f % 2 = 0) →
        (Legal s G (.trecode f) → Named s G { rk := [f.c.toNat, f.fbk.toNat], rv := rangeOf f f.a.toNat, lu := if f.la == 1 then rangeOf f f.a.toNat else [], wk := [f.d.toNat] } →
          oddRange (twidth af) f.a.toNat = false → x.toNat % 32 ≠ 0 → exec (.trecode f) s = .next (s.raise s.cur 6 0 (2 ^ 7 + f.c.toNat)))
        ∧ (Legal s G (.tdecode f) → Named s G { rk := [f.a.toNat, f.fbk.toNat], wv := regRun f.d.toNat (xopCnt f), full := true } →
          oddRange (twidth af) f.d.toNat = false → (G.uni f.a.toNat).toNat % 32 ≠ 0 → exec (.tdecode f) s = .next (s.raise s.cur 6 0 (2 ^ 7 + f.a.toNat))))
/-! ### The term queue -/

/-- Rules R209, R214, R221, R240 to R242: the load at the head of an idle queue starts, in a cycle after its issue, when its bank is free of earlier multiplies and
loads, takes the time that its source and bytes give, and clears a bank whose record it found to differ. A load that is done has written
each of its units, zero weights and zero indices among them, with an index of V or more as weight zero, and marked those read from poisoned
words; every other unit is as before. -/
def Clause.LoadEvents : Prop :=
  ∀ s c (e : TermEntry), e.kind = .load →
    let b := (s.core c).bank e.bank
    let n := loadRows e.word * loadCols e.word
    let w := twidth (fbB e.fb)
    let bytes := ceilDiv (n * w) 8
    (∀ rest, (s.core c).tq = e :: rest → (s.core c).trun = [] → (s.core c).gatedArray = false → fld (s.part (s.partOf c)).pbud0 32 16 = 0 →
      e.badW = [] → Sampled s e →
      let start := max (max (max e.head (s.core c).wokeAt) (s.core c).termFrom) (max (b.lastMul + 1) b.lastLoad)
      let done := start + (if e.src = 0 then 4 + ceilDiv bytes 256 else 12 + ceilDiv bytes 128)
      (start ≤ s.cycle → e.issued < s.cycle → ∃ t, exec (.weightLoadStart c) s = .next t ∧ (t.core c).trun = [{ e with start := start, done := done }]
        ∧ (t.core c).tq.length = rest.length ∧ t.mem = s.mem
        ∧ ∃ d, (t.core c).bank e.bank = { d with metaMark := false, lastLoad := done } ∧ d = (if e.clear then { b with wts := [], idx := [], bad := [] } else b))
      ∧ (s.cycle < start → exec (.weightLoadStart c) s = .next s))
    ∧ ((s.core c).trun = [e] → s.cycle < e.done → exec (.weightLoadComplete c e.id) s = .next s)
    ∧ ((s.core c).trun = [e] → e.done ≤ s.cycle → e.bank < 2 → fld e.word 16 10 + loadCols e.word ≤ 1024 → ∃ t, exec (.weightLoadComplete c e.id) s = .next t
        ∧ (t.core c).trun = [] ∧ t.mem = s.mem
        ∧ (let d := (t.core c).bank e.bank
           let unit (i : Nat) : Nat := (fld e.word 0 7 + i / loadCols e.word) * 1024 + fld e.word 16 10 + i % loadCols e.word
           let index (i : Nat) : Nat := if e.sparse then (e.ibytes.getD i 0).toNat else 0
           d.wfmt = fbB e.fb
           ∧ (∀ i, i < n → d.wts.get 0 (unit i) = (if e.sparse = true ∧ 4 * 2 ^ fld e.cw 6 2 ≤ index i then 0 else w64 (e.weightCode i))
             ∧ d.idx.get 0 (unit i) = index i
               ∧ (unit i ∈ d.bad ↔ e.weightBad i = true))
           ∧ ∀ u, (∀ i, i < n → u ≠ unit i) → d.wts.get 0 u = b.wts.get 0 u ∧ d.idx.get 0 u = b.idx.get 0 u ∧ (u ∈ d.bad ↔ u ∈ b.bad)))
    ∧ ∀ i, let at' := i / loadCols e.word * fld e.word 36 17
        let col := i % loadCols e.word
        (e.src = 0 → e.weightCode i = (e.els.getD i 0).toNat)
        ∧ (e.src ≠ 0 → w ≠ 4 → e.weightCode i = numOf ((e.bytes.drop (at' + col * w / 8)).take (w / 8)))
        ∧ (e.src ≠ 0 → w = 4 → e.weightCode i = (e.bytes.getD (at' + col / 2) 0).toNat / (if col % 2 = 1 then 16 else 1) % 16)

/-- Rules R214, R215, R218, R228, R230, R243 to R245 and R247 to R249: the head of an idle queue starts, in a cycle after its issue, when its start cycle has come; a
multiply adds its sums to its accumulator rows as it starts, a staged walk's with a fill of 2, and sets `sys.drift` when it is done; a TZERO that is done leaves its rows
zero and unmarked; a drain of unmarked rows releases its split as it starts, and gives its converted elements; and THIST takes its
tensor's counts as it starts, clears them, and gives them when it is done. -/
def Clause.EntryEvents : Prop :=
  ∀ s c (e : TermEntry), e.badW = [] →
    let k := s.core c
    let ready := max (max e.head k.wokeAt) k.termFrom
    let drained := if fbA e.fb = 9 then 8 else 4
    (∀ rest, k.tq = e :: rest → k.trun = [] → k.gatedArray = false → fld (s.part (s.partOf c)).pbud0 32 16 = 0 → Sampled s e → e.issued < s.cycle →
      let runs (t : State) (n : Nat) (outs : List RegW) : Prop := ∃ r, (t.core c).trun = [r] ∧ r.id = e.id ∧ r.start = max ready k.prevDone
          ∧ r.done = r.start + n ∧ r.outs = outs ∧ r.dst = e.dst ∧ r.cnt = e.cnt
      (e.kind = .zero → max ready k.prevDone ≤ s.cycle → ∃ t, exec (.termEntryStart c) s = .next t ∧ t.mem = s.mem ∧ (t.core c).acc = k.acc
          ∧ runs t (4 + ceilDiv (rowCount e.word) 8) e.outs)
      ∧ (∀ G, e.kind = .drain → max ready k.prevDone ≤ s.cycle → s.group c e.slot = some G → (∀ j, j < rowCount e.word → k.marks.get 0 (e.row + j) = 0) →
          ∃ t H, exec (.termEntryStart c) s = .next t ∧ t.mem = s.mem ∧ (t.core c).acc = k.acc
            ∧ runs t (8 + ceilDiv (rowCount e.word * colCount e.word * drained) 512) e.outs ∧ t.group c e.slot = some H
            ∧ H = { G with splits := G.splits.map (fun p => if p.wait = .drain e.id then { p with wait := .ready, stall := 8 } else p) })
      ∧ (e.kind = .hist → max ready k.prevDone ≤ s.cycle → ∃ t, exec (.termEntryStart c) s = .next t ∧ t.mem = s.mem
          ∧ (let h := k.hist.get {} e.off
             let words := (List.range 32).map (fun i => h.bins.get 0 i) ++ [h.zero, h.nan]
             runs t 4 ((List.range e.cnt).map (fun r => { sp := .vec, num := e.dst + r, mask := fullMask e.w, vals := placeReg words 32 e.w r })))
          ∧ (let h := (t.core c).hist.get {} e.off
             h.base = sextNat (fld e.word 0 12) 12 ∧ h.zero = 0 ∧ h.nan = 0 ∧ ∀ i, h.bins.get 0 i = 0)
          ∧ ∀ i, i ≠ e.off → (t.core c).hist.get {} i = k.hist.get {} i)
      ∧ (e.kind = .mul → let b := k.bank e.bank
          let start := max ready (max (k.prevLast + 1) b.lastLoad)
          let n := tileM e.word * depth (tileQ e.word) e.cw
          let x : MulIn := { fb := e.fb, cw := e.cw, m := tileM e.word, q := tileQ e.word, bank := b, foreign := e.foreign, ascale := e.ascale, bscale := e.bscale
                             els := if e.src = 0 then e.els.map (fun y => recodeElem (fbA e.fb) y.toNat)
                                    else (readBlocks (fbA e.fb) e.bytes (e.bytes.length / 32) (ceilDiv n 16)).1.take n }
          start ≤ s.cycle → b.metaMark = false → b.bad = [] → k.marks = [] →
          ∃ t r, exec (.termEntryStart c) s = .next t ∧ t.mem = s.mem ∧ (t.core c).acc = (x.store k e.row).acc
            ∧ (t.core c).trun = [r] ∧ r.id = e.id ∧ r.start = start ∧ r.term = (x.crests.map Crest.time).foldl max 0
            ∧ r.waitc = (x.crests.map (fun y => y.wait)).sum ∧ r.lead = (x.crests.map (fun y => y.lead (cwG e.cw))).foldl max 0
            ∧ r.done = start + (if e.prior.isSome && k.prevWalk == e.prior then 2 else e.fill) + r.term + tailOf e.fb)
      ∧ (e.kind ≠ .load → s.cycle < k.startOf e → exec (.termEntryStart c) s = .next s))
    ∧ (∀ G i, k.trun = [e] → e.done ≤ s.cycle → s.group c e.slot = some G → G.gid = e.gid → G.ra = none → G.infl = [i] → i.id = e.iid → s.unrecorded e.part →
      let filled (els : List Nat) (w : Nat) (t : State) : Prop := ∃ H, t.group c e.slot = some H ∧ H.infl = [] ∧ (t.core c).trun = [] ∧ t.mem = s.mem
            ∧ ∀ r l, r < e.cnt → l < G.w → l < 64 → laneOf (H.vreg (e.dst + r)).val l = laneOf (placeReg els w e.w r) l
      (e.kind = .mul → i.writes = [] → e.lead < 16 → ∃ t H, exec (.multiplyComplete c e.id) s = .next t ∧ t.group c e.slot = some H ∧ H.infl = []
        ∧ (t.core c).trun = []
          ∧ fld H.drift 32 32 = min e.waitc (2 ^ 32 - 1) ∧ fld H.drift 16 16 = min e.term (2 ^ 16 - 1) ∧ fld H.drift 12 4 = e.lead ∧ fld H.drift 0 1 = 1
          ∧ fld H.drift 1 1 = (if e.foreign then 1 else 0) ∧ t.mem = s.mem)
      ∧ (e.kind = .zero → ∃ t H, exec (.termEntryComplete c e.id) s = .next t ∧ t.group c e.slot = some H ∧ H.infl = [] ∧ (t.core c).trun = [] ∧ t.mem = s.mem
          ∧ (∀ r j, j < 1024 → (t.core c).acc.get 0 (1024 * r + j) = if e.row ≤ r ∧ r < e.row + rowCount e.word then 0 else k.acc.get 0 (1024 * r + j))
          ∧ ∀ r, (t.core c).marks.get 0 r = if e.row ≤ r ∧ r < e.row + rowCount e.word then 0 else k.marks.get 0 r)
      ∧ (e.w = G.w → (∀ r, r < e.cnt → (G.vreg (e.dst + r)).st = .mapped) →
          (e.kind = .drain → ∃ t, exec (.termEntryComplete c e.id) s = .next t
            ∧ filled ((k.drained e).map (drainConv (fbA e.fb) e.fb)) (drainWidth (fbA e.fb) (fld e.fb 60 4)) t
            ∧ (fld e.fb 19 1 = 0 → (t.core c).hist = k.hist)
            ∧ (fld e.fb 19 1 = 1 → (t.core c).hist = k.hist.set (fld e.fb 20 3)
                ((k.drained e).foldl (fun h x => h.count (accVal (fbA e.fb) x)) (k.hist.get {} (fld e.fb 20 3)))))
          ∧ (∀ els, e.kind = .hist → e.outs = (List.range e.cnt).map (fun r => { sp := .vec, num := e.dst + r, mask := fullMask e.w, vals := placeReg els 32 e.w r }) →
            ∃ t, exec (.termEntryComplete c e.id) s = .next t ∧ filled els 32 t)))

/-- Rules R105 to R110, R253 and R254: an element's recoding stands for its value, in at most K terms at decreasing, never adjacent positions, an FP16 element of six
losing its lowest; the fields of a block of 16 elements; blocks read back give the elements that they were made of; and what TDECODE makes
of an element. -/
def Clause.RecodedElements : Prop :=
  ∀ af, af ≤ 9 →
    let p := tparam af
    let shift (X : Nat) : ℚ := if af ≤ 1 then 1 else (2 : ℚ) ^ ((X : Int) - p.bias - p.frac)
    let canon := fput (termType af) .rn false false .nan
    (∀ X ts, ((TElem.terms X ts).value af).finite = true
        ∧ ((TElem.terms X ts).value af).rat = (ts.map (fun t => (if t.1 then -1 else 1) * (2 : ℚ) ^ t.2)).sum * shift X)
    ∧ (∀ code, code < 2 ^ twidth af →
        let v := termValue af code
        let e := recodeElem af code
        (v = .inf false → e = .special 0) ∧ (v = .inf true → e = .special 1) ∧ (v = .nan → e = .special 2 ∧ decodeElem af e = canon)
        ∧ (v.finite = true → v.rat = 0 → e = .zero ∧ decodeElem af e = 0)
        ∧ (v.finite = true → v.rat ≠ 0 → ∃ X ts, e = .terms X ts ∧ e.Fits af
          ∧ (∀ j, j + 1 < ts.length → (ts.getD (j + 1) (false, 0)).2 + 2 ≤ (ts.getD j (false, 0)).2)
            ∧ (2 ≤ af → if af = 4 ∨ af = 5 then (2 : ℚ) ^ ((X : Int) - p.bias) ≤ |v.rat| ∧ |v.rat| < (2 : ℚ) ^ ((X : Int) - p.bias + 1)
                        else X = max 1 (code / 2 ^ p.frac % 2 ^ p.ew))
            ∧ (af ≠ 6 ∨ ts.length < 5 → (e.value af).rat = v.rat) ∧ |(e.value af).rat - v.rat| ≤ 2 * shift X
            ∧ ((e.value af).rat = v.rat → decodeElem af e = if af = 4 then code % 64 else code)))
    ∧ decodeElem af .over = (if af ≤ 1 then 0 else canon)
    ∧ (∀ X ts, let v := (TElem.terms X ts).value af
        (2 ≤ af → decodeElem af (.terms X ts) = fput (termType af) .rn false false v)
        ∧ (af ≤ 1 → ∀ x : Int, v.rat = x → decodeElem af (.terms X ts) =
            ((max (-(2 : Int) ^ (twidth af - 1)) (min x ((2 : Int) ^ (twidth af - 1) - 1))) % 2 ^ twidth af).toNat))
    ∧ (∀ es : List TElem, es.length ≤ 16 → (∀ e ∈ es, e.Fits af) →
        let N := numOf (blockBytes af es)
        let ts := (es.map TElem.list).flatten
        let base := 16 * p.cw + 16 * p.ew
        (blockBytes af es).length = 32 * max 1 ((base + ts.length * (p.pw + 1) + 255) / 256)
        ∧ (∀ j, j < 16 → N / 2 ^ (p.cw * j) % 2 ^ p.cw = (match es.getD j .zero with
              | .special _ => 2 ^ p.cw - 1
              | .terms _ l => l.length
              | _ => 0)
            ∧ N / 2 ^ (16 * p.cw + p.ew * j) % 2 ^ p.ew = (match es.getD j .zero with
              | .special i => i
              | .terms x _ => x
              | _ => 0))
        ∧ (∀ j, j < ts.length → N / 2 ^ (base + j * (p.pw + 1)) % 2 ^ (p.pw + 1) = (ts.getD j (false, 0)).2 + (if (ts.getD j (false, 0)).1 then 2 ^ p.pw else 0))
        ∧ N / 2 ^ (base + ts.length * (p.pw + 1)) = 0)
    ∧ ∀ (es : List TElem) n more, es.length ≤ 16 * n → 16 * n < es.length + 16 → (∀ e ∈ es, e.Fits af) →
        let b := blocksOf af es n
        let r := readBlocks af (b ++ more) (n * p.most) n
        r.1.take es.length = es ∧ b.length = 32 * r.2

/-- Rules R112, R113 and R115: what one crest group's products make of an accumulator element. NaN, a zero that meets an infinity, and infinities of both signs
give NaN; an infinity stays; products that are all zero leave the element as it is; and finite products are kept to 192 bits below the largest,
summed exactly and rounded once, a discarded bit taking a midpoint away from zero. -/
def Clause.CrestGroups : Prop :=
  (∀ af sat acc (ps : List FVal), 2 ≤ af → af ≤ 9 → acc < 2 ^ (if af = 9 then 64 else 32) →
    let ty : BitVec 4 := if af = 9 then 3 else 2
    let a := fop ty false acc
    let r := crestAdd (accFmt af) sat acc ps
    let nan := fput ty .rn false false .nan
    let put (v : FVal) : Nat := let x := fput ty .rn false sat v; if x % 2 ^ ((if af = 9 then 64 else 32) - 1) = 0 then 0 else x
    (.nan ∈ ps ∨ a = .nan → r = nan)
    ∧ (∀ n, .nan ∉ ps → a ≠ .nan → .inf n ∈ ps → (.inf (!n) ∈ ps ∨ a = .inf (!n) → r = nan)
        ∧ (.inf (!n) ∉ ps → a ≠ .inf (!n) → fop ty false r = .inf n))
    ∧ ((∀ v ∈ ps, v.finite = true) →
      (∀ n, a = .inf n → r = acc)
      ∧ (a.finite = true → (∀ v ∈ ps, v.rat = 0) → r = acc)
      ∧ (a.finite = true → ∀ E : Int, (∃ v ∈ ps, (2 : ℚ) ^ E ≤ |v.rat|) → (∀ v ∈ ps, |v.rat| < (2 : ℚ) ^ (E + 1)) →
          let unit : ℚ := (2 : ℚ) ^ (E - 191)
          let kept (v : FVal) : ℚ := (if v.rat < 0 then -1 else 1) * (⌊|v.rat| / unit⌋ : ℚ) * unit
          let y := a.rat + (ps.map kept).sum
          (y = 0 → r = 0)
          ∧ (y ≠ 0 → (∀ v ∈ ps, kept v = v.rat) → ∀ z : FVal, z.finite = true → z.rat = y → r = put z)
          ∧ (y ≠ 0 → (∃ v ∈ ps, kept v ≠ v.rat) → ∃ d : ℚ, 0 < d ∧ ∀ z : FVal, z.finite = true → |y| < |z.rat| → |z.rat| < |y| + d → 0 < y * z.rat → r = put z))))
  ∧ ∀ sat (acc : Nat) (x : Int), acc < 2 ^ 32 →
      let y : Int := (if acc < 2 ^ 31 then (acc : Int) else (acc : Int) - 2 ^ 32) + x
      crestAddInt sat acc x = ((if sat then max (-(2 : Int) ^ 31) (min y ((2 : Int) ^ 31 - 1)) else y) % 2 ^ 32).toNat

/-- Rules R114, R203, R210, R219 and R228: a multiply's store gives each element of its rows the sum of its crest groups, in increasing group, and leaves every other
row; the products of a group are those of its rows' weights, zero for a bank of another team, with the elements that they select, each part
of a scaled block as one product. -/
def Clause.MultiplySums : Prop :=
  ∀ (x : MulIn), fbA x.fb ≤ 9 →
    let af := fbA x.fb
    let g := cwG x.cw
    let V := cwV x.cw
    let N := cwN x.cw
    let bl := fbBl x.fb
    let D := if cwSpe x.cw then x.q * V / N else x.q
    let select (q n : Nat) : Option Nat :=
      if cwSpe x.cw then (let i := x.bank.idx.get 0 (q * 1024 + n); if i < V then some (q / N * V + i) else none) else some q
    let weight (q n : Nat) : FVal := if x.foreign then .num false 0 0 else termValue x.bank.wfmt (x.bank.wts.get 0 (q * 1024 + n)).toNat
    let pairs (c n : Nat) : List (Nat × Nat) := (List.range g).filterMap (fun r => (select (c * g + r) n).map (fun j => (c * g + r, j)))
    let prod (m n : Nat) (r : Nat × Nat) : FVal := fMul ((x.els.getD (m * D + r.2) .zero).value af) (weight r.1 n)
    let one : FVal := .num false 1 0
    let part (c m n b : Nat) : FVal := fMul ((((pairs c n).filter (fun r => r.2 / bl == b)).map (prod m n)).foldl (fAdd .rn) (.num false 0 0))
      (fMul (if fbAsc x.fb then s20 (x.ascale.getD (m * (D / bl) + b) 0) else one) (if fbBsc x.fb then s20 (x.bscale.getD (n * (D / bl) + b) 0) else one))
    let products (c m n : Nat) : List FVal :=
      if fbAsc x.fb || fbBsc x.fb then (((pairs c n).map (fun r => r.2 / bl)).eraseDups).map (part c m n) else (pairs c n).map (prod m n)
    let sum (m n acc : Nat) : Nat := (List.range (x.q / g)).foldl (fun a c =>
      if af ≤ 1 then crestAddInt (fbSat x.fb) a ((products c m n).map FVal.int).sum else crestAdd (accFmt af) (fbSat x.fb) a (products c m n)) acc
    ∀ (k : Core) row,
      (∀ m n, m < x.m → n < modeCols af → (x.store k row).accGet af (row + m) n = sum m n (k.accGet af (row + m) n))
      ∧ ∀ r j, j < 1024 → r < row ∨ row + x.m ≤ r → (x.store k row).acc.get 0 (1024 * r + j) = k.acc.get 0 (1024 * r + j)

/-- Rules R212, R213, R218 and R220: the cycles of an element; the finish times, crests, waiting and drift of a crest group; and the groups of a multiply, whose
rows take the largest cost among the elements that they select. -/
def Clause.CrestTimes : Prop :=
  (∀ g d M (cost fin : Nat → Nat → Nat) (crest : Nat → Nat), 1 ≤ d →
    let gate (m : Nat) : Nat := if m < d then 0 else crest (m - d)
    (∀ r, fin 0 r = 0) → (∀ m r, fin (m + 1) r = max (fin m r) (gate m) + cost m r) → (∀ m, crest m = ((List.range g).map (fin (m + 1))).foldl max 0) →
      let C := crestRun g d ((List.range M).map (fun m => (List.range g).map (cost m)))
      let held (r t : Nat) : Nat := ((List.range M).filter (fun m => decide (fin (m + 1) r ≤ t ∧ t < crest m))).length
      C.time = (if M = 0 then 0 else crest (M - 1))
      ∧ C.wait = ((List.range M).map (fun m => ((List.range g).map (fun r => gate m - fin m r)).sum)).sum
      ∧ (∀ r t, r < g → held r t ≤ C.lead g) ∧ (C.lead g = 0 ∨ ∃ r t, r < g ∧ held r t = C.lead g))
  ∧ (∀ k x ts, TElem.cost .zero = 0 ∧ TElem.cost (.special k) = 1 ∧ TElem.cost (.terms x ts) = ts.length ∧ TElem.cost .over = 0)
  ∧ ∀ x : MulIn, x.crests = (List.range (x.q / cwG x.cw)).map (fun c =>
        crestRun (cwG x.cw) (2 ^ fld x.cw 3 2) ((List.range x.m).map (fun m => (List.range (cwG x.cw)).map (fun r => x.cost (c * cwG x.cw + r) m))))
      ∧ ∀ q m, (cwSpe x.cw = false → x.cost q m = (x.els.getD (m * x.q + q) .zero).cost)
        ∧ (cwSpe x.cw = true → x.cost q m = ((List.range (modeCols (fbA x.fb))).map (fun n =>
            let i := x.bank.idx.get 0 (q * 1024 + n)
            if i < cwV x.cw then (x.els.getD (m * (x.q * cwV x.cw / cwN x.cw) + (q / cwN x.cw * cwV x.cw + i)) .zero).cost else 0)).foldl max 0)

/-- Rules R102, R229, R230, R237 and R248: the place of an element in a range of registers; the conversions of a drain; and the counts of a histogram. -/
def Clause.DrainedElements : Prop :=
  (∀ els w W r l, l < W → w ∈ [4, 8, 16, 32, 64] →
    let y := (laneOf (placeReg els w W r) l).toNat
    (w = 64 → y = els.getD (r / 2 * W + l) 0 / (if r % 2 = 1 then 2 ^ 32 else 1) % 2 ^ 32)
    ∧ (w ≠ 64 → ∀ j, j < 32 / w → y / 2 ^ (j * w) % 2 ^ w = els.getD ((r * W + l) * (32 / w) + j) 0 % 2 ^ w))
  ∧ (∀ (k : Core) (e : TermEntry) r n, r < rowCount e.word → n < colCount e.word →
      (k.drained e).length = rowCount e.word * colCount e.word
      ∧ (k.drained e).getD (r * colCount e.word + n) 0 = k.accGet (fbA e.fb) (e.row + r) (fld e.word 18 10 + n))
  ∧ (∀ af (fb : W64) x, af ≤ 9 → drainOk af (fld fb 60 4) = true → x < 2 ^ (if af = 9 then 64 else 32) →
    let df := fld fb 60 4
    let mode := rmode (fld fb 58 2)
    let y := drainConv af fb x
    (df = 0 ∨ df = 9 → y = x)
    ∧ (df = 1 → y = ((max (-128) (min (sextNat x 32) 127)) % 256).toNat)
    ∧ (df ≠ 0 → df ≠ 1 → df ≠ 9 → y = if af ≤ 1 then fput 2 mode false false (ofInt (sextNat x 32))
        else fput (termType df) mode false (fld fb 57 1 == 1) (fop (if af = 9 then 3 else 2) false x))
    ∧ drainWidth af df = if df = 0 ∨ df = 9 then (if af = 9 then 64 else 32) else if df = 1 then 8 else twidth df)
  ∧ ∀ (h : Hist) (v : FVal), let g := h.count v
      let top := 2 ^ 32 - 1
      let others (i : Option Nat) : Prop := ∀ j, some j ≠ i → g.bins.get 0 j = h.bins.get 0 j
      g.base = h.base
      ∧ (v = .nan → g.nan = min (h.nan + 1) top ∧ g.zero = h.zero ∧ others none)
      ∧ (∀ n, v = .inf n → g.bins.get 0 31 = min (h.bins.get 0 31 + 1) top ∧ g.zero = h.zero ∧ g.nan = h.nan ∧ others (some 31))
      ∧ (v.finite = true → v.rat = 0 → g.zero = min (h.zero + 1) top ∧ g.nan = h.nan ∧ others none)
      ∧ ∀ E : Int, v.finite = true → (2 : ℚ) ^ E ≤ |v.rat| → |v.rat| < (2 : ℚ) ^ (E + 1) →
          let i := (max 0 (min 31 (E - h.base + 16))).toNat
          g.bins.get 0 i = min (h.bins.get 0 i + 1) top ∧ g.zero = h.zero ∧ g.nan = h.nan ∧ others (some i)

/-- Rules R217 and R461: an array that has been idle for 4,096 cycles is clock-gated; its wake is granted in turn, to at most 13 arrays of a quadrant in any 100 ns, and it
runs 100 cycles after its grant. -/
def Clause.ArrayGating : Prop :=
  ∀ s c, let k := s.core c
    let q := Config.coreQuadrant c
    let recent := s.wakes.filter (fun w => decide (s.cycle < w.2 + 200))
    (k.gatedArray = false → k.tq = [] → k.trun = [] → k.idleSince + 4096 ≤ s.cycle → ∃ t, exec (.arrayClockGate c) s = .next t
      ∧ t.core c = { k with gatedArray := true } ∧ (∀ d, d ≠ c → t.core d = s.core d) ∧ t = { s with cores := t.cores })
    ∧ (∀ r, k.wakeReq = some r → (∀ x ∈ s.cores, x.1 ≠ c → x.2.wakeReq = none) →
        ((recent.filter (fun w => w.1 == q)).length < 13 → ∃ t, exec (.arrayWakeGrant c) s = .next t
          ∧ t.core c = { k with wakeReq := none, wakeAt := some (s.cycle + 100) } ∧ t.wakes = recent ++ [(q, s.cycle)]
          ∧ t = { s with cores := t.cores, wakes := t.wakes })
        ∧ (13 ≤ (recent.filter (fun w => w.1 == q)).length → exec (.arrayWakeGrant c) s = .next s))
    ∧ (∀ a, k.wakeAt = some a → a ≤ s.cycle → ∃ t, exec (.arrayWakeComplete c) s = .next t
        ∧ t.core c = { k with gatedArray := false, wakeAt := none, wokeAt := a, idleSince := s.cycle } ∧ t = { s with cores := t.cores })

/-! ### Copies -/

/-- Rules R345, R348 and R349: CPY, CPY.ENC, CPY.DEC and CPY.GATHER check their operands and records as they issue, in the order of R348; then the
copy, with the lines of its destination that are mapped (log entry 53), stands at the end of an engine's queue, and the ticket that names it is written. -/
def Clause.CopiesIssue : Prop :=
  ∀ s G p (f : FmtR) T srec drec c (kind : Nat) (i : Instr), (kind, i) ∈ [(0, Instr.cpy f), (1, .cpyEnc f), (2, .cpyDec f), (3, .cpyGather f)] →
    Calm s G p → p.am ≠ 0 → Legal s G i →
    let m := activeLanes G p f.ge f.gn f.g
    let H (ws : List RegW) : Group := { G with
      splits := [p.issued s.cycle (p.pc + 8)], infl := [{ id := G.nextIid, split := p.id, pc := 0, writes := ws }], nextIid := G.nextIid + 1 }
    let a : CpyArgs := { kind := kind, src := uniRun G f.a.toNat 4, dst := uniRun G f.b.toNat 4, done := G.uni f.c.toNat
                         gidx := if kind = 3 then G.uni (f.a.toNat + 4) else 0, na := f.a.toNat, nb := f.b.toNat, nc := f.c.toNat }
    let pin := f.opx.toNat % 4
    let c0 (n : Nat) : Copy := { id := n, ticket := ticketOf (T.ticket + 1), tid := G.tid, lid := G.lid, part := G.part, core := s.cur.core
                                 slot := s.cur.slot, gid := G.gid, split := s.cur.split, kind := kind, src := a.src, dst := a.dst, srec := [], drec := []
                                 done := a.done, gidx := fld a.gidx 0 19, epoch := T.epochAt a.done, pin := pin }
    let raised (u : State) (x : CpyFail) : Prop := match x with
      | .illegal n => exec i s = .next (u.raise s.cur 1 0 (9 * 2 ^ 16 + 2 ^ 7 + n))
      | .align info => exec i s = .next (u.raise s.cur 6 0 info)
      | .protect info => exec i s = .next (u.raise s.cur 7 0 info)
      | .page _ va => fld (u.part G.part).pfring 63 1 = 0 → exec i s = .next (u.raise s.cur 8 0 (addrInfo va))
    (m = 0 → ∃ t, exec i s = .next t ∧ Moved s t (H []))
    ∧ (m ≠ 0 → s.teams.find G.tid = some T → ∀ x, a.fields (some T.lsz) = some x → raised s x)
    ∧ (m ≠ 0 → s.teams.find G.tid = some T → a.fields (some T.lsz) = none → s.pagesHeld (some s.cur.core) G.part a.pages = false → ∀ u1,
        (∀ x, s.pagesFail (some s.cur.core) G.part a.pages = (u1, some x) → raised u1 x)
        ∧ ∀ u2 u3, s.pagesFail (some s.cur.core) G.part a.pages = (u1, none) → u1.recordAt s.cur.core false G.part (recVa a.src) = (u2, some srec) →
          u2.recordAt s.cur.core false G.part (recVa a.dst) = (u3, some drec) →
          (∀ x, a.late srec drec (some T) = some x → raised u3 x)
          ∧ ∀ u, a.late srec drec (some T) = none → u3.teams.find G.tid = some T → (doneKind a.done = 3 → T.wins = []) →
            u3.makeCopy (c0 u3.nextId) u3.nextId srec drec = (u, c) → u.slicesFree c.slices = true → u.group s.cur.core s.cur.slot = some G →
            u.teams.find G.tid = some T → u.unrecorded G.part → u.cur = s.cur → PairDrained u G → (∀ x ∈ c.owned, u.holders x.1 = []) →
            let eng := (u.core s.cur.core).pickEngine pin
            ((u.core s.cur.core).eng eng).length < 32 →
            ∃ t, exec i s = .next t
              ∧ t.group s.cur.core s.cur.slot = some (H [{ sp := .uni, num := f.d.toNat, word := w64 (ticketOf (T.ticket + 1)) }])
              ∧ t.teams.find G.tid = some { T with ticket := T.ticket + 1 } ∧ (∀ k, k ≠ G.tid → t.teams.find k = u.teams.find k)
              ∧ (t.core s.cur.core).eng eng = (u.core s.cur.core).eng eng ++ [c] ∧ (t.core s.cur.core).eng (1 - eng) = (u.core s.cur.core).eng (1 - eng)
              ∧ t = { u with cores := t.cores, parts := t.parts, teams := t.teams, hostHeld := t.hostHeld, l2 := t.l2, nextId := u.nextId + 1 })

/-- Rules R345 and R348: the checks of a copy's registers before it reads memory, each in its turn: reserved fields, alignment, and the length
of the local store. -/
def Clause.CopyChecks : Prop :=
  ∀ (a : CpyArgs) s0 s1 s2 s3 d0 d1 d2 d3 lsz, a.src = [s0, s1, s2, s3] → a.dst = [d0, d1, d2, d3] →
    let odd (w0 w1 w3 : W64) : Prop := fld w0 57 6 ≠ 0 ∨ fld w1 57 7 ≠ 0 ∨ fld w3 63 1 ≠ 0 ∨ (fld w0 63 1 = 1 ∧ fld w0 19 38 ≠ 0)
    let kind := fld a.done 62 2
    let tgt := fld a.done 0 57
    let scope := fld a.done 59 3
    let c1 := odd s0 s1 s3 ∨ (a.kind = 3 ∧ (fld a.gidx 19 45 ≠ 0 ∨ fld a.gidx 0 2 ≠ 0))
    let c2 := odd d0 d1 d3
    let c3 := fld a.done 57 2 ≠ 0 ∨ (kind = 0 ∧ (scope ≠ 0 ∨ tgt ≠ 0)) ∨ (kind ≠ 0 ∧ (scope = 0 ∨ scope = 7)) ∨ (2 ≤ kind ∧ fld a.done 19 38 ≠ 0)
    let c4 := fld s1 0 57 % 64 ≠ 0
    let c5 := fld d1 0 57 % 64 ≠ 0
    let c6 := tgt % (if kind = 1 then 8 else 16) ≠ 0
    let c7 := fld s0 63 1 = 1 ∧ lsz < fld s0 0 57 + 1
    let c8 := fld d0 63 1 = 1 ∧ lsz < fld d0 0 57 + 1
    let c9 := 2 ≤ kind ∧ lsz < tgt + 16
    let is (x : Option CpyFail) : Prop := a.fields (some lsz) = x
    (c1 → is (some (.illegal a.na))) ∧ (¬c1 → (c2 → is (some (.illegal a.nb))) ∧ (¬c2 → (c3 → is (some (.illegal a.nc))) ∧ (¬c3 →
      (c4 → is (some (.align (addrInfo (fld s1 0 57))))) ∧ (¬c4 → (c5 → is (some (.align (addrInfo (fld d1 0 57))))) ∧ (¬c5 →
        (c6 → is (some (.align (if kind = 1 then addrInfo tgt else tgt)))) ∧ (¬c6 → (c7 → is (some (.protect (fld s0 0 57)))) ∧ (¬c7 →
          (c8 → is (some (.protect (fld d0 0 57)))) ∧ (¬c8 → (c9 → is (some (.protect tgt))) ∧ (¬c9 → is none)))))))))

/-- Rules R358, R359 and R361: STAGE raises the team's stage and releases the repeats that it has reached, in order of stage value, then of entry;
CPYSTAT gives the status of a ticket among the team's latest 128. -/
def Clause.StagesAndStatus : Prop :=
  ∀ s G p (f : FmtR) T, Calm s G p → p.am ≠ 0 → s.teams.find G.tid = some T →
    let m := activeLanes G p f.ge f.gn f.g
    let P := ({} : Plan).guard f.ge f.gn f.g
    let H (ws : List RegW) : Group := { G with
      splits := [p.issued s.cycle (p.pc + 8)], infl := [{ id := G.nextIid, split := p.id, pc := 0, writes := ws }], nextIid := G.nextIid + 1 }
    let v := (G.uni f.a.toNat).toNat
    let stage := min (T.stage + v) (2 ^ 32 - 1)
    let reached (e : List W64) : Nat := if stage < entryStage e then 0 else min (entryCount e) ((stage - entryStage e) / max 1 (entryPeriod e) + 1)
    let le (x y : Nat × Nat) : Prop := x.1 < y.1 ∨ (x.1 = y.1 ∧ x.2 ≤ y.2)
    (Legal s G (.stage f) →
      (m = 0 → ∃ t, exec (.stage f) s = .next t ∧ Moved s t (H []))
      ∧ (m ≠ 0 → 2 ^ 16 ≤ v → exec (.stage f) s = .next (s.raise s.cur 1 0 (9 * 2 ^ 16 + 2 ^ 7 + f.a.toNat)))
      ∧ (m ≠ 0 → v < 2 ^ 16 → Drained s G → ∃ t T', exec (.stage f) s = .next t
          ∧ t.group s.cur.core s.cur.slot = some (H [{ sp := .uni, num := f.d.toNat, word := w64 stage }])
          ∧ t.teams.find G.tid = some T' ∧ (∀ k, k ≠ G.tid → t.teams.find k = s.teams.find k)
          ∧ T' = { T with stage := stage, relq := T'.relq, sched := T'.sched }
          ∧ (∀ e ∈ (s.schedOf G.lid).zipIdx, T'.sched.get 0 e.2 = max (T.sched.get 0 e.2) (reached e.1))
          ∧ T'.relq.Perm (T.relq ++ (s.schedOf G.lid).zipIdx.flatMap (fun e => (List.range (reached e.1 - T.sched.get 0 e.2)).map (fun j =>
              (entryStage e.1 + (T.sched.get 0 e.2 + j) * entryPeriod e.1, e.2))))
          ∧ (T.relq.Pairwise le → T'.relq.Pairwise le)
          ∧ t = { s with cores := t.cores, parts := t.parts, teams := t.teams }))
    ∧ (let n := fld (G.uni f.a.toNat) 0 32
      let late := ∃ d, d < 128 ∧ d < T.ticket ∧ ticketOf (T.ticket - d) = n
      ∀ w, (¬late → w = 0) →
        (late → s.copies = [] → T.susp = [] → ((∀ o k, Held.add o k n ∉ T.held) → w = T.status.get 0 n)
          ∧ ((∃ o k, Held.add o k n ∈ T.held) → fld w 60 4 = 2 ∧ fld w 56 4 = 0 ∧ fld w 0 56 = fld (T.status.get 0 n) 0 56)) →
        (∀ c, late → s.copies = [c] → c.tid = T.tid → c.queue = none → c.ticket = n → c.state < 16 → c.err < 16 →
          fld w 60 4 = c.state ∧ fld w 56 4 = c.err ∧ fld w 55 1 = (if c.oob then 1 else 0) ∧ fld w 0 32 = min c.bytes (2 ^ 32 - 1)
            ∧ fld w 32 23 = min (if c.state = 6 then c.chunk - 1 else c.chunk) (2 ^ 23 - 1)) →
        (¬late ∨ s.copies = [] ∧ T.susp = [] ∨ ∃ c, s.copies = [c] ∧ c.tid = T.tid ∧ c.queue = none ∧ c.ticket = n ∧ c.state < 16 ∧ c.err < 16) →
        Computes s G p (.cpystat f) P (if m = 0 then [] else [{ sp := .uni, num := f.d.toNat, word := w }]))

/-- Rules R346, R349, R354, R356 and R357: a copy at the head of its engine starts, notes its cancellation or what stops it, writes its chunks and their
additions, and ends in COMPLETE (with log entry 58) or in ERROR, CHECKSUM pending in its group. -/
def Clause.CopyEvents : Prop :=
  ∀ s core eng c rest, (s.core core).eng eng = c :: rest → (∀ d ∈ rest, d.id ≠ c.id) → c.batch = none → eng < 2 →
    let first (t : State) (d : Copy) : Prop := (t.core core).eng eng = d :: rest
    let others (t : State) : Prop := ∀ x g, t.group x g = s.group x g
    let noted (i : Instr) (d : Copy) : Prop := ∃ t, exec i s = .next t ∧ first t d ∧ others t ∧ t = { s with cores := t.cores }
    let quiet := (∀ e ∈ s.teams, e.2.held = []) ∧ s.unrecorded c.part ∧ c.queue = none
    (c.started = false → c.err = 0 →
      (c.cancel = true → noted (.copyStart core eng) { c with err := 8 })
      ∧ (c.cancel = false → c.refused = true → noted (.copyStart core eng) { c with err := 5 })
      ∧ (c.cancel = false → c.refused = false →
        (∀ u d, c.resolved = false → s.resolveCopy c = (u, .ok d) → (u.core core).eng eng = c :: rest → (∀ x ∈ d.owned, u.holders x.1 = []) →
          ∃ t, exec (.copyStart core eng) s = .next t ∧ first t d ∧ (∀ x g, t.group x g = u.group x g) ∧ (∀ x ∈ d.owned, t.owned x.1 = true)
            ∧ t = { u with cores := t.cores, hostHeld := t.hostHeld, l2 := t.l2 })
        ∧ (∀ u n, c.resolved = false → s.resolveCopy c = (u, .err n) → (u.core core).eng eng = c :: rest →
          ∃ t, exec (.copyStart core eng) s = .next t ∧ first t { c with err := n } ∧ t = { u with cores := t.cores })
        ∧ (c.resolved = true → c.kind ≠ 3 → noted (.copyStart core eng) { c with started := true, state := 2, indices := [] })
        ∧ (∀ T, c.resolved = true → c.kind = 3 → s.teams.find c.tid = some T → T.wins = [] → T.lsBad = [] →
            let n := c.dstL.ext.getD (c.dstL.rank - 1) 0
            c.gidx + 4 * n ≤ T.lsz →
            noted (.copyStart core eng) { c with started := true, state := 2, indices := (List.range n).map (fun i => numOf (T.bytes (c.gidx + 4 * i) 4)) })))
    ∧ (c.started = true → c.err = 0 →
        (c.pend = none → c.finished = false →
          (c.cancel = true → noted (.copyChunk core eng) { c with err := 8 })
          ∧ (c.cancel = false → c.refused = true → noted (.copyChunk core eng) { c with err := 5 })
          ∧ (c.cancel = false → c.refused = false → fld (s.part c.part).pbud0 48 16 ≠ 0 → (s.part c.part).copyLeft ≤ 0 →
            noted (.copyChunk core eng) { c with state := 5 })
          ∧ (c.cancel = false → c.refused = false → fld (s.part c.part).pbud0 48 16 = 0 ∨ 0 < (s.part c.part).copyLeft →
            (∀ u h x, s.nextChunk c c.srcL c.dstL = (u, x) → (u.core core).eng eng = { c with hdr := h } :: rest →
              let stopped (d : Copy) : Prop := ∃ t, exec (.copyChunk core eng) s = .next t ∧ first t d ∧ t = { u with cores := t.cores }
              match x with
              | .ok _ => True
              | .hold => stopped { c with hdr := h, state := 2 }
              | .full => stopped { c with hdr := h, state := 3 }
              | .page _ => fld (u.part c.part).pfring 63 1 = 0 → stopped { c with hdr := h, err := 5 }
              | .err n => stopped { c with hdr := h, err := n })
            ∧ ∀ u h x as prod, s.nextChunk c c.srcL c.dstL = (u, .ok (x, as, prod)) → (u.core core).eng eng = { c with hdr := h } :: rest →
              doneKind c.done ≠ 2 → (∀ b ∈ x.data, b.2 = false) → x.data.length = as.length →
              let D := c.dstL
              let n := x.data.length
              let words (a : Int) (k v : Nat) : List (Int × Byte) := (List.range k).map (fun (i : Nat) => (a + (i : Int), (bytesOf v k).getD i 0))
              let more := (if D.enc = true ∧ D.ioff ≠ 0 then words (D.base + D.ioff + 4 * c.chunk) 4 ((if D.ring = 0 then c.dpos else prod % D.ring) / 32) else [])
                ++ (if D.ring = 0 then [] else words (D.base - 16) 8 ((prod + n) % 2 ^ 64))
              let cells := as.zip (x.data.map (fun b => b.1)) ++ more
              let after : Copy := { c with chunk := c.chunk + 1, bytes := c.bytes + n, pos := c.pos + x.used, dpos := c.dpos + n, oob := c.oob || x.oob
                                           state := 2, hdr := [] }
              (∀ T, D.ls = true → u.teams.find c.tid = some T → T.wins = [] → T.lsBad = [] → (∀ y ∈ cells, 0 ≤ y.1 ∧ y.1 < T.lsz) →
                ∃ t T', exec (.copyChunk core eng) s = .next t ∧ first t after ∧ (∀ x g, t.group x g = u.group x g)
                  ∧ t.teams.find c.tid = some T' ∧ T' = { T with ls := T'.ls } ∧ (∀ k, k ≠ c.tid → t.teams.find k = u.teams.find k)
                  ∧ (∀ o, T'.ls.get 0 o = match (cells.filter (fun y => y.1 == (o : Int))).getLast? with | some y => y.2 | none => T.ls.get 0 o)
                  ∧ t = { u with cores := t.cores, parts := t.parts, teams := t.teams })
              ∧ (∀ e a, D.ls = false → more = [] → as = runAt ((a : Nat) : Int) n → 0 < n → a % 128 + n ≤ 128 → a + n ≤ 2 ^ 57 →
                (u.core c.core).tlb.find? (fun (e : TlbEnt) => e.covers c.part a) = some e → e.wr = true → e.mig = none → u.regionOk (e.pa a) = true →
                a % 65536 + n ≤ 65536 → e.pa a % 128 + n ≤ 128 →
                regionOf (e.pa a) = 0 → u.heldBy c [e.pa a / 128] = (u, false) → u.holders (e.pa a / 128) = [] → u.poison = [] →
                ∃ t, exec (.copyChunk core eng) s = .next t ∧ t.mem = memSetAll u.mem (cellsAt (e.pa a) (x.data.map (fun b => b.1)))
                  ∧ t.teams = u.teams ∧ t.poison = [] ∧ first t { after with owned := (c.wrote ((List.range n).map (fun k => e.pa a + k))).owned })))
        ∧ (∀ T n, c.core = core → (∀ d ∈ (s.core core).eng0 ++ (s.core core).eng1, d.id = c.id → d = c) → c.pend = some n → c.refused = false →
          s.copyAcked c = true → s.teams.find c.tid = some T → T.state = .resident → T.held = [] → T.wins = [] →
            T.lsBad = [] → let o := doneTgt c.done
            let v := awAdd (T.obj o).1 (T.obj o).2 n
            ∃ t, exec (.copyChunk core eng) s = .next t ∧ first t { c with pend := none }
              ∧ t.teams.find c.tid = some (T.put o (bytesOf v.1.toNat 8 ++ bytesOf v.2.1.toNat 8)) ∧ (∀ k, k ≠ c.tid → t.teams.find k = s.teams.find k)
              ∧ t = { s with cores := t.cores, teams := t.teams })
        ∧ (c.pend = none → c.finished = true → s.copyAcked c = true → c.refused = false → quiet → c.err < 16 →
          (∀ T, doneKind c.done = 0 → s.teams.find c.tid = some T →
            ∃ t w, exec (.copyComplete core eng) s = .next t ∧ others t ∧ (t.core core).eng eng = rest ∧ fld w 60 4 = 6
              ∧ fld w 0 32 = min c.bytes (2 ^ 32 - 1) ∧ t.teams.find c.tid = some { T with status := T.status.set c.ticket w }
              ∧ t = { s with cores := t.cores, teams := t.teams })
          ∧ (∀ e, doneKind c.done = 1 →
            let va := doneTgt c.done
            (s.core c.core).tlb.find? (fun (e : TlbEnt) => e.covers c.part va) = some e → s.partOf c.core = c.part → e.rd = true → e.wr = true → e.mig = none →
            s.regionOk (e.pa va) = true → e.pa va % 8 = 0 →
            (AtHome s c.core (e.pa va / 128) → ∃ t, exec (.copyComplete core eng) s = .next t ∧ (t.core core).eng eng = rest
              ∧ t.mem = memSetAll s.mem (cellsAt (e.pa va) (bytesOf ((numOf (memBytes s.mem (e.pa va) 8) + 1) % 2 ^ 64) 8)))
            ∧ (regionOf (e.pa va) = 1 → s.usablePorts (e.pa va / 2 ^ 40 % 1024) ≠ [] → ∃ t x, exec (.copyComplete core eng) s = .next t
              ∧ (t.core core).eng eng = rest ∧ t.mem = s.mem ∧ t.xacts = s.xacts ++ [x] ∧ x.pkg = e.pa va / 2 ^ 40 % 1024 ∧ x.core = c.core
              ∧ x.op = .atomic (e.pa va % 2 ^ 40) 0 true 1 0 false))
          ∧ (∀ T, doneKind c.done = 3 → s.teams.find c.tid = some T → T.state = .resident → T.wins = [] → T.lsBad = [] →
            let o := doneTgt c.done
            let w := T.obj o
            ∃ t W, exec (.copyComplete core eng) s = .next t ∧ (t.core core).eng eng = rest
              ∧ (if barV w.1 = true ∧ barEpoch w.1 = c.epoch then W = ((barArrive w.1).1, w.2)
                else W = (w.1, setFld w.2 0 32 (min (fld w.2 0 32 + 1) (2 ^ 32 - 1))))
              ∧ ∃ st, t.teams.find c.tid = some { T.put o (bytesOf W.1.toNat 8 ++ bytesOf W.2.toNat 8) with status := T.status.set c.ticket st }
                ∧ fld st 60 4 = 6)))
    ∧ (∀ T, quiet → c.err ≠ 0 → c.err < 16 → c.scheduled = false → s.teams.find c.tid = some T →
        ∃ t w, exec (.copyError core eng) s = .next t ∧ (t.core core).eng eng = rest ∧ fld w 60 4 = 7 ∧ fld w 56 4 = c.err
          ∧ t = { s with cores := t.cores, teams := t.teams }
          ∧ (c.err = 8 → others t ∧ t.teams.find c.tid = some { T with status := T.status.set c.ticket w })
          ∧ ∀ x g G, c.err ≠ 8 → s.group x g = some G →
              (G.gid = c.gid → c.gid ≠ 0 → G.ending = false → ∃ q, t.group x g = some { G with causes := G.causes ++ [q] } ∧ q.code = 16 ∧ q.deferred = true
                ∧ (c.ticket < 2 ^ 32 → q.info.toNat = c.ticket * 2 ^ 16 + min c.chunk 65535))
              ∧ (G.gid ≠ c.gid ∨ c.gid = 0 ∨ G.ending = true → t.group x g = some G))

/-- Rules R342 and R346: the address of each byte of an element of a plain layout, and the most bytes that a chunk of a plain copy moves. -/
def Clause.CopyLayouts : Prop :=
  ∀ (L : Layout) e0 e1 e2 e3 e4 s1 s2 s3 s4 i1 i2 i3 i4 k, L.ext = [e0, e1, e2, e3, e4] → L.str = [s1, s2, s3, s4] → i1 < e1 → i2 < e2 → i3 < e3 → i4 < e4 →
    k < e0 * fmtBits L.fmt / 8 →
    L.byteAt (e0 * fmtBits L.fmt / 8 * (i1 + e1 * (i2 + e2 * (i3 + e3 * i4))) + k) = L.base + k + i1 * s1 + i2 * s2 + i3 * s3 + i4 * s4
    ∧ (L.fmt = 0 → fmtBits L.fmt = 4) ∧ (L.fmt ∈ [1, 2, 3, 4, 5, 10] → fmtBits L.fmt = 8) ∧ (L.fmt ∈ [6, 7, 11] → fmtBits L.fmt = 16)
    ∧ (L.fmt ∈ [8, 12] → fmtBits L.fmt = 32) ∧ (L.fmt ∈ [9, 13] → fmtBits L.fmt = 64)

/-- Rules R343, R344, R346, R350, R351, R353, R354 and R397: the data of a chunk and its place, for each kind of copy, from the local store; and a run of
memory that a copy reads. -/
def Clause.ChunkContents : Prop :=
  ∀ s (c : Copy) (S D : Layout) T, s.teams.find c.tid = some T → T.wins = [] → T.lsBad = [] → S.ls = true →
    let get (a : Int) : Byte := T.ls.get 0 a.toNat
    let run (a n : Nat) : List Byte := (List.range n).map (fun i => get (a + i))
    let clean (b : List Byte) : List (Byte × Bool) := b.map (fun x => (x, false))
    let size := D.span D.count
    let n := min (if D.ring = 0 then 4096 else min 4096 D.ring) (size - c.dpos)
    let gives (d : Chunk) (as : List Int) (prod : Nat) : Prop := s.nextChunk c S D = (s, .ok (d, as, prod))
    let put (k : Nat) : List Int := if D.enc then runAt ((D.base + c.dpos : Nat) : Int) k else (List.range k).map (fun i => D.byteAt (c.dpos + i))
    (D.ring = 0 →
      (c.kind = 0 → S.enc = false → D.enc = false → (∀ k, k < n → 0 ≤ S.byteAt (c.dpos + k) ∧ S.byteAt (c.dpos + k) < T.lsz) →
        gives { data := clean ((List.range n).map (fun k => get (S.byteAt (c.dpos + k)))) } (put n) 0)
      ∧ (c.kind = 3 → S.enc = false → D.enc = false →
        let slice := S.span ((S.ext.take (S.rank - 1)).foldl (fun a e => a * e) 1)
        let top := S.ext.getD (S.rank - 1) 0
        let index (k : Nat) : Nat := c.indices.getD ((c.dpos + k) / slice) 0
        let from' (k : Nat) : Int := S.byteAt (index k * slice + (c.dpos + k) % slice)
        slice ≠ 0 → (∀ k, k < n → index k < top → 0 ≤ from' k ∧ from' k < T.lsz) →
        gives { data := clean ((List.range n).map (fun k => if index k < top then get (from' k) else 0))
                oob := (List.range n).any (fun k => decide (top ≤ index k)) } (put n) 0)
      ∧ (c.kind = 1 →
        let els := min 16 (S.count - 16 * c.chunk)
        let from' (k : Nat) : Int := S.byteAt (S.span (16 * c.chunk) + k)
        (∀ k, k < S.span els → 0 ≤ from' k ∧ from' k < T.lsz) →
        let v := numOf ((List.range (S.span els)).map (fun k => get (from' k)))
        let b := blockBytes D.fmt ((List.range els).map (fun i => recodeElem D.fmt (v / 2 ^ (i * S.bits) % 2 ^ S.bits)))
        gives { data := clean b } (put b.length) 0)
      ∧ (c.kind = 0 → S.enc = true →
        let a := S.base + c.pos
        let g := (parseBlock S.fmt (run a 32)).2
        a + 32 ≤ T.lsz → a + 32 * g ≤ T.lsz → gives { data := clean (run a (32 * g)), used := 32 * g } (put (32 * g)) 0)
      ∧ (c.kind = 2 → S.ext.getD 0 0 + S.base ≤ T.lsz → D.bits ∈ [8, 16, 32] → D.enc = false →
        let a := S.base + c.pos
        let h := numOf (run a 4)
        let k := h / 2 ^ 27 % 32
        let els := h / 2 ^ 16 % 2048 + 1
        let len := h % 65536
        let short := S.ext.getD 0 0 < c.pos + 8 ∨ S.ext.getD 0 0 < c.pos + 8 + len
        let xs := riceElems (numOf (run (a + 4) len)) (8 * len) k D.bits els 0 0
        let is (x : Out (Chunk × List Int × Nat)) : Prop := (s.nextChunk c S D).2 = x ∧ (s.nextChunk c S D).1.teams = s.teams
        c.hdr = [] ∨ c.hdr = clean (run a 4) →
        (short → is (.err 3))
        ∧ (¬short → crc32c (run a (4 + len)) ≠ numOf (run (a + 4 + len) 4) → is (.err 1))
        ∧ (¬short → crc32c (run a (4 + len)) = numOf (run (a + 4 + len) 4) →
          (len % 4 ≠ 0 ∨ D.bits < k ∨ xs = none → is (.err 2))
          ∧ ∀ l, len % 4 = 0 → k ≤ D.bits → xs = some l →
            let b := ((l.map (fun e => bytesOf e (D.bits / 8))).flatten).take (min (D.span els) (size - c.dpos))
            is (.ok ({ data := clean b, used := 8 + len }, put (min (D.span els) (size - c.dpos)), 0)))))
    ∧ (D.ring ≠ 0 → D.ls = true → c.kind = 0 → S.enc = false → D.enc = false → 16 ≤ D.base → D.base ≤ T.lsz →
        (∀ k, k < n → 0 ≤ S.byteAt (c.dpos + k) ∧ S.byteAt (c.dpos + k) < T.lsz) →
        let prod := numOf (run (D.base - 16) 8)
        let used := (prod + 2 ^ 64 - numOf (run (D.base - 8) 8)) % 2 ^ 64
        (used < 2 ^ 63 → D.ring < used + n → s.nextChunk c S D = (s, .full))
        ∧ (used + n ≤ D.ring → gives { data := clean ((List.range n).map (fun k => get (S.byteAt (c.dpos + k)))) }
            ((List.range n).map (fun k => ((D.base + (prod + k) % D.ring : Nat) : Int))) prod))
    ∧ ∀ (L : Layout) a j e, L.ls = false → 0 < j → a + j ≤ 2 ^ 57 → a % 65536 + j ≤ 65536 →
        (s.core c.core).tlb.find? (fun (e : TlbEnt) => e.covers c.part a) = some e → e.rd = true → s.regionOk (e.pa a) = true →
        e.pa a % 128 + j ≤ 128 → regionOf (e.pa a) = 0 → AtHome s c.core (e.pa a / 128) →
        s.copyRead c L (runAt ((a : Nat) : Int) j) = (s, .ok (clean (memBytes s.mem (e.pa a) j)))

/-- Rules R352 and R353: decoding a Rice payload that holds the code of a list of elements gives them back, and one that ends before its last code
is malformed. -/
def Clause.RiceCodes : Prop :=
  ∀ v lim k w (xs : List Nat), w ∈ [8, 16, 32] → k ≤ w → (∀ x ∈ xs, x < 2 ^ w) →
    let bits := riceBits k w 0 xs
    (∀ i, i < bits.length → v.testBit i = bits.getD i false) →
    (bits.length ≤ lim → riceElems v lim k w xs.length 0 0 = some xs)
    ∧ (lim < bits.length → riceElems v lim k w xs.length 0 0 = none)

/-- Rules R331, R360 and R361: the first released repeat of a team's schedule issues as a copy of the team, with the next ticket, once its engine has
room and the barrier object that it names is there. -/
def Clause.ScheduledRepeats : Prop :=
  ∀ s u tid T v n rest d, s.teams.find tid = some T → T.relq = (v, n) :: rest → T.state = .resident →
    let e := (s.schedOf T.lid).getD n []
    let j := (v - entryStage e) / max 1 (entryPeriod e)
    let c := s.repeatCopy T e j
    let moved (at' stepR stepT : Nat) : W64 :=
      let w := wordAt e at'
      let b : Int := (fld w 0 57 : Int) + j * (wordAt e stepR).toInt + T.index * (wordAt e stepT).toInt
      setFld w 0 57 (if fld w 63 1 = 1 then (b % 2 ^ 19).toNat else (b % 2 ^ 57).toNat)
    (doneKind (wordAt e 2) = 3 → T.wins = []) → ((s.core T.core).eng ((s.core T.core).pickEngine c.pin)).length < 32 →
    s.issueCopy c = (u, some d) → u.teams.find tid = some T → u.unrecorded T.part → (∀ x ∈ d.owned, u.holders x.1 = []) →
    let eng := (u.core T.core).pickEngine c.pin
    ∃ t, exec (.scheduleRepeatIssue tid) s = .next t ∧ (t.core T.core).eng eng = (u.core T.core).eng eng ++ [d]
      ∧ d.ticket = ticketOf (T.ticket + 1) ∧ d.src = moved 3 7 8 :: ((e.drop 4).take 3) ∧ d.dst = moved 9 13 14 :: ((e.drop 10).take 3)
      ∧ d.kind = fld (wordAt e 1) 0 2 ∧ d.done = wordAt e 2 ∧ d.scheduled = true
      ∧ t.teams.find tid = some { T with ticket := T.ticket + 1, relq := rest } ∧ (∀ k, k ≠ tid → t.teams.find k = u.teams.find k)
      ∧ (∀ x g, t.group x g = u.group x g) ∧ (∀ x ∈ d.owned, t.owned x.1 = true)
      ∧ t = { u with cores := t.cores, teams := t.teams, hostHeld := t.hostHeld, l2 := t.l2, nextId := u.nextId + 1 }

/-! ### Launches and tasks -/

/-- Rules R366 and R390: LAUNCH hands a record that its partition can read to the Caravan under the partition's next sequence number, which is what it
writes once the record is accepted; a record that is not aligned raises ALIGN, and without an active lane it has no effect. -/
def Clause.LaunchesIssue : Prop :=
  ∀ s G p (f : FmtR), Calm s G p → p.am ≠ 0 → Legal s G (.launch f) →
    let m := activeLanes G p f.ge f.gn f.g
    let va := (G.uni f.a.toNat).toNat
    let seq := ((s.part G.part).seq + 1) % 2 ^ 32
    let H (k : IKind) (ws : List RegW) : Group := { G with
      splits := [p.issued s.cycle (p.pc + 8)], infl := [{ id := G.nextIid, split := p.id, pc := 0, kind := k, writes := ws }], nextIid := G.nextIid + 1 }
    (m = 0 → ∃ t, exec (.launch f) s = .next t ∧ Moved s t (H .alu []))
    ∧ (m ≠ 0 → va % 128 ≠ 0 → exec (.launch f) s = .next (s.raise s.cur 6 0 (va / 512 % 2 ^ 48)))
    ∧ (∀ e, m ≠ 0 → va % 128 = 0 → va < 2 ^ 57 → (s.core s.cur.core).tlb.find? (fun (e : TlbEnt) => e.covers G.part va) = some e → e.rd = true →
      s.regionOk (e.pa va) = true →
        s.openLaunches < 1024 → PairDrained s G →
        ∃ t, exec (.launch f) s = .next t ∧ t.group s.cur.core s.cur.slot = some (H .launch [{ sp := .uni, num := f.d.toNat, word := w64 seq }])
          ∧ t.submits = s.submits ++ [⟨s.nextId, G.part, .word s.cur.core s.cur.slot G.nextIid, va, seq⟩] ∧ (t.part G.part).seq = seq
          ∧ t = { s with cores := t.cores, parts := t.parts, submits := t.submits, nextId := s.nextId + 1 })

/-- Rules R366 and R367: a record that passes its checks becomes a launch, and one that fails check n becomes a launch that is closed with code 3 and
detail n; where a LAUNCH instruction asked for it, that instruction writes its sequence number and completes. The scope table stands in memory before the
first (rule R432; that it is written then is the model's choice, log entry 99). -/
def Clause.LaunchesAccepted : Prop :=
  ∀ s0 s b r tb, s0.submits.find? (fun x => x.sid == b.sid) = some b →
    let s1 : State := { s with submits := s.submits.filter (fun x => x.sid != b.sid) }
    (s0.scopeDone = false → exec (.launchAccept b.sid) s0 = exec (.launchAccept b.sid) s0.writeScopes)
    ∧ (s0.scopeDone = true →
    s0.pathHeld b.part b.addr 128 = false → s0.readWords b.part b.addr 16 = (s, some r) → s.acceptHeld b.part r true = false →
    recReserved r = false → recCounts r = false → s1.readTables b.part r = (s1, tb) →
    let n := s.recCheck b.part r tb
    n ≠ 11 → ∃ t L, exec (.launchAccept b.sid) s0 = .next t ∧ t.launches.find s.nextId = some L
      ∧ L.seq = b.seq ∧ L.part = b.part ∧ L.origin = b.origin ∧ L.record = r ∧ L.next = 0 ∧ L.ended = 0 ∧ L.complete = false ∧ L.result = 0
      ∧ (n = 0 → L.closed = false ∧ L.code = 0) ∧ (n ≠ 0 → L.closed = true ∧ L.code = 3 ∧ L.detail = n)
      ∧ (∀ e, recStatus r ≠ 0 → Mapped s b.part (recStatus r) 16 e →
          t.mem = memSetAll s.mem (cellsAt (e.pa (recStatus r)) (List.replicate 16 0)) ∧ t.launches = s.launches.set s.nextId L)
      ∧ (recStatus r = 0 →
          t = { s1 with cores := t.cores, graphs := t.graphs, launches := s.launches.set s.nextId L, nextId := s.nextId + 1 }
          ∧ (∀ q rid irq, b.origin = .packet q rid irq → t.cores = s.cores ∧ t.graphs = s.graphs)
          ∧ (∀ g, b.origin = .graph g → t.graphs = s.graphs.mapV (fun x => if x.gid = g then { x with lid := some s.nextId } else x))
          ∧ ∀ c g iid G d x, b.origin = .word c g iid → s.group c g = some G → G.ra = none →
              G.infl = [{ id := iid, split := 0, pc := 0, kind := .launch, writes := [{ sp := .uni, num := d, word := x }] }] →
              ∃ H, t.group c g = some H ∧ H.uni d = x ∧ (∀ k, k ≠ d → H.uni k = G.uni k) ∧ H.infl = []))

/-- Rules R368 and R369: a launch that is closed or whose teams are all admitted, with nothing left to run, completes: its status record takes its code,
its count of ended teams and its result, its DONE counter one more, and its teams are gone; its packet completes, or its graph goes on with the code. -/
def Clause.LaunchesComplete : Prop :=
  ∀ s lid L e e', s.launches.find lid = some L → s.launchOver L = true →
    let st := recStatus L.record
    let done := recDone L.record
    (st = 0 ∨ st % 16 = 0 ∧ Mapped s L.part st 16 e) →
    (doneKind done = 0 ∨ doneKind done = 1 ∧ recDoneBad done = false ∧ Mapped s L.part (doneTgt done) 8 e') → s.unrecorded L.part →
    (∀ q rid irq, L.origin = .packet q rid irq → s.unrecorded (s.queue q).part) →
    (∀ c ∈ s.partCores L.part, s.coreSettled c = true ∧ ∀ x ∈ (s.core c).l1, x.dirty = 0) →
    let k := if L.code ≠ 0 then L.code else if L.closed then 2 else 1
    let w := w64 (k * 2 ^ 56 + L.detail * 2 ^ 32 + L.ended)
    let m := if st = 0 then s.mem else memSetAll s.mem (cellsAt (e.pa st) (bytesOf w.toNat 8 ++ bytesOf L.result.toNat 8))
    let a := e'.pa (doneTgt done)
    ∃ t, exec (.launchComplete lid) s = .next t
      ∧ t.mem = (if doneKind done = 0 then m else memSetAll m (cellsAt a (bytesOf ((numOf (memBytes m a 8) + 1) % 2 ^ 64) 8)))
      ∧ t.launches.find lid = some { L with complete := true, code := fld w 56 8 } ∧ (∀ j, j ≠ lid → t.launches.find j = s.launches.find j)
      ∧ (∀ x ∈ t.teams, x.2.lid ≠ lid) ∧ (∀ x ∈ s.teams, x.2.lid ≠ lid → x ∈ t.teams)
      ∧ (∀ q rid irq r, L.origin = .packet q rid irq → (s.queue q).runs.find? (fun x => x.rid == rid) = some r → r.rid = rid → PacketEnd s t q r)
      ∧ ∀ g, L.origin = .graph g → t.graphs = s.graphs.mapV (fun x => if x.gid = g then { x with code := fld w 56 8 } else x)

/-- Rule R391: POST hands a value to the Caravan, which combines it with its launch's result word by the operation of the word: replace, maximum, minimum,
inclusive or, or sum; the instruction then completes. -/
def Clause.Posts : Prop :=
  (∀ s G p (f : FmtR), Calm s G p → p.am ≠ 0 → Legal s G (.post f) →
    let m := activeLanes G p f.ge f.gn f.g
    let H (k : IKind) : Group := { G with
      splits := [p.issued s.cycle (p.pc + 8)], infl := [{ id := G.nextIid, split := p.id, pc := 0, kind := k }], nextIid := G.nextIid + 1 }
    (m = 0 → ∃ t, exec (.post f) s = .next t ∧ Moved s t (H .alu))
    ∧ (m ≠ 0 → ∃ t, exec (.post f) s = .next t ∧ t.group s.cur.core s.cur.slot = some (H .post)
        ∧ t.posts = s.posts ++ [⟨s.nextId, G.lid, f.opx.toNat, G.uni f.a.toNat, s.cur.core, s.cur.slot, G.gid, G.nextIid⟩]
        ∧ t = { s with cores := t.cores, parts := t.parts, posts := t.posts, nextId := s.nextId + 1 }))
  ∧ (∀ s q L, s.posts.find? (fun x => x.pid == q.pid) = some q → (∀ r ∈ s.posts, r.gid = q.gid → q.pid ≤ r.pid) → s.launches.find q.lid = some L → q.op < 5 →
      ∃ t x, exec (.postApply q.pid) s = .next t ∧ t.posts = s.posts.filter (fun r => r.pid != q.pid)
        ∧ t.launches.find q.lid = some { L with result := x } ∧ (∀ j, j ≠ q.lid → t.launches.find j = s.launches.find j)
        ∧ (q.op = 0 → x = q.v) ∧ (q.op = 1 → x.toNat = max L.result.toNat q.v.toNat) ∧ (q.op = 2 → x.toNat = min L.result.toNat q.v.toNat)
        ∧ (q.op = 3 → x = L.result ||| q.v) ∧ (q.op = 4 → x = L.result + q.v)
        ∧ t = { s with cores := t.cores, posts := t.posts, launches := t.launches }
        ∧ ∀ G i, s.group q.core q.slot = some G → G.gid = q.gid → G.ra = none → G.infl = [i] → i.id = q.iid → i.kind = .post → i.writes = [] →
            t.group q.core q.slot = some ({ G with infl := [] }.noteDone i.split s.cycle))

/-- Rules R138, R368 and R393: TASKEXIT closes its launch and ends its active lanes as EXIT does. -/
def Clause.TaskExit : Prop :=
  ∀ s G p (f : FmtR) L, Calm s G p → G.preempt = none → p.am ≠ 0 → Legal s G (.taskexit f) → s.launches.find G.lid = some L →
    let x := activeLanes G p f.ge f.gn f.g
    let e : Inflight := { id := G.nextIid, split := p.id, pc := 0 }
    let q : Split := { p with am := p.am &&& ~~~x, own := p.own &&& ~~~x
                              stack := p.stack.map (fun a => { a with outer := a.outer &&& ~~~x, alt := a.alt &&& ~~~x }) }
    let ended : Group := { G with splits := [], frame := none, entry := none, causes := [], ending := true, infl := [e], nextIid := G.nextIid + 1 }
    ∃ t H, exec (.taskexit f) s = .next t ∧ t.group s.cur.core s.cur.slot = some H
      ∧ t = { s with cores := t.cores, parts := t.parts, launches := t.launches } ∧ (∀ j, j ≠ G.lid → t.launches.find j = s.launches.find j)
      ∧ (x = 0 → H = { G with splits := [p.issued s.cycle (p.pc + 8)], infl := [e], nextIid := G.nextIid + 1 } ∧ t.launches.find G.lid = some L)
      ∧ (x ≠ 0 → t.launches.find G.lid = some { L with closed := true })
      ∧ (x ≠ 0 → p.own &&& ~~~x = 0 → H = ended)
      ∧ (x ≠ 0 → p.own &&& ~~~x ≠ 0 → advance q.am q.stack (p.pc + 8) = none → H = ended)
      ∧ (∀ am st pc, x ≠ 0 → p.own &&& ~~~x ≠ 0 → advance q.am q.stack (p.pc + 8) = some (am, st, pc) →
          H = { G with splits := [{ q.issued s.cycle pc with am := am, stack := st }], infl := [e], nextIid := G.nextIid + 1 })

/-- Rules R387 and R392: CONT writes the group's continuation record, its resume PC, mask, uniform registers and the vector registers that it names, and
parks it until its counter reaches its target; the group ends. A counter that is reached makes a parked continuation ready. -/
def Clause.Parking : Prop :=
  (∀ s G p (f : FmtR) e, Calm s G p → p.am ≠ 0 → Legal s G (.cont f) → p.stack = [] →
    let nv := contNv f
    let va := (G.uni f.a.toNat).toNat
    let counter := (G.uni f.b.toNat).toNat
    let n := 640 + nv * 4 * G.w
    let pa := e.pa va
    Named s G { rv := regRun f.d.toNat nv } → va % 128 = 0 → counter % 8 = 0 → va < 2 ^ 57 → counter < 2 ^ 57 →
    s.pagesHeld (some s.cur.core) G.part ((contPages va n counter).map (fun x => (x.1, !x.2, x.2))) = false → s.pathHeld G.part va n = false →
    s.contReach s.cur G.part (contPages va n counter) = (s, true) → (s.conts.filter (fun x => x.2.part == G.part)).length < 4096 →
    e.vbase ≤ va → e.mig = none → pa % 128 = 0 → Memory.wf s.mem = true →
    (∀ i, 128 * i < n → (s.core s.cur.core).tlb.find? (fun (x : TlbEnt) => x.covers G.part (va + 128 * i)) = some e ∧ AtHome s s.cur.core (pa / 128 + i)) →
    ∃ t H, exec (.cont f) s = .next t ∧ t.group s.cur.core s.cur.slot = some H ∧ H.splits = [] ∧ H.ending = true
      ∧ t.conts.find s.nextId = some { cid := s.nextId, lid := G.lid, part := G.part, va := va, counter := counter, target := G.uni f.c.toNat, nv := nv, first := f.d.toNat }
      ∧ (∀ j, j ≠ s.nextId → t.conts.find j = s.conts.find j)
      ∧ (let word (i : Nat) : Nat := numOf (memBytes t.mem (pa + 8 * i) 8)
         word 0 = (p.pc + 8).toNat ∧ word 1 = (p.am &&& fullMask G.w).toNat ∧ word 13 = counter ∧ word 14 = (G.uni f.c.toNat).toNat
          ∧ (∀ i, i < 64 → word (16 + i) = (G.uni i).toNat)
          ∧ (∀ r l, r < nv → l < G.w → numOf (memBytes t.mem (pa + 640 + 4 * (r * G.w + l)) 4) = (G.vlane (f.d.toNat + r) l).toNat)
          ∧ ∀ a, a < pa ∨ pa + n ≤ a → memGet t.mem a = memGet s.mem a))
  ∧ (∀ s cid c e, s.conts.find cid = some c → c.ready = none → Mapped s c.part c.counter 8 e →
      (c.target.toNat ≤ numOf (memBytes s.mem (e.pa c.counter) 8) → ∃ t, exec (.continuationPoll cid) s = .next t
        ∧ t = { s with conts := s.conts.set cid { c with ready := some s.nextId }, nextId := s.nextId + 1 })
      ∧ (numOf (memBytes s.mem (e.pa c.counter) 8) < c.target.toNat → exec (.continuationPoll cid) s = .next s))

/-- Rules R379, R387 and R388: a ready continuation that is the one candidate, and that fits, is admitted as a team of one group with the state that its
record holds. -/
def Clause.Resuming : Prop :=
  ∀ s part cid prio o c L core, s.ranked part = [⟨prio, false, o, .cont cid⟩] → s.conts.find cid = some c → s.launches.find c.lid = some L →
    recGroups L.record ≤ 64 → s.placeFor part (.cont cid) = some core → s.unrecorded c.part → s.teams.find s.nextId = none → c.va % 128 = 0 →
    s.pathHeld c.part c.va (640 + 4 * c.nv * 64) = false →
    let w := recW L.record
    ∀ (word : Nat → W64), (∀ i, i < 80 + c.nv * w / 2 → ∃ e, Mapped s c.part (c.va + 8 * i) 8 e ∧ regionOf (e.pa (c.va + 8 * i)) = 0
      ∧ word i = w64 (numOf (memBytes s.mem (e.pa (c.va + 8 * i)) 8))) →
    ∃ t T g H, exec (.admission part) s = .next t ∧ t.conts = s.conts.erase cid ∧ t.teams.find s.nextId = some T ∧ T.state = .resident ∧ T.lid = c.lid
      ∧ T.index = fld (word 2) 32 32 ∧ T.core = core ∧ T.groups = 1 ∧ T.live = [fld (word 2) 24 8] ∧ T.lsz = recLsz L.record ∧ T.ls = []
      ∧ s.group core g = none ∧ t.group core g = some H ∧ H.lid = c.lid ∧ H.tid = s.nextId ∧ H.idx = fld (word 2) 24 8 ∧ H.tindex = fld (word 2) 32 32
      ∧ H.w = w ∧ H.resv = recReserve L.record ∧ H.part = c.part
      ∧ (let am := word 1 &&& fullMask w
         H.splits = [{ id := 0, pc := w64 (fld (word 0) 0 57), am := am, own := am, since := s.cycle }])
      ∧ (∀ i, i < 64 → H.uni i = word (16 + i)) ∧ (∀ i, i < 8 → H.pred i = word (5 + i) &&& fullMask w) ∧ (∀ i, 8 ≤ i → H.pred i = 0)
      ∧ (∀ i, i < 4 → (H.idxReg i).toNat = (word (3 + i / 2)).toNat / 2 ^ (32 * (i % 2)) % 2 ^ 32)
      ∧ (∀ r, r < c.nv → (H.vreg (c.first + r)).st = .mapped ∧ ∀ l, l < w →
          (H.vlane (c.first + r) l).toNat = (word (80 + (r * w + l) / 2)).toNat / 2 ^ (32 * (l % 2)) % 2 ^ 32)
      ∧ (∀ n, (∀ r, r < c.nv → n ≠ c.first + r) → H.vreg n = {}) ∧ (∀ n, H.treg n = {}) ∧ H.causes = [] ∧ H.frame = none ∧ H.walk = none ∧ H.remap = 0
      ∧ (∀ d h, ¬(d = core ∧ h = g) → t.group d h = s.group d h)
      ∧ t = { s with cores := t.cores, teams := t.teams, conts := t.conts, nextId := s.nextId + 3 }

/-! ### Command queues and task graphs -/

/-- Rules R371 and R375: a write of QWPTR sets the write pointer; a write of QCTL keeps its named fields, PART only while EN is 0, and one with EN = 0 clears
ERR and ESLOT. -/
def Clause.QueueRegisters : Prop :=
  ∀ s q (v : W64), q < 64 →
    let Q := s.queue q
    let rest (t : State) : Prop := t = { s with queues := t.queues } ∧ ∀ j, j ≠ q → t.queue j = s.queue j
    let fields (c : W64) (en : Nat) : Prop := fld c 63 1 = en ∧ fld c 8 1 = fld v 8 1 ∧ fld c 0 5 = fld v 0 5 ∧ fld c 9 51 = 0 ∧ fld c 5 3 = 0
      ∧ fld c 60 3 = if fld Q.ctl 63 1 = 1 then fld Q.ctl 60 3 else fld v 60 3
    (∃ t, exec (.qwptrWrite q v) s = .next t ∧ rest t ∧ t.queue q = { Q with wptr := BitVec.ofNat 32 (fld v 0 32) })
    ∧ (∃ t c, exec (.queueEnable q v) s = .next t ∧ rest t ∧ fields c 1 ∧ t.queue q = { Q with ctl := c })
    ∧ (∃ t c, exec (.queueDisable q v) s = .next t ∧ rest t ∧ fields c 0 ∧ t.queue q = { Q with ctl := c, err := 0, eslot := 0 })

/-- Rules R372, R373, R374 and R376: the packet at RPTR begins once its slots are there, no CWAIT is open, and, with BAR, the earlier packets are complete;
a bad type, header or packet, a WPTR beyond the queue's slots, and a slot that cannot be read, stop the queue in ERROR. That a bad header stops it even while
the packet would wait for BAR is the model's choice (log entry 88). -/
def Clause.PacketsBegin : Prop :=
  ∀ s q n (ws hs : List W64) s1 s2, let Q := s.queue q
    let h := ws.getD 0 0
    let avail := (Q.wptr - Q.rptr).toNat
    let typ := fld h 56 8
    Q.en = true → Q.err = 0 → avail ≠ 0 → Q.waits = false →
    (∀ i, i < 4 → s.pathHeld Q.part (Q.slotVa (Q.rptr.toNat + i)) 64 = false) →
    let stops (u : State) (e : Nat) : Prop := ∃ t, exec (.packetBegin q) s = .next t ∧ t.queue q = { Q with err := e, eslot := Q.rptr }
      ∧ t.replies = u.replies ++ (if fld Q.ctl 8 1 = 1 then [.queueError q] else []) ∧ t = { u with queues := t.queues, replies := t.replies }
    (Q.slots < avail → stops s 3)
    ∧ (avail ≤ Q.slots → s.readPacket Q 1 = (s1, none) → stops (s1.mcRecord 8 Q.part (Q.slotVa Q.rptr.toNat) 0 0) 4)
    ∧ (avail ≤ Q.slots → s.readPacket Q 1 = (s1, some hs) → hs.getD 0 0 = h →
        (typ = 0 ∨ 7 < typ → stops s1 1)
        ∧ (1 ≤ typ → typ ≤ 7 → headerBad h = true → stops s1 2)
        ∧ (1 ≤ typ → typ ≤ 7 → headerBad h = false → n = fld h 54 2 + 1 → n ≤ avail → (fld h 53 1 = 1 → Q.runs = []) → s1.readPacket Q n = (s2, some ws) →
            (packetBad ws = true → stops s2 2)
            ∧ ∀ u, packetBad ws = false → u.unrecorded Q.part →
                (if typ = 2 then s2.pathHeld Q.part (ws.getD 1 0).toNat 128 = false ∧ ∃ r, s2.readWords Q.part (ws.getD 1 0).toNat 16 = (u, some r) else u = s2) →
                ∃ t, exec (.packetBegin q) s = .next t
                ∧ t.queue q = { Q with
                    rptr := Q.rptr + BitVec.ofNat 32 n
                    runs := Q.runs ++ [{ rid := u.nextId, typ := typ, irq := fld h 52 1 == 1, tag := BitVec.ofNat 32 (fld h 0 32), words := ws, time := s.now }] }
                ∧ (∀ j, j ≠ q → t.queue j = s.queue j) ∧ t = { u with queues := t.queues, turn := (q + 1) % 64, nextId := u.nextId + 1 })
        ∧ (1 ≤ typ → typ ≤ 7 → headerBad h = false → avail < fld h 54 2 + 1 ∨ (fld h 53 1 = 1 ∧ Q.runs ≠ []) → exec (.packetBegin q) s = .next s1))

/-- Rules R372 and R373: the headers and words that stop a queue with code 2. -/
def Clause.PacketWords : Prop :=
  (∀ h : W64, let typ := fld h 56 8
    headerBad h = true ↔ fld h 51 1 ≠ 0 ∨ fld h 32 16 ≠ 0 ∨ (if typ = 5 then fld h 48 3 = 0 ∨ fld h 48 3 = 7 else fld h 48 3 ≠ 0)
      ∨ (typ ≠ 1 ∧ fld h 54 2 ≠ if typ = 6 then 1 else 0))
  ∧ ∀ ws : List W64, let w (i : Nat) : W64 := ws.getD i 0
    let typ := fld (w 0) 56 8
    let listed : Nat := if typ = 6 then 12 else if typ = 3 then 4 else if typ = 4 ∨ typ = 5 then 3 else if typ = 2 ∨ typ = 7 then 2 else 1
    let high := fld (w 1) 57 7 ≠ 0
    let odd (i : Nat) : Prop := fld (w i) 57 6 ≠ 0 ∨ fld (w (i + 1)) 57 7 ≠ 0 ∨ fld (w (i + 3)) 63 1 ≠ 0 ∨ fld (w i) 63 1 = 1
    let done := w 10
    1 ≤ typ → typ ≤ 7 →
    (packetBad ws = true ↔ (∃ i, listed ≤ i ∧ w i ≠ 0) ∨ (typ = 2 ∧ (high ∨ (w 1).toNat % 128 ≠ 0))
      ∨ (typ = 3 ∧ (high ∨ (w 1).toNat % 64 ≠ 0 ∨ fld (w 2) 32 32 ≠ 0 ∨ fld (w 2) 0 32 = 0 ∨ fld (w 3) 57 7 ≠ 0 ∨ (w 3).toNat % 16 ≠ 0))
      ∨ ((typ = 4 ∨ typ = 5 ∨ typ = 7) ∧ (high ∨ (w 1).toNat % 8 ≠ 0))
      ∨ (typ = 6 ∧ (2 < (w 1).toNat ∨ odd 2 ∨ odd 6 ∨ fld done 57 2 ≠ 0 ∨ (fld done 62 2 = 0 ∧ (fld done 59 3 ≠ 0 ∨ fld done 0 57 ≠ 0))
          ∨ (fld done 62 2 ≠ 0 ∧ (fld done 59 3 = 0 ∨ fld done 59 3 = 7)) ∨ 2 ≤ fld done 62 2 ∨ fld (w 11) 57 7 ≠ 0 ∨ (w 11).toNat % 8 ≠ 0)))

/-- Rule R373: what a packet that has begun does: NOP completes; LAUNCH hands its record to the Caravan; GRAPH starts a graph; CWAIT completes once its
counter has reached its target; CADD adds to its counter; TIMESTAMP writes the time of its begin; COPY enters an engine of the partition, on the core that
holds the fewest copies (the model's choice, log entry 90). -/
def Clause.PacketEffects : Prop :=
  ∀ s q (r : PRun) e, (s.queue q).runs.find? (fun x => x.rid == r.rid) = some r → s.unrecorded (s.queue q).part →
    let part := (s.queue q).part
    let w (i : Nat) : W64 := r.words.getD i 0
    let va := (w 1).toNat
    let counter := numOf (memBytes s.mem (e.pa va) 8)
    let handed (t : State) : Prop := (t.queue q).runs.find? (fun x => x.rid == r.rid) = some { r with begun := true }
    (r.typ = 1 → ∃ t, exec (.packetNop q r.rid) s = .next t ∧ PacketEnd s t q r ∧ t = { s with queues := t.queues, replies := t.replies })
    ∧ (r.typ = 2 → r.begun = false → let seq := ((s.part part).seq + 1) % 2 ^ 32
        ∃ t, exec (.packetLaunch q r.rid) s = .next t ∧ handed t ∧ t.submits = s.submits ++ [⟨s.nextId, part, .packet q r.rid r.irq, va, seq⟩]
          ∧ (t.part part).seq = seq ∧ t = { s with queues := t.queues, parts := t.parts, submits := t.submits, nextId := s.nextId + 1 })
    ∧ (r.typ = 3 → r.begun = false → ∃ t, exec (.packetGraph q r.rid) s = .next t ∧ handed t
        ∧ t.graphs.find s.nextId = some { gid := s.nextId, q := q, rid := r.rid, part := part, node := va, limit := fld (w 2) 0 32, status := (w 3).toNat }
        ∧ t = { s with queues := t.queues, graphs := t.graphs, nextId := s.nextId + 1 })
    ∧ (r.typ = 4 → Mapped s part va 8 e →
        ((w 2).toNat ≤ counter → ∃ t, exec (.packetCwait q r.rid) s = .next t ∧ PacketEnd s t q r
          ∧ t = { s with queues := t.queues, replies := t.replies, parts := t.parts } ∧ (regionOf (e.pa va) = 0 → t.parts = s.parts))
        ∧ (counter < (w 2).toNat → ∃ t, exec (.packetCwait q r.rid) s = .next t ∧ t = { s with parts := t.parts } ∧ (regionOf (e.pa va) = 0 → t = s)))
    ∧ (r.typ = 5 → Mapped s part va 8 e → ∃ t, exec (.packetCadd q r.rid) s = .next t ∧ PacketEnd s t q r
        ∧ t.mem = memSetAll s.mem (cellsAt (e.pa va) (bytesOf ((counter + (w 2).toNat) % 2 ^ 64) 8)))
    ∧ (r.typ = 7 → Mapped s part va 8 e → ∃ t, exec (.packetTimestamp q r.rid) s = .next t ∧ PacketEnd s t q r
        ∧ t.mem = memSetAll s.mem (cellsAt (e.pa va) (bytesOf r.time 8)))
    ∧ (∀ core u d, r.typ = 6 → r.begun = false → s.copyCore part = some core → ((s.core core).eng ((s.core core).pickEngine 0)).length < 32 →
        s.issueCopy { id := s.nextId, ticket := 0, tid := 0, lid := 0, part := part, core := core, slot := 0, gid := 0, split := 0, kind := fld (w 1) 0 2
                      src := (r.words.drop 2).take 4, dst := (r.words.drop 6).take 4, srec := [], drec := [], done := w 10, queue := some (q, r.rid) } =
          (u, some d) → u.unrecorded part → (∀ x ∈ d.owned, u.holders x.1 = []) →
        let eng := (u.core core).pickEngine 0
        ∃ t, exec (.packetCopy q r.rid) s = .next t ∧ handed t ∧ (t.core core).eng eng = (u.core core).eng eng ++ [d] ∧ d.kind = fld (w 1) 0 2
          ∧ d.src = (r.words.drop 2).take 4 ∧ d.dst = (r.words.drop 6).take 4 ∧ d.done = w 10 ∧ d.part = part ∧ d.queue = some (q, r.rid)
          ∧ (∀ x ∈ d.owned, t.owned x.1 = true)
          ∧ t = { u with queues := t.queues, cores := t.cores, hostHeld := t.hostHeld, l2 := t.l2, nextId := u.nextId + 1 })

/-- Rules R384 and R385: a graph's node is launched; when that launch completes, the successor that its result selects is next, and without one the
graph ends and its packet completes. -/
def Obligations.GraphNodes : Prop :=
  ∀ s g ws s1, s.graphs.find g.gid = some g → s.pathHeld g.part g.node 64 = false → (g.status ≠ 0 → s.pathHeld g.part g.status 16 = false) →
    (g.waiting = false → s.readWords g.part g.node 8 = (s1, some ws) → nodeBad ws = false → g.runs ≠ g.limit →
      let seq := ((s.part g.part).seq + 1) % 2 ^ 32
      ∃ t, exec (.graphNextNode g.gid) s = .next t ∧ t.graphs.find g.gid = some { g with last := g.node, words := ws, waiting := true, runs := g.runs + 1 }
        ∧ t.submits = s.submits ++ [⟨s.nextId, g.part, .graph g.gid, fld (ws.getD 0 0) 0 57, seq⟩]
        ∧ t = { s1 with graphs := t.graphs, parts := t.parts, submits := t.submits, nextId := s.nextId + 1 })
    ∧ (∀ l L, g.waiting = true → g.code = 1 ∨ g.code = 2 → g.lid = some l → s.launches.find l = some L →
        let i := if fld (g.words.getD 1 0) 6 2 = 0 then min L.result.toNat (fld (g.words.getD 1 0) 0 3 - 1)
          else if (g.words.getD 2 0).toNat ≤ L.result.toNat then 1 else 0
        let next := g.words.getD (3 + i) 0
        (next ≠ 0 → ∃ t, exec (.graphNextNode g.gid) s = .next t ∧ t = { s with graphs := t.graphs }
          ∧ t.graphs.find g.gid = some { g with node := next.toNat, waiting := false, lid := none, code := 0 })
        ∧ (∀ r, next = 0 → g.status = 0 → s.unrecorded (s.queue g.q).part → (s.queue g.q).runs.find? (fun x => x.rid == g.rid) = some r →
            ∃ t, exec (.graphNextNode g.gid) s = .next t ∧ t.graphs = s.graphs.erase g.gid ∧ PacketEnd s t g.q r
              ∧ t = { s with graphs := t.graphs, queues := t.queues, replies := t.replies }))

/-! ### The distributor, page faults and pre-emption -/

/-- Rules R38, R148, R379 and R380: where the one candidate is a launch whose next team, of one group, fits, ADMISSION places it: a team with its local
store, and a group whose one split stands at the record's entry with every lane active and the launch's arguments in its uniform registers. -/
def Clause.Admissions : Prop :=
  ∀ s part lid prio L c, s.ranked part = [⟨prio, true, lid, .next lid⟩] → s.launches.find lid = some L → L.lid = lid → recGang L.record = false →
    recPair L.record = false → recGroups L.record = 1 → s.unrecorded L.part → s.teams.find s.nextId = none →
    s.pickPlace part lid L.shape = some c →
    ∃ t T g H, exec (.admission part) s = .next t ∧ t.launches.find lid = some { L with next := L.next + 1 }
      ∧ t.teams.find s.nextId = some T ∧ T.lid = lid ∧ T.index = L.next ∧ T.core = c ∧ T.live = [0] ∧ T.state = .resident ∧ T.lsz = recLsz L.record ∧ T.ls = []
      ∧ (∀ k, k ≠ s.nextId → t.teams.find k = s.teams.find k) ∧ g < Config.groupSlots ∧ s.group c g = none ∧ t.group c g = some H
      ∧ H.lid = lid ∧ H.tid = s.nextId ∧ H.idx = 0 ∧ H.w = recW L.record ∧ H.resv = recReserve L.record ∧ H.part = L.part
      ∧ H.splits = [{ id := 0, pc := recEntry L.record, am := fullMask (recW L.record), own := fullMask (recW L.record), since := s.cycle }]
      ∧ (∀ i, H.uni i = L.args.getD i 0) ∧ (∀ i, H.vreg i = {} ∧ H.pred i = 0)
      ∧ (∀ d h, ¬(d = c ∧ h = g) → t.group d h = s.group d h)
      ∧ t = { s with cores := t.cores, teams := t.teams, launches := t.launches, nextId := s.nextId + 3 }

/-- Rules R383 and R394: a gang that is the one candidate has its head time noted, and is admitted whole where every team of it fits (each on a core or pair
of its own choice, log entry 126); one whose wait is over and that fits nowhere ends its launch with code 4; at the start of a period each allowance of a
partition is its budget less what was overdrawn. -/
def Clause.GangsAndBudgets : Prop :=
  (∀ s part lid prio L u, s.ranked part = [⟨prio, true, lid, .next lid⟩] → s.launches.find lid = some L → L.lid = lid → L.part = part →
    recGang L.record = true → recPair L.record = false → s.teams.all (fun e => e.2.state != .saved) = true → s.conts = [] → s.unrecorded part →
    ({ s with launches := s.launches.set lid { L with headTime := some (L.headTime.getD s.now) } } : State).admitAll lid (recTeams L.record - L.next) = some u →
    ∃ t, exec (.admission part) s = .next t ∧ t = { u with launches := t.launches } ∧ (∀ j, j ≠ lid → t.launches.find j = s.launches.find j)
      ∧ t.launches.find lid = some { L with headTime := some (L.headTime.getD s.now), next := recTeams L.record, draining := [] })
  ∧
  (∀ s lid L t0, s.launches.find lid = some L → L.waits = true → recGang L.record = true → L.headTime = some t0 →
    t0 + 1000 * recGwait L.record ≤ s.now → s.admitAll lid (recTeams L.record - L.next) = none →
    ∃ t, exec (.gangUnplaced lid) s = .next t ∧ t.launches.find lid = some { L with closed := true, code := 4, draining := [] }
      ∧ t = { s with launches := t.launches })
  ∧ (∀ s part, s.now / 1000 ≠ (s.part part).period → (s.part part).buffer = [] →
    let P := s.part part
    let b := P.pbud0
    let grant (n : Nat) (left : Int) : Int := max 0 ((n : Int) - max 0 (-left))
    ∃ t, exec (.budgetPeriod part) s = .next t ∧ t = { s with parts := t.parts, cores := t.cores }
      ∧ t.part part = { P with
          period := s.now / 1000, copyLeft := grant (256 * fld b 48 16) P.copyLeft, hostLeft := grant (256 * fld b 16 16) P.hostLeft
          migLeft := grant (fld b 0 16) P.migLeft, teleLeft := grant (64 * fld P.pbud1 0 16) P.teleLeft }
      ∧ (∀ c ∈ s.partCores part, (t.core c).termLeft = grant (min 2000 (fld b 32 16)) (s.core c).termLeft)
      ∧ ∀ c g, t.group c g = s.group c g)

/-- Rules R410, R413 and R414: a batch of one page is written to its slot of the partition's fault ring, whose write pointer and interrupt follow; an
answer lets the splits that sleep on the batch issue again, or, as a refusal, raise PAGE. -/
def Clause.BatchEvents : Prop :=
  (∀ s part b pg e, (s.part part).batches.find? (fun b => !b.written) = some b → b.pages = [pg] →
    let P := s.part part
    let size := 2 ^ (min (fld P.pfring 0 4) 8 + 6)
    let va := fld P.pfring 12 45 * 4096 + 32 * (P.pfwptr.toNat % size)
    (P.pfwptr - P.pfrptr).toNat + 1 ≤ size → s.pathHeld part (fld P.pfring 12 45 * 4096) (32 * size) = false → Mapped s part va 32 e →
    let entry := recBytes [w64 (pg.kind * 2 ^ 62 + 2 ^ 61 + pg.va), w64 (b.num * 2 ^ 48 + 2 ^ 32 + b.place), w64 b.launch, w64 b.ticket]
    ∃ t, exec (.faultBatchWrite part) s = .next t ∧ t.mem = memSetAll s.mem (cellsAt (e.pa va) entry)
      ∧ t.part part = { P with pfwptr := P.pfwptr + 1, batches := P.batches.map (fun x => if x.num = b.num then { x with written := true } else x)
                               hostLeft := (t.part part).hostLeft }
      ∧ t.replies = s.replies ++ [.faults part])
  ∧ (∀ s part (num : BitVec 16) (refuse : Bool) b, (s.part part).batches.find? (fun b => b.num == num.toNat) = some b →
    (∀ c ∈ s.copies, c.batch ≠ some num.toNat) →
    (∀ x ∈ s.teams, ∀ G ∈ x.2.savedGroups, ∀ p ∈ G.splits, p.batch ≠ some num.toNat) →
    let page := match b.pages with | x :: _ => (x.va, x.lane) | [] => (0, 0)
    let wake (p : Split) : Split := if p.batch = some num.toNat then
        (if refuse then { p with batch := none, wait := if p.wait = .fault then .ready else p.wait, stall := 8, refused := some page }
         else if p.wait = .fault then { p with batch := none, wait := .ready, stall := 8 } else { p with batch := none })
      else p
    ∃ t, exec (if refuse then .pfdoneRefuse part num else .pfdoneAnswer part num) s = .next t
      ∧ t.part part = { s.part part with batches := (s.part part).batches.filter (fun b => b.num != num.toNat) }
      ∧ (∀ c g, t.group c g = (s.group c g).map (fun G => if G.part = part then { G with splits := G.splits.map wake } else G))
      ∧ t = { s with cores := t.cores, teams := t.teams, parts := t.parts })

/-- Rules R29 and R411 to R413: a page that a load or a store finds without a translation checkpoints its group, which runs ahead of it with the
destinations unknown; without granules for them, or once run-ahead meets an instruction that it does not run, 512 instructions or 32 pages, the group is
as at the checkpoint, and its split sleeps on a batch of the pages met. -/
def Clause.RunsAhead : Prop :=
  let asleep (s t : State) (G : Group) (regs : Regs) (p q : Split) (pages : List FaultPage) : Prop :=
    let P := s.part G.part
    let seq := match s.launches.find G.lid with | some L => L.seq | none => 0
    (∃ H v, t.group s.cur.core s.cur.slot = some H
      ∧ H = { G with regs := { regs with v := v }, ra := none, reloads := [], infl := G.infl.filter (fun i => !i.ahead)
                     splits := [{ p with wait := .fault, stall := 4, batch := some P.nextBatch, word := none, since := q.since, aged := q.aged, doneAt := q.doneAt }] }
      ∧ ∀ n, v.get {} n = { regs.v.get {} n with pin := false })
    ∧ (t.part G.part).batches = P.batches ++ [⟨P.nextBatch, pages, s.placeOf s.cur.core s.cur.slot % 2 ^ 24, seq, 0, false⟩]
    ∧ (t.part G.part).nextBatch = (P.nextBatch + 1) % 65536 ∧ t = { s with cores := t.cores, parts := t.parts }
  (∀ s G p (f : FmtM) l (store : Bool), Calm s G p → G.preempt = none → G.inHandler = false → p.am ≠ 0 → f.ord = 0 →
    let k := sizeRegs f.size
    let i := if store then Instr.st f else .ld f
    let P := if store then planM f true k else { planM f true 0 with wv := regRun f.d.toNat k }
    let r := G.treg f.tr.toNat
    let o := G.offset f true l
    let va : Int := (fld r.w0 0 57 : Int) + o
    let pages : List FaultPage := [⟨if store then 1 else 0, va.toNat, l⟩]
    Legal s G i → Named s G P → lanesIn (activeLanes G p f.ge f.gn f.g) G.w = [l] → fld r.w1 63 1 = 1 → r.stale = false → 0 ≤ va → va < 2 ^ 57 →
    va % (sizeBytes f.size : Nat) = 0 → (o < 0 ∨ fld r.w2 0 36 ≤ o) → s.walkHeld (some s.cur.core) G.part va.toNat = false →
    s.translate (some s.cur.core) G.part va.toNat = (s, none) → fld (s.part G.part).pfring 63 1 = 1 →
    ∃ t, exec i s = .next t ∧ ((∃ H c, t.group s.cur.core s.cur.slot = some H ∧ H.ra = some c ∧ c.split = p ∧ c.pages = pages ∧ c.count = 0
        ∧ (∀ n, (c.regs.v.get {} n).st = (G.vreg n).st ∧ (c.regs.v.get {} n).val = (G.vreg n).val) ∧ c.regs = { G.regs with v := c.regs.v }
        ∧ (∀ d ∈ P.wv, H.unkLanes d = fullMask 64) ∧ H.splits = [p.issued s.cycle (p.pc + 8)] ∧ OnlySlots s t)
      ∨ (P.wv ≠ [] ∧ asleep s t G G.regs p p pages)))
  ∧ ∀ s G p (c : RunAhead) (f : FmtM) (g : FmtR) (h : FmtS) (i : Instr), s.group s.cur.core s.cur.slot = some G → G.splits = [p] → p.id = s.cur.split →
    G.ra = some c →
    G.preempt = none → Legal s G i →
    (i ∈ [.st f, .fence f, .awwait f, .atom f, .scatter f, .barwait g, .exit h, .cpy g, .launch g] ∨ 512 ≤ c.count ∧ i ∈ [.nop h, .add g, .ld f]
      ∨ 32 ≤ c.pages.length ∧ i ∈ [.nop h, .add g, .ld f]) →
    ∃ t, exec i s = .next t ∧ asleep s t G c.regs c.split p c.pages

/-- Rules R416 to R421 and R452: a request for a resident team tells its groups and takes a save slot; once the team is quiet its groups leave their slots
with their registers, and the team is SAVED, its save record in memory. -/
def Clause.SaveEvents : Prop :=
  (∀ s part (v : W64), fld v 63 1 = 0 → ∃ t, exec (.preemptRequest part v) s = .next t ∧ t = { s with parts := t.parts }
    ∧ t.part part = { s.part part with preq1 := v &&& 0xFFFFFFFF })
  ∧ (∀ s part (v : W64) L tid T n, fld v 63 1 = 1 → s.launchOf part (fld (s.part part).preq0 0 32) = some L →
    s.teams.find? (fun e => e.2.lid == L.lid && e.2.index == fld v 0 32 && e.2.cont.isNone && e.2.state == .resident) = some (tid, T) →
    s.teams.find tid = some T → T.gang = false → T.part = part → s.freeSave part T.saveSlots = some n →
    s.slotsFor [tid] = true → s.unrecorded part →
    ∃ t, exec (.preemptRequest part v) s = .next t ∧ t = { s with cores := t.cores, teams := t.teams, parts := t.parts }
      ∧ t.teams.find tid = some { T with state := .saving, saveSlot := some n }
      ∧ (t.part part).preq1 = v &&& 0x80000000FFFFFFFF ∧ (t.part part).slotsUsed = (s.part part).slotsUsed ++ (List.range T.saveSlots).map (fun i => n + i)
      ∧ ∀ c g G, s.group c g = some G →
          (G.tid = tid → ∃ H, t.group c g = some H ∧ H = { G with preempt := some s.now, stopped := H.stopped }) ∧ (G.tid ≠ tid → t.group c g = some G))
  ∧ (∀ s tid T g G n e, s.teams.find tid = some T → T.tid = tid → T.state = .saving → s.quietTeam T = true → T.wins = [] → T.pair = false → s.copies = [] →
    T.limit = T.base → T.lsz ≤ 2 ^ 19 → (s.core T.core).slots = [(g, G)] → G.tid = tid → G.regs.v = [] → G.arms = [] → G.idx < 64 → G.w ≤ 64 → T.saveSlot = some n →
    s.unrecorded T.part → (let va := fld (s.part T.part).savepool 22 35 * 2 ^ 22 + n * 2 ^ 22
      ∀ a, va ≤ a → a < va + 2 ^ 22 → a < 2 ^ 57 ∧ s.stackTlb0.find? (fun (e : TlbEnt) => e.covers T.part a) = some e ∧ s.regionOk (e.pa a) = true) →
    e.wr = true → e.mig = none →
    let word (t : State) (o : Nat) : Nat := numOf (memBytes t.mem (e.pa (fld (s.part T.part).savepool 22 35 * 2 ^ 22 + n * 2 ^ 22 + o)) 8)
    let at' := 0x290000 + 0x4000 * G.idx
    ∃ t T' H, exec (.teamSave tid) s = .next t ∧ (t.core T.core).slots = [] ∧ t.teams.find tid = some T' ∧ T'.state = .saved ∧ T'.ls = T.ls
      ∧ T'.saveSlot = some n ∧ T'.savedGroups = [H] ∧ H.gid = G.gid ∧ H.splits = G.splits ∧ H.regs = G.regs ∧ H.frame = G.frame
      ∧ (s.poison = [] → (∀ x ∈ s.teams, x.2.wins = []) → (∀ a, regionOf (e.pa a) ≠ 1) →
          word t 0 = s.seqOf T.lid % 2 ^ 32 + T.index % 2 ^ 32 * 2 ^ 32 ∧ word t 8 = T.groups % 2 ^ 64
          ∧ (∀ i, i < 64 → word t (at' + 0x1100 + 8 * i) = (G.uni i).toNat) ∧ (∀ i, i < 128 → word t (at' + 0x1300 + 8 * i) = (G.pred i).toNat)
          ∧ (∀ i, i < 8 → word t (at' + 0x1740 + 24 * i) = (G.treg i).w0.toNat ∧ word t (at' + 0x1748 + 24 * i) = (G.treg i).w1.toNat
              ∧ word t (at' + 0x1750 + 24 * i) = (G.treg i).w2.toNat)
          ∧ word t (at' + 0x1800) = G.deadread.toNat ∧ word t (at' + 0x1808) = G.sendstat.toNat ∧ word t (at' + 0x1828) = G.trapcause.toNat
          ∧ word t (at' + 0x1830) = G.trappc.toNat))

/-- Rules R363, R379, R421 and R422: a saved team of one group without rows, copies or held additions that is the one candidate, and that fits, is
admitted again: its group has its registers, MAPPED ones as SPILLED, PENDING and DELIVERED ones to be allocated, and its translation registers marked. -/
def Clause.TeamsResumed : Prop :=
  ∀ s part tid prio o T G c, s.ranked part = [⟨prio, false, o, .saved tid⟩] → s.teams.find tid = some T → T.pair = false → T.limit = T.base → T.held = [] →
    T.susp = [] → T.savedGroups = [G] → s.placeFor part (.saved tid) = some c → s.unrecorded T.part →
    ∃ t g H T', exec (.admission part) s = .next t ∧ s.group c g = none ∧ t.group c g = some H ∧ t.teams.find tid = some T'
      ∧ (∀ k, k ≠ tid → t.teams.find k = s.teams.find k) ∧ T'.state = .resident ∧ T'.core = c ∧ T'.ls = T.ls ∧ T'.lsBad = T.lsBad ∧ T'.savedGroups = []
      ∧ T'.saveSlot = none ∧ (∀ w, T'.wins.find w = (T.wins.find w).map (fun W => { W with st := [], need := [], mig := [] }))
      ∧ H = { G with regs := { G.regs with v := H.regs.v, t := H.regs.t }, walk := H.walk, unalloc := H.unalloc, admitted := H.admitted
                     preempt := none, stopped := false, safeMask := none
                     splits := G.splits.map (fun p => { p with pc := if p.wait = .safe then p.pc + 8 else p.pc, wait := .ready, waited := false, batch := none
                                                               stall := 8, since := s.cycle, aged := false, word := none }) }
      ∧ (∀ n, (H.vreg n).st = (if (G.vreg n).st = .mapped then .spilled else (G.vreg n).st) ∧ ((G.vreg n).st ≠ .mapped → H.vreg n = G.vreg n)
          ∧ ((G.vreg n).st = .pending ∨ (G.vreg n).st = .delivered → n ∈ H.unalloc))
      ∧ (∀ n, H.treg n = { G.treg n with stale := (H.treg n).stale } ∧ (fld (G.treg n).w1 63 1 = 1 → (H.treg n).stale = true))
      ∧ (t.part T.part).slotsUsed = (s.part T.part).slotsUsed.filter (fun x => !T.saveRun.contains x)
      ∧ (∀ d h, ¬(d = c ∧ h = g) → t.group d h = s.group d h)
      ∧ t = { s with cores := t.cores, teams := t.teams, parts := t.parts, nextId := s.nextId + 2 }

/-- Rule R424: a core that holds nothing, with no dirty byte and nothing on its way, is gated or retired, and its caches and TLB are empty. -/
def Clause.PowerGating : Prop :=
  ∀ s c (retire : Bool), s.coreIdle c = true → (s.core c).power = .live → (s.core c).homeq = [] → (s.core c).packets = [] → (∀ L ∈ (s.core c).l1, L.dirty = 0) →
    ∃ t, exec (.corePowerGate c retire) s = .next t ∧ (∀ d, d ≠ c → t.core d = s.core d) ∧ t = { s with cores := t.cores }
      ∧ t.core c = { s.core c with power := if retire then .retired else .gated, l1 := [], tlb := [], ccache := [], ccLaunch := [], fwd := [], prefs := [] }

/-- Rules R277, R281 and R451: a write of TLBINV starts an invalidation, or is ignored while one runs; it completes with no TLB entry of the partition
in its range, the translation registers of that range marked, and no line in an L1 of the partition (that lines of other pages go too is the model's
choice, log entry 82). -/
def Clause.Invalidations : Prop :=
  (∀ s part (v : W64), (fld (s.part part).tlbinv 63 1 = 1 → exec (.tlbinv part v) s = .next s)
    ∧ (fld (s.part part).tlbinv 63 1 = 0 → ∃ t x, exec (.tlbinv part v) s = .next t ∧ t = { s with parts := t.parts }
        ∧ t.part part = { s.part part with tlbinv := x } ∧ fld x 60 4 = fld v 60 4 ∧ fld x 41 19 = 0 ∧ fld x 0 41 = fld v 0 41))
  ∧ (∀ s part, fld (s.part part).tlbinv 63 1 = 1 → (∀ x ∈ s.teams, x.2.part = part → ∀ w ∈ x.2.wins, w.2.st = []) →
    (∀ c ∈ s.partCores part, (s.core c).homeq = [] ∧ ∀ L ∈ (s.core c).l1, L.dirty = 0) →
    let v := (s.part part).tlbinv
    let n := if fld v 62 1 = 1 then 2 ^ 57 else pageBytes (fld v 60 2)
    let lo := if fld v 62 1 = 1 then 0 else fld v 0 41 * 65536 / n * n
    let hit (e : TlbEnt) : Prop := e.part = part ∧ e.vbase < lo + n ∧ lo < e.vbase + pageBytes e.size
    ∃ t, exec (.tlbinvComplete part) s = .next t ∧ fld (t.part part).tlbinv 63 1 = 0
      ∧ (∀ e, (e ∈ t.stackTlb0 ↔ e ∈ s.stackTlb0 ∧ ¬hit e) ∧ (e ∈ t.stackTlb1 ↔ e ∈ s.stackTlb1 ∧ ¬hit e))
      ∧ ∀ c ∈ s.partCores part, (t.core c).l1 = [] ∧ (∀ e, e ∈ (t.core c).tlb ↔ e ∈ (s.core c).tlb ∧ ¬hit e)
          ∧ ∀ g G, s.group c g = some G → G.part = part → ∃ H, t.group c g = some H ∧ ∀ k, H.treg k =
              if lo ≤ fld (G.treg k).w0 0 57 ∧ fld (G.treg k).w0 0 57 < lo + n ∧ fld (G.treg k).w1 63 1 = 1 then { G.treg k with stale := true } else G.treg k)

/-- Rule R450: a core that holds nothing passes to the partition of its partner, with its histograms and both partitions' counters cleared; a write that
would part the pair moves no core, and the pair passes together when the partner, which holds nothing either, is written with the same number (how such
a write is remembered is the model's choice, log entry 77); a core that holds something stays. -/
def Clause.PartitionMap : Prop :=
  ∀ s n (v : W64), n < 192 →
    let p := fld v 0 3
    let old := s.partOf n
    let m := partnerOf n
    (s.coreIdle n = false → exec (.partmapWrite n v) s = .next s)
    ∧ (s.coreIdle n = true → s.partOf m = p → ∃ t, exec (.partmapWrite n v) s = .next t ∧ t.partOf n = p ∧ (∀ j, j ≠ n → t.partOf j = s.partOf j)
        ∧ t = { s with partmap := t.partmap, cores := t.cores, parts := t.parts, partAsk := s.partAsk.erase n }
        ∧ (old ≠ p → (t.core n).hist = [] ∧ (t.part old).pcnt = [] ∧ (t.part p).pcnt = [])
        ∧ (old = p → t = { s with partmap := t.partmap, partAsk := s.partAsk.erase n }))
    ∧ (s.coreIdle n = true → s.partOf m ≠ p → s.partAsk.find m = some p → s.coreIdle m = true → ∃ t, exec (.partmapWrite n v) s = .next t
        ∧ t.partOf n = p ∧ t.partOf m = p ∧ (∀ j, j ≠ n → j ≠ m → t.partOf j = s.partOf j)
        ∧ t = { s with partmap := t.partmap, cores := t.cores, parts := t.parts, partAsk := (s.partAsk.erase n).erase m }
        ∧ (t.core m).hist = [] ∧ (t.part p).pcnt = [] ∧ (t.part (s.partOf m)).pcnt = [] ∧ (old ≠ p → (t.core n).hist = [] ∧ (t.part old).pcnt = []))
    ∧ (s.coreIdle n = true → s.partOf m ≠ p → ¬(s.partAsk.find m = some p ∧ s.coreIdle m = true) →
        exec (.partmapWrite n v) s = .next { s with partAsk := s.partAsk.set n p })

/-! ### Control registers and management -/

/-- Rules R10, R449, R450 and R454: after a write of a control register, its named fields hold what was written and its reserved bits zero; TRAPEND is cleared
bit by bit where ones are written; a write of a read-only register changes nothing. -/
def Obligations.RegisterWrites : Prop :=
  ∀ s (v : W64),
    let sum (fs : List (Nat × Nat)) : Nat := (fs.map (fun f => fld v f.1 f.2 * 2 ^ f.1)).sum
    (∀ p o fs, p < 8 → ((o, fs) ∈ [(0x00, [(1, 1)]), (0x08, [(60, 4), (25, 27)]), (0x18, [(63, 1), (3, 54)]), (0x28, [(63, 1), (12, 45), (0, 4)]), (0x38, [(0, 32)]),
          (0x48, [(22, 35), (0, 12)]), (0x50, [(0, 64)]), (0x58, [(0, 16)]), (0x68, [(0, 32)]), (0xF8, [(63, 1), (0, 5)]), (0x100, [(12, 45)]),
          (0x108, [(63, 1), (0, 4)]), (0x118, [(0, 32)]), (0x140, [(12, 45)]), (0x148, [(63, 1), (0, 4)]), (0x158, [(0, 32)])]
        ∨ ∃ i, i < 16 ∧ ((o, fs) = (0x200 + 8 * i, [(63, 1), (0, 13)]) ∨ (o, fs) = (0x300 + 8 * i, [(0, 64)]))) →
      let off := 0x800000 + 0x10000 * p + o
      ∃ t, exec (.registerWrite off v) s = .next t ∧ (t.readReg off).toNat = sum fs ∧ t = { s with parts := t.parts } ∧ ∀ q, q ≠ p → t.part q = s.part q)
    ∧ (∀ p, p < 8 → let off := 0x800000 + 0x10000 * p
        exec (.registerWrite (off + 0x30) v) s = .next s ∧ exec (.registerWrite (off + 0x60) v) s = .next s
        ∧ ∃ t, exec (.registerWrite (off + 0x20) v) s = .next t ∧ t.readReg (off + 0x20) = s.readReg (off + 0x20) &&& ~~~(v &&& 0xFFFFFFFF)
            ∧ t = { s with parts := t.parts })
    ∧ (∀ o fs, (o, fs) ∈ [(0x400, [(12, 45)]), (0x408, [(63, 1), (0, 4)]), (0x418, [(0, 32)])] →
        ∃ t, exec (.registerWrite o v) s = .next t ∧ (t.readReg o).toNat = sum fs ∧ t = { s with mc := t.mc } ∧ t.mc.wptr = s.mc.wptr)
    ∧ (∀ i, i < 64 → i % 8 = 0 → ∃ t, exec (.registerWrite (0x20000 + 8 * i) v) s = .next t ∧ t = { s with regions := t.regions }
        ∧ (t.readReg (0x20000 + 8 * i)).toNat = sum [(63, 1), (48, 9), (32, 9), (0, 32)])
    ∧ (∀ p, p < 1024 → ∃ t, exec (.registerWrite (0x10000 + 8 * p) v) s = .next t ∧ (t.readReg (0x10000 + 8 * p)).toNat = fld v 0 12
        ∧ t = { s with uroute := t.uroute, lostSince := t.lostSince, xacts := t.xacts })
    ∧ (∃ t, exec (.registerWrite 0x800 v) s = .next t ∧ t = { s with pkgid := t.pkgid }
        ∧ ((∀ j, j < 12 → (s.port j).state = 0) → t.pkgid.toNat = fld v 0 10) ∧ ((∃ j, j < 12 ∧ (s.port j).state ≠ 0) → t = s))

/-- Rules R463, R464 and R465: the SMBus commands: STATUS is answered always; in recovery READ, WRITE and ATTEST are refused; READ and WRITE act on the
control space; a report holds its nonce, the time and an uncompressed key's first byte; the flash in force may not be written; a command of
another code is refused. -/
def Obligations.ManagementCommands : Prop :=
  ∀ s : State, let say (r : Reply) : State := { s with replies := s.replies ++ [r] }
    exec .status s = .next (say (.status s.warm s.rstate (Config.imageVersion s.image)))
    ∧ (∀ code, code ∉ [0x01, 0x02, 0x03, 0x10, 0x11, 0x20, 0x30, 0x31] → perform (.command code) s = .next (say .nack))
    ∧ (s.rstate = .recovery → ∀ off v n, exec (.read off) s = .next (say .nack) ∧ exec (.write off v) s = .next (say .nack) ∧ exec (.attest n) s = .next (say .nack))
    ∧ (s.rstate = .running → ∀ off v, off < 2 ^ 32 → exec (.read off) s = .next (say (.value (s.readReg off)))
        ∧ exec (.write off v) s = exec (.registerWrite off v) (say .ack))
    ∧ (∀ nonce : List Byte, s.rstate = .running → nonce.length = 32 → ∃ b, exec (.attest nonce) s = .next (say (.bytes b)) ∧ b.length = 460
        ∧ b.take 4 = [1, 0, 0, 0] ∧ (b.drop 8).take 32 = nonce ∧ (b.drop 40).take 8 = bytesOf s.now 8 ∧ b.getD 192 0 = 4)
    ∧ (∀ off n, n ≤ 32 → off + n ≤ 2 ^ 32 → exec (.flashrd off n) s = .next (say (.bytes ((List.range n).map (fun i => s.flash.get 0xFF (off + i))))))
    ∧ (∀ off (bytes : List Byte), bytes.length ≤ 32 → off + bytes.length ≤ 2 ^ 32 →
        ∃ t, exec (.flashwr off bytes) s = .next t ∧ (s.flashHeld off bytes.length = true → t = say .nack)
        ∧ (s.flashHeld off bytes.length = false → t = { s with flash := t.flash, replies := s.replies ++ [.ack] }
            ∧ ∀ a, t.flash.get 0xFF a = if off ≤ a ∧ a < off + bytes.length then bytes.getD (a - off) 0 else s.flash.get 0xFF a))

/-! ### Links, the host and telemetry -/

/-- Rules R434, R435, R439, R440 and R462: the states of a UALink port: which state each event takes it from and to, and what it keeps; a lane
repairs where it has CRCTHR errors in the last millisecond; a first training ends at a width that nothing fixes; the configuration block records
a repair where its new copy verifies. -/
def Clause.PortStates : Prop :=
  ∀ s j (v : W64) lane (celuno : Bool), j < 12 →
    let p := s.port j
    let narrow := if p.width = 4 then 2 else if p.width = 2 then 1 else 0
    let down : Port := { ctl := p.ctl, spare := p.spare, replaced := p.replaced }
    let retrains (i : Instr) : Prop := (narrow ≠ 0 → PortOnly s s i j { p with state := 1, width := narrow, fails := 0 }) ∧ (narrow = 0 → PortOnly s s i j down)
    let lately := p.errs.filter (fun e => decide (s.now < e.2 + 1000000))
    let hurt : Port := { p with errs := lately ++ [(lane, s.now)], replays := min (p.replays + 1) (2 ^ 32 - 1), buffer := true }
    (lane < 5 →
      (p.state = 2 ∨ p.state = 3 → PortOnly s s (.flitCrcFail j lane) j { hurt with state := 3 })
      ∧ (p.state = 4 → PortOnly s s (.flitCrcFail j lane) j { hurt with fails := p.fails + 1 }))
    ∧ (5 ≤ lane → exec (.flitCrcFail j lane) s = .next s)
    ∧ (p.state = 3 → PortOnly s s (.replayDrained j) j { p with state := 2, buffer := false })
    ∧ (p.state = 4 → PortOnly s s (.replayDrained j) j { p with state := 5, buffer := false, fails := 0 })
    ∧ (fld p.ctl 62 1 = 1 → p.peer = true → p.spare = false → lane < 5 → max 1 (fld p.ctl 0 8) ≤ (lately.filter (fun e => e.1 == lane)).length →
        (p.state = 2 → PortOnly s s (.laneRepairTrigger j lane) j { p with state := 5, lane := lane })
        ∧ (p.state = 3 → PortOnly s s (.laneRepairTrigger j lane) j { p with state := 4, lane := lane, fails := 0 }))
    ∧ (fld p.ctl 62 1 = 0 ∨ p.peer = false ∨ p.spare = true ∨ (lately.filter (fun e => e.1 == lane)).length < max 1 (fld p.ctl 0 8) →
        PortOnly s s (.laneRepairTrigger j lane) j p)
    ∧ (p.state = 4 → max 1 (fld p.ctl 8 8) ≤ p.fails → PortOnly s s (.replayFailThreshold j) j { p with state := 5, fails := 0 })
    ∧ (p.state = 4 → p.fails < max 1 (fld p.ctl 8 8) → PortOnly s s (.replayFailThreshold j) j p)
    ∧ (p.state = 5 → retrains (.repairFail j)
        ∧ ∃ f c m, PortOnly s { s with flash := f, cfgCopy := c, mirror := m } (.repairComplete j) j
            { p with state := if p.buffer then 3 else 2, spare := true, replaced := p.lane, errs := [] }
          ∧ let b := Config.fieldWith s.identity s.mirror j p.lane
            let r := Config.copyRange (1 - s.cfgCopy)
            let good : Prop := Config.vendorVerifies b = true ∧ Config.fieldVerifies s.identity b = true ∧ b.length = r.2
            (good → c = 1 - s.cfgCopy ∧ m = b ∧ ∀ a, f.get 0xFF a = if r.1 ≤ a ∧ a < r.1 + r.2 then b.getD (a - r.1) 0 else s.flash.get 0xFF a)
            ∧ (¬good → f = s.flash ∧ c = s.cfgCopy ∧ m = s.mirror))
    ∧ (p.state = 2 ∨ p.state = 3 → p.spare = true ∨ p.peer = false ∨ fld p.ctl 62 1 = 0 → retrains (.laneFail j))
    ∧ (p.state = 1 →
        (p.width ≠ 0 → PortOnly s s (.trainingComplete j celuno) j { p with state := if p.buffer then 3 else 2, peer := celuno, replays := 0 })
        ∧ (p.width = 0 → ∃ w, w ∈ [4, 2, 1] ∧ PortOnly s { s with free := s.free + 1 } (.trainingComplete j celuno) j
            { p with state := if p.buffer then 3 else 2, width := w, peer := celuno, replays := 0 }))
    ∧ PortOnly s s (.portDown j) j down
    ∧ (let ctl := w64 (fld v 62 2 * 2 ^ 62 + fld v 0 16)
       (fld v 63 1 = 0 → PortOnly s s (.upctlEnable j v) j { down with ctl := ctl })
       ∧ (fld v 63 1 = 1 → fld p.ctl 63 1 = 0 → PortOnly s s (.upctlEnable j v) j { p with ctl := ctl, state := 1, width := 0 })
       ∧ (fld v 63 1 = 1 → fld p.ctl 63 1 = 1 → ∃ t, exec (.upctlEnable j v) s = .next t ∧ t.port j = { p with ctl := ctl }
            ∧ (∀ k, k ≠ j → t.port k = s.port k) ∧ t = { s with ports := t.ports }))

/-- Rules R434, R437 and R440: a transaction is performed once, in the sequence of its flow, and one performed before gets its stored response again;
one of no byte, of more than 256, or outside the package's enabled memory is unsupported; those to a package that no usable port has reached
for 10 ms are lost, and a SEND among them answers STALE. -/
def Clause.Transactions : Prop :=
  (∀ s src flow seq a (b : List Byte), let next := s.flowIn.get 0 (2048 * src + flow)
    let done (t : State) (r : Reply) : Prop := t.flowIn.get 0 (2048 * src + flow) = next + 1 ∧ t.replies = s.replies ++ [r]
      ∧ t.responses = s.responses ++ [((src, flow, seq), r)]
    (next < seq → ∀ op, exec (.ualinkTransactionReceive src flow seq op) s = .next s)
    ∧ (∀ r op, seq < next → s.responses.find? (fun x => x.1 == (src, flow, seq)) = some r →
        exec (.ualinkTransactionReceive src flow seq op) s = .next { s with replies := s.replies ++ [r.2] })
    ∧ (seq = next → b = [] ∨ 256 < b.length ∨ s.deviceOk a b.length = false → ∀ op, op = .write a b [] ∨ op = .read a b.length →
        ∃ t, exec (.ualinkTransactionReceive src flow seq op) s = .next t ∧ done t .unsupported
          ∧ t = { s with flowIn := t.flowIn, replies := t.replies, responses := t.responses })
    ∧ (seq = next → b ≠ [] → s.deviceOk a b.length = true → a % 128 + b.length ≤ 128 → s.owned (a / 128) = false → s.holders (a / 128) = [] → s.poison = [] →
      s.migAt a = none →
        (∃ t, exec (.ualinkTransactionReceive src flow seq (.write a b [])) s = .next t ∧ done t .ack ∧ t.mem = memSetAll s.mem (cellsAt a b))
        ∧ (∃ t, exec (.ualinkTransactionReceive src flow seq (.read a b.length)) s = .next t ∧ done t (.bytes (memBytes s.mem a b.length)) ∧ t.mem = s.mem)))
  ∧ (∀ s pkg t0, s.lostSince.find pkg = some t0 → s.usablePorts pkg = [] →
      (s.now < t0 + 10000000 → exec (.transactionLossTimeout pkg) s = .next s)
      ∧ (t0 + 10000000 ≤ s.now → ∃ t, exec (.transactionLossTimeout pkg) s = .next t ∧ t.xacts = s.xacts.filter (fun x => x.pkg != pkg)
          ∧ t.deliveries = s.deliveries.map (fun d => if d.outcome = none ∧ placePkg (capPlace d.cap) = pkg then { d with outcome := some 1 } else d)))

/-- Rules R335, R442, R443, R444 and R445: what the host writes and reads through BAR 2 takes effect at its home where the partition's table maps it, and is
unsupported elsewhere; its coherent writes and reads reach the same memory, and a line that it read it may hold. -/
def Obligations.HostAccesses : Prop :=
  ∀ s part a (b : List Byte), b ≠ [] → a % 128 + b.length ≤ 128 → s.owned (a / 128) = false → s.holders (a / 128) = [] → s.poison = [] → s.hostWaits part = false →
    let n := b.length
    let spare : Prop := ∀ p, s.hostPart a = some p → s.hostWaits p = false
    (s.hostMay part a n true = true → s.migAt a = none →
      ∃ t, exec (.hostBar2Write part a b) s = .next t ∧ t.mem = memSetAll s.mem (cellsAt a b) ∧ (t.part part).hostLeft = (s.part part).hostLeft - n
        ∧ t.replies = s.replies)
    ∧ (s.hostMay part a n true = false → exec (.hostBar2Write part a b) s = .next { s with replies := s.replies ++ [.unsupported] })
    ∧ (s.hostMay part a n false = true → ∃ t, exec (.hostBar2Read part a n) s = .next t ∧ t = { s with replies := t.replies, parts := t.parts }
        ∧ t.replies = s.replies ++ [.bytes (memBytes s.mem a n)] ∧ (t.part part).hostLeft = (s.part part).hostLeft - n)
    ∧ (s.hostMay part a n false = false →
        exec (.hostBar2Read part a n) s = .next { s with replies := s.replies ++ [.unsupported, .bytes (List.replicate n 0xFF)] })
    ∧ (regionOf a = 0 → s.deviceOk a n = true → s.migAt a = none → spare → ∃ t, exec (.cxlCacheWrite a b) s = .next t ∧ t.mem = memSetAll s.mem (cellsAt a b)
      ∧ t.hostHeld = s.hostHeld)
    ∧ (regionOf a = 0 → s.deviceOk (a / 128 * 128) 128 = true → spare → ∃ t, exec (.hostCxlMemRead a) s = .next t
        ∧ t = { s with replies := t.replies, hostHeld := t.hostHeld, parts := t.parts }
        ∧ t.replies = s.replies ++ [.bytes (memBytes s.mem (a / 128 * 128) 128)] ∧ a / 128 ∈ t.hostHeld ∧ ∀ l ∈ s.hostHeld, l ∈ t.hostHeld)

/-- Rules R447, R453 and R458: PC_SAMPLE at a slot's phase records its one group's split; a corrected error is counted, and recorded where the count becomes a
multiple of THR; a package other than the reference takes the reference's time, and its time never goes back. That the phase goes by the
core's number in its stack and that a LOGINT above 24 acts as 24 is the model's choice (log entry 94), as are PART 0 and PLACE 0 of the KIND 11
record (log entry 96), and that package 0 is the reference and that a package ahead of it holds its time (log entry 97). -/
def Clause.SamplesAndTime : Prop :=
  (∀ s core islot g G q e, islot < 4 → (s.core core).power = .live → (s.core core).slots = [(g, G)] → g % 4 = islot → G.splits = [q] → s.late = [] →
    let P := s.part (s.partOf core)
    let every := 2 ^ min 24 (max 8 (fld P.sampctl 0 5))
    let due := s.cycle % every = (7 * (core % 96) + islot) % every
    let R := P.sample
    let size := 2 ^ (min (fld R.ctl 0 4) 12 + 8)
    let va := fld R.base 12 45 * 4096 + 32 * (R.wptr.toNat % size)
    (fld P.sampctl 63 1 = 0 ∨ ¬due → exec (.pcSample core islot) s = .next s)
    ∧ (fld P.sampctl 63 1 = 1 → due → fld R.ctl 63 1 = 1 → (R.wptr - R.rptr).toNat < size → fld P.pbud1 0 16 = 0 → P.buffer = [] →
        Mapped s (s.partOf core) va 32 e →
        let src := core / 96 * 2 ^ 13 + core % 96 * 2 ^ 6 + islot
        let L := (s.launches.find G.lid).elim 0 (fun L => L.seq)
        ∃ t, exec (.pcSample core islot) s = .next t ∧ (t.part (s.partOf core)).sample = { R with wptr := R.wptr + 1 }
          ∧ t.mem = memSetAll s.mem (cellsAt (e.pa va) (recBytes [w64 s.now, w64 (src * 2 ^ 48 + 2 ^ 40 + L % 2 ^ 32), w64 (fld q.pc 0 57),
              w64 (g * 2 ^ 8 + q.id * 2 ^ 6 + s.stallCode core g G q)]))))
  ∧ (∀ s place lo pa, (place, lo) ∈ [(ErrPlace.hbm, 48), (.l2, 32), (.ls, 16)] →
    let c := fld s.cecount lo 16
    let n := min (c + 1) 65535
    let thr := fld s.cecount 0 16
    ∃ t, exec (.correctedError place pa) s = .next t ∧ fld t.cecount lo 16 = n ∧ (∀ k, k < 4 → 16 * k ≠ lo → fld t.cecount (16 * k) 16 = fld s.cecount (16 * k) 16)
      ∧ (thr = 0 ∨ n = c ∨ n % thr ≠ 0 → t = { s with cecount := t.cecount })
      ∧ (thr ≠ 0 → n ≠ c → n % thr = 0 → Checkable s → Checked s t 11 0 pa 0 (Config.syndrome pa)))
  ∧ (∀ s ns, (fld s.pkgid 0 10 = 0 → exec (.timestampSync ns) s = .next s)
    ∧ (fld s.pkgid 0 10 ≠ 0 → ∃ t, exec (.timestampSync ns) s = .next t ∧ t = { s with ts0 := t.ts0, tsCycle := t.tsCycle }
        ∧ ∀ k, ({ t with cycle := t.cycle + k } : State).now = max s.now (ns + k / 2)))

/-- Rule R454: an event is counted by each of its partition's counters that selects it, and by no other; an issue is one of event 1, and for 64 lanes
one of event 2 too; each cycle is counted once for each live split in the state that a counter of event 3 selects. -/
def Clause.Counters : Prop :=
  (∀ (s : State) p evt n i, i < 16 → let sel := (s.part p).pcsel.get 0 i
    ((s.count p evt n).part p).pcnt.get 0 i = (s.part p).pcnt.get 0 i + (if fld sel 63 1 = 1 ∧ fld sel 0 8 = evt ∧ evt ≠ 0 then w64 n else 0)
    ∧ (∀ q, q ≠ p → (s.count p evt n).part q = s.part q) ∧ s.count p evt n = { s with parts := (s.count p evt n).parts })
  ∧ (∀ s G p f i, Calm s G p → p.am ≠ 0 → Legal s G (.nop f) → i < 16 → let sel := (s.part G.part).pcsel.get 0 i
    ∃ t, exec (.nop f) s = .next t ∧ (t.part G.part).pcnt.get 0 i = (s.part G.part).pcnt.get 0 i
      + (if fld sel 63 1 = 1 ∧ (fld sel 0 8 = 1 ∨ fld sel 0 8 = 2 ∧ G.w = 64) then 1 else 0))
  ∧ (∀ (s : State) p i, p < 8 → i < 16 → s.late = [] → (∀ e ∈ s.parts, fld e.2.sampctl 63 1 = 0) → let sel := (s.part p).pcsel.get 0 i
    let live := ((List.range Config.coresPerPackage).map (fun c => if s.partOf c = p then
      ((s.core c).slots.map (fun e => (e.2.splits.filter (fun q => s.stallCode c e.1 e.2 q = fld sel 8 5)).length)).sum else 0)).sum
    fld sel 63 1 = 1 → fld sel 0 8 = 3 →
      ((s.elapse 1).part p).pcnt.get 0 i = (s.part p).pcnt.get 0 i + w64 live ∧ (s.elapse 1).cycle = s.cycle + 1)

/-- Rules R221, R261, R290, R292, R331, R415, R440 and R456: a machine-check record, its ring off or full, or its slot owned by a copy; the records
of a poisoned granule that a read finds or a part of a granule is written to, of a local-store word of which a part is written, of an
accumulator row that an error strikes, and of a transaction declared lost. -/
def Clause.MachineChecks : Prop :=
  (∀ (s : State) kind part pa place synd, let t := s.mcRecord kind part pa place synd
    (Checkable s → Checked s t kind part pa place synd)
    ∧ (s.late = [] → fld s.mc.ctl 63 1 = 0 ∨ s.mc.full = true →
        t = { s with mc := { s.mc with drop := w32 (min (s.mc.drop.toNat + 1) (2 ^ 32 - 1)) } })
    ∧ (s.late = [] → fld s.mc.ctl 63 1 = 1 → s.mc.full = false → s.owned (s.mc.slot / 128) = true → ∃ r, t = { s with late := [r] } ∧ r.ring = 0
        ∧ r.words = [w64 s.now, w64 (kind * 2 ^ 56 + part * 2 ^ 53 + pa % 2 ^ 52), w64 (place % 2 ^ 24), synd]))
  ∧ (∀ s part g b, Checkable s → s.poison = [g] → b ≠ [] → s.owned (g / 4) = false → s.holders (g / 4) = [] → s.hostWaits part = false → s.migAt (32 * g) = none →
      (s.hostMay part (32 * g) 32 false = true → ∃ t, exec (.hostBar2Read part (32 * g) 32) s = .next t ∧ Checked s t 1 part (32 * g) 0 (Config.syndrome (32 * g)))
      ∧ (s.hostMay part (32 * g) b.length true = true → b.length < 32 → s.mc.slot / 32 ≠ g → ∃ t, exec (.hostBar2Write part (32 * g) b) s = .next t
          ∧ Checked { s with mem := memSetAll s.mem (cellsAt (32 * g) b) } t 2 part (32 * g) 0 0 ∧ t.poison = [g])
      ∧ (s.hostMay part (32 * g) b.length true = true → b.length = 32 → ∃ t, exec (.hostBar2Write part (32 * g) b) s = .next t
          ∧ t.mc = s.mc ∧ t.mem = memSetAll s.mem (cellsAt (32 * g) b) ∧ t.poison = []))
  ∧ (∀ (s : State) tid T o b place g, Checkable s → s.teams.find tid = some T → T.wins = [] → T.lsBad = [g] → 0 < b.length → o < 8 * g + 8 → 8 * g < o + b.length →
      let t := s.lsWrite tid o b place
      (o ≤ 8 * g → 8 * g + 8 ≤ o + b.length → t.mc = s.mc ∧ t.mem = s.mem ∧ t.teams.find tid = some { T with ls := lsSet T.ls o b, lsBad := [] })
      ∧ (8 * g < o ∨ o + b.length < 8 * g + 8 → Checked s t 12 T.part (8 * g + T.lsBase) place 0
          ∧ t.teams.find tid = some { T with ls := lsSet T.ls o b }))
  ∧ (∀ s c row, Checkable s → row < 512 → (s.core c).marks.get 0 row ≠ 1 → ∃ t, perform (.strike (.row c row)) s = .next t
      ∧ Checked s t 5 (s.partOf c) row (s.placeOf c 0) 0 ∧ (t.core c).marks.get 0 row = 2)
  ∧ (∀ s pkg t0 x a b m, Checkable s → s.xacts = [x] → x.pkg = pkg → x.op = .write a b m → s.lostSince.find pkg = some t0 → t0 + 10000000 ≤ s.now →
      s.usablePorts pkg = [] → (∀ e ∈ s.cores, e.2.slots = [] ∧ e.2.homeq = []) →
      ∃ t, exec (.transactionLossTimeout pkg) s = .next t ∧ t.xacts = []
        ∧ Checked s t 10 (s.partOf x.core) (2 ^ 50 + pkg * 2 ^ 40 + a % 2 ^ 40) (s.placeOf x.core x.slot) 0)

/-- Rule R167: the state code of a live split: the lowest of those that apply. A split that a stop of its group holds at its next instruction has code
3 (the model's choice, log entry 83). -/
def Clause.StallCodes : Prop :=
  ∀ (s : State) c g G (p : Split), let code := s.stallCode c g G p
    let idle : Prop := G.entry = none ∧ ∀ f, G.frame = some f → f.split = p.id
    let i := (s.core c).islots.get {} (g % 4)
    (p.stall = 0 → p.since = s.cycle → code = 0)
    ∧ (p.stall ≠ 0 ∨ p.since ≠ s.cycle →
      (∀ f, G.frame = some f → f.split ≠ p.id → code = 1)
      ∧ (∀ q, G.entry = some q → q.split ≠ p.id → code = 1)
      ∧ (∀ q, G.frame = none → G.entry = some q → q.split = p.id → code = 2)
      ∧ (idle → G.stopped = true → p.quiet = false → code = 3)
      ∧ (idle → G.stopped = false →
        (∀ o pa ids, (p.wait = .safe → code = 3) ∧ (p.wait = .fault → code = 4) ∧ (p.wait = .merge → code = 5) ∧ (p.wait = .barrier o → code = 6)
          ∧ (p.wait = .arrival o ∨ p.wait = .counter pa → code = 7) ∧ (p.wait = .drain o ∨ p.wait = .term ids ∨ p.wait = .alloc → code = 14))
        ∧ (p.wait = .ready → 5 ≤ p.stall → p.stall ≤ 7 → code = p.stall)
        ∧ (p.wait = .ready → p.stall < 5 ∨ 8 ≤ p.stall → p.word = none → code = 8)
        ∧ (p.wait = .ready → 9 ≤ p.stall → p.stall ≤ 14 → p.word ≠ none → code = p.stall)
        ∧ (p.wait = .ready → p.stall < 5 ∨ p.stall = 8 ∨ 15 ≤ p.stall → p.word ≠ none →
            (i.since < s.cycle → s.cycle < i.busy → i.cur.map (·.1) ≠ some g → code = 16)
            ∧ (s.cycle ≤ i.since ∨ i.busy ≤ s.cycle ∨ i.cur.map (·.1) = some g → code = 15))))

/-! ### Statements of several clauses -/

/-- Rules R60 and R61: a word that fails a word check raises ILLEGAL before anything else, whatever the mask and the guard, and has no other effect. -/
def Obligations.IllegalBeforeAll : Prop :=
  Clause.IllegalFirst ∧ Clause.DecodeChecks

/-- Rules R75 to R80: the arithmetic, address, logic and shift instructions complete with the results that the rules give, for every operand. -/
def Obligations.IntegerArithmetic : Prop :=
  Clause.ElementArithmetic ∧ Clause.Multiply ∧ Clause.Divide ∧ Clause.AddressAndLogic ∧ Clause.Shifts

/-- Rules R81 to R87 and R91: bit fields, counts, term counts, compares, predicate logic, selects, and every immediate form. -/
def Obligations.BitInstructions : Prop :=
  Clause.BitFields ∧ Clause.TermCount ∧ Clause.ComparesAndSelects ∧ Clause.ImmediateForms

/-- Rules R31 and R88 to R90: MOV, MOVI, MOVX and MOVXW. -/
def Obligations.MovesComplete : Prop :=
  Clause.Moves ∧ Clause.IndexedMoves

/-- Rules R127, R129 to R133, R154 and R155: `advance`, every control instruction on the mask, the mask stack and the PC, and the merge of two splits. -/
def Obligations.ControlFlow : Prop :=
  Clause.Advance ∧ Clause.NoIssueWithoutLanes ∧ Clause.Conditionals ∧ Clause.Merge ∧ Clause.Loops ∧ Clause.Calls

/-- Rules R33 to R37, R58, R137 and R140 to R143: what system registers read as, and what SREAD, SWRITE, CLK, NOP and SAFEPT do. -/
def Obligations.SystemRegisterAccess : Prop :=
  Clause.SystemReads ∧ Clause.SystemRegisters ∧ Clause.SystemWrites

/-- Rules R172 to R178: the instructions across lanes, for integers and for floats. -/
def Obligations.LaneInstructions : Prop :=
  Clause.LaneExchange ∧ Clause.Votes ∧ Clause.IntegerReductions ∧ Clause.FloatReductions

/-- Rules R94 to R101, R116, R118 to R122 and R124: the float instructions, the values that codes stand for, rounding, the functions, and what is written. -/
def Obligations.FloatInstructionsComplete : Prop :=
  Clause.FloatValues ∧ Clause.FloatCodes ∧ Clause.FloatRounding ∧ Clause.FloatFunctions ∧ Clause.FloatInstructions

/-- Rules R157, R400, R401, R405 and R408: a cause enters the handler with its registers saved, the group's other splits held, or ends the group where there is no handler. -/
def Obligations.ExceptionEntry : Prop :=
  Clause.TakeException ∧ Clause.OthersHeld ∧ Clause.EndWithoutHandler

/-- Rules R138, R140, R156 and R416: EXIT, and SAFEPT while a pre-emption request is pending. -/
def Obligations.ExitAndSafePoint : Prop :=
  Clause.Exit ∧ Clause.SafePoint

/-- Rules R20, R188, R190, R191 and R199: ARM, CAP, PLACE, SCOPE and DISARM. -/
def Obligations.Capabilities : Prop :=
  Clause.ArmRegister ∧ Clause.CapabilityReads ∧ Clause.DisarmRegister

/-- Rules R186, R187, R192 to R195 and R197: SEND, what its delivery does to the receiver, and what its outcome does to the sender. -/
def Obligations.Sends : Prop :=
  Clause.SendDelivery ∧ Clause.Deliveries ∧ Clause.SendOutcomes

/-- Rules R53, R159 and R276, and log entry 3: which move a step makes, and what an instruction fetch reads. -/
def Obligations.FetchesAndTurns : Prop :=
  Clause.StepAlone ∧ Clause.FetchReads

/-- Rules R19, R20, R161, R163 and R314: an instruction in flight writes its registers as it completes, ages saturate, and a counter wait reads again. -/
def Obligations.CompletionsAndAges : Prop :=
  Clause.Completion ∧ Clause.AgesAndPolls

/-- Rules R32, R401 to R403, R405 and R416: a pending cause is taken at a boundary, a waiting entry gets its handler bank, and a group is stopped by force. -/
def Obligations.CausesAndForce : Prop :=
  Clause.CausesTaken ∧ Clause.ForcedStop

/-- Rules R56, R269, R291, R294, R295, R298, R299 and R401: LD and LDC issue with the accesses of their lanes; and where an access, of these or of the other memory instructions, traps. -/
def Obligations.Loads : Prop :=
  Clause.LoadIssues ∧ Clause.AccessTraps

/-- Rules R135, R269, R271, R284, R297, R298, R305, R321, R330 and R336: ST issues with its bytes, and ordered accesses. -/
def Obligations.Stores : Prop :=
  Clause.StoreIssues ∧ Clause.OrderedAccesses

/-- Rules R283 to R285, R301 to R304, R313 and R329: GATHER and SCATTER through the collector, and ATOM, ATOMG and CADD at their homes. -/
def Obligations.CollectedAndAtomic : Prop :=
  Clause.CollectedAccesses ∧ Clause.AtomicsIssue

/-- Rules R16, R271, R276, R277, R283, R294, R305, R306, R315, R325 and R330: FENCE, TRANSLATE and REMAPLD. -/
def Obligations.FencesAndDescriptors : Prop :=
  Clause.Fences ∧ Clause.ReleaseFences ∧ Clause.Descriptors

/-- Rules R264, R265, R282, R309, R310, R331, R333 and R337: stash windows, the lines that come and go, and lines that copies and migrations move. -/
def Obligations.StashAccesses : Prop :=
  Clause.StashWindows ∧ Clause.StashLines

/-- Rules R267, R268, R311, R312 and R314: arrival words and counters. -/
def Obligations.ArrivalAndCounterWaits : Prop :=
  Clause.ArrivalWords ∧ Clause.CounterWaits

/-- Rules R119, R296, R298, R302, R303, R305 and R325: a read in flight returns its data, and the new value that each atomic operation gives. -/
def Obligations.ReadsReturn : Prop :=
  Clause.DataReturns ∧ Clause.AtomicValues

/-- Rules R269, R290, R292, R321, R331 and R436 to R438: a write takes effect at its home, or is sent to another package and acknowledged. -/
def Obligations.WritesComplete : Prop :=
  Clause.WritesReachHome ∧ Clause.WritesToPackages

/-- Rules R269, R270, R272, R284 to R286, R301, R329 and R330: L1 fills and evictions, the packets of the collector, and promotion probes. -/
def Obligations.LinesPacketsProbes : Prop :=
  Clause.L1Lines ∧ Clause.Packets ∧ Clause.Probes

/-- Rules R209, R214, R221, R224, R236 and R240 to R242: TLDW and TLDWS issue, and the weights enter their bank. -/
def Obligations.WeightLoadsComplete : Prop :=
  Clause.WeightLoads ∧ Clause.LoadEvents

/-- Rules R112 to R115, R203, R206, R210, R212 to R215, R218 to R220, R223, R228, R230, R236, R243 to R245 and R247 to R249: TMMA, TMMAQ and TFEED issue, the entries of the term queue start and complete, and what a multiply adds and how long it takes. -/
def Obligations.MultipliesComplete : Prop :=
  Clause.Multiplies ∧ Clause.EntryEvents ∧ Clause.MultiplySums ∧ Clause.CrestGroups ∧ Clause.CrestTimes

/-- Rules R102, R214, R223, R224, R226, R229, R230, R236, R237, R247 to R250 and R400: TZERO, TDRAIN, THIST and TWAIT, the elements of a drain, and the allocation of rows. -/
def Obligations.RowsComplete : Prop :=
  Clause.RowInstructions ∧ Clause.DrainedElements ∧ Clause.RowAllocation

/-- Rules R105 to R110, R217, R223, R251 to R254 and R461: TWIN, TBOUND, TRECODE and TDECODE, and the gating of the array's clock. -/
def Obligations.TermValuesAndGating : Prop :=
  Clause.TermValues ∧ Clause.RecodedElements ∧ Clause.ArrayGating

/-- Rules R345, R348, R349, R358, R359 and R361: the copy instructions, STAGE and CPYSTAT. -/
def Obligations.CopyInstructions : Prop :=
  Clause.CopiesIssue ∧ Clause.CopyChecks ∧ Clause.StagesAndStatus

/-- Rules R331, R342 to R344, R346, R349 to R354, R356, R357, R360, R361 and R397: how a copy starts, what its chunks hold and where they go, how it completes and fails, and how a schedule issues copies. -/
def Obligations.CopyProgress : Prop :=
  Clause.CopyEvents ∧ Clause.CopyLayouts ∧ Clause.ChunkContents ∧ Clause.RiceCodes ∧ Clause.ScheduledRepeats

/-- Rules R366 to R369 and R390: LAUNCH, the acceptance of a record, and the completion of a launch. -/
def Obligations.LaunchesRun : Prop :=
  Clause.LaunchesIssue ∧ Clause.LaunchesAccepted ∧ Clause.LaunchesComplete

/-- Rules R138, R368, R391 and R393: POST, its application, and TASKEXIT. -/
def Obligations.TaskResults : Prop :=
  Clause.Posts ∧ Clause.TaskExit

/-- Rules R379, R387, R388 and R392: CONT parks its group as a continuation, which is polled, and admitted again with the state of its record. -/
def Obligations.Continuations : Prop :=
  Clause.Parking ∧ Clause.Resuming

/-- Rules R371 to R376: the registers of a command queue, how a packet begins, and what it does. -/
def Obligations.CommandQueues : Prop :=
  Clause.QueueRegisters ∧ Clause.PacketsBegin ∧ Clause.PacketWords ∧ Clause.PacketEffects

/-- Rules R38, R148, R379, R380, R383 and R394: the admission of a team, of a gang as a whole, a gang that fits nowhere, and the budgets of a period. -/
def Obligations.AdmissionAndBudgets : Prop :=
  Clause.Admissions ∧ Clause.GangsAndBudgets

/-- Rules R29, R410 to R414: how page faults are met by run-ahead, written to the fault ring, and answered. -/
def Obligations.FaultBatches : Prop :=
  Clause.BatchEvents ∧ Clause.RunsAhead

/-- Rules R363, R379, R416 to R422 and R452: how a team is asked to leave, saved, and admitted again. -/
def Obligations.TeamsSaved : Prop :=
  Clause.SaveEvents ∧ Clause.TeamsResumed

/-- Rules R277, R281, R424, R450 and R451: power gating, invalidation of translations, and the partition map. -/
def Obligations.PowerAndMaps : Prop :=
  Clause.PowerGating ∧ Clause.Invalidations ∧ Clause.PartitionMap

/-- Rules R434, R435, R437, R439, R440 and R462: the states of a port, and the transactions between packages. -/
def Obligations.LinksAndTransactions : Prop :=
  Clause.PortStates ∧ Clause.Transactions

/-- Rules R167, R221, R290, R292, R331, R415, R440, R447, R453, R454, R456 and R458: samples, corrected errors and the timestamp, the event counters, machine-check records, and state codes. -/
def Obligations.Telemetry : Prop :=
  Clause.SamplesAndTime ∧ Clause.Counters ∧ Clause.MachineChecks ∧ Clause.StallCodes
end

