-- ==== Sys2Proof/Laws/Encoding.lean ====
section
/-! SUPPORT. The encoder and the decoder agree, format by format. -/

namespace Sys2Proof

/-- An immediate is its three parts. -/
theorem imm_parts (x : BitVec 23) : x.extractLsb' 16 7 ++ x.extractLsb' 15 1 ++ x.extractLsb' 0 15 = x := by
  apply BitVec.eq_of_getLsbD_eq
  intro i hi
  simp only [BitVec.getLsbD_append, BitVec.getLsbD_extractLsb', Nat.zero_add]
  by_cases h1 : i < 15
  · simp [h1]
  · by_cases h2 : i < 16
    · have : i = 15 := by omega
      subst this; simp
    · have h3 : ¬ i - 15 < 1 := by omega
      have h4 : 16 + (i - 15 - 1) = i := by omega
      have h5 : i - 15 - 1 < 7 := by omega
      simp [h1, h3, h4, h5]

/-- The fields of an encoded word of format R are those it was made of. -/
theorem decodeR_encodeR (op : BitVec 8) (f : FmtR) : decodeR (encodeR op f) = f := by
  cases f
  simp only [decodeR, encodeR, FmtR.mk.injEq]
  refine ⟨?_, ?_, ?_, ?_, ?_, ?_, ?_, ?_, ?_, ?_, ?_, ?_, ?_, ?_, ?_, ?_, ?_⟩ <;>
  simp (disch := decide) only [BitVec.extractLsb'_append_eq_of_le, BitVec.extractLsb'_append_eq_of_add_le, BitVec.extractLsb'_eq_self, Nat.reduceSub]

/-- The opcode of an encoded word of format R. -/
theorem opcode_encodeR (op : BitVec 8) (f : FmtR) : opcode (encodeR op f) = op.toNat := by
  simp (disch := decide) only [opcode, encodeR, BitVec.extractLsb'_append_eq_of_le, BitVec.extractLsb'_eq_self, Nat.reduceSub]

/-- The fields of an encoded word of format K are those it was made of. -/
theorem decodeK_encodeK (op : BitVec 8) (f : FmtK) : decodeK (encodeK op f) = f := by
  cases f
  simp only [decodeK, encodeK, FmtK.mk.injEq]
  refine ⟨?_, ?_, ?_, ?_, ?_, ?_, ?_, ?_, ?_⟩ <;>
  simp (disch := decide) only [BitVec.extractLsb'_append_eq_of_le, BitVec.extractLsb'_append_eq_of_add_le, BitVec.extractLsb'_eq_self, Nat.reduceSub]

/-- The opcode of an encoded word of format K. -/
theorem opcode_encodeK (op : BitVec 8) (f : FmtK) : opcode (encodeK op f) = op.toNat := by
  simp (disch := decide) only [opcode, encodeK, BitVec.extractLsb'_append_eq_of_le, BitVec.extractLsb'_eq_self, Nat.reduceSub]

/-- The fields of an encoded word of format B are those it was made of. -/
theorem decodeB_encodeB (op : BitVec 8) (f : FmtB) : decodeB (encodeB op f) = f := by
  cases f
  simp only [decodeB, encodeB, FmtB.mk.injEq]
  refine ⟨?_, ?_, ?_, ?_, ?_, ?_, ?_⟩ <;>
  simp (disch := decide) only [BitVec.extractLsb'_append_eq_of_le, BitVec.extractLsb'_append_eq_of_add_le, BitVec.extractLsb'_eq_self, Nat.reduceSub]

/-- The opcode of an encoded word of format B. -/
theorem opcode_encodeB (op : BitVec 8) (f : FmtB) : opcode (encodeB op f) = op.toNat := by
  simp (disch := decide) only [opcode, encodeB, BitVec.extractLsb'_append_eq_of_le, BitVec.extractLsb'_eq_self, Nat.reduceSub]

/-- The fields of an encoded word of format X are those it was made of. -/
theorem decodeX_encodeX (op : BitVec 8) (f : FmtX) : decodeX (encodeX op f) = f := by
  cases f
  simp only [decodeX, encodeX, FmtX.mk.injEq]
  refine ⟨?_, ?_, ?_, ?_, ?_, ?_, ?_, ?_, ?_, ?_, ?_, ?_⟩ <;>
  simp (disch := decide) only [BitVec.extractLsb'_append_eq_of_le, BitVec.extractLsb'_append_eq_of_add_le, BitVec.extractLsb'_eq_self, Nat.reduceSub]

/-- The opcode of an encoded word of format X. -/
theorem opcode_encodeX (op : BitVec 8) (f : FmtX) : opcode (encodeX op f) = op.toNat := by
  simp (disch := decide) only [opcode, encodeX, BitVec.extractLsb'_append_eq_of_le, BitVec.extractLsb'_eq_self, Nat.reduceSub]

/-- The fields of an encoded word of format M are those it was made of. -/
theorem decodeM_encodeM (op : BitVec 8) (f : FmtM) : decodeM (encodeM op f) = f := by
  cases f
  simp only [decodeM, encodeM, FmtM.mk.injEq]
  refine ⟨?_, ?_, ?_, ?_, ?_, ?_, ?_, ?_, ?_, ?_, ?_, ?_, ?_, ?_, ?_, ?_, ?_, ?_⟩ <;>
  simp (disch := decide) only [BitVec.extractLsb'_append_eq_of_le, BitVec.extractLsb'_append_eq_of_add_le, BitVec.extractLsb'_eq_self, Nat.reduceSub]

/-- The opcode of an encoded word of format M. -/
theorem opcode_encodeM (op : BitVec 8) (f : FmtM) : opcode (encodeM op f) = op.toNat := by
  simp (disch := decide) only [opcode, encodeM, BitVec.extractLsb'_append_eq_of_le, BitVec.extractLsb'_eq_self, Nat.reduceSub]

/-- The fields of an encoded word of format S are those it was made of. -/
theorem decodeS_encodeS (op : BitVec 8) (f : FmtS) : decodeS (encodeS op f) = f := by
  cases f
  simp only [decodeS, encodeS, FmtS.mk.injEq]
  refine ⟨?_, ?_, ?_, ?_, ?_, ?_, ?_, ?_, ?_, ?_, ?_, ?_⟩ <;>
  simp (disch := decide) only [BitVec.extractLsb'_append_eq_of_le, BitVec.extractLsb'_append_eq_of_add_le, BitVec.extractLsb'_eq_self, Nat.reduceSub]

/-- The opcode of an encoded word of format S. -/
theorem opcode_encodeS (op : BitVec 8) (f : FmtS) : opcode (encodeS op f) = op.toNat := by
  simp (disch := decide) only [opcode, encodeS, BitVec.extractLsb'_append_eq_of_le, BitVec.extractLsb'_eq_self, Nat.reduceSub]

/-- The fields of an encoded word of format I are those it was made of. -/
theorem decodeI_encodeI (op : BitVec 8) (f : FmtI) : decodeI (encodeI op f) = f := by
  cases f
  simp only [decodeI, encodeI, FmtI.mk.injEq]
  refine ⟨?_, ?_, ?_, ?_, ?_, ?_, ?_, ?_, ?_, ?_, ?_, ?_⟩ <;>
  simp (disch := decide) only [BitVec.extractLsb'_append_eq_of_le, BitVec.extractLsb'_append_eq_of_add_le, BitVec.extractLsb'_eq_self, Nat.reduceSub, imm_parts]

/-- The opcode of an encoded word of format I. -/
theorem opcode_encodeI (op : BitVec 8) (f : FmtI) : opcode (encodeI op f) = op.toNat := by
  simp (disch := decide) only [opcode, encodeI, BitVec.extractLsb'_append_eq_of_le, BitVec.extractLsb'_eq_self, Nat.reduceSub]

/-- A word is its opcode and its fields of format R. -/
theorem encodeR_decodeR (w : W64) : encodeR (w.extractLsb' 56 8) (decodeR w) = w := by
  apply BitVec.eq_of_getLsbD_eq
  intro i hi
  simp only [encodeR, decodeR, BitVec.getLsbD_append, BitVec.getLsbD_extractLsb']
  interval_cases i <;> simp

/-- A word is its opcode and its fields of format K. -/
theorem encodeK_decodeK (w : W64) : encodeK (w.extractLsb' 56 8) (decodeK w) = w := by
  apply BitVec.eq_of_getLsbD_eq
  intro i hi
  simp only [encodeK, decodeK, BitVec.getLsbD_append, BitVec.getLsbD_extractLsb']
  interval_cases i <;> simp

/-- A word is its opcode and its fields of format B. -/
theorem encodeB_decodeB (w : W64) : encodeB (w.extractLsb' 56 8) (decodeB w) = w := by
  apply BitVec.eq_of_getLsbD_eq
  intro i hi
  simp only [encodeB, decodeB, BitVec.getLsbD_append, BitVec.getLsbD_extractLsb']
  interval_cases i <;> simp

/-- A word is its opcode and its fields of format X. -/
theorem encodeX_decodeX (w : W64) : encodeX (w.extractLsb' 56 8) (decodeX w) = w := by
  apply BitVec.eq_of_getLsbD_eq
  intro i hi
  simp only [encodeX, decodeX, BitVec.getLsbD_append, BitVec.getLsbD_extractLsb']
  interval_cases i <;> simp

/-- A word is its opcode and its fields of format M. -/
theorem encodeM_decodeM (w : W64) : encodeM (w.extractLsb' 56 8) (decodeM w) = w := by
  apply BitVec.eq_of_getLsbD_eq
  intro i hi
  simp only [encodeM, decodeM, BitVec.getLsbD_append, BitVec.getLsbD_extractLsb']
  interval_cases i <;> simp

/-- A word is its opcode and its fields of format S. -/
theorem encodeS_decodeS (w : W64) : encodeS (w.extractLsb' 56 8) (decodeS w) = w := by
  apply BitVec.eq_of_getLsbD_eq
  intro i hi
  simp only [encodeS, decodeS, BitVec.getLsbD_append, BitVec.getLsbD_extractLsb']
  interval_cases i <;> simp

/-- A word is its opcode and its fields of format I. -/
theorem encodeI_decodeI (w : W64) : encodeI (w.extractLsb' 56 8) (decodeI w) = w := by
  apply BitVec.eq_of_getLsbD_eq
  intro i hi
  simp only [encodeI, decodeI, BitVec.getLsbD_append, BitVec.getLsbD_extractLsb']
  interval_cases i <;> simp

end Sys2Proof
end

