-- ==== Sys2Proof/Laws/Tab.lean ====
section
/-! SUPPORT. Reading a sparse table after a change. -/

namespace Sys2Proof

variable {α : Type}

@[simp] theorem Tab.get_nil (d : α) (k : Nat) : Tab.get [] d k = d := rfl

@[simp] theorem Tab.find_nil (k : Nat) : Tab.find ([] : Tab α) k = none := rfl

@[simp] theorem Tab.get_set_same (t : Tab α) (d a : α) (k : Nat) : (t.set k a).get d k = a := by
  induction t with
  | nil => simp [Tab.set, Tab.get]
  | cons e t ih =>
    obtain ⟨j, b⟩ := e
    simp only [Tab.set]
    split
    · simp [Tab.get]
    · split
      · simp [Tab.get]
      · have : j ≠ k := by omega
        simp [Tab.get, this, ih]

theorem Tab.get_set_ne (t : Tab α) (d a : α) {j k : Nat} (h : k ≠ j) : (t.set j a).get d k = t.get d k := by
  induction t with
  | nil => simp [Tab.set, Tab.get, Ne.symm h]
  | cons e t ih =>
    obtain ⟨i, b⟩ := e
    simp only [Tab.set]
    split
    · have : ¬ j = k := fun e => h e.symm
      simp [Tab.get, this]
    · split
      · subst_vars
        simp [Tab.get, Ne.symm h]
      · simp only [Tab.get]; split <;> simp_all

theorem Tab.get_set (t : Tab α) (d a : α) (j k : Nat) : (t.set j a).get d k = if k = j then a else t.get d k := by
  by_cases h : k = j
  · subst h; simp
  · simp [h, Tab.get_set_ne]

@[simp] theorem Tab.find_set_same (t : Tab α) (a : α) (k : Nat) : (t.set k a).find k = some a := by
  induction t with
  | nil => simp [Tab.set, Tab.find]
  | cons e t ih =>
    obtain ⟨j, b⟩ := e
    simp only [Tab.set]
    split
    · simp [Tab.find]
    · split
      · simp [Tab.find]
      · have : j ≠ k := by omega
        simp [Tab.find, this, ih]

theorem Tab.find_set_ne (t : Tab α) (a : α) {j k : Nat} (h : k ≠ j) : (t.set j a).find k = t.find k := by
  induction t with
  | nil => simp [Tab.set, Tab.find, Ne.symm h]
  | cons e t ih =>
    obtain ⟨i, b⟩ := e
    simp only [Tab.set]
    split
    · have : ¬ j = k := fun e => h e.symm
      simp [Tab.find, this]
    · split
      · subst_vars
        simp [Tab.find, Ne.symm h]
      · simp only [Tab.find]; split <;> simp_all

theorem Tab.find_set (t : Tab α) (a : α) (j k : Nat) : (t.set j a).find k = if k = j then some a else t.find k := by
  by_cases h : k = j
  · subst h; simp
  · simp [h, Tab.find_set_ne]

end Sys2Proof
end

