-- ==== Sys2Proof/Laws/State.lean ====
section
/-! SUPPORT. Reading the state after a change: one lemma for each field and change, and the reads of cores, groups and partitions. -/

namespace Sys2Proof.Machine

@[simp] theorem setCore_cycle (s : State) (c : Nat) (k : Core) : (s.setCore c k).cycle = s.cycle := rfl
@[simp] theorem updCore_cycle (s : State) (c : Nat) (f : Core → Core) : (s.updCore c f).cycle = s.cycle := rfl
@[simp] theorem setGroup_cycle (s : State) (c g : Nat) (G : Group) : (s.setGroup c g G).cycle = s.cycle := rfl
@[simp] theorem updGroup_cycle (s : State) (c g : Nat) (f : Group → Group) : (s.updGroup c g f).cycle = s.cycle := by unfold State.updGroup; split <;> rfl
@[simp] theorem updPart_cycle (s : State) (p : Nat) (f : Part → Part) : (s.updPart p f).cycle = s.cycle := rfl
@[simp] theorem count_cycle (s : State) (p e n : Nat) : (s.count p e n).cycle = s.cycle := by unfold State.count; dsimp only; split <;> rfl
@[simp] theorem updTeam_cycle (s : State) (t : Nat) (f : Team → Team) : (s.updTeam t f).cycle = s.cycle := by unfold State.updTeam; split <;> rfl
@[simp] theorem updLaunch_cycle (s : State) (l : Nat) (f : Launch → Launch) : (s.updLaunch l f).cycle = s.cycle := by unfold State.updLaunch; split <;> rfl
@[simp] theorem updQueue_cycle (s : State) (q : Nat) (f : Queue → Queue) : (s.updQueue q f).cycle = s.cycle := rfl
@[simp] theorem updPort_cycle (s : State) (q : Nat) (f : Port → Port) : (s.updPort q f).cycle = s.cycle := rfl
@[simp] theorem setCore_agenda (s : State) (c : Nat) (k : Core) : (s.setCore c k).agenda = s.agenda := rfl
@[simp] theorem updCore_agenda (s : State) (c : Nat) (f : Core → Core) : (s.updCore c f).agenda = s.agenda := rfl
@[simp] theorem setGroup_agenda (s : State) (c g : Nat) (G : Group) : (s.setGroup c g G).agenda = s.agenda := rfl
@[simp] theorem updGroup_agenda (s : State) (c g : Nat) (f : Group → Group) : (s.updGroup c g f).agenda = s.agenda := by unfold State.updGroup; split <;> rfl
@[simp] theorem updPart_agenda (s : State) (p : Nat) (f : Part → Part) : (s.updPart p f).agenda = s.agenda := rfl
@[simp] theorem count_agenda (s : State) (p e n : Nat) : (s.count p e n).agenda = s.agenda := by unfold State.count; dsimp only; split <;> rfl
@[simp] theorem updTeam_agenda (s : State) (t : Nat) (f : Team → Team) : (s.updTeam t f).agenda = s.agenda := by unfold State.updTeam; split <;> rfl
@[simp] theorem updLaunch_agenda (s : State) (l : Nat) (f : Launch → Launch) : (s.updLaunch l f).agenda = s.agenda := by unfold State.updLaunch; split <;> rfl
@[simp] theorem updQueue_agenda (s : State) (q : Nat) (f : Queue → Queue) : (s.updQueue q f).agenda = s.agenda := rfl
@[simp] theorem updPort_agenda (s : State) (q : Nat) (f : Port → Port) : (s.updPort q f).agenda = s.agenda := rfl
@[simp] theorem setCore_cur (s : State) (c : Nat) (k : Core) : (s.setCore c k).cur = s.cur := rfl
@[simp] theorem updCore_cur (s : State) (c : Nat) (f : Core → Core) : (s.updCore c f).cur = s.cur := rfl
@[simp] theorem setGroup_cur (s : State) (c g : Nat) (G : Group) : (s.setGroup c g G).cur = s.cur := rfl
@[simp] theorem updGroup_cur (s : State) (c g : Nat) (f : Group → Group) : (s.updGroup c g f).cur = s.cur := by unfold State.updGroup; split <;> rfl
@[simp] theorem updPart_cur (s : State) (p : Nat) (f : Part → Part) : (s.updPart p f).cur = s.cur := rfl
@[simp] theorem count_cur (s : State) (p e n : Nat) : (s.count p e n).cur = s.cur := by unfold State.count; dsimp only; split <;> rfl
@[simp] theorem updTeam_cur (s : State) (t : Nat) (f : Team → Team) : (s.updTeam t f).cur = s.cur := by unfold State.updTeam; split <;> rfl
@[simp] theorem updLaunch_cur (s : State) (l : Nat) (f : Launch → Launch) : (s.updLaunch l f).cur = s.cur := by unfold State.updLaunch; split <;> rfl
@[simp] theorem updQueue_cur (s : State) (q : Nat) (f : Queue → Queue) : (s.updQueue q f).cur = s.cur := rfl
@[simp] theorem updPort_cur (s : State) (q : Nat) (f : Port → Port) : (s.updPort q f).cur = s.cur := rfl
@[simp] theorem setCore_free (s : State) (c : Nat) (k : Core) : (s.setCore c k).free = s.free := rfl
@[simp] theorem updCore_free (s : State) (c : Nat) (f : Core → Core) : (s.updCore c f).free = s.free := rfl
@[simp] theorem setGroup_free (s : State) (c g : Nat) (G : Group) : (s.setGroup c g G).free = s.free := rfl
@[simp] theorem updGroup_free (s : State) (c g : Nat) (f : Group → Group) : (s.updGroup c g f).free = s.free := by unfold State.updGroup; split <;> rfl
@[simp] theorem updPart_free (s : State) (p : Nat) (f : Part → Part) : (s.updPart p f).free = s.free := rfl
@[simp] theorem count_free (s : State) (p e n : Nat) : (s.count p e n).free = s.free := by unfold State.count; dsimp only; split <;> rfl
@[simp] theorem updTeam_free (s : State) (t : Nat) (f : Team → Team) : (s.updTeam t f).free = s.free := by unfold State.updTeam; split <;> rfl
@[simp] theorem updLaunch_free (s : State) (l : Nat) (f : Launch → Launch) : (s.updLaunch l f).free = s.free := by unfold State.updLaunch; split <;> rfl
@[simp] theorem updQueue_free (s : State) (q : Nat) (f : Queue → Queue) : (s.updQueue q f).free = s.free := rfl
@[simp] theorem updPort_free (s : State) (q : Nat) (f : Port → Port) : (s.updPort q f).free = s.free := rfl
@[simp] theorem setCore_nextId (s : State) (c : Nat) (k : Core) : (s.setCore c k).nextId = s.nextId := rfl
@[simp] theorem updCore_nextId (s : State) (c : Nat) (f : Core → Core) : (s.updCore c f).nextId = s.nextId := rfl
@[simp] theorem setGroup_nextId (s : State) (c g : Nat) (G : Group) : (s.setGroup c g G).nextId = s.nextId := rfl
@[simp] theorem updGroup_nextId (s : State) (c g : Nat) (f : Group → Group) : (s.updGroup c g f).nextId = s.nextId := by unfold State.updGroup; split <;> rfl
@[simp] theorem updPart_nextId (s : State) (p : Nat) (f : Part → Part) : (s.updPart p f).nextId = s.nextId := rfl
@[simp] theorem count_nextId (s : State) (p e n : Nat) : (s.count p e n).nextId = s.nextId := by unfold State.count; dsimp only; split <;> rfl
@[simp] theorem updTeam_nextId (s : State) (t : Nat) (f : Team → Team) : (s.updTeam t f).nextId = s.nextId := by unfold State.updTeam; split <;> rfl
@[simp] theorem updLaunch_nextId (s : State) (l : Nat) (f : Launch → Launch) : (s.updLaunch l f).nextId = s.nextId := by unfold State.updLaunch; split <;> rfl
@[simp] theorem updQueue_nextId (s : State) (q : Nat) (f : Queue → Queue) : (s.updQueue q f).nextId = s.nextId := rfl
@[simp] theorem updPort_nextId (s : State) (q : Nat) (f : Port → Port) : (s.updPort q f).nextId = s.nextId := rfl
@[simp] theorem updPart_cores (s : State) (p : Nat) (f : Part → Part) : (s.updPart p f).cores = s.cores := rfl
@[simp] theorem count_cores (s : State) (p e n : Nat) : (s.count p e n).cores = s.cores := by unfold State.count; dsimp only; split <;> rfl
@[simp] theorem updTeam_cores (s : State) (t : Nat) (f : Team → Team) : (s.updTeam t f).cores = s.cores := by unfold State.updTeam; split <;> rfl
@[simp] theorem updLaunch_cores (s : State) (l : Nat) (f : Launch → Launch) : (s.updLaunch l f).cores = s.cores := by unfold State.updLaunch; split <;> rfl
@[simp] theorem updQueue_cores (s : State) (q : Nat) (f : Queue → Queue) : (s.updQueue q f).cores = s.cores := rfl
@[simp] theorem updPort_cores (s : State) (q : Nat) (f : Port → Port) : (s.updPort q f).cores = s.cores := rfl
@[simp] theorem setCore_mem (s : State) (c : Nat) (k : Core) : (s.setCore c k).mem = s.mem := rfl
@[simp] theorem updCore_mem (s : State) (c : Nat) (f : Core → Core) : (s.updCore c f).mem = s.mem := rfl
@[simp] theorem setGroup_mem (s : State) (c g : Nat) (G : Group) : (s.setGroup c g G).mem = s.mem := rfl
@[simp] theorem updGroup_mem (s : State) (c g : Nat) (f : Group → Group) : (s.updGroup c g f).mem = s.mem := by unfold State.updGroup; split <;> rfl
@[simp] theorem updPart_mem (s : State) (p : Nat) (f : Part → Part) : (s.updPart p f).mem = s.mem := rfl
@[simp] theorem count_mem (s : State) (p e n : Nat) : (s.count p e n).mem = s.mem := by unfold State.count; dsimp only; split <;> rfl
@[simp] theorem updTeam_mem (s : State) (t : Nat) (f : Team → Team) : (s.updTeam t f).mem = s.mem := by unfold State.updTeam; split <;> rfl
@[simp] theorem updLaunch_mem (s : State) (l : Nat) (f : Launch → Launch) : (s.updLaunch l f).mem = s.mem := by unfold State.updLaunch; split <;> rfl
@[simp] theorem updQueue_mem (s : State) (q : Nat) (f : Queue → Queue) : (s.updQueue q f).mem = s.mem := rfl
@[simp] theorem updPort_mem (s : State) (q : Nat) (f : Port → Port) : (s.updPort q f).mem = s.mem := rfl
@[simp] theorem setCore_poison (s : State) (c : Nat) (k : Core) : (s.setCore c k).poison = s.poison := rfl
@[simp] theorem updCore_poison (s : State) (c : Nat) (f : Core → Core) : (s.updCore c f).poison = s.poison := rfl
@[simp] theorem setGroup_poison (s : State) (c g : Nat) (G : Group) : (s.setGroup c g G).poison = s.poison := rfl
@[simp] theorem updGroup_poison (s : State) (c g : Nat) (f : Group → Group) : (s.updGroup c g f).poison = s.poison := by unfold State.updGroup; split <;> rfl
@[simp] theorem updPart_poison (s : State) (p : Nat) (f : Part → Part) : (s.updPart p f).poison = s.poison := rfl
@[simp] theorem count_poison (s : State) (p e n : Nat) : (s.count p e n).poison = s.poison := by unfold State.count; dsimp only; split <;> rfl
@[simp] theorem updTeam_poison (s : State) (t : Nat) (f : Team → Team) : (s.updTeam t f).poison = s.poison := by unfold State.updTeam; split <;> rfl
@[simp] theorem updLaunch_poison (s : State) (l : Nat) (f : Launch → Launch) : (s.updLaunch l f).poison = s.poison := by unfold State.updLaunch; split <;> rfl
@[simp] theorem updQueue_poison (s : State) (q : Nat) (f : Queue → Queue) : (s.updQueue q f).poison = s.poison := rfl
@[simp] theorem updPort_poison (s : State) (q : Nat) (f : Port → Port) : (s.updPort q f).poison = s.poison := rfl
@[simp] theorem setCore_l2 (s : State) (c : Nat) (k : Core) : (s.setCore c k).l2 = s.l2 := rfl
@[simp] theorem updCore_l2 (s : State) (c : Nat) (f : Core → Core) : (s.updCore c f).l2 = s.l2 := rfl
@[simp] theorem setGroup_l2 (s : State) (c g : Nat) (G : Group) : (s.setGroup c g G).l2 = s.l2 := rfl
@[simp] theorem updGroup_l2 (s : State) (c g : Nat) (f : Group → Group) : (s.updGroup c g f).l2 = s.l2 := by unfold State.updGroup; split <;> rfl
@[simp] theorem updPart_l2 (s : State) (p : Nat) (f : Part → Part) : (s.updPart p f).l2 = s.l2 := rfl
@[simp] theorem count_l2 (s : State) (p e n : Nat) : (s.count p e n).l2 = s.l2 := by unfold State.count; dsimp only; split <;> rfl
@[simp] theorem updTeam_l2 (s : State) (t : Nat) (f : Team → Team) : (s.updTeam t f).l2 = s.l2 := by unfold State.updTeam; split <;> rfl
@[simp] theorem updLaunch_l2 (s : State) (l : Nat) (f : Launch → Launch) : (s.updLaunch l f).l2 = s.l2 := by unfold State.updLaunch; split <;> rfl
@[simp] theorem updQueue_l2 (s : State) (q : Nat) (f : Queue → Queue) : (s.updQueue q f).l2 = s.l2 := rfl
@[simp] theorem updPort_l2 (s : State) (q : Nat) (f : Port → Port) : (s.updPort q f).l2 = s.l2 := rfl
@[simp] theorem setCore_teams (s : State) (c : Nat) (k : Core) : (s.setCore c k).teams = s.teams := rfl
@[simp] theorem updCore_teams (s : State) (c : Nat) (f : Core → Core) : (s.updCore c f).teams = s.teams := rfl
@[simp] theorem setGroup_teams (s : State) (c g : Nat) (G : Group) : (s.setGroup c g G).teams = s.teams := rfl
@[simp] theorem updGroup_teams (s : State) (c g : Nat) (f : Group → Group) : (s.updGroup c g f).teams = s.teams := by unfold State.updGroup; split <;> rfl
@[simp] theorem updPart_teams (s : State) (p : Nat) (f : Part → Part) : (s.updPart p f).teams = s.teams := rfl
@[simp] theorem count_teams (s : State) (p e n : Nat) : (s.count p e n).teams = s.teams := by unfold State.count; dsimp only; split <;> rfl
@[simp] theorem updLaunch_teams (s : State) (l : Nat) (f : Launch → Launch) : (s.updLaunch l f).teams = s.teams := by unfold State.updLaunch; split <;> rfl
@[simp] theorem updQueue_teams (s : State) (q : Nat) (f : Queue → Queue) : (s.updQueue q f).teams = s.teams := rfl
@[simp] theorem updPort_teams (s : State) (q : Nat) (f : Port → Port) : (s.updPort q f).teams = s.teams := rfl
@[simp] theorem setCore_launches (s : State) (c : Nat) (k : Core) : (s.setCore c k).launches = s.launches := rfl
@[simp] theorem updCore_launches (s : State) (c : Nat) (f : Core → Core) : (s.updCore c f).launches = s.launches := rfl
@[simp] theorem setGroup_launches (s : State) (c g : Nat) (G : Group) : (s.setGroup c g G).launches = s.launches := rfl
@[simp] theorem updGroup_launches (s : State) (c g : Nat) (f : Group → Group) : (s.updGroup c g f).launches = s.launches := by unfold State.updGroup; split <;> rfl
@[simp] theorem updPart_launches (s : State) (p : Nat) (f : Part → Part) : (s.updPart p f).launches = s.launches := rfl
@[simp] theorem count_launches (s : State) (p e n : Nat) : (s.count p e n).launches = s.launches := by unfold State.count; dsimp only; split <;> rfl
@[simp] theorem updTeam_launches (s : State) (t : Nat) (f : Team → Team) : (s.updTeam t f).launches = s.launches := by unfold State.updTeam; split <;> rfl
@[simp] theorem updQueue_launches (s : State) (q : Nat) (f : Queue → Queue) : (s.updQueue q f).launches = s.launches := rfl
@[simp] theorem updPort_launches (s : State) (q : Nat) (f : Port → Port) : (s.updPort q f).launches = s.launches := rfl
@[simp] theorem setCore_conts (s : State) (c : Nat) (k : Core) : (s.setCore c k).conts = s.conts := rfl
@[simp] theorem updCore_conts (s : State) (c : Nat) (f : Core → Core) : (s.updCore c f).conts = s.conts := rfl
@[simp] theorem setGroup_conts (s : State) (c g : Nat) (G : Group) : (s.setGroup c g G).conts = s.conts := rfl
@[simp] theorem updGroup_conts (s : State) (c g : Nat) (f : Group → Group) : (s.updGroup c g f).conts = s.conts := by unfold State.updGroup; split <;> rfl
@[simp] theorem updPart_conts (s : State) (p : Nat) (f : Part → Part) : (s.updPart p f).conts = s.conts := rfl
@[simp] theorem count_conts (s : State) (p e n : Nat) : (s.count p e n).conts = s.conts := by unfold State.count; dsimp only; split <;> rfl
@[simp] theorem updTeam_conts (s : State) (t : Nat) (f : Team → Team) : (s.updTeam t f).conts = s.conts := by unfold State.updTeam; split <;> rfl
@[simp] theorem updLaunch_conts (s : State) (l : Nat) (f : Launch → Launch) : (s.updLaunch l f).conts = s.conts := by unfold State.updLaunch; split <;> rfl
@[simp] theorem updQueue_conts (s : State) (q : Nat) (f : Queue → Queue) : (s.updQueue q f).conts = s.conts := rfl
@[simp] theorem updPort_conts (s : State) (q : Nat) (f : Port → Port) : (s.updPort q f).conts = s.conts := rfl
@[simp] theorem setCore_queues (s : State) (c : Nat) (k : Core) : (s.setCore c k).queues = s.queues := rfl
@[simp] theorem updCore_queues (s : State) (c : Nat) (f : Core → Core) : (s.updCore c f).queues = s.queues := rfl
@[simp] theorem setGroup_queues (s : State) (c g : Nat) (G : Group) : (s.setGroup c g G).queues = s.queues := rfl
@[simp] theorem updGroup_queues (s : State) (c g : Nat) (f : Group → Group) : (s.updGroup c g f).queues = s.queues := by unfold State.updGroup; split <;> rfl
@[simp] theorem updPart_queues (s : State) (p : Nat) (f : Part → Part) : (s.updPart p f).queues = s.queues := rfl
@[simp] theorem count_queues (s : State) (p e n : Nat) : (s.count p e n).queues = s.queues := by unfold State.count; dsimp only; split <;> rfl
@[simp] theorem updTeam_queues (s : State) (t : Nat) (f : Team → Team) : (s.updTeam t f).queues = s.queues := by unfold State.updTeam; split <;> rfl
@[simp] theorem updLaunch_queues (s : State) (l : Nat) (f : Launch → Launch) : (s.updLaunch l f).queues = s.queues := by unfold State.updLaunch; split <;> rfl
@[simp] theorem updPort_queues (s : State) (q : Nat) (f : Port → Port) : (s.updPort q f).queues = s.queues := rfl
@[simp] theorem setCore_parts (s : State) (c : Nat) (k : Core) : (s.setCore c k).parts = s.parts := rfl
@[simp] theorem updCore_parts (s : State) (c : Nat) (f : Core → Core) : (s.updCore c f).parts = s.parts := rfl
@[simp] theorem setGroup_parts (s : State) (c g : Nat) (G : Group) : (s.setGroup c g G).parts = s.parts := rfl
@[simp] theorem updGroup_parts (s : State) (c g : Nat) (f : Group → Group) : (s.updGroup c g f).parts = s.parts := by unfold State.updGroup; split <;> rfl
@[simp] theorem updTeam_parts (s : State) (t : Nat) (f : Team → Team) : (s.updTeam t f).parts = s.parts := by unfold State.updTeam; split <;> rfl
@[simp] theorem updLaunch_parts (s : State) (l : Nat) (f : Launch → Launch) : (s.updLaunch l f).parts = s.parts := by unfold State.updLaunch; split <;> rfl
@[simp] theorem updQueue_parts (s : State) (q : Nat) (f : Queue → Queue) : (s.updQueue q f).parts = s.parts := rfl
@[simp] theorem updPort_parts (s : State) (q : Nat) (f : Port → Port) : (s.updPort q f).parts = s.parts := rfl
@[simp] theorem setCore_partmap (s : State) (c : Nat) (k : Core) : (s.setCore c k).partmap = s.partmap := rfl
@[simp] theorem updCore_partmap (s : State) (c : Nat) (f : Core → Core) : (s.updCore c f).partmap = s.partmap := rfl
@[simp] theorem setGroup_partmap (s : State) (c g : Nat) (G : Group) : (s.setGroup c g G).partmap = s.partmap := rfl
@[simp] theorem updGroup_partmap (s : State) (c g : Nat) (f : Group → Group) : (s.updGroup c g f).partmap = s.partmap := by unfold State.updGroup; split <;> rfl
@[simp] theorem updPart_partmap (s : State) (p : Nat) (f : Part → Part) : (s.updPart p f).partmap = s.partmap := rfl
@[simp] theorem count_partmap (s : State) (p e n : Nat) : (s.count p e n).partmap = s.partmap := by unfold State.count; dsimp only; split <;> rfl
@[simp] theorem updTeam_partmap (s : State) (t : Nat) (f : Team → Team) : (s.updTeam t f).partmap = s.partmap := by unfold State.updTeam; split <;> rfl
@[simp] theorem updLaunch_partmap (s : State) (l : Nat) (f : Launch → Launch) : (s.updLaunch l f).partmap = s.partmap := by unfold State.updLaunch; split <;> rfl
@[simp] theorem updQueue_partmap (s : State) (q : Nat) (f : Queue → Queue) : (s.updQueue q f).partmap = s.partmap := rfl
@[simp] theorem updPort_partmap (s : State) (q : Nat) (f : Port → Port) : (s.updPort q f).partmap = s.partmap := rfl
@[simp] theorem setCore_regions (s : State) (c : Nat) (k : Core) : (s.setCore c k).regions = s.regions := rfl
@[simp] theorem updCore_regions (s : State) (c : Nat) (f : Core → Core) : (s.updCore c f).regions = s.regions := rfl
@[simp] theorem setGroup_regions (s : State) (c g : Nat) (G : Group) : (s.setGroup c g G).regions = s.regions := rfl
@[simp] theorem updGroup_regions (s : State) (c g : Nat) (f : Group → Group) : (s.updGroup c g f).regions = s.regions := by unfold State.updGroup; split <;> rfl
@[simp] theorem updPart_regions (s : State) (p : Nat) (f : Part → Part) : (s.updPart p f).regions = s.regions := rfl
@[simp] theorem count_regions (s : State) (p e n : Nat) : (s.count p e n).regions = s.regions := by unfold State.count; dsimp only; split <;> rfl
@[simp] theorem updTeam_regions (s : State) (t : Nat) (f : Team → Team) : (s.updTeam t f).regions = s.regions := by unfold State.updTeam; split <;> rfl
@[simp] theorem updLaunch_regions (s : State) (l : Nat) (f : Launch → Launch) : (s.updLaunch l f).regions = s.regions := by unfold State.updLaunch; split <;> rfl
@[simp] theorem updQueue_regions (s : State) (q : Nat) (f : Queue → Queue) : (s.updQueue q f).regions = s.regions := rfl
@[simp] theorem updPort_regions (s : State) (q : Nat) (f : Port → Port) : (s.updPort q f).regions = s.regions := rfl
@[simp] theorem setCore_ports (s : State) (c : Nat) (k : Core) : (s.setCore c k).ports = s.ports := rfl
@[simp] theorem updCore_ports (s : State) (c : Nat) (f : Core → Core) : (s.updCore c f).ports = s.ports := rfl
@[simp] theorem setGroup_ports (s : State) (c g : Nat) (G : Group) : (s.setGroup c g G).ports = s.ports := rfl
@[simp] theorem updGroup_ports (s : State) (c g : Nat) (f : Group → Group) : (s.updGroup c g f).ports = s.ports := by unfold State.updGroup; split <;> rfl
@[simp] theorem updPart_ports (s : State) (p : Nat) (f : Part → Part) : (s.updPart p f).ports = s.ports := rfl
@[simp] theorem count_ports (s : State) (p e n : Nat) : (s.count p e n).ports = s.ports := by unfold State.count; dsimp only; split <;> rfl
@[simp] theorem updTeam_ports (s : State) (t : Nat) (f : Team → Team) : (s.updTeam t f).ports = s.ports := by unfold State.updTeam; split <;> rfl
@[simp] theorem updLaunch_ports (s : State) (l : Nat) (f : Launch → Launch) : (s.updLaunch l f).ports = s.ports := by unfold State.updLaunch; split <;> rfl
@[simp] theorem updQueue_ports (s : State) (q : Nat) (f : Queue → Queue) : (s.updQueue q f).ports = s.ports := rfl
@[simp] theorem setCore_xacts (s : State) (c : Nat) (k : Core) : (s.setCore c k).xacts = s.xacts := rfl
@[simp] theorem updCore_xacts (s : State) (c : Nat) (f : Core → Core) : (s.updCore c f).xacts = s.xacts := rfl
@[simp] theorem setGroup_xacts (s : State) (c g : Nat) (G : Group) : (s.setGroup c g G).xacts = s.xacts := rfl
@[simp] theorem updGroup_xacts (s : State) (c g : Nat) (f : Group → Group) : (s.updGroup c g f).xacts = s.xacts := by unfold State.updGroup; split <;> rfl
@[simp] theorem updPart_xacts (s : State) (p : Nat) (f : Part → Part) : (s.updPart p f).xacts = s.xacts := rfl
@[simp] theorem count_xacts (s : State) (p e n : Nat) : (s.count p e n).xacts = s.xacts := by unfold State.count; dsimp only; split <;> rfl
@[simp] theorem updTeam_xacts (s : State) (t : Nat) (f : Team → Team) : (s.updTeam t f).xacts = s.xacts := by unfold State.updTeam; split <;> rfl
@[simp] theorem updLaunch_xacts (s : State) (l : Nat) (f : Launch → Launch) : (s.updLaunch l f).xacts = s.xacts := by unfold State.updLaunch; split <;> rfl
@[simp] theorem updQueue_xacts (s : State) (q : Nat) (f : Queue → Queue) : (s.updQueue q f).xacts = s.xacts := rfl
@[simp] theorem updPort_xacts (s : State) (q : Nat) (f : Port → Port) : (s.updPort q f).xacts = s.xacts := rfl
@[simp] theorem setCore_deliveries (s : State) (c : Nat) (k : Core) : (s.setCore c k).deliveries = s.deliveries := rfl
@[simp] theorem updCore_deliveries (s : State) (c : Nat) (f : Core → Core) : (s.updCore c f).deliveries = s.deliveries := rfl
@[simp] theorem setGroup_deliveries (s : State) (c g : Nat) (G : Group) : (s.setGroup c g G).deliveries = s.deliveries := rfl
@[simp] theorem updGroup_deliveries (s : State) (c g : Nat) (f : Group → Group) : (s.updGroup c g f).deliveries = s.deliveries := by unfold State.updGroup; split <;> rfl
@[simp] theorem updPart_deliveries (s : State) (p : Nat) (f : Part → Part) : (s.updPart p f).deliveries = s.deliveries := rfl
@[simp] theorem count_deliveries (s : State) (p e n : Nat) : (s.count p e n).deliveries = s.deliveries := by unfold State.count; dsimp only; split <;> rfl
@[simp] theorem updTeam_deliveries (s : State) (t : Nat) (f : Team → Team) : (s.updTeam t f).deliveries = s.deliveries := by unfold State.updTeam; split <;> rfl
@[simp] theorem updLaunch_deliveries (s : State) (l : Nat) (f : Launch → Launch) : (s.updLaunch l f).deliveries = s.deliveries := by unfold State.updLaunch; split <;> rfl
@[simp] theorem updQueue_deliveries (s : State) (q : Nat) (f : Queue → Queue) : (s.updQueue q f).deliveries = s.deliveries := rfl
@[simp] theorem updPort_deliveries (s : State) (q : Nat) (f : Port → Port) : (s.updPort q f).deliveries = s.deliveries := rfl
@[simp] theorem setCore_key (s : State) (c : Nat) (k : Core) : (s.setCore c k).key = s.key := rfl
@[simp] theorem updCore_key (s : State) (c : Nat) (f : Core → Core) : (s.updCore c f).key = s.key := rfl
@[simp] theorem setGroup_key (s : State) (c g : Nat) (G : Group) : (s.setGroup c g G).key = s.key := rfl
@[simp] theorem updGroup_key (s : State) (c g : Nat) (f : Group → Group) : (s.updGroup c g f).key = s.key := by unfold State.updGroup; split <;> rfl
@[simp] theorem updPart_key (s : State) (p : Nat) (f : Part → Part) : (s.updPart p f).key = s.key := rfl
@[simp] theorem count_key (s : State) (p e n : Nat) : (s.count p e n).key = s.key := by unfold State.count; dsimp only; split <;> rfl
@[simp] theorem updTeam_key (s : State) (t : Nat) (f : Team → Team) : (s.updTeam t f).key = s.key := by unfold State.updTeam; split <;> rfl
@[simp] theorem updLaunch_key (s : State) (l : Nat) (f : Launch → Launch) : (s.updLaunch l f).key = s.key := by unfold State.updLaunch; split <;> rfl
@[simp] theorem updQueue_key (s : State) (q : Nat) (f : Queue → Queue) : (s.updQueue q f).key = s.key := rfl
@[simp] theorem updPort_key (s : State) (q : Nat) (f : Port → Port) : (s.updPort q f).key = s.key := rfl
@[simp] theorem setCore_pkgid (s : State) (c : Nat) (k : Core) : (s.setCore c k).pkgid = s.pkgid := rfl
@[simp] theorem updCore_pkgid (s : State) (c : Nat) (f : Core → Core) : (s.updCore c f).pkgid = s.pkgid := rfl
@[simp] theorem setGroup_pkgid (s : State) (c g : Nat) (G : Group) : (s.setGroup c g G).pkgid = s.pkgid := rfl
@[simp] theorem updGroup_pkgid (s : State) (c g : Nat) (f : Group → Group) : (s.updGroup c g f).pkgid = s.pkgid := by unfold State.updGroup; split <;> rfl
@[simp] theorem updPart_pkgid (s : State) (p : Nat) (f : Part → Part) : (s.updPart p f).pkgid = s.pkgid := rfl
@[simp] theorem count_pkgid (s : State) (p e n : Nat) : (s.count p e n).pkgid = s.pkgid := by unfold State.count; dsimp only; split <;> rfl
@[simp] theorem updTeam_pkgid (s : State) (t : Nat) (f : Team → Team) : (s.updTeam t f).pkgid = s.pkgid := by unfold State.updTeam; split <;> rfl
@[simp] theorem updLaunch_pkgid (s : State) (l : Nat) (f : Launch → Launch) : (s.updLaunch l f).pkgid = s.pkgid := by unfold State.updLaunch; split <;> rfl
@[simp] theorem updQueue_pkgid (s : State) (q : Nat) (f : Queue → Queue) : (s.updQueue q f).pkgid = s.pkgid := rfl
@[simp] theorem updPort_pkgid (s : State) (q : Nat) (f : Port → Port) : (s.updPort q f).pkgid = s.pkgid := rfl
@[simp] theorem setCore_ts0 (s : State) (c : Nat) (k : Core) : (s.setCore c k).ts0 = s.ts0 := rfl
@[simp] theorem updCore_ts0 (s : State) (c : Nat) (f : Core → Core) : (s.updCore c f).ts0 = s.ts0 := rfl
@[simp] theorem setGroup_ts0 (s : State) (c g : Nat) (G : Group) : (s.setGroup c g G).ts0 = s.ts0 := rfl
@[simp] theorem updGroup_ts0 (s : State) (c g : Nat) (f : Group → Group) : (s.updGroup c g f).ts0 = s.ts0 := by unfold State.updGroup; split <;> rfl
@[simp] theorem updPart_ts0 (s : State) (p : Nat) (f : Part → Part) : (s.updPart p f).ts0 = s.ts0 := rfl
@[simp] theorem count_ts0 (s : State) (p e n : Nat) : (s.count p e n).ts0 = s.ts0 := by unfold State.count; dsimp only; split <;> rfl
@[simp] theorem updTeam_ts0 (s : State) (t : Nat) (f : Team → Team) : (s.updTeam t f).ts0 = s.ts0 := by unfold State.updTeam; split <;> rfl
@[simp] theorem updLaunch_ts0 (s : State) (l : Nat) (f : Launch → Launch) : (s.updLaunch l f).ts0 = s.ts0 := by unfold State.updLaunch; split <;> rfl
@[simp] theorem updQueue_ts0 (s : State) (q : Nat) (f : Queue → Queue) : (s.updQueue q f).ts0 = s.ts0 := rfl
@[simp] theorem updPort_ts0 (s : State) (q : Nat) (f : Port → Port) : (s.updPort q f).ts0 = s.ts0 := rfl
@[simp] theorem setCore_tsCycle (s : State) (c : Nat) (k : Core) : (s.setCore c k).tsCycle = s.tsCycle := rfl
@[simp] theorem updCore_tsCycle (s : State) (c : Nat) (f : Core → Core) : (s.updCore c f).tsCycle = s.tsCycle := rfl
@[simp] theorem setGroup_tsCycle (s : State) (c g : Nat) (G : Group) : (s.setGroup c g G).tsCycle = s.tsCycle := rfl
@[simp] theorem updGroup_tsCycle (s : State) (c g : Nat) (f : Group → Group) : (s.updGroup c g f).tsCycle = s.tsCycle := by unfold State.updGroup; split <;> rfl
@[simp] theorem updPart_tsCycle (s : State) (p : Nat) (f : Part → Part) : (s.updPart p f).tsCycle = s.tsCycle := rfl
@[simp] theorem count_tsCycle (s : State) (p e n : Nat) : (s.count p e n).tsCycle = s.tsCycle := by unfold State.count; dsimp only; split <;> rfl
@[simp] theorem updTeam_tsCycle (s : State) (t : Nat) (f : Team → Team) : (s.updTeam t f).tsCycle = s.tsCycle := by unfold State.updTeam; split <;> rfl
@[simp] theorem updLaunch_tsCycle (s : State) (l : Nat) (f : Launch → Launch) : (s.updLaunch l f).tsCycle = s.tsCycle := by unfold State.updLaunch; split <;> rfl
@[simp] theorem updQueue_tsCycle (s : State) (q : Nat) (f : Queue → Queue) : (s.updQueue q f).tsCycle = s.tsCycle := rfl
@[simp] theorem updPort_tsCycle (s : State) (q : Nat) (f : Port → Port) : (s.updPort q f).tsCycle = s.tsCycle := rfl
@[simp] theorem setCore_stackTlb0 (s : State) (c : Nat) (k : Core) : (s.setCore c k).stackTlb0 = s.stackTlb0 := rfl
@[simp] theorem updCore_stackTlb0 (s : State) (c : Nat) (f : Core → Core) : (s.updCore c f).stackTlb0 = s.stackTlb0 := rfl
@[simp] theorem setGroup_stackTlb0 (s : State) (c g : Nat) (G : Group) : (s.setGroup c g G).stackTlb0 = s.stackTlb0 := rfl
@[simp] theorem updGroup_stackTlb0 (s : State) (c g : Nat) (f : Group → Group) : (s.updGroup c g f).stackTlb0 = s.stackTlb0 := by unfold State.updGroup; split <;> rfl
@[simp] theorem updPart_stackTlb0 (s : State) (p : Nat) (f : Part → Part) : (s.updPart p f).stackTlb0 = s.stackTlb0 := rfl
@[simp] theorem count_stackTlb0 (s : State) (p e n : Nat) : (s.count p e n).stackTlb0 = s.stackTlb0 := by unfold State.count; dsimp only; split <;> rfl
@[simp] theorem updTeam_stackTlb0 (s : State) (t : Nat) (f : Team → Team) : (s.updTeam t f).stackTlb0 = s.stackTlb0 := by unfold State.updTeam; split <;> rfl
@[simp] theorem updLaunch_stackTlb0 (s : State) (l : Nat) (f : Launch → Launch) : (s.updLaunch l f).stackTlb0 = s.stackTlb0 := by unfold State.updLaunch; split <;> rfl
@[simp] theorem updQueue_stackTlb0 (s : State) (q : Nat) (f : Queue → Queue) : (s.updQueue q f).stackTlb0 = s.stackTlb0 := rfl
@[simp] theorem updPort_stackTlb0 (s : State) (q : Nat) (f : Port → Port) : (s.updPort q f).stackTlb0 = s.stackTlb0 := rfl
@[simp] theorem setCore_stackTlb1 (s : State) (c : Nat) (k : Core) : (s.setCore c k).stackTlb1 = s.stackTlb1 := rfl
@[simp] theorem updCore_stackTlb1 (s : State) (c : Nat) (f : Core → Core) : (s.updCore c f).stackTlb1 = s.stackTlb1 := rfl
@[simp] theorem setGroup_stackTlb1 (s : State) (c g : Nat) (G : Group) : (s.setGroup c g G).stackTlb1 = s.stackTlb1 := rfl
@[simp] theorem updGroup_stackTlb1 (s : State) (c g : Nat) (f : Group → Group) : (s.updGroup c g f).stackTlb1 = s.stackTlb1 := by unfold State.updGroup; split <;> rfl
@[simp] theorem updPart_stackTlb1 (s : State) (p : Nat) (f : Part → Part) : (s.updPart p f).stackTlb1 = s.stackTlb1 := rfl
@[simp] theorem count_stackTlb1 (s : State) (p e n : Nat) : (s.count p e n).stackTlb1 = s.stackTlb1 := by unfold State.count; dsimp only; split <;> rfl
@[simp] theorem updTeam_stackTlb1 (s : State) (t : Nat) (f : Team → Team) : (s.updTeam t f).stackTlb1 = s.stackTlb1 := by unfold State.updTeam; split <;> rfl
@[simp] theorem updLaunch_stackTlb1 (s : State) (l : Nat) (f : Launch → Launch) : (s.updLaunch l f).stackTlb1 = s.stackTlb1 := by unfold State.updLaunch; split <;> rfl
@[simp] theorem updQueue_stackTlb1 (s : State) (q : Nat) (f : Queue → Queue) : (s.updQueue q f).stackTlb1 = s.stackTlb1 := rfl
@[simp] theorem updPort_stackTlb1 (s : State) (q : Nat) (f : Port → Port) : (s.updPort q f).stackTlb1 = s.stackTlb1 := rfl
@[simp] theorem setCore_hostHeld (s : State) (c : Nat) (k : Core) : (s.setCore c k).hostHeld = s.hostHeld := rfl
@[simp] theorem updCore_hostHeld (s : State) (c : Nat) (f : Core → Core) : (s.updCore c f).hostHeld = s.hostHeld := rfl
@[simp] theorem setGroup_hostHeld (s : State) (c g : Nat) (G : Group) : (s.setGroup c g G).hostHeld = s.hostHeld := rfl
@[simp] theorem updGroup_hostHeld (s : State) (c g : Nat) (f : Group → Group) : (s.updGroup c g f).hostHeld = s.hostHeld := by unfold State.updGroup; split <;> rfl
@[simp] theorem updPart_hostHeld (s : State) (p : Nat) (f : Part → Part) : (s.updPart p f).hostHeld = s.hostHeld := rfl
@[simp] theorem count_hostHeld (s : State) (p e n : Nat) : (s.count p e n).hostHeld = s.hostHeld := by unfold State.count; dsimp only; split <;> rfl
@[simp] theorem updTeam_hostHeld (s : State) (t : Nat) (f : Team → Team) : (s.updTeam t f).hostHeld = s.hostHeld := by unfold State.updTeam; split <;> rfl
@[simp] theorem updLaunch_hostHeld (s : State) (l : Nat) (f : Launch → Launch) : (s.updLaunch l f).hostHeld = s.hostHeld := by unfold State.updLaunch; split <;> rfl
@[simp] theorem updQueue_hostHeld (s : State) (q : Nat) (f : Queue → Queue) : (s.updQueue q f).hostHeld = s.hostHeld := rfl
@[simp] theorem updPort_hostHeld (s : State) (q : Nat) (f : Port → Port) : (s.updPort q f).hostHeld = s.hostHeld := rfl
@[simp] theorem setCore_lrelHome (s : State) (c : Nat) (k : Core) : (s.setCore c k).lrelHome = s.lrelHome := rfl
@[simp] theorem updCore_lrelHome (s : State) (c : Nat) (f : Core → Core) : (s.updCore c f).lrelHome = s.lrelHome := rfl
@[simp] theorem setGroup_lrelHome (s : State) (c g : Nat) (G : Group) : (s.setGroup c g G).lrelHome = s.lrelHome := rfl
@[simp] theorem updGroup_lrelHome (s : State) (c g : Nat) (f : Group → Group) : (s.updGroup c g f).lrelHome = s.lrelHome := by unfold State.updGroup; split <;> rfl
@[simp] theorem updPart_lrelHome (s : State) (p : Nat) (f : Part → Part) : (s.updPart p f).lrelHome = s.lrelHome := rfl
@[simp] theorem count_lrelHome (s : State) (p e n : Nat) : (s.count p e n).lrelHome = s.lrelHome := by unfold State.count; dsimp only; split <;> rfl
@[simp] theorem updTeam_lrelHome (s : State) (t : Nat) (f : Team → Team) : (s.updTeam t f).lrelHome = s.lrelHome := by unfold State.updTeam; split <;> rfl
@[simp] theorem updLaunch_lrelHome (s : State) (l : Nat) (f : Launch → Launch) : (s.updLaunch l f).lrelHome = s.lrelHome := by unfold State.updLaunch; split <;> rfl
@[simp] theorem updQueue_lrelHome (s : State) (q : Nat) (f : Queue → Queue) : (s.updQueue q f).lrelHome = s.lrelHome := rfl
@[simp] theorem updPort_lrelHome (s : State) (q : Nat) (f : Port → Port) : (s.updPort q f).lrelHome = s.lrelHome := rfl
@[simp] theorem setCore_submits (s : State) (c : Nat) (k : Core) : (s.setCore c k).submits = s.submits := rfl
@[simp] theorem updCore_submits (s : State) (c : Nat) (f : Core → Core) : (s.updCore c f).submits = s.submits := rfl
@[simp] theorem setGroup_submits (s : State) (c g : Nat) (G : Group) : (s.setGroup c g G).submits = s.submits := rfl
@[simp] theorem updGroup_submits (s : State) (c g : Nat) (f : Group → Group) : (s.updGroup c g f).submits = s.submits := by unfold State.updGroup; split <;> rfl
@[simp] theorem updPart_submits (s : State) (p : Nat) (f : Part → Part) : (s.updPart p f).submits = s.submits := rfl
@[simp] theorem count_submits (s : State) (p e n : Nat) : (s.count p e n).submits = s.submits := by unfold State.count; dsimp only; split <;> rfl
@[simp] theorem updTeam_submits (s : State) (t : Nat) (f : Team → Team) : (s.updTeam t f).submits = s.submits := by unfold State.updTeam; split <;> rfl
@[simp] theorem updLaunch_submits (s : State) (l : Nat) (f : Launch → Launch) : (s.updLaunch l f).submits = s.submits := by unfold State.updLaunch; split <;> rfl
@[simp] theorem updQueue_submits (s : State) (q : Nat) (f : Queue → Queue) : (s.updQueue q f).submits = s.submits := rfl
@[simp] theorem updPort_submits (s : State) (q : Nat) (f : Port → Port) : (s.updPort q f).submits = s.submits := rfl
@[simp] theorem setCore_posts (s : State) (c : Nat) (k : Core) : (s.setCore c k).posts = s.posts := rfl
@[simp] theorem updCore_posts (s : State) (c : Nat) (f : Core → Core) : (s.updCore c f).posts = s.posts := rfl
@[simp] theorem setGroup_posts (s : State) (c g : Nat) (G : Group) : (s.setGroup c g G).posts = s.posts := rfl
@[simp] theorem updGroup_posts (s : State) (c g : Nat) (f : Group → Group) : (s.updGroup c g f).posts = s.posts := by unfold State.updGroup; split <;> rfl
@[simp] theorem updPart_posts (s : State) (p : Nat) (f : Part → Part) : (s.updPart p f).posts = s.posts := rfl
@[simp] theorem count_posts (s : State) (p e n : Nat) : (s.count p e n).posts = s.posts := by unfold State.count; dsimp only; split <;> rfl
@[simp] theorem updTeam_posts (s : State) (t : Nat) (f : Team → Team) : (s.updTeam t f).posts = s.posts := by unfold State.updTeam; split <;> rfl
@[simp] theorem updLaunch_posts (s : State) (l : Nat) (f : Launch → Launch) : (s.updLaunch l f).posts = s.posts := by unfold State.updLaunch; split <;> rfl
@[simp] theorem updQueue_posts (s : State) (q : Nat) (f : Queue → Queue) : (s.updQueue q f).posts = s.posts := rfl
@[simp] theorem updPort_posts (s : State) (q : Nat) (f : Port → Port) : (s.updPort q f).posts = s.posts := rfl
@[simp] theorem setCore_graphs (s : State) (c : Nat) (k : Core) : (s.setCore c k).graphs = s.graphs := rfl
@[simp] theorem updCore_graphs (s : State) (c : Nat) (f : Core → Core) : (s.updCore c f).graphs = s.graphs := rfl
@[simp] theorem setGroup_graphs (s : State) (c g : Nat) (G : Group) : (s.setGroup c g G).graphs = s.graphs := rfl
@[simp] theorem updGroup_graphs (s : State) (c g : Nat) (f : Group → Group) : (s.updGroup c g f).graphs = s.graphs := by unfold State.updGroup; split <;> rfl
@[simp] theorem updPart_graphs (s : State) (p : Nat) (f : Part → Part) : (s.updPart p f).graphs = s.graphs := rfl
@[simp] theorem count_graphs (s : State) (p e n : Nat) : (s.count p e n).graphs = s.graphs := by unfold State.count; dsimp only; split <;> rfl
@[simp] theorem updTeam_graphs (s : State) (t : Nat) (f : Team → Team) : (s.updTeam t f).graphs = s.graphs := by unfold State.updTeam; split <;> rfl
@[simp] theorem updLaunch_graphs (s : State) (l : Nat) (f : Launch → Launch) : (s.updLaunch l f).graphs = s.graphs := by unfold State.updLaunch; split <;> rfl
@[simp] theorem updQueue_graphs (s : State) (q : Nat) (f : Queue → Queue) : (s.updQueue q f).graphs = s.graphs := rfl
@[simp] theorem updPort_graphs (s : State) (q : Nat) (f : Port → Port) : (s.updPort q f).graphs = s.graphs := rfl
@[simp] theorem setCore_turn (s : State) (c : Nat) (k : Core) : (s.setCore c k).turn = s.turn := rfl
@[simp] theorem updCore_turn (s : State) (c : Nat) (f : Core → Core) : (s.updCore c f).turn = s.turn := rfl
@[simp] theorem setGroup_turn (s : State) (c g : Nat) (G : Group) : (s.setGroup c g G).turn = s.turn := rfl
@[simp] theorem updGroup_turn (s : State) (c g : Nat) (f : Group → Group) : (s.updGroup c g f).turn = s.turn := by unfold State.updGroup; split <;> rfl
@[simp] theorem updPart_turn (s : State) (p : Nat) (f : Part → Part) : (s.updPart p f).turn = s.turn := rfl
@[simp] theorem count_turn (s : State) (p e n : Nat) : (s.count p e n).turn = s.turn := by unfold State.count; dsimp only; split <;> rfl
@[simp] theorem updTeam_turn (s : State) (t : Nat) (f : Team → Team) : (s.updTeam t f).turn = s.turn := by unfold State.updTeam; split <;> rfl
@[simp] theorem updLaunch_turn (s : State) (l : Nat) (f : Launch → Launch) : (s.updLaunch l f).turn = s.turn := by unfold State.updLaunch; split <;> rfl
@[simp] theorem updQueue_turn (s : State) (q : Nat) (f : Queue → Queue) : (s.updQueue q f).turn = s.turn := rfl
@[simp] theorem updPort_turn (s : State) (q : Nat) (f : Port → Port) : (s.updPort q f).turn = s.turn := rfl
@[simp] theorem setCore_partAsk (s : State) (c : Nat) (k : Core) : (s.setCore c k).partAsk = s.partAsk := rfl
@[simp] theorem updCore_partAsk (s : State) (c : Nat) (f : Core → Core) : (s.updCore c f).partAsk = s.partAsk := rfl
@[simp] theorem setGroup_partAsk (s : State) (c g : Nat) (G : Group) : (s.setGroup c g G).partAsk = s.partAsk := rfl
@[simp] theorem updGroup_partAsk (s : State) (c g : Nat) (f : Group → Group) : (s.updGroup c g f).partAsk = s.partAsk := by unfold State.updGroup; split <;> rfl
@[simp] theorem updPart_partAsk (s : State) (p : Nat) (f : Part → Part) : (s.updPart p f).partAsk = s.partAsk := rfl
@[simp] theorem count_partAsk (s : State) (p e n : Nat) : (s.count p e n).partAsk = s.partAsk := by unfold State.count; dsimp only; split <;> rfl
@[simp] theorem updTeam_partAsk (s : State) (t : Nat) (f : Team → Team) : (s.updTeam t f).partAsk = s.partAsk := by unfold State.updTeam; split <;> rfl
@[simp] theorem updLaunch_partAsk (s : State) (l : Nat) (f : Launch → Launch) : (s.updLaunch l f).partAsk = s.partAsk := by unfold State.updLaunch; split <;> rfl
@[simp] theorem updQueue_partAsk (s : State) (q : Nat) (f : Queue → Queue) : (s.updQueue q f).partAsk = s.partAsk := rfl
@[simp] theorem updPort_partAsk (s : State) (q : Nat) (f : Port → Port) : (s.updPort q f).partAsk = s.partAsk := rfl
@[simp] theorem setCore_uroute (s : State) (c : Nat) (k : Core) : (s.setCore c k).uroute = s.uroute := rfl
@[simp] theorem updCore_uroute (s : State) (c : Nat) (f : Core → Core) : (s.updCore c f).uroute = s.uroute := rfl
@[simp] theorem setGroup_uroute (s : State) (c g : Nat) (G : Group) : (s.setGroup c g G).uroute = s.uroute := rfl
@[simp] theorem updGroup_uroute (s : State) (c g : Nat) (f : Group → Group) : (s.updGroup c g f).uroute = s.uroute := by unfold State.updGroup; split <;> rfl
@[simp] theorem updPart_uroute (s : State) (p : Nat) (f : Part → Part) : (s.updPart p f).uroute = s.uroute := rfl
@[simp] theorem count_uroute (s : State) (p e n : Nat) : (s.count p e n).uroute = s.uroute := by unfold State.count; dsimp only; split <;> rfl
@[simp] theorem updTeam_uroute (s : State) (t : Nat) (f : Team → Team) : (s.updTeam t f).uroute = s.uroute := by unfold State.updTeam; split <;> rfl
@[simp] theorem updLaunch_uroute (s : State) (l : Nat) (f : Launch → Launch) : (s.updLaunch l f).uroute = s.uroute := by unfold State.updLaunch; split <;> rfl
@[simp] theorem updQueue_uroute (s : State) (q : Nat) (f : Queue → Queue) : (s.updQueue q f).uroute = s.uroute := rfl
@[simp] theorem updPort_uroute (s : State) (q : Nat) (f : Port → Port) : (s.updPort q f).uroute = s.uroute := rfl
@[simp] theorem setCore_flowOut (s : State) (c : Nat) (k : Core) : (s.setCore c k).flowOut = s.flowOut := rfl
@[simp] theorem updCore_flowOut (s : State) (c : Nat) (f : Core → Core) : (s.updCore c f).flowOut = s.flowOut := rfl
@[simp] theorem setGroup_flowOut (s : State) (c g : Nat) (G : Group) : (s.setGroup c g G).flowOut = s.flowOut := rfl
@[simp] theorem updGroup_flowOut (s : State) (c g : Nat) (f : Group → Group) : (s.updGroup c g f).flowOut = s.flowOut := by unfold State.updGroup; split <;> rfl
@[simp] theorem updPart_flowOut (s : State) (p : Nat) (f : Part → Part) : (s.updPart p f).flowOut = s.flowOut := rfl
@[simp] theorem count_flowOut (s : State) (p e n : Nat) : (s.count p e n).flowOut = s.flowOut := by unfold State.count; dsimp only; split <;> rfl
@[simp] theorem updTeam_flowOut (s : State) (t : Nat) (f : Team → Team) : (s.updTeam t f).flowOut = s.flowOut := by unfold State.updTeam; split <;> rfl
@[simp] theorem updLaunch_flowOut (s : State) (l : Nat) (f : Launch → Launch) : (s.updLaunch l f).flowOut = s.flowOut := by unfold State.updLaunch; split <;> rfl
@[simp] theorem updQueue_flowOut (s : State) (q : Nat) (f : Queue → Queue) : (s.updQueue q f).flowOut = s.flowOut := rfl
@[simp] theorem updPort_flowOut (s : State) (q : Nat) (f : Port → Port) : (s.updPort q f).flowOut = s.flowOut := rfl
@[simp] theorem setCore_flowIn (s : State) (c : Nat) (k : Core) : (s.setCore c k).flowIn = s.flowIn := rfl
@[simp] theorem updCore_flowIn (s : State) (c : Nat) (f : Core → Core) : (s.updCore c f).flowIn = s.flowIn := rfl
@[simp] theorem setGroup_flowIn (s : State) (c g : Nat) (G : Group) : (s.setGroup c g G).flowIn = s.flowIn := rfl
@[simp] theorem updGroup_flowIn (s : State) (c g : Nat) (f : Group → Group) : (s.updGroup c g f).flowIn = s.flowIn := by unfold State.updGroup; split <;> rfl
@[simp] theorem updPart_flowIn (s : State) (p : Nat) (f : Part → Part) : (s.updPart p f).flowIn = s.flowIn := rfl
@[simp] theorem count_flowIn (s : State) (p e n : Nat) : (s.count p e n).flowIn = s.flowIn := by unfold State.count; dsimp only; split <;> rfl
@[simp] theorem updTeam_flowIn (s : State) (t : Nat) (f : Team → Team) : (s.updTeam t f).flowIn = s.flowIn := by unfold State.updTeam; split <;> rfl
@[simp] theorem updLaunch_flowIn (s : State) (l : Nat) (f : Launch → Launch) : (s.updLaunch l f).flowIn = s.flowIn := by unfold State.updLaunch; split <;> rfl
@[simp] theorem updQueue_flowIn (s : State) (q : Nat) (f : Queue → Queue) : (s.updQueue q f).flowIn = s.flowIn := rfl
@[simp] theorem updPort_flowIn (s : State) (q : Nat) (f : Port → Port) : (s.updPort q f).flowIn = s.flowIn := rfl
@[simp] theorem setCore_responses (s : State) (c : Nat) (k : Core) : (s.setCore c k).responses = s.responses := rfl
@[simp] theorem updCore_responses (s : State) (c : Nat) (f : Core → Core) : (s.updCore c f).responses = s.responses := rfl
@[simp] theorem setGroup_responses (s : State) (c g : Nat) (G : Group) : (s.setGroup c g G).responses = s.responses := rfl
@[simp] theorem updGroup_responses (s : State) (c g : Nat) (f : Group → Group) : (s.updGroup c g f).responses = s.responses := by unfold State.updGroup; split <;> rfl
@[simp] theorem updPart_responses (s : State) (p : Nat) (f : Part → Part) : (s.updPart p f).responses = s.responses := rfl
@[simp] theorem count_responses (s : State) (p e n : Nat) : (s.count p e n).responses = s.responses := by unfold State.count; dsimp only; split <;> rfl
@[simp] theorem updTeam_responses (s : State) (t : Nat) (f : Team → Team) : (s.updTeam t f).responses = s.responses := by unfold State.updTeam; split <;> rfl
@[simp] theorem updLaunch_responses (s : State) (l : Nat) (f : Launch → Launch) : (s.updLaunch l f).responses = s.responses := by unfold State.updLaunch; split <;> rfl
@[simp] theorem updQueue_responses (s : State) (q : Nat) (f : Queue → Queue) : (s.updQueue q f).responses = s.responses := rfl
@[simp] theorem updPort_responses (s : State) (q : Nat) (f : Port → Port) : (s.updPort q f).responses = s.responses := rfl
@[simp] theorem setCore_lostSince (s : State) (c : Nat) (k : Core) : (s.setCore c k).lostSince = s.lostSince := rfl
@[simp] theorem updCore_lostSince (s : State) (c : Nat) (f : Core → Core) : (s.updCore c f).lostSince = s.lostSince := rfl
@[simp] theorem setGroup_lostSince (s : State) (c g : Nat) (G : Group) : (s.setGroup c g G).lostSince = s.lostSince := rfl
@[simp] theorem updGroup_lostSince (s : State) (c g : Nat) (f : Group → Group) : (s.updGroup c g f).lostSince = s.lostSince := by unfold State.updGroup; split <;> rfl
@[simp] theorem updPart_lostSince (s : State) (p : Nat) (f : Part → Part) : (s.updPart p f).lostSince = s.lostSince := rfl
@[simp] theorem count_lostSince (s : State) (p e n : Nat) : (s.count p e n).lostSince = s.lostSince := by unfold State.count; dsimp only; split <;> rfl
@[simp] theorem updTeam_lostSince (s : State) (t : Nat) (f : Team → Team) : (s.updTeam t f).lostSince = s.lostSince := by unfold State.updTeam; split <;> rfl
@[simp] theorem updLaunch_lostSince (s : State) (l : Nat) (f : Launch → Launch) : (s.updLaunch l f).lostSince = s.lostSince := by unfold State.updLaunch; split <;> rfl
@[simp] theorem updQueue_lostSince (s : State) (q : Nat) (f : Queue → Queue) : (s.updQueue q f).lostSince = s.lostSince := rfl
@[simp] theorem updPort_lostSince (s : State) (q : Nat) (f : Port → Port) : (s.updPort q f).lostSince = s.lostSince := rfl
@[simp] theorem setCore_mc (s : State) (c : Nat) (k : Core) : (s.setCore c k).mc = s.mc := rfl
@[simp] theorem updCore_mc (s : State) (c : Nat) (f : Core → Core) : (s.updCore c f).mc = s.mc := rfl
@[simp] theorem setGroup_mc (s : State) (c g : Nat) (G : Group) : (s.setGroup c g G).mc = s.mc := rfl
@[simp] theorem updGroup_mc (s : State) (c g : Nat) (f : Group → Group) : (s.updGroup c g f).mc = s.mc := by unfold State.updGroup; split <;> rfl
@[simp] theorem updPart_mc (s : State) (p : Nat) (f : Part → Part) : (s.updPart p f).mc = s.mc := rfl
@[simp] theorem count_mc (s : State) (p e n : Nat) : (s.count p e n).mc = s.mc := by unfold State.count; dsimp only; split <;> rfl
@[simp] theorem updTeam_mc (s : State) (t : Nat) (f : Team → Team) : (s.updTeam t f).mc = s.mc := by unfold State.updTeam; split <;> rfl
@[simp] theorem updLaunch_mc (s : State) (l : Nat) (f : Launch → Launch) : (s.updLaunch l f).mc = s.mc := by unfold State.updLaunch; split <;> rfl
@[simp] theorem updQueue_mc (s : State) (q : Nat) (f : Queue → Queue) : (s.updQueue q f).mc = s.mc := rfl
@[simp] theorem updPort_mc (s : State) (q : Nat) (f : Port → Port) : (s.updPort q f).mc = s.mc := rfl
@[simp] theorem setCore_cecount (s : State) (c : Nat) (k : Core) : (s.setCore c k).cecount = s.cecount := rfl
@[simp] theorem updCore_cecount (s : State) (c : Nat) (f : Core → Core) : (s.updCore c f).cecount = s.cecount := rfl
@[simp] theorem setGroup_cecount (s : State) (c g : Nat) (G : Group) : (s.setGroup c g G).cecount = s.cecount := rfl
@[simp] theorem updGroup_cecount (s : State) (c g : Nat) (f : Group → Group) : (s.updGroup c g f).cecount = s.cecount := by unfold State.updGroup; split <;> rfl
@[simp] theorem updPart_cecount (s : State) (p : Nat) (f : Part → Part) : (s.updPart p f).cecount = s.cecount := rfl
@[simp] theorem count_cecount (s : State) (p e n : Nat) : (s.count p e n).cecount = s.cecount := by unfold State.count; dsimp only; split <;> rfl
@[simp] theorem updTeam_cecount (s : State) (t : Nat) (f : Team → Team) : (s.updTeam t f).cecount = s.cecount := by unfold State.updTeam; split <;> rfl
@[simp] theorem updLaunch_cecount (s : State) (l : Nat) (f : Launch → Launch) : (s.updLaunch l f).cecount = s.cecount := by unfold State.updLaunch; split <;> rfl
@[simp] theorem updQueue_cecount (s : State) (q : Nat) (f : Queue → Queue) : (s.updQueue q f).cecount = s.cecount := rfl
@[simp] theorem updPort_cecount (s : State) (q : Nat) (f : Port → Port) : (s.updPort q f).cecount = s.cecount := rfl
@[simp] theorem setCore_resetctl (s : State) (c : Nat) (k : Core) : (s.setCore c k).resetctl = s.resetctl := rfl
@[simp] theorem updCore_resetctl (s : State) (c : Nat) (f : Core → Core) : (s.updCore c f).resetctl = s.resetctl := rfl
@[simp] theorem setGroup_resetctl (s : State) (c g : Nat) (G : Group) : (s.setGroup c g G).resetctl = s.resetctl := rfl
@[simp] theorem updGroup_resetctl (s : State) (c g : Nat) (f : Group → Group) : (s.updGroup c g f).resetctl = s.resetctl := by unfold State.updGroup; split <;> rfl
@[simp] theorem updPart_resetctl (s : State) (p : Nat) (f : Part → Part) : (s.updPart p f).resetctl = s.resetctl := rfl
@[simp] theorem count_resetctl (s : State) (p e n : Nat) : (s.count p e n).resetctl = s.resetctl := by unfold State.count; dsimp only; split <;> rfl
@[simp] theorem updTeam_resetctl (s : State) (t : Nat) (f : Team → Team) : (s.updTeam t f).resetctl = s.resetctl := by unfold State.updTeam; split <;> rfl
@[simp] theorem updLaunch_resetctl (s : State) (l : Nat) (f : Launch → Launch) : (s.updLaunch l f).resetctl = s.resetctl := by unfold State.updLaunch; split <;> rfl
@[simp] theorem updQueue_resetctl (s : State) (q : Nat) (f : Queue → Queue) : (s.updQueue q f).resetctl = s.resetctl := rfl
@[simp] theorem updPort_resetctl (s : State) (q : Nat) (f : Port → Port) : (s.updPort q f).resetctl = s.resetctl := rfl
@[simp] theorem setCore_prevKey (s : State) (c : Nat) (k : Core) : (s.setCore c k).prevKey = s.prevKey := rfl
@[simp] theorem updCore_prevKey (s : State) (c : Nat) (f : Core → Core) : (s.updCore c f).prevKey = s.prevKey := rfl
@[simp] theorem setGroup_prevKey (s : State) (c g : Nat) (G : Group) : (s.setGroup c g G).prevKey = s.prevKey := rfl
@[simp] theorem updGroup_prevKey (s : State) (c g : Nat) (f : Group → Group) : (s.updGroup c g f).prevKey = s.prevKey := by unfold State.updGroup; split <;> rfl
@[simp] theorem updPart_prevKey (s : State) (p : Nat) (f : Part → Part) : (s.updPart p f).prevKey = s.prevKey := rfl
@[simp] theorem count_prevKey (s : State) (p e n : Nat) : (s.count p e n).prevKey = s.prevKey := by unfold State.count; dsimp only; split <;> rfl
@[simp] theorem updTeam_prevKey (s : State) (t : Nat) (f : Team → Team) : (s.updTeam t f).prevKey = s.prevKey := by unfold State.updTeam; split <;> rfl
@[simp] theorem updLaunch_prevKey (s : State) (l : Nat) (f : Launch → Launch) : (s.updLaunch l f).prevKey = s.prevKey := by unfold State.updLaunch; split <;> rfl
@[simp] theorem updQueue_prevKey (s : State) (q : Nat) (f : Queue → Queue) : (s.updQueue q f).prevKey = s.prevKey := rfl
@[simp] theorem updPort_prevKey (s : State) (q : Nat) (f : Port → Port) : (s.updPort q f).prevKey = s.prevKey := rfl
@[simp] theorem setCore_keys (s : State) (c : Nat) (k : Core) : (s.setCore c k).keys = s.keys := rfl
@[simp] theorem updCore_keys (s : State) (c : Nat) (f : Core → Core) : (s.updCore c f).keys = s.keys := rfl
@[simp] theorem setGroup_keys (s : State) (c g : Nat) (G : Group) : (s.setGroup c g G).keys = s.keys := rfl
@[simp] theorem updGroup_keys (s : State) (c g : Nat) (f : Group → Group) : (s.updGroup c g f).keys = s.keys := by unfold State.updGroup; split <;> rfl
@[simp] theorem updPart_keys (s : State) (p : Nat) (f : Part → Part) : (s.updPart p f).keys = s.keys := rfl
@[simp] theorem count_keys (s : State) (p e n : Nat) : (s.count p e n).keys = s.keys := by unfold State.count; dsimp only; split <;> rfl
@[simp] theorem updTeam_keys (s : State) (t : Nat) (f : Team → Team) : (s.updTeam t f).keys = s.keys := by unfold State.updTeam; split <;> rfl
@[simp] theorem updLaunch_keys (s : State) (l : Nat) (f : Launch → Launch) : (s.updLaunch l f).keys = s.keys := by unfold State.updLaunch; split <;> rfl
@[simp] theorem updQueue_keys (s : State) (q : Nat) (f : Queue → Queue) : (s.updQueue q f).keys = s.keys := rfl
@[simp] theorem updPort_keys (s : State) (q : Nat) (f : Port → Port) : (s.updPort q f).keys = s.keys := rfl
@[simp] theorem setCore_resets (s : State) (c : Nat) (k : Core) : (s.setCore c k).resets = s.resets := rfl
@[simp] theorem updCore_resets (s : State) (c : Nat) (f : Core → Core) : (s.updCore c f).resets = s.resets := rfl
@[simp] theorem setGroup_resets (s : State) (c g : Nat) (G : Group) : (s.setGroup c g G).resets = s.resets := rfl
@[simp] theorem updGroup_resets (s : State) (c g : Nat) (f : Group → Group) : (s.updGroup c g f).resets = s.resets := by unfold State.updGroup; split <;> rfl
@[simp] theorem updPart_resets (s : State) (p : Nat) (f : Part → Part) : (s.updPart p f).resets = s.resets := rfl
@[simp] theorem count_resets (s : State) (p e n : Nat) : (s.count p e n).resets = s.resets := by unfold State.count; dsimp only; split <;> rfl
@[simp] theorem updTeam_resets (s : State) (t : Nat) (f : Team → Team) : (s.updTeam t f).resets = s.resets := by unfold State.updTeam; split <;> rfl
@[simp] theorem updLaunch_resets (s : State) (l : Nat) (f : Launch → Launch) : (s.updLaunch l f).resets = s.resets := by unfold State.updLaunch; split <;> rfl
@[simp] theorem updQueue_resets (s : State) (q : Nat) (f : Queue → Queue) : (s.updQueue q f).resets = s.resets := rfl
@[simp] theorem updPort_resets (s : State) (q : Nat) (f : Port → Port) : (s.updPort q f).resets = s.resets := rfl
@[simp] theorem setCore_warm (s : State) (c : Nat) (k : Core) : (s.setCore c k).warm = s.warm := rfl
@[simp] theorem updCore_warm (s : State) (c : Nat) (f : Core → Core) : (s.updCore c f).warm = s.warm := rfl
@[simp] theorem setGroup_warm (s : State) (c g : Nat) (G : Group) : (s.setGroup c g G).warm = s.warm := rfl
@[simp] theorem updGroup_warm (s : State) (c g : Nat) (f : Group → Group) : (s.updGroup c g f).warm = s.warm := by unfold State.updGroup; split <;> rfl
@[simp] theorem updPart_warm (s : State) (p : Nat) (f : Part → Part) : (s.updPart p f).warm = s.warm := rfl
@[simp] theorem count_warm (s : State) (p e n : Nat) : (s.count p e n).warm = s.warm := by unfold State.count; dsimp only; split <;> rfl
@[simp] theorem updTeam_warm (s : State) (t : Nat) (f : Team → Team) : (s.updTeam t f).warm = s.warm := by unfold State.updTeam; split <;> rfl
@[simp] theorem updLaunch_warm (s : State) (l : Nat) (f : Launch → Launch) : (s.updLaunch l f).warm = s.warm := by unfold State.updLaunch; split <;> rfl
@[simp] theorem updQueue_warm (s : State) (q : Nat) (f : Queue → Queue) : (s.updQueue q f).warm = s.warm := rfl
@[simp] theorem updPort_warm (s : State) (q : Nat) (f : Port → Port) : (s.updPort q f).warm = s.warm := rfl
@[simp] theorem setCore_rstate (s : State) (c : Nat) (k : Core) : (s.setCore c k).rstate = s.rstate := rfl
@[simp] theorem updCore_rstate (s : State) (c : Nat) (f : Core → Core) : (s.updCore c f).rstate = s.rstate := rfl
@[simp] theorem setGroup_rstate (s : State) (c g : Nat) (G : Group) : (s.setGroup c g G).rstate = s.rstate := rfl
@[simp] theorem updGroup_rstate (s : State) (c g : Nat) (f : Group → Group) : (s.updGroup c g f).rstate = s.rstate := by unfold State.updGroup; split <;> rfl
@[simp] theorem updPart_rstate (s : State) (p : Nat) (f : Part → Part) : (s.updPart p f).rstate = s.rstate := rfl
@[simp] theorem count_rstate (s : State) (p e n : Nat) : (s.count p e n).rstate = s.rstate := by unfold State.count; dsimp only; split <;> rfl
@[simp] theorem updTeam_rstate (s : State) (t : Nat) (f : Team → Team) : (s.updTeam t f).rstate = s.rstate := by unfold State.updTeam; split <;> rfl
@[simp] theorem updLaunch_rstate (s : State) (l : Nat) (f : Launch → Launch) : (s.updLaunch l f).rstate = s.rstate := by unfold State.updLaunch; split <;> rfl
@[simp] theorem updQueue_rstate (s : State) (q : Nat) (f : Queue → Queue) : (s.updQueue q f).rstate = s.rstate := rfl
@[simp] theorem updPort_rstate (s : State) (q : Nat) (f : Port → Port) : (s.updPort q f).rstate = s.rstate := rfl
@[simp] theorem setCore_identity (s : State) (c : Nat) (k : Core) : (s.setCore c k).identity = s.identity := rfl
@[simp] theorem updCore_identity (s : State) (c : Nat) (f : Core → Core) : (s.updCore c f).identity = s.identity := rfl
@[simp] theorem setGroup_identity (s : State) (c g : Nat) (G : Group) : (s.setGroup c g G).identity = s.identity := rfl
@[simp] theorem updGroup_identity (s : State) (c g : Nat) (f : Group → Group) : (s.updGroup c g f).identity = s.identity := by unfold State.updGroup; split <;> rfl
@[simp] theorem updPart_identity (s : State) (p : Nat) (f : Part → Part) : (s.updPart p f).identity = s.identity := rfl
@[simp] theorem count_identity (s : State) (p e n : Nat) : (s.count p e n).identity = s.identity := by unfold State.count; dsimp only; split <;> rfl
@[simp] theorem updTeam_identity (s : State) (t : Nat) (f : Team → Team) : (s.updTeam t f).identity = s.identity := by unfold State.updTeam; split <;> rfl
@[simp] theorem updLaunch_identity (s : State) (l : Nat) (f : Launch → Launch) : (s.updLaunch l f).identity = s.identity := by unfold State.updLaunch; split <;> rfl
@[simp] theorem updQueue_identity (s : State) (q : Nat) (f : Queue → Queue) : (s.updQueue q f).identity = s.identity := rfl
@[simp] theorem updPort_identity (s : State) (q : Nat) (f : Port → Port) : (s.updPort q f).identity = s.identity := rfl
@[simp] theorem setCore_flash (s : State) (c : Nat) (k : Core) : (s.setCore c k).flash = s.flash := rfl
@[simp] theorem updCore_flash (s : State) (c : Nat) (f : Core → Core) : (s.updCore c f).flash = s.flash := rfl
@[simp] theorem setGroup_flash (s : State) (c g : Nat) (G : Group) : (s.setGroup c g G).flash = s.flash := rfl
@[simp] theorem updGroup_flash (s : State) (c g : Nat) (f : Group → Group) : (s.updGroup c g f).flash = s.flash := by unfold State.updGroup; split <;> rfl
@[simp] theorem updPart_flash (s : State) (p : Nat) (f : Part → Part) : (s.updPart p f).flash = s.flash := rfl
@[simp] theorem count_flash (s : State) (p e n : Nat) : (s.count p e n).flash = s.flash := by unfold State.count; dsimp only; split <;> rfl
@[simp] theorem updTeam_flash (s : State) (t : Nat) (f : Team → Team) : (s.updTeam t f).flash = s.flash := by unfold State.updTeam; split <;> rfl
@[simp] theorem updLaunch_flash (s : State) (l : Nat) (f : Launch → Launch) : (s.updLaunch l f).flash = s.flash := by unfold State.updLaunch; split <;> rfl
@[simp] theorem updQueue_flash (s : State) (q : Nat) (f : Queue → Queue) : (s.updQueue q f).flash = s.flash := rfl
@[simp] theorem updPort_flash (s : State) (q : Nat) (f : Port → Port) : (s.updPort q f).flash = s.flash := rfl
@[simp] theorem setCore_imgSlot (s : State) (c : Nat) (k : Core) : (s.setCore c k).imgSlot = s.imgSlot := rfl
@[simp] theorem updCore_imgSlot (s : State) (c : Nat) (f : Core → Core) : (s.updCore c f).imgSlot = s.imgSlot := rfl
@[simp] theorem setGroup_imgSlot (s : State) (c g : Nat) (G : Group) : (s.setGroup c g G).imgSlot = s.imgSlot := rfl
@[simp] theorem updGroup_imgSlot (s : State) (c g : Nat) (f : Group → Group) : (s.updGroup c g f).imgSlot = s.imgSlot := by unfold State.updGroup; split <;> rfl
@[simp] theorem updPart_imgSlot (s : State) (p : Nat) (f : Part → Part) : (s.updPart p f).imgSlot = s.imgSlot := rfl
@[simp] theorem count_imgSlot (s : State) (p e n : Nat) : (s.count p e n).imgSlot = s.imgSlot := by unfold State.count; dsimp only; split <;> rfl
@[simp] theorem updTeam_imgSlot (s : State) (t : Nat) (f : Team → Team) : (s.updTeam t f).imgSlot = s.imgSlot := by unfold State.updTeam; split <;> rfl
@[simp] theorem updLaunch_imgSlot (s : State) (l : Nat) (f : Launch → Launch) : (s.updLaunch l f).imgSlot = s.imgSlot := by unfold State.updLaunch; split <;> rfl
@[simp] theorem updQueue_imgSlot (s : State) (q : Nat) (f : Queue → Queue) : (s.updQueue q f).imgSlot = s.imgSlot := rfl
@[simp] theorem updPort_imgSlot (s : State) (q : Nat) (f : Port → Port) : (s.updPort q f).imgSlot = s.imgSlot := rfl
@[simp] theorem setCore_image (s : State) (c : Nat) (k : Core) : (s.setCore c k).image = s.image := rfl
@[simp] theorem updCore_image (s : State) (c : Nat) (f : Core → Core) : (s.updCore c f).image = s.image := rfl
@[simp] theorem setGroup_image (s : State) (c g : Nat) (G : Group) : (s.setGroup c g G).image = s.image := rfl
@[simp] theorem updGroup_image (s : State) (c g : Nat) (f : Group → Group) : (s.updGroup c g f).image = s.image := by unfold State.updGroup; split <;> rfl
@[simp] theorem updPart_image (s : State) (p : Nat) (f : Part → Part) : (s.updPart p f).image = s.image := rfl
@[simp] theorem count_image (s : State) (p e n : Nat) : (s.count p e n).image = s.image := by unfold State.count; dsimp only; split <;> rfl
@[simp] theorem updTeam_image (s : State) (t : Nat) (f : Team → Team) : (s.updTeam t f).image = s.image := by unfold State.updTeam; split <;> rfl
@[simp] theorem updLaunch_image (s : State) (l : Nat) (f : Launch → Launch) : (s.updLaunch l f).image = s.image := by unfold State.updLaunch; split <;> rfl
@[simp] theorem updQueue_image (s : State) (q : Nat) (f : Queue → Queue) : (s.updQueue q f).image = s.image := rfl
@[simp] theorem updPort_image (s : State) (q : Nat) (f : Port → Port) : (s.updPort q f).image = s.image := rfl
@[simp] theorem setCore_cfgCopy (s : State) (c : Nat) (k : Core) : (s.setCore c k).cfgCopy = s.cfgCopy := rfl
@[simp] theorem updCore_cfgCopy (s : State) (c : Nat) (f : Core → Core) : (s.updCore c f).cfgCopy = s.cfgCopy := rfl
@[simp] theorem setGroup_cfgCopy (s : State) (c g : Nat) (G : Group) : (s.setGroup c g G).cfgCopy = s.cfgCopy := rfl
@[simp] theorem updGroup_cfgCopy (s : State) (c g : Nat) (f : Group → Group) : (s.updGroup c g f).cfgCopy = s.cfgCopy := by unfold State.updGroup; split <;> rfl
@[simp] theorem updPart_cfgCopy (s : State) (p : Nat) (f : Part → Part) : (s.updPart p f).cfgCopy = s.cfgCopy := rfl
@[simp] theorem count_cfgCopy (s : State) (p e n : Nat) : (s.count p e n).cfgCopy = s.cfgCopy := by unfold State.count; dsimp only; split <;> rfl
@[simp] theorem updTeam_cfgCopy (s : State) (t : Nat) (f : Team → Team) : (s.updTeam t f).cfgCopy = s.cfgCopy := by unfold State.updTeam; split <;> rfl
@[simp] theorem updLaunch_cfgCopy (s : State) (l : Nat) (f : Launch → Launch) : (s.updLaunch l f).cfgCopy = s.cfgCopy := by unfold State.updLaunch; split <;> rfl
@[simp] theorem updQueue_cfgCopy (s : State) (q : Nat) (f : Queue → Queue) : (s.updQueue q f).cfgCopy = s.cfgCopy := rfl
@[simp] theorem updPort_cfgCopy (s : State) (q : Nat) (f : Port → Port) : (s.updPort q f).cfgCopy = s.cfgCopy := rfl
@[simp] theorem setCore_mirror (s : State) (c : Nat) (k : Core) : (s.setCore c k).mirror = s.mirror := rfl
@[simp] theorem updCore_mirror (s : State) (c : Nat) (f : Core → Core) : (s.updCore c f).mirror = s.mirror := rfl
@[simp] theorem setGroup_mirror (s : State) (c g : Nat) (G : Group) : (s.setGroup c g G).mirror = s.mirror := rfl
@[simp] theorem updGroup_mirror (s : State) (c g : Nat) (f : Group → Group) : (s.updGroup c g f).mirror = s.mirror := by unfold State.updGroup; split <;> rfl
@[simp] theorem updPart_mirror (s : State) (p : Nat) (f : Part → Part) : (s.updPart p f).mirror = s.mirror := rfl
@[simp] theorem count_mirror (s : State) (p e n : Nat) : (s.count p e n).mirror = s.mirror := by unfold State.count; dsimp only; split <;> rfl
@[simp] theorem updTeam_mirror (s : State) (t : Nat) (f : Team → Team) : (s.updTeam t f).mirror = s.mirror := by unfold State.updTeam; split <;> rfl
@[simp] theorem updLaunch_mirror (s : State) (l : Nat) (f : Launch → Launch) : (s.updLaunch l f).mirror = s.mirror := by unfold State.updLaunch; split <;> rfl
@[simp] theorem updQueue_mirror (s : State) (q : Nat) (f : Queue → Queue) : (s.updQueue q f).mirror = s.mirror := rfl
@[simp] theorem updPort_mirror (s : State) (q : Nat) (f : Port → Port) : (s.updPort q f).mirror = s.mirror := rfl
@[simp] theorem setCore_wakes (s : State) (c : Nat) (k : Core) : (s.setCore c k).wakes = s.wakes := rfl
@[simp] theorem updCore_wakes (s : State) (c : Nat) (f : Core → Core) : (s.updCore c f).wakes = s.wakes := rfl
@[simp] theorem setGroup_wakes (s : State) (c g : Nat) (G : Group) : (s.setGroup c g G).wakes = s.wakes := rfl
@[simp] theorem updGroup_wakes (s : State) (c g : Nat) (f : Group → Group) : (s.updGroup c g f).wakes = s.wakes := by unfold State.updGroup; split <;> rfl
@[simp] theorem updPart_wakes (s : State) (p : Nat) (f : Part → Part) : (s.updPart p f).wakes = s.wakes := rfl
@[simp] theorem count_wakes (s : State) (p e n : Nat) : (s.count p e n).wakes = s.wakes := by unfold State.count; dsimp only; split <;> rfl
@[simp] theorem updTeam_wakes (s : State) (t : Nat) (f : Team → Team) : (s.updTeam t f).wakes = s.wakes := by unfold State.updTeam; split <;> rfl
@[simp] theorem updLaunch_wakes (s : State) (l : Nat) (f : Launch → Launch) : (s.updLaunch l f).wakes = s.wakes := by unfold State.updLaunch; split <;> rfl
@[simp] theorem updQueue_wakes (s : State) (q : Nat) (f : Queue → Queue) : (s.updQueue q f).wakes = s.wakes := rfl
@[simp] theorem updPort_wakes (s : State) (q : Nat) (f : Port → Port) : (s.updPort q f).wakes = s.wakes := rfl
@[simp] theorem setCore_maps (s : State) (c : Nat) (k : Core) : (s.setCore c k).maps = s.maps := rfl
@[simp] theorem updCore_maps (s : State) (c : Nat) (f : Core → Core) : (s.updCore c f).maps = s.maps := rfl
@[simp] theorem setGroup_maps (s : State) (c g : Nat) (G : Group) : (s.setGroup c g G).maps = s.maps := rfl
@[simp] theorem updGroup_maps (s : State) (c g : Nat) (f : Group → Group) : (s.updGroup c g f).maps = s.maps := by unfold State.updGroup; split <;> rfl
@[simp] theorem updPart_maps (s : State) (p : Nat) (f : Part → Part) : (s.updPart p f).maps = s.maps := rfl
@[simp] theorem count_maps (s : State) (p e n : Nat) : (s.count p e n).maps = s.maps := by unfold State.count; dsimp only; split <;> rfl
@[simp] theorem updTeam_maps (s : State) (t : Nat) (f : Team → Team) : (s.updTeam t f).maps = s.maps := by unfold State.updTeam; split <;> rfl
@[simp] theorem updLaunch_maps (s : State) (l : Nat) (f : Launch → Launch) : (s.updLaunch l f).maps = s.maps := by unfold State.updLaunch; split <;> rfl
@[simp] theorem updQueue_maps (s : State) (q : Nat) (f : Queue → Queue) : (s.updQueue q f).maps = s.maps := rfl
@[simp] theorem updPort_maps (s : State) (q : Nat) (f : Port → Port) : (s.updPort q f).maps = s.maps := rfl
@[simp] theorem setCore_scopeDone (s : State) (c : Nat) (k : Core) : (s.setCore c k).scopeDone = s.scopeDone := rfl
@[simp] theorem updCore_scopeDone (s : State) (c : Nat) (f : Core → Core) : (s.updCore c f).scopeDone = s.scopeDone := rfl
@[simp] theorem setGroup_scopeDone (s : State) (c g : Nat) (G : Group) : (s.setGroup c g G).scopeDone = s.scopeDone := rfl
@[simp] theorem updGroup_scopeDone (s : State) (c g : Nat) (f : Group → Group) : (s.updGroup c g f).scopeDone = s.scopeDone := by unfold State.updGroup; split <;> rfl
@[simp] theorem updPart_scopeDone (s : State) (p : Nat) (f : Part → Part) : (s.updPart p f).scopeDone = s.scopeDone := rfl
@[simp] theorem count_scopeDone (s : State) (p e n : Nat) : (s.count p e n).scopeDone = s.scopeDone := by unfold State.count; dsimp only; split <;> rfl
@[simp] theorem updTeam_scopeDone (s : State) (t : Nat) (f : Team → Team) : (s.updTeam t f).scopeDone = s.scopeDone := by unfold State.updTeam; split <;> rfl
@[simp] theorem updLaunch_scopeDone (s : State) (l : Nat) (f : Launch → Launch) : (s.updLaunch l f).scopeDone = s.scopeDone := by unfold State.updLaunch; split <;> rfl
@[simp] theorem updQueue_scopeDone (s : State) (q : Nat) (f : Queue → Queue) : (s.updQueue q f).scopeDone = s.scopeDone := rfl
@[simp] theorem updPort_scopeDone (s : State) (q : Nat) (f : Port → Port) : (s.updPort q f).scopeDone = s.scopeDone := rfl
@[simp] theorem setCore_late (s : State) (c : Nat) (k : Core) : (s.setCore c k).late = s.late := rfl
@[simp] theorem updCore_late (s : State) (c : Nat) (f : Core → Core) : (s.updCore c f).late = s.late := rfl
@[simp] theorem setGroup_late (s : State) (c g : Nat) (G : Group) : (s.setGroup c g G).late = s.late := rfl
@[simp] theorem updGroup_late (s : State) (c g : Nat) (f : Group → Group) : (s.updGroup c g f).late = s.late := by unfold State.updGroup; split <;> rfl
@[simp] theorem updPart_late (s : State) (p : Nat) (f : Part → Part) : (s.updPart p f).late = s.late := rfl
@[simp] theorem count_late (s : State) (p e n : Nat) : (s.count p e n).late = s.late := by unfold State.count; dsimp only; split <;> rfl
@[simp] theorem updTeam_late (s : State) (t : Nat) (f : Team → Team) : (s.updTeam t f).late = s.late := by unfold State.updTeam; split <;> rfl
@[simp] theorem updLaunch_late (s : State) (l : Nat) (f : Launch → Launch) : (s.updLaunch l f).late = s.late := by unfold State.updLaunch; split <;> rfl
@[simp] theorem updQueue_late (s : State) (q : Nat) (f : Queue → Queue) : (s.updQueue q f).late = s.late := rfl
@[simp] theorem updPort_late (s : State) (q : Nat) (f : Port → Port) : (s.updPort q f).late = s.late := rfl
@[simp] theorem setCore_replies (s : State) (c : Nat) (k : Core) : (s.setCore c k).replies = s.replies := rfl
@[simp] theorem updCore_replies (s : State) (c : Nat) (f : Core → Core) : (s.updCore c f).replies = s.replies := rfl
@[simp] theorem setGroup_replies (s : State) (c g : Nat) (G : Group) : (s.setGroup c g G).replies = s.replies := rfl
@[simp] theorem updGroup_replies (s : State) (c g : Nat) (f : Group → Group) : (s.updGroup c g f).replies = s.replies := by unfold State.updGroup; split <;> rfl
@[simp] theorem updPart_replies (s : State) (p : Nat) (f : Part → Part) : (s.updPart p f).replies = s.replies := rfl
@[simp] theorem count_replies (s : State) (p e n : Nat) : (s.count p e n).replies = s.replies := by unfold State.count; dsimp only; split <;> rfl
@[simp] theorem updTeam_replies (s : State) (t : Nat) (f : Team → Team) : (s.updTeam t f).replies = s.replies := by unfold State.updTeam; split <;> rfl
@[simp] theorem updLaunch_replies (s : State) (l : Nat) (f : Launch → Launch) : (s.updLaunch l f).replies = s.replies := by unfold State.updLaunch; split <;> rfl
@[simp] theorem updQueue_replies (s : State) (q : Nat) (f : Queue → Queue) : (s.updQueue q f).replies = s.replies := rfl
@[simp] theorem updPort_replies (s : State) (q : Nat) (f : Port → Port) : (s.updPort q f).replies = s.replies := rfl

@[simp] theorem core_updCore_same (s : State) (c : Nat) (f : Core → Core) : (s.updCore c f).core c = f (s.core c) := by
  simp [State.core, State.updCore, State.setCore]

theorem core_updCore (s : State) (c d : Nat) (f : Core → Core) : (s.updCore c f).core d = if d = c then f (s.core c) else s.core d := by
  simp [State.core, State.updCore, State.setCore, Tab.get_set]

@[simp] theorem group_setGroup_same (s : State) (c g : Nat) (G : Group) : (s.setGroup c g G).group c g = some G := by
  simp [State.group, State.setGroup]

theorem group_setGroup (s : State) (c g d h : Nat) (G : Group) :
    (s.setGroup c g G).group d h = if d = c ∧ h = g then some G else s.group d h := by
  by_cases hd : d = c
  · subst hd; simp [State.group, State.setGroup, Tab.find_set]
  · simp [State.group, State.setGroup, core_updCore, hd]

theorem group_updGroup_same (s : State) (c g : Nat) (f : Group → Group) {G : Group} (h : s.group c g = some G) :
    (s.updGroup c g f).group c g = some (f G) := by
  simp [State.updGroup, h]

theorem updGroup_of (s : State) (c g : Nat) (f : Group → Group) {G : Group} (h : s.group c g = some G) :
    s.updGroup c g f = s.setGroup c g (f G) := by
  simp [State.updGroup, h]

theorem part_updPart (s : State) (p q : Nat) (f : Part → Part) : (s.updPart p f).part q = if q = p then f (s.part p) else s.part q := by
  simp [State.part, State.updPart, Tab.get_set]

@[simp] theorem core_of_cores {s t : State} (h : t.cores = s.cores) (c : Nat) : t.core c = s.core c := by simp [State.core, h]

theorem core_setGroup (s : State) (c g d : Nat) (G : Group) :
    (s.setGroup c g G).core d = if d = c then { s.core c with slots := (s.core c).slots.set g G } else s.core d := by
  simp [State.setGroup, core_updCore]

/-! ### A group after a register is set -/

@[simp] theorem vreg_setV_same (G : Group) (n : Nat) (r : VReg) : (G.setV n r).vreg n = r := by simp [Group.vreg, Group.setV]

theorem vreg_setV (G : Group) (m n : Nat) (r : VReg) : (G.setV m r).vreg n = if n = m then r else G.vreg n := by
  simp [Group.vreg, Group.setV, Tab.get_set]

end Sys2Proof.Machine
end

