-- ==== Sys2Proof/Laws/Issue.lean ====
section
/-! SUPPORT. What the common course of an issue does in a calm group: one lemma for each of its parts, and the whole. -/

namespace Sys2Proof.Machine

/-! ### Changes of the slots alone -/

theorem OnlySlots.refl (s : State) : OnlySlots s s := ⟨rfl, fun _ => rfl, fun _ => rfl, fun _ _ _ => rfl⟩

theorem OnlySlots.setGroup {s t : State} (h : OnlySlots s t) (G : Group) :
    OnlySlots s (t.setGroup s.cur.core s.cur.slot G) where
  rest := by
    have := h.rest
    generalize hc : (t.setGroup s.cur.core s.cur.slot G).cores = c
    have : t.setGroup s.cur.core s.cur.slot G = { t with cores := c } := by rw [← hc]; rfl
    rw [this, h.rest]
  counters q := h.counters q
  cores c := by
    rw [core_setGroup]
    split
    · subst_vars; rw [h.cores]
    · exact h.cores c
  others c g hne := by rw [group_setGroup]; simp [hne, h.others c g hne]

theorem OnlySlots.updGroup {s t : State} (h : OnlySlots s t) (f : Group → Group) :
    OnlySlots s (t.updGroup s.cur.core s.cur.slot f) := by
  unfold State.updGroup
  split
  · exact h.setGroup _
  · exact h

theorem OnlySlots.count {s t : State} (h : OnlySlots s t) (p e n : Nat) : OnlySlots s (t.count p e n) := by
  unfold State.count
  dsimp only
  split
  · exact h
  · refine ⟨?_, ?_, ?_, ?_⟩
    · generalize hc : (State.updPart t p _).parts = c
      conv => lhs; rw [show ∀ f, t.updPart p f = { t with parts := (t.updPart p f).parts } from fun _ => rfl, hc]
      rw [h.rest]; rfl
    · intro q
      rw [part_updPart]
      split
      · subst_vars; rw [h.counters]
      · exact h.counters q
    · exact fun c => h.cores c
    · exact fun c g hne => h.others c g hne

theorem OnlySlots.islots {s t : State} (h : OnlySlots s t) (f : Core → Tab ISlot) :
    OnlySlots s (t.updCore s.cur.core (fun k => { k with islots := f k })) := by
  refine ⟨?_, fun q => h.counters q, ?_, ?_⟩
  · generalize hc : (State.updCore t s.cur.core _).cores = c
    conv => lhs; rw [show ∀ f, t.updCore s.cur.core f = { t with cores := (t.updCore s.cur.core f).cores } from fun _ => rfl, hc]
    rw [h.rest]; rfl
  · intro c
    rw [core_updCore]
    split
    · subst_vars; rw [h.cores]
    · exact h.cores c
  · intro c g hne
    have := h.others c g hne
    simp only [State.group, core_updCore] at *
    split <;> simp_all

theorem OnlySlots.slotIssued {s t : State} (h : OnlySlots s t) (G : Group) (y : BitVec 1) : OnlySlots s (t.slotIssued s.cur G y) := by
  unfold State.slotIssued
  dsimp only
  split
  · exact ((h.islots _).count G.part 1 1).count G.part 2 1
  · exact (h.islots _).count G.part 1 1

@[simp] theorem group_updCore_islots (s : State) (c d g : Nat) (f : Core → Tab ISlot) :
    (s.updCore c (fun k => { k with islots := f k })).group d g = s.group d g := by
  simp only [State.group, core_updCore]; split <;> simp_all

@[simp] theorem group_count (s : State) (p e n c g : Nat) : (s.count p e n).group c g = s.group c g := by
  unfold State.count; dsimp only; split <;> rfl

@[simp] theorem group_slotIssued (s : State) (X : Ctx) (G : Group) (y : BitVec 1) (c g : Nat) :
    (s.slotIssued X G y).group c g = s.group c g := by
  unfold State.slotIssued; dsimp only; split <;> simp

/-! ### Ready, DEADREAD, reads and allocations -/

theorem Calm.split {s : State} {G : Group} {p : Split} (h : Calm s G p) : G.split s.cur.split = some p := by
  simp [Group.split, h.only, h.num]

theorem Calm.busy {s : State} {G : Group} {p : Split} (h : Calm s G p) (sp : RSpace) (n : Nat) : G.busy sp n = false := by
  simp [Group.busy, h.idle]

theorem Calm.lastUse {s : State} {G : Group} {p : Split} (h : Calm s G p) : G.lastUse = true := by
  simp [Group.lastUse, h.only]

/-- A calm group's instruction is ready when its registers are MAPPED or EMPTY. -/
theorem ready_calm {s : State} {G : Group} {p : Split} {P : Plan} (h : Calm s G p) (hn : Named s G P) : s.ready s.cur G P = (s, true) := by
  have hp : (P.rv.eraseDups.any (fun n => (G.vreg n).st == .pending)) = false := by
    simp only [List.any_eq_false, List.mem_eraseDups]
    intro n hm; rcases hn.src n hm with e | e <;> simp [e]
  have hs : ∀ l : List Nat, (∀ n ∈ l, n ∈ P.rv ∨ n ∈ P.wv) → ∀ q : Nat → Bool,
      l.find? (fun n => (G.vreg n).st == .spilled && q n) = none := by
    intro l hl q
    simp only [List.find?_eq_none]
    intro n hm
    rcases hl n hm with e | e
    · rcases hn.src n e with e | e <;> simp [e]
    · rcases hn.dst n e with e | e <;> simp [e]
  unfold State.ready
  simp only [Group.guardUnknown, h.ahead, hp, Option.isNone_none, Bool.and_false, Bool.false_eq_true, if_false]
  rw [hs]
  · simp [h.busy, h.idle]
  · intro n hm
    simp only [List.mem_append, List.mem_eraseDups] at hm
    rcases hm with e | e
    · exact .inl e
    · right; split at e
      · simp at e
      · exact (List.mem_filter.mp e).1

/-- With TRAPEN = 0 no read of an EMPTY register traps. -/
theorem dead_quiet {s : State} {G : Group} {P : Plan} (X : Ctx) (h : fld G.deadread 1 1 = 0) : s.dead X G P = (s, true) := by
  unfold State.dead; split <;> simp [h]

theorem readDelivered_none {s : State} {c g n : Nat} {G : Group} (h : s.group c g = some G) (hd : (G.vreg n).st ≠ .delivered) :
    s.readDelivered c g n = s := by
  simp [State.readDelivered, h, hd]

theorem disarm_none {s : State} {c g n : Nat} {G : Group} (h : s.group c g = some G) (ha : G.arms = []) : s.disarm c g n = s := by
  simp [State.disarm, h, Group.armOf, ha]

theorem foldl_same {α β : Type} {f : β → α → β} {b : β} {l : List α} (h : ∀ a ∈ l, f b a = b) : l.foldl f b = b := by
  induction l with
  | nil => rfl
  | cons a l ih => simp only [List.foldl_cons, h a (by simp)]; exact ih (fun x hx => h x (by simp [hx]))

theorem vreg_foldl_setV (l : List Nat) (r : VReg) (G : Group) (n : Nat) :
    (l.foldl (fun G n => G.setV n r) G).vreg n = if n ∈ l then r else G.vreg n := by
  induction l generalizing G with
  | nil => simp
  | cons a l ih =>
    simp only [List.foldl_cons, ih, vreg_setV, List.mem_cons]
    by_cases h : n ∈ l <;> by_cases h' : n = a <;> simp [h, h']

theorem setV_same (G : Group) (f : Group → Nat → Group) (hf : ∀ G n, ∃ r, f G n = G.setV n r) (l : List Nat) :
    ∃ v, l.foldl f G = G.withV v := by
  induction l generalizing G with
  | nil => exact ⟨G.regs.v, rfl⟩
  | cons a l ih =>
    obtain ⟨r, hr⟩ := hf G a
    obtain ⟨v, hv⟩ := ih (f G a)
    refine ⟨v, ?_⟩
    rw [List.foldl_cons, hv, hr]; rfl

/-- A destination's register as an issue takes it, in a group that runs ahead of no page fault. -/
def taken (r : VReg) : VReg :=
  match r.st with
  | .mapped => r
  | .delivered => { r with st := .mapped, scope := 0, pin := false }
  | .empty | .spilled | .pending => { st := .mapped }

theorem foldl_taken (l : List Nat) (G : Group) (hG : G.ra = none) :
    l.foldl (fun G n =>
        match (G.vreg n).st with
        | .mapped => G.setV n (if G.ra.isSome then { G.vreg n with pin := false } else G.vreg n)
        | .delivered => G.setV n { G.vreg n with st := .mapped, scope := 0, pin := false }
        | .empty | .spilled | .pending => G.setV n { st := .mapped, val := [] }) G
      = l.foldl (fun G n => G.setV n (taken (G.vreg n))) G := by
  induction l generalizing G with
  | nil => rfl
  | cons a l ih =>
    simp only [List.foldl_cons]
    rw [ih _ (by split <;> exact hG)]
    congr 1
    unfold taken
    split <;> simp_all

theorem taken_taken (r : VReg) : taken (taken r) = taken r := by
  rcases r with ⟨st, _, _, _, _, _⟩; cases st <;> rfl

theorem vreg_foldl_taken (l : List Nat) (G : Group) (n : Nat) :
    (l.foldl (fun G n => G.setV n (taken (G.vreg n))) G).vreg n = if n ∈ l then taken (G.vreg n) else G.vreg n := by
  induction l generalizing G with
  | nil => simp
  | cons a l ih =>
    simp only [List.foldl_cons, ih, vreg_setV, List.mem_cons]
    by_cases h' : n = a
    · subst h'; simp [taken_taken]
    · simp [h']

/-- Reads, releases and allocations of a calm group. -/
theorem take_calm {s : State} {G : Group} {p : Split} {P : Plan} (h : Calm s G p) (hn : Named s G P) :
    ∃ (H : Group) (v : Tab VReg), s.take s.cur P = ((s.setGroup s.cur.core s.cur.slot H).setGroup s.cur.core s.cur.slot (G.withV v), true)
      ∧ ∀ n, v.get {} n = P.after G n := by
  have hrel : G.releases P = P.freed := by simp [Group.releases, h.lastUse, h.ahead, Plan.freed]
  obtain ⟨v1, hv1⟩ := setV_same G (fun G n => G.setV n {}) (fun G n => ⟨{}, rfl⟩) P.freed
  have hG1 : G.release P = G.withV v1 := hv1
  have hread : (P.rv.eraseDups).foldl (fun s n => s.readDelivered s.cur.core s.cur.slot n) s = s := by
    refine foldl_same (f := fun (s : State) n => s.readDelivered s.cur.core s.cur.slot n) ?_
    intro n hm
    refine readDelivered_none h.here ?_
    rcases hn.src n (List.mem_eraseDups.mp hm) with e | e <;> simp [e]
  have hread' : (P.rv.eraseDups).foldl (fun t n => State.readDelivered t s.cur.core s.cur.slot n) s = s := by
    refine foldl_same (f := fun (t : State) n => t.readDelivered s.cur.core s.cur.slot n) ?_
    intro n hm
    refine readDelivered_none h.here ?_
    rcases hn.src n (List.mem_eraseDups.mp hm) with e | e <;> simp [e]
  let s1 := s.setGroup s.cur.core s.cur.slot (G.release P)
  have hs1 : s1.group s.cur.core s.cur.slot = some (G.release P) := by simp [s1]
  have hdis : (P.wv.eraseDups).foldl (fun t n => State.disarm t s.cur.core s.cur.slot n) s1 = s1 := by
    refine foldl_same (f := fun (t : State) n => t.disarm s.cur.core s.cur.slot n) ?_
    intro n _
    exact disarm_none hs1 (by rw [hG1]; exact h.arms)
  obtain ⟨v2, hv2⟩ := setV_same (G.release P) (fun G n => G.setV n (taken (G.vreg n))) (fun G n => ⟨_, rfl⟩) P.wv.eraseDups
  refine ⟨G.release P, v2, ?_, ?_⟩
  · have hc : s.tight s.cur G P = false := by
      unfold State.tight
      dsimp only
      rw [hrel, show P.freed.foldl (fun G n => G.setV n {}) G = G.release P from rfl]
      rcases hn.room with e | e <;> simp [Group.need, h.ahead, e]
    unfold State.take
    rw [h.here]
    dsimp only
    rw [hrel, hc]
    simp only [h.ahead, Option.isSome_none, Bool.false_eq_true, if_false]
    rw [hread', updGroup_of s _ _ _ h.here]
    rw [show P.freed.foldl (fun G n => G.setV n {}) G = G.release P from rfl, hdis, updGroup_of _ _ _ _ hs1]
    have hf := foldl_taken P.wv.eraseDups (G.release P) (by rw [hG1]; exact h.ahead)
    have hw : (G.release P).withV v2 = G.withV v2 := by rw [hG1]; rfl
    rw [hv2, hw] at hf
    exact congrArg₂ Prod.mk (congrArg (State.setGroup s1 s.cur.core s.cur.slot) hf) rfl
  · intro n
    have := vreg_foldl_taken P.wv.eraseDups (G.release P) n
    rw [hv2] at this
    have hr : (G.release P).vreg n = if n ∈ P.freed then {} else G.vreg n := vreg_foldl_setV P.freed {} G n
    rw [hr] at this
    have hmem : n ∈ P.freed ↔ n ∈ P.lu ∧ n ∉ P.wv ∧ n ∉ P.nd := by simp [Plan.freed, List.mem_filter]
    simp only [Group.vreg, List.mem_eraseDups] at this
    rw [show v2.get {} n = _ from this]
    unfold Plan.after
    by_cases hw : n ∈ P.wv
    · have hf : ¬ n ∈ P.freed := by rw [hmem]; tauto
      simp only [hw, if_true, hf, if_false, List.contains_iff_mem]
      rcases hn.dst n hw with e | e <;> simp [taken, Group.vreg] at * <;> simp [e]
    · by_cases hl : n ∈ P.lu ∧ n ∉ P.nd
      · have hf : n ∈ P.freed := by rw [hmem]; tauto
        simp [hw, hl, hf]
      · have hf : ¬ n ∈ P.freed := by rw [hmem]; tauto
        simp [hw, hl, hf, Group.vreg]

/-! ### The whole -/

/-- The state with the current group replaced. -/
theorem noteDead_calm {t : State} {G H : Group} {P : Plan} (X : Ctx) (h : t.group X.core X.slot = some H) (ha : G.ra = none)
    (hd : H.deadread = G.deadread) :
    t.noteDead X G P = t ∧ P.deadread X G = G.deadread ∨
    t.noteDead X G P = t.setGroup X.core X.slot { H with deadread := P.deadread X G } := by
  unfold State.noteDead Plan.deadread
  cases hl : G.deadReads X P with
  | nil => left; simp
  | cons n ns =>
    right
    simp only [ha, Option.isSome_none, Bool.false_eq_true, if_false]
    rw [updGroup_of _ _ _ _ h, hd]

/-- An issued instruction is posted: it is in flight, and its split has moved on. -/
theorem issueWith_calm {s : State} {G : Group} {p : Split} {P : Plan} (y : BitVec 1) (inf : Inflight) (ha : inf.ahead = false)
    (h : Calm s G p) (hn : Named s G P) : Issued s (s.issueWith s.cur G P y inf id) G p P (p.pc + 8) inf := by
  obtain ⟨H, v, htake, hv⟩ := take_calm h hn
  unfold State.issueWith
  rw [ready_calm h hn]
  dsimp only
  rw [dead_quiet _ hn.quiet]
  dsimp only
  rw [htake]
  dsimp only [id]
  have o1 : OnlySlots s ((s.setGroup s.cur.core s.cur.slot H).setGroup s.cur.core s.cur.slot (G.withV v)) :=
    ((OnlySlots.refl s).setGroup H).setGroup _
  generalize ht : (s.setGroup s.cur.core s.cur.slot H).setGroup s.cur.core s.cur.slot (G.withV v) = t at o1
  have hg : t.group s.cur.core s.cur.slot = some (G.withV v) := by rw [← ht]; simp
  have key : ∃ u, t.noteDead s.cur G P = u ∧ OnlySlots s u ∧
      u.group s.cur.core s.cur.slot = some { G.withV v with deadread := P.deadread s.cur G } := by
    refine ⟨_, rfl, ?_, ?_⟩
    · rcases noteDead_calm (P := P) s.cur hg h.ahead rfl with ⟨e, _⟩ | e <;> rw [e]
      · exact o1
      · exact o1.setGroup _
    · rcases noteDead_calm (P := P) s.cur hg h.ahead rfl with ⟨e, f⟩ | e <;> rw [e]
      · rw [hg, f]; rfl
      · simp
  obtain ⟨u, hu, o2, hgu⟩ := key
  rw [hu]
  have hcyc : u.cycle = s.cycle := by rw [o2.rest]
  unfold State.post
  rw [hgu]
  refine ⟨?_, v, ?_, hv⟩
  · exact (o2.setGroup _).slotIssued _ _
  · rw [group_slotIssued, group_setGroup_same]
    simp [Group.withV, Group.updSplit, updIf, h.only, h.num, h.ahead, h.idle, Split.issued, hcyc, ha]

/-- An instruction that only computes issues. -/
theorem compute_calm {s : State} {G : Group} {p : Split} {P : Plan} (y : BitVec 1) (ws : List RegW)
    (h : Calm s G p) (hn : Named s G P) :
    Issued s (s.compute s.cur G P y ws) G p P (p.pc + 8) { id := 0, split := 0, pc := 0, writes := ws } :=
  issueWith_calm y _ rfl h hn

/-- The beginning of an instruction's issue in a calm group: with an active lane, or for a control instruction. -/
theorem begin_calm {s : State} {G : Group} {p : Split} {i : Instr} (control : Bool) (k : State → Ctx → Group → Split → State)
    (h : Calm s G p) (hl : Legal s G i) (ha : control = true ∨ p.am ≠ 0) : s.begin i control k = k s s.cur G p := by
  have hc : (p.am == 0 && !control) = false := by
    rcases ha with e | e
    · simp [e]
    · have : (p.am == 0) = false := by simpa using e
      rw [this]; rfl
  unfold State.begin
  simp only [h.here, h.split, h.ahead, h.answered, show i.check (s.env G) = none from hl, hc]
  simp

end Sys2Proof.Machine
end

