-- ==== Sys2Proof/Laws/Memory.lean ====
section
/-! SUPPORT. Every write of memory keeps its canonical form. -/

namespace Sys2Proof.Machine

theorem memAbove_cons (o : Option Nat) (b : Nat) (x : Byte) (m : List Host.Cell) :
    memAbove o ((b, x) :: m) = true ↔ (∀ a, o = some a → a < b) ∧ x ≠ emptyByte ∧ memAbove (some b) m = true := by
  cases o <;> simp [memAbove, and_assoc]

/-- A bound below the first address may be lowered or dropped. -/
theorem memAbove_weaken {o : Option Nat} {b : Nat} {m : List Host.Cell} (h : memAbove (some b) m = true) (hb : ∀ a, o = some a → a ≤ b) :
    memAbove o m = true := by
  match m with
  | [] => rfl
  | (c, x) :: m =>
    rw [memAbove_cons] at h ⊢
    exact ⟨fun a ha => lt_of_le_of_lt (hb a ha) (h.1 b rfl), h.2⟩

/-- A write above a bound keeps the rising order above it, and lists no byte that an unlisted address holds. -/
theorem memAbove_memSet {o : Option Nat} {m : List Host.Cell} (h : memAbove o m = true) {a : Nat} (ha : ∀ b, o = some b → b < a) (x : Byte) :
    memAbove o (memSet m a x) = true := by
  induction m generalizing o with
  | nil =>
    unfold memSet
    split
    · exact h
    · exact (memAbove_cons ..).mpr ⟨ha, ‹_›, rfl⟩
  | cons c m ih =>
    obtain ⟨b, y⟩ := c
    have hc := (memAbove_cons ..).mp h
    unfold memSet
    split
    · split
      · exact h
      · exact (memAbove_cons ..).mpr ⟨ha, ‹_›, (memAbove_cons ..).mpr ⟨fun _ e => by cases e; assumption, hc.2⟩⟩
    · split
      · subst_vars
        split
        · exact memAbove_weaken hc.2.2 fun d e => le_of_lt (hc.1 d e)
        · exact (memAbove_cons ..).mpr ⟨hc.1, ‹_›, hc.2.2⟩
      · exact (memAbove_cons ..).mpr ⟨hc.1, hc.2.1, ih hc.2.2 fun _ e => by cases e; omega⟩

theorem wf_memSet {m : List Host.Cell} (h : Memory.wf m = true) (a : Nat) (x : Byte) : Memory.wf (memSet m a x) = true :=
  memAbove_memSet h (fun _ e => nomatch e) x

theorem wf_memSetAll {m : List Host.Cell} (h : Memory.wf m = true) (cs : List Host.Cell) : Memory.wf (memSetAll m cs) = true := by
  unfold memSetAll
  induction cs generalizing m with
  | nil => exact h
  | cons c cs ih => exact ih (wf_memSet h c.1 c.2)

end Sys2Proof.Machine
end

