-- ==== Sys2Proof/Laws/PerInstr.lean ====
section
/-! SUPPORT. Per instruction: the word of an instruction holds that instruction; an event of the table has no word. -/

namespace Sys2Proof.Laws.RoundTrip

set_option Elab.async false

/-- The word that the encoder gives an instruction is read back as that instruction. -/
def Statement (i : Instr) : Prop := ∀ w, encode i = some w → decodeWord w = some i

theorem nop (f : FmtS) : Statement (.nop f) := by
  intro w h; cases h; unfold decodeWord; rw [opcode_encodeS]; exact congrArg (fun x => some (Instr.nop x)) (decodeS_encodeS _ f)
theorem exit (f : FmtS) : Statement (.exit f) := by
  intro w h; cases h; unfold decodeWord; rw [opcode_encodeS]; exact congrArg (fun x => some (Instr.exit x)) (decodeS_encodeS _ f)
theorem trap (f : FmtS) : Statement (.trap f) := by
  intro w h; cases h; unfold decodeWord; rw [opcode_encodeS]; exact congrArg (fun x => some (Instr.trap x)) (decodeS_encodeS _ f)
theorem bkpt (f : FmtS) : Statement (.bkpt f) := by
  intro w h; cases h; unfold decodeWord; rw [opcode_encodeS]; exact congrArg (fun x => some (Instr.bkpt x)) (decodeS_encodeS _ f)
theorem safept (f : FmtS) : Statement (.safept f) := by
  intro w h; cases h; unfold decodeWord; rw [opcode_encodeS]; exact congrArg (fun x => some (Instr.safept x)) (decodeS_encodeS _ f)
theorem sread (f : FmtS) : Statement (.sread f) := by
  intro w h; cases h; unfold decodeWord; rw [opcode_encodeS]; exact congrArg (fun x => some (Instr.sread x)) (decodeS_encodeS _ f)
theorem swrite (f : FmtS) : Statement (.swrite f) := by
  intro w h; cases h; unfold decodeWord; rw [opcode_encodeS]; exact congrArg (fun x => some (Instr.swrite x)) (decodeS_encodeS _ f)
theorem awlimitReqWrite (core : Nat) (slot : Nat) (req : W64) : Statement (.awlimitReqWrite core slot req) := by
  intro w h; cases h
theorem accumulatorAllocation (tid : Nat) : Statement (.accumulatorAllocation tid) := by
  intro w h; cases h
theorem clk (f : FmtS) : Statement (.clk f) := by
  intro w h; cases h; unfold decodeWord; rw [opcode_encodeS]; exact congrArg (fun x => some (Instr.clk x)) (decodeS_encodeS _ f)
theorem rth (f : FmtS) : Statement (.rth f) := by
  intro w h; cases h; unfold decodeWord; rw [opcode_encodeS]; exact congrArg (fun x => some (Instr.rth x)) (decodeS_encodeS _ f)
theorem add (f : FmtR) : Statement (.add f) := by
  intro w h; cases h; unfold decodeWord; rw [opcode_encodeR]; exact congrArg (fun x => some (Instr.add x)) (decodeR_encodeR _ f)
theorem sub (f : FmtR) : Statement (.sub f) := by
  intro w h; cases h; unfold decodeWord; rw [opcode_encodeR]; exact congrArg (fun x => some (Instr.sub x)) (decodeR_encodeR _ f)
theorem mul (f : FmtR) : Statement (.mul f) := by
  intro w h; cases h; unfold decodeWord; rw [opcode_encodeR]; exact congrArg (fun x => some (Instr.mul x)) (decodeR_encodeR _ f)
theorem mulhi (f : FmtR) : Statement (.mulhi f) := by
  intro w h; cases h; unfold decodeWord; rw [opcode_encodeR]; exact congrArg (fun x => some (Instr.mulhi x)) (decodeR_encodeR _ f)
theorem mad (f : FmtR) : Statement (.mad f) := by
  intro w h; cases h; unfold decodeWord; rw [opcode_encodeR]; exact congrArg (fun x => some (Instr.mad x)) (decodeR_encodeR _ f)
theorem div (f : FmtR) : Statement (.div f) := by
  intro w h; cases h; unfold decodeWord; rw [opcode_encodeR]; exact congrArg (fun x => some (Instr.div x)) (decodeR_encodeR _ f)
theorem rem (f : FmtR) : Statement (.rem f) := by
  intro w h; cases h; unfold decodeWord; rw [opcode_encodeR]; exact congrArg (fun x => some (Instr.rem x)) (decodeR_encodeR _ f)
theorem min (f : FmtR) : Statement (.min f) := by
  intro w h; cases h; unfold decodeWord; rw [opcode_encodeR]; exact congrArg (fun x => some (Instr.min x)) (decodeR_encodeR _ f)
theorem max (f : FmtR) : Statement (.max f) := by
  intro w h; cases h; unfold decodeWord; rw [opcode_encodeR]; exact congrArg (fun x => some (Instr.max x)) (decodeR_encodeR _ f)
theorem abs (f : FmtR) : Statement (.abs f) := by
  intro w h; cases h; unfold decodeWord; rw [opcode_encodeR]; exact congrArg (fun x => some (Instr.abs x)) (decodeR_encodeR _ f)
theorem neg (f : FmtR) : Statement (.neg f) := by
  intro w h; cases h; unfold decodeWord; rw [opcode_encodeR]; exact congrArg (fun x => some (Instr.neg x)) (decodeR_encodeR _ f)
theorem lea (f : FmtR) : Statement (.lea f) := by
  intro w h; cases h; unfold decodeWord; rw [opcode_encodeR]; exact congrArg (fun x => some (Instr.lea x)) (decodeR_encodeR _ f)
theorem and (f : FmtR) : Statement (.and f) := by
  intro w h; cases h; unfold decodeWord; rw [opcode_encodeR]; exact congrArg (fun x => some (Instr.and x)) (decodeR_encodeR _ f)
theorem or (f : FmtR) : Statement (.or f) := by
  intro w h; cases h; unfold decodeWord; rw [opcode_encodeR]; exact congrArg (fun x => some (Instr.or x)) (decodeR_encodeR _ f)
theorem xor (f : FmtR) : Statement (.xor f) := by
  intro w h; cases h; unfold decodeWord; rw [opcode_encodeR]; exact congrArg (fun x => some (Instr.xor x)) (decodeR_encodeR _ f)
theorem not (f : FmtR) : Statement (.not f) := by
  intro w h; cases h; unfold decodeWord; rw [opcode_encodeR]; exact congrArg (fun x => some (Instr.not x)) (decodeR_encodeR _ f)
theorem shl (f : FmtR) : Statement (.shl f) := by
  intro w h; cases h; unfold decodeWord; rw [opcode_encodeR]; exact congrArg (fun x => some (Instr.shl x)) (decodeR_encodeR _ f)
theorem shr (f : FmtR) : Statement (.shr f) := by
  intro w h; cases h; unfold decodeWord; rw [opcode_encodeR]; exact congrArg (fun x => some (Instr.shr x)) (decodeR_encodeR _ f)
theorem sar (f : FmtR) : Statement (.sar f) := by
  intro w h; cases h; unfold decodeWord; rw [opcode_encodeR]; exact congrArg (fun x => some (Instr.sar x)) (decodeR_encodeR _ f)
theorem rot (f : FmtR) : Statement (.rot f) := by
  intro w h; cases h; unfold decodeWord; rw [opcode_encodeR]; exact congrArg (fun x => some (Instr.rot x)) (decodeR_encodeR _ f)
theorem bfe (f : FmtR) : Statement (.bfe f) := by
  intro w h; cases h; unfold decodeWord; rw [opcode_encodeR]; exact congrArg (fun x => some (Instr.bfe x)) (decodeR_encodeR _ f)
theorem bfi (f : FmtR) : Statement (.bfi f) := by
  intro w h; cases h; unfold decodeWord; rw [opcode_encodeR]; exact congrArg (fun x => some (Instr.bfi x)) (decodeR_encodeR _ f)
theorem brev (f : FmtR) : Statement (.brev f) := by
  intro w h; cases h; unfold decodeWord; rw [opcode_encodeR]; exact congrArg (fun x => some (Instr.brev x)) (decodeR_encodeR _ f)
theorem popc (f : FmtR) : Statement (.popc f) := by
  intro w h; cases h; unfold decodeWord; rw [opcode_encodeR]; exact congrArg (fun x => some (Instr.popc x)) (decodeR_encodeR _ f)
theorem clz (f : FmtR) : Statement (.clz f) := by
  intro w h; cases h; unfold decodeWord; rw [opcode_encodeR]; exact congrArg (fun x => some (Instr.clz x)) (decodeR_encodeR _ f)
theorem ctz (f : FmtR) : Statement (.ctz f) := by
  intro w h; cases h; unfold decodeWord; rw [opcode_encodeR]; exact congrArg (fun x => some (Instr.ctz x)) (decodeR_encodeR _ f)
theorem tcnt (f : FmtR) : Statement (.tcnt f) := by
  intro w h; cases h; unfold decodeWord; rw [opcode_encodeR]; exact congrArg (fun x => some (Instr.tcnt x)) (decodeR_encodeR _ f)
theorem cmp (f : FmtR) : Statement (.cmp f) := by
  intro w h; cases h; unfold decodeWord; rw [opcode_encodeR]; exact congrArg (fun x => some (Instr.cmp x)) (decodeR_encodeR _ f)
theorem pand (f : FmtR) : Statement (.pand f) := by
  intro w h; cases h; unfold decodeWord; rw [opcode_encodeR]; exact congrArg (fun x => some (Instr.pand x)) (decodeR_encodeR _ f)
theorem por (f : FmtR) : Statement (.por f) := by
  intro w h; cases h; unfold decodeWord; rw [opcode_encodeR]; exact congrArg (fun x => some (Instr.por x)) (decodeR_encodeR _ f)
theorem pxor (f : FmtR) : Statement (.pxor f) := by
  intro w h; cases h; unfold decodeWord; rw [opcode_encodeR]; exact congrArg (fun x => some (Instr.pxor x)) (decodeR_encodeR _ f)
theorem pnot (f : FmtR) : Statement (.pnot f) := by
  intro w h; cases h; unfold decodeWord; rw [opcode_encodeR]; exact congrArg (fun x => some (Instr.pnot x)) (decodeR_encodeR _ f)
theorem sel (f : FmtR) : Statement (.sel f) := by
  intro w h; cases h; unfold decodeWord; rw [opcode_encodeR]; exact congrArg (fun x => some (Instr.sel x)) (decodeR_encodeR _ f)
theorem mov (f : FmtR) : Statement (.mov f) := by
  intro w h; cases h; unfold decodeWord; rw [opcode_encodeR]; exact congrArg (fun x => some (Instr.mov x)) (decodeR_encodeR _ f)
theorem movi (f : FmtK) : Statement (.movi f) := by
  intro w h; cases h; unfold decodeWord; rw [opcode_encodeK]; exact congrArg (fun x => some (Instr.movi x)) (decodeK_encodeK _ f)
theorem movx (f : FmtR) : Statement (.movx f) := by
  intro w h; cases h; unfold decodeWord; rw [opcode_encodeR]; exact congrArg (fun x => some (Instr.movx x)) (decodeR_encodeR _ f)
theorem movxw (f : FmtR) : Statement (.movxw f) := by
  intro w h; cases h; unfold decodeWord; rw [opcode_encodeR]; exact congrArg (fun x => some (Instr.movxw x)) (decodeR_encodeR _ f)
theorem addI (f : FmtI) : Statement (.addI f) := by
  intro w h; cases h; unfold decodeWord; rw [opcode_encodeI]; exact congrArg (fun x => some (Instr.addI x)) (decodeI_encodeI _ f)
theorem subI (f : FmtI) : Statement (.subI f) := by
  intro w h; cases h; unfold decodeWord; rw [opcode_encodeI]; exact congrArg (fun x => some (Instr.subI x)) (decodeI_encodeI _ f)
theorem mulI (f : FmtI) : Statement (.mulI f) := by
  intro w h; cases h; unfold decodeWord; rw [opcode_encodeI]; exact congrArg (fun x => some (Instr.mulI x)) (decodeI_encodeI _ f)
theorem andI (f : FmtI) : Statement (.andI f) := by
  intro w h; cases h; unfold decodeWord; rw [opcode_encodeI]; exact congrArg (fun x => some (Instr.andI x)) (decodeI_encodeI _ f)
theorem orI (f : FmtI) : Statement (.orI f) := by
  intro w h; cases h; unfold decodeWord; rw [opcode_encodeI]; exact congrArg (fun x => some (Instr.orI x)) (decodeI_encodeI _ f)
theorem xorI (f : FmtI) : Statement (.xorI f) := by
  intro w h; cases h; unfold decodeWord; rw [opcode_encodeI]; exact congrArg (fun x => some (Instr.xorI x)) (decodeI_encodeI _ f)
theorem shlI (f : FmtI) : Statement (.shlI f) := by
  intro w h; cases h; unfold decodeWord; rw [opcode_encodeI]; exact congrArg (fun x => some (Instr.shlI x)) (decodeI_encodeI _ f)
theorem shrI (f : FmtI) : Statement (.shrI f) := by
  intro w h; cases h; unfold decodeWord; rw [opcode_encodeI]; exact congrArg (fun x => some (Instr.shrI x)) (decodeI_encodeI _ f)
theorem sarI (f : FmtI) : Statement (.sarI f) := by
  intro w h; cases h; unfold decodeWord; rw [opcode_encodeI]; exact congrArg (fun x => some (Instr.sarI x)) (decodeI_encodeI _ f)
theorem rotI (f : FmtI) : Statement (.rotI f) := by
  intro w h; cases h; unfold decodeWord; rw [opcode_encodeI]; exact congrArg (fun x => some (Instr.rotI x)) (decodeI_encodeI _ f)
theorem cmpI (f : FmtI) : Statement (.cmpI f) := by
  intro w h; cases h; unfold decodeWord; rw [opcode_encodeI]; exact congrArg (fun x => some (Instr.cmpI x)) (decodeI_encodeI _ f)
theorem minI (f : FmtI) : Statement (.minI f) := by
  intro w h; cases h; unfold decodeWord; rw [opcode_encodeI]; exact congrArg (fun x => some (Instr.minI x)) (decodeI_encodeI _ f)
theorem maxI (f : FmtI) : Statement (.maxI f) := by
  intro w h; cases h; unfold decodeWord; rw [opcode_encodeI]; exact congrArg (fun x => some (Instr.maxI x)) (decodeI_encodeI _ f)
theorem bfeI (f : FmtI) : Statement (.bfeI f) := by
  intro w h; cases h; unfold decodeWord; rw [opcode_encodeI]; exact congrArg (fun x => some (Instr.bfeI x)) (decodeI_encodeI _ f)
theorem fadd (f : FmtR) : Statement (.fadd f) := by
  intro w h; cases h; unfold decodeWord; rw [opcode_encodeR]; exact congrArg (fun x => some (Instr.fadd x)) (decodeR_encodeR _ f)
theorem fsub (f : FmtR) : Statement (.fsub f) := by
  intro w h; cases h; unfold decodeWord; rw [opcode_encodeR]; exact congrArg (fun x => some (Instr.fsub x)) (decodeR_encodeR _ f)
theorem fmul (f : FmtR) : Statement (.fmul f) := by
  intro w h; cases h; unfold decodeWord; rw [opcode_encodeR]; exact congrArg (fun x => some (Instr.fmul x)) (decodeR_encodeR _ f)
theorem fma (f : FmtR) : Statement (.fma f) := by
  intro w h; cases h; unfold decodeWord; rw [opcode_encodeR]; exact congrArg (fun x => some (Instr.fma x)) (decodeR_encodeR _ f)
theorem fmin (f : FmtR) : Statement (.fmin f) := by
  intro w h; cases h; unfold decodeWord; rw [opcode_encodeR]; exact congrArg (fun x => some (Instr.fmin x)) (decodeR_encodeR _ f)
theorem fmax (f : FmtR) : Statement (.fmax f) := by
  intro w h; cases h; unfold decodeWord; rw [opcode_encodeR]; exact congrArg (fun x => some (Instr.fmax x)) (decodeR_encodeR _ f)
theorem fclass (f : FmtR) : Statement (.fclass f) := by
  intro w h; cases h; unfold decodeWord; rw [opcode_encodeR]; exact congrArg (fun x => some (Instr.fclass x)) (decodeR_encodeR _ f)
theorem frcp (f : FmtR) : Statement (.frcp f) := by
  intro w h; cases h; unfold decodeWord; rw [opcode_encodeR]; exact congrArg (fun x => some (Instr.frcp x)) (decodeR_encodeR _ f)
theorem frsq (f : FmtR) : Statement (.frsq f) := by
  intro w h; cases h; unfold decodeWord; rw [opcode_encodeR]; exact congrArg (fun x => some (Instr.frsq x)) (decodeR_encodeR _ f)
theorem fsqrt (f : FmtR) : Statement (.fsqrt f) := by
  intro w h; cases h; unfold decodeWord; rw [opcode_encodeR]; exact congrArg (fun x => some (Instr.fsqrt x)) (decodeR_encodeR _ f)
theorem fexp2 (f : FmtR) : Statement (.fexp2 f) := by
  intro w h; cases h; unfold decodeWord; rw [opcode_encodeR]; exact congrArg (fun x => some (Instr.fexp2 x)) (decodeR_encodeR _ f)
theorem flog2 (f : FmtR) : Statement (.flog2 f) := by
  intro w h; cases h; unfold decodeWord; rw [opcode_encodeR]; exact congrArg (fun x => some (Instr.flog2 x)) (decodeR_encodeR _ f)
theorem fcmp (f : FmtR) : Statement (.fcmp f) := by
  intro w h; cases h; unfold decodeWord; rw [opcode_encodeR]; exact congrArg (fun x => some (Instr.fcmp x)) (decodeR_encodeR _ f)
theorem cvt (f : FmtR) : Statement (.cvt f) := by
  intro w h; cases h; unfold decodeWord; rw [opcode_encodeR]; exact congrArg (fun x => some (Instr.cvt x)) (decodeR_encodeR _ f)
theorem ifThen (f : FmtB) : Statement (.ifThen f) := by
  intro w h; cases h; unfold decodeWord; rw [opcode_encodeB]; exact congrArg (fun x => some (Instr.ifThen x)) (decodeB_encodeB _ f)
theorem ifs (f : FmtB) : Statement (.ifs f) := by
  intro w h; cases h; unfold decodeWord; rw [opcode_encodeB]; exact congrArg (fun x => some (Instr.ifs x)) (decodeB_encodeB _ f)
theorem elseArm (f : FmtB) : Statement (.elseArm f) := by
  intro w h; cases h; unfold decodeWord; rw [opcode_encodeB]; exact congrArg (fun x => some (Instr.elseArm x)) (decodeB_encodeB _ f)
theorem endif (f : FmtB) : Statement (.endif f) := by
  intro w h; cases h; unfold decodeWord; rw [opcode_encodeB]; exact congrArg (fun x => some (Instr.endif x)) (decodeB_encodeB _ f)
theorem loop (f : FmtB) : Statement (.loop f) := by
  intro w h; cases h; unfold decodeWord; rw [opcode_encodeB]; exact congrArg (fun x => some (Instr.loop x)) (decodeB_encodeB _ f)
theorem endloop (f : FmtB) : Statement (.endloop f) := by
  intro w h; cases h; unfold decodeWord; rw [opcode_encodeB]; exact congrArg (fun x => some (Instr.endloop x)) (decodeB_encodeB _ f)
theorem breakLoop (f : FmtB) : Statement (.breakLoop f) := by
  intro w h; cases h; unfold decodeWord; rw [opcode_encodeB]; exact congrArg (fun x => some (Instr.breakLoop x)) (decodeB_encodeB _ f)
theorem continueLoop (f : FmtB) : Statement (.continueLoop f) := by
  intro w h; cases h; unfold decodeWord; rw [opcode_encodeB]; exact congrArg (fun x => some (Instr.continueLoop x)) (decodeB_encodeB _ f)
theorem call (f : FmtB) : Statement (.call f) := by
  intro w h; cases h; unfold decodeWord; rw [opcode_encodeB]; exact congrArg (fun x => some (Instr.call x)) (decodeB_encodeB _ f)
theorem ret (f : FmtB) : Statement (.ret f) := by
  intro w h; cases h; unfold decodeWord; rw [opcode_encodeB]; exact congrArg (fun x => some (Instr.ret x)) (decodeB_encodeB _ f)
theorem lxch (f : FmtR) : Statement (.lxch f) := by
  intro w h; cases h; unfold decodeWord; rw [opcode_encodeR]; exact congrArg (fun x => some (Instr.lxch x)) (decodeR_encodeR _ f)
theorem pqry (f : FmtR) : Statement (.pqry f) := by
  intro w h; cases h; unfold decodeWord; rw [opcode_encodeR]; exact congrArg (fun x => some (Instr.pqry x)) (decodeR_encodeR _ f)
theorem red (f : FmtR) : Statement (.red f) := by
  intro w h; cases h; unfold decodeWord; rw [opcode_encodeR]; exact congrArg (fun x => some (Instr.red x)) (decodeR_encodeR _ f)
theorem scan (f : FmtR) : Statement (.scan f) := by
  intro w h; cases h; unfold decodeWord; rw [opcode_encodeR]; exact congrArg (fun x => some (Instr.scan x)) (decodeR_encodeR _ f)
theorem matchLanes (f : FmtR) : Statement (.matchLanes f) := by
  intro w h; cases h; unfold decodeWord; rw [opcode_encodeR]; exact congrArg (fun x => some (Instr.matchLanes x)) (decodeR_encodeR _ f)
theorem elect (f : FmtR) : Statement (.elect f) := by
  intro w h; cases h; unfold decodeWord; rw [opcode_encodeR]; exact congrArg (fun x => some (Instr.elect x)) (decodeR_encodeR _ f)
theorem bcast (f : FmtR) : Statement (.bcast f) := by
  intro w h; cases h; unfold decodeWord; rw [opcode_encodeR]; exact congrArg (fun x => some (Instr.bcast x)) (decodeR_encodeR _ f)
theorem topk (f : FmtR) : Statement (.topk f) := by
  intro w h; cases h; unfold decodeWord; rw [opcode_encodeR]; exact congrArg (fun x => some (Instr.topk x)) (decodeR_encodeR _ f)
theorem barinit (f : FmtR) : Statement (.barinit f) := by
  intro w h; cases h; unfold decodeWord; rw [opcode_encodeR]; exact congrArg (fun x => some (Instr.barinit x)) (decodeR_encodeR _ f)
theorem bararv (f : FmtR) : Statement (.bararv f) := by
  intro w h; cases h; unfold decodeWord; rw [opcode_encodeR]; exact congrArg (fun x => some (Instr.bararv x)) (decodeR_encodeR _ f)
theorem barwait (f : FmtR) : Statement (.barwait f) := by
  intro w h; cases h; unfold decodeWord; rw [opcode_encodeR]; exact congrArg (fun x => some (Instr.barwait x)) (decodeR_encodeR _ f)
theorem barinv (f : FmtR) : Statement (.barinv f) := by
  intro w h; cases h; unfold decodeWord; rw [opcode_encodeR]; exact congrArg (fun x => some (Instr.barinv x)) (decodeR_encodeR _ f)
theorem arm (f : FmtR) : Statement (.arm f) := by
  intro w h; cases h; unfold decodeWord; rw [opcode_encodeR]; exact congrArg (fun x => some (Instr.arm x)) (decodeR_encodeR _ f)
theorem cap (f : FmtR) : Statement (.cap f) := by
  intro w h; cases h; unfold decodeWord; rw [opcode_encodeR]; exact congrArg (fun x => some (Instr.cap x)) (decodeR_encodeR _ f)
theorem send (f : FmtR) : Statement (.send f) := by
  intro w h; cases h; unfold decodeWord; rw [opcode_encodeR]; exact congrArg (fun x => some (Instr.send x)) (decodeR_encodeR _ f)
theorem disarm (f : FmtR) : Statement (.disarm f) := by
  intro w h; cases h; unfold decodeWord; rw [opcode_encodeR]; exact congrArg (fun x => some (Instr.disarm x)) (decodeR_encodeR _ f)
theorem place (f : FmtR) : Statement (.place f) := by
  intro w h; cases h; unfold decodeWord; rw [opcode_encodeR]; exact congrArg (fun x => some (Instr.place x)) (decodeR_encodeR _ f)
theorem scope (f : FmtR) : Statement (.scope f) := by
  intro w h; cases h; unfold decodeWord; rw [opcode_encodeR]; exact congrArg (fun x => some (Instr.scope x)) (decodeR_encodeR _ f)
theorem deliveryArrival (did : Nat) : Statement (.deliveryArrival did) := by
  intro w h; cases h
theorem sendOutcomeReturn (did : Nat) : Statement (.sendOutcomeReturn did) := by
  intro w h; cases h
theorem twin (f : FmtX) : Statement (.twin f) := by
  intro w h; cases h; unfold decodeWord; rw [opcode_encodeX]; exact congrArg (fun x => some (Instr.twin x)) (decodeX_encodeX _ f)
theorem tldw (f : FmtX) : Statement (.tldw f) := by
  intro w h; cases h; unfold decodeWord; rw [opcode_encodeX]; exact congrArg (fun x => some (Instr.tldw x)) (decodeX_encodeX _ f)
theorem tldws (f : FmtX) : Statement (.tldws f) := by
  intro w h; cases h; unfold decodeWord; rw [opcode_encodeX]; exact congrArg (fun x => some (Instr.tldws x)) (decodeX_encodeX _ f)
theorem tmma (f : FmtX) : Statement (.tmma f) := by
  intro w h; cases h; unfold decodeWord; rw [opcode_encodeX]; exact congrArg (fun x => some (Instr.tmma x)) (decodeX_encodeX _ f)
theorem tmmaq (f : FmtX) : Statement (.tmmaq f) := by
  intro w h; cases h; unfold decodeWord; rw [opcode_encodeX]; exact congrArg (fun x => some (Instr.tmmaq x)) (decodeX_encodeX _ f)
theorem tfeed (f : FmtX) : Statement (.tfeed f) := by
  intro w h; cases h; unfold decodeWord; rw [opcode_encodeX]; exact congrArg (fun x => some (Instr.tfeed x)) (decodeX_encodeX _ f)
theorem tzero (f : FmtX) : Statement (.tzero f) := by
  intro w h; cases h; unfold decodeWord; rw [opcode_encodeX]; exact congrArg (fun x => some (Instr.tzero x)) (decodeX_encodeX _ f)
theorem tdrain (f : FmtX) : Statement (.tdrain f) := by
  intro w h; cases h; unfold decodeWord; rw [opcode_encodeX]; exact congrArg (fun x => some (Instr.tdrain x)) (decodeX_encodeX _ f)
theorem twait (f : FmtX) : Statement (.twait f) := by
  intro w h; cases h; unfold decodeWord; rw [opcode_encodeX]; exact congrArg (fun x => some (Instr.twait x)) (decodeX_encodeX _ f)
theorem tbound (f : FmtX) : Statement (.tbound f) := by
  intro w h; cases h; unfold decodeWord; rw [opcode_encodeX]; exact congrArg (fun x => some (Instr.tbound x)) (decodeX_encodeX _ f)
theorem thist (f : FmtX) : Statement (.thist f) := by
  intro w h; cases h; unfold decodeWord; rw [opcode_encodeX]; exact congrArg (fun x => some (Instr.thist x)) (decodeX_encodeX _ f)
theorem trecode (f : FmtX) : Statement (.trecode f) := by
  intro w h; cases h; unfold decodeWord; rw [opcode_encodeX]; exact congrArg (fun x => some (Instr.trecode x)) (decodeX_encodeX _ f)
theorem tdecode (f : FmtX) : Statement (.tdecode f) := by
  intro w h; cases h; unfold decodeWord; rw [opcode_encodeX]; exact congrArg (fun x => some (Instr.tdecode x)) (decodeX_encodeX _ f)
theorem termEntryStart (core : Nat) : Statement (.termEntryStart core) := by
  intro w h; cases h
theorem weightLoadStart (core : Nat) : Statement (.weightLoadStart core) := by
  intro w h; cases h
theorem weightLoadComplete (core : Nat) (eid : Nat) : Statement (.weightLoadComplete core eid) := by
  intro w h; cases h
theorem multiplyComplete (core : Nat) (eid : Nat) : Statement (.multiplyComplete core eid) := by
  intro w h; cases h
theorem termEntryComplete (core : Nat) (eid : Nat) : Statement (.termEntryComplete core eid) := by
  intro w h; cases h
theorem arrayClockGate (core : Nat) : Statement (.arrayClockGate core) := by
  intro w h; cases h
theorem arrayWakeGrant (core : Nat) : Statement (.arrayWakeGrant core) := by
  intro w h; cases h
theorem arrayWakeComplete (core : Nat) : Statement (.arrayWakeComplete core) := by
  intro w h; cases h
theorem ld (f : FmtM) : Statement (.ld f) := by
  intro w h; cases h; unfold decodeWord; rw [opcode_encodeM]; exact congrArg (fun x => some (Instr.ld x)) (decodeM_encodeM _ f)
theorem st (f : FmtM) : Statement (.st f) := by
  intro w h; cases h; unfold decodeWord; rw [opcode_encodeM]; exact congrArg (fun x => some (Instr.st x)) (decodeM_encodeM _ f)
theorem ldc (f : FmtM) : Statement (.ldc f) := by
  intro w h; cases h; unfold decodeWord; rw [opcode_encodeM]; exact congrArg (fun x => some (Instr.ldc x)) (decodeM_encodeM _ f)
theorem ldl (f : FmtM) : Statement (.ldl f) := by
  intro w h; cases h; unfold decodeWord; rw [opcode_encodeM]; exact congrArg (fun x => some (Instr.ldl x)) (decodeM_encodeM _ f)
theorem stl (f : FmtM) : Statement (.stl f) := by
  intro w h; cases h; unfold decodeWord; rw [opcode_encodeM]; exact congrArg (fun x => some (Instr.stl x)) (decodeM_encodeM _ f)
theorem gather (f : FmtM) : Statement (.gather f) := by
  intro w h; cases h; unfold decodeWord; rw [opcode_encodeM]; exact congrArg (fun x => some (Instr.gather x)) (decodeM_encodeM _ f)
theorem scatter (f : FmtM) : Statement (.scatter f) := by
  intro w h; cases h; unfold decodeWord; rw [opcode_encodeM]; exact congrArg (fun x => some (Instr.scatter x)) (decodeM_encodeM _ f)
theorem fence (f : FmtM) : Statement (.fence f) := by
  intro w h; cases h; unfold decodeWord; rw [opcode_encodeM]; exact congrArg (fun x => some (Instr.fence x)) (decodeM_encodeM _ f)
theorem translate (f : FmtM) : Statement (.translate f) := by
  intro w h; cases h; unfold decodeWord; rw [opcode_encodeM]; exact congrArg (fun x => some (Instr.translate x)) (decodeM_encodeM _ f)
theorem pref (f : FmtM) : Statement (.pref f) := by
  intro w h; cases h; unfold decodeWord; rw [opcode_encodeM]; exact congrArg (fun x => some (Instr.pref x)) (decodeM_encodeM _ f)
theorem atom (f : FmtM) : Statement (.atom f) := by
  intro w h; cases h; unfold decodeWord; rw [opcode_encodeM]; exact congrArg (fun x => some (Instr.atom x)) (decodeM_encodeM _ f)
theorem atomg (f : FmtM) : Statement (.atomg f) := by
  intro w h; cases h; unfold decodeWord; rw [opcode_encodeM]; exact congrArg (fun x => some (Instr.atomg x)) (decodeM_encodeM _ f)
theorem l1inv (f : FmtM) : Statement (.l1inv f) := by
  intro w h; cases h; unfold decodeWord; rw [opcode_encodeM]; exact congrArg (fun x => some (Instr.l1inv x)) (decodeM_encodeM _ f)
theorem l1flush (f : FmtM) : Statement (.l1flush f) := by
  intro w h; cases h; unfold decodeWord; rw [opcode_encodeM]; exact congrArg (fun x => some (Instr.l1flush x)) (decodeM_encodeM _ f)
theorem stmap (f : FmtM) : Statement (.stmap f) := by
  intro w h; cases h; unfold decodeWord; rw [opcode_encodeM]; exact congrArg (fun x => some (Instr.stmap x)) (decodeM_encodeM _ f)
theorem stunmap (f : FmtM) : Statement (.stunmap f) := by
  intro w h; cases h; unfold decodeWord; rw [opcode_encodeM]; exact congrArg (fun x => some (Instr.stunmap x)) (decodeM_encodeM _ f)
theorem stflush (f : FmtM) : Statement (.stflush f) := by
  intro w h; cases h; unfold decodeWord; rw [opcode_encodeM]; exact congrArg (fun x => some (Instr.stflush x)) (decodeM_encodeM _ f)
theorem awinit (f : FmtM) : Statement (.awinit f) := by
  intro w h; cases h; unfold decodeWord; rw [opcode_encodeM]; exact congrArg (fun x => some (Instr.awinit x)) (decodeM_encodeM _ f)
theorem awadd (f : FmtM) : Statement (.awadd f) := by
  intro w h; cases h; unfold decodeWord; rw [opcode_encodeM]; exact congrArg (fun x => some (Instr.awadd x)) (decodeM_encodeM _ f)
theorem awwait (f : FmtM) : Statement (.awwait f) := by
  intro w h; cases h; unfold decodeWord; rw [opcode_encodeM]; exact congrArg (fun x => some (Instr.awwait x)) (decodeM_encodeM _ f)
theorem cadd (f : FmtM) : Statement (.cadd f) := by
  intro w h; cases h; unfold decodeWord; rw [opcode_encodeM]; exact congrArg (fun x => some (Instr.cadd x)) (decodeM_encodeM _ f)
theorem cwait (f : FmtM) : Statement (.cwait f) := by
  intro w h; cases h; unfold decodeWord; rw [opcode_encodeM]; exact congrArg (fun x => some (Instr.cwait x)) (decodeM_encodeM _ f)
theorem cwaitPoll (core : Nat) (slot : Nat) (split : Nat) : Statement (.cwaitPoll core slot split) := by
  intro w h; cases h
theorem remapld (f : FmtM) : Statement (.remapld f) := by
  intro w h; cases h; unfold decodeWord; rw [opcode_encodeM]; exact congrArg (fun x => some (Instr.remapld x)) (decodeM_encodeM _ f)
theorem loadDataReturn (core : Nat) (slot : Nat) (iid : Nat) : Statement (.loadDataReturn core slot iid) := by
  intro w h; cases h
theorem writeAtHome (core : Nat) (wid : Nat) : Statement (.writeAtHome core wid) := by
  intro w h; cases h
theorem l1Eviction (core : Nat) (line : Nat) : Statement (.l1Eviction core line) := by
  intro w h; cases h
theorem l1MissFill (core : Nat) (line : Nat) : Statement (.l1MissFill core line) := by
  intro w h; cases h
theorem packetOpenTimeout (core : Nat) (pid : Nat) : Statement (.packetOpenTimeout core pid) := by
  intro w h; cases h
theorem packetIdleTimeout (core : Nat) (pid : Nat) : Statement (.packetIdleTimeout core pid) := by
  intro w h; cases h
theorem gatherExpander (core : Nat) (pid : Nat) : Statement (.gatherExpander core pid) := by
  intro w h; cases h
theorem packetReturn (core : Nat) (pid : Nat) : Statement (.packetReturn core pid) := by
  intro w h; cases h
theorem stashFill (tid : Nat) (win : Nat) (line : Nat) : Statement (.stashFill tid win line) := by
  intro w h; cases h
theorem stashRecall (tid : Nat) (win : Nat) (line : Nat) : Statement (.stashRecall tid win line) := by
  intro w h; cases h
theorem copyRecall (core : Nat) (line : Nat) : Statement (.copyRecall core line) := by
  intro w h; cases h
theorem promotionProbe (core : Nat) (oid : Nat) : Statement (.promotionProbe core oid) := by
  intro w h; cases h
theorem migrationLineCopy (part : Nat) (va : W64) : Statement (.migrationLineCopy part va) := by
  intro w h; cases h
theorem spillWriteoutDone (core : Nat) (wid : Nat) : Statement (.spillWriteoutDone core wid) := by
  intro w h; cases h
theorem reloadDone (core : Nat) (slot : Nat) (reg : Nat) : Statement (.reloadDone core slot reg) := by
  intro w h; cases h
theorem instructionComplete (core : Nat) (slot : Nat) (iid : Nat) : Statement (.instructionComplete core slot iid) := by
  intro w h; cases h
theorem ageSaturate (core : Nat) (slot : Nat) (split : Nat) : Statement (.ageSaturate core slot split) := by
  intro w h; cases h
theorem instructionFetch (core : Nat) (slot : Nat) (split : Nat) : Statement (.instructionFetch core slot split) := by
  intro w h; cases h
theorem groupEnd (core : Nat) (slot : Nat) : Statement (.groupEnd core slot) := by
  intro w h; cases h
theorem cpy (f : FmtR) : Statement (.cpy f) := by
  intro w h; cases h; unfold decodeWord; rw [opcode_encodeR]; exact congrArg (fun x => some (Instr.cpy x)) (decodeR_encodeR _ f)
theorem cpyEnc (f : FmtR) : Statement (.cpyEnc f) := by
  intro w h; cases h; unfold decodeWord; rw [opcode_encodeR]; exact congrArg (fun x => some (Instr.cpyEnc x)) (decodeR_encodeR _ f)
theorem cpyDec (f : FmtR) : Statement (.cpyDec f) := by
  intro w h; cases h; unfold decodeWord; rw [opcode_encodeR]; exact congrArg (fun x => some (Instr.cpyDec x)) (decodeR_encodeR _ f)
theorem cpyGather (f : FmtR) : Statement (.cpyGather f) := by
  intro w h; cases h; unfold decodeWord; rw [opcode_encodeR]; exact congrArg (fun x => some (Instr.cpyGather x)) (decodeR_encodeR _ f)
theorem stage (f : FmtR) : Statement (.stage f) := by
  intro w h; cases h; unfold decodeWord; rw [opcode_encodeR]; exact congrArg (fun x => some (Instr.stage x)) (decodeR_encodeR _ f)
theorem cpystat (f : FmtR) : Statement (.cpystat f) := by
  intro w h; cases h; unfold decodeWord; rw [opcode_encodeR]; exact congrArg (fun x => some (Instr.cpystat x)) (decodeR_encodeR _ f)
theorem copyStart (core : Nat) (eng : Nat) : Statement (.copyStart core eng) := by
  intro w h; cases h
theorem copyChunk (core : Nat) (eng : Nat) : Statement (.copyChunk core eng) := by
  intro w h; cases h
theorem copyComplete (core : Nat) (eng : Nat) : Statement (.copyComplete core eng) := by
  intro w h; cases h
theorem copyError (core : Nat) (eng : Nat) : Statement (.copyError core eng) := by
  intro w h; cases h
theorem scheduleRepeatIssue (tid : Nat) : Statement (.scheduleRepeatIssue tid) := by
  intro w h; cases h
theorem launch (f : FmtR) : Statement (.launch f) := by
  intro w h; cases h; unfold decodeWord; rw [opcode_encodeR]; exact congrArg (fun x => some (Instr.launch x)) (decodeR_encodeR _ f)
theorem post (f : FmtR) : Statement (.post f) := by
  intro w h; cases h; unfold decodeWord; rw [opcode_encodeR]; exact congrArg (fun x => some (Instr.post x)) (decodeR_encodeR _ f)
theorem postApply (pid : Nat) : Statement (.postApply pid) := by
  intro w h; cases h
theorem cont (f : FmtR) : Statement (.cont f) := by
  intro w h; cases h; unfold decodeWord; rw [opcode_encodeR]; exact congrArg (fun x => some (Instr.cont x)) (decodeR_encodeR _ f)
theorem taskexit (f : FmtR) : Statement (.taskexit f) := by
  intro w h; cases h; unfold decodeWord; rw [opcode_encodeR]; exact congrArg (fun x => some (Instr.taskexit x)) (decodeR_encodeR _ f)
theorem launchAccept (sid : Nat) : Statement (.launchAccept sid) := by
  intro w h; cases h
theorem launchComplete (lid : Nat) : Statement (.launchComplete lid) := by
  intro w h; cases h
theorem qwptrWrite (q : Nat) (v : W64) : Statement (.qwptrWrite q v) := by
  intro w h; cases h
theorem queueEnable (q : Nat) (v : W64) : Statement (.queueEnable q v) := by
  intro w h; cases h
theorem queueDisable (q : Nat) (v : W64) : Statement (.queueDisable q v) := by
  intro w h; cases h
theorem packetBegin (q : Nat) : Statement (.packetBegin q) := by
  intro w h; cases h
theorem packetNop (q : Nat) (rid : Nat) : Statement (.packetNop q rid) := by
  intro w h; cases h
theorem packetLaunch (q : Nat) (rid : Nat) : Statement (.packetLaunch q rid) := by
  intro w h; cases h
theorem packetGraph (q : Nat) (rid : Nat) : Statement (.packetGraph q rid) := by
  intro w h; cases h
theorem graphNextNode (gid : Nat) : Statement (.graphNextNode gid) := by
  intro w h; cases h
theorem packetCwait (q : Nat) (rid : Nat) : Statement (.packetCwait q rid) := by
  intro w h; cases h
theorem packetCadd (q : Nat) (rid : Nat) : Statement (.packetCadd q rid) := by
  intro w h; cases h
theorem packetCopy (q : Nat) (rid : Nat) : Statement (.packetCopy q rid) := by
  intro w h; cases h
theorem packetTimestamp (q : Nat) (rid : Nat) : Statement (.packetTimestamp q rid) := by
  intro w h; cases h
theorem admission (part : Nat) : Statement (.admission part) := by
  intro w h; cases h
theorem gangUnplaced (lid : Nat) : Statement (.gangUnplaced lid) := by
  intro w h; cases h
theorem continuationPoll (cid : Nat) : Statement (.continuationPoll cid) := by
  intro w h; cases h
theorem budgetPeriod (part : Nat) : Statement (.budgetPeriod part) := by
  intro w h; cases h
theorem causeTaken (core : Nat) (slot : Nat) : Statement (.causeTaken core slot) := by
  intro w h; cases h
theorem handlerBankGrant (core : Nat) : Statement (.handlerBankGrant core) := by
  intro w h; cases h
theorem faultBatchWrite (part : Nat) : Statement (.faultBatchWrite part) := by
  intro w h; cases h
theorem pfdoneAnswer (part : Nat) (batch : BitVec 16) : Statement (.pfdoneAnswer part batch) := by
  intro w h; cases h
theorem pfdoneRefuse (part : Nat) (batch : BitVec 16) : Statement (.pfdoneRefuse part batch) := by
  intro w h; cases h
theorem preemptRequest (part : Nat) (v : W64) : Statement (.preemptRequest part v) := by
  intro w h; cases h
theorem preemptForceTimeout (core : Nat) (slot : Nat) : Statement (.preemptForceTimeout core slot) := by
  intro w h; cases h
theorem teamSave (tid : Nat) : Statement (.teamSave tid) := by
  intro w h; cases h
theorem corePowerGate (core : Nat) (retire : Bool) : Statement (.corePowerGate core retire) := by
  intro w h; cases h
theorem tlbinv (part : Nat) (v : W64) : Statement (.tlbinv part v) := by
  intro w h; cases h
theorem tlbinvComplete (part : Nat) : Statement (.tlbinvComplete part) := by
  intro w h; cases h
theorem partmapWrite (n : Nat) (v : W64) : Statement (.partmapWrite n v) := by
  intro w h; cases h
theorem registerWrite (off : Nat) (v : W64) : Statement (.registerWrite off v) := by
  intro w h; cases h
theorem ualinkTransactionReceive (src : Nat) (flow : Nat) (seq : Nat) (op : RemoteOp) : Statement (.ualinkTransactionReceive src flow seq op) := by
  intro w h; cases h
theorem writeAck (xid : Nat) : Statement (.writeAck xid) := by
  intro w h; cases h
theorem flitCrcFail (port : Nat) (lane : Nat) : Statement (.flitCrcFail port lane) := by
  intro w h; cases h
theorem replayDrained (port : Nat) : Statement (.replayDrained port) := by
  intro w h; cases h
theorem laneRepairTrigger (port : Nat) (lane : Nat) : Statement (.laneRepairTrigger port lane) := by
  intro w h; cases h
theorem replayFailThreshold (port : Nat) : Statement (.replayFailThreshold port) := by
  intro w h; cases h
theorem repairComplete (port : Nat) : Statement (.repairComplete port) := by
  intro w h; cases h
theorem repairFail (port : Nat) : Statement (.repairFail port) := by
  intro w h; cases h
theorem laneFail (port : Nat) : Statement (.laneFail port) := by
  intro w h; cases h
theorem trainingComplete (port : Nat) (celuno : Bool) : Statement (.trainingComplete port celuno) := by
  intro w h; cases h
theorem portDown (port : Nat) : Statement (.portDown port) := by
  intro w h; cases h
theorem transactionLossTimeout (pkg : Nat) : Statement (.transactionLossTimeout pkg) := by
  intro w h; cases h
theorem upctlEnable (port : Nat) (v : W64) : Statement (.upctlEnable port v) := by
  intro w h; cases h
theorem hostBar2Write (part : Nat) (addr : Nat) (bytes : List Byte) : Statement (.hostBar2Write part addr bytes) := by
  intro w h; cases h
theorem hostBar2Read (part : Nat) (addr : Nat) (n : Nat) : Statement (.hostBar2Read part addr n) := by
  intro w h; cases h
theorem cxlCacheWrite (pa : Nat) (bytes : List Byte) : Statement (.cxlCacheWrite pa bytes) := by
  intro w h; cases h
theorem pcSample (core : Nat) (islot : Nat) : Statement (.pcSample core islot) := by
  intro w h; cases h
theorem correctedError (place : ErrPlace) (pa : Nat) : Statement (.correctedError place pa) := by
  intro w h; cases h
theorem timestampSync (ns : Nat) : Statement (.timestampSync ns) := by
  intro w h; cases h
theorem powerOn : Statement (.powerOn) := by
  intro w h; cases h
theorem resetctlWarm : Statement (.resetctlWarm) := by
  intro w h; cases h
theorem pcieHotReset : Statement (.pcieHotReset) := by
  intro w h; cases h
theorem status : Statement (.status) := by
  intro w h; cases h
theorem read (off : Nat) : Statement (.read off) := by
  intro w h; cases h
theorem write (off : Nat) (v : W64) : Statement (.write off v) := by
  intro w h; cases h
theorem warm : Statement (.warm) := by
  intro w h; cases h
theorem cold : Statement (.cold) := by
  intro w h; cases h
theorem attest (nonce : List Byte) : Statement (.attest nonce) := by
  intro w h; cases h
theorem flashrd (off : Nat) (n : Nat) : Statement (.flashrd off n) := by
  intro w h; cases h
theorem flashwr (off : Nat) (bytes : List Byte) : Statement (.flashwr off bytes) := by
  intro w h; cases h
theorem hostCxlMemRead (pa : Nat) : Statement (.hostCxlMemRead pa) := by
  intro w h; cases h

end Sys2Proof.Laws.RoundTrip
end

