-- ==== Sys2Proof/Tests/Slice0.lean ====
section
/-! SUPPORT. Tests: words written out from the format tables and the worked encodings, an ill-formed term for each word check, small runs of
one instruction, and for every statement with hypotheses a state and operands that meet them. -/

open Sys2Proof Sys2Proof.Machine

namespace Sys2Proof.Tests

/-- A group of 32 lanes outside a handler, in a kernel with 16 safe points. -/
def plain : Env := ⟨false, 32, 16⟩

/-- Every opcode of row 0x0_ of the map of rule R59, with fields at the places of its format's table. -/
theorem test_decode_row_0 :
    decodeWord 0x01022404D000E805 = some (.nop ⟨1, 9, 77, 0, 0, 0, 0, 0, 1, 3, 1, 5⟩) ∧
    decodeWord 0x02022404D000E805 = some (.exit ⟨1, 9, 77, 0, 0, 0, 0, 0, 1, 3, 1, 5⟩) ∧
    decodeWord 0x03022404D000E805 = some (.trap ⟨1, 9, 77, 0, 0, 0, 0, 0, 1, 3, 1, 5⟩) ∧
    decodeWord 0x04022404D000E805 = some (.bkpt ⟨1, 9, 77, 0, 0, 0, 0, 0, 1, 3, 1, 5⟩) ∧
    decodeWord 0x05022404D000E805 = some (.safept ⟨1, 9, 77, 0, 0, 0, 0, 0, 1, 3, 1, 5⟩) ∧
    decodeWord 0x06022404D000E805 = some (.sread ⟨1, 9, 77, 0, 0, 0, 0, 0, 1, 3, 1, 5⟩) ∧
    decodeWord 0x07022404D000E805 = some (.swrite ⟨1, 9, 77, 0, 0, 0, 0, 0, 1, 3, 1, 5⟩) ∧
    decodeWord 0x08022404D000E805 = some (.clk ⟨1, 9, 77, 0, 0, 0, 0, 0, 1, 3, 1, 5⟩) ∧
    decodeWord 0x09022404D000E805 = some (.rth ⟨1, 9, 77, 0, 0, 0, 0, 0, 1, 3, 1, 5⟩) := by
  decide

/-- Every opcode of row 0x1_ of the map of rule R59, with fields at the places of its format's table. -/
theorem test_decode_row_1 :
    decodeWord 0x1006041008158030 = some (.add ⟨3, 1, 2, 0, 1, 0, 0, 5, 0, 1, 1, 0, 0, 0, 0, 6, 0⟩) ∧
    decodeWord 0x1106041008158030 = some (.sub ⟨3, 1, 2, 0, 1, 0, 0, 5, 0, 1, 1, 0, 0, 0, 0, 6, 0⟩) ∧
    decodeWord 0x1206041008158030 = some (.mul ⟨3, 1, 2, 0, 1, 0, 0, 5, 0, 1, 1, 0, 0, 0, 0, 6, 0⟩) ∧
    decodeWord 0x1306041008158030 = some (.mulhi ⟨3, 1, 2, 0, 1, 0, 0, 5, 0, 1, 1, 0, 0, 0, 0, 6, 0⟩) ∧
    decodeWord 0x1406041008158030 = some (.mad ⟨3, 1, 2, 0, 1, 0, 0, 5, 0, 1, 1, 0, 0, 0, 0, 6, 0⟩) ∧
    decodeWord 0x1506041008158030 = some (.div ⟨3, 1, 2, 0, 1, 0, 0, 5, 0, 1, 1, 0, 0, 0, 0, 6, 0⟩) ∧
    decodeWord 0x1606041008158030 = some (.rem ⟨3, 1, 2, 0, 1, 0, 0, 5, 0, 1, 1, 0, 0, 0, 0, 6, 0⟩) ∧
    decodeWord 0x1706041008158030 = some (.min ⟨3, 1, 2, 0, 1, 0, 0, 5, 0, 1, 1, 0, 0, 0, 0, 6, 0⟩) ∧
    decodeWord 0x1806041008158030 = some (.max ⟨3, 1, 2, 0, 1, 0, 0, 5, 0, 1, 1, 0, 0, 0, 0, 6, 0⟩) ∧
    decodeWord 0x1906041008158030 = some (.abs ⟨3, 1, 2, 0, 1, 0, 0, 5, 0, 1, 1, 0, 0, 0, 0, 6, 0⟩) ∧
    decodeWord 0x1A06041008158030 = some (.neg ⟨3, 1, 2, 0, 1, 0, 0, 5, 0, 1, 1, 0, 0, 0, 0, 6, 0⟩) ∧
    decodeWord 0x1B06041008158030 = some (.lea ⟨3, 1, 2, 0, 1, 0, 0, 5, 0, 1, 1, 0, 0, 0, 0, 6, 0⟩) := by
  decide

/-- Every opcode of row 0x2_ of the map of rule R59, with fields at the places of its format's table. -/
theorem test_decode_row_2 :
    decodeWord 0x2006041008158030 = some (.and ⟨3, 1, 2, 0, 1, 0, 0, 5, 0, 1, 1, 0, 0, 0, 0, 6, 0⟩) ∧
    decodeWord 0x2106041008158030 = some (.or ⟨3, 1, 2, 0, 1, 0, 0, 5, 0, 1, 1, 0, 0, 0, 0, 6, 0⟩) ∧
    decodeWord 0x2206041008158030 = some (.xor ⟨3, 1, 2, 0, 1, 0, 0, 5, 0, 1, 1, 0, 0, 0, 0, 6, 0⟩) ∧
    decodeWord 0x2306041008158030 = some (.not ⟨3, 1, 2, 0, 1, 0, 0, 5, 0, 1, 1, 0, 0, 0, 0, 6, 0⟩) ∧
    decodeWord 0x2406041008158030 = some (.shl ⟨3, 1, 2, 0, 1, 0, 0, 5, 0, 1, 1, 0, 0, 0, 0, 6, 0⟩) ∧
    decodeWord 0x2506041008158030 = some (.shr ⟨3, 1, 2, 0, 1, 0, 0, 5, 0, 1, 1, 0, 0, 0, 0, 6, 0⟩) ∧
    decodeWord 0x2606041008158030 = some (.sar ⟨3, 1, 2, 0, 1, 0, 0, 5, 0, 1, 1, 0, 0, 0, 0, 6, 0⟩) ∧
    decodeWord 0x2706041008158030 = some (.rot ⟨3, 1, 2, 0, 1, 0, 0, 5, 0, 1, 1, 0, 0, 0, 0, 6, 0⟩) ∧
    decodeWord 0x2806041008158030 = some (.bfe ⟨3, 1, 2, 0, 1, 0, 0, 5, 0, 1, 1, 0, 0, 0, 0, 6, 0⟩) ∧
    decodeWord 0x2906041008158030 = some (.bfi ⟨3, 1, 2, 0, 1, 0, 0, 5, 0, 1, 1, 0, 0, 0, 0, 6, 0⟩) ∧
    decodeWord 0x2A06041008158030 = some (.brev ⟨3, 1, 2, 0, 1, 0, 0, 5, 0, 1, 1, 0, 0, 0, 0, 6, 0⟩) ∧
    decodeWord 0x2B06041008158030 = some (.popc ⟨3, 1, 2, 0, 1, 0, 0, 5, 0, 1, 1, 0, 0, 0, 0, 6, 0⟩) ∧
    decodeWord 0x2C06041008158030 = some (.clz ⟨3, 1, 2, 0, 1, 0, 0, 5, 0, 1, 1, 0, 0, 0, 0, 6, 0⟩) ∧
    decodeWord 0x2D06041008158030 = some (.ctz ⟨3, 1, 2, 0, 1, 0, 0, 5, 0, 1, 1, 0, 0, 0, 0, 6, 0⟩) ∧
    decodeWord 0x2E06041008158030 = some (.tcnt ⟨3, 1, 2, 0, 1, 0, 0, 5, 0, 1, 1, 0, 0, 0, 0, 6, 0⟩) := by
  decide

/-- Every opcode of row 0x3_ of the map of rule R59, with fields at the places of its format's table. -/
theorem test_decode_row_3 :
    decodeWord 0x3006041008158030 = some (.cmp ⟨3, 1, 2, 0, 1, 0, 0, 5, 0, 1, 1, 0, 0, 0, 0, 6, 0⟩) ∧
    decodeWord 0x3106041008158030 = some (.pand ⟨3, 1, 2, 0, 1, 0, 0, 5, 0, 1, 1, 0, 0, 0, 0, 6, 0⟩) ∧
    decodeWord 0x3206041008158030 = some (.por ⟨3, 1, 2, 0, 1, 0, 0, 5, 0, 1, 1, 0, 0, 0, 0, 6, 0⟩) ∧
    decodeWord 0x3306041008158030 = some (.pxor ⟨3, 1, 2, 0, 1, 0, 0, 5, 0, 1, 1, 0, 0, 0, 0, 6, 0⟩) ∧
    decodeWord 0x3406041008158030 = some (.pnot ⟨3, 1, 2, 0, 1, 0, 0, 5, 0, 1, 1, 0, 0, 0, 0, 6, 0⟩) ∧
    decodeWord 0x3506041008158030 = some (.sel ⟨3, 1, 2, 0, 1, 0, 0, 5, 0, 1, 1, 0, 0, 0, 0, 6, 0⟩) ∧
    decodeWord 0x3606041008158030 = some (.mov ⟨3, 1, 2, 0, 1, 0, 0, 5, 0, 1, 1, 0, 0, 0, 0, 6, 0⟩) ∧
    decodeWord 0x37022468ACF00000 = some (.movi ⟨1, 305419896, 0, 0, 0, 0, 0, 0, 0⟩) ∧
    decodeWord 0x3806041008158030 = some (.movx ⟨3, 1, 2, 0, 1, 0, 0, 5, 0, 1, 1, 0, 0, 0, 0, 6, 0⟩) ∧
    decodeWord 0x3906041008158030 = some (.movxw ⟨3, 1, 2, 0, 1, 0, 0, 5, 0, 1, 1, 0, 0, 0, 0, 6, 0⟩) := by
  decide

/-- Every opcode of row 0x4_ of the map of rule R59, with fields at the places of its format's table. -/
theorem test_decode_row_4 :
    decodeWord 0x4006041008158030 = some (.fadd ⟨3, 1, 2, 0, 1, 0, 0, 5, 0, 1, 1, 0, 0, 0, 0, 6, 0⟩) ∧
    decodeWord 0x4106041008158030 = some (.fsub ⟨3, 1, 2, 0, 1, 0, 0, 5, 0, 1, 1, 0, 0, 0, 0, 6, 0⟩) ∧
    decodeWord 0x4206041008158030 = some (.fmul ⟨3, 1, 2, 0, 1, 0, 0, 5, 0, 1, 1, 0, 0, 0, 0, 6, 0⟩) ∧
    decodeWord 0x4306041008158030 = some (.fma ⟨3, 1, 2, 0, 1, 0, 0, 5, 0, 1, 1, 0, 0, 0, 0, 6, 0⟩) ∧
    decodeWord 0x4406041008158030 = some (.fmin ⟨3, 1, 2, 0, 1, 0, 0, 5, 0, 1, 1, 0, 0, 0, 0, 6, 0⟩) ∧
    decodeWord 0x4506041008158030 = some (.fmax ⟨3, 1, 2, 0, 1, 0, 0, 5, 0, 1, 1, 0, 0, 0, 0, 6, 0⟩) ∧
    decodeWord 0x4606041008158030 = some (.fclass ⟨3, 1, 2, 0, 1, 0, 0, 5, 0, 1, 1, 0, 0, 0, 0, 6, 0⟩) ∧
    decodeWord 0x4706041008158030 = some (.frcp ⟨3, 1, 2, 0, 1, 0, 0, 5, 0, 1, 1, 0, 0, 0, 0, 6, 0⟩) ∧
    decodeWord 0x4806041008158030 = some (.frsq ⟨3, 1, 2, 0, 1, 0, 0, 5, 0, 1, 1, 0, 0, 0, 0, 6, 0⟩) ∧
    decodeWord 0x4906041008158030 = some (.fsqrt ⟨3, 1, 2, 0, 1, 0, 0, 5, 0, 1, 1, 0, 0, 0, 0, 6, 0⟩) ∧
    decodeWord 0x4A06041008158030 = some (.fexp2 ⟨3, 1, 2, 0, 1, 0, 0, 5, 0, 1, 1, 0, 0, 0, 0, 6, 0⟩) ∧
    decodeWord 0x4B06041008158030 = some (.flog2 ⟨3, 1, 2, 0, 1, 0, 0, 5, 0, 1, 1, 0, 0, 0, 0, 6, 0⟩) ∧
    decodeWord 0x4C06041008158030 = some (.fcmp ⟨3, 1, 2, 0, 1, 0, 0, 5, 0, 1, 1, 0, 0, 0, 0, 6, 0⟩) ∧
    decodeWord 0x4D06041008158030 = some (.cvt ⟨3, 1, 2, 0, 1, 0, 0, 5, 0, 1, 1, 0, 0, 0, 0, 6, 0⟩) := by
  decide

/-- Every opcode of row 0x5_ of the map of rule R59, with fields at the places of its format's table. -/
theorem test_decode_row_5 :
    decodeWord 0x50020E0000120000 = some (.ifThen ⟨1, 3, 1, 9, 0, 0, 0⟩) ∧
    decodeWord 0x51020E0000120000 = some (.ifs ⟨1, 3, 1, 9, 0, 0, 0⟩) ∧
    decodeWord 0x52020E0000120000 = some (.elseArm ⟨1, 3, 1, 9, 0, 0, 0⟩) ∧
    decodeWord 0x53020E0000120000 = some (.endif ⟨1, 3, 1, 9, 0, 0, 0⟩) ∧
    decodeWord 0x54020E0000120000 = some (.loop ⟨1, 3, 1, 9, 0, 0, 0⟩) ∧
    decodeWord 0x55020E0000120000 = some (.endloop ⟨1, 3, 1, 9, 0, 0, 0⟩) ∧
    decodeWord 0x56020E0000120000 = some (.breakLoop ⟨1, 3, 1, 9, 0, 0, 0⟩) ∧
    decodeWord 0x57020E0000120000 = some (.continueLoop ⟨1, 3, 1, 9, 0, 0, 0⟩) ∧
    decodeWord 0x58020E0000120000 = some (.call ⟨1, 3, 1, 9, 0, 0, 0⟩) ∧
    decodeWord 0x59020E0000120000 = some (.ret ⟨1, 3, 1, 9, 0, 0, 0⟩) := by
  decide

/-- Every opcode of row 0x6_ of the map of rule R59, with fields at the places of its format's table. -/
theorem test_decode_row_6 :
    decodeWord 0x6006041008158030 = some (.lxch ⟨3, 1, 2, 0, 1, 0, 0, 5, 0, 1, 1, 0, 0, 0, 0, 6, 0⟩) ∧
    decodeWord 0x6106041008158030 = some (.pqry ⟨3, 1, 2, 0, 1, 0, 0, 5, 0, 1, 1, 0, 0, 0, 0, 6, 0⟩) ∧
    decodeWord 0x6206041008158030 = some (.red ⟨3, 1, 2, 0, 1, 0, 0, 5, 0, 1, 1, 0, 0, 0, 0, 6, 0⟩) ∧
    decodeWord 0x6306041008158030 = some (.scan ⟨3, 1, 2, 0, 1, 0, 0, 5, 0, 1, 1, 0, 0, 0, 0, 6, 0⟩) ∧
    decodeWord 0x6406041008158030 = some (.matchLanes ⟨3, 1, 2, 0, 1, 0, 0, 5, 0, 1, 1, 0, 0, 0, 0, 6, 0⟩) ∧
    decodeWord 0x6506041008158030 = some (.elect ⟨3, 1, 2, 0, 1, 0, 0, 5, 0, 1, 1, 0, 0, 0, 0, 6, 0⟩) ∧
    decodeWord 0x6606041008158030 = some (.bcast ⟨3, 1, 2, 0, 1, 0, 0, 5, 0, 1, 1, 0, 0, 0, 0, 6, 0⟩) ∧
    decodeWord 0x6706041008158030 = some (.topk ⟨3, 1, 2, 0, 1, 0, 0, 5, 0, 1, 1, 0, 0, 0, 0, 6, 0⟩) ∧
    decodeWord 0x6806041008158030 = some (.barinit ⟨3, 1, 2, 0, 1, 0, 0, 5, 0, 1, 1, 0, 0, 0, 0, 6, 0⟩) ∧
    decodeWord 0x6906041008158030 = some (.bararv ⟨3, 1, 2, 0, 1, 0, 0, 5, 0, 1, 1, 0, 0, 0, 0, 6, 0⟩) ∧
    decodeWord 0x6A06041008158030 = some (.barwait ⟨3, 1, 2, 0, 1, 0, 0, 5, 0, 1, 1, 0, 0, 0, 0, 6, 0⟩) ∧
    decodeWord 0x6B06041008158030 = some (.barinv ⟨3, 1, 2, 0, 1, 0, 0, 5, 0, 1, 1, 0, 0, 0, 0, 6, 0⟩) := by
  decide

/-- Every opcode of row 0x7_ of the map of rule R59, with fields at the places of its format's table. -/
theorem test_decode_row_7 :
    decodeWord 0x7006041008158030 = some (.arm ⟨3, 1, 2, 0, 1, 0, 0, 5, 0, 1, 1, 0, 0, 0, 0, 6, 0⟩) ∧
    decodeWord 0x7106041008158030 = some (.cap ⟨3, 1, 2, 0, 1, 0, 0, 5, 0, 1, 1, 0, 0, 0, 0, 6, 0⟩) ∧
    decodeWord 0x7206041008158030 = some (.send ⟨3, 1, 2, 0, 1, 0, 0, 5, 0, 1, 1, 0, 0, 0, 0, 6, 0⟩) ∧
    decodeWord 0x7306041008158030 = some (.disarm ⟨3, 1, 2, 0, 1, 0, 0, 5, 0, 1, 1, 0, 0, 0, 0, 6, 0⟩) ∧
    decodeWord 0x7406041008158030 = some (.place ⟨3, 1, 2, 0, 1, 0, 0, 5, 0, 1, 1, 0, 0, 0, 0, 6, 0⟩) ∧
    decodeWord 0x7506041008158030 = some (.scope ⟨3, 1, 2, 0, 1, 0, 0, 5, 0, 1, 1, 0, 0, 0, 0, 6, 0⟩) := by
  decide

/-- Every opcode of row 0x8_ of the map of rule R59, with fields at the places of its format's table. -/
theorem test_decode_row_8 :
    decodeWord 0x8000200038080400 = some (.twin ⟨0, 8, 0, 3, 1, 0, 0, 1, 0, 0, 2, 0⟩) ∧
    decodeWord 0x8100200038080400 = some (.tldw ⟨0, 8, 0, 3, 1, 0, 0, 1, 0, 0, 2, 0⟩) ∧
    decodeWord 0x8200200038080400 = some (.tldws ⟨0, 8, 0, 3, 1, 0, 0, 1, 0, 0, 2, 0⟩) ∧
    decodeWord 0x8300200038080400 = some (.tmma ⟨0, 8, 0, 3, 1, 0, 0, 1, 0, 0, 2, 0⟩) ∧
    decodeWord 0x8400200038080400 = some (.tmmaq ⟨0, 8, 0, 3, 1, 0, 0, 1, 0, 0, 2, 0⟩) ∧
    decodeWord 0x8500200038080400 = some (.tfeed ⟨0, 8, 0, 3, 1, 0, 0, 1, 0, 0, 2, 0⟩) ∧
    decodeWord 0x8600200038080400 = some (.tzero ⟨0, 8, 0, 3, 1, 0, 0, 1, 0, 0, 2, 0⟩) ∧
    decodeWord 0x8700200038080400 = some (.tdrain ⟨0, 8, 0, 3, 1, 0, 0, 1, 0, 0, 2, 0⟩) ∧
    decodeWord 0x8800200038080400 = some (.twait ⟨0, 8, 0, 3, 1, 0, 0, 1, 0, 0, 2, 0⟩) ∧
    decodeWord 0x8900200038080400 = some (.tbound ⟨0, 8, 0, 3, 1, 0, 0, 1, 0, 0, 2, 0⟩) ∧
    decodeWord 0x8A00200038080400 = some (.thist ⟨0, 8, 0, 3, 1, 0, 0, 1, 0, 0, 2, 0⟩) ∧
    decodeWord 0x8B00200038080400 = some (.trecode ⟨0, 8, 0, 3, 1, 0, 0, 1, 0, 0, 2, 0⟩) ∧
    decodeWord 0x8C00200038080400 = some (.tdecode ⟨0, 8, 0, 3, 1, 0, 0, 1, 0, 0, 2, 0⟩) := by
  decide

/-- Every opcode of row 0x9_ of the map of rule R59, with fields at the places of its format's table. -/
theorem test_decode_row_9 :
    decodeWord 0x90000C3004002921 = some (.ld ⟨0, 3, 6, 0, 0, 1, 0, 0, 0, 0, 0, 2, 4, 4, 2, 0, 0, 1⟩) ∧
    decodeWord 0x91000C3004002921 = some (.st ⟨0, 3, 6, 0, 0, 1, 0, 0, 0, 0, 0, 2, 4, 4, 2, 0, 0, 1⟩) ∧
    decodeWord 0x92000C3004002921 = some (.ldc ⟨0, 3, 6, 0, 0, 1, 0, 0, 0, 0, 0, 2, 4, 4, 2, 0, 0, 1⟩) ∧
    decodeWord 0x93000C3004002921 = some (.ldl ⟨0, 3, 6, 0, 0, 1, 0, 0, 0, 0, 0, 2, 4, 4, 2, 0, 0, 1⟩) ∧
    decodeWord 0x94000C3004002921 = some (.stl ⟨0, 3, 6, 0, 0, 1, 0, 0, 0, 0, 0, 2, 4, 4, 2, 0, 0, 1⟩) ∧
    decodeWord 0x95000C3004002921 = some (.gather ⟨0, 3, 6, 0, 0, 1, 0, 0, 0, 0, 0, 2, 4, 4, 2, 0, 0, 1⟩) ∧
    decodeWord 0x96000C3004002921 = some (.scatter ⟨0, 3, 6, 0, 0, 1, 0, 0, 0, 0, 0, 2, 4, 4, 2, 0, 0, 1⟩) ∧
    decodeWord 0x97000C3004002921 = some (.fence ⟨0, 3, 6, 0, 0, 1, 0, 0, 0, 0, 0, 2, 4, 4, 2, 0, 0, 1⟩) ∧
    decodeWord 0x98000C3004002921 = some (.translate ⟨0, 3, 6, 0, 0, 1, 0, 0, 0, 0, 0, 2, 4, 4, 2, 0, 0, 1⟩) ∧
    decodeWord 0x99000C3004002921 = some (.pref ⟨0, 3, 6, 0, 0, 1, 0, 0, 0, 0, 0, 2, 4, 4, 2, 0, 0, 1⟩) := by
  decide

/-- Every opcode of row 0xA_ of the map of rule R59, with fields at the places of its format's table. -/
theorem test_decode_row_a :
    decodeWord 0xA0000C3004002921 = some (.atom ⟨0, 3, 6, 0, 0, 1, 0, 0, 0, 0, 0, 2, 4, 4, 2, 0, 0, 1⟩) ∧
    decodeWord 0xA1000C3004002921 = some (.atomg ⟨0, 3, 6, 0, 0, 1, 0, 0, 0, 0, 0, 2, 4, 4, 2, 0, 0, 1⟩) ∧
    decodeWord 0xA2000C3004002921 = some (.l1inv ⟨0, 3, 6, 0, 0, 1, 0, 0, 0, 0, 0, 2, 4, 4, 2, 0, 0, 1⟩) ∧
    decodeWord 0xA3000C3004002921 = some (.l1flush ⟨0, 3, 6, 0, 0, 1, 0, 0, 0, 0, 0, 2, 4, 4, 2, 0, 0, 1⟩) ∧
    decodeWord 0xA4000C3004002921 = some (.stmap ⟨0, 3, 6, 0, 0, 1, 0, 0, 0, 0, 0, 2, 4, 4, 2, 0, 0, 1⟩) ∧
    decodeWord 0xA5000C3004002921 = some (.stunmap ⟨0, 3, 6, 0, 0, 1, 0, 0, 0, 0, 0, 2, 4, 4, 2, 0, 0, 1⟩) ∧
    decodeWord 0xA6000C3004002921 = some (.stflush ⟨0, 3, 6, 0, 0, 1, 0, 0, 0, 0, 0, 2, 4, 4, 2, 0, 0, 1⟩) ∧
    decodeWord 0xA7000C3004002921 = some (.awinit ⟨0, 3, 6, 0, 0, 1, 0, 0, 0, 0, 0, 2, 4, 4, 2, 0, 0, 1⟩) ∧
    decodeWord 0xA8000C3004002921 = some (.awadd ⟨0, 3, 6, 0, 0, 1, 0, 0, 0, 0, 0, 2, 4, 4, 2, 0, 0, 1⟩) ∧
    decodeWord 0xA9000C3004002921 = some (.awwait ⟨0, 3, 6, 0, 0, 1, 0, 0, 0, 0, 0, 2, 4, 4, 2, 0, 0, 1⟩) ∧
    decodeWord 0xAA000C3004002921 = some (.cadd ⟨0, 3, 6, 0, 0, 1, 0, 0, 0, 0, 0, 2, 4, 4, 2, 0, 0, 1⟩) ∧
    decodeWord 0xAB000C3004002921 = some (.cwait ⟨0, 3, 6, 0, 0, 1, 0, 0, 0, 0, 0, 2, 4, 4, 2, 0, 0, 1⟩) ∧
    decodeWord 0xAC000C3004002921 = some (.remapld ⟨0, 3, 6, 0, 0, 1, 0, 0, 0, 0, 0, 2, 4, 4, 2, 0, 0, 1⟩) := by
  decide

/-- Every opcode of row 0xB_ of the map of rule R59, with fields at the places of its format's table. -/
theorem test_decode_row_b :
    decodeWord 0xB006041008158030 = some (.cpy ⟨3, 1, 2, 0, 1, 0, 0, 5, 0, 1, 1, 0, 0, 0, 0, 6, 0⟩) ∧
    decodeWord 0xB106041008158030 = some (.cpyEnc ⟨3, 1, 2, 0, 1, 0, 0, 5, 0, 1, 1, 0, 0, 0, 0, 6, 0⟩) ∧
    decodeWord 0xB206041008158030 = some (.cpyDec ⟨3, 1, 2, 0, 1, 0, 0, 5, 0, 1, 1, 0, 0, 0, 0, 6, 0⟩) ∧
    decodeWord 0xB306041008158030 = some (.cpyGather ⟨3, 1, 2, 0, 1, 0, 0, 5, 0, 1, 1, 0, 0, 0, 0, 6, 0⟩) ∧
    decodeWord 0xB406041008158030 = some (.stage ⟨3, 1, 2, 0, 1, 0, 0, 5, 0, 1, 1, 0, 0, 0, 0, 6, 0⟩) ∧
    decodeWord 0xB506041008158030 = some (.cpystat ⟨3, 1, 2, 0, 1, 0, 0, 5, 0, 1, 1, 0, 0, 0, 0, 6, 0⟩) := by
  decide

/-- Every opcode of row 0xC_ of the map of rule R59, with fields at the places of its format's table. -/
theorem test_decode_row_c :
    decodeWord 0xC006041008158030 = some (.launch ⟨3, 1, 2, 0, 1, 0, 0, 5, 0, 1, 1, 0, 0, 0, 0, 6, 0⟩) ∧
    decodeWord 0xC106041008158030 = some (.post ⟨3, 1, 2, 0, 1, 0, 0, 5, 0, 1, 1, 0, 0, 0, 0, 6, 0⟩) ∧
    decodeWord 0xC206041008158030 = some (.cont ⟨3, 1, 2, 0, 1, 0, 0, 5, 0, 1, 1, 0, 0, 0, 0, 6, 0⟩) ∧
    decodeWord 0xC306041008158030 = some (.taskexit ⟨3, 1, 2, 0, 1, 0, 0, 5, 0, 1, 1, 0, 0, 0, 0, 6, 0⟩) := by
  decide

/-- Every opcode of row 0xD_ of the map of rule R59, with fields at the places of its format's table. -/
theorem test_decode_row_d :
    decodeWord 0xD00E0847F2007FFD = some (.addI ⟨7, 2, 0, 1, 0, 0, 0, 0, 0, 0, 0, 8388605⟩) ∧
    decodeWord 0xD10E0847F2007FFD = some (.subI ⟨7, 2, 0, 1, 0, 0, 0, 0, 0, 0, 0, 8388605⟩) ∧
    decodeWord 0xD20E0847F2007FFD = some (.mulI ⟨7, 2, 0, 1, 0, 0, 0, 0, 0, 0, 0, 8388605⟩) ∧
    decodeWord 0xD30E0847F2007FFD = some (.andI ⟨7, 2, 0, 1, 0, 0, 0, 0, 0, 0, 0, 8388605⟩) ∧
    decodeWord 0xD40E0847F2007FFD = some (.orI ⟨7, 2, 0, 1, 0, 0, 0, 0, 0, 0, 0, 8388605⟩) ∧
    decodeWord 0xD50E0847F2007FFD = some (.xorI ⟨7, 2, 0, 1, 0, 0, 0, 0, 0, 0, 0, 8388605⟩) ∧
    decodeWord 0xD60E0847F2007FFD = some (.shlI ⟨7, 2, 0, 1, 0, 0, 0, 0, 0, 0, 0, 8388605⟩) ∧
    decodeWord 0xD70E0847F2007FFD = some (.shrI ⟨7, 2, 0, 1, 0, 0, 0, 0, 0, 0, 0, 8388605⟩) ∧
    decodeWord 0xD80E0847F2007FFD = some (.sarI ⟨7, 2, 0, 1, 0, 0, 0, 0, 0, 0, 0, 8388605⟩) ∧
    decodeWord 0xD90E0847F2007FFD = some (.rotI ⟨7, 2, 0, 1, 0, 0, 0, 0, 0, 0, 0, 8388605⟩) ∧
    decodeWord 0xDA0E0847F2007FFD = some (.cmpI ⟨7, 2, 0, 1, 0, 0, 0, 0, 0, 0, 0, 8388605⟩) ∧
    decodeWord 0xDB0E0847F2007FFD = some (.minI ⟨7, 2, 0, 1, 0, 0, 0, 0, 0, 0, 0, 8388605⟩) ∧
    decodeWord 0xDC0E0847F2007FFD = some (.maxI ⟨7, 2, 0, 1, 0, 0, 0, 0, 0, 0, 0, 8388605⟩) ∧
    decodeWord 0xDD0E0847F2007FFD = some (.bfeI ⟨7, 2, 0, 1, 0, 0, 0, 0, 0, 0, 0, 8388605⟩) := by
  decide

/-- Worked words of the chapters, whole: they pass every check of rule R60 outside a handler. -/
theorem test_decode_worked_0 :
    decode plain 0x1006041008158030 = .ok (.add ⟨3, 1, 2, 0, 1, 0, 0, 5, 0, 1, 1, 0, 0, 0, 0, 6, 0⟩) ∧
    decode plain 0xD00E0847F2007FFD = .ok (.addI ⟨7, 2, 0, 1, 0, 0, 0, 0, 0, 0, 0, 8388605⟩) ∧
    decode plain 0x0100000000008000 = .ok (.nop ⟨0, 0, 0, 0, 0, 0, 0, 0, 1, 0, 0, 0⟩) ∧
    decode plain 0x03000002A0000000 = .ok (.trap ⟨0, 0, 42, 0, 0, 0, 0, 0, 0, 0, 0, 0⟩) ∧
    decode plain 0x0602000000000000 = .ok (.sread ⟨1, 0, 0, 0, 0, 0, 0, 0, 0, 0, 0, 0⟩) ∧
    decode plain 0x37022468ACF00000 = .ok (.movi ⟨1, 305419896, 0, 0, 0, 0, 0, 0, 0⟩) ∧
    decode plain 0x3806A00008000011 = .ok (.movx ⟨3, 40, 0, 0, 1, 0, 0, 0, 0, 0, 0, 0, 0, 0, 0, 2, 1⟩) ∧
    decode plain 0xDA08245000000064 = .ok (.cmpI ⟨4, 9, 0, 1, 2, 0, 0, 0, 0, 0, 0, 100⟩) ∧
    decode plain 0x430C041034000011 = .ok (.fma ⟨6, 1, 2, 3, 0, 1, 0, 0, 0, 0, 0, 0, 0, 0, 0, 2, 1⟩) := by
  decide

theorem test_decode_worked_1 :
    decode plain 0x4D04041000000024 = .ok (.cvt ⟨2, 1, 2, 0, 0, 0, 0, 0, 0, 0, 0, 0, 0, 0, 0, 4, 4⟩) ∧
    decode plain 0x5400000000120000 = .ok (.loop ⟨0, 0, 0, 9, 0, 0, 0⟩) ∧
    decode plain 0x0200000000090000 = .ok (.exit ⟨0, 0, 0, 0, 0, 2, 0, 1, 0, 0, 0, 0⟩) ∧
    decode plain 0x61040C0000003003 = .ok (.pqry ⟨2, 3, 0, 0, 0, 0, 0, 0, 0, 0, 0, 1, 2, 0, 0, 0, 3⟩) ∧
    decode plain 0x7008500000002010 = .ok (.arm ⟨4, 20, 0, 0, 0, 0, 0, 0, 0, 0, 0, 1, 0, 0, 0, 2, 0⟩) ∧
    decode plain 0x7200104804000811 = .ok (.send ⟨0, 4, 9, 0, 0, 1, 0, 0, 0, 0, 0, 0, 1, 0, 0, 2, 1⟩) ∧
    decode plain 0x8100103008080000 = .ok (.tldw ⟨0, 4, 6, 0, 1, 0, 0, 1, 0, 0, 0, 0⟩) ∧
    decode plain 0x8300200038080400 = .ok (.tmma ⟨0, 8, 0, 3, 1, 0, 0, 1, 0, 0, 2, 0⟩) ∧
    decode plain 0x8728000040080003 = .ok (.tdrain ⟨20, 0, 0, 4, 0, 0, 0, 1, 0, 0, 0, 3⟩) := by
  decide

theorem test_decode_worked_2 :
    decode plain 0x950C240000002802 = .ok (.gather ⟨6, 9, 0, 0, 0, 0, 0, 0, 0, 0, 0, 2, 4, 0, 0, 0, 1, 0⟩) ∧
    decode plain 0xA00E081804001802 = .ok (.atom ⟨7, 2, 3, 0, 0, 1, 0, 0, 0, 0, 0, 1, 4, 0, 0, 0, 1, 0⟩) ∧
    decode plain 0x97000000000000F0 = .ok (.fence ⟨0, 0, 0, 0, 0, 0, 0, 0, 0, 0, 0, 0, 0, 3, 3, 0, 0, 0⟩) ∧
    decode plain 0x91000C3004002921 = .ok (.st ⟨0, 3, 6, 0, 0, 1, 0, 0, 0, 0, 0, 2, 4, 4, 2, 0, 0, 1⟩) ∧
    decode plain 0xAB00081800001B11 = .ok (.cwait ⟨0, 2, 3, 0, 0, 0, 0, 0, 0, 0, 0, 1, 5, 4, 1, 0, 0, 1⟩) ∧
    decode plain 0xB004206100002A80 = .ok (.cpy ⟨2, 8, 12, 16, 0, 0, 0, 0, 0, 0, 0, 1, 1, 1, 1, 0, 0⟩) ∧
    decode plain 0xB50E080000002800 = .ok (.cpystat ⟨7, 2, 0, 0, 0, 0, 0, 0, 0, 0, 0, 1, 1, 0, 0, 0, 0⟩) ∧
    decode plain 0xC00C200000002800 = .ok (.launch ⟨6, 8, 0, 0, 0, 0, 0, 0, 0, 0, 0, 1, 1, 0, 0, 0, 0⟩) ∧
    decode plain 0xC2202050B0000AB8 = .ok (.cont ⟨16, 8, 10, 11, 0, 0, 0, 0, 0, 0, 0, 0, 1, 1, 1, 7, 0⟩) := by
  decide

/-! ### Words that are refused, one for each check of rule R60 -/

/-- Check 1: opcode 0x00 is not assigned, and a word of all zeros traps. -/
theorem test_check1 : decode plain 0 = .error ⟨1, 0, 0⟩ := by decide

/-- Check 2: ADD with a C field that it does not use. -/
theorem test_check2 : (Instr.add ⟨3, 1, 2, 9, 0, 0, 0, 0, 0, 0, 0, 0, 0, 0, 0, 6, 0⟩).check plain = some ⟨2, 0, 0⟩ := by decide

/-- Check 3: ADD of a uniform register number above 63; the field is A. -/
theorem test_check3 : (Instr.add ⟨3, 64, 2, 0, 0, 0, 0, 0, 0, 0, 0, 0, 1, 0, 0, 6, 0⟩).check plain = some ⟨3, 1, 64⟩ := by decide

/-- Check 3: a handler-bank register outside a handler. -/
theorem test_check3_handler : (Instr.add ⟨3, 1, 2, 0, 0, 0, 0, 0, 0, 0, 0, 0, 3, 0, 0, 6, 0⟩).check plain = some ⟨3, 3, 1⟩ := by decide

/-- Check 4: ADD with the reserved type code 1110. -/
theorem test_check4 : (Instr.add ⟨3, 1, 2, 0, 0, 0, 0, 0, 0, 0, 0, 0, 0, 0, 0, 14, 0⟩).check plain = some ⟨4, 0, 0⟩ := by decide

/-- Check 5: last use of a uniform source. -/
theorem test_check5 : (Instr.add ⟨3, 1, 2, 0, 1, 0, 0, 0, 0, 0, 0, 0, 1, 0, 0, 6, 0⟩).check plain = some ⟨5, 1, 1⟩ := by decide

/-- Check 6: a guard number without a guard. -/
theorem test_check6 : (Instr.add ⟨3, 1, 2, 0, 0, 0, 0, 5, 0, 0, 0, 0, 0, 0, 0, 6, 0⟩).check plain = some ⟨6, 0, 0⟩ := by decide

/-- Check 7: a 64-bit pair that starts at an odd register. -/
theorem test_check7 : (Instr.add ⟨3, 2, 4, 0, 0, 0, 0, 0, 0, 0, 0, 0, 0, 0, 0, 7, 0⟩).check plain = some ⟨7, 0, 3⟩ := by decide

/-- Check 8: RTH outside a handler (rule R407). -/
theorem test_check8 : decode plain 0x0900000000000000 = .error ⟨8, 0, 0⟩ ∧ decode ⟨true, 32, 16⟩ 0x0900000000000000 = .ok (.rth ⟨0, 0, 0, 0, 0, 0, 0, 0, 0, 0, 0, 0⟩) := by
  decide


/-- A translation table entry that maps the first 32 GiB onto device memory. -/
def page : TlbEnt := { part := 0, size := 3, vbase := 0, frame := 0, rd := true, wr := true, mig := none }

/-- A translation register for the same 32 GiB. -/
def tr0 : TReg := { w0 := 0, w1 := 0xE030000000000000, w2 := 0x800000000 }

/-- The split of the tests: all 16 lanes, at PC 0x10000. -/
def sp : Split := { id := 0, pc := 0x10000, am := 0xFFFF, own := 0xFFFF }

/-- The group of the tests: 16 lanes in core 0's slot 0; v0 to v15 are MAPPED and hold n, n + 1, … in their lanes, u1 to u7 hold small numbers, and
p1 is true in the lower half. -/
def grp : Group :=
  { gid := 1, lid := 0, tid := 0, idx := 0, tindex := 0, part := 0, w := 16, resv := 64, admitted := 0, splits := [sp]
    regs := { v := (List.range 16).map (fun n => (n, { st := .mapped, val := (List.range 16).map (fun l => BitVec.ofNat 32 (n + l)) }))
              k := [(1, 1), (2, 2), (3, 3), (4, 0x100), (5, 0x1000), (6, 64), (7, 8)]
              p := [(1, 0xFF)]
              t := [(0, tr0)] } }

/-- The package of the tests: `grp`, its team with 64 KiB of local store, its launch, the lower 32 GiB in use, and a capability key and an identity
that are numbers, so that states compare by evaluation. -/
def pkg : State := { State.reset with
  cores := [(0, { slots := [(0, grp)], tlb := [page] })]
  stackTlb0 := [page]
  regions := [(0, 0x8020000000000000), (4, BitVec.allOnes 64), (5, BitVec.allOnes 64), (6, BitVec.allOnes 64), (7, BitVec.allOnes 64)]
  partmap := [(0, 0)]
  key := 5
  identity := 6
  parts := []
  scopeDone := true
  teams := [(0, { tid := 0, lid := 0, index := 0, part := 0, core := 0, pair := false, groups := 1, w := 16, prio := 0, gang := false
                  live := [0], lsz := 65536 })]
  launches := [(0, { lid := 0, seq := 0, part := 0, origin := .graph 0, record := List.replicate 13 0 ++ [0x4000, 0, 0], safe := [5], next := 1 })] }

/-- `pkg` with the group changed by `f`. -/
def pkgG (f : Group → Group) : State := pkg.setGroup 0 0 (f grp)

/-- `pkg` with words in memory. -/
def pkgM (ws : List (Nat × W64)) : State := { pkg with mem := ws.foldl (fun m e => memSetAll m (cellsAt e.1 (bytesOf e.2.toNat 8))) [] }

/-! ### For each statement with hypotheses, a state and operands that meet them

A theorem `witness_…` takes a clause of the statements as its hypothesis and applies it to a small state, every condition of the clause shown by
evaluation, so that the clause's conclusion holds there. -/

section
set_option Elab.async false
set_option maxRecDepth 20000

/-- A write of vector register `n` in the lanes of `m`. -/
def wv (n : Nat) (m : Mask) : RegW := { sp := .vec, num := n, mask := m, vals := [9,8,7,6,5,4,3,2,1] }

/-- `Named` as a conjunction that evaluates. -/
theorem named_iff (s : State) (G : Group) (P : Plan) : Named s G P ↔
    (∀ n ∈ P.rv, (G.vreg n).st = .mapped ∨ (G.vreg n).st = .empty) ∧ (∀ n ∈ P.wv, (G.vreg n).st = .mapped ∨ (G.vreg n).st = .empty)
    ∧ fld G.deadread 1 1 = 0 ∧ (((P.wv.eraseDups).filter G.needsRoom).length * G.gran = 0
      ∨ ({ s.core s.cur.core with slots := (s.core s.cur.core).slots.set s.cur.slot (G.release P) }).fits (G.release P)
          (((P.wv.eraseDups).filter G.needsRoom).length * G.gran) = true) :=
  ⟨fun h => ⟨h.src, h.dst, h.quiet, h.room⟩, fun h => ⟨h.1, h.2.1, h.2.2.1, h.2.2.2⟩⟩

/-- The test group is calm. -/
theorem calm_pkg : Calm pkg grp sp := by repeat' (first | rfl | decide +kernel | constructor)

/-- A word of format R with no LA, LB or LC bit and no guard. -/
def fR (d a b c sd sa sb sc ty opx : Nat) : FmtR := ⟨.ofNat _ d, .ofNat _ a, .ofNat _ b, .ofNat _ c, 0, 0, 0, 0, 0, 0, 0, .ofNat _ sd, .ofNat _ sa, .ofNat _ sb, .ofNat _ sc, .ofNat _ ty, .ofNat _ opx⟩

/-- A copy of the test team with the id `n`. -/
def mkCopy (n : Nat) : Copy := { id := n, ticket := 1, tid := 0, lid := 0, part := 0, core := 0, slot := 0, gid := 1, split := 0, kind := 0, src := [], dst := [], srec := [], drec := [], done := 0 }

def cRun : Copy := { mkCopy 5 with ticket := 2, state := 2, chunk := 3, bytes := 77, started := true }

/-- The copy that resolving one answers. -/
def wc (c : State × Out Copy) : Copy := match c.2 with | .ok d => d | _ => cRun

def x3 : FmtR := fR 20 1 2 0 0 0 0 0 6 0

def x2 : FmtR := fR 20 1 0 0 0 0 0 0 6 0

def y3 : FmtR := fR 20 1 2 0 0 0 0 0 2 0

def y2 : FmtR := fR 20 1 0 0 0 0 0 0 2 0

def z3 : FmtR := fR 20 2 4 0 0 0 0 0 7 1

/-- Integer words that are legal in the test group, each with the registers that it names. -/
def integerWords : List (Instr × Plan) :=
  [(.add x3, planR x3 (shInt 6 true false)), (.sub z3, planR z3 (shInt 7 true false)), (.min x3, planR x3 (shInt 6 true false)), (.max x3, planR x3 (shInt 6 true false)),
   (.abs x2, planR x2 (shInt 6 false false)), (.neg x2, planR x2 (shInt 6 false false)),
   (.mul { x3 with opx := 1 }, planR { x3 with opx := 1 } { wd := true }), (.mulhi x3, planR x3 (shInt 6 true false)),
   (.mad { x3 with c := 3 }, planR { x3 with c := 3 } { useC := true }),
   (.div x3, planR x3 (shInt 6 true false)), (.rem { z3 with opx := 0 }, planR { z3 with opx := 0 } (shInt 7 true false)),
   (.lea { x3 with opx := 2 }, planR { x3 with opx := 2 } {}),
   (.and { y3 with opx := 1 }, planR { y3 with opx := 1 } (shInt 2 true false)), (.or y3, planR y3 (shInt 2 true false)), (.xor y3, planR y3 (shInt 2 true false)), (.not y2, planR y2 (shInt 2 false false)),
   (.shl y3, planR y3 {}), (.shr y3, planR y3 {}), (.sar y3, planR y3 {}), (.rot y3, planR y3 {}),
   (.bfe { x3 with c := 3 }, planR { x3 with c := 3 } { useC := true }), (.bfi { y3 with c := 3 }, planR { y3 with c := 3 } { shInt 2 true true with wc := false }), (.brev y2, planR y2 (shInt 2 false false)),
   (.popc y2, planR y2 { useB := false }), (.clz y2, planR y2 { useB := false }), (.ctz y2, planR y2 { useB := false }), (.tcnt x2, planR x2 { useB := false }),
   (.cmp { x3 with sd := 2, d := 4 }, planR { x3 with sd := 2, d := 4 } { shInt 6 true false with wd := false }),
   (.pand (fR 4 1 2 0 2 2 2 0 0 0), planR (fR 4 1 2 0 2 2 2 0 0 0) {}), (.por (fR 4 1 2 0 2 2 2 0 0 1), planR (fR 4 1 2 0 2 2 2 0 0 1) {}),
   (.pxor (fR 4 1 2 0 2 2 2 0 0 2), planR (fR 4 1 2 0 2 2 2 0 0 2) {}), (.pnot (fR 4 1 0 0 2 2 0 0 0 0), planR (fR 4 1 0 0 2 2 0 0 0 0) { useB := false }),
   (.sel (fR 20 1 2 1 0 0 0 2 2 0), planR (fR 20 1 2 1 0 0 0 2 2 0) { shInt 2 true true with wc := false })]

theorem witness_integerWords : Calm pkg grp sp ∧ sp.am ≠ 0 ∧ ∀ q ∈ integerWords, Legal pkg grp q.1 ∧ Named pkg grp q.2 := by
  refine ⟨calm_pkg, by decide, ?_⟩
  simp only [named_iff, Legal]; decide +kernel

/-- A word of format I. -/
def fI (d a tyi opx imm : Nat) : FmtI := ⟨.ofNat _ d, .ofNat _ a, 0, .ofNat _ tyi, .ofNat _ opx, 0, 0, 0, 0, 0, 0, .ofNat _ imm⟩

/-- Immediate words that are legal in the test group, each with the registers that it names. -/
def immediateWords : List (Instr × Plan) :=
  let f := fI 20 1 0 0 5
  [(.addI f, planI f false), (.subI f, planI f false), (.mulI f, planI f false), (.andI f, planI f false), (.orI f, planI f false), (.xorI f, planI f false), (.shlI f, planI f false),
   (.shrI f, planI f false), (.sarI f, planI f false), (.rotI f, planI f false), (.minI { f with tyi := 1 }, planI { f with tyi := 1 } false), (.maxI { f with tyi := 1 }, planI { f with tyi := 1 } false), (.bfeI f, planI f false), (.cmpI { f with d := 4, tyi := 1, opx := 2 }, planI { f with d := 4, tyi := 1, opx := 2 } true)]

theorem witness_immediateWords : Calm pkg grp sp ∧ sp.am ≠ 0 ∧ ∀ q ∈ immediateWords, Legal pkg grp q.1 ∧ Named pkg grp q.2 := by
  refine ⟨calm_pkg, by decide, ?_⟩
  simp only [named_iff, Legal]; decide +kernel

/-- The shape of a float word, with B and C as given. -/
def fSh (f : FmtR) (b c : Bool) : Shape := { wd := f.ty == 3, wa := f.ty == 3, wb := f.ty == 3, wc := f.ty == 3, useB := b, useC := c }

/-- The same for float words. -/
def floatWords : List (Instr × Plan) :=
  let f := fR 20 1 2 0 0 0 0 0 2 0
  let f1 := fR 20 1 0 0 0 0 0 0 2 0
  let f3 := fR 20 1 2 3 0 0 0 0 2 0
  [(.fadd f, planR f (fSh f true false)), (.fsub f, planR f (fSh f true false)), (.fmul f, planR f (fSh f true false)), (.fma f3, planR f3 (fSh f3 true true)),
   (.fmin f, planR f (fSh f true false)), (.fmax f, planR f (fSh f true false)), (.frcp f1, planR f1 (fSh f1 false false)), (.fsqrt f1, planR f1 (fSh f1 false false)),
   (.frsq f1, planR f1 (fSh f1 false false)), (.fexp2 f1, planR f1 (fSh f1 false false)), (.flog2 f1, planR f1 (fSh f1 false false)),
   (.fclass f1, planR f1 { fSh f1 false false with wd := false }), (.fcmp { f with sd := 2, d := 4 }, planR { f with sd := 2, d := 4 } { fSh f true false with wd := false }),
   (.cvt (fR 20 1 0x26 0 0 0 0 0 6 1), planR (fR 20 1 0x26 0 0 0 0 0 6 1) { useB := false }), (.cvt (fR 20 1 0x22 0 0 0 0 0 6 1), planR (fR 20 1 0x22 0 0 0 0 0 6 1) { useB := false }), (.cvt (fR 20 1 0x16 0 0 0 0 0 2 0), planR (fR 20 1 0x16 0 0 0 0 0 2 0) { useB := false }), (.fadd { f with ty := 3, a := 2, b := 4 }, planR { f with ty := 3, a := 2, b := 4 } (fSh { f with ty := 3 } true false))]

theorem witness_floatWords : Calm pkg grp sp ∧ sp.am ≠ 0 ∧ ∀ q ∈ floatWords, Legal pkg grp q.1 ∧ Named pkg grp q.2 := by
  refine ⟨calm_pkg, by decide, ?_⟩
  simp only [named_iff, Legal]; decide +kernel

/-- The same for words across lanes. -/
def laneWords : List (Instr × Plan) :=
  [(.lxch (fR 20 1 3 0 0 0 1 0 2 0), planR (fR 20 1 3 0 0 0 1 0 2 0) {}), (.bcast (fR 20 1 3 0 0 0 1 0 2 0), planR (fR 20 1 3 0 0 0 1 0 2 0) {}),
   (.pqry (fR 4 1 3 0 2 2 1 0 0 0), planR (fR 4 1 3 0 2 2 1 0 0 0) {}), (.pqry (fR 20 1 0 0 0 2 0 0 0 4), planR (fR 20 1 0 0 0 2 0 0 0 4) { useB := false }), (.matchLanes (fR 20 3 0 0 0 0 0 0 2 0), planR (fR 20 3 0 0 0 0 0 0 2 0) { useB := false }),
   (.elect (fR 2 0 0 0 2 0 0 0 0 0), (({} : Plan).dst spPred 2 false)), (.red (fR 20 1 0 0 0 0 0 0 6 0), planR (fR 20 1 0 0 0 0 0 0 6 0) { useB := false }),
   (.scan (fR 20 1 0 0 0 0 0 0 6 0), planR (fR 20 1 0 0 0 0 0 0 6 0) { useB := false }), (.topk (fR 4 1 3 0 2 0 1 0 6 0), planR (fR 4 1 3 0 2 0 1 0 6 0) {}), (.topk (fR 4 1 3 0 2 0 1 0 2 2), planR (fR 4 1 3 0 2 0 1 0 2 2) {}),
   (.red (fR 20 1 8 0 0 0 0 0 2 0), planR (fR 20 1 8 0 0 0 0 0 2 0) { useB := false }), (.scan (fR 20 1 8 0 0 0 0 0 2 0), planR (fR 20 1 8 0 0 0 0 0 2 0) { useB := false })]

theorem witness_laneWords : Calm pkg grp sp ∧ sp.am ≠ 0 ∧ ∀ q ∈ laneWords, Legal pkg grp q.1 ∧ Named pkg grp q.2 := by
  refine ⟨calm_pkg, by decide, ?_⟩
  simp only [named_iff, Legal]; decide +kernel

/-- The same for moves. -/
def moveWords : List (Instr × Plan) :=
  [(.mov (fR 20 1 0 0 0 0 0 0 2 0), ((({} : Plan).guard 0 0 0).src 0 1 false 0).dst 0 20 false), (.mov (fR 1 3 0 0 1 1 0 0 6 1), { rk := [3], wx := [1] }),
   (.mov (fR 20 1 0 0 0 1 0 0 6 2), { ({} : Plan) with rx := [1] }.dst 0 20 false), (.movi ⟨9, 5, 0, 0, 0, 0, 1, 0, 0⟩, ({} : Plan).dst 1 9 false), (.movi ⟨20, 5, 0, 0, 0, 0, 0, 0, 0⟩, ({} : Plan).dst 0 20 false)]

theorem witness_moveWords : Calm pkg grp sp ∧ sp.am ≠ 0 ∧ ∀ q ∈ moveWords, Legal pkg grp q.1 ∧ Named pkg grp q.2 := by
  refine ⟨calm_pkg, by decide, ?_⟩
  simp only [named_iff, Legal]; decide +kernel

/-- `Obligations.EncodeDecode` applies here. -/
theorem witness_encodeDecode (h : Obligations.EncodeDecode) : encode (.nop ⟨0, 0, 0, 0, 0, 0, 0, 0, 1, 0, 0, 0⟩) = some 0x0100000000008000 :=
  h plain _ _ (by decide)

/-- `Obligations.DecodeEncode` applies here. -/
theorem witness_decodeEncode (h : Obligations.DecodeEncode) : decode plain 0x0100000000008000 = .ok (.nop ⟨0, 0, 0, 0, 0, 0, 0, 0, 1, 0, 0, 0⟩) :=
  h plain _ _ (by decide) (by decide)

/-- `Clause.DecodeChecks` applies here. -/
theorem witness_decodeChecks (h : Clause.DecodeChecks) : (Instr.nop ⟨0, 0, 0, 0, 0, 0, 0, 0, 1, 0, 0, 0⟩).check plain = none :=
  (h plain 0x0100000000008000).1 _ (by decide)

def memC (r1 r2 : List Nat) : List Host.Cell :=
  (r2.zipIdx.foldl (fun m x => memSetAll m (cellsAt (0x40040 + 8*x.2) (bytesOf x.1 8))) (r1.zipIdx.foldl (fun m x => memSetAll m (cellsAt (0x40000 + 8*x.2) (bytesOf x.1 8))) []))

def pkgCp (g : Group) (r1 r2 : List Nat) : State := { pkg.setGroup 0 0 g with mem := memC r1 r2 }

def ex (a b : Nat) : List (W64) := [BitVec.ofNat 64 (a + b*2^32), BitVec.ofNat 64 (1 + 2^21 + 2^42)]

def lsB (o : Nat) : W64 := BitVec.ofNat 64 (2^63 + o)

def kC (src dst : List W64) (g : Option W64) : Tab W64 :=
  let s := src.zipIdx.map (fun x => (32 + x.2, x.1))
  let d := dst.zipIdx.map (fun x => (40 + x.2, x.1))
  s ++ (match g with | some w => [(36, w)] | none => []) ++ d ++ [(44, 0)]

def gC (src dst : List W64) (g : Option W64) : Group := { grp with regs := { grp.regs with k := grp.regs.k ++ kC src dst g } }

def g1 : Group := gC ([lsB 0x400, 0x40000] ++ ex 250 1) ([lsB 0x2000, 0x40040] ++ ex 256 1) none

def p1 : State := pkgCp g1 [0x11] [0x91]

/-- guarded by p1 -/
def gd (f : FmtR) : FmtR := { f with ge := 1, g := 1 }

/-- `Clause.Multiply` (rule R76) applies here. -/
theorem witness_multiply (h : Clause.Multiply) :
    (∃ t, exec (.mul (fR 20 3 2 0 0 0 0 0 2 0)) pkg = .next t)
    ∧ (∃ t, exec (.mulhi (fR 20 3 2 0 0 0 0 0 6 0)) pkg = .next t)
    ∧ (∃ t, exec (.mad (gd (fR 20 3 2 4 0 0 0 0 6 0))) pkg = .next t) := by
  refine ⟨(h.1 pkg grp sp (fR 20 3 2 0 0 0 0 0 2 0) ?_ ?_ ?_ ?_).imp fun _ e => e.1,
    (h.2.1 pkg grp sp (fR 20 3 2 0 0 0 0 0 6 0) ?_ ?_ ?_ ?_).imp fun _ e => e.1,
    (h.2.2 pkg grp sp (gd (fR 20 3 2 4 0 0 0 0 6 0)) ?_ ?_ ?_ ?_).imp fun _ e => e.1⟩ <;>
  repeat' (first | decide +kernel | constructor)

def Lx : L1Line := { line := 2, valid := 0b0001, dirty := 3, poison := 0, data := List.replicate 128 9, ef := false, lrel := false, mig := none }

def la (t : State) : L1Line := ((t.core 0).l1line 2).getD Lx

/-- `Clause.Divide` (rule R77) applies here. -/
theorem witness_divide (h : Clause.Divide) :
    (∃ t, exec (.div (fR 20 3 2 0 0 0 0 0 6 0)) pkg = .next t)
    ∧ (∃ t, exec (.rem ({ gd (fR 20 4 2 0 0 0 0 0 7 0) with la := 1 })) pkg = .next t) := by
  refine ⟨(h.1 pkg grp sp (fR 20 3 2 0 0 0 0 0 6 0) ?_ ?_ ?_ ?_).imp fun _ e => e.1,
    (h.2 pkg grp sp ({ gd (fR 20 4 2 0 0 0 0 0 7 0) with la := 1 }) ?_ ?_ ?_ ?_).imp fun _ e => e.1⟩ <;>
  repeat' (first | decide +kernel | constructor)

/-- `Clause.AddressAndLogic` (rules R78 and R79) applies here. -/
theorem witness_addressAndLogic (h : Clause.AddressAndLogic) : (∃ t, exec (.lea (fR 20 3 2 0 0 0 0 0 2 2)) pkg = .next t) := by
  refine (h.1 pkg grp sp (fR 20 3 2 0 0 0 0 0 2 2) ?_ ?_ ?_ ?_).imp fun _ e => e.1 <;>
  repeat' (first | decide +kernel | constructor)

def gIx : Group := { grp with regs := { grp.regs with x := [(1, 2), (2, 50)] } }

/-- The launch of the package. -/
def lch : Launch := (pkg.launches.find 0).getD { lid := 1, seq := 0, part := 0, origin := .graph 0, record := [] }

def lAr : Launch := { lch with record := lch.record.set 8 (BitVec.ofNat 64 (8*256 + 2)) }

def pkgIx : State := { pkg.setGroup 0 0 gIx with launches := [(0, lAr)] }

/-- Of a register that no array of the test launch's indexed registers reaches with the index 50. -/
theorem far_index (n : Nat) (P : Nat → Nat → Prop) (hn : n = 3) :
    ¬ ∃ b len, (fun n => List.find? (fun a => decide (a.1 ≤ n ∧ n < a.1 + a.2)) (pkgIx.arrays gIx)) n = some (b, len)
      ∧ (b : Int) ≤ 53 ∧ (53 : Int) < b + len ∧ P b len := by
  rintro ⟨b, len, h, h1, h2, -⟩
  subst hn
  rw [show (fun n => List.find? (fun a => decide (a.1 ≤ n ∧ n < a.1 + a.2)) (pkgIx.arrays gIx)) 3 = some (2, 8) from by decide +kernel] at h
  cases h; omega

/-- `Clause.IndexedMoves` (rules R31 and R90) applies here. -/
theorem witness_indexedMoves (h : Clause.IndexedMoves) :
    (∃ t, exec (.movx (fR 3 3 0 0 0 0 0 0 2 1)) pkgIx = .next t)
    ∧ (∃ t, exec (.movxw (fR 3 3 0 0 0 0 0 0 2 1)) pkgIx = .next t)
    ∧ (∃ t, exec (.movx (fR 3 3 0 0 0 0 0 0 2 2)) pkgIx = .next t)
    ∧ (∃ t, exec (.movxw (fR 3 3 0 0 0 0 0 0 2 2)) pkgIx = .next t) := by
  refine ⟨((h pkgIx gIx sp (fR 3 3 0 0 0 0 0 0 2 1) ?_ ?_).1 ⟨2, 8, by decide +kernel⟩ ?_ ?_ ?_).imp fun _ e => e.1,
    ((h pkgIx gIx sp (fR 3 3 0 0 0 0 0 0 2 1) ?_ ?_).2.1 ⟨2, 8, by decide +kernel⟩ ?_ ?_ ?_).imp fun _ e => e.1,
    ⟨_, (h pkgIx gIx sp (fR 3 3 0 0 0 0 0 0 2 2) ?_ ?_).2.2.1 (far_index 3 _ rfl) ?_ ?_⟩,
    ⟨_, (h pkgIx gIx sp (fR 3 3 0 0 0 0 0 0 2 2) ?_ ?_).2.2.2 (far_index 3 _ rfl) ?_ ?_⟩⟩ <;>
  repeat' (first | decide +kernel | constructor)

def eI : Entry := ⟨.ifE, 0xFFFF, 0xFF00, 0x10010, false, none⟩

/-- `Clause.Advance` (rule R127) applies here. -/
theorem witness_advance (h : Clause.Advance) :
    advance 0xF [] 8 = some (0xF, [], 8) ∧ advance 0 [] 8 = none ∧ advance 0 [eI] 8 = some (0, [eI], eI.addr)
    ∧ advance 0 [{ eI with kind := .callE }] 8 = some (eI.outer, [], eI.addr)
    ∧ advance 0 [{ eI with kind := .callE, outer := 0 }] 8 = advance 0 [] 8 :=
  ⟨(h _ _ _).1 (by decide), (h 0 _ _).2.1 rfl, (h 0 _ _).2.2.1 _ _ rfl (Or.inl rfl), (h 0 _ _).2.2.2.1 { eI with kind := .callE } [] rfl rfl (by decide),
    (h 0 _ _).2.2.2.2 { eI with kind := .callE, outer := 0 } [] rfl rfl rfl⟩

/-- A branch word with every field zero. -/
def fB0 : FmtB := ⟨0,0,0,0,0,0,0⟩

/-- The test split with the stack `l`. -/
def spS (l : List Entry) : Split := { sp with stack := l }

/-- The test group with one split, its stack `l`. -/
def gS (l : List Entry) : Group := { grp with splits := [spS l] }

/-- Branch words at the targets of the test branches. -/
def pkgB (w : W64) : State := pkgM [(0x10010, w), (0x10000, 0x5400000000000000)]

/-- The package with the stack `l` in its one split and the word `w` at the branch target. -/
def pkgBS (w : W64) (l : List Entry) : State := (pkgB w).setGroup 0 0 (gS l)

def eL : Entry := ⟨.loopE, 0xFFFF, 0xF0, 0x10010, false, none⟩

def pkgN (w : W64) (l : List Entry) : State := { pkgBS w l with mem := (pkgM [(0xFFF0, w), (0x10010, w)]).mem }

def fU : FmtB := { fB0 with off := 2 }

def fT : FmtB := { fB0 with off := 2 }

def fP : FmtB := { fB0 with pe := 1, p := 1, off := 2 }

def w52 : W64 := 0x5200000000000000

def w54 : W64 := 0x5400000000000000

def w53 : W64 := 0x5300000000000000

def cI (l : List Entry) : State := pkgN w53 l

/-- `Clause.Conditionals` (rules R129, R132, R133 and R154) applies here. -/
theorem witness_conditionals (h : Clause.Conditionals) :
    (∃ t, exec (.ifThen fP) (cI []) = .next t)
    ∧ (∃ t, exec (.elseArm fU) (pkgN w54 [eL]) = .next t)
    ∧ (∃ t, exec (.elseArm fT) (cI [eI]) = .next t)
    ∧ (∃ t, exec (.endif fB0) (pkgBS 5908722711110090752 [eI]) = .next t)
    ∧ (∃ t, exec (.ifs fP) (pkgN w52 []) = .next t) := by
  refine ⟨(((h (cI []) (gS []) (spS []) fP ?_).1 (Option.get (((cI []).fetchAt (cI []).cur (gS []).part (BitVec.toNat ((spS []).pc + 8 * BitVec.signExtend 64 fP.off))).2) (by decide +kernel)) ?_).2 ?_ ?_).imp fun _ e => e.1,
    ⟨_, ((h ((pkgN w54 [eL])) (gS [eL]) (spS [eL]) fU ?_).2.2.2.2.1 (Option.get (((pkgN w54 [eL]).fetchAt (pkgN w54 [eL]).cur (gS [eL]).part (BitVec.toNat ((spS [eL]).pc + 8 * BitVec.signExtend 64 fU.off))).2) (by decide +kernel)) ?_).1 ?_ ?_⟩,
    (((h (cI [eI]) (gS [eI]) (spS [eI]) fT ?_).2.2.2.2.1 (Option.get (((cI [eI]).fetchAt (cI [eI]).cur (gS [eI]).part (BitVec.toNat ((spS [eI]).pc + 8 * BitVec.signExtend 64 fT.off))).2) (by decide +kernel)) ?_).2 ?_ ?_).imp fun _ e => e.1,
    ((h ((pkgBS 0x5200000000000000 [eI])) (gS [eI]) (spS [eI]) fB0 ?_).2.2.2.2.2 ?_).imp fun _ e => e.1,
    ((h (pkgN w52 []) (gS []) (spS []) fP ?_).2.2.2.1 w52 ?_ ?_ ?_ ?_ ?_ ?_ ?_).imp fun _ e => e.1⟩ <;>
  repeat' (first | decide +kernel | constructor)

def fN : FmtB := { fB0 with off := -2 }

def fV : FmtB := { fB0 with off := -2, pe := 1, p := 1 }

def w55 : W64 := 0x5500000000000000

def cL (l : List Entry) : State := pkgN w55 l

/-- `Clause.Loops` (rules R129 and R130) applies here. -/
theorem witness_loops (h : Clause.Loops) :
    (∃ t, exec (.loop fT) (pkgBS 6052837899185946624 [eL]) = .next t)
    ∧ (∃ t, exec (.loop fU) (pkgN w55 [eL]) = .next t)
    ∧ (∃ t, exec (.endloop ({ fN with p := 1, pe := 1 })) (pkgN w55 [eL]) = .next t)
    ∧ (∃ t, exec (.endloop fV) (pkgN w54 [eL]) = .next t)
    ∧ (∃ t, exec (.breakLoop fP) (cL [eI]) = .next t)
    ∧ (∃ t, exec (.continueLoop fP) (cL [eI]) = .next t) := by
  refine ⟨⟨_, ((h ((pkgBS 0x5400000000000000 [eL])) (gS [eL]) (spS [eL]) fT ?_).1 (Option.get (((pkgBS 6052837899185946624 [eL]).fetchAt (pkgBS 6052837899185946624 [eL]).cur (gS [eL]).part (BitVec.toNat ((spS [eL]).pc + 8 * BitVec.signExtend 64 fT.off))).2) (by decide +kernel)) ?_).1 ?_ ?_⟩,
    (((h ((pkgN w55 [eL])) (gS [eL]) (spS [eL]) fU ?_).1 (Option.get (((pkgN w55 [eL]).fetchAt (pkgN w55 [eL]).cur (gS [eL]).part (BitVec.toNat ((spS [eL]).pc + 8 * BitVec.signExtend 64 fU.off))).2) (by decide +kernel)) ?_).2 ?_ ?_).imp fun _ e => e.1,
    ⟨_, ((h ((pkgN w55 [eL])) (gS [eL]) (spS [eL]) ({ fN with pe := 1, p := 1 }) ?_).2.1 (Option.get (((pkgN w55 [eL]).fetchAt (pkgN w55 [eL]).cur (gS [eL]).part (BitVec.toNat ((spS [eL]).pc + 8 * BitVec.signExtend 64 ({ fN with p := 1, pe := 1 }).off))).2) (by decide +kernel)) ?_).1 ?_ ?_⟩,
    (((h (pkgN w54 [eL]) (gS [eL]) (spS [eL]) fV ?_).2.1 (Option.get (((pkgN w54 [eL]).fetchAt (pkgN w54 [eL]).cur (gS [eL]).part (BitVec.toNat ((spS [eL]).pc + 8 * BitVec.signExtend 64 fV.off))).2) (by decide +kernel)) ?_).2 ?_ ?_).imp fun _ e => e.1,
    ⟨_, (((h (cL [eI]) (gS [eI]) (spS [eI]) fP ?_).2.2.2 (by rintro (_ | ⟨a, _ | ⟨b, c⟩⟩) e rest h hk <;> simp [spS, eI] at h ⊢; rw [← h.1]; decide)).1 (Option.get (((cL [eI]).fetchAt (cL [eI]).cur (gS [eI]).part (BitVec.toNat ((spS [eI]).pc + 8 * BitVec.signExtend 64 fP.off))).2) (by decide +kernel)) ?_).2 ?_ ?_⟩,
    ⟨_, (((h (cL [eI]) (gS [eI]) (spS [eI]) fP ?_).2.2.2 (by rintro (_ | ⟨a, _ | ⟨b, c⟩⟩) e rest h hk <;> simp [spS, eI] at h ⊢; rw [← h.1]; decide)).2 (Option.get (((cL [eI]).fetchAt (cL [eI]).cur (gS [eI]).part (BitVec.toNat ((spS [eI]).pc + 8 * BitVec.signExtend 64 fP.off))).2) (by decide +kernel)) ?_).2 ?_ ?_⟩⟩ <;>
  repeat' (first | decide +kernel | constructor)

def eC : Entry := ⟨.callE, 0xFFFF, 0x0, 0x10010, false, none⟩

def fQ : FmtB := { fB0 with pe := 1, p := 1 }

/-- `Clause.Calls` (rule R131) applies here. -/
theorem witness_calls (h : Clause.Calls) :
    (∃ t, exec (.call fP) (pkgN w54 [eI, eC]) = .next t)
    ∧ (∃ t, exec (.ret fQ) (pkgN w54 [eI]) = .next t) := by
  refine ⟨((h (pkgN w54 [eI, eC]) (gS [eI, eC]) (spS [eI, eC]) fP ?_).1 (Option.get (((pkgN w54 [eI, eC]).fetchAt (pkgN w54 [eI, eC]).cur (gS [eI, eC]).part (BitVec.toNat ((spS [eI, eC]).pc + 8 * BitVec.signExtend 64 fP.off))).2) (by decide +kernel)) ?_ ?_ ?_).imp fun _ e => e.1,
    ⟨_, (h (pkgN w54 [eI]) (gS [eI]) (spS [eI]) fQ ?_).2.2 ?_ ?_⟩⟩ <;>
  repeat' (first | decide +kernel | constructor)

def fS (d a sel sd sa sop : Nat) : FmtS := ⟨.ofNat _ d, .ofNat _ a, .ofNat _ sel, 0, 0, 0, 0, 0, 0, .ofNat _ sd, .ofNat _ sa, .ofNat _ sop⟩

/-- `Clause.SystemReads` (rules R137, R140, R141, R143 and R257) applies here. -/
theorem witness_systemReads (h : Clause.SystemReads) :
    (∃ t, exec (.nop (fS 0 0 0 0 0 0)) pkg = .next t)
    ∧ (∃ t, exec (.safept (fS 0 0 0 0 0 0)) pkg = .next t)
    ∧ (∃ t, exec (.sread (fS 0 0 0 0 0 0)) pkg = .next t)
    ∧ (∃ t, exec (.clk (fS 0 0 0 0 0 0)) pkg = .next t) := by
  refine ⟨((h pkg grp sp (fS 0 0 0 0 0 0) ?_).1 ?_ ?_ ?_).imp fun _ e => e.1,
    ((h pkg grp sp (fS 0 0 0 0 0 0) ?_).2.1 ?_ ?_ ?_ ?_).imp fun _ e => e.1,
    ((h pkg grp sp (fS 0 0 0 0 0 0) ?_).2.2.1 ?_ ?_ ?_).imp fun _ e => e.1,
    ((h pkg grp sp (fS 0 0 0 0 0 0) ?_).2.2.2 ?_ ?_ ?_ ?_).imp fun _ e => e.1⟩ <;>
  repeat' (first | decide +kernel | constructor)

/-- `Clause.SystemRegisters` (rules R34 to R37 and R58) applies here. -/
theorem witness_systemRegisters (h : Clause.SystemRegisters) :
    (pkg.sysReg pkg.cur grp 0 5).toNat = 5 ∧ (pkg.sysReg pkg.cur grp 1 5).toNat = grp.idx ∧ fld (pkg.sysReg pkg.cur grp 3 5) 0 6 = pkg.cur.slot
    ∧ fld (pkg.sysReg pkg.cur grp 5 5) 0 16 = grp.held ∧ pkg.sysReg pkg.cur grp 0x45 5 = (grp.treg 1).w1 := by
  obtain ⟨a, b, _, c, d, _, _, _, _, _, _, e⟩ := h pkg pkg.cur grp 5 (by decide +kernel)
  exact ⟨a (by decide), b (by decide +kernel), (c (by decide +kernel) (by decide +kernel) (by decide +kernel)).1,
    (d (by decide +kernel) (by decide +kernel) (by decide +kernel) (by decide +kernel)).1, e 1 1 (by decide) (by decide)⟩

/-- `Clause.IntegerReductions` applies here. -/
theorem witness_integerReductions (h : Clause.IntegerReductions) :
    (∃ t, exec (.red ({ fR 1 1 1 0 0 0 0 0 6 0 with la := 1, g := 2, ge := 1 })) pkg = .next t)
    ∧ (∃ t, exec (.red (fR 20 1 0 0 0 0 0 0 6 0)) pkg = .next t)
    ∧ (∃ t, exec (.scan (fR 20 1 0 0 0 0 0 0 6 0)) pkg = .next t)
    ∧ (∃ t, exec (.topk (gd (fR 20 1 3 0 2 0 1 0 6 0))) pkg = .next t) := by
  refine ⟨((h pkg grp sp ({ fR 1 1 1 0 0 0 0 0 6 0 with la := 1, ge := 1, g := 2 }) ?_).1 ?_ ?_ ?_ ?_).imp fun _ e => e.1,
    ((h pkg grp sp (fR 20 1 0 0 0 0 0 0 6 0) ?_).2.1 ?_ ?_ ?_ ?_ ?_ ?_).imp fun _ e => e.1,
    have ⟨x0, h0⟩ := (h pkg grp sp (fR 20 1 0 0 0 0 0 0 6 0) calm_pkg).2.2.1 (by decide +kernel); (h0.1 ?_ ?_ ?_).imp fun _ e => e.1,
    ((h pkg grp sp (gd (fR 20 1 3 0 2 0 1 0 6 0)) ?_).2.2.2 ?_ ?_ ?_ ?_ ?_).imp fun _ e => e.1⟩ <;>
  repeat' (first | decide +kernel | constructor)

/-- `Clause.FloatReductions` applies here. -/
theorem witness_floatReductions (h : Clause.FloatReductions) :
    (∃ t, exec (.red (fR 20 1 8 0 0 0 0 0 2 0)) pkg = .next t)
    ∧ (∃ t, exec (.scan (fR 20 1 8 0 0 0 0 0 2 0)) pkg = .next t)
    ∧ (∃ t, exec (.topk (gd (fR 20 1 3 0 2 0 1 0 2 2))) pkg = .next t) := by
  refine ⟨((h pkg grp sp (fR 20 1 8 0 0 0 0 0 2 0) ?_).1 ?_ ?_ ?_ ?_ ?_ ?_).imp fun _ e => e.1,
    have ⟨x0, h0⟩ := (h pkg grp sp (fR 20 1 8 0 0 0 0 0 2 0) calm_pkg).2.1 (by decide +kernel); (h0.1 ?_ ?_ ?_).imp fun _ e => e.1,
    ((h pkg grp sp (gd (fR 20 1 3 0 2 0 1 0 2 2)) ?_).2.2 ?_ ?_ ?_ ?_ ?_).imp fun _ e => e.1⟩ <;>
  repeat' (first | decide +kernel | constructor)

/-- `Clause.FloatValues`, `Clause.FloatRounding` and `Clause.FloatFunctions` (rules R95 to R101, R116, R120 and R121) apply to 1 and to 1.5, and the codes of
`Clause.FloatCodes` to 1 in FP32. -/
theorem witness_floatValues (h : Clause.FloatValues) (r : Clause.FloatRounding) (g : Clause.FloatFunctions) (c : Clause.FloatCodes) :
    (fAdd .rn (.num false 1 0) (.num false 3 (-1))).finite = true
    ∧ Puts 2 .rn false ((FVal.num false 3 (-1)).rat : ℝ) (fput 2 .rn false false (.num false 3 (-1)))
    ∧ Puts 2 .rd true (1 / ((FVal.num false 3 (-1)).rat : ℝ)) (fput 2 .rd true false (fRcp (.num false 3 (-1))))
    ∧ (fop 2 false 0x3F800000).finite = true :=
  ⟨((h .rn (.num false 1 0) (.num false 3 (-1)) (.num true 5 0)).1 rfl rfl).1,
   ((r 2 .rn false (by decide) (by decide)).1 (.num false 3 (-1)) rfl (by norm_num [FVal.rat])).1,
   (g.1 2 .rd true (.num false 3 (-1)) (Or.inl rfl) rfl (by norm_num [FVal.rat])).1,
   ((c.1 2 32 23 127 (by simp) 0x3F800000).2.1 (by decide)).1⟩

/-- The group in slot 0 of core 0. -/
def gT0 (t : State) : Group := ((t.group 0 0).getD grp)

/-- A partition with a trap vector. -/
def vecPart : Part := { trapvec := 0x8000000000004000 }

/-- The package whose partition has a trap vector. -/
def pkgV : State := { pkg with parts := [(0, vecPart)] }

/-- A handler's saved frame. -/
def frm : Frame := { split := 0, pc := 0x8000, am := 0xFF, stack := [], ra := 0x8008 }

def pkgF : State := { pkgV with cores := pkgV.cores.map (fun (e : Nat × Core) => (e.1, {e.2 with slots := (List.range 9).map (fun i => (i, {grp with w := if i > 0 then 64 else 16, gid := i, frame := if i > 0 then some frm else none})) })) }

/-- `Clause.TakeException` (rules R32, R400, R401 and R405) applies here. -/
theorem witness_takeException (h : Clause.TakeException) :
    (∃ H, (pkgV.raise pkgV.cur 4 3 77).group 0 0 = some H ∧ H.trappc = sp.pc)
    ∧ (∃ H, (pkgF.raise pkgF.cur 4 3 77).group 0 0 = some H ∧ H.entry.isSome = true) := by
  have a := (h pkgV grp sp 4 3 77 ?_ ?_ ?_ ?_).1 ?_
  have b := (h pkgF (gT0 pkgF) sp 4 3 77 ?_ ?_ ?_ ?_).2 ?_
  · obtain ⟨_, _, _, _, _, _, e⟩ := a
    exact ⟨⟨_, e.group, rfl⟩, ⟨_, b.group, rfl⟩⟩
  all_goals repeat' (first | decide +kernel | constructor)

/-- `Clause.EndWithoutHandler` (rule R408) applies here. -/
theorem witness_endWithoutHandler (h : Clause.EndWithoutHandler) : ∃ H, (pkg.raise pkg.cur 4 3 77).group 0 0 = some H ∧ H.ending = true := by
  have a := (h pkg grp sp 4 3 77 ?_ ?_ ?_).1
  · exact ⟨_, a, rfl⟩
  all_goals repeat' (first | decide +kernel | constructor)

/-- Two splits at ENDIF: the one whose instruction it is, and its sibling. -/
def spM (n : Nat) (w : Wait) : Split :=
  { id := n, pc := 0x10000, am := BitVec.ofNat 64 (if n = 0 then 0xFF else 0xFF00), own := BitVec.ofNat 64 (if n = 0 then 0xFF else 0xFF00), wait := w
    stack := [{ kind := .ifE, outer := 0xFFFF, alt := 0, join := some 5 }] }

def pkgMr (w : Wait) : State := pkgG (fun g => { g with splits := [spM 0 .ready, spM 1 w] })

/-- `Clause.Merge` (rule R155) applies here. -/
theorem witness_merge (h : Clause.Merge) :
    (∃ t, exec (.endif ⟨0, 0, 0, 0, 0, 0, 0⟩) (pkgMr .ready) = .next t) ∧ (∃ t, exec (.endif ⟨0, 0, 0, 0, 0, 0, 0⟩) (pkgMr .merge) = .next t) := by
  have r (w : Wait) (g : Group) (b : Split) := h (pkgMr w) g (spM 0 .ready) b ⟨0, 0, 0, 0, 0, 0, 0⟩ ((spM 0 .ready).stack.head (by decide)) ((spM 1 .ready).stack.head (by decide)) [] [] 5 false
  refine ⟨((r .ready { grp with splits := [spM 0 .ready, spM 1 .ready] } (spM 1 .ready) ?_ ?_ ?_ ?_ ?_ ?_ ?_ ?_ ?_ ?_ ?_ ?_ ?_ ?_ ?_ ?_ ?_ ?_).1 ?_).imp fun _ e => e.1,
    ((r .merge { grp with splits := [spM 0 .ready, spM 1 .merge] } (spM 1 .merge) ?_ ?_ ?_ ?_ ?_ ?_ ?_ ?_ ?_ ?_ ?_ ?_ ?_ ?_ ?_ ?_ ?_ ?_).2 ?_ ?_ ?_).imp fun _ ⟨_, e⟩ => e.1⟩ <;>
  repeat' (first | decide +kernel | constructor)

/-- The package with a trap vector and two splits. -/
def pkgOh : State := { pkgMr .ready with parts := [(0, { trapvec := BitVec.ofNat 64 (2 ^ 63 + 0x4000) })] }

/-- `Clause.OthersHeld` (rules R167, R401, R402 and R405) applies here. -/
theorem witness_othersHeld (h : Clause.OthersHeld) : ∃ H, Moved pkgOh (pkgOh.raise pkgOh.cur 1 0 0) H := by
  refine (h pkgOh { grp with splits := [spM 0 .ready, spM 1 .ready] } (spM 0 .ready) [] [spM 1 .ready] 1 0 0 ?_ ?_ ?_ ?_ ?_ ?_ ?_ ?_ ?_ ?_).imp fun _ e => e.1 <;>
  repeat' (first | decide +kernel | constructor)

/-- The test group in its handler. -/
def grpH : Group := { grp with frame := some frm, regs := { grp.regs with h := [(0,[1])] } }

/-- The package with the group in its handler. -/
def pkgH : State := pkg.setGroup 0 0 grpH

/-- `Obligations.ReturnFromException` (rule R407) applies here. -/
theorem witness_returnFromException (h : Obligations.ReturnFromException) : (∃ t, exec (.rth (fS 0 0 0 0 0 0)) pkgH = .next t) := by
  refine (h pkgH grpH sp (fS 0 0 0 0 0 0) frm ?_ ?_ ?_ ?_).imp fun _ e => e.1 <;>
  repeat' (first | decide +kernel | constructor)

/-- `Obligations.SoftwareTraps` (rule R139) applies here. -/
theorem witness_softwareTraps (h : Obligations.SoftwareTraps) :
    (∃ t, exec (.trap (fS 0 0 5 0 0 0)) pkg = .next t)
    ∧ (∃ t, exec (.bkpt ({ fS 0 0 5 0 0 0 with g := 2, ge := 1 })) pkg = .next t) := by
  refine ⟨⟨_, (h (Instr.trap) (11) ((by simp)) pkg grp sp (fS 0 0 5 0 0 0) ?_ ?_ ?_).1 ?_⟩,
    ((h (Instr.bkpt) (12) ((by simp)) pkg grp sp ({ fS 0 0 5 0 0 0 with ge := 1, g := 2 }) ?_ ?_ ?_).2 ?_).imp fun _ e => e.1⟩ <;>
  repeat' (first | decide +kernel | constructor)

def badAdd : Instr := .add (fR 20 1 2 0 3 0 0 0 6 0)

def badWhy : Illegal := (badAdd.check (pkg.env grp)).getD ⟨0, 0, 0⟩

/-- `Clause.IllegalFirst` (rules R60 and R61) applies here. -/
theorem witness_illegalFirst (h : Clause.IllegalFirst) : (∃ t, exec badAdd pkg = .next t) := by
  refine ⟨_, h pkg grp sp badAdd badWhy ?_ ?_ ?_⟩ <;>
  repeat' (first | decide +kernel | constructor)

def spZ : Split := { sp with am := 0 }

def grpZ : Group := { grp with splits := [spZ] }

def pkgZ : State := pkg.setGroup 0 0 grpZ

def nop0 : Instr := .nop (fS 0 0 0 0 0 0)

/-- `Clause.NoIssueWithoutLanes` (rule R127) applies here. -/
theorem witness_noIssueWithoutLanes (h : Clause.NoIssueWithoutLanes) : (∃ t, exec nop0 pkgZ = .next t) := by
  refine ⟨_, h pkgZ grpZ spZ nop0 ?_ ?_ ?_ ?_ ?_ ?_ ?_⟩ <;>
  repeat' (first | decide +kernel | constructor)

/-- `Clause.Exit` (rules R138 and R156) applies here. -/
theorem witness_exit (h : Clause.Exit) : (∃ t, exec (.exit (fS 0 0 0 0 0 0)) pkg = .next t) := by
  refine (h pkg grp sp (fS 0 0 0 0 0 0) ?_ ?_ ?_ ?_).imp fun _ ⟨_, e⟩ => e.1 <;>
  repeat' (first | decide +kernel | constructor)

def gPre : Group := { grp with preempt := some 0 }

def pkgPre : State := pkg.setGroup 0 0 gPre

/-- `Clause.SafePoint` (rules R140 and R416) applies here. -/
theorem witness_safePoint (h : Clause.SafePoint) : (∃ t, exec (.safept (fS 0 0 0 0 0 0)) pkgPre = .next t) := by
  refine (h pkgPre gPre sp (fS 0 0 0 0 0 0) lch ?_ ?_ ?_ ?_ ?_ ?_ ?_).imp fun _ e => e.1 <;>
  repeat' (first | decide +kernel | constructor)

/-- `Clause.SystemWrites` (rules R33, R37, R142, R197 and R223) applies here. -/
theorem witness_systemWrites (h : Clause.SystemWrites) :
    (∃ t, exec (.swrite (fS 0 3 7 0 1 0)) pkg = .next t)
    ∧ (∃ t, exec (.swrite (fS 0 3 8 0 1 0)) pkg = .next t)
    ∧ (∃ t, exec (.swrite (fS 0 5 11 0 1 0)) pkg = .next t)
    ∧ (∃ t, exec (.swrite (fS 0 5 12 0 1 0)) pkg = .next t)
    ∧ (∃ t, exec (.swrite (fS 0 5 2 0 1 0)) pkg = .next t) := by
  refine ⟨((h pkg grp sp (fS 0 3 7 0 1 0) ?_ ?_ ?_).1 ?_ ?_).imp fun _ ⟨_, e⟩ => e.1,
    ((h pkg grp sp (fS 0 3 8 0 1 0) ?_ ?_ ?_).2.1 ?_ ?_).imp fun _ e => e.1,
    ((h pkg grp sp (fS 0 5 11 0 1 0) ?_ ?_ ?_).2.2.1 ?_ ?_ ?_ (Option.get ((pkg.teams.find grp.tid)) (by decide +kernel)) ?_).imp fun _ e => e.1,
    ((h pkg grp sp (fS 0 5 12 0 1 0) ?_ ?_ ?_).2.2.2.1 ?_ ?_ ?_ (Option.get ((pkg.teams.find grp.tid)) (by decide +kernel)) ?_ ?_).imp fun _ e => e.1,
    ((h pkg grp sp (fS 0 5 2 0 1 0) ?_ ?_ ?_).2.2.2.2 ?_).imp fun _ e => e.1⟩ <;>
  repeat' (first | decide +kernel | constructor)

/-- The team of the package. -/
def team0 : Team := (pkg.teams.find 0).getD { tid := 1, lid := 0, index := 0, part := 0, core := 0, pair := false, groups := 1, w := 16, prio := 0, gang := false }

def obj (w0 w1 : Nat) : Team := team0.put 0x100 (bytesOf w0 8 ++ bytesOf w1 8)

def pkgO (w0 w1 : Nat) : State := { pkg with teams := [(0, obj w0 w1)] }

def av : Nat := 2^63 + 7*2^48 + 3*2^32 + 2*2^16 + 1

def av0 : Nat := 2^63 + 7*2^48 + 3*2^32 + 2*2^16 + 0

def bi (a : Nat) : FmtR := fR 0 a 2 0 0 1 1 0 0 0

def gBig : Group := { grp with regs := { grp.regs with k := grp.regs.k ++ [(9, 0x80000), (10, 0xFFF8), (11, 0x10000), (12, 0x70003), (13, 0x70002), (14, 0x60003), (15, 0x101)] } }

def pO (w0 w1 : Nat) : State := (pkgO w0 w1).setGroup 0 0 gBig

def pk (w : Bool) : Packet := ⟨4,2,w,0,0,[(0x1,2)],if w then [(0x101,3)] else [],[⟨0,3,1,0⟩],false,false,false,[],[],false,[],none,false⟩

def pO2 (w0 w1 : Nat) : State := { pO w0 w1 with cores := [(0, { slots := [(0, gBig), (1, { gBig with gid := 5, idx := 1, splits := [{ sp with wait := .barrier 0x100 }] })], tlb := [page], packets := [pk false, pk true] })] }

def pO3 (w0 w1 : Nat) : State := { pO w0 w1 with cores := [(0, { slots := [(0, gBig), (1, { gBig with gid := 5, idx := 1, splits := [{ sp with wait := .barrier 0x100 }] })], tlb := [page] })] }

/-- `Obligations.BarrierObjects` (rules R179 to R183) applies here. -/
theorem witness_barrierObjects (h : Obligations.BarrierObjects) :
    (∃ t, exec (.barinit (bi 4)) (pkgO 0 0) = .next t)
    ∧ (∃ t, exec (.barinit (fR 0 4 9 0 0 1 1 0 0 0)) (pO2 av0 0) = .next t)
    ∧ (∃ t, exec (.barinv (fR 0 4 0 0 0 1 0 0 0 0)) (pO2 av0 0) = .next t)
    ∧ (∃ t, exec (.bararv (fR 15 4 0 0 1 1 0 0 0 0)) (pO3 av 0) = .next t)
    ∧ (∃ t, exec (.bararv (fR 20 4 0 0 1 1 0 0 0 0)) (pO3 5 0) = .next t)
    ∧ (∃ t, exec (.barwait (fR 2 4 14 0 2 1 1 0 0 0)) (pO2 5 0) = .next t)
    ∧ (∃ t, exec (.barwait (fR 2 4 13 0 2 1 1 0 0 0)) (pO2 av0 0) = .next t)
    ∧ (∃ t, exec (.barwait (fR 2 4 12 0 2 1 1 0 0 0)) (pO2 av0 0) = .next t)
    ∧ (∃ t, exec (.barinit (fR 0 15 2 0 0 1 1 0 0 0)) (pO av0 0) = .next t)
    ∧ (∃ t, exec (.barinit (fR 0 9 2 0 0 1 1 0 0 0)) (pO av0 0) = .next t)
    ∧ (∃ t, exec (.barinit (fR 0 11 2 0 0 1 1 0 0 0)) (pO av0 0) = .next t)
    ∧ (∃ t, exec (.barinv (fR 0 15 0 0 0 1 0 0 0 0)) (pO av0 0) = .next t)
    ∧ (∃ t, exec (.barinv (fR 0 9 0 0 0 1 0 0 0 0)) (pO av0 0) = .next t)
    ∧ (∃ t, exec (.barinv (fR 0 11 0 0 0 1 0 0 0 0)) (pO av0 0) = .next t)
    ∧ (∃ t, exec (.bararv (fR 20 15 0 0 1 1 0 0 0 0)) (pO av0 0) = .next t)
    ∧ (∃ t, exec (.bararv (fR 21 9 0 0 1 1 0 0 0 0)) (pO av0 0) = .next t)
    ∧ (∃ t, exec (.bararv (fR 21 11 0 0 1 1 0 0 0 0)) (pO av0 0) = .next t)
    ∧ (∃ t, exec (.barwait (fR 2 15 12 0 2 1 1 0 0 0)) (pO av0 0) = .next t)
    ∧ (∃ t, exec (.barwait (fR 2 9 12 0 2 1 1 0 0 0)) (pO av0 0) = .next t)
    ∧ (∃ t, exec (.barwait (fR 2 11 12 0 2 1 1 0 0 0)) (pO av0 0) = .next t) := by
  refine ⟨(((h (pkgO 0 0) grp sp (bi 4) ?_ ?_ ?_ ?_).1 (Option.get (((pkgO 0 0).teams.find grp.tid)) (by decide +kernel)) ?_).1 ?_ ?_ ?_).imp fun _ ⟨_, e⟩ => e.1,
    ⟨_, ((h (pO2 av0 0) gBig sp (fR 0 4 9 0 0 1 1 0 0 0) ?_ ?_ ?_ ?_).1 (Option.get (((pO2 av0 0).teams.find gBig.tid)) (by decide +kernel)) ?_).2.1 ?_ ?_⟩,
    (((h (pO2 av0 0) gBig sp (fR 0 4 0 0 0 1 0 0 0 0) ?_ ?_ ?_ ?_).1 (Option.get (((pO2 av0 0).teams.find gBig.tid)) (by decide +kernel)) ?_).2.2.1 ?_).imp fun _ ⟨_, e⟩ => e.1,
    (((h (pO3 av 0) gBig sp (fR 15 4 0 0 1 1 0 0 0 0) ?_ ?_ ?_ ?_).1 (Option.get (((pO3 av 0).teams.find gBig.tid)) (by decide +kernel)) ?_).2.2.2.1 ?_ ?_ ?_ ?_).imp fun _ ⟨_, _, e⟩ => e.1,
    ⟨_, ((h (pO3 5 0) gBig sp (fR 20 4 0 0 1 1 0 0 0 0) ?_ ?_ ?_ ?_).1 (Option.get (((pO3 5 0).teams.find gBig.tid)) (by decide +kernel)) ?_).2.2.2.2.1 ?_ ?_⟩,
    ((((h (pO2 5 0) gBig sp (fR 2 4 14 0 2 1 1 0 0 0) ?_ ?_ ?_ ?_).1 (Option.get (((pO2 5 0).teams.find gBig.tid)) (by decide +kernel)) ?_).2.2.2.2.2 ?_).1 ?_).imp fun _ e => e.1,
    ((((h (pO2 av0 0) gBig sp (fR 2 4 13 0 2 1 1 0 0 0) ?_ ?_ ?_ ?_).1 (Option.get (((pO2 av0 0).teams.find gBig.tid)) (by decide +kernel)) ?_).2.2.2.2.2 ?_).2.1 ?_ ?_ ?_).imp fun _ e => e.1,
    ((((h (pO2 av0 0) gBig sp (fR 2 4 12 0 2 1 1 0 0 0) ?_ ?_ ?_ ?_).1 (Option.get (((pO2 av0 0).teams.find gBig.tid)) (by decide +kernel)) ?_).2.2.2.2.2 ?_).2.2 ?_ ?_ ?_).imp fun _ e => e.1,
    ⟨_, ((h (pO av0 0) gBig sp (fR 0 15 2 0 0 1 1 0 0 0) ?_ ?_ ?_ ?_).2 _ (.head _) ?_).1 ?_⟩,
    ⟨_, ((h (pO av0 0) gBig sp (fR 0 9 2 0 0 1 1 0 0 0) ?_ ?_ ?_ ?_).2 _ (.head _) ?_).2.1 ?_ ?_⟩,
    ⟨_, ((h (pO av0 0) gBig sp (fR 0 11 2 0 0 1 1 0 0 0) ?_ ?_ ?_ ?_).2 _ (.head _) ?_).2.2 (Option.get (((pO av0 0).teams.find gBig.tid)) (by decide +kernel)) ?_ ?_ ?_ ?_⟩,
    ⟨_, ((h (pO av0 0) gBig sp (fR 0 15 0 0 0 1 0 0 0 0) ?_ ?_ ?_ ?_).2 _ (.tail _ (.head _)) ?_).1 ?_⟩,
    ⟨_, ((h (pO av0 0) gBig sp (fR 0 9 0 0 0 1 0 0 0 0) ?_ ?_ ?_ ?_).2 _ (.tail _ (.head _)) ?_).2.1 ?_ ?_⟩,
    ⟨_, ((h (pO av0 0) gBig sp (fR 0 11 0 0 0 1 0 0 0 0) ?_ ?_ ?_ ?_).2 _ (.tail _ (.head _)) ?_).2.2 (Option.get (((pO av0 0).teams.find gBig.tid)) (by decide +kernel)) ?_ ?_ ?_ ?_⟩,
    ⟨_, ((h (pO av0 0) gBig sp (fR 20 15 0 0 1 1 0 0 0 0) ?_ ?_ ?_ ?_).2 _ (.tail _ (.tail _ (.head _))) ?_).1 ?_⟩,
    ⟨_, ((h (pO av0 0) gBig sp (fR 21 9 0 0 1 1 0 0 0 0) ?_ ?_ ?_ ?_).2 _ (.tail _ (.tail _ (.head _))) ?_).2.1 ?_ ?_⟩,
    ⟨_, ((h (pO av0 0) gBig sp (fR 21 11 0 0 1 1 0 0 0 0) ?_ ?_ ?_ ?_).2 _ (.tail _ (.tail _ (.head _))) ?_).2.2 (Option.get (((pO av0 0).teams.find gBig.tid)) (by decide +kernel)) ?_ ?_ ?_ ?_⟩,
    ⟨_, ((h (pO av0 0) gBig sp (fR 2 15 12 0 2 1 1 0 0 0) ?_ ?_ ?_ ?_).2 _ (.tail _ (.tail _ (.tail _ (.head _)))) ?_).1 ?_⟩,
    ⟨_, ((h (pO av0 0) gBig sp (fR 2 9 12 0 2 1 1 0 0 0) ?_ ?_ ?_ ?_).2 _ (.tail _ (.tail _ (.tail _ (.head _)))) ?_).2.1 ?_ ?_⟩,
    ⟨_, ((h (pO av0 0) gBig sp (fR 2 11 12 0 2 1 1 0 0 0) ?_ ?_ ?_ ?_).2 _ (.tail _ (.tail _ (.tail _ (.head _)))) ?_).2.2 (Option.get (((pO av0 0).teams.find gBig.tid)) (by decide +kernel)) ?_ ?_ ?_ ?_⟩⟩ <;>
  repeat' (first | decide +kernel | constructor)

/-- `Clause.ArmRegister` (rules R188 and R190) applies here. -/
theorem witness_armRegister (h : Clause.ArmRegister) :
    (∃ t, exec (.arm ({ fR 9 8 2 0 1 0 0 0 2 0 with g := 2, ge := 1 })) pkg = .next t)
    ∧ (∃ t, exec (.arm (fR 9 8 2 0 1 0 0 0 2 4)) pkg = .next t) := by
  refine ⟨((h pkg grp sp ({ fR 9 8 2 0 1 0 0 0 2 0 with ge := 1, g := 2 }) ?_ ?_ ?_).1 ?_).imp fun _ e => e.1,
    ((h pkg grp sp (fR 9 8 2 0 1 0 0 0 2 4) ?_ ?_ ?_).2 ?_ ?_ ?_ ?_ ?_ ?_).imp fun _ ⟨_, _, e⟩ => e.1⟩ <;>
  repeat' (first | decide +kernel | constructor)

/-- `Clause.CapabilityReads` (rules R191 and R199) applies here. -/
theorem witness_capabilityReads (h : Clause.CapabilityReads) :
    (∃ t, exec (.cap (fR 9 8 0 0 1 0 0 0 0 0)) pkg = .next t)
    ∧ (∃ t, exec (.place (fR 9 3 0 0 1 1 0 0 0 0)) pkg = .next t)
    ∧ (∃ t, exec (.scope (fR 9 3 0 0 1 1 0 0 0 0)) pkg = .next t) := by
  refine ⟨((h pkg grp sp (fR 9 8 0 0 1 0 0 0 0 0) ?_).1 ?_ ?_ ?_).imp fun _ e => e.1,
    ((h pkg grp sp (fR 9 3 0 0 1 1 0 0 0 0) ?_).2.1 ?_ ?_ ?_).imp fun _ e => e.1,
    ((h pkg grp sp (fR 9 3 0 0 1 1 0 0 0 0) ?_).2.2 ?_ ?_ ?_).imp fun _ e => e.1⟩ <;>
  repeat' (first | decide +kernel | constructor)

def tokOf (t : State) : W64 := (((gT0 t).infl.head?.map (fun i => i.writes)).getD []).head?.elim 0 (fun w => w.word)

def pkgArm : State := match exec (.arm (fR 9 8 2 0 1 0 0 0 2 4)) pkg with | .next t => t | _ => pkg

def armCap : W64 := tokOf pkgArm

def gDA (st : RegSt) (pair : Bool) : Group := { grp with arms := [(8, ⟨armCap, 1, pair, true⟩)], regs := { grp.regs with v := (grp.regs.v.set 8 { st := st, val := [7] }).set 9 { st := st, val := [6] } } }

def pDA (st : RegSt) (pair : Bool) : State := pkg.setGroup 0 0 (gDA st pair)

/-- `Clause.DisarmRegister` (rules R20, R188 and R191) applies here. -/
theorem witness_disarmRegister (h : Clause.DisarmRegister) :
    (∃ t, exec (.disarm (fR 0 8 0 0 0 0 0 0 2 0)) (pDA RegSt.pending false) = .next t)
    ∧ (∃ t, exec (.disarm (fR 0 8 0 0 0 0 0 0 2 0)) pkg = .next t) := by
  refine ⟨((h (pDA .pending false) (gDA .pending false) sp (fR 0 8 0 0 0 0 0 0 2 0) ?_ ?_ ?_).1 (8) ((Option.get (((gDA RegSt.pending false).armOf (fR 0 8 0 0 0 0 0 0 2 0).a.toNat)) (by decide +kernel)).2) ?_ ?_ ?_).imp fun _ ⟨_, e⟩ => e.1,
    ((h pkg grp sp (fR 0 8 0 0 0 0 0 0 2 0) ?_ ?_ ?_).2 ?_).imp fun _ e => e.1⟩ <;>
  repeat' (first | rfl | decide +kernel | constructor)

def sendF : FmtR := fR 0 4 9 0 0 1 0 0 2 0

def gOff : FmtR → FmtR := fun f => { f with ge := 1, g := 2 }

def pkgP3 : State := { pkg with uroute := [(3, 8)], ports := [(3, { state := 2, width := 4 })] }

/-- The test group with a capability of package 3 in register 9. -/
def gFarCap : Group := { grp with regs := { grp.regs with k := (4, BitVec.ofNat 64 (3 * 2 ^ 54)) :: grp.regs.k.filter (fun e => e.1 != 4) } }

/-- `Clause.SendDelivery` (rules R192, R194, R437, R440 and R441) applies here. -/
theorem witness_sendDelivery (h : Clause.SendDelivery) :
    (∃ t, exec (.send (gOff sendF)) pkg = .next t)
    ∧ (∃ t, exec (.send sendF) pkg = .next t) := by
  refine ⟨((h pkg grp sp (gOff sendF) ?_ ?_ ?_ ?_).1 ?_).imp fun _ ⟨_, e⟩ => e.1,
    ((h pkg grp sp sendF ?_ ?_ ?_ ?_).2 ?_).imp fun _ ⟨_, e⟩ => e.1⟩ <;>
  repeat' (first | decide +kernel | constructor)

/-- `Clause.SendDelivery` applies to a package that no usable port reaches, and to one that port 3 reaches. -/
theorem witness_sendDeliveryFar (h : Clause.SendDelivery) :
    (∃ d : Delivery, d.outcome = some 1) ∧ (∃ d : Delivery, ∃ x : Xact, d.xid = some x.xid ∧ x.port = 3) := by
  have e := (h (pkg.setGroup 0 0 gFarCap) gFarCap sp sendF ?_ ?_ ?_ ?_).2 ?_
  have f := (h (pkgP3.setGroup 0 0 gFarCap) gFarCap sp sendF ?_ ?_ ?_ ?_).2 ?_
  · obtain ⟨_, d, _, _, _, _, _, _, _, _, _, _, _, _, _, _, _, _, _, e, _⟩ := e
    obtain ⟨_, d', _, _, _, _, _, _, _, _, _, _, _, _, _, _, _, _, _, _, f⟩ := f
    obtain ⟨x, -, -, f1, -, -, -, -, f2⟩ := f (by decide +kernel) (by decide +kernel)
    exact ⟨⟨d, (e (by decide +kernel) (by decide +kernel)).1⟩, ⟨d', x, f1, (f2 (by decide +kernel)).trans (by decide +kernel)⟩⟩
  all_goals repeat' (first | decide +kernel | constructor)

/-- A capability for register 8 of the test group, of generation 0: its bits [63:14], and its seal, to which `off` is added. -/
def capBody (mode rights : Nat) : BitVec 50 := .ofNat 50 (8 * 2 ^ 7 + mode * 4 + rights)

def capOf (mode rights : Nat) (off : BitVec 14) : W64 := capBody mode rights ++ (Config.capSeal 5 (capBody mode rights) + off)

/-- A delivery that carries the capability. -/
def capArrives (mode rights : Nat) (off : BitVec 14) (pair : Bool) : Delivery :=
  ⟨77, 0, 0, 1, 0, 0, capOf mode rights off, 0xFF0F, (List.range 16).map (fun i => BitVec.ofNat 32 (100 + i)), [], pair, false, 0, none, none⟩

/-- The package with the delivery on its way and the groups `slots` on core 0. -/
def capState (slots : Tab Group) (d : Delivery) : State := { pkg with deliveries := [d], cores := [(0, { pkg.core 0 with slots := slots })] }

/-- Its bits [13:0]. -/
theorem capOf_seal (mode rights : Nat) (off : BitVec 14) : fld (capOf mode rights off) 0 14 = (Config.capSeal 5 (capBody mode rights) + off).toNat := by
  have := congrArg BitVec.toNat (BitVec.extractLsb'_append_eq_right (a := capBody mode rights) (b := Config.capSeal 5 (capBody mode rights) + off))
  simpa only [fld, capOf, BitVec.extractLsb'_toNat] using this

/-- The seal of its body. -/
theorem capOf_sealOf (mode rights : Nat) (off : BitVec 14) : sealOf 5 (capOf mode rights off) = (Config.capSeal 5 (capBody mode rights)).toNat := by
  simp only [sealOf, capOf, BitVec.extractLsb'_append_eq_left]

/-- With nothing added, its seal is right. -/
theorem capOf_sealed (mode rights : Nat) : fld (capOf mode rights 0) 0 14 = sealOf 5 (capOf mode rights 0) := by
  rw [capOf_seal, capOf_sealOf]; exact congrArg BitVec.toNat (BitVec.add_zero _)

/-- With one added, its seal is wrong. -/
theorem capOf_wrong (mode rights : Nat) : fld (capOf mode rights 1) 0 14 ≠ sealOf 5 (capOf mode rights 1) := by
  rw [capOf_seal, capOf_sealOf]; intro h; have := BitVec.eq_of_toNat_eq h
  exact absurd (BitVec.self_eq_add_right.mp this.symm) (by decide)

/-- The fields of the capability above its seal are those of its body. -/
theorem capOf_fld (mode rights : Nat) (off : BitVec 14) (lo n : Nat) (h : 14 ≤ lo) :
    fld (capOf mode rights off) lo n = (capBody mode rights).toNat >>> (lo - 14) % 2 ^ n := by
  have := congrArg BitVec.toNat (BitVec.extractLsb'_append_eq_of_le (xhi := capBody mode rights) (xlo := Config.capSeal 5 (capBody mode rights) + off) (start := lo) (len := n) h)
  simpa [fld, capOf, BitVec.extractLsb'_toNat] using this

/-- Where it leads, and its rights. -/
theorem capPlace_any (mode rights : Nat) (off : BitVec 14) (h : mode ∈ [8, 24]) (h2 : rights ∈ [0, 1]) : capPlace (capOf mode rights off) = 0 ∧ capRights (capOf mode rights off) = rights ∧ fld (capOf mode rights off) 54 10 = 0 := by
  simp only [capPlace, capRights]
  rw [capOf_fld _ _ _ _ _ (by decide), capOf_fld _ _ _ _ _ (by decide), capOf_fld _ _ _ _ _ (by decide)]
  simp only [List.mem_cons, List.not_mem_nil, or_false] at h h2
  rcases h with rfl | rfl <;> rcases h2 with rfl | rfl <;> decide

/-- A delivery that carries it is the oldest of its sender and may arrive. -/
theorem cap_arrives (slots : Tab Group) (mode rights : Nat) (off : BitVec 14) (pair : Bool) (h : mode ∈ [8, 24]) (h2 : rights ∈ [0, 1]) :
    let d := capArrives mode rights off pair
    let s := capState slots d
    s.deliveries.find? (fun e => e.did == d.did) = some d ∧ s.deliverable d = true ∧ d.rel = false ∧ fld d.cap 54 10 = fld s.pkgid 0 10 ∧ s.saveHeld d.cap d.pair = false := by
  obtain ⟨e1, e2, e3⟩ := capPlace_any mode rights off h h2
  refine ⟨rfl, rfl, rfl, e3, ?_⟩
  simp only [State.saveHeld, capArrives, e1]; rfl

/-- `Clause.Deliveries` (rules R186, R187, R193, R194, R195 and R197) applies here. -/
theorem witness_deliverySeals (h : Clause.Deliveries) :
    (∃ t, exec (.deliveryArrival 77) (capState [] (capArrives 8 1 1 false)) = .next t)
    ∧ (∃ t, exec (.deliveryArrival 77) (capState [] (capArrives 8 0 0 false)) = .next t)
    ∧ (∃ t, exec (.deliveryArrival 77) (capState [] (capArrives 8 1 0 false)) = .next t) := by
  obtain ⟨a, b, c, d, e⟩ := cap_arrives [] 8 1 1 false (by decide) (by decide)
  obtain ⟨t1, r1, -⟩ := (h _ _ a b c d e).1 (capOf_wrong 8 1) (Or.inr (by decide +kernel))
  obtain ⟨a, b, c, d, e⟩ := cap_arrives [] 8 0 0 false (by decide) (by decide)
  obtain ⟨t2, r2, -⟩ := (h _ _ a b c d e).2.1 (capOf_sealed 8 0) (Or.inl (capPlace_any 8 0 0 (by decide) (by decide)).2.1)
  obtain ⟨a, b, c, d, e⟩ := cap_arrives [] 8 1 0 false (by decide) (by decide)
  obtain ⟨e1, e2, -⟩ := capPlace_any 8 1 0 (by decide) (by decide)
  obtain ⟨t3, r3, -⟩ := (h _ _ a b c d e).2.2.1 ⟨capOf_sealed 8 1, Or.inl e2, by simp only [capArrives, e1]; decide, by simp only [capArrives, e1]; rfl, by simp only [capArrives, e1]; rfl⟩
    (by simp only [capArrives, e1]; rfl)
  exact ⟨⟨t1, r1⟩, ⟨t2, r2⟩, ⟨t3, r3⟩⟩

/-- The test group with register 8 armed for the capability. -/
def capGroup (mode : Nat) (st : RegSt) : Group :=
  { grp with arms := [(8, ⟨capOf mode 1 0, 0, decide (16 ≤ mode), true⟩)]
             regs := { grp.regs with v := (grp.regs.v.set 8 { st := st, val := if st = .pending then [] else [7] }).set 9 { st := st } } }

/-- All its fields. -/
theorem capOf_place (mode : Nat) (off : BitVec 14) (h : mode ∈ [8, 24]) : capPlace (capOf mode 1 off) = 0 ∧ capGen (capOf mode 1 off) = 0 ∧ capReg (capOf mode 1 off) = 8
   ∧ capMode (capOf mode 1 off) = mode ∧ capRights (capOf mode 1 off) = 1 ∧ fld (capOf mode 1 off) 54 10 = 0 := by
  simp only [capPlace, capGen, capReg, capMode, capRights]
  rw [capOf_fld _ _ _ _ _ (by decide), capOf_fld _ _ _ _ _ (by decide), capOf_fld _ _ _ _ _ (by decide), capOf_fld _ _ _ _ _ (by decide), capOf_fld _ _ _ _ _ (by decide), capOf_fld _ _ _ _ _ (by decide)]
  revert mode; decide

/-- It leads to a live core's slot 0. -/
theorem cap_good (G : Group) (mode : Nat) (pair : Bool) (h : mode ∈ [8, 24]) :
    let d := capArrives mode 1 0 pair
    let s := capState [(0, G)] d
    let pl := capPlace d.cap
    (fld d.cap 0 14 = sealOf s.key d.cap ∧ (capRights d.cap = 1 ∨ capRights d.cap = 2) ∧ pl / 64 % 128 < 96 ∧ (s.core (placeCore pl)).power = .live
      ∧ (s.core (placeCore pl)).fwd.find (placeSlot pl) = none) ∧ s.group (placeCore pl) (placeSlot pl) = some G := by
  obtain ⟨e1, e2, -⟩ := capPlace_any mode 1 0 h (by decide)
  exact ⟨⟨capOf_sealed mode 1, Or.inl e2, by simp only [capArrives, e1]; decide, by simp only [capArrives, e1]; rfl, by simp only [capArrives, e1]; rfl⟩,
    by simp only [capArrives, e1]; rfl⟩

/-- The register it names is armed for it. -/
theorem cap_live (mode : Nat) (st : RegSt) (pair : Bool) (h : mode ∈ [8, 24]) :
    let d := capArrives mode 1 0 pair
    let s := capState [(0, capGroup mode st)] d
    ((s.core (placeCore (capPlace d.cap))).gen (placeSlot (capPlace d.cap)) (capReg d.cap) = capGen d.cap ∧ (capGroup mode st).keeps d.cap = true)
      ∧ ((capGroup mode st).vreg (capReg d.cap)).st = st ∧ ((capGroup mode st).vreg (capReg d.cap + 1)).st = st ∧ capMode d.cap = mode := by
  obtain ⟨e1, e2, e3, e4, -⟩ := capOf_place mode 0 h
  refine ⟨⟨by simp only [capArrives, e1, e2, e3]; rfl, ?_⟩, by simp only [capArrives, e3]; rfl, by simp only [capArrives, e3]; rfl, e4⟩
  simp only [Group.keeps, capArrives, e3]
  show (capPlace _ == capPlace _ && 0 == _) = true
  rw [e2]; simp

/-- `Clause.Deliveries` (rules R186, R187, R193, R194, R195 and R197) applies here. -/
theorem witness_deliveries (h : Clause.Deliveries) :
    (∃ t, exec (.deliveryArrival 77) (capState [(0, grp)] (capArrives 8 1 0 false)) = .next t)
    ∧ (∃ t, exec (.deliveryArrival 77) (capState [(0, capGroup 8 .pending)] (capArrives 8 1 0 false)) = .next t)
    ∧ (∃ t, exec (.deliveryArrival 77) (capState [(0, capGroup 24 .pending)] (capArrives 24 1 0 true)) = .next t)
    ∧ (∃ t, exec (.deliveryArrival 77) (capState [(0, capGroup 8 .pending)] (capArrives 8 1 0 true)) = .next t)
    ∧ (∃ t, exec (.deliveryArrival 77) (capState [(0, capGroup 8 .delivered)] (capArrives 8 1 0 false)) = .next t) := by
  have arrive (G : Group) (mode : Nat) (pair : Bool) (m : mode ∈ [8, 24]) (r : G.ra = none) (q : G.ending = false) :=
    have c := cap_arrives [(0, G)] mode 1 0 pair m (by decide)
    have g := cap_good G mode pair m
    (h _ _ c.1 c.2.1 c.2.2.1 c.2.2.2.1 c.2.2.2.2).2.2.2 G g.1 g.2 r q
  have e3 := (capOf_place 8 0 (by decide)).2.2.1
  have l := cap_live 8 .pending false (by decide)
  have x := cap_live 8 .pending true (by decide)
  have y := cap_live 8 .delivered false (by decide)
  have z := cap_live 24 .pending true (by decide)
  obtain ⟨t1, r1, -⟩ := (arrive grp 8 false (by decide) rfl rfl).1 (Or.inr (by simp only [capArrives, e3]; decide +kernel))
  obtain ⟨t2, _, r2, -⟩ := (arrive (capGroup 8 .pending) 8 false (by decide) rfl rfl).2.1 l.1 l.2.1 rfl (by rw [l.2.2.2]; decide)
  obtain ⟨t3, _, r3, -⟩ := (arrive (capGroup 24 .pending) 24 true (by decide) rfl rfl).2.2.1 z.1 z.2.1 z.2.2.1 rfl (by rw [z.2.2.2]; decide)
  obtain ⟨t4, r4, -⟩ := (arrive (capGroup 8 .pending) 8 true (by decide) rfl rfl).2.2.2.1 x.1 (Or.inl x.2.1) (by rw [x.2.2.2]; decide)
  obtain ⟨t5, r5, -⟩ := (arrive (capGroup 8 .delivered) 8 false (by decide) rfl rfl).2.2.2.2 y.1 y.2.1 (by rw [y.2.2.2]; decide)
  exact ⟨⟨t1, r1⟩, ⟨t2, r2⟩, ⟨t3, r3⟩, ⟨t4, r4⟩, ⟨t5, r5⟩⟩

def dlv (cap : W64) : Delivery := ⟨77,0,0,1,0,0,cap,0xFF0F,(List.range 16).map (fun i => BitVec.ofNat 32 (100+i)),[],false,false,pkg.placeOf 0 0,none,none⟩

def dOut : Delivery := { dlv armCap with outcome := some 2, iid := 9 }

def gSd : Group := { grp with infl := [{ id := 9, split := 0, pc := 0 }] }

def pkgSd : State := { pkg.setGroup 0 0 gSd with deliveries := [dOut] }

/-- `Clause.SendOutcomes` (rules R192, R197 and R198) applies here. -/
theorem witness_sendOutcomes (h : Clause.SendOutcomes) : (∃ t, exec (.sendOutcomeReturn dOut.did) pkgSd = .next t) := by
  refine (h pkgSd dOut (2) gSd ?_ ?_ ?_ ?_ ?_ ?_ ?_).imp fun _ ⟨_, e⟩ => e.1 <;>
  first | rfl | decide +kernel

def one (f : FmtM) : FmtM := { f with ge := 1, g := 3 }

/-- The turn of issue slot 0 of core 0, with the test group's one split at a word in memory, or with the word `w` fetched already. -/
def pkgTurn (w : Option W64) : State :=
  { (pkgM [(0x10000, 0x0100000000008000)]).setGroup 0 0 { grp with splits := [{ sp with word := w }] } with agenda := [(0, Move.issue 0 0)] }

/-- The state in which the turn picks. -/
def turnState (w : Option W64) : State := (({ pkgTurn w with agenda := [] } : State).refresh exec).elapse 0

/-- What it picks. -/
def turnPick (w : Option W64) : Nat × Group × Split := ((turnState w).pick 0 0).getD (0, grp, sp)

/-- The group picked, its split tried. -/
def turnGroup (w : Option W64) : Group := (((turnState w).tryOne 0 (turnPick w)).group 0 0).getD grp

/-- The split picked. -/
def turnSplit (w : Option W64) : Split := ((turnGroup w).split 0).getD sp

/-- `Obligations.StepRunsDecoded` (rules R53, R159 and R160) applies here. -/
theorem witness_stepRunsDecoded (h : Obligations.StepRunsDecoded) :
    (∃ u i, step (pkgTurn none) = exec i u) ∧ (∃ u i, step (pkgTurn (some 0x0100000000008000)) = exec i u)
    ∧ (∃ t, step (pkgTurn (some 0)) = .next t)
    ∧ (∃ u, step { pkg with agenda := [(0, Move.event (.budgetPeriod 0))] } = exec (.budgetPeriod 0) u)
    ∧ (∃ t, step { pkg with agenda := [(0, Move.strike (.granule 5))] } = .next t)
    ∧ (∃ t, step { pkg with agenda := [(0, Move.command 0x12)] } = .next t) ∧ State.refresh exec pkg = pkg := by
  have turn (w : Option W64) := h.1 (pkgTurn w) 0 0 0 [] (turnPick w) (turnGroup w) (turnSplit w) rfl
  refine ⟨⟨_, _, (turn none ?_ ?_ ?_ ?_ ?_).2.2 0x0100000000008000 (.nop ⟨0, 0, 0, 0, 0, 0, 0, 0, 1, 0, 0, 0⟩) ?_ ?_ ?_ ?_⟩,
    ⟨_, _, (turn (some 0x0100000000008000) ?_ ?_ ?_ ?_ ?_).1 0x0100000000008000 (.nop ⟨0, 0, 0, 0, 0, 0, 0, 0, 1, 0, 0, 0⟩) ?_ ?_⟩,
    ⟨_, (turn (some 0) ?_ ?_ ?_ ?_ ?_).2.1 0 ⟨1, 0, 0⟩ ?_ ?_⟩, ⟨_, h.2.1 _ _ _ _ rfl rfl⟩, ⟨_, h.2.2.1 _ _ _ _ rfl⟩,
    ⟨_, h.2.2.2.1 _ _ 0x12 _ rfl (by decide)⟩, h.2.2.2.2 pkg ?_⟩ <;>
  first | decide +kernel | rfl

def gEnd : Group := { grp with splits := [], ending := true }

def pkgEnd (l : List Nat) : State := { pkg.setGroup 0 0 gEnd with teams := [(0, { team0 with live := l, base := 3, limit := 5 })] }

/-- The package of the tests with no group in it. -/
def pkgIdle : State := { pkg with cores := [], teams := [], launches := [] }

/-- Whether an event leaves a state as it is. -/
def idles (s : State) (j : Instr) : Bool := match exec j s with | .next t => decide (t = s) | _ => false

/-- An event that idles answers the same state. -/
theorem idles_iff {s : State} {j : Instr} (h : idles s j = true) : exec j s = .next s := by
  unfold idles at h; split at h
  · next e => rw [e, of_decide_eq_true h]
  · exact absurd h (by decide)

/-- `Clause.StepAlone` applies here. -/
theorem witness_stepAlone (h : Clause.StepAlone) :
    (∃ t, step (pkgEnd [0]) = .next t) ∧ step pkg = issueTurn 0 0 pkg ∧ step pkgIdle = .next (pkgIdle.tick exec) := by
  refine ⟨?_, ?_, ?_⟩
  · have e := (h (pkgEnd [0]) (by decide +kernel)).1 (.groupEnd 0 0)
      (match exec (.groupEnd 0 0) (pkgEnd [0]) with | .next t => t | _ => pkg) [.causeTaken 0 0, .preemptForceTimeout 0 0]
      ((pkgEnd [0]).dueEvents.drop 3)
    have q : ∀ j ∈ [Instr.causeTaken 0 0, .preemptForceTimeout 0 0], idles (pkgEnd [0]) j = true := by decide +kernel
    exact ⟨_, e (by decide +kernel) (fun j hj => idles_iff (q j hj)) rfl (by decide +kernel)⟩
  · have q : ∀ j ∈ pkg.dueEvents, idles pkg j = true := by decide +kernel
    exact ((h pkg (by decide +kernel)).2 (fun j hj => idles_iff (q j hj))).1 0 0 [] (by decide +kernel)
  · have q : ∀ j ∈ pkgIdle.dueEvents, idles pkgIdle j = true := by decide +kernel
    exact ((h pkgIdle (by decide +kernel)).2 (fun j hj => idles_iff (q j hj))).2 (by decide +kernel)

/-- `Clause.FetchReads` (rules R53, R159, R276 and R331) applies here. -/
theorem witness_fetchReads (h : Clause.FetchReads) : (∃ t, exec (.instructionFetch pkg.cur.core pkg.cur.slot pkg.cur.split) pkg = .next t) := by
  have e := (h pkg pkg.cur 0 0x10000 page ?_ ?_).2.2.2 ?_ ?_ ?_ ?_ ?_ ?_
  · refine ⟨_, (e.2 ?_).2 grp sp ?_ ?_ ?_ ?_ ?_ ?_ ?_ ?_ ?_ ?_ ?_ ?_⟩ <;> repeat' (first | decide +kernel | constructor | intro _)
  all_goals repeat' (first | decide +kernel | constructor | intro _)

/-- `Obligations.MemoryCanonical` applies here. -/
theorem witness_memoryCanonical (h : Obligations.MemoryCanonical) : ∃ t, step { pkg with agenda := [(0, Move.strike (.granule 5))] } = .next t ∧ Memory.wf t.mem = true := by
  have e : step { pkg with agenda := [(0, Move.strike (.granule 5))] }
      = .next ((match step { pkg with agenda := [(0, Move.strike (.granule 5))] } with | .next t => t | _ => pkg)) := rfl
  exact ⟨_, e, h _ _ (by decide) e⟩

/-- `Obligations.ReadAfterWrite` (rules R290, R328 and R292) applies here. -/
theorem witness_readAfterWrite (h : Obligations.ReadAfterWrite) : Memory.wf [(3, 7)] = true ∧ memGet (memSet [(3, 7)] 5 9) 5 = 9 :=
  ⟨by decide, (h [(3, 7)] (by decide)).1 5 9 5⟩

def pRs : State := { pkg with teams := [], identity := Config.deriveIdentity pkg.resets, mem := [(0x101, 7)], poison := [3], cycle := 77, rstate := .running }

/-- `Obligations.ResetEvents` (rules R143, R186, R424, R432, R459 and R460) applies here. -/
theorem witness_resetEvents (h : Obligations.ResetEvents) :
    (∃ t, exec .powerOn pkg = .next t)
    ∧ (∃ t, exec .resetctlWarm pRs = .next t)
    ∧ (∃ t, exec .cold ({ pRs with rstate := RState.recovery }) = .next t)
    ∧ (∃ t, exec .warm ({ pRs with rstate := RState.recovery }) = .next t) := by
  refine ⟨((h pkg).1).imp fun _ e => e.1,
    ((h pRs).2.1 rfl ?_ (fun c => by by_cases h : 0 = c <;> simp [State.core, pRs, pkg, Tab.get, h]) ?_).imp fun _ e => e.1,
    ⟨_, ((h ({ pRs with rstate := .recovery })).2.2.2 ?_).1⟩,
    ⟨_, ((h ({ pRs with rstate := .recovery })).2.2.2 ?_).2⟩⟩ <;>
  decide +kernel

def iA (ws : List RegW) : Inflight := { id := 3, split := 0, pc := 0, writes := ws }

def gI (ws : List RegW) : Group := { grp with infl := [iA ws, { id := 9, split := 0, pc := 0 }] }

def pkgI (ws : List RegW) : State := pkg.setGroup 0 0 (gI ws)

/-- `Clause.Completion` (rules R19, R20 and R163) applies here. -/
theorem witness_completion (h : Clause.Completion) : (∃ t, exec (.instructionComplete 0 0 3) (pkgI [wv 5 15]) = .next t) := by
  refine (h (pkgI [wv 5 0xF]) (0) (0) (3) (gI [wv 5 0xF]) (iA [wv 5 0xF]) ?_ ?_ ?_).imp fun _ ⟨_, _, e⟩ => e.1 <;>
  decide +kernel

def spC : Split := { sp with wait := .counter 0x100 }

def grpC : Group := { grp with splits := [spC] }

def pkgCtr : State := pkg.setGroup 0 0 grpC

/-- `Clause.AgesAndPolls` (rules R161 and R314) applies here. -/
theorem witness_agesAndPolls (h : Clause.AgesAndPolls) : (∃ t, exec (.ageSaturate 0 0 0) pkgCtr = .next t) := by
  refine ((h pkgCtr (0) (0) (0) grpC (by decide +kernel)).1).imp fun _ e => e.1

def wo : WriteOut := { id := 4, slot := 0, gid := 1, reg := 5, granules := 1, part := 0, va := 0x20000, val := (List.range 16).map (fun l => BitVec.ofNat 32 (1000+l)) }

def pkgW (w : WriteOut) : State := { pkg with cores := [(0, { (pkg.core 0) with writeouts := [w] })] }

def gRl (e : Bool) (a : W64) : Group := { grp with reloads := [⟨5, e⟩], spill := a, regs := { grp.regs with v := grp.regs.v.set 5 { st := .spilled } } }

def pkgRl (e : Bool) (a : W64) : State := { pkg.setGroup 0 0 (gRl e a) with mem := cellsAt 0x20140 ((List.range 64).map (fun i => BitVec.ofNat 8 (i+1))) }

def rdb (e : Bool) (a : W64) : List Byte := (((pkgRl e a).readLong 0 ((a.toNat + 5*16*4) % 2^57) 64).2).getD []

/-- `Obligations.SpillsAndReloads` (rules R20, R25, R27, R331 and R370) applies here. -/
theorem witness_spillsAndReloads (h : Obligations.SpillsAndReloads) :
    (∃ t, exec (.spillWriteoutDone 0 wo.id) (pkgW wo) = .next t)
    ∧ (∃ t, exec (.reloadDone 0 0 5) (pkgRl false 131072) = .next t) := by
  refine ⟨⟨_, ((h.1 (pkgW wo) (0) wo ?_ ?_).2 ?_).1 ?_⟩,
    ((h.2 (pkgRl false 0x20000) (0) (0) (5) (gRl false 0x20000) (⟨5, false⟩) ?_ ?_ ?_ ?_).1 (rdb false 0x20000) ?_).imp fun _ ⟨_, e⟩ => e.1⟩ <;>
  decide +kernel

def cz : Cause := { code := 16, info := 77, pc := 0x9000 }

def gCz : Group := { grp with causes := [cz] }

def pkgCz : State := pkgV.setGroup 0 0 gCz

def ez : Cause := { code := 4, deferred := false, split := 0, info := 77, lane := 3, pc := 0x10000, ra := 0x10000 }

def gEz : Group := { grp with entry := some ez }

def pkgEz : State := pkgV.setGroup 0 0 gEz

/-- `Clause.CausesTaken` (rules R32, R401, R402, R403 and R405) applies here. -/
theorem witness_causesTaken (h : Clause.CausesTaken) :
    (∃ t, exec (.causeTaken 0 0) pkgCz = .next t)
    ∧ (∃ t, exec (.handlerBankGrant 0) pkgEz = .next t) := by
  refine ⟨((h pkgCz (0) (0) gCz sp cz ?_ ?_ ?_ ?_ ?_ ?_ ?_ ?_).1 ?_ ?_ ?_ ?_).imp fun _ ⟨_, e⟩ => e.1,
    ((h pkgEz (0) (0) gEz sp ez ?_ ?_ ?_ ?_ ?_ ?_ ?_ ?_).2 ?_ ?_ ?_ ?_).imp fun _ ⟨_, e⟩ => e.1⟩ <;>
  decide +kernel

def pkgPre2 : State := { pkgPre with cycle := 50000 }

/-- `Clause.ForcedStop` (rule R416) applies here. -/
theorem witness_forcedStop (h : Clause.ForcedStop) : (∃ t, exec (.preemptForceTimeout 0 0) pkgPre2 = .next t) := by
  refine (h pkgPre2 (0) (0) gPre (0) ?_ ?_ ?_ ?_ ?_ ?_ ?_).imp fun _ e => e.1 <;>
  decide +kernel

def TEnd (l : List Nat) : Team := { team0 with live := l, base := 3, limit := 5 }

/-- `Obligations.GroupsEnd` (rules R138, R152, R188 and R378) applies here. -/
theorem witness_groupsEnd (h : Obligations.GroupsEnd) :
    (∃ t, exec (.groupEnd 0 0) (pkgEnd [0, 1]) = .next t)
    ∧ (∃ t, exec (.groupEnd 0 0) (pkgEnd [0]) = .next t) := by
  refine ⟨((h (pkgEnd [0, 1]) (0) (0) gEnd (TEnd [0, 1]) ?_ ?_ ?_ ?_ ?_ ?_).1 ?_).imp fun _ e => e.1,
    ((h (pkgEnd [0]) (0) (0) gEnd (TEnd [0]) ?_ ?_ ?_ ?_ ?_ ?_).2 ?_ ?_ ?_ ?_ ⟨by decide +kernel, by decide +kernel⟩).imp fun _ ⟨_, e⟩ => e.1⟩ <;>
  decide +kernel

def pkgAl (n b : Nat) : State := { pkg.setGroup 0 0 { grp with infl := [{ id := 3, split := 0, pc := 0, kind := .alloc }] } with
  teams := [(0, { team0 with req := some (n, 9) }), (1, { team0 with tid := 1, base := 0, limit := b })],
  cores := [(0, { ((pkg.setGroup 0 0 { grp with infl := [{ id := 3, split := 0, pc := 0, kind := .alloc }] }).core 0) with allocs := [⟨0, n, 9⟩, ⟨1, 3, 10⟩], acc := [(1024*3+5, 7), (1024*9, 8)], marks := [(3, 1)] })] }

def tmN (n : Nat) : Team := { team0 with req := some (n, 9) }

/-- `Clause.RowAllocation` (rule R224) applies here. -/
theorem witness_rowAllocation (h : Clause.RowAllocation) : (∃ t, exec (.accumulatorAllocation 0) (pkgAl 5 7) = .next t) := by
  refine (h.1 (pkgAl 5 7) (0) (tmN 5) (5) (9) (7) ([⟨1, 3, 10⟩]) ?_ ?_ ?_ ?_ ?_ ?_ ?_ ?_).imp fun _ e => e.1 <;>
  decide +kernel

/-- A word of format M with no guard. -/
def fM (d a b disp tr size scope ord hint sc sa : Nat) : FmtM := ⟨.ofNat _ d, .ofNat _ a, .ofNat _ b, .ofNat _ disp, 0,0,0,0,0,0,0, .ofNat _ tr, .ofNat _ size, .ofNat _ scope, .ofNat _ ord, .ofNat _ hint, .ofNat _ sc, .ofNat _ sa⟩

def lkC : Launch := { lch with consts := [(0x40000, 128)] }

def pkgC : State := { { pkg with launches := [(0, lkC)] } with cores := [(0, { (pkg.core 0) with ccache := [⟨0x40000/128, List.replicate 128 3⟩], ccLaunch := [0] })] }

/-- `Through` as a conjunction that evaluates. -/
theorem through_iff (s : State) (G : Group) (tr n : Nat) (rd wr : Bool) (o : Int) : Through s G tr n rd wr o ↔
    fld (G.treg tr).w1 63 1 = 1 ∧ (G.treg tr).stale = false ∧ (G.treg tr).mig = none ∧ 0 ≤ o ∧ o < fld (G.treg tr).w2 0 36 ∧ G.va tr o < 2 ^ 57
    ∧ G.va tr o % n = 0
    ∧ fld (G.treg tr).w1 0 52 % pageBytes (fld (G.treg tr).w1 52 4) = fld (G.treg tr).w0 0 57 % pageBytes (fld (G.treg tr).w1 52 4)
    ∧ (rd = true → fld (G.treg tr).w1 62 1 = 1) ∧ (wr = true → fld (G.treg tr).w1 61 1 = 1) ∧ s.regionOk (G.pa tr o) = true :=
  ⟨fun h => ⟨h.valid, h.fresh, h.still, h.low, h.high, h.top, h.aligned, h.page, h.reads, h.writes, h.region⟩,
   fun ⟨a, b, c, d, e, f, g, h, i, j, k⟩ => ⟨a, b, c, d, e, f, g, h, i, j, k⟩⟩

/-- `Clause.LoadIssues` (rules R56, R269, R291, R295 and R298) applies here. -/
theorem witness_loads (h : Clause.LoadIssues) :
    (∃ t, exec (.ld (fM 20 3 0 0 0 4 0 0 0 1 0)) pkg = .next t)
    ∧ (∃ t, exec (.ldc (fM 20 3 0 0 0 4 0 0 0 1 0)) pkgC = .next t) := by
  refine ⟨((h pkg grp sp (fM 20 3 0 0 0 4 0 0 0 1 0) ?_ ?_ ?_ ?_).1 ?_ ?_ (by simp only [through_iff]; decide +kernel) ?_).imp fun _ ⟨_, e⟩ => e.1,
    ((h pkgC grp sp (fM 20 3 0 0 0 4 0 0 0 1 0) ?_ ?_ ?_ ?_).2 lkC ?_ ?_ ?_
      (fun l hl => ⟨0x40000, 128, by revert l; decide +kernel⟩)).imp fun _ ⟨_, e⟩ => e.1⟩ <;>
  repeat' (first | decide +kernel | constructor)

/-- The test group with an offset past its translation register's page in u8, and with a page that may not be read in t1. -/
def gTr : Group := { grp with regs := { grp.regs with
  k := grp.regs.k ++ [(8, 0x800000000)], p := [(1, 0xFF), (3, 0x20)]
  t := [(0, tr0), (1, { tr0 with w1 := 0x8030000000000000 })] } }

def pkgTr : State := pkg.setGroup 0 0 gTr

/-- `Clause.AccessTraps` (rules R294, R295, R298, R299 and R401) applies here: a misaligned lane, a negative address, an address without a page,
and a page that may not be read. -/
theorem witness_accessTraps (h : Clause.AccessTraps) :
    (∃ t, exec (.ld (fM 20 4 0 0 0 4 0 0 0 0 0)) pkgTr = .next t)
    ∧ (∃ t, exec (.ld { fM 20 0 0 0 0 4 0 0 0 1 0 with disp := -1 }) pkgTr = .next t)
    ∧ (∃ t, exec (.ld { fM 20 8 0 0 0 4 0 0 0 0 1 with ge := 1, g := 3 }) pkgTr = .next t)
    ∧ (∃ t, exec (.ld (fM 20 3 0 0 1 4 0 0 0 1 0)) pkgTr = .next t)
    ∧ (∃ t, exec (.st (fM 0 4 2 0 0 4 0 0 0 0 0)) pkgTr = .next t)
    ∧ (∃ t, exec (.atomg (fM 20 4 2 0 0 4 0 0 0 0 0)) pkgTr = .next t)
    ∧ (∃ t, exec (.gather (fM 20 4 0 0 0 4 0 0 0 0 0)) pkgTr = .next t)
    ∧ (∃ t, exec (.scatter (fM 0 4 2 0 1 4 0 0 0 1 0)) pkgTr = .next t) := by
  have k (f : FmtM) (a : f.ord = 0) := h pkgTr gTr sp f (by repeat' (first | decide +kernel | constructor)) (by decide) a
  refine ⟨⟨_, ((k (fM 20 4 0 0 0 4 0 0 0 0 0) rfl).1 ?_ ?_).1 1 ?_⟩,
    ⟨_, (((k { fM 20 0 0 0 0 4 0 0 0 1 0 with disp := -1 } rfl).1 ?_ ?_).2 ?_).1 0 ?_⟩,
    ⟨_, ((((k { fM 20 8 0 0 0 4 0 0 0 0 1 with ge := 1, g := 3 } rfl).1 ?_ ?_).2 ?_).2 ?_ ?_).1 5 ?_ ?_ ?_ ?_ ?_⟩,
    ⟨_, ((((k (fM 20 3 0 0 1 4 0 0 0 1 0) rfl).1 ?_ ?_).2 ?_).2 ?_ ?_).2 ?_ 0 ?_⟩,
    ⟨_, ((k (fM 0 4 2 0 0 4 0 0 0 0 0) rfl).2.1 ?_ ?_).1 1 ?_⟩,
    ⟨_, ((k (fM 20 4 2 0 0 4 0 0 0 0 0) rfl).2.2.1 _ (.tail _ (.head _)) ?_ ?_).1 1 ?_⟩,
    ⟨_, (((k (fM 20 4 0 0 0 4 0 0 0 0 0) rfl).2.2.2.1 ?_).1 ?_ ?_).1 1 ?_⟩,
    ⟨_, ((((k (fM 0 4 2 0 1 4 0 0 0 1 0) rfl).2.2.2.1 ?_).2 ?_ ?_).2 ?_).2 ?_ ?_ |>.2 ?_ 0 ?_⟩⟩ <;>
  repeat' (first | decide +kernel | constructor)

/-- `Clause.AccessTraps` applies to LDC, LDL and STL: a misaligned lane, and one outside its block or the local store. -/
theorem witness_accessTrapsElsewhere (h : Clause.AccessTraps) :
    (∃ t, exec (.ldc (fM 20 4 0 0 0 4 0 0 0 0 0)) pkgC = .next t)
    ∧ (∃ t, exec (.ldc (fM 20 3 0 0x20 0 4 0 0 0 1 0)) pkgC = .next t)
    ∧ (∃ t, exec (.ldl (fM 20 4 0 0 0 4 0 0 0 0 0)) pkg = .next t)
    ∧ (∃ t, exec (.stl { fM 0 0 2 0 0 4 0 0 0 1 0 with disp := -1 }) pkg = .next t) := by
  have k (f : FmtM) (a : f.ord = 0) := h pkg grp sp f calm_pkg (by decide) a
  have c (f : FmtM) (a : f.ord = 0) := h pkgC grp sp f (by repeat' (first | decide +kernel | constructor)) (by decide) a
  refine ⟨⟨_, ((c (fM 20 4 0 0 0 4 0 0 0 0 0) rfl).2.2.2.2.1 lkC ?_ ?_ ?_).1 1 ?_⟩,
    ⟨_, ((c (fM 20 3 0 0x20 0 4 0 0 0 1 0) rfl).2.2.2.2.1 lkC ?_ ?_ ?_).2 ?_ 0 ?_⟩,
    ⟨_, ((k (fM 20 4 0 0 0 4 0 0 0 0 0) rfl).2.2.2.2.2 team0 ?_ _ (.head _) ?_ ?_).1 1 ?_⟩,
    ⟨_, ((k { fM 0 0 2 0 0 4 0 0 0 1 0 with disp := -1 } rfl).2.2.2.2.2 team0 ?_ _ (.tail _ (.head _)) ?_ ?_).2 ?_ 0 ?_⟩⟩ <;>
  repeat' (first | decide +kernel | constructor)

/-- A dirty line 0 of the L1. -/
def L0d : L1Line := { Lx with line := 0, valid := 15 }

/-- The package with a group and that line in core 0's L1. -/
def pkgSd1 (G : Group) : State := { pkg.setGroup 0 0 G with cores := [(0, { (pkg.core 0) with slots := [(0, G)], l1 := [L0d] })] }

def grp3 : Group := { grp with regs := { grp.regs with p := [(1, 0xFF), (3, 0x20)] } }

def pkg3 : State := pkg.setGroup 0 0 grp3

def mOff (f : FmtM) : FmtM := { f with ge := 1, g := 2 }

/-- `Clause.StoreIssues` (rules R135, R269, R297, R298, R321 and R336) applies here: a store without an active lane, one to the home, one to the home of a
line that the L1 holds dirty, and one to the L1. -/
theorem witness_stores (h : Clause.StoreIssues) :
    (∃ t, exec (.st (mOff (fM 0 3 2 0 0 4 0 0 0 1 0))) pkg = .next t)
    ∧ (∃ t, exec (.st (fM 0 3 2 0 0 4 0 0 2 1 0)) pkg = .next t)
    ∧ (∃ t, exec (.st (one (fM 0 3 2 0 0 4 0 0 2 1 0))) (pkgSd1 grp3) = .next t)
    ∧ (∃ t, exec (.st { fM 0 3 2 0 0 4 0 0 0 1 0 with ge := 1, g := 1 }) (pkgSd1 grp) = .next t) := by
  refine ⟨((h pkg grp sp (mOff (fM 0 3 2 0 0 4 0 0 0 1 0)) ?_ ?_ ?_ ?_ ?_ ?_ ?_ (by simp only [through_iff]; decide +kernel)).1 ?_).imp fun _ e => e.1,
    ((h pkg grp sp (fM 0 3 2 0 0 4 0 0 2 1 0) ?_ ?_ ?_ ?_ ?_ ?_ ?_ (by simp only [through_iff]; decide +kernel)).2.1 ?_ ?_ ?_ ?_ ?_).imp fun _ ⟨_, e⟩ => e.1,
    ((h (pkgSd1 grp3) grp3 sp (one (fM 0 3 2 0 0 4 0 0 2 1 0)) ?_ ?_ ?_ ?_ ?_ ?_ ?_ (by simp only [through_iff]; decide +kernel)).2.2.1 5 L0d ?_ ?_ ?_ ?_ ?_ ?_ ?_ ?_ ?_ ?_ ?_ ?_ ?_ ?_ ?_).imp fun _ ⟨_, e⟩ => e.1,
    ((h (pkgSd1 grp) grp sp { fM 0 3 2 0 0 4 0 0 0 1 0 with ge := 1, g := 1 } ?_ ?_ ?_ ?_ ?_ ?_ ?_ (by simp only [through_iff]; decide +kernel)).2.2.2 ?_ ?_ ?_ ?_ ?_).imp fun _ e => e.1⟩ <;>
  repeat' (first | decide +kernel | constructor)

/-- `Obligations.LocalAccesses` (rules R262, R295 and R298) applies here. -/
theorem witness_localAccesses (h : Obligations.LocalAccesses) :
    (∃ t, exec (.ldl (fM 20 3 0 0 0 4 0 0 0 1 0)) pkg = .next t)
    ∧ (∃ t, exec (.stl (fM 0 3 2 0 0 4 0 0 0 1 0)) pkg = .next t) := by
  refine ⟨((h pkg grp sp (fM 20 3 0 0 0 4 0 0 0 1 0) team0 ?_ ?_ ?_ ?_ ?_ (by simp only [Team.inside]; decide +kernel)).1 ?_ ?_).imp fun _ ⟨_, e⟩ => e.1,
    ((h pkg grp sp (fM 0 3 2 0 0 4 0 0 0 1 0) team0 ?_ ?_ ?_ ?_ ?_ (by simp only [Team.inside]; decide +kernel)).2 ?_ ?_).imp fun _ e => e.1⟩ <;>
  repeat' (first | decide +kernel | constructor)

/-- `Clause.CollectedAccesses` (rules R283, R284, R285 and R301) applies here. -/
theorem witness_collectedAccesses (h : Clause.CollectedAccesses) :
    (∃ t, exec (.gather (one (fM 20 3 0 0 0 4 0 0 0 1 0))) pkg3 = .next t)
    ∧ (∃ t, exec (.scatter (one (fM 0 3 2 0 0 4 0 0 0 1 0))) pkg3 = .next t)
    ∧ (∃ t, exec (.gather (mOff (fM 20 3 0 0 0 4 0 0 0 1 0))) pkg = .next t)
    ∧ (∃ t, exec (.scatter (mOff (fM 0 3 2 0 0 4 0 0 0 1 0))) pkg = .next t) := by
  refine ⟨((h pkg3 grp3 sp (one (fM 20 3 0 0 0 4 0 0 0 1 0)) ?_ ?_ ?_ ?_ ?_ ?_).1 (List.head ((lanesIn (activeLanes grp3 sp (one (fM 20 3 0 0 0 4 0 0 0 1 0)).ge (one (fM 20 3 0 0 0 4 0 0 0 1 0)).gn (one (fM 20 3 0 0 0 4 0 0 0 1 0)).g) grp3.w)) (by decide +kernel)) ?_ ?_ ?_ ?_).imp fun _ ⟨_, _, e⟩ => e.1,
    ((h pkg3 grp3 sp (one (fM 0 3 2 0 0 4 0 0 0 1 0)) ?_ ?_ ?_ ?_ ?_ ?_).2.1 (List.head ((lanesIn (activeLanes grp3 sp (one (fM 0 3 2 0 0 4 0 0 0 1 0)).ge (one (fM 0 3 2 0 0 4 0 0 0 1 0)).gn (one (fM 0 3 2 0 0 4 0 0 0 1 0)).g) grp3.w)) (by decide +kernel)) ?_ ?_ ?_ ?_).imp fun _ ⟨_, _, e⟩ => e.1,
    (((h pkg grp sp (mOff (fM 20 3 0 0 0 4 0 0 0 1 0)) ?_ ?_ ?_ ?_ ?_ ?_).2.2 ?_).1 ?_ ?_).imp fun _ ⟨_, e⟩ => e.1,
    (((h pkg grp sp (mOff (fM 0 3 2 0 0 4 0 0 0 1 0)) ?_ ?_ ?_ ?_ ?_ ?_).2.2 ?_).2 ?_ ?_).imp fun _ ⟨_, e⟩ => e.1⟩ <;>
  repeat' (first | decide +kernel | constructor)

def trGz : TReg := { w0 := 0, w1 := BitVec.ofNat 64 (7 * 2^61 + 3 * 2^52 + 2^50 + 5 * 2^40), w2 := 0x800000000 }

def gFz (G : Group) : Group := { G with regs := { G.regs with t := [(0, trGz)] } }

def pFz (G : Group) : State := { pkg.setGroup 0 0 (gFz G) with uroute := [(5, 1)], ports := [(0, { state := 2 })] }

/-- `Clause.AtomicsIssue` (rules R302, R303, R304, R313 and R329) applies here. -/
theorem witness_atomicsIssue (h : Clause.AtomicsIssue) :
    (∃ t, exec (.atom (fM 0 6 2 0 0 5 0 0 0 0 1)) pkg = .next t)
    ∧ (∃ t, exec (.atomg (fM 0 6 2 0 0 5 0 0 0 0 1)) pkg = .next t)
    ∧ (∃ t, exec (.atom (one (fM 20 8 2 0 0 4 0 0 0 1 0))) (pFz grp3) = .next t)
    ∧ (∃ t, exec (.cadd (fM 0 6 2 0 0 5 0 0 0 0 1)) pkg = .next t) := by
  refine ⟨((h pkg grp sp (fM 0 6 2 0 0 5 0 0 0 0 1) ?_ ?_ ?_ ?_ ?_).1 _ (.head _) ?_ ?_ (by simp only [through_iff]; decide +kernel) ?_).imp fun _ ⟨_, e⟩ => e.1,
    ((h pkg grp sp (fM 0 6 2 0 0 5 0 0 0 0 1) ?_ ?_ ?_ ?_ ?_).1 _ (.tail _ (.head _)) ?_ ?_ (by simp only [through_iff]; decide +kernel) ?_).imp fun _ ⟨_, e⟩ => e.1,
    ((h (pFz grp3) (gFz grp3) sp (one (fM 20 8 2 0 0 4 0 0 0 1 0)) ?_ ?_ ?_ ?_ ?_).2.1 (List.head (((gFz grp3).accesses (one (fM 20 8 2 0 0 4 0 0 0 1 0)).tr.toNat (lanesIn (activeLanes (gFz grp3) sp (one (fM 20 8 2 0 0 4 0 0 0 1 0)).ge (one (fM 20 8 2 0 0 4 0 0 0 1 0)).gn (one (fM 20 8 2 0 0 4 0 0 0 1 0)).g) (gFz grp3).w) ((gFz grp3).offset (one (fM 20 8 2 0 0 4 0 0 0 1 0)) false))) (by decide +kernel)) ?_ ?_ ?_ ?_ (by simp only [through_iff]; decide +kernel)).imp fun _ ⟨_, _, e⟩ => e.1,
    ((h pkg grp sp (fM 0 6 2 0 0 5 0 0 0 0 1) ?_ ?_ ?_ ?_ ?_).2.2 (List.head ((lanesIn (activeLanes grp sp (fM 0 6 2 0 0 5 0 0 0 0 1).ge (fM 0 6 2 0 0 5 0 0 0 0 1).gn (fM 0 6 2 0 0 5 0 0 0 0 1).g) grp.w)) (by decide +kernel)) (List.drop 1 (lanesIn (activeLanes grp sp (fM 0 6 2 0 0 5 0 0 0 0 1).ge (fM 0 6 2 0 0 5 0 0 0 0 1).gn (fM 0 6 2 0 0 5 0 0 0 0 1).g) grp.w)) ?_ ?_ ?_ ?_ ?_).imp fun _ ⟨_, e⟩ => e.1⟩ <;>
  repeat' (first | decide +kernel | constructor)

/-- `Clause.Fences` (rules R271, R305 and R330) applies here. -/
theorem witness_fences (h : Clause.Fences) : (∃ t, exec (.fence (fM 0 0 0 0 0 0 3 1 0 0 0)) pkg = .next t) := by
  refine (h pkg grp sp (fM 0 0 0 0 0 0 3 1 0 0 0) ?_ ?_ ?_ ?_ ?_ ?_).imp fun _ e => e.1 <;>
  repeat' (first | decide +kernel | constructor)

/-- `Clause.Descriptors` (rules R16, R276, R277, R283, R306 and R315) applies here. -/
theorem witness_descriptors (h : Clause.Descriptors) :
    (∃ t, exec (.translate (fM 1 4 0 0 0 0 0 0 0 0 1)) pkg = .next t)
    ∧ (∃ t, exec (.translate (mOff (fM 0 4 0 0 0 0 0 0 0 0 1))) pkg = .next t)
    ∧ (∃ t, exec (.remapld (fM 0 0 0 0 0 0 0 0 0 0 1)) pkg = .next t)
    ∧ (∃ t, exec (.remapld (fM 0 4 0 0 0 0 0 0 0 0 1)) pkg = .next t)
    ∧ (∃ t, exec (.remapld (mOff (fM 0 4 0 0 0 0 0 0 0 0 1))) pkg = .next t) := by
  refine ⟨(((h pkg grp sp (fM 1 4 0 0 0 0 0 0 0 0 1) ?_ ?_).1 ?_).2.1 (Option.get ((List.find? (fun e => e.covers grp.part (BitVec.toNat (grp.uni (fM 1 4 0 0 0 0 0 0 0 0 1).a.toNat))) (pkg.core pkg.cur.core).tlb)) (by decide +kernel)) ?_ ?_ ?_ ?_ ?_).imp fun _ ⟨_, _, e⟩ => e.1,
    (((h pkg grp sp (mOff (fM 0 4 0 0 0 0 0 0 0 0 1)) ?_ ?_).1 ?_).2.2 ?_).imp fun _ e => e.1,
    (((h pkg grp sp (fM 0 0 0 0 0 0 0 0 0 0 1) ?_ ?_).2 ?_).1 ?_ ?_).imp fun _ e => e.1,
    ⟨_, ((h pkg grp sp (fM 0 4 0 0 0 0 0 0 0 0 1) ?_ ?_).2 ?_).2.1 ?_ (fun h => absurd (show fld (0x100 : W64) 0 32 = 0 from h.2.2.1) (by decide))⟩,
    (((h pkg grp sp (mOff (fM 0 4 0 0 0 0 0 0 0 0 1)) ?_ ?_).2 ?_).2.2 ?_).imp fun _ e => e.1⟩ <;>
  repeat' (first | decide +kernel | constructor)

def pkgL (l : List L1Line) : State := { pkg with mem := [(0x101, 7), (0x140, 0x80)], cores := [(0, { (pkg.core 0) with l1 := l }), (1, {})] }

/-- The test group with an acquire in flight. -/
def gAq : Group := { grp with nextIid := 9, infl := [{ id := 3, split := 0, pc := 0, acq := true }] }

def gRq : Group := { grp3 with nextIid := 9 }

/-- The package with a write of the split's on its way to another line. -/
def pkgRq (ws : List HomeWrite) : State := { pkg with cores := [(0, { (pkg.core 0) with slots := [(0, gRq)], homeq := ws })] }

def hwO : HomeWrite := { id := 8, slot := 0, gid := 1, split := 0, iid := 3, cells := [(0x4000, 9)] }

/-- `Clause.OrderedAccesses` (rules R269, R271, R284, R305 and R330) applies here. -/
theorem witness_orderedAccesses (h : Clause.OrderedAccesses) :
    (∃ t, exec (.ld (fM 20 3 0 0 0 4 3 1 2 1 0)) pkg = .next t)
    ∧ (((pkgSd1 grp).acquire 0 1 3).core 0).l1.length = 1
    ∧ (∃ t, exec (.ld (fM 20 3 0 0 0 4 0 0 0 1 0)) (pkg.setGroup 0 0 gAq) = .next t)
    ∧ (∃ t, exec (.st (fM 0 3 2 0 0 4 0 0 0 1 0)) (pkg.setGroup 0 0 gAq) = .next t)
    ∧ (∃ t, exec (.st (one (fM 0 3 2 0 0 4 2 2 0 1 0))) (pkgRq [hwO]) = .next t)
    ∧ (∃ t, exec (.st (one (fM 0 3 2 0 0 4 2 2 0 1 0))) (pkgRq []) = .next t)
    ∧ (∃ t, exec (.st (one (fM 0 3 2 0 0 4 3 2 0 1 0))) (pkgRq []) = .next t) := by
  have r (ws : List HomeWrite) (f : FmtM) := (h (pkgRq ws) gRq sp f (by decide)).2.2.2
  refine ⟨((h pkg grp sp (fM 20 3 0 0 0 4 3 1 2 1 0) ?_).1 ?_ ?_ ?_ ?_ ?_ ?_ (by simp only [through_iff]; decide +kernel)).imp fun _ ⟨_, e⟩ => e.1,
    by rw [(h (pkgSd1 grp) grp sp (fM 20 3 0 0 0 4 3 1 2 1 0) (by decide)).2.1 0 1 3 (by decide) 0 (by decide)]; rfl,
    ⟨_, ((h (pkg.setGroup 0 0 gAq) gAq sp (fM 20 3 0 0 0 4 0 0 0 1 0) ?_).2.2.1 (gAq.infl.head (by decide)) ?_ ?_ ?_ ?_ ?_ ?_ ?_ ?_ ?_ ?_ ?_).1 ?_ ?_⟩,
    ⟨_, ((h (pkg.setGroup 0 0 gAq) gAq sp (fM 0 3 2 0 0 4 0 0 0 1 0) ?_).2.2.1 (gAq.infl.head (by decide)) ?_ ?_ ?_ ?_ ?_ ?_ ?_ ?_ ?_ ?_ ?_).2 ?_ ?_⟩,
    ((r [hwO] (one (fM 0 3 2 0 0 4 2 2 0 1 0)) 5 ?_ ?_ ?_ ?_ ?_ ?_ ?_ (by simp only [through_iff]; decide +kernel) ?_ ?_ ?_ ?_ ?_).1 hwO ?_ ?_ ?_ ?_ ?_ ?_ ?_).imp fun _ e => e.1,
    ((r [] (one (fM 0 3 2 0 0 4 2 2 0 1 0)) 5 ?_ ?_ ?_ ?_ ?_ ?_ ?_ (by simp only [through_iff]; decide +kernel) ?_ ?_ ?_ ?_ ?_).2.1 ?_ ?_ ?_ ?_).imp fun _ ⟨_, e⟩ => e.1,
    ((r [] (one (fM 0 3 2 0 0 4 3 2 0 1 0)) 5 ?_ ?_ ?_ ?_ ?_ ?_ ?_ (by simp only [through_iff]; decide +kernel) ?_ ?_ ?_ ?_ ?_).2.2 ?_ ?_).imp fun _ ⟨_, e⟩ => e.1⟩ <;>
  repeat' (first | decide +kernel | constructor)

/-- The package with a copy that owns a line. -/
def pkgOwn (l : Nat) (s : State) : State := s.updCore 0 (fun k => { k with eng0 := [{ mkCopy 70 with owned := [(l, (0, 1))] }] })

/-- `Clause.ReleaseFences` (rules R271, R305 and R325) applies here, with and without a copy that owns the dirty line. -/
theorem witness_releaseFences (h : Clause.ReleaseFences) :
    (∃ t, exec (.fence (fM 0 0 0 0 0 0 3 2 0 0 0)) (pkgSd1 grp) = .next t)
    ∧ (∃ t, exec (.fence (fM 0 0 0 0 0 0 3 2 0 0 0)) (pkgOwn 0 (pkgSd1 grp)) = .next t) := by
  refine ⟨((h (pkgSd1 grp) grp sp (fM 0 0 0 0 0 0 3 2 0 0 0) 0 L0d ?_ ?_ ?_ ?_ ?_ ?_ ?_ ?_ ?_ ?_ ?_ ?_ ?_ ?_ ?_ ?_ ?_ ?_ ?_ ?_).1 ?_).imp fun _ e => e.1,
    ((h (pkgOwn 0 (pkgSd1 grp)) grp sp (fM 0 0 0 0 0 0 3 2 0 0 0) 0 L0d ?_ ?_ ?_ ?_ ?_ ?_ ?_ ?_ ?_ ?_ ?_ ?_ ?_ ?_ ?_ ?_ ?_ ?_ ?_ ?_).2 ?_).imp fun _ ⟨_, e⟩ => e.1⟩ <;>
  repeat' (first | decide +kernel | constructor)

/-- `Obligations.CacheHints` (rules R271, R275, R307 and R308) applies here. -/
theorem witness_cacheHints (h : Obligations.CacheHints) :
    (∃ t, exec (.pref (mOff (fM 0 8 0 0 0 0 0 0 2 1 0))) pkg = .next t)
    ∧ (∃ t, exec (.pref (one (fM 0 3 0 0 0 0 0 0 2 1 0))) pkg3 = .next t)
    ∧ (∃ t, exec (.pref (one (fM 0 3 0 0 0 0 0 0 2 1 0))) (pkgOwn 0 pkg3) = .next t)
    ∧ (∃ t, exec (.l1inv (fM 0 0 0 0 0 1 0 0 0 1 1)) pkg = .next t)
    ∧ (∃ t, exec (.l1flush (fM 0 0 0 0 0 1 0 0 0 1 1)) (pkgL [Lx]) = .next t) := by
  refine ⟨(((h pkg grp sp (mOff (fM 0 8 0 0 0 0 0 0 2 1 0)) ?_ ?_).1 ?_ ?_).1 ?_).imp fun _ e => e.1,
    (((h pkg3 grp3 sp (one (fM 0 3 0 0 0 0 0 0 2 1 0)) ?_ ?_).1 ?_ ?_).2.1 5 ?_ ?_ ?_ ?_ ?_ ?_ ?_ ?_).imp fun _ ⟨_, e⟩ => e.1,
    (((h (pkgOwn 0 pkg3) grp3 sp (one (fM 0 3 0 0 0 0 0 0 2 1 0)) ?_ ?_).1 ?_ ?_).2.2 5 ?_ ?_ ?_ ?_).imp fun _ e => e.1,
    ((h pkg grp sp (fM 0 0 0 0 0 1 0 0 0 1 1) ?_ ?_).2.1 ?_ ?_ ?_ ?_).imp fun _ e => e.1,
    ((h (pkgL [Lx]) grp sp (fM 0 0 0 0 0 1 0 0 0 1 1) ?_ ?_).2.2 Lx ?_ ?_ ?_ ?_ ?_ ?_ ?_ ?_ ?_ ?_ ?_ ?_ ?_ ?_ ?_).imp fun _ ⟨_, e⟩ => e.1⟩ <;>
  repeat' (first | decide +kernel | constructor)

def winA (st : Tab (LineSt × Nat)) : Win := { va := 0x8000, wr := true, lines := 2, off := 256, st := st }

def tmW (st : Tab (LineSt × Nat)) : Team := { team0 with wins := [(0, winA st)] }

def pkgWin (st : Tab (LineSt × Nat)) : State := { pkgS with teams := [(0, tmW st)] } where pkgS := pkg

def gM : Group := { grp with regs := { grp.regs with k := grp.regs.k ++ [(9, BitVec.ofNat 64 (2^37 + 2^26 + 0x200)), (10, 0x10005), (11, 20)] } }

def pkgMm : State := pkg.setGroup 0 0 gM

/-- The package with a window, and another group of the team whose LDL waits for a line of it. -/
def pkgWa : State := (pkgWin []).updCore 0 (fun k => { k with slots := k.slots ++ [(1, { grp with gid := 2, idx := 1, infl :=
  [{ id := 3, split := 0, pc := 0, kind := .lload, acc := { lanes := [{ lane := 0, addr := 256, mig := some (258, 0) }] } }] })] })

/-- `Clause.StashWindows` (rules R264, R265, R309 and R310) applies here. -/
theorem witness_stashWindows (h : Clause.StashWindows) :
    (∃ t, exec (.stmap (fM 0 4 9 0 0 0 0 0 0 0 1)) pkgMm = .next t)
    ∧ (∃ t, exec (.stunmap (fM 0 0 0 0 0 0 0 0 0 0 0)) (pkgWin []) = .next t)
    ∧ (∃ t, exec (.stflush (fM 0 0 0 0 0 0 0 0 0 0 0)) (pkgWin []) = .next t)
    ∧ (∃ t, exec (.stflush (fM 0 0 0 0 0 0 0 0 0 0 0)) (pkgWin [(1, LineSt.m, 258)]) = .next t)
    ∧ (∃ t, exec (.stunmap (fM 0 0 0 0 0 0 0 0 0 0 0)) pkgWa = .next t) := by
  refine ⟨((h pkgMm gM sp (fM 0 4 9 0 0 0 0 0 0 0 1) team0 ?_ ?_ ?_ ?_ ?_).1 ?_ ?_ ?_ ?_ ?_ ?_ ?_ ?_ ?_ ?_).imp fun _ e => e.1,
    (((h (pkgWin []) grp sp (fM 0 0 0 0 0 0 0 0 0 0 0) (tmW []) ?_ ?_ ?_ ?_ ?_).2.1 (winA []) ?_ ?_ ?_).1 ?_ ?_).imp fun _ ⟨_, e⟩ => e.1,
    (((h (pkgWin []) grp sp (fM 0 0 0 0 0 0 0 0 0 0 0) (tmW []) ?_ ?_ ?_ ?_ ?_).2.1 (winA []) ?_ ?_ ?_).2.1 ?_ ?_).imp fun _ e => e.1,
    (((h (pkgWin [(1, (.m, 258))]) grp sp (fM 0 0 0 0 0 0 0 0 0 0 0) (tmW [(1, (.m, 258))]) ?_ ?_ ?_ ?_ ?_).2.1 (winA [(1, (.m, 258))]) ?_ ?_ ?_).2.2 1 258 ?_ ?_ ?_ ?_ ?_).imp fun _ e => e.1,
    ((h pkgWa grp sp (fM 0 0 0 0 0 0 0 0 0 0 0) (tmW []) ?_ ?_ ?_ ?_ ?_).2.2 ?_ ?_ ?_ _ (.head _) ?_).imp fun _ e => e.1⟩ <;>
  repeat' (first | decide +kernel | constructor)

def aw (c t g v : Nat) : Team := team0.put 0x100 (bytesOf (t*2^32+c) 8 ++ bytesOf (v*2^17 + g) 8)

def pkgAw (T : Team) : State := { pkgMm with teams := [(0, T)] }

/-- The test group with `v` in u12. -/
def gAw (v : W64) : Group := { gM with regs := { gM.regs with k := gM.regs.k ++ [(12, v)] } }

def pkgAwG (T : Team) (v : W64) : State := { pkg.setGroup 0 0 (gAw v) with teams := [(0, T)] }

/-- `Clause.ArrivalWords` (rules R267, R268, R311 and R312) applies here. -/
theorem witness_arrivalWords (h : Clause.ArrivalWords) :
    (∃ t, exec (.awinit (fM 2 4 11 0 0 0 0 0 0 0 1)) (pkgAw (aw 5 100 7 1)) = .next t)
    ∧ (∃ t, exec (.awinit (fM 2 4 1 0 0 0 0 0 0 0 1)) (pkgAw (aw 5 100 7 1)) = .next t)
    ∧ (∃ t, exec (.awinit (fM 2 4 12 0 0 0 0 0 0 0 1)) (pkgAwG (aw 5 100 7 1) 0xFFFFFFFF) = .next t)
    ∧ (∃ t, exec (.awinit (fM 2 4 12 0 0 0 0 0 0 0 1)) (pkgAwG (aw 5 100 7 1) 0) = .next t)
    ∧ (∃ t, exec (.awinit (fM 2 4 12 0 0 0 0 0 0 0 1)) (pkgAwG (aw 5 100 7 1) 0x100000000) = .next t)
    ∧ (∃ t, exec (.awadd (fM 2 4 11 0 0 0 0 0 0 0 1)) (pkgAw (aw 5 100 7 1)) = .next t)
    ∧ (∃ t, exec (.awwait (fM 2 4 12 0 0 0 0 0 0 0 1)) (pkgAwG (aw 5 100 7 1) 7) = .next t)
    ∧ (∃ t, exec (.awwait (fM 2 4 11 0 0 0 0 0 0 0 1)) (pkgAw (aw 5 100 7 1)) = .next t) := by
  refine ⟨(((h (pkgAw (aw 5 100 7 1)) gM sp (fM 2 4 11 0 0 0 0 0 0 0 1) (aw 5 100 7 1) ?_ ?_ ?_ ?_ ?_ ?_ ?_ ?_ ?_ ?_ ?_).1 ?_).2 ?_ ?_).imp fun _ ⟨_, _, e⟩ => e.1,
    (((h (pkgAw (aw 5 100 7 1)) gM sp (fM 2 4 1 0 0 0 0 0 0 0 1) (aw 5 100 7 1) ?_ ?_ ?_ ?_ ?_ ?_ ?_ ?_ ?_ ?_ ?_).1 ?_).2 ?_ ?_).imp fun _ ⟨_, _, e⟩ => e.1,
    (((h (pkgAwG (aw 5 100 7 1) 0xFFFFFFFF) (gAw 0xFFFFFFFF) sp (fM 2 4 12 0 0 0 0 0 0 0 1) (aw 5 100 7 1) ?_ ?_ ?_ ?_ ?_ ?_ ?_ ?_ ?_ ?_ ?_).1 ?_).2 ?_ ?_).imp fun _ ⟨_, _, e⟩ => e.1,
    ⟨_, ((h (pkgAwG (aw 5 100 7 1) 0) (gAw 0) sp (fM 2 4 12 0 0 0 0 0 0 0 1) (aw 5 100 7 1) ?_ ?_ ?_ ?_ ?_ ?_ ?_ ?_ ?_ ?_ ?_).1 ?_).1 ?_⟩,
    ⟨_, ((h (pkgAwG (aw 5 100 7 1) 0x100000000) (gAw 0x100000000) sp (fM 2 4 12 0 0 0 0 0 0 0 1) (aw 5 100 7 1) ?_ ?_ ?_ ?_ ?_ ?_ ?_ ?_ ?_ ?_ ?_).1 ?_).1 ?_⟩,
    ((h (pkgAw (aw 5 100 7 1)) gM sp (fM 2 4 11 0 0 0 0 0 0 0 1) (aw 5 100 7 1) ?_ ?_ ?_ ?_ ?_ ?_ ?_ ?_ ?_ ?_ ?_).2.1 ?_).imp fun _ ⟨_, _, e⟩ => e.1,
    (((h (pkgAwG (aw 5 100 7 1) 7) (gAw 7) sp (fM 2 4 12 0 0 0 0 0 0 0 1) (aw 5 100 7 1) ?_ ?_ ?_ ?_ ?_ ?_ ?_ ?_ ?_ ?_ ?_).2.2 ?_).1 ?_).imp fun _ e => e.1,
    (((h (pkgAw (aw 5 100 7 1)) gM sp (fM 2 4 11 0 0 0 0 0 0 0 1) (aw 5 100 7 1) ?_ ?_ ?_ ?_ ?_ ?_ ?_ ?_ ?_ ?_ ?_).2.2 ?_).2 ?_).imp fun _ e => e.1⟩ <;>
  repeat' (first | decide +kernel | constructor)

/-- `Clause.CounterWaits` (rule R314) applies here. -/
theorem witness_counterWaits (h : Clause.CounterWaits) :
    (∃ t, exec (.cwait (fM 0 4 2 0 0 5 0 0 0 0 1)) pkg = .next t) ∧ (∃ t, exec (.cwait (fM 0 4 0 0 0 5 0 0 0 0 1)) pkg = .next t) := by
  refine ⟨((h pkg grp sp (fM 0 4 2 0 0 5 0 0 0 0 1) 0 [1, 2, 3, 4, 5, 6, 7, 8, 9, 10, 11, 12, 13, 14, 15] ?_ ?_ ?_ ?_ ?_ ?_ ?_ ?_ ?_ ?_).2 ?_).imp fun _ e => e.1,
    ((h pkg grp sp (fM 0 4 0 0 0 5 0 0 0 0 1) 0 [1, 2, 3, 4, 5, 6, 7, 8, 9, 10, 11, 12, 13, 14, 15] ?_ ?_ ?_ ?_ ?_ ?_ ?_ ?_ ?_ ?_).1 ?_).imp fun _ e => e.1⟩ <;>
  repeat' (first | decide +kernel | constructor)

def gF (i : Inflight) : Group := { grp with infl := [i] }

def pkgF1 (i : Inflight) : State := { pkg.setGroup 0 0 (gF i) with mem := [(0x101, 7), (0x102, 0x80)] }

def acL (k : IKind) (acc : Acc) (d : Nat) (m : Mask) (kr : Nat) : Inflight := { id := 3, split := 0, pc := 0x10000, kind := k, acc := acc, writes := readWrites d kr m }

def acc1 : Acc := { size := 2, sx := true, lanes := [⟨0,0x100,0x100,none,0,0⟩, ⟨3,0x102,0x102,none,0,0⟩], got := [(0x100,1),(0x101,7),(0x102,0),(0x103,0x80)] }

def i1 : Inflight := acL .load acc1 5 0x9 1

def i3 : Inflight := acL .atom { size := 4, opc := 0, lanes := [⟨2,0x100,0x100,none,5,0⟩] } 5 0x4 1

/-- `Obligations.ReadsReturn` (rules R296, R298, R303, R305 and R325) applies here. -/
theorem witness_readsReturn (h : Clause.DataReturns) :
    (∃ t, exec (.loadDataReturn 0 0 3) (pkgF1 i1) = .next t)
    ∧ (∃ t, exec (.loadDataReturn 0 0 3) (pkgF1 i3) = .next t) := by
  refine ⟨((h (pkgF1 i1) (0) (0) (3) (gF i1) i1 (5) (1) (0x9) ?_ ?_ ?_ ?_ ?_ ?_).1 ?_).imp fun _ ⟨_, e⟩ => e.1,
    ((h (pkgF1 i3) (0) (0) (3) (gF i3) i3 (5) (1) (0x4) ?_ ?_ ?_ ?_ ?_ ?_).2 (List.head (i3.acc.lanes) (by decide +kernel)) ?_ ?_ ?_ ?_ ?_ ?_ ?_ ?_ ?_ ?_).imp fun _ ⟨_, e⟩ => e.1⟩ <;>
  repeat' (first | decide +kernel | constructor)

/-- `Clause.AtomicValues` (rules R119 and R302) applies here. -/
theorem witness_atomicValues (h : Clause.AtomicValues) : atomOp 0 4 0xFFFFFFFF 1 0 = 0 :=
  (h 4 0xFFFFFFFF 1 0 (by decide) (by decide) (by decide) (by decide)).1

def hw : HomeWrite := ⟨8,0,1,0,3,[(0x100,9),(0x101,8),(0x100,7)],[],false,false,[],none,[]⟩

def pkgHw (h : HomeWrite) : State := { pkg with cores := [(0, { (pkg.core 0) with homeq := [h] })] }

/-- `Clause.WritesReachHome` (rules R269, R290, R292 and R321) applies here. -/
theorem witness_writesReachHome (h : Clause.WritesReachHome) : (∃ t, exec (.writeAtHome 0 hw.id) (pkgHw hw) = .next t) := by
  refine (h (pkgHw hw) (0) hw ?_ ?_ ?_ ?_ ?_ ?_ ?_ ?_ ?_ ?_).imp fun _ e => e.1 <;>
  decide +kernel

def hwR : HomeWrite := ⟨8,0,1,0,3,[(2^50+3*2^40+0x100,9),(2^50+3*2^40+0x101,8)],[],false,false,[],none,[]⟩

def pkgHr : State := { pkgHw hwR with uroute := [(3, 1)], ports := [(0, { state := 2, peer := true })] }

/-- A write's transaction. -/
def xAk : Xact := ⟨8, 3, 0, 0, 0, .write 0x100 [9, 8] [], 0, 0, 1, 3, 8, 0⟩

/-- The package with a write sent as transaction 8 and another that has not been sent. -/
def pkgAk : State := { pkgHr with xacts := [xAk], cores := [(0, { (pkg.core 0) with homeq := [hwR, { hwR with id := 9, xid := some 8 }] })] }

/-- `Clause.WritesToPackages` (rules R331, R336, R437 and R438) applies here. -/
theorem witness_writesToPackages (h : Clause.WritesToPackages) :
    (∃ t, exec (.writeAtHome 0 hwR.id) pkgHr = .next t) ∧ (∃ t, exec (.writeAtHome 0 hwR.id) (pkgOwn ((2 ^ 50 + 3 * 2 ^ 40 + 0x100) / 128) pkgHr) = .next t)
    ∧ (∃ t, exec (.writeAck 8) pkgAk = .next t) := by
  refine ⟨((h pkgHr (0) hwR ((2 ^ 50 + 3 * 2 ^ 40 + 0x100)) (9) ([(2 ^ 50 + 3 * 2 ^ 40 + 0x101, 8)]) ?_ ?_ ?_ ?_).2.1 ?_ ?_ ?_).imp fun _ ⟨_, e⟩ => e.1,
    ⟨_, (h (pkgOwn ((2 ^ 50 + 3 * 2 ^ 40 + 0x100) / 128) pkgHr) (0) hwR ((2 ^ 50 + 3 * 2 ^ 40 + 0x100)) (9) ([(2 ^ 50 + 3 * 2 ^ 40 + 0x101, 8)]) ?_ ?_ ?_ ?_).1 ?_⟩,
    ((h pkgAk (0) hwR ((2 ^ 50 + 3 * 2 ^ 40 + 0x100)) (9) ([(2 ^ 50 + 3 * 2 ^ 40 + 0x101, 8)]) ?_ ?_ ?_ ?_).2.2 xAk 0x100 [9, 8] [] ?_ ?_).imp fun _ e => e.1⟩ <;>
  decide +kernel

/-- A modified window line to be recalled. -/
def pkgSr : State := { pkg with teams := [(0, { team0 with wins := [(0, winA [(1, .m, 258)])] })] }

/-- A page that migrates, with its new frame at 1 GiB and its bitmap at 2 GiB. -/
def pkgMv : State :=
  { pkg with
    teams := [], parts := [(0, { ttb := ttbV, ctl := 2 })]
    mem := memSetAll [(0x30085, 9)] (cellsAt (2 * 2 ^ 25 + 128 * bucketOf 0x30000 0)
      (bytesOf (2 ^ 63 + 2 ^ 62 + 2 ^ 61 + 2 ^ 60 + 3) 8 ++ bytesOf 0x30000 8 ++ bytesOf 0x40000000 8 ++ bytesOf 0x80000000 8)) }
where ttbV : W64 := BitVec.ofNat 64 (15 * 2 ^ 60 + 2 * 2 ^ 25)

/-- Its entry. -/
def eMv : TlbEnt := (matchAt pkgMv.mem (pkgMv.part 0).ttb 0 0x30080).getD page

def iMs : Inflight := { acL .load { acc1 with got := [] } 5 0x9 1 with }

def pkgMs (l : List L1Line) : State := { pkgF1 iMs with mem := [(0x101, 7), (0x140, 0x80)], cores := [(0, { ((pkgF1 iMs).core 0) with l1 := l }), (1, {})] }

/-- `Clause.L1Lines` (rules R269, R270 and R272) applies here. -/
theorem witness_l1Lines (h : Clause.L1Lines) :
    (∃ t, exec (.l1MissFill 0 2) (pkgMs [Lx]) = .next t)
    ∧ (∃ t, exec (.l1MissFill 0 2) (pkgMs []) = .next t)
    ∧ (∃ t, exec (.l1Eviction 0 2) (pkgL [Lx]) = .next t) := by
  refine ⟨((h (pkgMs [Lx]) (0) (2) ?_ ?_ ?_ ?_ ?_ ?_ ?_ ?_).1 (Option.get ((((pkgMs [Lx]).core 0).l1line 2)) (by decide +kernel)) ?_ ?_).imp fun _ ⟨_, e⟩ => e.1,
    ((h (pkgMs []) (0) (2) ?_ ?_ ?_ ?_ ?_ ?_ ?_ ?_).2.1 ?_ ?_).imp fun _ ⟨_, e⟩ => e.1,
    ((h (pkgL [Lx]) (0) (2) ?_ ?_ ?_ ?_ ?_ ?_ ?_ ?_).2.2 (List.head (((pkgL [Lx]).core 0).l1) (by decide +kernel)) ?_ ?_ ?_ ?_ ?_).imp fun _ e => e.1⟩ <;>
  decide +kernel

def pkgP (q : Packet) : State := { pkgF1 iG with cycle := 64, cores := [(0, { ((pkgF1 iG).core 0) with packets := [q] })] } where iG := { acL .gather { size := 2, sx := true, lanes := [⟨4,0x101,0x101,none,0,0⟩], wait := [4] } 5 0x10 1 with }

def pkQ (w d sv : Bool) : Packet := { pk w with departed := d, served := sv, data := if sv then [(0x101, 7), (0x102, 0x80)] else [] }

/-- `Clause.Packets` (rules R284, R285, R286 and R301) applies here. -/
theorem witness_packets (h : Clause.Packets) :
    (∃ t, exec (.packetOpenTimeout 0 (pk false).id) (pkgP (pk false)) = .next t)
    ∧ (∃ t, exec (.packetIdleTimeout 0 (pk false).id) (pkgP (pk false)) = .next t)
    ∧ (∃ t, exec (.gatherExpander 0 (pkQ false true false).id) (pkgP (pkQ false true false)) = .next t)
    ∧ (∃ t, exec (.gatherExpander 0 (pkQ true true false).id) (pkgP (pkQ true true false)) = .next t)
    ∧ (∃ t, exec (.packetReturn 0 (pkQ false true true).id) (pkgP (pkQ false true true)) = .next t) := by
  refine ⟨((h (pkgP (pk false)) (0) (pk false) ?_).1 ?_).imp fun _ e => e.1,
    ((h (pkgP (pk false)) (0) (pk false) ?_).2.1 ?_).imp fun _ e => e.1,
    (((h (pkgP (pkQ false true false)) (0) (pkQ false true false) ?_).2.2.1 ?_ ?_ ?_ ?_).1 ?_).imp fun _ e => e.1,
    (((h (pkgP (pkQ true true false)) (0) (pkQ true true false) ?_).2.2.1 ?_ ?_ ?_ ?_).2 ?_ ?_ ?_ ?_).imp fun _ e => e.1,
    ((h (pkgP (pkQ false true true)) (0) (pkQ false true true) ?_).2.2.2 (List.head ((pkQ false true true).reqs) (by decide +kernel)) (Option.get (((pkgP (pkQ false true true)).group 0 (List.head ((pkQ false true true).reqs) (by decide +kernel)).slot)) (by decide +kernel)) (List.head ((Option.get (((pkgP (pkQ false true true)).group 0 (List.head ((pkQ false true true).reqs) (by decide +kernel)).slot)) (by decide +kernel)).infl) (by decide +kernel)) 5 1 ((List.head ((List.head ((Option.get (((pkgP (pkQ false true true)).group 0 (List.head ((pkQ false true true).reqs) (by decide +kernel)).slot)) (by decide +kernel)).infl) (by decide +kernel)).writes) (by decide +kernel)).mask) ?_ ?_ ?_ ?_ ?_ ?_ ?_ ?_ ?_ ?_ ?_ ?_).imp fun _ ⟨_, e⟩ => e.1⟩ <;>
  repeat' (first | decide +kernel | constructor)

def Wsf : Win := { va := 0x8000, wr := true, lines := 2, off := 256, need := [(1, (true, 0))] }

def Tsf : Team := { team0 with wins := [(0, Wsf)] }

def pkgSf : State := { pkg with teams := [(0, Tsf)] }

/-- `Clause.StashLines` (rules R264, R265, R282, R331, R333 and R337) applies here: a fill, and one held up by a copy; a recall, a line that its copy
passes on, and a migrating line. -/
theorem witness_stashLines (h : Clause.StashLines) :
    (∃ t, exec (.stashFill 0 0 1) pkgSf = .next t) ∧ (∃ t, exec (.stashFill 0 0 1) (pkgOwn 0 pkgSf) = .next t)
    ∧ (∃ t, exec (.stashRecall 0 0 1) pkgSr = .next t) ∧ (∃ t, exec (.copyRecall 0 5) (pkgOwn 5 pkg) = .next t)
    ∧ (∃ t, exec (.migrationLineCopy 0 0x30080) pkgMv = .next t) := by
  refine ⟨((h.1 pkgSf (0) Tsf (0) Wsf (1) true ((List.head (Wsf.need) (by decide +kernel)).2.2) ?_ ?_ ?_ ?_).2 ?_ ?_ ?_ ?_ ?_).imp fun _ ⟨_, e⟩ => e.1,
    ⟨_, (h.1 (pkgOwn 0 pkgSf) (0) Tsf (0) Wsf (1) true 0 ?_ ?_ ?_ ?_).1 ?_⟩,
    (h.2.1 pkgSr 0 _ 0 (winA [(1, .m, 258)]) 1 258 rfl ?_ ?_ ?_ ?_ ?_ ?_).imp fun _ e => e.1,
    (h.2.2.1 (pkgOwn 5 pkg) 0 5 { mkCopy 70 with owned := [(5, (0, 1))] } 1 ?_ ?_ ?_ ?_).imp fun _ e => e.1,
    (h.2.2.2 pkgMv 0 0x30080 eMv 0x40000080 (8 * 0x80000000 + 1) ?_ ?_ ?_ ?_ ?_ ?_ ?_ ?_ ?_ ?_ ?_ ?_ ?_ ?_).imp fun _ e => e.1⟩ <;>
  decide +kernel

def iPr : Inflight := { id := 3, split := 0, pc := 0, kind := .atom, ref := 77, acc := { prom := true, lanes := [⟨0,0x105,0x105,none,0,0⟩], wait := [1, 2] } }

def pkgPr (l : List L1Line) : State := { pkg.setGroup 0 0 (gF iPr) with cores := [(0, ((pkg.setGroup 0 0 (gF iPr)).core 0)), (1, { l1 := l })] }

def Lr : L1Line := { Lx with lrel := true }

/-- `Clause.Probes` (rules R329 and R330) applies here. -/
theorem witness_probes (h : Clause.Probes) :
    (∃ t, exec (.promotionProbe 1 iPr.ref) (pkgPr []) = .next t)
    ∧ (∃ t, exec (.promotionProbe 1 iPr.ref) (pkgPr [Lr]) = .next t) := by
  refine ⟨((h (pkgPr []) (0) (0) (1) (gF iPr) iPr ([2]) ?_ ?_ ?_ ?_ ?_).1 ?_ ?_).imp fun _ e => e.1,
    ((h (pkgPr [Lr]) (0) (0) (1) (gF iPr) iPr ([2]) ?_ ?_ ?_ ?_ ?_).2 (List.head (((pkgPr [Lr]).core 1).l1) (by decide +kernel)) _ (.head _) ?_ ?_ ?_ ?_ ?_ ?_ ?_ ?_ ?_ ?_ ?_ ?_ ?_).imp fun _ ⟨_, e⟩ => e.1⟩ <;>
  decide +kernel

def fX (d a b c fbk cwk xop : Nat) : FmtX := ⟨.ofNat _ d, .ofNat _ a, .ofNat _ b, .ofNat _ c, 0,0,0, .ofNat _ fbk, 0, 0, .ofNat _ cwk, .ofNat _ xop⟩

def gX : Group := { grp with regs := { grp.regs with k := grp.regs.k ++ [(20, 0x11), (21, 0), (22, 0x30000), (23, 3*2^26), (24, 0x100), (25, 15*2^28), (26, 2^24 + 0x100), (27, 2^48+2^24+0x100), (28, 0x100), (29, 0x1FF), (30, 0), (31, 0x66)] }, walk := some ⟨0x100, 2, 3, 2, 5⟩ }

def tX : Team := { team0 with base := 4, limit := 12, ls := [(0x100, 0x35), (0x101, 0x11)] }

def pkgX : State := { pkg.setGroup 0 0 gX with teams := [(0, tX)] }

def gXs : Group := { gX with regs := { gX.regs with k := gX.regs.k ++ [(32, 0x220), (33, 0x400)] } }

def pkgXs : State := { pkg.setGroup 0 0 gXs with teams := [(0, tX)] }

/-- `Clause.WeightLoads` (rules R209, R214, R224, R236 and R240 to R242) applies here. -/
theorem witness_weightLoads (h : Clause.WeightLoads) :
    (∃ t, exec (.tldw (fX 0 4 23 0 20 0 0)) pkgX = .next t)
    ∧ (∃ t, exec (.tldws (fX 0 4 23 33 20 32 0)) pkgXs = .next t) := by
  refine ⟨(h (Instr.tldw) false ((by simp)) pkgX gX sp tX (fX 0 4 23 0 20 0 0) ?_ ?_ ?_ ?_ ?_ ?_ ?_ ?_ ?_ ?_).imp fun _ ⟨_, e⟩ => e.1,
    (h (Instr.tldws) true ((by simp)) pkgXs gXs sp tX (fX 0 4 23 33 20 32 0) ?_ ?_ ?_ ?_ ?_ ?_ ?_ ?_ ?_ ?_).imp fun _ ⟨_, e⟩ => e.1⟩ <;>
  repeat' (first | decide +kernel | constructor)

/-- `Clause.Multiplies` (rules R206, R214, R223, R236, R244 and R245) applies here. -/
theorem witness_multiplies (h : Clause.Multiplies) :
    (∃ t, exec (.tmma (fX 0 4 0 22 20 21 0)) pkgX = .next t)
    ∧ (∃ t, exec (.tmmaq (fX 0 0 0 22 20 21 0)) pkgX = .next t)
    ∧ (∃ t, exec (.tfeed (fX 0 27 0 0 0 0 0)) pkgX = .next t) := by
  refine ⟨(((h pkgX gX sp tX (fX 0 4 0 22 20 21 0) ?_ ?_).1 ?_ ?_ ?_).1 ?_ ?_ ?_).imp fun _ ⟨_, e⟩ => e.1,
    ((h pkgX gX sp tX (fX 0 0 0 22 20 21 0) ?_ ?_).2.1 (Option.get (gX.walk) (by decide +kernel)) ?_ ?_ ?_ ?_ ?_).imp fun _ ⟨_, e⟩ => e.1,
    ((h pkgX gX sp tX (fX 0 27 0 0 0 0 0) ?_ ?_).2.2 ?_ ?_ ?_ ?_ ?_ ?_ ?_ ?_).imp fun _ ⟨_, e⟩ => e.1⟩ <;>
  repeat' (first | decide +kernel | constructor)

/-- `Clause.RowInstructions` (rules R214, R223, R230, R236 and R247 to R250) applies here. -/
theorem witness_rowInstructions (h : Clause.RowInstructions) :
    (∃ t, exec (.tzero (fX 0 0 0 0 0 0 0)) pkgX = .next t)
    ∧ (∃ t, exec (.tzero (fX 0 0 0 29 0 0 0)) pkgX = .next t)
    ∧ (∃ t, exec (.tdrain (fX 0 0 0 0 0 0 0)) pkgX = .next t)
    ∧ (∃ t, exec (.thist (fX 20 30 0 0 0 0 2)) pkgX = .next t)
    ∧ (∃ t, exec (.twait (fX 0 0 0 0 0 0 0)) pkgX = .next t) := by
  refine ⟨(((h pkgX gX sp tX (fX 0 0 0 0 0 0 0) ?_ ?_ ?_).1 ?_ ?_).1 ?_).imp fun _ ⟨_, e⟩ => e.1,
    ⟨_, ((h pkgX gX sp tX (fX 0 0 0 29 0 0 0) ?_ ?_ ?_).1 ?_ ?_).2 ?_⟩,
    ((h pkgX gX sp tX (fX 0 0 0 0 0 0 0) ?_ ?_ ?_).2.1 ?_ ?_ ?_ ?_ ?_ ?_ ?_ ?_).imp fun _ ⟨_, e⟩ => e.1,
    ((h pkgX gX sp tX (fX 20 30 0 0 0 0 2) ?_ ?_ ?_).2.2.1 ?_ ?_ ?_).imp fun _ ⟨_, e⟩ => e.1,
    (((h pkgX gX sp tX (fX 0 0 0 0 0 0 0) ?_ ?_ ?_).2.2.2 ?_ ?_).1 ?_).imp fun _ e => e.1⟩ <;>
  repeat' (first | decide +kernel | constructor)

/-- `Clause.TermValues` (rules R106, R223, R251 to R254) applies here. -/
theorem witness_termValues (h : Clause.TermValues) :
    (∃ t, exec (.twin (fX 9 0 0 0 0 0 0)) pkgX = .next t)
    ∧ (∃ t, exec (.tbound (fX 9 0 0 22 20 21 0)) pkgX = .next t)
    ∧ (∃ t, exec (.trecode (fX 9 0 0 0 0 0 0)) pkgX = .next t)
    ∧ (∃ t, exec (.tdecode (fX 9 0 0 0 0 0 0)) pkgX = .next t)
    ∧ (∃ t, exec (.trecode (fX 9 0 0 20 20 0 0)) pkgX = .next t)
    ∧ (∃ t, exec (.tdecode (fX 9 20 0 0 20 0 0)) pkgX = .next t) := by
  refine ⟨((h pkgX gX sp tX (fX 9 0 0 0 0 0 0) ?_).1 ?_).imp fun _ ⟨_, e⟩ => e.1,
    ((h pkgX gX sp tX (fX 9 0 0 22 20 21 0) ?_).2.1 ?_ ?_ ?_ ?_ ?_).imp fun _ e => e.1,
    ((h pkgX gX sp tX (fX 9 0 0 0 0 0 0) ?_).2.2.1 ?_ ?_ ?_ ?_ ?_ ?_ ?_ ?_ ?_).imp fun _ e => e.1,
    ((h pkgX gX sp tX (fX 9 0 0 0 0 0 0) ?_).2.2.2.1 ?_ ?_ ?_ ?_ ?_ ?_ ?_ ?_).imp fun _ e => e.1,
    ⟨_, ((h pkgX gX sp tX (fX 9 0 0 20 20 0 0) ?_).2.2.2.2 ?_ ?_).1 ?_ ?_ ?_ ?_⟩,
    ⟨_, ((h pkgX gX sp tX (fX 9 20 0 0 20 0 0) ?_).2.2.2.2 ?_ ?_).2 ?_ ?_ ?_ ?_⟩⟩ <;>
  repeat' (first | decide +kernel | constructor)

/-- What `Sampled` asks for, as a check. -/
theorem sampled_of {s : State} {e : TermEntry} (h : (s.teams.find e.tid).all (fun T => decide (T.wins = [] ∧ T.lsBad = []
    ∧ T.bytes e.off e.bytes.length = e.bytes ∧ T.bytes e.ioff e.ibytes.length = e.ibytes)) = true) : Sampled s e :=
  fun T hT => by simpa [hT] using h

def e0 (k : TKind) : TermEntry := { id := 5, kind := k, slot := 0, gid := 1, iid := 3, tid := 0, idx := 0, part := 0, split := 0, w := 16, head := 0, fb := 0x11 }

def eL1 : TermEntry := { e0 .load with word := 3*2^26, els := [1,0,255,7], tid := 5 }

def pkgQ (e : TermEntry) : State := { pkgX with cycle := 100, cores := [(0, { (pkgX.core 0) with tq := [e] })] }

def pkgR (e : TermEntry) (g : Group) : State := { pkgX with cycle := 100, cores := [(0, { (pkgX.core 0) with trun := [e], slots := [(0,g)], acc := [(1024*3+5, 7), (1024*9, 8)], marks := [(3, 1)] })] }

/-- `Clause.LoadEvents` (rules R209, R214, R240 and R242) applies here. -/
theorem witness_loadEvents (h : Clause.LoadEvents) :
    (∃ t, exec (.weightLoadStart 0) (pkgQ eL1) = .next t)
    ∧ (∃ t, exec (.weightLoadStart 0) (pkgQ { eL1 with head := 500 }) = .next t)
    ∧ (∃ t, exec (.weightLoadComplete 0 ({ eL1 with done := 200 }).id) (pkgR ({ eL1 with done := 200 }) gX) = .next t)
    ∧ (∃ t, exec (.weightLoadComplete 0 eL1.id) (pkgR eL1 gX) = .next t) := by
  refine ⟨(((h (pkgQ eL1) (0) eL1 ?_).1 (List.drop 1 ((pkgQ eL1).core 0).tq) ?_ ?_ ?_ ?_ ?_ ?_).1 ?_ ?_).imp fun _ e => e.1,
    ⟨_, ((h (pkgQ { eL1 with head := 500 }) 0 { eL1 with head := 500 } ?_).1 [] ?_ ?_ ?_ ?_ ?_ ?_).2 ?_⟩,
    ⟨_, (h (pkgR { eL1 with done := 200 } gX) (0) ({ eL1 with done := 200 }) ?_).2.1 ?_ ?_⟩,
    ((h (pkgR eL1 gX) (0) eL1 ?_).2.2.1 ?_ ?_ ?_ ?_).imp fun _ e => e.1⟩ <;>
  repeat' (first | decide +kernel | exact sampled_of (by decide +kernel) | constructor)

def gI3 (ws : List RegW) : Group := { gX with infl := [{ id := 3, split := 0, pc := 0, kind := .term, writes := ws }] }

def eM : TermEntry := { e0 .mul with word := 0x30000, els := [1,2,3,4], row := 4, tid := 5, fill := 10 }

def eD : TermEntry := { e0 .drain with word := 15*2^28, row := 9, dst := 12, cnt := 1 }

def eZ : TermEntry := { e0 .zero with word := 0, row := 3 }

def pkgQb (e : TermEntry) : State := { pkgX with cycle := 100, cores := [(0, { (pkgX.core 0) with tq := [e], bank0 := { team := some 5, bfmt := 1, wfmt := 1, wts := [(0, 3), (1024, 5)] } })] }

def gZ : Group := { gX with infl := [{ id := 3, split := 0, pc := 0, kind := .term }] }

def eH : TermEntry := { e0 .hist with off := 2, word := 5, dst := 12, cnt := 3, outs := (List.range 3).map (fun r =>
  { sp := .vec, num := 12 + r, mask := fullMask 16, vals := placeReg [7, 8, 9] 32 16 r }) }

/-- `Clause.EntryEvents` (rules R214, R215, R218, R228, R230, R243, R245 and R247 to R249) applies here. -/
theorem witness_entryEvents (h : Clause.EntryEvents) :
    (∃ t, exec (.termEntryStart 0) (pkgQ eZ) = .next t)
    ∧ (∃ t, exec (.termEntryStart 0) (pkgQ eD) = .next t)
    ∧ (∃ t, exec (.termEntryStart 0) (pkgQ eH) = .next t)
    ∧ (∃ t, exec (.termEntryStart 0) (pkgQb eM) = .next t)
    ∧ (∃ t, exec (.termEntryStart 0) (pkgQb ({ eM with head := 500 })) = .next t)
    ∧ (∃ t, exec (.multiplyComplete 0 eM.id) (pkgR eM (gI3 [])) = .next t)
    ∧ (∃ t, exec (.termEntryComplete 0 eZ.id) (pkgR eZ gZ) = .next t)
    ∧ (∃ t, exec (.termEntryComplete 0 eD.id) (pkgR eD gZ) = .next t)
    ∧ (∃ t, exec (.termEntryComplete 0 eH.id) (pkgR eH gZ) = .next t) := by
  refine ⟨((h (pkgQ eZ) (0) eZ ?_).1 (List.drop 1 ((pkgQ eZ).core 0).tq) ?_ ?_ ?_ ?_ ?_ ?_).1 ?_ ?_ |>.imp fun _ e => e.1,
    (((h (pkgQ eD) (0) eD ?_).1 [] ?_ ?_ ?_ ?_ ?_ ?_).2.1 (Option.get ((pkgQ eD).group 0 eD.slot) (by decide +kernel)) ?_ ?_ ?_ ?_).imp fun _ ⟨_, e⟩ => e.1,
    (((h (pkgQ eH) (0) eH ?_).1 [] ?_ ?_ ?_ ?_ ?_ ?_).2.2.1 ?_ ?_).imp fun _ e => e.1,
    (((h (pkgQb eM) (0) eM ?_).1 (List.drop 1 ((pkgQb eM).core 0).tq) ?_ ?_ ?_ ?_ ?_ ?_).2.2.2.1 ?_ ?_ ?_ ?_ ?_).imp fun _ ⟨_, e⟩ => e.1,
    ⟨_, ((h (pkgQb { eM with head := 500 }) (0) ({ eM with head := 500 }) ?_).1 (List.drop 1 ((pkgQb ({ eM with head := 500 })).core 0).tq) ?_ ?_ ?_ ?_ ?_ ?_).2.2.2.2 ?_ ?_⟩,
    (((h (pkgR eM (gI3 [])) (0) eM ?_).2 (Option.get (((pkgR eM (gI3 [])).group 0 eM.slot)) (by decide +kernel)) (List.head ((Option.get (((pkgR eM (gI3 [])).group 0 eM.slot)) (by decide +kernel)).infl) (by decide +kernel)) ?_ ?_ ?_ ?_ ?_ ?_ ?_ ?_).1 ?_ ?_ ?_).imp fun _ ⟨_, e⟩ => e.1,
    (((h (pkgR eZ gZ) (0) eZ ?_).2 (Option.get (((pkgR eZ gZ).group 0 eZ.slot)) (by decide +kernel)) (List.head ((Option.get (((pkgR eZ gZ).group 0 eZ.slot)) (by decide +kernel)).infl) (by decide +kernel)) ?_ ?_ ?_ ?_ ?_ ?_ ?_ ?_).2.1 ?_).imp fun _ ⟨_, e⟩ => e.1,
    ((((h (pkgR eD gZ) (0) eD ?_).2 (Option.get (((pkgR eD gZ).group 0 eD.slot)) (by decide +kernel)) (List.head ((Option.get (((pkgR eD gZ).group 0 eD.slot)) (by decide +kernel)).infl) (by decide +kernel)) ?_ ?_ ?_ ?_ ?_ ?_ ?_ ?_).2.2 ?_ ?_).1 ?_).imp fun _ e => e.1,
    ((((h (pkgR eH gZ) (0) eH ?_).2 (Option.get (((pkgR eH gZ).group 0 eH.slot)) (by decide +kernel)) (List.head ((Option.get (((pkgR eH gZ).group 0 eH.slot)) (by decide +kernel)).infl) (by decide +kernel)) ?_ ?_ ?_ ?_ ?_ ?_ ?_ ?_).2.2 ?_ ?_).2 [7, 8, 9] ?_ ?_).imp fun _ e => e.1⟩ <;>
  repeat' (first | decide +kernel | exact sampled_of (by decide +kernel) | constructor)

/-- `Clause.RecodedElements` (rules R105 to R110, R253 and R254) applies here: the code of 1.5 and the zero code of E4M3, and a block of one element. -/
theorem witness_recodedElements (h : Clause.RecodedElements) :
    (∃ X ts, recodeElem 2 0x3C = .terms X ts) ∧ recodeElem 2 0 = .zero
    ∧ (blockBytes 2 [.terms 7 [(false, 3)]]).length = 32 ∧ (readBlocks 2 (blocksOf 2 [.terms 7 [(false, 3)]] 1) 1 1).1.take 1 = [.terms 7 [(false, 3)]] := by
  have v : termValue 2 0x3C = .num false 12 (-3) := by decide
  have z : termValue 2 0 = .num false 0 (-9) := by decide
  have f : ∀ e ∈ [TElem.terms 7 [(false, 3)]], e.Fits 2 := by simp [TElem.Fits, tparam]
  have r := h 2 (by decide)
  have c := (r.2.1 0x3C (by decide)).2.2.2.2
  rw [v] at c
  have d := (r.2.1 0 (by decide)).2.2.2.1
  rw [z] at d
  exact ⟨(c rfl (by norm_num [FVal.rat])).imp fun _ ⟨ts, e⟩ => ⟨ts, e.1⟩, (d rfl (by norm_num [FVal.rat])).1,
    (r.2.2.2.2.1 [.terms 7 [(false, 3)]] (by decide) f).1, (r.2.2.2.2.2 [.terms 7 [(false, 3)]] 1 [] (by decide) (by decide) f).1⟩

/-- `Clause.CrestGroups` (rules R112, R113 and R115) applies here. -/
theorem witness_crestGroups (h : Clause.CrestGroups) :
    crestAdd (accFmt 2) false 0 [.nan] = fput 2 .rn false false .nan ∧ crestAdd (accFmt 2) false 0 [.num true 1 0, .num false 1 0] = 0
    ∧ crestAddInt true 0x7FFFFFFF 1 = 0x7FFFFFFF := by
  have f : fop 2 false 0 = .num false 0 (-149) := by decide
  have r := (h.1 2 false 0 [.num true 1 0, .num false 1 0] (by decide) (by decide) (by decide)).2.2 (by simp [FVal.finite])
  simp only [show ((2 : Nat) = 9) = False from by simp, if_false] at r
  rw [f] at r
  refine ⟨(h.1 2 false 0 [.nan] (by decide) (by decide) (by decide)).1 (Or.inl (by simp)), ?_, h.2 true 0x7FFFFFFF 1 (by decide)⟩
  exact ((r.2.2 rfl 0 ⟨.num false 1 0, by simp, by norm_num [FVal.rat]⟩ (by simp [FVal.rat])).1 (by simp [FVal.rat, zpow_neg]; norm_num))

/-- A multiply of two rows with one crest group of two weight rows. -/
def xMs : MulIn := { fb := 0x33, cw := 0x10, m := 2, q := 2, bank := { team := some 5, bfmt := 3, wfmt := 3, wts := [(0, 0x3C), (1024, 0x40)] }, foreign := false
                     ascale := [], bscale := [], els := [recodeElem 3 0x3C, recodeElem 3 0x40, .zero, recodeElem 3 0x44] }

/-- `Clause.MultiplySums` (rules R114, R203, R210, R219 and R228) applies here. -/
theorem witness_multiplySums (h : Clause.MultiplySums) : (xMs.store {} 4).acc.get 0 (1024 * 3 + 7) = 0 := by
  exact ((h xMs (by decide) {} 4).2 3 7 (by decide) (by decide))

/-- `Clause.CrestTimes` (rules R212, R213 and R218) applies to rows of equal costs. -/
theorem witness_crestTimes (h : Clause.CrestTimes) :
    (crestRun 2 1 ((List.range 5).map (fun m => (List.range 2).map ((fun _ _ => 1) m)))).time = 5 := by
  refine (h.1 2 1 5 (fun _ _ => 1) (fun m _ => m) (fun m => m + 1) (by decide) (fun _ => rfl) (fun m _ => ?_) (fun m => ?_)).1
  · rcases m with _ | m <;> simp
  · simp [List.range_succ]

/-- `Clause.DrainedElements` (rules R102, R229, R230, R237 and R248) applies here. -/
theorem witness_drainedElements (h : Clause.DrainedElements) :
    (laneOf (placeReg [1, 2, 3] 16 16 0) 1).toNat / 2 ^ (0 * 16) % 2 ^ 16 = 3
    ∧ (({} : Core).drained eD).length = rowCount eD.word * colCount eD.word
    ∧ drainConv 2 0 0x3F800000 = 0x3F800000 ∧ (({} : Hist).count .nan).nan = 1 :=
  ⟨(h.1 [1, 2, 3] 16 16 0 1 (by decide) (by simp)).2 (by decide) 0 (by decide), (h.2.1 {} eD 0 0 (by decide) (by decide)).1,
   (h.2.2.1 2 0 0x3F800000 (by decide) (by decide) (by decide)).1 (Or.inl rfl), ((h.2.2.2 {} .nan).2.1 rfl).1⟩

def pkgGt : State := { pkg with cycle := 5000 }

def pkgGr : State := { pkg with cycle := 5000, cores := [(0, { (pkg.core 0) with gatedArray := true, wakeReq := some 4000 })], wakes := [(0, 4900)] }

def pkgGw : State := { pkgGr with wakes := [] }

def pkgGa : State := { pkg with cycle := 5000, cores := [(0, { (pkg.core 0) with gatedArray := true, wakeAt := some 4000 })] }

/-- `Clause.ArrayGating` (rules R217 and R461) applies here. -/
theorem witness_arrayGating (h : Clause.ArrayGating) :
    (∃ t, exec (.arrayClockGate 0) pkgGt = .next t)
    ∧ (∃ t, exec (.arrayWakeGrant 0) pkgGw = .next t)
    ∧ (∃ t, exec (.arrayWakeComplete 0) pkgGa = .next t) := by
  refine ⟨((h pkgGt (0)).1 ?_ ?_ ?_ ?_).imp fun _ e => e.1,
    (((h pkgGw (0)).2.1 (Option.get ((pkgGw.core 0).wakeReq) (by decide +kernel)) ?_ ?_).1 ?_).imp fun _ e => e.1,
    ((h pkgGa (0)).2.2 (Option.get ((pkgGa.core 0).wakeAt) (by decide +kernel)) ?_ ?_).imp fun _ e => e.1⟩ <;>
  decide +kernel

def fC : FmtR := fR 9 32 40 44 1 1 1 1 0 0

def argsOf (kind : Nat) (G : Group) : CpyArgs :=
  { kind := kind, src := uniRun G fC.a.toNat 4, dst := uniRun G fC.b.toNat 4, done := G.uni fC.c.toNat
    gidx := if kind = 3 then G.uni (fC.a.toNat + 4) else 0, na := fC.a.toNat, nb := fC.b.toNat, nc := fC.c.toNat }

def st1 (s : State) (kind : Nat) (G : Group) : State := (s.pagesFail (some s.cur.core) G.part (argsOf kind G).pages).1

def st2 (s : State) (kind : Nat) (G : Group) : State × Option (List W64) :=
  (st1 s kind G).recordAt s.cur.core false G.part (recVa (argsOf kind G).src)

def st3 (s : State) (kind : Nat) (G : Group) : State × Option (List W64) :=
  (st2 s kind G).1.recordAt s.cur.core false G.part (recVa (argsOf kind G).dst)

def cc0 (s r : State) (kind : Nat) (G : Group) : Copy :=
  { id := r.nextId, ticket := ticketOf (team0.ticket + 1), tid := G.tid, lid := G.lid, part := G.part, core := s.cur.core, slot := s.cur.slot, gid := G.gid
    split := s.cur.split, kind := kind, src := (argsOf kind G).src, dst := (argsOf kind G).dst, srec := [], drec := [], done := (argsOf kind G).done
    gidx := fld (argsOf kind G).gidx 0 19, epoch := team0.epochAt (argsOf kind G).done, pin := fC.opx.toNat % 4 }

def st4 (s : State) (kind : Nat) (G : Group) : State × Copy :=
  (st3 s kind G).1.makeCopy (cc0 s (st3 s kind G).1 kind G) (st3 s kind G).1.nextId ((st2 s kind G).2.getD []) ((st3 s kind G).2.getD [])

def g0 : Group := gC ([lsB 0x400, 0x40000] ++ ex 256 1) ([0x70000, 0x40040] ++ ex 256 1) none

def p0 : State := pkgCp g0 [0x11] [0x11]

/-- `Clause.CopiesIssue` (rules R345, R348 and R349) applies here. -/
theorem witness_copiesIssue_cpy (h : Clause.CopiesIssue) : (∃ t, exec (.cpy fC) p0 = .next t) := by
  refine ((((h p0 g0 sp fC team0 ((st2 p0 0 g0).2.getD []) ((st3 p0 0 g0).2.getD []) ((st4 p0 0 g0).2) 0 (Instr.cpy fC) ?_ ?_ ?_ ?_).2.2 ?_ ?_ ?_ ?_
    (st1 p0 0 g0)).2 (st2 p0 0 g0).1 (st3 p0 0 g0).1 ?_ ?_ ?_).2 (st4 p0 0 g0).1 ?_ ?_ ?_ ?_ ?_ ?_ ?_ ?_ ?_ ?_ ?_ ?_).imp fun _ e => e.1 <;>
  repeat' (first | decide +kernel | constructor)

def g2 : Group := gC ([0x60000, 0x40000] ++ ex 256 1) ([0x70000, 0x40040] ++ ex 64 1) none

def p2 : State := pkgCp g2 [0x11A] [0x12]

/-- `Clause.CopiesIssue` (rules R345, R348 and R349) applies here. -/
theorem witness_copiesIssue_cpyDec (h : Clause.CopiesIssue) : (∃ t, exec (.cpyDec fC) p2 = .next t) := by
  refine ((((h p2 g2 sp fC team0 ((st2 p2 2 g2).2.getD []) ((st3 p2 2 g2).2.getD []) ((st4 p2 2 g2).2) 2 (Instr.cpyDec fC) ?_ ?_ ?_ ?_).2.2 ?_ ?_ ?_ ?_
    (st1 p2 2 g2)).2 (st2 p2 2 g2).1 (st3 p2 2 g2).1 ?_ ?_ ?_).2 (st4 p2 2 g2).1 ?_ ?_ ?_ ?_ ?_ ?_ ?_ ?_ ?_ ?_ ?_ ?_).imp fun _ e => e.1 <;>
  repeat' (first | decide +kernel | constructor)

/-- `Clause.CopiesIssue` (rules R345, R348 and R349) applies here. -/
theorem witness_copiesIssue_cpyEnc (h : Clause.CopiesIssue) : (∃ t, exec (.cpyEnc fC) p1 = .next t) := by
  refine ((((h p1 g1 sp fC team0 ((st2 p1 1 g1).2.getD []) ((st3 p1 1 g1).2.getD []) ((st4 p1 1 g1).2) 1 (Instr.cpyEnc fC) ?_ ?_ ?_ ?_).2.2 ?_ ?_ ?_ ?_
    (st1 p1 1 g1)).2 (st2 p1 1 g1).1 (st3 p1 1 g1).1 ?_ ?_ ?_).2 (st4 p1 1 g1).1 ?_ ?_ ?_ ?_ ?_ ?_ ?_ ?_ ?_ ?_ ?_ ?_).imp fun _ e => e.1 <;>
  repeat' (first | decide +kernel | constructor)

def g3 : Group := gC ([0x60000, 0x40000] ++ ex 16 8) ([0x70000, 0x40040] ++ ex 16 4) (some 0x800)

def p3 : State := pkgCp g3 [0x21, 64] [0x21, 16]

/-- `Clause.CopiesIssue` (rules R345, R348 and R349) applies here. -/
theorem witness_copiesIssue_cpyGather (h : Clause.CopiesIssue) : (∃ t, exec (.cpyGather fC) p3 = .next t) := by
  refine ((((h p3 g3 sp fC team0 ((st2 p3 3 g3).2.getD []) ((st3 p3 3 g3).2.getD []) ((st4 p3 3 g3).2) 3 (Instr.cpyGather fC) ?_ ?_ ?_ ?_).2.2 ?_ ?_ ?_ ?_
    (st1 p3 3 g3)).2 (st2 p3 3 g3).1 (st3 p3 3 g3).1 ?_ ?_ ?_).2 (st4 p3 3 g3).1 ?_ ?_ ?_ ?_ ?_ ?_ ?_ ?_ ?_ ?_ ?_ ?_).imp fun _ e => e.1 <;>
  repeat' (first | decide +kernel | constructor)

/-- `Clause.CopiesIssue` (rules R48 and R348) applies here too: no active lane, a reserved field, and a record of another kind. -/
theorem witness_copiesIssue_stops (h : Clause.CopiesIssue) :
    (∃ t, exec (.cpy { fC with g := 2, ge := 1 }) p0 = .next t)
    ∧ (∃ t, exec (.cpy { fC with c := 32 }) p0 = .next t)
    ∧ (∃ t, exec (.cpy fC) p2 = .next t) := by
  refine ⟨((h p0 g0 sp { fC with g := 2, ge := 1 } team0 [] [] (st4 p0 0 g0).2 0 (Instr.cpy { fC with g := 2, ge := 1 }) ?_ ?_ ?_ ?_).1 ?_).imp fun _ e => e.1,
    ⟨_, (h p0 g0 sp { fC with c := 32 } team0 [] [] (st4 p0 0 g0).2 0 (Instr.cpy { fC with c := 32 }) ?_ ?_ ?_ ?_).2.1 ?_ ?_ (.illegal 32) ?_⟩,
    ⟨_, (((h p2 g2 sp fC team0 ((st2 p2 0 g2).2.getD []) ((st3 p2 0 g2).2.getD []) (st4 p2 0 g2).2 0 (Instr.cpy fC) ?_ ?_ ?_ ?_).2.2 ?_ ?_ ?_ ?_
      (st1 p2 0 g2)).2 (st2 p2 0 g2).1 (st3 p2 0 g2).1 ?_ ?_ ?_).1 (.illegal 32) ?_⟩⟩ <;>
  repeat' (first | decide +kernel | constructor)

def entry0 (cnt per stg : Nat) : List W64 := [BitVec.ofNat 64 (cnt*2^32 + per*2^16 + stg), 0, 0] ++ ([lsB 0x400, 0x40000] ++ ex 64 1) ++ [64, 0] ++ ([0x70000, 0x40040] ++ ex 64 1) ++ [128, 0, 0, 0, 0, 0, 0]

def lkS (c p s : Nat) : Launch := { lch with sched := [entry0 c p s] }

def pkgSt (T : Team) : State := { pkg with teams := [(0, T)], launches := [(0, lkS 5 2 3)], mem := memC [0x11] [0x11] }

def tS : Team := { team0 with stage := 4, sched := [(0, 1)], ticket := 3, status := [(2, 0x55)] }

def fSt : FmtR := fR 9 2 0 0 1 1 0 0 0 0

def fStq (a : Nat) : FmtR := fR 9 a 0 0 1 1 0 0 0 0

def tSq : Team := { tS with sched := [], relq := [] }

def pkgQc (c : Option Copy) : State := { pkg with teams := [(0, tSq)], cores := [(0, { (pkg.core 0) with eng0 := c.toList })] }

/-- `Clause.StagesAndStatus` (rules R358, R359 and R361) applies here. -/
theorem witness_stagesAndStatus (h : Clause.StagesAndStatus) :
    (∃ t, exec (.stage ({ fStq 2 with g := 2, ge := 1 })) (pkgQc none) = .next t)
    ∧ (∃ t, exec (.stage fSt) (pkgSt tS) = .next t)
    ∧ (∃ t, exec (.cpystat (fStq 5)) (pkgQc none) = .next t) := by
  refine ⟨(((h (pkgQc none) grp sp ({ fStq 2 with ge := 1, g := 2 }) tSq ?_ ?_ ?_).1 ?_).1 ?_).imp fun _ e => e.1,
    (((h (pkgSt tS) grp sp fSt tS ?_ ?_ ?_).1 ?_).2.2 ?_ ?_ ?_).imp fun _ ⟨_, e⟩ => e.1,
    ((h (pkgQc none) grp sp (fStq 5) tSq ?_ ?_ ?_).2 (0) ?_ (fun _ _ _ => ⟨fun _ => by decide +kernel, fun ⟨_, _, h⟩ => absurd h List.not_mem_nil⟩) (fun _ _ h => absurd (congrArg List.length h) (show 0 ≠ 1 by decide)) (Or.inr (Or.inl (by decide +kernel))) ?_ ?_ ?_).imp fun _ e => e.1⟩ <;>
  repeat' (first | decide +kernel | constructor)

def gLL : Group := gC ([lsB 0x400, 0x40000] ++ ex 5000 1) ([lsB 0x2000, 0x40040] ++ ex 5000 1) none

def pLL : State := pkgCp gLL [0x11] [0x11]

def cLL : Copy := { (st4 pLL 0 gLL).2 with started := true, state := 2 }

def pkgE (c : Copy) (rest : List Copy) : State := { pkgSt { team0 with ls := [(0x403, 7), (0x1400, 9)] } with cores := [(0, { (pkg.core 0) with eng0 := c :: rest })] }

def teamL : Team := { team0 with ls := [(0x403, 7), (0x1400, 9)] }

def cFin : Copy := { cLL with chunk := 2, bytes := 5000, dpos := 5000 }

def cFinK : Copy := { cFin with done := BitVec.ofNat 64 (2^62 + 0x50008) }

def cErr (e : Nat) : Copy := { cLL with err := e }

def cG3 : Copy := { (st4 p3 3 g3).2 with gidx := 0x800 }

def pE0 (c : Copy) : State := { (st4 p0 0 g0).1 with teams := [(0, { team0 with ls := [(0x803, 7), (0x800, 9)] })], cores := [(0, { ((st4 p0 0 g0).1.core 0) with slots := [(0, grp)], eng0 := [c] })] }

def cU : Copy := { (st4 p0 0 g0).2 with srec := [], drec := [], owned := [], slices := [] }

def cUn : Copy := { cU with state := 1 }

def pU : State := pE0 cUn

/-- A copy at the head of its engine that its team's end has cancelled; one whose page request was refused; and a budget used up. -/
def pkgEb (c : Copy) : State := { pkgE c [] with parts := [(0, { (pkgE c []).part 0 with pbud0 := BitVec.ofNat 64 (2 ^ 48), copyLeft := 0 })] }

/-- `Clause.CopyEvents` (rules R346, R349, R354 and R357) applies here. -/
theorem witness_copyEvents (h : Clause.CopyEvents) :
    (∃ t, exec (.copyStart 0 0) pU = .next t)
    ∧ (∃ t, exec (.copyStart 0 0) (pkgE ({ cLL with started := false }) []) = .next t)
    ∧ (∃ t, exec (.copyStart 0 0) (pkgE ({ cLL with started := false, cancel := true }) []) = .next t)
    ∧ (∃ t, exec (.copyStart 0 0) (pkgE ({ cLL with started := false, refused := true }) []) = .next t)
    ∧ (∃ t, exec (.copyStart 0 0) (pE0 ({ cG3 with started := false })) = .next t)
    ∧ (∃ t, exec (.copyChunk 0 0) (pkgE { cLL with cancel := true } []) = .next t)
    ∧ (∃ t, exec (.copyChunk 0 0) (pkgE { cLL with refused := true } []) = .next t)
    ∧ (∃ t, exec (.copyChunk 0 0) (pkgEb cLL) = .next t)
    ∧ (∃ t, exec (.copyComplete 0 0) (pkgE cFin []) = .next t)
    ∧ (∃ t, exec (.copyComplete 0 0) (pkgE cFinK []) = .next t)
    ∧ (∃ t, exec (.copyError 0 0) (pkgE (cErr 6) []) = .next t) := by
  refine ⟨((((h pU (0) (0) cUn ([]) ?_ ?_ ?_ ?_).1 ?_ ?_).2.2 ?_ ?_).1 ((pU.resolveCopy cUn).1) (wc (pU.resolveCopy cUn)) ?_ rfl ?_ ?_).imp fun _ e => e.1,
    ((((h (pkgE { cLL with started := false } []) (0) (0) ({ cLL with started := false }) ([]) ?_ ?_ ?_ ?_).1 ?_ ?_).2.2 ?_ ?_).2.2.1 ?_ ?_).imp fun _ e => e.1,
    (((h (pkgE { cLL with started := false, cancel := true } []) 0 0 { cLL with started := false, cancel := true } [] ?_ ?_ ?_ ?_).1 ?_ ?_).1 ?_).imp fun _ e => e.1,
    (((h (pkgE { cLL with started := false, refused := true } []) 0 0 { cLL with started := false, refused := true } [] ?_ ?_ ?_ ?_).1 ?_ ?_).2.1 ?_ ?_).imp fun _ e => e.1,
    ((((h (pE0 { cG3 with started := false }) (0) (0) ({ cG3 with started := false }) ([]) ?_ ?_ ?_ ?_).1 ?_ ?_).2.2 ?_ ?_).2.2.2 (Option.get (((pE0 ({ cG3 with  })).teams.find ({ cG3 with  }).tid)) (by decide +kernel)) ?_ ?_ ?_ ?_ ?_ ?_).imp fun _ e => e.1,
    ((((h (pkgE { cLL with cancel := true } []) 0 0 { cLL with cancel := true } [] ?_ ?_ ?_ ?_).2.1 ?_ ?_).1 ?_ ?_).1 ?_).imp fun _ e => e.1,
    ((((h (pkgE { cLL with refused := true } []) 0 0 { cLL with refused := true } [] ?_ ?_ ?_ ?_).2.1 ?_ ?_).1 ?_ ?_).2.1 ?_ ?_).imp fun _ e => e.1,
    ((((h (pkgEb cLL) 0 0 cLL [] ?_ ?_ ?_ ?_).2.1 ?_ ?_).1 ?_ ?_).2.2.1 ?_ ?_ ?_ ?_).imp fun _ e => e.1,
    ((((h (pkgE cFin []) (0) (0) cFin ([]) ?_ ?_ ?_ ?_).2.1 ?_ ?_).2.2 ?_ ?_ ?_ ?_ ?_ ?_).1 teamL ?_ ?_).imp fun _ ⟨_, e⟩ => e.1,
    (((((h (pkgE cFinK []) (0) (0) cFinK ([]) ?_ ?_ ?_ ?_).2.1 ?_ ?_).2.2 ?_ ?_ ?_ ?_ ?_ ?_).2.1 page ?_ ?_ ?_ ?_ ?_ ?_ ?_ ?_).1 ?_).imp fun _ e => e.1,
    ((h (pkgE (cErr 6) []) (0) (0) (cErr 6) ([]) ?_ ?_ ?_ ?_).2.2 (Option.get (((pkgE (cErr 6) []).teams.find (cErr 6).tid)) (by decide +kernel)) ?_ ?_ ?_ ?_ ?_).imp fun _ ⟨_, e⟩ => e.1⟩ <;>
  repeat' (first | decide +kernel | constructor)

def gMd : Group := gC ([lsB 0x400, 0x40000] ++ ex 64 1) ([0x70000, 0x40040] ++ ex 64 1) none

/-- A copy of 64 bytes from the local store to memory. -/
def cMd : Copy := { (st4 (pkgCp gMd [0x11] [0x11]) 0 gMd).2 with started := true, state := 2 }

/-- What a copy's next chunk is at a state. -/
def nc (s : State) (c : Copy) : Option (State × Chunk × List Int × Nat) :=
  match s.nextChunk c c.srcL c.dstL with
  | (u, .ok x) => some (u, x)
  | _ => none

/-- The error that stops a copy's next chunk, or 0. -/
def ncErr (s : State) (c : Copy) : Nat :=
  match s.nextChunk c c.srcL c.dstL with
  | (_, .err n) => n
  | _ => 0

theorem nc_eq {s : State} {c : Copy} (h : (nc s c).isSome = true) :
    s.nextChunk c c.srcL c.dstL = (((nc s c).get h).1, .ok ((nc s c).get h).2) := by
  have e : nc s c = some ((nc s c).get h) := by simp
  generalize (nc s c).get h = x at e ⊢
  unfold nc at e
  split at e
  · next he => cases e; exact he
  · cases e

/-- An error that stops a copy. -/
theorem ncErr_eq {s : State} {c : Copy} (n : Nat) (hn : n ≠ 0) (h : ncErr s c = n) :
    s.nextChunk c c.srcL c.dstL = ((s.nextChunk c c.srcL c.dstL).1, .err n) := by
  unfold ncErr at h
  split at h
  · next he => rw [he, h]
  · exact absurd h.symm hn

/-- A decompressing copy whose encoded source is too short. -/
def cSh : Copy := { cLL with kind := 2 }

/-- A chunk's additions at an arrival word that wait in a copy, and a completion at one. -/
def cPe : Copy := { cFin with pend := some 64, done := BitVec.ofNat 64 (2 ^ 63 + 2 ^ 59 + 0x100) }

def cFw : Copy := { cFin with done := BitVec.ofNat 64 (3 * 2 ^ 62 + 2 ^ 59 + 0x100), epoch := 0 }

def pkgEp (c : Copy) : State := { pkgE c [] with teams := [(0, { teamL with ls := (aw 5 100 7 1).ls })] }

/-- The package with a copy of a counter of package 3, which a port reaches. -/
def pkgEr : State := { pkgE { cFinK with done := BitVec.ofNat 64 (2 ^ 62 + 2 ^ 59 + 0x50008) } [] with uroute := [(3, 1)], ports := [(0, { state := 2, peer := true })] }

/-- A copy of 64 bytes in the local store. -/
def cLs : Copy :=
  { (st4 (pkgCp gLs [0x11] [0x11]) 0 gLs).2 with started := true, state := 2 }
where gLs : Group := gC ([lsB 0x400, 0x40000] ++ ex 64 1) ([lsB 0x2000, 0x40040] ++ ex 64 1) none

/-- `Clause.CopyEvents` (rules R346 and R354) applies here: a chunk of a copy to the local store. -/
theorem witness_copyChunkLocal (h : Clause.CopyEvents) : (∃ t, exec (.copyChunk 0 0) (pkgE cLs []) = .next t) := by
  refine (((((h (pkgE cLs []) 0 0 cLs [] ?_ ?_ ?_ ?_).2.1 ?_ ?_).1 ?_ ?_).2.2.2 ?_ ?_ ?_).2 _ [] _ _ _
    (nc_eq (s := pkgE cLs []) (c := cLs) (by decide +kernel)) ?_ ?_ ?_ ?_).1 teamL ?_ ?_ ?_ ?_ ?_ |>.imp fun _ ⟨_, e⟩ => e.1 <;>
  repeat' (first | decide +kernel | constructor)

/-- `Clause.CopyEvents` (rules R346 and R354) applies here: a chunk of a copy to memory. -/
theorem witness_copyChunkMemory (h : Clause.CopyEvents) : (∃ t, exec (.copyChunk 0 0) (pkgE cMd []) = .next t) := by
  refine (((((h (pkgE cMd []) 0 0 cMd [] ?_ ?_ ?_ ?_).2.1 ?_ ?_).1 ?_ ?_).2.2.2 ?_ ?_ ?_).2 _ [] _ _ _
    (nc_eq (s := pkgE cMd []) (c := cMd) (by decide +kernel)) ?_ ?_ ?_ ?_).2 page 0x70000 ?_ ?_ ?_ ?_ ?_ ?_ ?_ ?_ ?_ ?_ ?_ ?_ ?_ ?_ ?_ ?_ |>.imp fun _ e => e.1 <;>
  repeat' (first | decide +kernel | constructor)

/-- `Clause.CopyEvents` (rules R346 and R354) applies here: a chunk that an error stops. -/
theorem witness_copyChunkStops (h : Clause.CopyEvents) : (∃ t, exec (.copyChunk 0 0) (pkgE cSh []) = .next t) := by
  refine ((((h (pkgE cSh []) 0 0 cSh [] ?_ ?_ ?_ ?_).2.1 ?_ ?_).1 ?_ ?_).2.2.2 ?_ ?_ ?_).1 _ (((pkgE cSh []).nextChunk cSh cSh.srcL cSh.dstL).1.core 0 |>.eng0.head (by decide +kernel) |>.hdr) (.err 1)
    (ncErr_eq (s := pkgE cSh []) (c := cSh) 1 (by decide) (by decide +kernel)) ?_ |>.imp fun _ e => e.1 <;>
  repeat' (first | decide +kernel | constructor)

/-- `Clause.CopyEvents` (rules R346 and R357) applies here: the addition of a chunk, and a completion at a barrier object. -/
theorem witness_copyAdditions (h : Clause.CopyEvents) : (∃ t, exec (.copyChunk 0 0) (pkgEp cPe) = .next t) ∧ (∃ t, exec (.copyComplete 0 0) (pkgEp cFw) = .next t) := by
  refine ⟨(((h (pkgEp cPe) 0 0 cPe [] ?_ ?_ ?_ ?_).2.1 ?_ ?_).2.1 (aw 5 100 7 1) 64 ?_ ?_ ?_ ?_ ?_ ?_ ?_ ?_ ?_ ?_).imp fun _ e => e.1,
    ((((h (pkgEp cFw) 0 0 cFw [] ?_ ?_ ?_ ?_).2.1 ?_ ?_).2.2 ?_ ?_ ?_ ?_ ?_ ?_).2.2 { aw 5 100 7 1 with ls := (aw 5 100 7 1).ls } ?_ ?_ ?_ ?_ ?_).imp fun _ ⟨_, e⟩ => e.1⟩ <;>
  repeat' (first | decide +kernel | constructor)

/-- `Clause.CopyChecks` (rules R345 and R348) applies here: a copy that passes, and one whose index word is not aligned. -/
theorem witness_copyChecks (h : Clause.CopyChecks) :
    (argsOf 0 g0).fields (some 65536) = none ∧ ({ argsOf 3 g3 with gidx := 2 } : CpyArgs).fields (some 65536) = some (.illegal 32) := by
  have r (a : CpyArgs) (hs : a.src.length = 4) (hd : a.dst.length = 4) := h a (a.src.getD 0 0) (a.src.getD 1 0) (a.src.getD 2 0) (a.src.getD 3 0)
    (a.dst.getD 0 0) (a.dst.getD 1 0) (a.dst.getD 2 0) (a.dst.getD 3 0) 65536
  refine ⟨((((((((((r (argsOf 0 g0) rfl rfl ?_ ?_).2 ?_).2 ?_).2 ?_).2 ?_).2 ?_).2 ?_).2 ?_).2 ?_).2 ?_), (r { argsOf 3 g3 with gidx := 2 } rfl rfl ?_ ?_).1 ?_⟩ <;>
  decide +kernel

/-- `Clause.CopyLayouts` (rules R342 and R346) applies to the copy of 64 bytes, padded to rank 5. -/
theorem witness_copyLayouts (h : Clause.CopyLayouts) (L : Layout) (hf : L.fmt = 1) (he : L.ext = [64, 2, 1, 1, 1]) (hs : L.str = [100, 0, 0, 0]) :
    L.byteAt (64 + 5) = L.base + 5 + 100 := by
  have b : fmtBits L.fmt = 8 := by rw [hf]; decide
  have r := (h L 64 2 1 1 1 100 0 0 0 1 0 0 0 5 he hs (by decide) (by decide) (by decide) (by decide) (by rw [b]; decide)).1
  rw [b] at r
  simpa using r

/-- `Clause.ChunkContents` (rules R343, R344, R350, R351 and R354) applies here. -/
theorem witness_chunkContents (h : Clause.ChunkContents) :
    ((pkgE cLs []).nextChunk cLs cLs.srcL cLs.dstL).1 = pkgE cLs []
    ∧ ((pkgE cLs []).nextChunk cLs cLs.srcL { cLs.dstL with ring := 32 }).1 = pkgE cLs []
    ∧ ((pkgE cLs []).copyRead cLs cMd.dstL (runAt ((0x70000 : Nat) : Int) 64)).1 = pkgE cLs [] := by
  have r (D : Layout) := h (pkgE cLs []) cLs cLs.srcL D teamL (by decide +kernel) rfl rfl (by decide +kernel)
  refine ⟨congrArg Prod.fst (((r cLs.dstL).1 ?_).1 ?_ ?_ ?_ ?_), congrArg Prod.fst (((r { cLs.dstL with ring := 32 }).2.1 ?_ ?_ ?_ ?_ ?_ ?_ ?_ ?_).2 ?_),
    congrArg Prod.fst ((r cLs.dstL).2.2 cMd.dstL 0x70000 64 page ?_ ?_ ?_ ?_ ?_ ?_ ?_ ?_ ?_ ?_)⟩ <;>
  repeat' (first | decide +kernel | constructor)

/-- `Clause.RiceCodes` (rule R352) applies to two elements of 8 bits. -/
theorem witness_riceCodes (h : Clause.RiceCodes) : riceElems 9 8 2 8 2 0 0 = some [3, 3] ∧ riceElems 9 6 2 8 2 0 0 = none := by
  have r (lim : Nat) := h 9 lim 2 8 [3, 3] (by simp) (by decide) (by simp) (by decide)
  exact ⟨(r 8).1 (by decide), (r 6).2 (by decide)⟩

def tRel : Team := { team0 with relq := [(3, 0), (5, 0)], ticket := 3, index := 1 }

def rc0 : Copy := (pkgSt tRel).repeatCopy tRel (entry0 5 2 3) 0

/-- `Clause.ScheduledRepeats` (rule R361) applies here. -/
theorem witness_scheduledRepeats (h : Clause.ScheduledRepeats) : (∃ t, exec (.scheduleRepeatIssue 0) (pkgSt tRel) = .next t) := by
  refine (h (pkgSt tRel) ((pkgSt tRel).resolveCopy rc0 |>.1) (0) tRel (3) (0) ([(5, 0)]) (wc ((pkgSt tRel).resolveCopy rc0)) ?_ ?_ ?_ ?_ ?_ ?_ ?_ ?_ ?_).imp fun _ e => e.1 <;>
  repeat' (first | decide +kernel | constructor)

def gLa (a : W64) : Group := { grp with regs := { grp.regs with k := grp.regs.k ++ [(9, a)] } }

def pkgLa (a : W64) : State := pkg.setGroup 0 0 (gLa a)

def fLa : FmtR := fR 10 9 0 0 1 1 0 0 0 0

/-- `Clause.LaunchesIssue` (rules R366 and R390) applies here. -/
theorem witness_launchesIssue (h : Clause.LaunchesIssue) :
    (∃ t, exec (.launch ({ fLa with g := 2, ge := 1 })) (pkgLa 262160) = .next t)
    ∧ (∃ t, exec (.launch fLa) (pkgLa 262160) = .next t)
    ∧ (∃ t, exec (.launch fLa) (pkgLa 262144) = .next t) := by
  refine ⟨((h (pkgLa 262160) (gLa 262160) sp ({ fLa with ge := 1, g := 2 }) ?_ ?_ ?_).1 ?_).imp fun _ e => e.1,
    ⟨_, (h (pkgLa 0x40010) (gLa 0x40010) sp fLa ?_ ?_ ?_).2.1 ?_ ?_⟩,
    ((h (pkgLa 0x40000) (gLa 0x40000) sp fLa ?_ ?_ ?_).2.2 (Option.get ((List.find? (fun e => e.covers (gLa 262144).part (BitVec.toNat ((gLa 262144).uni fLa.a.toNat))) ((pkgLa 262144).core (pkgLa 262144).cur.core).tlb)) (by decide +kernel)) ?_ ?_ ?_ ?_ ?_ ?_ ?_ ?_).imp fun _ e => e.1⟩ <;>
  repeat' (first | decide +kernel | constructor)

def recOk (st dn : Nat) : List W64 := [BitVec.ofNat 64 0x10000, BitVec.ofNat 64 (2*2^32 + 15*2^13 + 16), 0x1000, 0, 0, 0, 0, 0, 0, 0, BitVec.ofNat 64 st, BitVec.ofNat 64 dn, 0, 0x0, 0, 0]

def recA (st dn : Nat) : List W64 := (recOk st dn).set 1 (BitVec.ofNat 64 (15*2^13 + 16))

def subA (o : Origin) : Submit := { sid := 7, part := 0, origin := o, addr := 0x40000, seq := 12 }

def memRec (r : List W64) : List Host.Cell := r.zipIdx.foldl (fun m x => memSetAll m (cellsAt (0x40000 + 8*x.2) (bytesOf x.1.toNat 8))) [(0x50003, 9)]

def grpL : Group := { grp with infl := [{ id := 3, split := 0, pc := 0, kind := .launch, writes := [{ sp := .uni, num := 9, word := 12 }] }] }

def gr0 : Graph := { gid := 4, q := 0, rid := 2, part := 0, node := 0x40000, limit := 5, status := 0 }

def pkgSub (o : Origin) (r : List W64) : State := { pkg.setGroup 0 0 grpL with submits := [subA o], mem := memRec r, graphs := [(4, gr0)] }

def tb0 : Tables := { }

/-- `Clause.LaunchesAccepted` (rules R366 and R367) applies here. -/
theorem witness_launchesAccepted (h : Clause.LaunchesAccepted) :
    (∃ t, exec (.launchAccept (subA (Origin.graph 4)).sid) (pkgSub (Origin.graph 4) (recA 0 0)) = .next t) := by
  refine ((h (pkgSub (.graph 4) (recA 0 0)) (pkgSub (.graph 4) (recA 0 0)) (subA (.graph 4)) (recA 0 0) tb0 ?_).2 ?_ ?_ ?_ ?_ ?_ ?_ ?_ ?_).imp fun _ ⟨_, e⟩ => e.1 <;>
  repeat' (first | decide +kernel | constructor)

def rrun : PRun := { rid := 2, typ := 1, irq := true, tag := 77, words := [] }

def que0 : Queue := { ctl := 0x100, runs := [rrun, { rrun with rid := 3 }] }

def pkgLc (L : Launch) : State := { pkg with launches := [(0, L), (3, { L with lid := 3 })], teams := [(0, { team0 with state := .ended }), (1, { team0 with tid := 1, lid := 3 })], cores := [(0, { (pkg.core 0) with slots := [] })], queues := [(0, que0)], graphs := [(4, gr0)], mem := [(0x60007, 1), (0x60000, 255)] }

def lkD (o : Origin) (st dn : Nat) : Launch := { lch with lid := 0, origin := o, record := recOk st dn, next := 2, ended := 2, seq := 12, result := 0x77 }

def lc1 := lkD (.packet 0 2 true) 0x60000 (2^62+6*2^59+0x60010)

/-- `Clause.LaunchesComplete` (rules R368 and R369) applies here. -/
theorem witness_launchesComplete (h : Clause.LaunchesComplete) : (∃ t, exec (.launchComplete 0) (pkgLc lc1) = .next t) := by
  refine (h (pkgLc lc1) (0) lc1 page page ?_ ?_ (Or.inr ⟨by decide +kernel, (by repeat' (first | decide +kernel | constructor))⟩) (Or.inr ⟨by decide +kernel, by decide +kernel, (by repeat' (first | decide +kernel | constructor))⟩) ⟨by decide +kernel, by decide +kernel⟩ (fun q rid irq h => by cases h; exact ⟨by decide +kernel, by decide +kernel⟩) ?_).imp fun _ e => e.1 <;>
  decide +kernel

def fPo (o : Nat) : FmtR := fR 0 3 0 0 0 1 0 0 0 o

def pm (op : Nat) (v : W64) : PostMsg := ⟨7, 0, op, v, 0, 0, 1, 3⟩

def pkgPm (op : Nat) : State := { pkg.setGroup 0 0 { grp with infl := [{ id := 3, split := 0, pc := 0, kind := .post }] } with posts := [pm op 0x18, { pm op 3 with pid := 9, gid := 8 }], launches := [(0, { lch with result := 0x77 }), (1, lch)] }

/-- `Clause.Posts` (rule R391) applies here. -/
theorem witness_posts (h : Clause.Posts) :
    (∃ t, exec (.post (fPo 3)) pkg = .next t)
    ∧ (∃ t, exec (.postApply (pm 0 24).pid) (pkgPm 0) = .next t) := by
  refine ⟨((h.1 pkg grp sp (fPo 3) ?_ ?_ ?_).2 ?_).imp fun _ e => e.1,
    (h.2 (pkgPm 0) (pm 0 0x18) (({ lch with result := 0x77 })) ?_ ?_ ?_ ?_).imp fun _ ⟨_, e⟩ => e.1⟩ <;>
  repeat' (first | decide +kernel | constructor)

def fX0 : FmtR := fR 0 0 0 0 0 0 0 0 0 0

/-- `Clause.TaskExit` (rules R138, R368 and R393) applies here. -/
theorem witness_taskExit (h : Clause.TaskExit) : (∃ t, exec (.taskexit fX0) pkg = .next t) := by
  refine (h pkg grp sp fX0 lch ?_ ?_ ?_ ?_ ?_).imp fun _ ⟨_, e⟩ => e.1 <;>
  repeat' (first | decide +kernel | constructor)

def fCn : FmtR := { fR 5 9 10 11 0 1 1 1 1 0 with }

def gCn : Group := { grp with regs := { grp.regs with k := grp.regs.k ++ [(9, 0x40000), (10, 0x50000), (11, 20)] } }

def pkgCn : State := pkg.setGroup 0 0 gCn

def crec : ContRec := { cid := 5, lid := 0, part := 0, va := 0x40000, counter := 0x50000, target := 0x10009, nv := 2, first := 5 }

def pkgPk (n : Nat) : State := { pkg with conts := [(5, crec)], mem := [(0x50000, 9), (0x50002, BitVec.ofNat 8 n)] }

/-- `Clause.Parking` (rules R387 and R392) applies here. -/
theorem witness_parking (h : Clause.Parking) :
    (∃ t, exec (.cont fCn) pkgCn = .next t)
    ∧ (∃ t, exec (.continuationPoll 5) (pkgPk 1) = .next t)
    ∧ (∃ t, exec (.continuationPoll 5) (pkgPk 0) = .next t) := by
  refine ⟨(h.1 pkgCn gCn sp fCn page ?_ ?_ ?_ ?_ ?_ ?_ ?_ ?_ ?_ ?_ ?_ ?_ ?_ ?_ ?_ ?_ ?_ (by
      intro i hi
      have : i < 6 := by rw [show 640 + contNv fCn * 4 * gCn.w = 768 from by decide +kernel] at hi; omega
      interval_cases i <;> exact ⟨by decide +kernel, (by repeat' (first | decide +kernel | constructor))⟩)).imp fun _ ⟨_, e⟩ => e.1,
    ((h.2 (pkgPk 1) (5) crec page ?_ ?_ ?_).1 ?_).imp fun _ e => e.1,
    ⟨_, (h.2 (pkgPk 0) (5) crec page ?_ ?_ ?_).2 ?_⟩⟩ <;>
  repeat' (first | decide +kernel | constructor)

def memQ (ws : List Nat) : List Host.Cell := ws.zipIdx.foldl (fun m x => memSetAll m (cellsAt (0x40000 + 64*3 + 8*x.2) (bytesOf x.1 8))) [(0x50003, 9), (0x50000, 5)]

def qc : W64 := BitVec.ofNat 64 (2^63 + 2^8 + 4)

def que1 (w : Nat) : Queue := { base := 0x40000, ctl := qc, wptr := BitVec.ofNat 32 w, rptr := 3 }

def pkgQ1 (w : Nat) (ws : List Nat) : State := { pkg with queues := [(5, que1 w)], mem := memQ ws }

def hN (typ ns irq bar : Nat) : Nat := typ*2^56 + ns*2^54 + bar*2^53 + irq*2^52 + 0x99

def pkNop := [hN 1 0 1 1]

/-- `Clause.QueueRegisters` (rules R371 and R375) applies here. -/
theorem witness_queueRegisters (h : Clause.QueueRegisters) :
    (∃ t, exec (.qwptrWrite 5 291) (pkgQ1 5 pkNop) = .next t)
    ∧ (∃ t, exec (.queueEnable 5 291) (pkgQ1 5 pkNop) = .next t)
    ∧ (∃ t, exec (.queueDisable 5 291) (pkgQ1 5 pkNop) = .next t) := by
  refine ⟨((h (pkgQ1 5 pkNop) (5) (0x123) ?_).1).imp fun _ e => e.1,
    (((h (pkgQ1 5 pkNop) (5) (0x123) ?_).2).1).imp fun _ ⟨_, e⟩ => e.1,
    ((h (pkgQ1 5 pkNop) (5) (0x123) ?_).2.2).imp fun _ ⟨_, e⟩ => e.1⟩ <;>
  decide +kernel

def wsOf (ws : List Nat) (n : Nat) : List W64 := (List.range n).map (fun i => BitVec.ofNat 64 (ws.getD i 0))

/-- `Clause.PacketsBegin` (rules R372, R373, R374 and R376) applies here. -/
theorem witness_packetsBegin (h : Clause.PacketsBegin) :
    (∃ t, exec (.packetBegin 5) (pkgQ1 40 pkNop) = .next t)
    ∧ (∃ t, exec (.packetBegin 5) (pkgQ1 5 [hN 0 0 0 0]) = .next t)
    ∧ (∃ t, exec (.packetBegin 5) (pkgQ1 5 [hN 1 0 0 0 + 2 ^ 40]) = .next t)
    ∧ (∃ t, exec (.packetBegin 5) (pkgQ1 5 [hN 1 0 0 0, 1]) = .next t)
    ∧ (∃ t, exec (.packetBegin 5) (pkgQ1 5 pkNop) = .next t)
    ∧ (∃ t, exec (.packetBegin 5) (pkgQ1 4 [hN 6 1 0 0]) = .next t) := by
  have r (w : Nat) (ws : List Nat) := h (pkgQ1 w ws) 5 1 (wsOf ws 8) (wsOf ws 8) (pkgQ1 w ws) (pkgQ1 w ws)
  refine ⟨((r 40 pkNop ?_ ?_ ?_ ?_ ?_).1 ?_).imp fun _ e => e.1,
    (((r 5 [hN 0 0 0 0] ?_ ?_ ?_ ?_ ?_).2.2 ?_ ?_ ?_).1 ?_).imp fun _ e => e.1,
    (((r 5 [hN 1 0 0 0 + 2 ^ 40] ?_ ?_ ?_ ?_ ?_).2.2 ?_ ?_ ?_).2.1 ?_ ?_ ?_).imp fun _ e => e.1,
    ((((r 5 [hN 1 0 0 0, 1] ?_ ?_ ?_ ?_ ?_).2.2 ?_ ?_ ?_).2.2.1 ?_ ?_ ?_ ?_ ?_ ?_ ?_).1 ?_).imp fun _ e => e.1,
    ((((r 5 pkNop ?_ ?_ ?_ ?_ ?_).2.2 ?_ ?_ ?_).2.2.1 ?_ ?_ ?_ ?_ ?_ ?_ ?_).2 (pkgQ1 5 pkNop) ?_ ?_ ?_).imp fun _ e => e.1,
    ⟨_, ((r 4 [hN 6 1 0 0] ?_ ?_ ?_ ?_ ?_).2.2 ?_ ?_ ?_).2.2.2 ?_ ?_ ?_ ?_⟩⟩ <;>
  repeat' (first | decide +kernel | constructor | intro _)

def pkLa := [hN 2 0 0 0, 0x60000]

def pr (typ : Nat) (ws : List Nat) : PRun := { rid := 9, typ := typ, irq := true, tag := 0x77, words := wsOf ws 16, time := 12345 }

def pkgPr' (r : PRun) : State := { pkg with queues := [(5, { que1 5 with runs := [{ r with rid := 2 }, r] })], mem := memQ [] }

/-- The copy of a COPY packet. -/
def cPr : Copy :=
  let s := pkgPr' (pr 6 [])
  let w := (pr 6 []).words
  { id := s.nextId, ticket := 0, tid := 0, lid := 0, part := (s.queue 5).part, core := (s.copyCore (s.queue 5).part).get (by decide +kernel), slot := 0, gid := 0
    split := 0, kind := fld (w.getD 1 0) 0 2, src := (w.drop 2).take 4, dst := (w.drop 6).take 4, srec := [], drec := [], done := w.getD 10 0, queue := some (5, 9) }

/-- `Clause.PacketEffects` (rule R373) applies here. -/
theorem witness_packetEffects (h : Clause.PacketEffects) :
    (∃ t, exec (.packetNop 5 (pr 1 []).rid) (pkgPr' (pr 1 [])) = .next t)
    ∧ (∃ t, exec (.packetLaunch 5 (pr 2 pkLa).rid) (pkgPr' (pr 2 pkLa)) = .next t)
    ∧ (∃ t, exec (.packetGraph 5 (pr 3 [0, 262144, 5, 0]).rid) (pkgPr' (pr 3 [0, 262144, 5, 0])) = .next t)
    ∧ (∃ t, exec (.packetCwait 5 (pr 4 [0, 327680, 5]).rid) (pkgPr' (pr 4 [0, 327680, 5])) = .next t)
    ∧ (∃ t, exec (.packetCwait 5 (pr 4 [0, 327688, 5]).rid) (pkgPr' (pr 4 [0, 327688, 5])) = .next t)
    ∧ (∃ t, exec (.packetCadd 5 (pr 5 [0, 327680, 5]).rid) (pkgPr' (pr 5 [0, 327680, 5])) = .next t)
    ∧ (∃ t, exec (.packetTimestamp 5 (pr 7 [0, 327680]).rid) (pkgPr' (pr 7 [0, 327680])) = .next t)
    ∧ (∃ t, exec (.packetCopy 5 (pr 6 []).rid) (pkgPr' (pr 6 [])) = .next t) := by
  have r (x : PRun) := h (pkgPr' x) 5 x page
  refine ⟨((r (pr 1 []) ?_ ?_).1 ?_).imp fun _ e => e.1,
    ((r (pr 2 pkLa) ?_ ?_).2.1 ?_ ?_).imp fun _ e => e.1,
    ((r (pr 3 [0, 0x40000, 5, 0]) ?_ ?_).2.2.1 ?_ ?_).imp fun _ e => e.1,
    (((r (pr 4 [0, 0x50000, 5]) ?_ ?_).2.2.2.1 ?_ ?_).1 ?_).imp fun _ e => e.1,
    (((r (pr 4 [0, 0x50008, 5]) ?_ ?_).2.2.2.1 ?_ ?_).2 ?_).imp fun _ e => e.1,
    ((r (pr 5 [0, 0x50000, 5]) ?_ ?_).2.2.2.2.1 ?_ ?_).imp fun _ e => e.1,
    ((r (pr 7 [0, 0x50000]) ?_ ?_).2.2.2.2.2.1 ?_ ?_).imp fun _ e => e.1,
    ((r (pr 6 []) ?_ ?_).2.2.2.2.2.2 (Option.get (((pkgPr' (pr 6 [])).copyCore ((pkgPr' (pr 6 [])).queue 5).part)) (by decide +kernel)) ((pkgPr' (pr 6 [])).issueCopy cPr).1
      (Option.get ((pkgPr' (pr 6 [])).issueCopy cPr).2 (by decide +kernel)) ?_ ?_ ?_ ?_ ?_ ?_ ?_).imp fun _ e => e.1⟩ <;>
  repeat' (first | decide +kernel | constructor)


def gr1 : Graph := { gid := 4, q := 5, rid := 9, part := 0, node := 0x40000, limit := 5, status := 0 }

def memN (ws : List Nat) : List Host.Cell := ws.zipIdx.foldl (fun m x => memSetAll m (cellsAt (0x40000 + 8*x.2) (bytesOf x.1 8))) []

def pkgGn (g : Graph) (ws : List Nat) (res : Nat) : State := { pkg with graphs := [(4, g), (6, { g with gid := 6 })], mem := memN ws, launches := [(7, { lch with lid := 7, result := BitVec.ofNat 64 res })], queues := [(5, { que1 5 with runs := [pr 3 [], { (pr 3 []) with rid := 3 }] })] }

def nodeW (w0 w1 w2 n0 n1 n2 n3 : Nat) : List Nat := [w0, w1, w2, n0, n1, n2, n3, 0]

def nd1 := nodeW 0x50000 4 0 0x40040 0x40080 0 0x400C0

def grw (ws : List Nat) : Graph := { gr1 with last := 0x40000, words := wsOf ws 8, waiting := true, lid := some 7, code := 1 }

/-- `Obligations.GraphNodes` (rules R384 and R385) applies here. -/
theorem witness_graphNodes (h : Obligations.GraphNodes) :
    (∃ t, exec (.graphNextNode gr1.gid) (pkgGn gr1 nd1 3) = .next t)
    ∧ (∃ t, exec (.graphNextNode (grw nd1).gid) (pkgGn (grw nd1) nd1 3) = .next t)
    ∧ (∃ t, exec (.graphNextNode (grw nd1).gid) (pkgGn (grw nd1) nd1 2) = .next t) := by
  refine ⟨((h (pkgGn gr1 nd1 3) gr1 (wsOf nd1 8) (pkgGn gr1 nd1 3) ?_ ?_ ?_).1 ?_ ?_ ?_ ?_).imp fun _ e => e.1,
    (((h (pkgGn (grw nd1) nd1 3) (grw nd1) (wsOf nd1 8) (pkgGn (grw nd1) nd1 3) ?_ ?_ ?_).2 (Option.get ((grw nd1).lid) (by decide +kernel)) (Option.get (((pkgGn (grw nd1) nd1 3).launches.find (Option.get ((grw nd1).lid) (by decide +kernel)))) (by decide +kernel)) ?_ ?_ ?_ ?_).1 ?_).imp fun _ e => e.1,
    (((h (pkgGn (grw nd1) nd1 2) (grw nd1) (wsOf nd1 8) (pkgGn (grw nd1) nd1 2) ?_ ?_ ?_).2 (Option.get ((grw nd1).lid) (by decide +kernel)) (Option.get (((pkgGn (grw nd1) nd1 2).launches.find (Option.get ((grw nd1).lid) (by decide +kernel)))) (by decide +kernel)) ?_ ?_ ?_ ?_).2 (Option.get ((List.find? (fun x => x.rid == (grw nd1).rid) ((pkgGn (grw nd1) nd1 2).queue (grw nd1).q).runs)) (by decide +kernel)) ?_ ?_ ?_ ?_).imp fun _ e => e.1⟩ <;>
  repeat' (first | decide +kernel | constructor)

def recT : List W64 := (recOk 0 0).set 1 (BitVec.ofNat 64 (3*2^32 + 5*2^27 + 15*2^13 + 16))

def LA : Launch := { lid := 3, seq := 9, part := 0, origin := .graph 0, record := recT, args := [11, 12, 13], next := 1 }

def pkgAd : State := { pkg with launches := [(3, LA)], teams := [(0, team0)] }

def pkgAd1 : State := pkgAd

def cAd : Nat := (pkgAd.pickPlace 0 3 LA.shape).getD 99

/-- `Clause.Admissions` (rules R38, R148, R379 and R380) applies here. -/
theorem witness_admissions (h : Clause.Admissions) : (∃ t, exec (.admission 0) pkgAd1 = .next t) := by
  refine (h pkgAd1 (0) (3) (5) LA cAd ?_ ?_ ?_ ?_ ?_ ?_ ⟨by decide +kernel, by decide +kernel⟩ ?_ ?_).imp fun _ ⟨_, _, _, e⟩ => e.1 <;>
  decide +kernel

def pkgBp : State := { pkg with cycle := 5000, parts := [(0, { pbud0 := 0x0003000500070009, pbud1 := 2, copyLeft := -5, hostLeft := 99, migLeft := -70, teleLeft := 0 })] }

def LG2 : Launch := { LA with record := (recT.set 1 (BitVec.ofNat 64 (3*2^32 + 2^26 + 15*2^13 + 16))).set 2 0x80000, headTime := some 0 }

def pkgGu2 : State := { pkg with launches := [(3, LG2)], partmap := (List.range 192).map (fun i => (i, if i < 2 then 0 else 1)), cycle := 2000 }

/-- `Clause.GangsAndBudgets` (rules R383 and R394) applies here. -/
theorem witness_gangsAndBudgets (h : Clause.GangsAndBudgets) :
    (∃ t, exec (.gangUnplaced 3) pkgGu2 = .next t)
    ∧ (∃ t, exec (.budgetPeriod 0) pkgBp = .next t) := by
  refine ⟨(h.2.1 pkgGu2 (3) LG2 (0) ?_ ?_ ?_ ?_ ?_ ?_).imp fun _ e => e.1,
    (h.2.2 pkgBp (0) ?_ ?_).imp fun _ e => e.1⟩ <;>
  decide +kernel

/-- A gang at the head, which fits. -/
def pkgGu3 : State := { pkg with launches := [(3, { LG2 with headTime := none })], teams := [(0, team0)], cycle := 2000 }

/-- That package with the gang's head time noted. -/
def headed : State := { pkgGu3 with launches := pkgGu3.launches.set 3 { LG2 with headTime := some pkgGu3.now } }

/-- `Clause.GangsAndBudgets` (rules R383 and R394) applies here: a gang that fits is admitted whole. -/
theorem witness_gangAdmitted (h : Clause.GangsAndBudgets) : ∃ t, exec (.admission 0) pkgGu3 = .next t := by
  refine (h.1 pkgGu3 0 3 0 { LG2 with headTime := none } ((headed.admitAll 3 2).get (by decide +kernel)) ?_ ?_ ?_ ?_ ?_ ?_ ?_ ?_ ?_
    (Option.some_get _).symm).imp fun _ e => e.1 <;>
  decide +kernel

def bt0 : Batch := { num := 7, pages := [⟨1, 0x123000, 4⟩], place := 44, launch := 5, ticket := 6 }

def pkgFb : State := { pkg.setGroup 0 0 { grp with splits := [{ sp with batch := some 7, wait := .fault }] } with parts := [(0, { pfring := BitVec.ofNat 64 (2^63 + 0x50000 + 3), pfwptr := 0xFFFFFFFF, pfrptr := 0xFFFFFFF0, batches := [bt0, { bt0 with num := 9 }] })], mem := [(0x50003, 9)] }
  where bt0 := { num := 7, pages := [⟨1, 0x123000, 4⟩], place := 44, launch := 5, ticket := 6 }

def pg0 : FaultPage := ⟨1, 0x123000, 4⟩

/-- `Clause.BatchEvents` (rules R410, R413 and R414) applies here. -/
theorem witness_batchEvents (h : Clause.BatchEvents) :
    (∃ t, exec (.faultBatchWrite 0) pkgFb = .next t)
    ∧ (∃ t, exec (if true = true then .pfdoneRefuse 0 7 else .pfdoneAnswer 0 7) pkgFb = .next t) := by
  refine ⟨(h.1 pkgFb (0) bt0 pg0 page ?_ ?_ ?_ ?_ ?_).imp fun _ e => e.1,
    (h.2 pkgFb (0) (7) true bt0 ?_ ?_ ?_).imp fun _ e => e.1⟩ <;>
  repeat' (first | decide +kernel | constructor)

def pkgTs : State := { pkg with launches := [(0, { lch with seq := 0 })], parts := [(0, { savepool := 0x100000 * 0 + BitVec.ofNat 64 (0x100 * 2^22 + 5), preq0 := 0, slotsUsed := [0] })], teams := [(0, { team0 with index := 6 }), (1, { team0 with tid := 1, index := 2 })] }

def T6 : Team := { team0 with index := 6 }

def gS1 : Group := { grp with stopped := true, preempt := some 0, regs := { grp.regs with v := [] } }

def Tsv : Team := { team0 with state := .saving, saveSlot := some 2, ls := [(5, 9)] }

def pkgSv : State := { pkg.setGroup 0 0 gS1 with teams := [(0, Tsv)], parts := [(0, { savepool := BitVec.ofNat 64 (0x100 * 2^22 + 5), slotsUsed := [2] })] }

/-- The lower 32 GiB of the tests' partition are mapped onto device memory. -/
theorem low_pages (a : Nat) (h : a < 2 ^ 35) :
    a < 2 ^ 57 ∧ pkgSv.stackTlb0.find? (fun (e : TlbEnt) => e.covers 0 a) = some page ∧ pkgSv.regionOk (page.pa a) = true := by
  have hp : page.pa a = a := by simp [TlbEnt.pa, page]
  refine ⟨by omega, ?_, ?_⟩
  · have : page.covers 0 a = true := by
      simp [TlbEnt.covers, show pageBytes page.size = 2 ^ 35 from by decide +kernel, show page.vbase = 0 from rfl, show page.part = 0 from rfl]; omega
    show List.find? _ [page] = _
    simp [this]
  · have hi : pkgSv.interleaved a = true := by
      refine List.any_eq_true.mpr ⟨0, by decide, ?_⟩
      simp only [show pkgSv.regionWord 0 0 = 0x8020000000000000 from by decide +kernel, show fld (0x8020000000000000 : W64) 63 1 = 1 from by decide,
        show fld (0x8020000000000000 : W64) 32 9 = 0 from by decide, show fld (0x8020000000000000 : W64) 48 9 = 32 from by decide]
      simp; omega
    rw [hp]; unfold State.regionOk
    simp only [show regionOf a = 0 from by unfold regionOf; simp; omega, hi]
    simp [show Config.deviceBytes = 412316860416 from by decide +kernel]; omega

/-- `Clause.SaveEvents` (rules R416 to R421 and R452) applies here. -/
theorem witness_saveEvents (h : Clause.SaveEvents) :
    (∃ t, exec (.preemptRequest 0 291) pkgTs = .next t)
    ∧ (∃ t, exec (.preemptRequest 0 9223372036854775814) pkgTs = .next t)
    ∧ (∃ t, exec (.teamSave 0) pkgSv = .next t) := by
  refine ⟨(h.1 pkgTs (0) (0x123) ?_).imp fun _ e => e.1,
    (h.2.1 pkgTs (0) (0x8000000000000006) lch (0) T6 (1) ?_ ?_ ?_ ?_ ?_ ?_ ?_ ?_ ?_).imp fun _ e => e.1,
    (h.2.2 pkgSv (0) Tsv (0) gS1 (2) page ?_ ?_ ?_ ?_ ?_ ?_ ?_ ?_ ?_ ?_ ?_ ?_ ?_ ?_ ?_ ?_ ?_ (fun a _ h => low_pages a (lt_of_lt_of_le h (by decide +kernel))) ?_ ?_).imp fun _ ⟨_, _, e⟩ => e.1⟩ <;>
  repeat' (first | decide +kernel | constructor)

def Ln (n : Nat) : L1Line := { Lx with line := n, dirty := 0 }

def pkgPg : State := { pkg with cores := (5, { l1 := [Ln 3], tlb := [page], ccLaunch := [4], hist := [(0, {})], gens := [(1, 2)] }) :: pkg.cores }

/-- `Clause.PowerGating` (rule R424) applies here. -/
theorem witness_powerGating (h : Clause.PowerGating) : (∃ t, exec (.corePowerGate 5 false) pkgPg = .next t) := by
  refine (h pkgPg (5) false ?_ ?_ ?_ ?_ ?_).imp fun _ e => e.1 <;>
  decide +kernel

def pkgTi (v : Nat) : State := { pkg with parts := [(0, { tlbinv := BitVec.ofNat 64 v, ctl := 7 })], stackTlb1 := [{ page with part := 2 }, { page with vbase := 0x800000000 }], partmap := (List.range 192).map (fun i => (i, if i < 2 then 0 else 1)) }

/-- `Clause.Invalidations` (rules R277, R281 and R451) applies here. -/
theorem witness_invalidations (h : Clause.Invalidations) :
    (∃ t, exec (.tlbinv 0 291) (pkgTi 0) = .next t)
    ∧ (∃ t, exec (.tlbinvComplete 0) (pkgTi (2 ^ 63 + 2 ^ 62)) = .next t) := by
  refine ⟨((h.1 (pkgTi 0) (0) (0x123)).2 ?_).imp fun _ ⟨_, e⟩ => e.1,
    (h.2 (pkgTi (2 ^ 63 + 2 ^ 62)) (0) ?_ ?_ ?_).imp fun _ e => e.1⟩ <;>
  decide +kernel

def pkgPm' : State := { pkg with cores := (5, { hist := [(0, {})] }) :: pkg.cores, partmap := [(5, 2), (4, 3)], parts := [(2, { pcnt := [(0, 5)] }), (3, { pcnt := [(1, 7)] })] }

def pPm (ask : Tab Nat) : State := { pkg with cores := (5, { hist := [(0, {})] }) :: pkg.cores, partmap := [(5, 2), (4, 2)], partAsk := ask, parts := [(2, { pcnt := [(0, 5)] }), (3, { pcnt := [(1, 7)] })] }

/-- `Clause.PartitionMap` (rule R450) applies here. -/
theorem witness_partitionMap (h : Clause.PartitionMap) :
    (∃ t, exec (.partmapWrite 0 2) (pPm [(5, 3)]) = .next t)
    ∧ (∃ t, exec (.partmapWrite 5 3) pkgPm' = .next t)
    ∧ (∃ t, exec (.partmapWrite 5 3) (pPm [(4, 3)]) = .next t)
    ∧ (∃ t, exec (.partmapWrite 5 3) (pPm []) = .next t) := by
  refine ⟨⟨_, (h (pPm [(5, 3)]) (0) (2) ?_).1 ?_⟩,
    ((h pkgPm' (5) (3) ?_).2.1 ?_ ?_).imp fun _ e => e.1,
    ((h (pPm [(4, 3)]) (5) (3) ?_).2.2.1 ?_ ?_ ?_ ?_).imp fun _ e => e.1,
    ⟨_, (h (pPm []) (5) (3) ?_).2.2.2 ?_ ?_ ?_⟩⟩ <;>
  decide +kernel

/-- `Obligations.RegisterWrites` (rules R10, R449, R450 and R454) applies here. -/
theorem witness_registerWrites (h : Obligations.RegisterWrites) : (∃ t, exec (.registerWrite 2048 1311768467463790320) pkg = .next t) := by
  refine ((h pkg (0x123456789ABCDEF0)).2.2.2.2.2).imp fun _ e => e.1

def pkgMg : State := { pkg with cycle := 4000, replies := [.ack], flash := [(5, 7)] }

/-- `Obligations.ManagementCommands` (rules R463, R464 and R465) applies here. -/
theorem witness_managementCommands (h : Obligations.ManagementCommands) :
    (∃ t, exec .status pkgMg = .next t)
    ∧ (∃ t, perform (.command 0x40) pkgMg = .next t)
    ∧ (∃ t, exec (.read 0x800) pkgMg = .next t)
    ∧ (∃ t, exec (.flashrd 0 0) pkgMg = .next t)
    ∧ (∃ t, exec (.flashrd 0xFFFFFFE0 32) pkgMg = .next t)
    ∧ (∃ t, exec (.attest (List.replicate 32 1)) pkgMg = .next t) := by
  have r := h pkgMg
  refine ⟨⟨_, r.1⟩, ⟨_, r.2.1 0x40 ?_⟩, ⟨_, (r.2.2.2.1 ?_ 0x800 0 ?_).1⟩, ⟨_, r.2.2.2.2.2.1 0 0 ?_ ?_⟩, ⟨_, r.2.2.2.2.2.1 0xFFFFFFE0 32 ?_ ?_⟩,
    (r.2.2.2.2.1 (List.replicate 32 1) (by decide +kernel) (by decide +kernel)).elim fun _ e => ⟨_, e.1⟩⟩ <;>
  decide +kernel

def pkgPs (st w : Nat) (spare peer : Bool) (en : Nat) (errs : List (Nat × Nat)) : State := { pkg with cycle := 4000000, ports := [(3, { ctl := BitVec.ofNat 64 (en*2^63+2^62+2+3*256), state := st, width := w, peer := peer, spare := spare, errs := errs, fails := 8 })] }

/-- `Clause.PortStates` (rules R435, R439 and R440) applies here. -/
theorem witness_portStates (h : Clause.PortStates) :
    (∃ t, exec (.flitCrcFail 3 2) (pkgPs 2 4 false true 0 [(2, 1999000)]) = .next t)
    ∧ (∃ t, exec (.flitCrcFail 3 2) (pkgPs 4 4 false true 1 [(2, 1999000)]) = .next t)
    ∧ (∃ t, exec (.replayDrained 3) (pkgPs 3 4 false true 1 [(2, 1999000)]) = .next t)
    ∧ (∃ t, exec (.replayDrained 3) (pkgPs 4 4 false true 1 [(2, 1999000)]) = .next t)
    ∧ (∃ t, exec (.laneRepairTrigger 3 2) (pkgPs 2 4 false true 0 [(2, 1999000), (2, 1999001)]) = .next t)
    ∧ (∃ t, exec (.laneRepairTrigger 3 2) (pkgPs 3 4 false true 1 [(2, 1999000), (2, 1999001)]) = .next t)
    ∧ (∃ t, exec (.laneRepairTrigger 3 2) (pkgPs 3 4 false true 1 [(2, 9), (2, 1999001)]) = .next t)
    ∧ (∃ t, exec (.replayFailThreshold 3) (pkgPs 4 4 false true 1 [(2, 1999000)]) = .next t)
    ∧ (∃ t, exec (.repairComplete 3) (pkgPs 5 4 false true 0 [(2, 1999000)]) = .next t)
    ∧ (∃ t, exec (.repairFail 3) (pkgPs 5 4 false true 0 [(2, 1999000)]) = .next t)
    ∧ (∃ t, exec (.repairFail 3) (pkgPs 5 1 false true 0 [(2, 1999000)]) = .next t)
    ∧ (∃ t, exec (.laneFail 3) (pkgPs 2 2 true true 0 [(2, 1999000)]) = .next t)
    ∧ (∃ t, exec (.trainingComplete 3 true) (pkgPs 1 2 true true 0 [(2, 1999000)]) = .next t)
    ∧ (∃ t, exec (.trainingComplete 3 true) (pkgPs 1 0 true true 0 []) = .next t)
    ∧ (∃ t, exec (.portDown 3) (pkgPs 2 4 false true 0 [(2, 1999000)]) = .next t)
    ∧ (∃ t, exec (.upctlEnable 3 5) (pkgPs 2 4 false true 0 [(2, 1999000)]) = .next t)
    ∧ (∃ t, exec (.upctlEnable 3 9223372036854775813) (pkgPs 2 2 true true 0 [(2, 1999000)]) = .next t)
    ∧ (∃ t, exec (.upctlEnable 3 9223372036854775813) (pkgPs 3 4 false true 1 [(2, 1999000)]) = .next t) := by
  have r (s : State) (v : W64) := h s 3 v 2 true (by decide)
  refine ⟨(((r (pkgPs 2 4 false true 0 [(2, 1999000)]) 5).1 ?_).1 ?_).imp fun _ e => e.1,
    (((r (pkgPs 4 4 false true 1 [(2, 1999000)]) 5).1 ?_).2 ?_).imp fun _ e => e.1,
    ((r (pkgPs 3 4 false true 1 [(2, 1999000)]) 5).2.2.1 ?_).imp fun _ e => e.1,
    ((r (pkgPs 4 4 false true 1 [(2, 1999000)]) 5).2.2.2.1 ?_).imp fun _ e => e.1,
    (((r (pkgPs 2 4 false true 0 [(2, 1999000), (2, 1999001)]) 5).2.2.2.2.1 ?_ ?_ ?_ ?_ ?_).1 ?_).imp fun _ e => e.1,
    (((r (pkgPs 3 4 false true 1 [(2, 1999000), (2, 1999001)]) 5).2.2.2.2.1 ?_ ?_ ?_ ?_ ?_).2 ?_).imp fun _ e => e.1,
    ((r (pkgPs 3 4 false true 1 [(2, 9), (2, 1999001)]) 5).2.2.2.2.2.1 ?_).imp fun _ e => e.1,
    ((r (pkgPs 4 4 false true 1 [(2, 1999000)]) 5).2.2.2.2.2.2.1 ?_ ?_).imp fun _ e => e.1,
    (((r (pkgPs 5 4 false true 0 [(2, 1999000)]) 5).2.2.2.2.2.2.2.2.1 ?_).2).elim fun _ e => e.elim fun _ e => e.elim fun _ e => e.1.imp fun _ e => e.1,
    (((r (pkgPs 5 4 false true 0 [(2, 1999000)]) 5).2.2.2.2.2.2.2.2.1 ?_).1.1 ?_).imp fun _ e => e.1,
    (((r (pkgPs 5 1 false true 0 [(2, 1999000)]) 5).2.2.2.2.2.2.2.2.1 ?_).1.2 ?_).imp fun _ e => e.1,
    (((r (pkgPs 2 2 true true 0 [(2, 1999000)]) 5).2.2.2.2.2.2.2.2.2.1 ?_ ?_).1 ?_).imp fun _ e => e.1,
    (((r (pkgPs 1 2 true true 0 [(2, 1999000)]) 5).2.2.2.2.2.2.2.2.2.2.1 ?_).1 ?_).imp fun _ e => e.1,
    (((r (pkgPs 1 0 true true 0 []) 5).2.2.2.2.2.2.2.2.2.2.1 ?_).2 ?_).elim fun _ e => e.2.imp fun _ e => e.1,
    ((r (pkgPs 2 4 false true 0 [(2, 1999000)]) 5).2.2.2.2.2.2.2.2.2.2.2.1).imp fun _ e => e.1,
    ((r (pkgPs 2 4 false true 0 [(2, 1999000)]) 5).2.2.2.2.2.2.2.2.2.2.2.2.1 ?_).imp fun _ e => e.1,
    ((r (pkgPs 2 2 true true 0 [(2, 1999000)]) 0x8000000000000005).2.2.2.2.2.2.2.2.2.2.2.2.2.1 ?_ ?_).imp fun _ e => e.1,
    ((r (pkgPs 3 4 false true 1 [(2, 1999000)]) 0x8000000000000005).2.2.2.2.2.2.2.2.2.2.2.2.2.2 ?_ ?_).imp fun _ e => e.1⟩ <;>
  decide +kernel

def flowS : State := { pkg with flowIn := [(2048*7+3, 5)], responses := [((7,3,2), .ack)], mem := [(0x101, 7)] }

def pkgLs : State := { pkg with cycle := 22000000, lostSince := [(7, 500)], xacts := [⟨5,7,0,0,3,.read 0 0,0,0,1,3,8,0⟩, ⟨6,3,0,0,4,.read 0 0,0,0,1,3,8,0⟩], deliveries := [dlv 0, { dlv (BitVec.ofNat 64 (7 * 2^48)) with did := 3 }] }

def pkgLt (n : Nat) : State := { pkg with cycle := n, lostSince := [(7, 500)] }

/-- `Clause.Transactions` (rules R437 and R440) applies here. -/
theorem witness_transactions (h : Clause.Transactions) :
    (∃ t, exec (.ualinkTransactionReceive 7 3 5 (RemoteOp.write 256 [1, 2, 3] [])) flowS = .next t)
    ∧ (∃ t, exec (.ualinkTransactionReceive 7 3 5 (RemoteOp.read 256 [1, 2, 3].length)) flowS = .next t)
    ∧ (∃ t, exec (.ualinkTransactionReceive 7 3 5 (RemoteOp.write 256 [] [])) flowS = .next t)
    ∧ (∃ t, exec (.ualinkTransactionReceive 7 3 2 (RemoteOp.read 256 3)) flowS = .next t)
    ∧ (∃ t, exec (.ualinkTransactionReceive 7 3 6 (RemoteOp.read 256 3)) flowS = .next t)
    ∧ (∃ t, exec (.transactionLossTimeout 7) (pkgLt 2000) = .next t)
    ∧ (∃ t, exec (.transactionLossTimeout 7) pkgLs = .next t) := by
  have r (n : Nat) (b : List Byte) := h.1 flowS 7 3 n 0x100 b
  refine ⟨(((r 5 [1, 2, 3]).2.2.2 ?_ ?_ ?_ ?_ ?_ ?_ ?_ ?_).1).imp fun _ e => e.1,
    (((r 5 [1, 2, 3]).2.2.2 ?_ ?_ ?_ ?_ ?_ ?_ ?_ ?_).2).imp fun _ e => e.1,
    ((r 5 []).2.2.1 ?_ (Or.inl rfl) (.write 0x100 [] []) (Or.inl rfl)).imp fun _ e => e.1,
    ⟨_, (r 2 []).2.1 ((7, 3, 2), .ack) (.read 256 3) ?_ ?_⟩,
    ⟨_, (r 6 []).1 ?_ (.read 256 3)⟩,
    ⟨_, (h.2 (pkgLt 2000) (7) (500) ?_ ?_).1 ?_⟩,
    ((h.2 pkgLs (7) (500) ?_ ?_).2 ?_).imp fun _ e => e.1⟩ <;>
  decide +kernel

def ttbM : W64 := BitVec.ofNat 64 (15 * 2^60 + 2 * 2^25)

def pkgHo : State := { pkg with parts := [(0, { ttb := ttbM, ctl := 2 })], mem := memSetAll [(0x30085, 9)] (cellsAt (2*2^25 + 128 * bucketOf 0x30000 0) (bytesOf (2^63 + 2^62 + 2^61 + 2^60*0 + 3) 8 ++ bytesOf 0x30000 8 ++ bytesOf 0x0 8 ++ bytesOf 0 8)) }

/-- `Obligations.HostAccesses` (rules R335, R442, R443, R444 and R445) applies here. -/
theorem witness_hostAccesses (h : Obligations.HostAccesses) :
    (∃ t, exec (.hostBar2Write 0 196740 [1, 2, 3]) pkgHo = .next t)
    ∧ (∃ t, exec (.hostBar2Read 0 196740 [1, 2, 3].length) pkgHo = .next t)
    ∧ (∃ t, exec (.cxlCacheWrite 196740 [1, 2, 3]) pkgHo = .next t)
    ∧ (∃ t, exec (.hostCxlMemRead 196740) pkgHo = .next t) := by
  refine ⟨((h pkgHo (0) (0x30084) ([1, 2, 3]) ?_ ?_ ?_ ?_ ?_ ?_).1 ?_ ?_).imp fun _ e => e.1,
    ((h pkgHo (0) (0x30084) ([1, 2, 3]) ?_ ?_ ?_ ?_ ?_ ?_).2.2.1 ?_).imp fun _ e => e.1,
    ((h pkgHo (0) (0x30084) ([1, 2, 3]) ?_ ?_ ?_ ?_ ?_ ?_).2.2.2.2.1 ?_ ?_ ?_ ?_).imp fun _ e => e.1,
    ((h pkgHo (0) (0x30084) ([1, 2, 3]) ?_ ?_ ?_ ?_ ?_ ?_).2.2.2.2.2 ?_ ?_ ?_).imp fun _ e => e.1⟩ <;>
  decide +kernel

def smC (en : Nat) : State := { pkg with cycle := 256*100 + 4*0, parts := [(0, { sampctl := BitVec.ofNat 64 (en * 2^63 + 8), sample := { base := 0x50000, ctl := BitVec.ofNat 64 (2^63 + 2), wptr := 5, rptr := 3 } })] }

def pkgTm : State := { pkg with pkgid := 5, cycle := 2000 }

def pkgCe : State := { pkg with cecount := 0x0001000100010002, cycle := 500, mc := { base := 0x50000, ctl := BitVec.ofNat 64 (2^63 + 2), wptr := 5, rptr := 3 } }

/-- `Clause.SamplesAndTime` (rules R447, R453 and R458) applies here. -/
theorem witness_samplesAndTime (h : Clause.SamplesAndTime) :
    (∃ t, exec (.pcSample 0 0) (smC 1) = .next t)
    ∧ (∃ t, exec (.correctedError ErrPlace.l2 256) pkgCe = .next t)
    ∧ (∃ t, exec (.timestampSync 5000) pkgTm = .next t) := by
  refine ⟨((h.1 (smC 1) (0) (0) (0) grp sp page ?_ ?_ ?_ ?_ ?_ ?_).2 ?_ ?_ ?_ ?_ ?_ ?_ ?_).imp fun _ e => e.1,
    (h.2.1 pkgCe (.l2) (32) (0x100) ?_).imp fun _ e => e.1,
    ((h.2.2 pkgTm (5000)).2 ?_).imp fun _ e => e.1⟩ <;>
  repeat' (first | decide +kernel | constructor)

/-- `Clause.Counters` (rule R454) applies here. -/
theorem witness_counters (h : Clause.Counters) : ∃ t, exec (.nop ⟨0, 0, 0, 0, 0, 0, 0, 0, 1, 0, 0, 0⟩) pkg = .next t := by
  refine (h.2.1 pkg grp sp ⟨0, 0, 0, 0, 0, 0, 0, 0, 1, 0, 0, 0⟩ 0 ?_ ?_ ?_ ?_).imp fun _ e => e.1 <;>
  repeat' (first | decide +kernel | constructor)

/-- A package whose partition's counter 3 counts the cycles of splits that wait for their instruction. -/
def pkgCy : State := { pkg with parts := [(0, { pcsel := [(3, BitVec.ofNat 64 (2 ^ 63 + 8 * 2 ^ 8 + 3))] })] }

/-- The cycles of the split of slot 0 that waits for its instruction are counted. -/
theorem witness_counters_cycle (h : Clause.Counters) : ((pkgCy.elapse 1).part 0).pcnt.get 0 3 = 1 := by
  refine (h.2.2 pkgCy 0 3 ?_ ?_ ?_ ?_ ?_ ?_).1.trans ?_ <;> decide +kernel

/-- The fields of `Mapped` as one check. -/
def mappedB (s : State) (part va n : Nat) (e : TlbEnt) : Bool :=
  decide (s.stackTlb0.find? (fun (e : TlbEnt) => e.covers part va) = some e ∧ va < 2 ^ 57 ∧ (e.rd = true ∧ e.wr = true ∧ s.regionOk (e.pa va) = true)
    ∧ regionOf (e.pa va) ≠ 1 ∧ e.mig = none ∧ 0 < n ∧ e.pa va % 128 + n ≤ 128 ∧ s.pathHeld part va n = false ∧ s.owned (e.pa va / 128) = false
    ∧ s.holders (e.pa va / 128) = [] ∧ s.poison = [])

theorem mapped_of {s : State} {part va n : Nat} {e : TlbEnt} (h : mappedB s part va n e = true) : Mapped s part va n e := by
  obtain ⟨a, b, c, d, f, g, i, j, k, l, m⟩ := of_decide_eq_true h
  exact ⟨a, b, c, d, f, g, i, j, k, l, m⟩

/-- The package with a ready continuation of a launch whose teams have all been admitted. -/
def pkgRe : State := { pkg with
  conts := [(5, { crec with ready := some 3, nv := 1 })], launches := [(0, { lch with record := recA 0 0, next := 16 })], mem := [(0x40008, 7), (0x40083, 1)] }

/-- `Clause.Resuming` (rules R379, R387 and R388) applies here. -/
theorem witness_resuming (h : Clause.Resuming) : ∃ t, exec (.admission 0) pkgRe = .next t := by
  have m : ∀ i, i < 96 → mappedB pkgRe 0 (0x40000 + 8 * i) 8 page = true ∧ regionOf (page.pa (0x40000 + 8 * i)) = 0 := by decide +kernel
  refine (h pkgRe 0 5 0 3 { crec with ready := some 3, nv := 1 } { lch with record := recA 0 0, next := 16 } ((pkgRe.placeFor 0 (.cont 5)).get (by decide +kernel))
    ?_ ?_ ?_ ?_ ?_ ?_ ?_ ?_ ?_ (fun i => w64 (numOf (memBytes pkgRe.mem (page.pa (0x40000 + 8 * i)) 8)))
    (fun i hi => ⟨page, mapped_of (m i (lt_of_lt_of_le hi (by decide +kernel))).1, (m i (lt_of_lt_of_le hi (by decide +kernel))).2, rfl⟩)).imp fun _ ⟨_, _, _, e⟩ => e.1 <;>
  repeat' (first | decide +kernel | constructor)

/-- `Clause.PacketWords` (rules R372 and R373) applies here: a header with a reserved bit, and a CWAIT whose address is not aligned. -/
theorem witness_packetWords (h : Clause.PacketWords) :
    headerBad (BitVec.ofNat 64 (2 ^ 56 + 2 ^ 51)) = true ∧ packetBad (wsOf [hN 4 0 0 0, 0x50004, 5] 8) = true :=
  ⟨(h.1 _).mpr (Or.inl (by decide)),
   (h.2 (wsOf [hN 4 0 0 0, 0x50004, 5] 8) (by decide +kernel) (by decide +kernel)).mpr
     (Or.inr (Or.inr (Or.inr (Or.inl ⟨Or.inl (by decide +kernel), Or.inr (by decide +kernel)⟩))))⟩

/-- The package of `witness_accessTraps` with the fault ring on. -/
def pkgRa : State := { pkgTr with parts := [(0, { pfring := BitVec.ofNat 64 (2 ^ 63 + 0x50000 + 3) })] }

/-- A checkpoint with one page and `n` instructions run. -/
def raC (n : Nat) : RunAhead := { regs := grp.regs, split := sp, pages := [⟨0, 0x123000, 4⟩], count := n }

/-- The package with a group that runs ahead. -/
def pkgRb (n : Nat) : State := { pkg.setGroup 0 0 { grp with ra := some (raC n) } with parts := [(0, { pfring := BitVec.ofNat 64 (2 ^ 63 + 0x50000 + 3) })] }

/-- `Clause.RunsAhead` (rules R29 and R411 to R413) applies here: a load without a translation, a FENCE in run-ahead, and the end of its 512 instructions. -/
theorem witness_runsAhead (h : Clause.RunsAhead) :
    (∃ t, exec (.ld { fM 20 8 0 0 0 4 0 0 0 0 1 with ge := 1, g := 3 }) pkgRa = .next t)
    ∧ (∃ t, exec (.st { fM 0 8 2 0 0 4 0 0 0 0 1 with ge := 1, g := 3 }) pkgRa = .next t)
    ∧ (∃ t, exec (.fence (fM 0 0 0 0 0 0 1 3 0 0 0)) (pkgRb 3) = .next t)
    ∧ (∃ t, exec (.nop ⟨0, 0, 0, 0, 0, 0, 0, 0, 1, 0, 0, 0⟩) (pkgRb 512) = .next t) := by
  refine ⟨(h.1 pkgRa gTr sp { fM 20 8 0 0 0 4 0 0 0 0 1 with ge := 1, g := 3 } 5 false ?_ ?_ ?_ ?_ ?_ ?_ ?_ ?_ ?_ ?_ ?_ ?_ ?_ ?_ ?_ ?_ ?_).imp fun _ e => e.1,
    (h.1 pkgRa gTr sp { fM 0 8 2 0 0 4 0 0 0 0 1 with ge := 1, g := 3 } 5 true ?_ ?_ ?_ ?_ ?_ ?_ ?_ ?_ ?_ ?_ ?_ ?_ ?_ ?_ ?_ ?_ ?_).imp fun _ e => e.1,
    (h.2 (pkgRb 3) { grp with ra := some (raC 3) } sp (raC 3) (fM 0 0 0 0 0 0 1 3 0 0 0) fC ⟨0, 0, 0, 0, 0, 0, 0, 0, 1, 0, 0, 0⟩ (.fence (fM 0 0 0 0 0 0 1 3 0 0 0))
      ?_ ?_ ?_ ?_ ?_ ?_ (Or.inl (by simp))).imp fun _ e => e.1,
    (h.2 (pkgRb 512) { grp with ra := some (raC 512) } sp (raC 512) (fM 0 0 0 0 0 0 1 3 0 0 0) fC ⟨0, 0, 0, 0, 0, 0, 0, 0, 1, 0, 0, 0⟩
      (.nop ⟨0, 0, 0, 0, 0, 0, 0, 0, 1, 0, 0, 0⟩) ?_ ?_ ?_ ?_ ?_ ?_ (Or.inr (Or.inl ⟨by decide +kernel, by simp⟩))).imp fun _ e => e.1⟩ <;>
  repeat' (first | decide +kernel | constructor)

/-- A saved team of one group, with a register of each state. -/
def Tsd : Team := { team0 with state := .saved, saveSlot := some 2, ls := [(5, 9)], savedGroups := [{ grp with stopped := true, preempt := some 0 }] }

def pkgSx : State := { pkg with cores := [(0, { tlb := [page] })], teams := [(0, Tsd)], parts := [(0, { savepool := BitVec.ofNat 64 (0x100 * 2^22 + 5), slotsUsed := [2] })] }

/-- `Clause.TeamsResumed` (rules R421 and R422) applies here. -/
theorem witness_teamsResumed (h : Clause.TeamsResumed) : ∃ t, exec (.admission 0) pkgSx = .next t := by
  refine (h pkgSx 0 0 0 ((pkgSx.ranked 0).head (by decide +kernel)).order Tsd { grp with stopped := true, preempt := some 0 }
    ((pkgSx.placeFor 0 (.saved 0)).get (by decide +kernel)) ?_ ?_ ?_ ?_ ?_ ?_ ?_ ?_ ?_).imp fun _ ⟨_, _, _, e⟩ => e.1 <;>
  repeat' (first | decide +kernel | constructor)

/-- The package with its machine-check ring on, a poisoned granule, a poisoned word of a local store, and a write to package 7 that is lost. -/
def pkgMk : State := { pkg with
  mc := { base := 0x50000, ctl := BitVec.ofNat 64 (2 ^ 63 + 2), wptr := 5, rptr := 3 }, poison := [0x1800]
  parts := pkgHo.parts, mem := pkgHo.mem, teams := [(0, { team0 with lsBad := [4] })] }

def pkgMl : State := { pkgMk with
  cycle := 22000000, cores := [], lostSince := [(7, 500)], xacts := [⟨5, 7, 0, 0, 3, .write 0x100 [9] [], 0, 0, 1, 3, 8, 0⟩] }

theorem checkable_iff {s : State} : Checkable s ↔ fld s.mc.ctl 63 1 = 1 ∧ s.mc.full = false ∧ regionOf s.mc.slot ≠ 1 ∧ s.holders (s.mc.slot / 128) = []
    ∧ s.owned (s.mc.slot / 128) = false ∧ s.late = [] :=
  ⟨fun h => ⟨h.on, h.room, h.near, h.holders, h.owned, h.late⟩, fun ⟨a, b, c, d, e, f⟩ => ⟨a, b, c, d, e, f⟩⟩

/-- `Clause.MachineChecks` (rules R221, R290, R415, R440 and R456) applies here. -/
theorem witness_machineChecks (h : Clause.MachineChecks) :
    Checked pkgMk (pkgMk.mcRecord 1 0 0x100 0 0) 1 0 0x100 0 0
    ∧ (∃ t, exec (.hostBar2Read 0 (32 * 0x1800) 32) pkgMk = .next t)
    ∧ (∃ t, exec (.hostBar2Write 0 (32 * 0x1800) [1]) pkgMk = .next t)
    ∧ (∃ t, exec (.hostBar2Write 0 (32 * 0x1800) (List.replicate 32 1)) pkgMk = .next t)
    ∧ (pkgMk.lsWrite 0 32 (List.replicate 8 1) 0).mc = pkgMk.mc
    ∧ Checked pkgMk (pkgMk.lsWrite 0 33 [1] 0) 12 0 (8 * 4 + team0.lsBase) 0 0
    ∧ (∃ t, perform (.strike (.row 0 3)) pkgMk = .next t)
    ∧ (∃ t, exec (.transactionLossTimeout 7) pkgMl = .next t) := by
  have c : Checkable pkgMk := by simp only [checkable_iff]; decide +kernel
  have r (b : List Byte) := h.2.1 pkgMk 0 0x1800 b c rfl
  have l (o : Nat) (b : List Byte) := h.2.2.1 pkgMk 0 { team0 with lsBad := [4] } o b 0 4 c rfl rfl rfl
  refine ⟨(h.1 pkgMk 1 0 0x100 0 0).1 c, ((r [1] ?_ ?_ ?_ ?_ ?_).1 ?_).imp fun _ e => e.1, ((r [1] ?_ ?_ ?_ ?_ ?_).2.1 ?_ ?_ ?_).imp fun _ e => e.1,
    ((r (List.replicate 32 1) ?_ ?_ ?_ ?_ ?_).2.2 ?_ ?_).imp fun _ e => e.1, ((l 32 (List.replicate 8 1) ?_ ?_ ?_).1 ?_ ?_).1, ((l 33 [1] ?_ ?_ ?_).2 ?_).1,
    (h.2.2.2.1 pkgMk 0 3 c ?_ ?_).imp fun _ e => e.1,
    (h.2.2.2.2 pkgMl 7 500 _ 0x100 [9] [] (by simp only [checkable_iff]; decide +kernel) rfl ?_ ?_ ?_ ?_ ?_ ?_).imp fun _ e => e.1⟩ <;>
  repeat' (first | decide +kernel | constructor)

/-- `Clause.StallCodes` (rule R167) applies here: a split that waits for its next instruction, and one at ENDIF. -/
theorem witness_stallCodes (h : Clause.StallCodes) :
    pkg.stallCode 0 0 grp { sp with stall := 8, since := 5 } = 8 ∧ pkg.stallCode 0 0 grp { sp with stall := 5, wait := .merge, since := 5 } = 5 := by
  have i : grp.entry = none ∧ ∀ f, grp.frame = some f → f.split = sp.id := ⟨rfl, fun _ h => nomatch h⟩
  exact ⟨((((h pkg 0 0 grp { sp with stall := 8, since := 5 }).2 (Or.inl (by decide))).2.2.2.2 i rfl).2.2.1 rfl (by decide) rfl),
    ((((h pkg 0 0 grp { sp with stall := 5, wait := .merge, since := 5 }).2 (Or.inl (by decide))).2.2.2.2 i rfl).1 0 0 []).2.2.1 rfl⟩

end

end Sys2Proof.Tests
end

section
/-! The word checks come first: an instruction of an encoded word issues through `State.begin`, which makes them before it reads the mask or
the guard, and the decoder refuses what they refuse. TDRAIN alone acts once more after its issue: it holds its split where the term queue
has the entry that its issue would have made, and an entry of that number that was there before is enough. -/

namespace Sys2Proof.Machine

/-! ### The decoder and the word checks -/

/-- A word of an opcode that is not assigned fails check 1 (rule R60). -/
theorem decode_of_unassigned {w : W64} (env : Env) (h : decodeWord w = none) : decode env w = .error (bad 1) := by
  simp only [decode, h]

/-- A word whose instruction fails a word check is refused with that check. -/
theorem decode_of_check_some {env : Env} {w : W64} {i : Instr} {e : Illegal} (h : decodeWord w = some i) (hc : i.check env = some e) :
    decode env w = .error e := by
  simp only [decode, h, hc]

/-- A word whose instruction passes the word checks is decoded to it. -/
theorem decode_of_check_none {env : Env} {w : W64} {i : Instr} (h : decodeWord w = some i) (hc : i.check env = none) :
    decode env w = .ok i := by
  simp only [decode, h, hc]

theorem check_of_decode {env : Env} {w : W64} {i : Instr} (h : decode env w = .ok i) : i.check env = none := by
  cases hw : decodeWord w with
  | none => simp [decode_of_unassigned env hw] at h
  | some j =>
    cases hc : j.check env with
    | none =>
      rw [decode_of_check_none hw hc] at h
      cases h
      exact hc
    | some e => simp [decode_of_check_some hw hc] at h

theorem decode_eq_error_iff {env : Env} {w : W64} {e : Illegal} :
    decode env w = .error e ↔ (decodeWord w = none ∧ e = bad 1) ∨ ∃ i, decodeWord w = some i ∧ i.check env = some e := by
  cases hw : decodeWord w with
  | none => simp [decode_of_unassigned env hw, eq_comm]
  | some j =>
    cases hc : j.check env with
    | none => simp [decode_of_check_none hw hc, hc]
    | some e' => simp [decode_of_check_some hw hc, hc]

/-- The second clause of O4 holds. -/
theorem decodeChecks : Clause.DecodeChecks := fun _ _ => ⟨fun _ => check_of_decode, fun _ => decode_eq_error_iff⟩

/-! ### The word checks at issue -/

/-- The word checks are the first thing in an issue: what they find is raised, and the rest of the issue is not reached. -/
theorem begin_of_check_some {s : State} {G : Group} {p : Split} {i : Instr} {e : Illegal} (control : Bool)
    (k : State → Ctx → Group → Split → State) (h : Calm s G p) (he : i.check (s.env G) = some e) :
    s.begin i control k = s.illegal s.cur e := by
  simp only [State.begin, h.here, h.split, he]

/-- The course of an issue: its beginning, with whatever follows, and nothing else. -/
def Begins (i : Instr) (s t : State) : Prop := ∃ control k, t = s.begin i control k

theorem Begins.of_check_some {s t : State} {G : Group} {p : Split} {i : Instr} {e : Illegal} (hb : Begins i s t) (h : Calm s G p)
    (he : i.check (s.env G) = some e) : t = s.illegal s.cur e := by
  obtain ⟨control, k, rfl⟩ := hb
  exact begin_of_check_some control k h he

theorem begins_termOp {s : State} (i : Instr) (f : FmtX) (plan : Plan) (chk : State → Group → TermChecks) (queued : Bool)
    (touch : State → Group → List (Nat × Nat) × Bool) (k : State → Ctx → Group → Split → State × Inflight) :
    Begins i s (s.termOp i f plan chk queued touch k) := ⟨_, _, rfl⟩

theorem begins_loadOp (i : Instr) (f : FmtX) (sparse : Bool) (s : State) : Begins i s (s.loadOp i f sparse) := by
  unfold State.loadOp; exact begins_termOp ..

theorem begins_tmmaBody (f : FmtX) (s : State) : Begins (.tmma f) s (tmmaBody f s) := by
  unfold tmmaBody; exact begins_termOp ..

theorem begins_tmmaqBody (f : FmtX) (s : State) : Begins (.tmmaq f) s (tmmaqBody f s) := by
  unfold tmmaqBody; exact begins_termOp ..

theorem begins_tfeedBody (f : FmtX) (s : State) : Begins (.tfeed f) s (tfeedBody f s) := by
  unfold tfeedBody; exact begins_termOp ..

theorem begins_tzeroBody (f : FmtX) (s : State) : Begins (.tzero f) s (tzeroBody f s) := by
  unfold tzeroBody; exact begins_termOp ..

theorem begins_thistBody (f : FmtX) (s : State) : Begins (.thist f) s (thistBody f s) := by
  unfold thistBody; exact begins_termOp ..

theorem begins_trecodeBody (f : FmtX) (s : State) : Begins (.trecode f) s (trecodeBody f s) := by
  unfold trecodeBody; exact begins_termOp ..

theorem begins_tdecodeBody (f : FmtX) (s : State) : Begins (.tdecode f) s (tdecodeBody f s) := by
  unfold tdecodeBody; exact begins_termOp ..

/-- Every instruction that has a word only issues; TDRAIN is the one that does more. -/
theorem exec_begins {i : Instr} (h : (encode i).isSome = true) (hd : ∀ f, i ≠ .tdrain f) (s : State) :
    ∃ t, exec i s = .next t ∧ Begins i s t := by
  cases i
  case tdrain f => exact absurd rfl (hd f)
  case tldw f => exact ⟨_, rfl, begins_loadOp ..⟩
  case tldws f => exact ⟨_, rfl, begins_loadOp ..⟩
  case tmma f => exact ⟨_, rfl, begins_tmmaBody f s⟩
  case tmmaq f => exact ⟨_, rfl, begins_tmmaqBody f s⟩
  case tfeed f => exact ⟨_, rfl, begins_tfeedBody f s⟩
  case tzero f => exact ⟨_, rfl, begins_tzeroBody f s⟩
  case thist f => exact ⟨_, rfl, begins_thistBody f s⟩
  case trecode f => exact ⟨_, rfl, begins_trecodeBody f s⟩
  case tdecode f => exact ⟨_, rfl, begins_tdecodeBody f s⟩
  all_goals cases h <;> exact ⟨_, rfl, _, _, rfl⟩

/-! ### TDRAIN -/

/-- The term queue of the current core holds an entry of the number that the next entry would take. (`State.enqueue` makes none: it counts the
number up.) -/
def State.stale (s : State) : Bool := (s.core s.cur.core).tq.any (fun q => q.id == (s.core s.cur.core).nextId)

/-- The current split waits for the drain of the next entry's number. -/
def State.holdDrain (s t : State) : State :=
  t.updGroup s.cur.core s.cur.slot (fun G =>
    G.updSplit s.cur.split (fun p => { p with wait := .drain (s.core s.cur.core).nextId, stall := 14 }))

theorem core_setGroup_tq (s : State) (c g d : Nat) (G : Group) : ((s.setGroup c g G).core d).tq = (s.core d).tq := by
  rw [core_setGroup]; split
  · subst_vars; rfl
  · rfl

theorem core_trapEnd_tq (s : State) (c g code d : Nat) : ((s.trapEnd c g code).core d).tq = (s.core d).tq := by
  unfold State.trapEnd
  split
  · rfl
  · exact core_setGroup_tq ..

theorem core_takeCause_tq (s : State) (c g d : Nat) (q : Cause) : ((s.takeCause c g q).core d).tq = (s.core d).tq := by
  unfold State.takeCause
  split
  · rfl
  · dsimp only
    split
    · exact core_trapEnd_tq ..
    · split <;> exact core_setGroup_tq ..

/-- ILLEGAL leaves the term queues as they are. -/
theorem Calm.core_illegal_tq {s : State} {G : Group} {p : Split} (h : Calm s G p) (e : Illegal) (c : Nat) :
    ((s.illegal s.cur e).core c).tq = (s.core c).tq := by
  simp only [State.illegal, State.raise, h.here, h.ahead, h.split, Option.isSome_none, Bool.false_eq_true, if_false,
    core_takeCause_tq, core_setGroup_tq]

/-- A TDRAIN that fails a word check raises ILLEGAL, and then holds its split for a stale entry, if there is one. -/
theorem exec_tdrain_of_check_some {s : State} {G : Group} {p : Split} {f : FmtX} {e : Illegal} (h : Calm s G p)
    (he : (Instr.tdrain f).check (s.env G) = some e) :
    exec (.tdrain f) s = .next (if s.stale then s.holdDrain (s.illegal s.cur e) else s.illegal s.cur e) := by
  have hb : tdrainBody f s = if s.stale then s.holdDrain (s.illegal s.cur e) else s.illegal s.cur e := by
    unfold tdrainBody State.stale State.holdDrain
    simp only [(begins_termOp ..).of_check_some h he, h.core_illegal_tq]
  exact congrArg Host.Outcome.next hb

/-- The first clause of O4 holds wherever the term queue holds no stale entry, of every instruction. -/
theorem exec_of_check_some {s : State} {G : Group} {p : Split} {i : Instr} {e : Illegal} (h : Calm s G p) (hs : s.stale = false)
    (hi : (encode i).isSome = true) (he : i.check (s.env G) = some e) :
    exec i s = .next (s.illegal s.cur e) := by
  by_cases hd : ∃ f, i = .tdrain f
  · obtain ⟨f, rfl⟩ := hd
    rw [exec_tdrain_of_check_some h he, hs]
    rfl
  · obtain ⟨t, ht, hb⟩ := exec_begins hi (fun f hf => hd ⟨f, hf⟩) s
    rw [ht, hb.of_check_some h he]

/-! ### The counterexample -/

/-- A split of one lane, about to issue. -/
def drainSplit : Split := { id := 0, pc := 0x1000, am := 1, own := 1 }

def drainGroup : Group :=
  { gid := 1, lid := 0, tid := 0, idx := 0, tindex := 0, part := 0, w := 32, resv := 0, admitted := 0, splits := [drainSplit] }

/-- A package whose core 0 has the term queue `tq` and numbers its next entry 0; its partition has a handler. -/
def drainPackage (tq : List TermEntry) : State := { State.reset with
  cores := [(0, { slots := [(0, drainGroup)], tq := tq })]
  parts := [(0, { trapvec := 0x8000000000000000 })] }

/-- The package with an entry 0 in the queue already. -/
def stalePackage : State :=
  drainPackage [{ id := 0, kind := .drain, slot := 0, gid := 1, iid := 0, tid := 0, idx := 0, part := 0, split := 0, w := 32, head := 0 }]

/-- A TDRAIN with a reserved bit set, which check 2 refuses. -/
def reservedDrain : FmtX := ⟨0, 0, 0, 0, 0, 0, 0, 0, 1, 0, 0, 0⟩

theorem calm_drainPackage (tq : List TermEntry) : Calm (drainPackage tq) drainGroup drainSplit where
  here := rfl
  only := rfl
  num := rfl
  answered := rfl
  ahead := rfl
  idle := rfl
  loads := rfl
  arms := rfl

theorem check_reservedDrain (tq : List TermEntry) :
    (Instr.tdrain reservedDrain).check ((drainPackage tq).env drainGroup) = some (bad 2) := rfl

/-- With an empty queue the refused TDRAIN only raises ILLEGAL. -/
theorem exec_reservedDrain_of_empty_queue :
    exec (.tdrain reservedDrain) (drainPackage []) = .next ((drainPackage []).illegal {} (bad 2)) :=
  exec_of_check_some (calm_drainPackage []) rfl rfl (check_reservedDrain [])

/-- What the splits of a slot wait for. -/
def State.waits (s : State) (c g : Nat) : Option (List Wait) := (s.group c g).map (fun G => G.splits.map (fun p => p.wait))

/-- The trap enters the handler, and the split is then made to wait for a drain that was never issued. -/
theorem waits_stalePackage : (stalePackage.illegal {} (bad 2)).waits 0 0 = some [.ready]
    ∧ (stalePackage.holdDrain (stalePackage.illegal {} (bad 2))).waits 0 0 = some [.drain 0] := by
  decide +kernel

/-- The first clause of O4 fails: in `stalePackage` the refused TDRAIN does not only raise ILLEGAL. -/
theorem not_illegalFirst : ¬ Clause.IllegalFirst := by
  intro h
  have hraise := h stalePackage _ _ (.tdrain reservedDrain) _ (calm_drainPackage _) rfl (check_reservedDrain _)
  have hexec : exec (.tdrain reservedDrain) stalePackage = .next (stalePackage.holdDrain (stalePackage.illegal {} (bad 2))) :=
    exec_tdrain_of_check_some (calm_drainPackage _) (check_reservedDrain _)
  have hheld : stalePackage.holdDrain (stalePackage.illegal {} (bad 2)) = stalePackage.illegal {} (bad 2) :=
    Host.Outcome.next.inj (hexec.symm.trans hraise)
  obtain ⟨hready, hdrain⟩ := waits_stalePackage
  rw [hheld, hready] at hdrain
  exact absurd hdrain (by decide)

/-- Refutes O4: a TDRAIN that fails a word check holds its split for a drain, in its trap handler, where the term queue already has an entry
of the number that its own would have taken. `Calm` does not exclude such a state; without such an entry both clauses say what the model
does (`exec_of_check_some`, `decodeChecks`). -/
theorem not_illegalBeforeAll : ¬ Obligations.IllegalBeforeAll := fun ⟨hfirst, _⟩ => not_illegalFirst hfirst

end Sys2Proof.Machine
end

section
/-! An instruction of format R or I issues, in a calm group, with the writes that its operation computes. -/

namespace Sys2Proof.Machine

/-- An instruction whose meaning is `State.aluR` with the operation `op` computes `op`. -/
theorem formR_of_exec {mk : FmtR → Instr} {h : FmtR → Shape} {sx : FmtR → Bool} {op : FmtR → Nat → Nat → Nat → Nat}
    (hexec : ∀ f s, exec (mk f) s = .next (s.aluR (mk f) f (h f) (sx f) (op f))) : FormR mk h sx op := by
  intro s G p f hc hl ha hn
  refine ⟨_, hexec f s, ?_⟩
  unfold State.aluR
  rw [begin_calm false _ hc hl (.inr ha)]
  exact compute_calm _ _ hc hn

/-- The same of any function of the same values. -/
theorem formR_of_exec_eq {mk : FmtR → Instr} {h : FmtR → Shape} {sx : FmtR → Bool} {op val : FmtR → Nat → Nat → Nat → Nat}
    (hexec : ∀ f s, exec (mk f) s = .next (s.aluR (mk f) f (h f) (sx f) (op f)))
    (hval : ∀ f a b c, val f a b c = op f a b c) : FormR mk h sx val := by
  have hop : val = op := by funext f a b c; exact hval f a b c
  exact hop ▸ formR_of_exec hexec

/-- An instruction whose meaning is `State.aluI` with the operation `op`, on the immediate taken to `bits` bits, computes any function that
agrees with `op` where the immediate is taken to the operand's width. -/
theorem formI_of_exec {mk : FmtI → Instr} {pred : Bool} {bits : FmtI → Nat} {op val : FmtI → Nat → Nat → Nat}
    (hexec : ∀ f s, exec (mk f) s = .next (s.aluI (mk f) f pred (bits f) (op f)))
    (hval : ∀ f a, val f a (immI f (nI f)) = op f a (immI f (bits f))) : FormI mk pred val := by
  intro s G p f hc hl ha hn
  refine ⟨_, hexec f s, ?_⟩
  unfold State.aluI
  rw [begin_calm false _ hc hl (.inr ha)]
  simp only [hval]
  exact compute_calm _ _ hc hn

end Sys2Proof.Machine
end


section
/-! The operations of rules R75 to R87 in the arithmetic of integers and in bits. -/

namespace Sys2Proof.Machine

/-! ### Widths -/

theorem tyWidth_eq (ty : BitVec 4) : tyWidth ty = if tyIs64 ty then 64 else 32 := by
  revert ty; decide

/-! ### Wrapped and signed values -/

theorem wrapInt_eq_toNat (x : Int) (n : Nat) : wrapInt x n = (BitVec.ofInt n x).toNat := (BitVec.toNat_ofInt x).symm

theorem sextNat_eq_toInt (x n : Nat) : sextNat x n = (BitVec.ofNat n x).toInt := by
  rw [BitVec.toInt_eq_toNat_cond, BitVec.toNat_ofNat]; rfl

theorem wrapInt_natCast (x n : Nat) : wrapInt x n = x % 2 ^ n := by
  unfold wrapInt; norm_cast

theorem wrapInt_mod_two_pow (x : Int) {m n : Nat} (h : m ≤ n) : wrapInt x n % 2 ^ m = wrapInt x m := by
  have hdvd : ((2 ^ m : Nat) : Int) ∣ ((2 ^ n : Nat) : Int) := by exact_mod_cast pow_dvd_pow 2 h
  have hnonneg := Int.emod_nonneg x (show ((2 ^ n : Nat) : Int) ≠ 0 by positivity)
  unfold wrapInt
  rw [← Int.emod_emod_of_dvd x hdvd, Int.toNat_emod hnonneg (by positivity), Int.toNat_natCast]

/-- The value of a pattern, wrapped, is the pattern. -/
@[simp] theorem wrapInt_ival (signed : Bool) (n x : Nat) : wrapInt (ival signed n x) n = x % 2 ^ n := by
  cases signed with
  | true => simp [ival, wrapInt_eq_toNat, sextNat_eq_toInt]
  | false =>
    rw [show ival false n x = ((x % 2 ^ n : Nat) : Int) from rfl, wrapInt_natCast, Nat.mod_mod]

theorem ival_mod (signed : Bool) (n x : Nat) : ival signed n (x % 2 ^ n) = ival signed n x := by
  simp only [ival, sextNat, Nat.mod_mod]

/-- Two patterns have one value only where they are the same n bits. -/
theorem ival_eq_iff {signed : Bool} {n x y : Nat} : ival signed n x = ival signed n y ↔ x % 2 ^ n = y % 2 ^ n := by
  constructor
  · intro h
    rw [← wrapInt_ival signed n x, h, wrapInt_ival]
  · intro h
    rw [← ival_mod signed n x, h, ival_mod]

theorem ival_eq_zero_iff {signed : Bool} {n x : Nat} : ival signed n x = 0 ↔ x % 2 ^ n = 0 := by
  have h0 : ival signed n 0 = 0 := by cases signed <;> simp [ival, sextNat]
  rw [← h0, ival_eq_iff, Nat.zero_mod]

/-! ### Elements (rules R73 and R75) -/

theorem elem_lt (x e k : Nat) : elem x e k < 2 ^ e := Nat.mod_lt _ (by positivity)

/-- The elements of a sum of elements in their places. -/
theorem elem_foldl_place {e : Nat} {g : Nat → Nat} (hg : ∀ k, g k < 2 ^ e) (m : Nat) :
    (List.range m).foldl (fun r k => r + g k * 2 ^ (k * e)) 0 < 2 ^ (m * e)
      ∧ ∀ k < m, elem ((List.range m).foldl (fun r k => r + g k * 2 ^ (k * e)) 0) e k = g k := by
  induction m with
  | zero => simp
  | succ m ih =>
    obtain ⟨hlt, helem⟩ := ih
    rw [List.range_succ, List.foldl_append, List.foldl_cons, List.foldl_nil]
    generalize (List.range m).foldl (fun r k => r + g k * 2 ^ (k * e)) 0 = r at hlt helem ⊢
    constructor
    · calc r + g m * 2 ^ (m * e) < (1 + g m) * 2 ^ (m * e) := by linarith
        _ ≤ 2 ^ e * 2 ^ (m * e) := Nat.mul_le_mul_right _ (by have := hg m; omega)
        _ = 2 ^ ((m + 1) * e) := by rw [← pow_add]; ring_nf
    · intro k hk
      unfold elem
      rcases Nat.lt_succ_iff_lt_or_eq.mp hk with hlow | rfl
      · obtain ⟨d, rfl⟩ : ∃ d, m = k + 1 + d := ⟨m - (k + 1), by omega⟩
        have hsplit : g (k + 1 + d) * 2 ^ ((k + 1 + d) * e) = 2 ^ (k * e) * (2 ^ e * (g (k + 1 + d) * 2 ^ (d * e))) := by ring
        rw [hsplit, Nat.add_mul_div_left _ _ (by positivity), Nat.add_mul_mod_self_left]
        exact helem k hlow
      · rw [Nat.add_mul_div_right _ _ (by positivity), Nat.div_eq_of_lt hlt, Nat.zero_add, Nat.mod_eq_of_lt (hg k)]

/-- Each element of the result is the operation's result on the operands' elements. -/
theorem elem_perElem {n e k : Nat} (op : Nat → Nat → Nat) (a b : Nat) (hk : k < n / e) :
    elem (perElem n e op a b) e k = op (elem a e k) (elem b e k) % 2 ^ e := by
  have h := (elem_foldl_place (g := fun k => op (elem a e k) (elem b e k) % 2 ^ e) (fun _ => Nat.mod_lt _ (by positivity)) (n / e)).2 k hk
  simpa only [perElem, elem, Nat.shiftRight_eq_div_pow] using h

theorem ival_elem (signed : Bool) (x e k : Nat) :
    ival signed e (elem x e k) = if signed then sextNat (elem x e k) e else (elem x e k : Int) := by
  unfold ival
  rw [Nat.mod_eq_of_lt (elem_lt x e k)]

theorem satTo_eq (signed : Bool) (x : Int) (n : Nat) : satTo signed x n =
    if signed then max (-(2 ^ (n - 1) : Int)) (min x (2 ^ (n - 1) - 1)) else max 0 (min x (2 ^ n - 1)) := by
  simp only [satTo, sats, satn, Nat.cast_pow, Nat.cast_ofNat]

/-- Rule R75 for one element: the exact result, saturated where asked, and wrapped. -/
theorem elem_elemOp {ty : BitVec 4} {k : Nat} (sat : Bool) (op : Int → Int → Int) (a b : Nat) (hk : k < tyWidth ty / tyElem ty) :
    elem (elemOp ty sat op a b) (tyElem ty) k = intElem (tyIsSigned ty) sat (tyElem ty) op (elem a (tyElem ty) k) (elem b (tyElem ty) k) := by
  unfold elemOp
  rw [elem_perElem _ _ _ hk]
  exact wrapInt_mod_two_pow _ le_rfl

/-! ### Products and quotients (rules R76 and R77) -/

/-- The upper half of a double-width product. -/
theorem wrapInt_double_div (x : Int) (n : Nat) : wrapInt x (2 * n) / 2 ^ n = wrapInt (x / ((2 ^ n : Nat) : Int)) n := by
  have hpos : (0 : Int) < ((2 ^ n : Nat) : Int) := by positivity
  have hdouble : ((2 ^ (2 * n) : Nat) : Int) = ((2 ^ n : Nat) : Int) * ((2 ^ n : Nat) : Int) := by rw [two_mul, pow_add, Nat.cast_mul]
  have hhalf : x % ((2 ^ (2 * n) : Nat) : Int) / ((2 ^ n : Nat) : Int) = x / ((2 ^ n : Nat) : Int) % ((2 ^ n : Nat) : Int) := by
    rw [hdouble, Int.emod_def, Int.emod_def, mul_assoc, Int.sub_mul_ediv_left _ _ hpos.ne', Int.ediv_ediv_of_nonneg hpos.le]
  unfold wrapInt
  rw [← hhalf, ← Int.toNat_of_nonneg (Int.emod_nonneg x (show ((2 ^ (2 * n) : Nat) : Int) ≠ 0 by positivity)), ← Int.natCast_ediv,
    Int.toNat_natCast, Int.toNat_natCast]

theorem wrapInt_neg_one (n : Nat) : wrapInt (-1) n = 2 ^ n - 1 := by
  have hpos : 0 < 2 ^ n := by positivity
  unfold wrapInt
  rw [← Int.add_emod_right, Int.emod_eq_of_lt] <;> omega

/-- The one quotient that overflows wraps to its dividend. -/
theorem wrapInt_neg_min {n : Nat} (hn : 0 < n) : wrapInt (-(-(2 ^ (n - 1) : Int))) n = wrapInt (-(2 ^ (n - 1) : Int)) n := by
  have hdouble : ((2 ^ n : Nat) : Int) = 2 ^ (n - 1) + 2 ^ (n - 1) := by
    obtain ⟨m, rfl⟩ : ∃ m, n = m + 1 := ⟨n - 1, by omega⟩
    push_cast; ring_nf
  unfold wrapInt
  rw [← Int.add_emod_right (-(2 ^ (n - 1) : Int)), hdouble]
  ring_nf

theorem width_pos_of_ival_ne_zero {signed : Bool} {n x : Nat} (h : ival signed n x ≠ 0) : 0 < n := by
  rcases Nat.eq_zero_or_pos n with rfl | hn
  · exact absurd (ival_eq_zero_iff.mpr (by simp [Nat.mod_one])) h
  · exact hn

/-- Rule R77: the quotient, with its two cases that do not trap. -/
theorem divQ_eq (signed : Bool) (n a b : Nat) : divQ signed n a b =
    wrapInt (if ival signed n b = 0 then -1
      else if signed = true ∧ ival signed n a = -(2 ^ (n - 1) : Int) ∧ ival signed n b = -1 then ival signed n a
      else (ival signed n a).tdiv (ival signed n b)) n := by
  unfold divQ
  by_cases hzero : ival signed n b = 0
  · rw [if_pos (ival_eq_zero_iff.mp hzero), if_pos hzero, wrapInt_neg_one]
  · rw [if_neg (fun h => hzero (ival_eq_zero_iff.mpr h)), if_neg hzero]
    split_ifs with hover
    · obtain ⟨-, ha, hb⟩ := hover
      rw [ha, hb, Int.tdiv_neg, Int.tdiv_one, wrapInt_neg_min (width_pos_of_ival_ne_zero hzero)]
    · rfl

/-- Rule R77: the remainder, with its two cases that do not trap. -/
theorem divR_eq (signed : Bool) (n a b : Nat) : divR signed n a b =
    wrapInt (if ival signed n b = 0 then ival signed n a
      else if signed = true ∧ ival signed n a = -(2 ^ (n - 1) : Int) ∧ ival signed n b = -1 then 0
      else ival signed n a - (ival signed n a).tdiv (ival signed n b) * ival signed n b) n := by
  unfold divR
  by_cases hzero : ival signed n b = 0
  · rw [if_pos (ival_eq_zero_iff.mp hzero), if_pos hzero, wrapInt_ival]
  · rw [if_neg (fun h => hzero (ival_eq_zero_iff.mpr h)), if_neg hzero]
    split_ifs with hover
    · obtain ⟨-, -, hb⟩ := hover
      rw [hb, Int.tmod_neg, Int.tmod_one]
    · rw [Int.tmod_def, mul_comm]

/-! ### Bits (rules R79 and R80) -/

theorem testBit_nbOf {n i : Nat} (nb : Bool) (b : Nat) (hi : i < n) : (nbOf nb n b).testBit i = (b.testBit i != nb) := by
  cases nb with
  | false => simp [nbOf]
  | true =>
    have hlt : b % 2 ^ n < 2 ^ n := Nat.mod_lt _ (by positivity)
    simp [nbOf, Nat.sub_sub, Nat.add_comm 1, Nat.testBit_two_pow_sub_succ hlt, hi]

theorem testBit_shlOp {n i : Nat} (a s : Nat) (hi : i < n) : (shlOp n a s).testBit i = (decide (s ≤ i) && a.testBit (i - s)) := by
  unfold shlOp
  split
  · rw [Nat.testBit_mod_two_pow, Nat.testBit_mul_two_pow, decide_eq_true hi, Bool.true_and]
  · rw [Nat.zero_testBit, decide_eq_false (by omega), Bool.false_and]

theorem testBit_eq_false_of_lt_two_pow {n i a : Nat} (ha : a < 2 ^ n) (hi : n ≤ i) : a.testBit i = false :=
  Nat.testBit_lt_two_pow (ha.trans_le (Nat.pow_le_pow_right (by decide) hi))

theorem testBit_shrOp {n a : Nat} (s i : Nat) (ha : a < 2 ^ n) : (shrOp n a s).testBit i = a.testBit (i + s) := by
  unfold shrOp
  split
  · rw [Nat.testBit_div_two_pow]
  · rw [Nat.zero_testBit, testBit_eq_false_of_lt_two_pow ha (by omega)]

theorem sarOp_eq_sshiftRight (n a s : Nat) : sarOp n a s = ((BitVec.ofNat n a).sshiftRight (min s n)).toNat := by
  rw [sarOp, wrapInt_eq_toNat, sextNat_eq_toInt, BitVec.sshiftRight, Int.shiftRight_eq_div_pow]

theorem testBit_sarOp {n i : Nat} (a s : Nat) (hi : i < n) : (sarOp n a s).testBit i = a.testBit (min (i + s) (n - 1)) := by
  rw [sarOp_eq_sshiftRight, BitVec.testBit_toNat, BitVec.getLsbD_sshiftRight, BitVec.msb_eq_getLsbD_last,
    decide_eq_false (by omega), Bool.not_false, Bool.true_and]
  have hmin : (if min s n + i < n then (BitVec.ofNat n a).getLsbD (min s n + i) else (BitVec.ofNat n a).getLsbD (n - 1))
      = (BitVec.ofNat n a).getLsbD (min (i + s) (n - 1)) := by
    split <;> congr 1 <;> omega
  rw [hmin, BitVec.getLsbD_ofNat, decide_eq_true (by omega), Bool.true_and]

theorem testBit_rotOp {n i a : Nat} (s : Nat) (hi : i < n) (ha : a < 2 ^ n) :
    (rotOp n a s).testBit i = a.testBit ((i + (n - s % n)) % n) := by
  have hs : s % n < n := Nat.mod_lt _ (by omega)
  unfold rotOp
  generalize s % n = r at hs ⊢
  have hhigh : a / 2 ^ (n - r) < 2 ^ r := by
    rwa [Nat.div_lt_iff_lt_mul (by positivity), ← pow_add, show r + (n - r) = n by omega]
  rw [Nat.testBit_mod_two_pow, decide_eq_true hi, Bool.true_and, mul_comm, Nat.testBit_two_pow_mul_add _ hhigh]
  split
  · rw [Nat.testBit_div_two_pow, Nat.mod_eq_of_lt (by omega)]
  · rw [show i + (n - r) = i - r + n by omega, Nat.add_mod_right, Nat.mod_eq_of_lt (by omega)]

end Sys2Proof.Machine
end

section
/-! Rules R75 to R80: the arithmetic, address, logic and shift instructions. -/

namespace Sys2Proof.Machine

/-- The first clause of O5 (rule R75) holds. -/
theorem elementArithmetic : Clause.ElementArithmetic := by
  intro mk x useB mayBeSat hmem
  have hexec : ∀ f s, exec (mk f) s = .next (s.aluR (mk f) f (shInt f.ty useB false) (f.ty == 6)
      (fun a b _ => elemOp f.ty (mayBeSat && f.opx.getLsbD 0) x a b)) := by
    simp only [List.mem_cons, Prod.mk.injEq, List.not_mem_nil, or_false] at hmem
    rcases hmem with ⟨rfl, rfl, rfl, rfl⟩ | ⟨rfl, rfl, rfl, rfl⟩ | ⟨rfl, rfl, rfl, rfl⟩ | ⟨rfl, rfl, rfl, rfl⟩ | ⟨rfl, rfl, rfl, rfl⟩
      | ⟨rfl, rfl, rfl, rfl⟩ <;> exact fun _ _ => rfl
  refine ⟨_, formR_of_exec hexec, fun f a b c k hk => ?_⟩
  dsimp only
  rw [elem_elemOp _ _ _ _ hk, intElem, satTo_eq, ival_elem, ival_elem]

/-- The second clause of O5 (rule R76) holds. -/
theorem multiply : Clause.Multiply := by
  unfold Clause.Multiply
  dsimp only
  refine ⟨formR_of_exec_eq (fun _ _ => rfl) fun f a b c => ?_, formR_of_exec_eq (fun _ _ => rfl) fun f a b c => ?_,
    formR_of_exec_eq (fun _ _ => rfl) fun f a b c => ?_⟩
  · simp only [mulLow, mulOut, ival, tyWidth_eq, beq_iff_eq]
  · simp only [mulHigh, wrapInt_double_div, ival, tyWidth_eq]
  · simp only [mulAdd, mulOut, ival, tyWidth_eq, beq_iff_eq]

/-- The third clause of O5 (rule R77) holds. -/
theorem divide : Clause.Divide := by
  unfold Clause.Divide
  dsimp only
  refine ⟨formR_of_exec_eq (fun _ _ => rfl) fun f a b c => ?_, formR_of_exec_eq (fun _ _ => rfl) fun f a b c => ?_⟩
  · rw [divQ_eq, tyWidth_eq]; rfl
  · rw [divR_eq, tyWidth_eq]; rfl

/-- The fourth clause of O5 (rules R78 and R79) holds. -/
theorem addressAndLogic : Clause.AddressAndLogic := by
  unfold Clause.AddressAndLogic
  dsimp only
  refine ⟨formR_of_exec_eq (fun _ _ => rfl) fun f a b c => ?_, fun mk op useB hmem => ?_⟩
  · simp only [leaOp, tyWidth_eq, beq_iff_eq, Nat.cast_pow, Nat.cast_ofNat]
  · simp only [List.mem_cons, Prod.mk.injEq, List.not_mem_nil, or_false] at hmem
    rcases hmem with ⟨rfl, rfl, rfl⟩ | ⟨rfl, rfl, rfl⟩ | ⟨rfl, rfl, rfl⟩ | ⟨rfl, rfl, rfl⟩ <;>
      refine ⟨_, formR_of_exec fun _ _ => rfl, fun f a b c i hi => ?_⟩ <;>
      rw [← tyWidth_eq] at hi
    · rw [Nat.testBit_and, testBit_nbOf _ _ hi]; rfl
    · rw [Nat.testBit_or, testBit_nbOf _ _ hi]; rfl
    · rw [Nat.testBit_xor, testBit_nbOf _ _ hi]; rfl
    · rw [testBit_nbOf _ _ hi, Bool.bne_true]

/-- The fifth clause of O5 (rule R80) holds. -/
theorem shifts : Clause.Shifts := by
  unfold Clause.Shifts
  simp only [← tyWidth_eq]
  intro mk src hmem
  simp only [List.mem_cons, Prod.mk.injEq, List.not_mem_nil, or_false] at hmem
  rcases hmem with ⟨rfl, rfl⟩ | ⟨rfl, rfl⟩ | ⟨rfl, rfl⟩ | ⟨rfl, rfl⟩ <;>
    refine ⟨_, formR_of_exec fun _ _ => rfl, fun f a s c i hi ha => ?_⟩ <;>
    dsimp only
  · rw [testBit_shlOp a s hi]
    by_cases hs : s ≤ i <;> simp [hs]
  · rw [testBit_shrOp s i ha]
    split_ifs with hs
    · rfl
    · exact testBit_eq_false_of_lt_two_pow ha (by omega)
  · exact testBit_sarOp a s hi
  · exact testBit_rotOp s hi ha

/-- Settles O5: each instruction issues with the writes of its operation, which is, of the elements, the values or the bits of its operands,
the one that its rule gives. -/
theorem integerArithmetic : Obligations.IntegerArithmetic :=
  ⟨elementArithmetic, multiply, divide, addressAndLogic, shifts⟩

end Sys2Proof.Machine
end

section
/-! The operations of rules R81 to R85 in bits, digits and truths. -/

namespace Sys2Proof.Machine

/-! ### Bit fields (rules R81 and R82) -/

/-- A number with `w` bits from bit `p` replaced by those of another. -/
theorem testBit_replaceField (a b p w i : Nat) : (a - a / 2 ^ p % 2 ^ w * 2 ^ p + b % 2 ^ w * 2 ^ p).testBit i =
    if p ≤ i ∧ i < p + w then b.testBit (i - p) else a.testBit i := by
  have hcut : a = 2 ^ p * (2 ^ w * (a / 2 ^ p / 2 ^ w)) + a % 2 ^ p + a / 2 ^ p % 2 ^ w * 2 ^ p := by
    conv_lhs => rw [← Nat.div_add_mod a (2 ^ p), ← Nat.div_add_mod (a / 2 ^ p) (2 ^ w)]
    ring
  have hput : a - a / 2 ^ p % 2 ^ w * 2 ^ p + b % 2 ^ w * 2 ^ p = 2 ^ p * (2 ^ w * (a / 2 ^ p / 2 ^ w) + b % 2 ^ w) + a % 2 ^ p := by
    rw [Nat.sub_eq_of_eq_add hcut]
    ring
  rw [hput, Nat.testBit_two_pow_mul_add _ (Nat.mod_lt _ (by positivity)), Nat.testBit_two_pow_mul_add _ (Nat.mod_lt _ (by positivity)),
    Nat.testBit_mod_two_pow, Nat.testBit_mod_two_pow, Nat.testBit_div_two_pow, Nat.testBit_div_two_pow]
  by_cases hlow : i < p
  · simp [hlow]
  · by_cases hfield : i < p + w
    · simp [hlow, hfield, show i - p < w by omega, show p ≤ i by omega]
    · simp [hlow, hfield, show ¬ i - p < w by omega, show i - p - w + w + p = i by omega]

theorem testBit_bfiOp {n i : Nat} (a b pos len : Nat) (hi : i < n) : (bfiOp n a b pos len).testBit i =
    if pos ≤ i ∧ i < min (pos + len) n then b.testBit (i - pos) else a.testBit i := by
  unfold bfiOp
  split
  · rw [if_neg (by omega)]
  · dsimp only
    rw [testBit_replaceField, show Nat.min (pos + len) n = min (pos + len) n from rfl,
      show pos + (min (pos + len) n - pos) = min (pos + len) n by omega]

/-- Rule R81 with the field's top bit named, as the register form gives it. -/
theorem bfeOp_eq (signed : Bool) (n a pos len : Nat) : bfeOp signed n a pos len =
    if len = 0 ∨ pos ≥ n then 0
    else if signed then wrapInt (sextNat (a / 2 ^ pos % 2 ^ (min (pos + len) n - 1 - pos + 1)) (min (pos + len) n - 1 - pos + 1)) n
      else a / 2 ^ pos % 2 ^ (min (pos + len) n - 1 - pos + 1) := by
  unfold bfeOp
  split
  · rfl
  · dsimp only
    rw [show Nat.min (pos + len) n = min (pos + len) n from rfl, show min (pos + len) n - 1 - pos + 1 = min (pos + len) n - pos by omega]

/-! ### Bits reversed and counted (rule R83) -/

/-- The first `m` bits of a number in the opposite order, at the top of `n` bits. -/
theorem foldl_reversed (a : Nat) {m n : Nat} (hm : m ≤ n) :
    ∃ q, (List.range m).foldl (fun r i => r + (if a.testBit i then 2 ^ (n - 1 - i) else 0)) 0 = 2 ^ (n - m) * q
      ∧ ∀ j < m, q.testBit j = a.testBit (m - 1 - j) := by
  induction m with
  | zero => exact ⟨0, by simp⟩
  | succ m ih =>
    obtain ⟨q, hq, hbits⟩ := ih (by omega)
    refine ⟨Nat.bit (a.testBit m) q, ?_, fun j hj => ?_⟩
    · rw [List.range_succ, List.foldl_append, List.foldl_cons, List.foldl_nil, hq, show n - m = n - (m + 1) + 1 by omega,
        show n - 1 - m = n - (m + 1) by omega, Nat.bit_val, pow_succ]
      cases a.testBit m <;> simp <;> ring
    · cases j with
      | zero => simp
      | succ j => rw [Nat.testBit_bit_succ, hbits j (by omega)]; congr 1; omega

theorem testBit_brevOp {n i : Nat} (a : Nat) (hi : i < n) : (brevOp n a).testBit i = a.testBit (n - 1 - i) := by
  obtain ⟨q, hq, hbits⟩ := foldl_reversed a (le_refl n)
  rw [brevOp, hq, Nat.sub_self, pow_zero, one_mul, hbits i hi]

theorem popcOp_eq_card (n a : Nat) : popcOp n a = ((Finset.range n).filter (fun i => a.testBit i = true)).card := by
  simp only [popcOp, Finset.card_def, Finset.filter_val, Finset.range_val, Multiset.range, Multiset.filter_coe, Multiset.coe_card,
    Bool.decide_eq_true]

/-- The first number below `n` that satisfies a condition, or `n`. -/
theorem findD_range (n : Nat) (p : Nat → Bool) : ((List.range n).find? p).getD n ≤ n
    ∧ (∀ i, i < ((List.range n).find? p).getD n → p i = false)
    ∧ (((List.range n).find? p).getD n < n → p (((List.range n).find? p).getD n) = true) := by
  cases h : (List.range n).find? p with
  | none =>
    have hnone : ∀ i < n, p i = false := by simpa using h
    exact ⟨le_rfl, hnone, fun hlt => absurd hlt (lt_irrefl n)⟩
  | some k =>
    obtain ⟨hk, hmem, hlow⟩ := List.find?_range_eq_some.mp h
    exact ⟨(List.mem_range.mp hmem).le, fun i hi => by simpa using hlow i hi, fun _ => hk⟩

/-! ### Term counts (rule R84) -/

@[simp] theorem tcountN_zero (fuel : Nat) : tcountN fuel 0 = 0 := by
  cases fuel <;> rfl

theorem tcountN_of_even (fuel : Nat) {m : Nat} (h : m % 2 = 0) : tcountN (fuel + 1) m = tcountN fuel (m / 2) := by
  by_cases hzero : m = 0
  · rw [hzero, Nat.zero_div, tcountN_zero, tcountN_zero]
  · rw [tcountN, if_neg hzero, if_neg (by omega)]

theorem tcountN_of_odd (fuel : Nat) {m : Nat} (h : m % 2 = 1) :
    tcountN (fuel + 1) m = 1 + tcountN fuel ((if m % 4 = 3 then m + 1 else m - 1) / 2) := by
  rw [tcountN, if_neg (by omega), if_pos h]

theorem NonAdjacent.head {d : Int} {l : List Int} (h : NonAdjacent (d :: l)) : d = -1 ∨ d = 0 ∨ d = 1 := by
  cases l with
  | nil => exact h
  | cons e l => exact h.1

theorem NonAdjacent.tail {d : Int} {l : List Int} (h : NonAdjacent (d :: l)) : NonAdjacent l := by
  cases l with
  | nil => trivial
  | cons e l => exact h.2.2

/-- Behind a non-zero digit the rest is even. -/
theorem NonAdjacent.even_tail {d : Int} {l : List Int} (h : NonAdjacent (d :: l)) (hd : d ≠ 0) : digits l % 2 = 0 := by
  cases l with
  | nil => rfl
  | cons e l =>
    obtain ⟨-, hz, -⟩ := h
    have he : e = 0 := hz.resolve_left hd
    simp only [digits, he]
    omega

theorem NonAdjacent.cons {d : Int} {l : List Int} (h : NonAdjacent l) (hd : d = -1 ∨ d = 0 ∨ d = 1) (heven : d = 0 ∨ digits l % 2 = 0) :
    NonAdjacent (d :: l) := by
  cases l with
  | nil => exact hd
  | cons e l =>
    refine ⟨hd, heven.imp_right fun h0 => ?_, h⟩
    have he := h.head
    simp only [digits] at h0
    omega

/-- Enough fuel counts the non-zero digits of any form without adjacent ones. -/
theorem tcountN_digits {l : List Int} (h : NonAdjacent l) (fuel : Nat) (hfuel : 2 * (digits l).natAbs ≤ 2 ^ fuel) :
    tcountN fuel (digits l).natAbs = (l.filter (fun d => d ≠ 0)).length := by
  induction l generalizing fuel with
  | nil => exact tcountN_zero fuel
  | cons d l ih =>
    have hx : digits (d :: l) = d + 2 * digits l := rfl
    rw [hx] at hfuel ⊢
    have hhead := h.head
    have ih := ih h.tail
    cases fuel with
    | zero =>
      have hd : d = 0 := by omega
      have hy : digits l = 0 := by omega
      have hcount := ih 0 (by omega)
      simpa [hd, hy] using hcount
    | succ fuel =>
      rw [pow_succ] at hfuel
      by_cases hd : d = 0
      · have hcount := ih fuel (by omega)
        rw [tcountN_of_even fuel (by omega), show (d + 2 * digits l).natAbs / 2 = (digits l).natAbs by omega, hcount]
        simp [hd]
      · have heven := h.even_tail hd
        have hpow : 2 ^ fuel = 1 ∨ 2 ^ fuel % 2 = 0 := by
          rcases fuel with _ | fuel
          · exact .inl rfl
          · exact .inr (by rw [pow_succ, Nat.mul_mod_left])
        have hcount := ih fuel (by omega)
        have hnext : (if (d + 2 * digits l).natAbs % 4 = 3 then (d + 2 * digits l).natAbs + 1 else (d + 2 * digits l).natAbs - 1) / 2
            = (digits l).natAbs := by
          split_ifs <;> omega
        rw [tcountN_of_odd fuel (by omega), hnext, hcount]
        simp [hd, Nat.add_comm]

/-- Every integer has a form without adjacent non-zero digits. -/
theorem exists_nonAdjacent (x : Int) : ∃ l, NonAdjacent l ∧ digits l = x := by
  induction hn : x.natAbs using Nat.strong_induction_on generalizing x with
  | _ n ih =>
    have hstep : ∀ d y, x = d + 2 * y → y.natAbs < n → (d = -1 ∨ d = 0 ∨ d = 1) → (d = 0 ∨ y % 2 = 0) → ∃ l, NonAdjacent l ∧ digits l = x := by
      intro d y hxy hlt hd heven
      obtain ⟨l, hl, hy⟩ := ih y.natAbs hlt y rfl
      exact ⟨d :: l, hl.cons hd (hy ▸ heven), by rw [digits, hy, hxy]⟩
    by_cases hzero : x = 0
    · exact ⟨[], trivial, hzero.symm⟩
    · by_cases hx : x % 2 = 0
      · exact hstep 0 (x / 2) (by omega) (by omega) (by omega) (by omega)
      · by_cases hone : x % 4 = 1
        · exact hstep 1 ((x - 1) / 2) (by omega) (by omega) (by omega) (by omega)
        · exact hstep (-1) ((x + 1) / 2) (by omega) (by omega) (by omega) (by omega)

/-! ### Conditions (rule R85) -/

theorem cmpCond_eq (k : Nat) (signed : Bool) (n a b : Nat) : cmpCond k signed n a b =
    match k with
    | 0 => decide (ival signed n a = ival signed n b)
    | 1 => decide (ival signed n a ≠ ival signed n b)
    | 2 => decide (ival signed n a < ival signed n b)
    | 3 => decide (ival signed n a ≤ ival signed n b)
    | 4 => decide (ival signed n a > ival signed n b)
    | 5 => decide (ival signed n a ≥ ival signed n b)
    | _ => decide ((a &&& b) % 2 ^ n ≠ 0) := by
  have hbne : ∀ x y : Nat, (x != y) = decide (x ≠ y) := fun x y => by rw [decide_not]; rfl
  simp only [ival_eq_iff, cmpCond, hbne, ne_eq]
  rcases k with _ | _ | _ | _ | _ | _ | k <;> rfl

end Sys2Proof.Machine
end

section
/-! Rules R81 to R87: bit fields, counts, compares, predicate logic and selects. -/

namespace Sys2Proof.Machine

/-- The first clause of O6 (rules R81 to R83) holds. -/
theorem bitFields : Clause.BitFields := by
  unfold Clause.BitFields
  simp only [← tyWidth_eq]
  refine ⟨formR_of_exec_eq (fun _ _ => rfl) fun f a b c => (bfeOp_eq ..).symm,
    ⟨_, formR_of_exec fun _ _ => rfl, fun f a b c i hi _ => testBit_bfiOp _ _ _ _ hi⟩,
    ⟨_, formR_of_exec fun _ _ => rfl, fun f a b c i hi => testBit_brevOp a hi⟩,
    formR_of_exec_eq (fun _ _ => rfl) fun f a b c => (popcOp_eq_card ..).symm,
    ⟨_, formR_of_exec fun _ _ => rfl, fun f a b c => findD_range _ _⟩,
    ⟨_, formR_of_exec fun _ _ => rfl, fun f a b c => findD_range _ _⟩⟩

/-- The second clause of O6 (rule R84) holds. -/
theorem termCount : Clause.TermCount := by
  refine ⟨_, tcount, formR_of_exec fun _ _ => rfl, ?_, fun x _ _ => exists_nonAdjacent x, fun f a b c => ?_⟩
  · rintro l x hl rfl hlow hhigh
    exact tcountN_digits hl 70 (by omega)
  · have hvalue : ∀ k, ival (tyIsSigned f.ty) (tyElem f.ty) (a >>> (k * tyElem f.ty) % 2 ^ tyElem f.ty)
        = if tyIsSigned f.ty then sextNat (elem a (tyElem f.ty) k) (tyElem f.ty) else (elem a (tyElem f.ty) k : Int) := fun k => by
      rw [Nat.shiftRight_eq_div_pow, ← ival_elem, elem]
    simp only [tcntOp, hvalue]
    rfl

/-- The third clause of O6 (rules R85 to R87) holds. -/
theorem comparesAndSelects : Clause.ComparesAndSelects := by
  unfold Clause.ComparesAndSelects
  simp only [← tyWidth_eq]
  refine ⟨formR_of_exec_eq (fun _ _ => rfl) fun f a b c => ?cmp, formR_of_exec fun _ _ => rfl, formR_of_exec fun _ _ => rfl,
    formR_of_exec fun _ _ => rfl, formR_of_exec fun _ _ => rfl, formR_of_exec_eq (fun _ _ => rfl) fun f a b c => ?sel⟩
  case cmp => rw [cmpCond_eq]; rfl
  case sel => by_cases hc : c = 0 <;> simp [hc]

end Sys2Proof.Machine
end

section
/-! Rule R91: the immediate forms. -/

namespace Sys2Proof.Machine

theorem nI_ge (f : FmtI) : 32 ≤ nI f := by
  unfold nI; split <;> decide

theorem immI_mod_two_pow (f : FmtI) {m n : Nat} (h : m ≤ n) : immI f n % 2 ^ m = immI f m := wrapInt_mod_two_pow _ h

/-- Bits [31:0] of an immediate, taken to its operand's width, are the immediate taken to 32 bits. -/
theorem immI_32 (f : FmtI) : immI f 32 = immI f (nI f) % 2 ^ 32 := (immI_mod_two_pow f (nI_ge f)).symm

theorem elemI_eq (f : FmtI) (sat : Bool) (op : Int → Int → Int) (a b : Nat) : elemI f sat op a b =
    wrapInt (let x := op (ival (tyiSigned f.tyi) (nI f) a) (ival (tyiSigned f.tyi) (nI f) b)
      if sat then
        (if tyiSigned f.tyi then max (-(2 ^ (nI f - 1) : Int)) (min x (2 ^ (nI f - 1) - 1)) else max 0 (min x (2 ^ nI f - 1)))
      else x) (nI f) := by
  rw [elemI, intElem, satTo_eq]

/-- The fourth clause of O6 (rule R91) holds. -/
theorem immediateForms : Clause.ImmediateForms := by
  unfold Clause.ImmediateForms
  intro n sg v sat nb
  refine ⟨formI_of_exec (fun _ _ => rfl) fun f a => ?add, formI_of_exec (fun _ _ => rfl) fun f a => ?sub,
    formI_of_exec (fun _ _ => rfl) fun f a => ?mul, formI_of_exec (fun _ _ => rfl) fun f a => ?and,
    formI_of_exec (fun _ _ => rfl) fun f a => ?or, formI_of_exec (fun _ _ => rfl) fun f a => ?xor,
    formI_of_exec (fun _ _ => rfl) fun f a => ?shl, formI_of_exec (fun _ _ => rfl) fun f a => ?shr,
    formI_of_exec (fun _ _ => rfl) fun f a => ?sar, formI_of_exec (fun _ _ => rfl) fun f a => ?rot,
    formI_of_exec (fun _ _ => rfl) fun f a => ?min, formI_of_exec (fun _ _ => rfl) fun f a => ?max,
    formI_of_exec (fun _ _ => rfl) fun f a => ?bfe, formI_of_exec (fun _ _ => rfl) fun f a => ?cmp⟩
  case add | sub => rw [elemI_eq]; rfl
  case mul | and | or | xor => rfl
  case shl | shr | rot => rw [immI_32]; rfl
  case sar => rw [immI_32, sarOp, Nat.cast_pow, Nat.cast_ofNat]; rfl
  case min => exact congrArg (wrapInt · (n f)) (min_def _ _)
  case max => exact congrArg (wrapInt · (n f)) ((max_comm _ _).trans (max_def _ _))
  case bfe =>
    have hpos : immI f 32 % 256 = immI f (nI f) % 256 := by rw [immI_32]; omega
    have hlen : immI f 32 / 256 % 256 = immI f (nI f) / 256 % 256 := by rw [immI_32]; omega
    rw [hpos, hlen]; rfl
  case cmp => rw [cmpCond_eq]; rfl

/-- Settles O6: each instruction issues with the writes of its operation, which is, of the bits, the digits or the values of its operands, the
one that its rule gives; the immediate forms take their immediate as b. -/
theorem bitInstructions : Obligations.BitInstructions :=
  ⟨bitFields, termCount, comparesAndSelects, immediateForms⟩

end Sys2Proof.Machine
end

section
/-! An instruction that names no vector register, in a group that has nothing in flight: it is ready, and its post puts its entry in flight
and moves its split on. -/

namespace Sys2Proof.Machine

/-- An instruction that names no vector register is ready where nothing is in flight. -/
theorem ready_of_no_vectors {s : State} {G : Group} {P : Plan} (hahead : G.ra = none) (hidle : G.infl = []) (hrv : P.rv = []) (hwv : P.wv = []) :
    s.ready s.cur G P = (s, true) := by
  have hbusy : ∀ sp, G.busy sp = fun _ => false := fun sp => by funext n; simp [Group.busy, hidle]
  unfold State.ready
  simp [Group.guardUnknown, hahead, hrv, hwv, hbusy, hidle]

/-- A group after the post of an instruction of split `n` that writes no register: its next instruction is at `next`, or at the word after. -/
def Group.posted (H : Group) (n cycle : Nat) (next : Option W64) : Group :=
  { H.updSplit n (fun p => p.issued cycle (next.getD (p.pc + 8))) with
    infl := [{ id := H.nextIid, split := n, pc := 0 }], nextIid := H.nextIid + 1 }

theorem moved_post {s t : State} {H : Group} {P : Plan} (y : BitVec 1) (next : Option W64) (ho : OnlySlots s t)
    (hg : t.group s.cur.core s.cur.slot = some H) (hahead : H.ra = none) (hidle : H.infl = []) (hrv : P.rv = []) :
    Moved s (t.post s.cur P y next { id := 0, split := 0, pc := 0 } 0) (H.posted s.cur.split s.cycle next) := by
  have hcycle : t.cycle = s.cycle := by rw [ho.rest]
  unfold State.post
  rw [hg]
  refine ⟨(ho.setGroup _).slotIssued _ _, ?_⟩
  rw [group_slotIssued, group_setGroup_same]
  simp [Group.posted, Group.updSplit, Split.issued, hahead, hidle, hrv, hcycle]

/-- What a control instruction leaves of its group: its own change `H`, and the post. -/
theorem moved_postControl {s t : State} {H : Group} {P : Plan} (y : BitVec 1) (ho : OnlySlots s t)
    (hg : t.group s.cur.core s.cur.slot = some H) (hahead : H.ra = none) (hidle : H.infl = []) (hrv : P.rv = []) :
    Moved s (t.postControl s.cur P y) (H.posted s.cur.split s.cycle ((H.split s.cur.split).map (fun p => p.pc))) := by
  unfold State.postControl
  rw [hg]
  exact moved_post y _ ho hg hahead hidle hrv

theorem Calm.ready {s : State} {G : Group} {p : Split} {P : Plan} (h : Calm s G p) (hrv : P.rv = []) (hwv : P.wv = []) :
    s.ready s.cur G P = (s, true) := ready_of_no_vectors h.ahead h.idle hrv hwv

/-! ### TRAP and BKPT -/

/-- Rule R139 for an instruction of either opcode. -/
theorem softTrap_calm {s : State} {G : Group} {p : Split} {i : Instr} (f : FmtS) (code : Nat) (h : Calm s G p) (hl : Legal s G i)
    (ham : p.am ≠ 0) :
    (activeLanes G p f.ge f.gn f.g ≠ 0 → s.softTrap i f code = s.raise s.cur code 0 f.sel.toNat)
    ∧ (activeLanes G p f.ge f.gn f.g = 0 → Moved s (s.softTrap i f code) (G.posted p.id s.cycle none)) := by
  unfold State.softTrap
  rw [begin_calm false _ h hl (.inr ham)]
  dsimp only
  rw [h.ready (P := planGuard f.ge f.gn f.g) rfl rfl]
  constructor
  · intro hactive
    exact if_neg (by simpa using hactive)
  · intro hnone
    simp only [hnone, beq_self_eq_true, if_true]
    rw [h.num]
    exact moved_post f.y none (OnlySlots.refl s) h.here h.ahead h.idle rfl

/-- Settles O14: a TRAP or BKPT with an active lane raises its cause, and one without is posted as a NOP is. -/
theorem softwareTraps : Obligations.SoftwareTraps := by
  unfold Obligations.SoftwareTraps
  intro mk code hmk s G p f h ham hl
  have hexec : exec (mk f) s = .next (s.softTrap (mk f) f code) := by
    simp only [List.mem_cons, List.not_mem_nil, or_false, Prod.mk.injEq] at hmk
    rcases hmk with ⟨rfl, rfl⟩ | ⟨rfl, rfl⟩ <;> rfl
  have hposted : G.posted p.id s.cycle none = { G with
      splits := [p.issued s.cycle (p.pc + 8)], infl := [{ id := G.nextIid, split := p.id, pc := 0 }], nextIid := G.nextIid + 1 } := by
    simp [Group.posted, Group.updSplit, updIf, h.only]
  obtain ⟨hraise, hmoved⟩ := softTrap_calm f code h hl ham
  exact ⟨fun hactive => hexec.trans (congrArg _ (hraise hactive)), fun hnone => ⟨_, hexec, hposted ▸ hmoved hnone⟩⟩

end Sys2Proof.Machine
end

section
/-! Rules R127 and R129 to R133: the control instructions of a calm group. Each is ready and finds its target; its own step then gives the
mask, the stack and the next PC, with which `advance` places the split, or none, which raises STACK. -/

namespace Sys2Proof.Machine

/-! ### `advance` (rule R127) -/

/-- The first clause of O8 (rule R127) holds. -/
theorem advance_spec : Clause.Advance := by
  intro am st next
  refine ⟨fun ham => ?_, fun hst => ?_, fun e rest hst hkind => ?_, fun e rest hst hkind houter => ?_, fun e rest hst hkind houter => ?_⟩
  · simp [advance, show am ≠ 0#64 from ham]
  · simp [advance, unwind, hst]
  · subst hst
    rcases hkind with hkind | hkind <;> simp [advance, unwind, hkind]
  · simp [advance, unwind, hst, hkind, show e.outer ≠ 0#64 from houter]
  · simp [advance, unwind, hst, hkind, houter]

/-! ### Placing the split -/

/-- The split of a calm group, placed and posted, is where the control instruction leaves it, and a split that has no lanes left ends the
group; to wake the splits that wait in MERGE changes nothing of it. -/
theorem Calm.place_posted {s : State} {G : Group} {p : Split} (h : Calm s G p) (r : Option (Mask × List Entry × W64)) {f : Group → Group}
    (hf : f = id ∨ f = Group.wakeMerge) :
    (f (G.place s.cur.split r)).posted s.cur.split s.cycle (((f (G.place s.cur.split r)).split s.cur.split).map (fun q => q.pc)) = G.went p s.cycle r
      ∧ (f (G.place s.cur.split r)).ra = none ∧ (f (G.place s.cur.split r)).infl = [] := by
  cases r with
  | none =>
    rcases hf with rfl | rfl <;>
      simp [Group.place, Group.dropSplit, Group.orphan, Group.posted, Group.went, Group.kill, Group.wakeMerge, Group.split,
        Group.updSplit, updIf, h.only, h.num, h.idle]
  | some r =>
    obtain ⟨am, st, pc⟩ := r
    rcases hf with rfl | rfl
    · simp [Group.place, Group.posted, Group.went, Group.split, Group.updSplit, updIf, Split.issued, h.only, h.num, h.idle, h.ahead]
    · by_cases hw : p.wait = .merge <;>
        simp [Group.place, Group.posted, Group.went, Group.wakeMerge, Group.split, Group.updSplit, updIf, Split.issued, h.only, h.num,
          h.idle, h.ahead, hw]

/-- What a control instruction does once its target is found: its own step gives `r`. -/
def State.follow (s : State) (p : Split) (P : Plan) (y : BitVec 1) (f : Group → Group) (r : Step?) : State :=
  match r with
  | none => s.raise s.cur 2 0 p.stack.length
  | some (am, st, next) => (s.updGroup s.cur.core s.cur.slot (fun G => f (G.place s.cur.split (advance am st next)))).postControl s.cur P y

theorem controls_of_follow {s : State} {G : Group} {p : Split} {i : Instr} {P : Plan} {y : BitVec 1} {f : Group → Group} {r : Step?}
    (h : Calm s G p) (hrv : P.rv = []) (hf : f = id ∨ f = Group.wakeMerge) (hexec : Legal s G i → exec i s = .next (s.follow p P y f r)) :
    Controls s G p i r := by
  intro hl
  have hx := hexec hl
  cases r with
  | none => exact hx
  | some r =>
    obtain ⟨am, st, next⟩ := r
    obtain ⟨hplaced, hahead, hidle⟩ := h.place_posted (advance am st next) hf
    exact ⟨_, hx, hplaced ▸ moved_postControl y ((OnlySlots.refl s).updGroup _) (group_updGroup_same s _ _ _ h.here) hahead hidle hrv⟩

/-! ### The course of a control instruction -/

@[simp] theorem planB_rv (f : FmtB) : (planB f).rv = [] := by unfold planB; split <;> rfl

@[simp] theorem planB_wv (f : FmtB) : (planB f).wv = [] := by unfold planB; split <;> rfl

theorem control_calm {s : State} {G : Group} {p : Split} {i : Instr} (f : FmtB) (step : State → Ctx → Group → Split → Step?)
    (h : Calm s G p) (hl : Legal s G i) : s.control i f step = s.follow p (planB f) f.y id (step s s.cur G p) := by
  unfold State.control
  rw [begin_calm true _ h hl (.inl rfl), h.ready (planB_rv f) (planB_wv f)]
  rfl

/-- An instruction without a target whose step gives `r`. -/
theorem controls_of_control {s : State} {G : Group} {p : Split} {i : Instr} {f : FmtB} {step : State → Ctx → Group → Split → Step?} {r : Step?}
    (h : Calm s G p) (hexec : exec i s = .next (s.control i f step)) (hr : step s s.cur G p = r) : Controls s G p i r := by
  refine controls_of_follow (y := f.y) h (planB_rv f) (.inl rfl) fun hl => ?_
  rw [hexec, control_calm f step h hl, hr]

/-- Rules R53 and R132: the target word is found, and it is of a permitted kind or ILLEGAL is raised. -/
theorem controlTo_calm {s : State} {G : Group} {p : Split} {i : Instr} {f : FmtB} {w : W64} (ok : Nat → Bool)
    (step : Group → Split → W64 → Step?) (h : Calm s G p) (hl : Legal s G i)
    (hw : s.fetchAt s.cur G.part (targetB p.pc f.off).toNat = (s, some w)) :
    s.controlTo i f ok step = if ok (opcode w) then s.follow p (planB f) f.y id (step G p (targetB p.pc f.off)) else s.illegal s.cur (bad 8) := by
  unfold State.controlTo
  rw [begin_calm true _ h hl (.inl rfl), h.ready (planB_rv f) (planB_wv f)]
  dsimp only
  rw [hw]
  dsimp only
  cases ok (opcode w) <;> rfl

theorem controls_of_controlTo {s : State} {G : Group} {p : Split} {i : Instr} {f : FmtB} {w : W64} {ok : Nat → Bool}
    {step : Group → Split → W64 → Step?} {r : Step?} (h : Calm s G p) (hexec : exec i s = .next (s.controlTo i f ok step))
    (hw : s.fetchAt s.cur G.part (targetB p.pc f.off).toNat = (s, some w)) (hok : ok (opcode w) = true)
    (hr : step G p (targetB p.pc f.off) = r) : Controls s G p i r := by
  refine controls_of_follow (y := f.y) h (planB_rv f) (.inl rfl) fun hl => ?_
  rw [hexec, controlTo_calm ok step h hl hw, if_pos hok, hr]

/-- An instruction whose target word may be of the opcodes `ops`, and whose step gives `r`. -/
theorem controlsTo_of_controlTo {s : State} {G : Group} {p : Split} {i : Instr} {f : FmtB} {ok : Nat → Bool}
    {step : Group → Split → W64 → Step?} {ops : List Nat} {r : Step?} (h : Calm s G p) (hexec : exec i s = .next (s.controlTo i f ok step))
    (hok : ∀ o, ok o = true ↔ o ∈ ops) (hr : step G p (targetB p.pc f.off) = r) : ControlsTo s G p i f ops r := by
  intro w hw
  refine ⟨fun hl hmem => ?_, fun hmem => controls_of_controlTo h hexec hw ((hok _).mpr hmem) hr⟩
  rw [hexec, controlTo_calm ok step h hl hw, if_neg (fun h => hmem ((hok _).mp h))]
  rfl

/-! ### The steps -/

/-- cond(L) of rule R129. -/
theorem condMask_eq (G : Group) (f : FmtB) : condMask G f =
    if f.pe = 0 then BitVec.allOnes 64 else if f.pn = 1 then ~~~(G.pred f.p.toNat) else G.pred f.p.toNat := by
  simp only [condMask, beq_iff_eq, show fullMask 64 = BitVec.allOnes 64 from rfl]

theorem ifStep_eq (f : FmtB) (bySplit : Bool) (G : Group) (p : Split) (target : W64) : ifStep f bySplit G p target =
    if p.stack.length ≥ 32 then none
    else some (p.am &&& condMask G f, ⟨.ifE, p.am, p.am &&& ~~~condMask G f, target, bySplit, none⟩ :: p.stack, p.pc + 8) := by
  by_cases hfull : p.stack.length ≥ 32 <;> simp [ifStep, pushed, hfull]

theorem loopStep_eq (G : Group) (p : Split) (target : W64) : loopStep G p target =
    if p.stack.length ≥ 32 then none else some (p.am, ⟨.loopE, p.am, 0, target, false, none⟩ :: p.stack, p.pc + 8) := by
  by_cases hfull : p.stack.length ≥ 32 <;> simp [loopStep, pushed, hfull]

theorem callStep_eq (f : FmtB) (G : Group) (p : Split) (target : W64) : callStep f G p target =
    if p.am &&& condMask G f = 0 then some (p.am, p.stack, p.pc + 8)
    else if p.stack.length ≥ 32 then none
    else some (p.am &&& condMask G f, ⟨.callE, p.am, 0, p.pc + 8, false, none⟩ :: p.stack, target) := by
  by_cases hx : p.am &&& condMask G f = 0 <;> by_cases hfull : p.stack.length ≥ 32 <;> simp [callStep, pushed, hx, hfull]

/-- Rule R130: a BREAK or CONTINUE takes its lanes from the IF entries above the LOOP entry, and CONTINUE adds them to its CONT. -/
theorem leaveLoop_of_loop (x : Mask) (cont : Bool) {ifs : List Entry} {e : Entry} (rest : List Entry) (hifs : ∀ a ∈ ifs, a.kind = .ifE)
    (he : e.kind = .loopE) :
    leaveLoop x cont (ifs ++ e :: rest) = some (ifs.map (fun a => a.remove x) ++ (if cont then { e with alt := e.alt ||| x } else e) :: rest) := by
  induction ifs with
  | nil => simp [leaveLoop, he]
  | cons a ifs ih =>
    obtain ⟨ha, hifs⟩ := List.forall_mem_cons.mp hifs
    simp [leaveLoop, ha, ih hifs]

/-- Rule R130: there is no LOOP entry to leave where a CALL entry or the end comes first. -/
theorem leaveLoop_eq_none (x : Mask) (cont : Bool) {st : List Entry}
    (hst : ∀ ifs e rest, st = ifs ++ e :: rest → (∀ a ∈ ifs, a.kind = .ifE) → e.kind ≠ .loopE) : leaveLoop x cont st = none := by
  induction st with
  | nil => rfl
  | cons e st ih =>
    cases hkind : e.kind with
    | callE => simp [leaveLoop, hkind]
    | loopE => exact absurd hkind (hst [] e st rfl (by simp))
    | ifE =>
      have hrest : leaveLoop x cont st = none := ih fun ifs a rest happ hifs =>
        hst (e :: ifs) a rest (by rw [happ, List.cons_append]) (List.forall_mem_cons.mpr ⟨hkind, hifs⟩)
      simp [leaveLoop, hkind, hrest]

theorem leaveStep_of_loop (f : FmtB) (cont : Bool) (G : Group) {p : Split} (target : W64) {ifs : List Entry} {e : Entry} {rest : List Entry}
    (hst : p.stack = ifs ++ e :: rest) (hifs : ∀ a ∈ ifs, a.kind = .ifE) (he : e.kind = .loopE) : leaveStep f cont G p target =
      some (p.am &&& ~~~(p.am &&& condMask G f), ifs.map (fun a => a.remove (p.am &&& condMask G f))
        ++ (if cont then { e with alt := e.alt ||| (p.am &&& condMask G f) } else e) :: rest, p.pc + 8) := by
  simp only [leaveStep, hst, leaveLoop_of_loop _ cont rest hifs he, Option.map_some]

theorem leaveStep_eq_none (f : FmtB) (cont : Bool) (G : Group) {p : Split} (target : W64)
    (hst : ∀ ifs e rest, p.stack = ifs ++ e :: rest → (∀ a ∈ ifs, a.kind = .ifE) → e.kind ≠ .loopE) :
    leaveStep f cont G p target = none := by
  simp only [leaveStep, leaveLoop_eq_none _ cont hst, Option.map_none]

/-- Rule R131: a RET takes its lanes from every entry above the innermost CALL. -/
theorem leaveCall_of_call (x : Mask) {above : List Entry} {e : Entry} (rest : List Entry) (habove : ∀ a ∈ above, a.kind ≠ .callE)
    (he : e.kind = .callE) : leaveCall x (above ++ e :: rest) = some (above.map (fun a => a.remove x) ++ e :: rest) := by
  induction above with
  | nil => simp [leaveCall, he]
  | cons a above ih =>
    obtain ⟨ha, habove⟩ := List.forall_mem_cons.mp habove
    simp [leaveCall, ha, ih habove]

theorem leaveCall_eq_none (x : Mask) {st : List Entry} (hst : ∀ a ∈ st, a.kind ≠ .callE) : leaveCall x st = none := by
  induction st with
  | nil => rfl
  | cons e st ih =>
    obtain ⟨he, hst⟩ := List.forall_mem_cons.mp hst
    simp [leaveCall, he, ih hst]

/-! ### LOOP, ENDLOOP, BREAK, CONTINUE -/

/-- The fifth clause of O8 (rules R129 and R130) holds. -/
theorem loops : Clause.Loops := by
  intro s G p f h
  simp only [← condMask_eq]
  refine ⟨controlsTo_of_controlTo h rfl (fun o => by simp) (loopStep_eq ..), controlsTo_of_controlTo h rfl (fun o => by simp) ?endloop,
    fun ifs e rest hst hifs he => ⟨?brk, ?cont⟩, fun hst => ⟨?noBrk, ?noCont⟩⟩
  case endloop =>
    unfold endloopStep
    cases hst : p.stack with
    | nil => rfl
    | cons e rest => simp [targetB]
  case brk => exact controlsTo_of_controlTo h rfl (fun o => by simp) (leaveStep_of_loop f false G _ hst hifs he)
  case cont => exact controlsTo_of_controlTo h rfl (fun o => by simp) (leaveStep_of_loop f true G _ hst hifs he)
  case noBrk | noCont => exact controlsTo_of_controlTo h rfl (fun o => by simp) (leaveStep_eq_none f _ G _ hst)

/-! ### CALL and RET -/

/-- The sixth clause of O8 (rule R131) holds. -/
theorem calls : Clause.Calls := by
  intro s G p f h
  simp only [← condMask_eq]
  refine ⟨fun w hw hop => controls_of_controlTo h rfl hw hop (callStep_eq ..), fun above e rest hst habove he => ?_, fun hst => ?_⟩
  · refine controls_of_control h rfl ?_
    simp only [retStep, hst, leaveCall_of_call _ rest habove he]
    rfl
  · refine controls_of_control h rfl ?_
    simp only [retStep, leaveCall_eq_none _ hst, Option.map_none]

end Sys2Proof.Machine
end

section
/-! Rules R129, R132, R133 and R154: IF, IFS, ELSE and ENDIF in a calm group. -/

namespace Sys2Proof.Machine

/-! ### IFS -/

/-- The entry that the IFS of a split pushes. -/
def ifsEntry (f : FmtB) (G : Group) (p : Split) : Entry :=
  { kind := .ifE, outer := p.am, alt := p.am &&& ~~~condMask G f, addr := targetB p.pc f.off, bySplit := true }

/-- Whether IFS forms a second split in a calm group, once its entry is pushed (rules R133 and R154). -/
def forks (G : Group) (p : Split) (f : FmtB) (w : W64) : Bool :=
  p.am &&& condMask G f != 0 && p.am &&& ~~~condMask G f != 0 && opcode w == 0x52 && !G.inHandler

theorem forks_iff {G : Group} {p : Split} {f : FmtB} {w : W64} : forks G p f w = true ↔
    p.am &&& condMask G f ≠ 0 ∧ p.am &&& ~~~condMask G f ≠ 0 ∧ opcode w = 0x52 ∧ G.frame = none := by
  simp only [forks, Group.inHandler, Bool.and_eq_true, bne_iff_ne, beq_iff_eq, Bool.not_eq_true', Option.isSome_eq_false_iff,
    Option.isNone_iff_eq_none, and_assoc]

/-- The state in which IFS has taken effect as IF, not yet posted. -/
def State.enterIfs (s : State) (G : Group) (p : Split) (f : FmtB) : State :=
  s.updGroup s.cur.core s.cur.slot (fun H =>
    H.place s.cur.split (advance (p.am &&& condMask G f) (ifsEntry f G p :: p.stack) (p.pc + 8)))

/-- That state with the second split formed at the ELSE of word `w`. -/
def State.forkIfs (s : State) (G : Group) (p : Split) (f : FmtB) (w : W64) : State :=
  (s.enterIfs G p f).updGroup s.cur.core s.cur.slot (fun H =>
    H.fork s.cur.split (targetB p.pc f.off) (targetB (targetB p.pc f.off) (decodeB w).off) s.cycle)

theorem ifsBody_calm {s : State} {G : Group} {p : Split} {f : FmtB} {w : W64} (h : Calm s G p) (hl : Legal s G (.ifs f))
    (hw : s.fetchAt s.cur G.part (targetB p.pc f.off).toNat = (s, some w)) : ifsBody f s =
      if opcode w ∉ [0x52, 0x53] then s.illegal s.cur (bad 8)
      else if p.stack.length ≥ 32 then s.raise s.cur 2 0 p.stack.length
      else (if forks G p f w then s.forkIfs G p f w else s.enterIfs G p f).postControl s.cur (planB f) f.y := by
  have htwo : (p.am &&& condMask G f != 0 && p.am &&& ~~~condMask G f != 0 && opcode w == 0x52 && decide (G.splits.length < 4)
      && !G.inHandler && G.ra.isNone) = forks G p f w := by
    simp [forks, h.only, h.ahead]
  unfold ifsBody
  rw [begin_calm true _ h hl (.inl rfl), h.ready (planB_rv f) (planB_wv f)]
  dsimp only
  rw [hw, ifStep_eq]
  dsimp only
  by_cases hop : opcode w ∈ [0x52, 0x53]
  · have hgood : (!(opcode w == 0x52 || opcode w == 0x53)) = false := by simpa [or_iff_not_imp_left] using hop
    rw [hgood, if_neg (not_not_intro hop)]
    by_cases hfull : p.stack.length ≥ 32
    · simp only [if_pos hfull]
      rfl
    · simp only [if_neg hfull, List.head?_cons, Option.map_some, Option.getD_some, htwo, updGroup_cycle]
      cases forks G p f w <;> rfl
  · have hbad : (!(opcode w == 0x52 || opcode w == 0x53)) = true := by simpa using hop
    rw [hbad, if_pos hop]
    rfl

/-- IFS that forms no second split acts as IF. -/
theorem controls_ifs {s : State} {G : Group} {p : Split} {f : FmtB} {w : W64} {r : Step?} (h : Calm s G p)
    (hw : s.fetchAt s.cur G.part (targetB p.pc f.off).toNat = (s, some w)) (hop : opcode w ∈ [0x52, 0x53])
    (hforks : p.stack.length ≥ 32 ∨ forks G p f w = false) (hr : ifStep f true G p (targetB p.pc f.off) = r) :
    Controls s G p (.ifs f) r := by
  refine controls_of_follow (y := f.y) h (planB_rv f) (.inl rfl) fun hl => congrArg Host.Outcome.next (?_ : ifsBody f s = _)
  rw [← hr, ifsBody_calm h hl hw, if_neg (not_not_intro hop), ifStep_eq]
  by_cases hfull : p.stack.length ≥ 32
  · simp only [if_pos hfull]
    rfl
  · simp only [if_neg hfull, hforks.resolve_left hfull]
    rfl

theorem controlsTo_ifs {s : State} {G : Group} {p : Split} {f : FmtB} {r : Step?} (h : Calm s G p)
    (hforks : p.stack.length ≥ 32 ∨ ∀ w, forks G p f w = false) (hr : ifStep f true G p (targetB p.pc f.off) = r) :
    ControlsTo s G p (.ifs f) f [0x52, 0x53] r := by
  intro w hw
  refine ⟨fun hl hop => ?_, fun hop => controls_ifs h hw hop (hforks.imp_right (fun hf => hf w)) hr⟩
  have hbody : ifsBody f s = s.illegal s.cur (bad 8) := by rw [ifsBody_calm h hl hw, if_pos hop]
  exact congrArg Host.Outcome.next hbody

/-- The second split that IFS forms in a calm group: it begins behind the ELSE, with the lanes for which the condition does not hold. -/
def forkedSplit (G : Group) (p : Split) (f : FmtB) (w : W64) (cycle : Nat) : Split :=
  { id := if p.id = 0 then 1 else 0, pc := targetB p.pc f.off + 8, am := p.am &&& ~~~condMask G f, own := p.am &&& ~~~condMask G f, since := cycle
    stack := { ifsEntry f G p with alt := 0, join := some G.nextTag, addr := targetB (targetB p.pc f.off) (decodeB w).off } :: p.stack }

/-- The first split once IFS has formed the second. -/
def forkingSplit (G : Group) (p : Split) (f : FmtB) : Split :=
  { p with am := p.am &&& condMask G f, stack := { ifsEntry f G p with alt := 0, join := some G.nextTag } :: p.stack
           own := p.own &&& ~~~(p.am &&& ~~~condMask G f), pc := p.pc + 8 }

/-- A calm group with both splits, in the order of their numbers. -/
def Group.forked (G : Group) (p : Split) (f : FmtB) (w : W64) (cycle : Nat) : Group :=
  { G with splits := if p.id = 0 then [forkingSplit G p f, forkedSplit G p f w cycle] else [forkedSplit G p f w cycle, forkingSplit G p f]
           nextTag := G.nextTag + 1 }

theorem fork_place_calm {s : State} {G : Group} {p : Split} {f : FmtB} (w : W64) (h : Calm s G p) (htaken : p.am &&& condMask G f ≠ 0) :
    (G.place s.cur.split (advance (p.am &&& condMask G f) (ifsEntry f G p :: p.stack) (p.pc + 8))).fork s.cur.split
        (targetB p.pc f.off) (targetB (targetB p.pc f.off) (decodeB w).off) s.cycle = G.forked p f w s.cycle := by
  have hadv : advance (p.am &&& condMask G f) (ifsEntry f G p :: p.stack) (p.pc + 8)
      = some (p.am &&& condMask G f, ifsEntry f G p :: p.stack, p.pc + 8) := if_pos (bne_iff_ne.mpr htaken)
  rw [hadv, ← h.num]
  by_cases hid : p.id = 0 <;>
    simp [Group.place, Group.fork, Group.forked, Group.split, Group.setSplit, Group.updSplit, updIf, h.only, hid, forkingSplit, forkedSplit,
      ifsEntry, List.range_succ, Nat.pos_iff_ne_zero]

/-- The post moves the first split on, and leaves the second as it begins. -/
theorem forked_posted (G : Group) (p : Split) (f : FmtB) (w : W64) (cycle : Nat) :
    (G.forked p f w cycle).posted p.id cycle (((G.forked p f w cycle).split p.id).map (fun q => q.pc)) = { G with
      splits := if p.id = 0 then [(forkingSplit G p f).issued cycle (p.pc + 8), forkedSplit G p f w cycle]
        else [forkedSplit G p f w cycle, (forkingSplit G p f).issued cycle (p.pc + 8)]
      nextTag := G.nextTag + 1, infl := [{ id := G.nextIid, split := p.id, pc := 0 }], nextIid := G.nextIid + 1 } := by
  have hother : (forkedSplit G p f w cycle).id ≠ p.id := by unfold forkedSplit; dsimp only; split <;> omega
  have hsame : (forkingSplit G p f).id = p.id := rfl
  have hpc : (forkingSplit G p f).pc = p.pc + 8 := rfl
  unfold Group.forked
  split_ifs <;> simp [Group.posted, Group.split, Group.updSplit, updIf, hother, hsame, hpc]

theorem exec_ifs_of_forks {s : State} {G : Group} {p : Split} {f : FmtB} {w : W64} (h : Calm s G p) (hl : Legal s G (.ifs f))
    (hw : s.fetchAt s.cur G.part (targetB p.pc f.off).toNat = (s, some w)) (hroom : p.stack.length < 32) (hforks : forks G p f w = true) :
    ∃ t, exec (.ifs f) s = .next t
      ∧ Moved s t ((G.forked p f w s.cycle).posted p.id s.cycle (((G.forked p f w s.cycle).split p.id).map (fun q => q.pc))) := by
  obtain ⟨htaken, -, hop, -⟩ := forks_iff.mp hforks
  have hbody : ifsBody f s = (s.forkIfs G p f w).postControl s.cur (planB f) f.y := by
    rw [ifsBody_calm h hl hw, if_neg (by simp [hop]), if_neg (by omega), if_pos hforks]
  refine ⟨_, congrArg Host.Outcome.next hbody, ?_⟩
  have hg : (s.forkIfs G p f w).group s.cur.core s.cur.slot = some _ :=
    group_updGroup_same _ _ _ _ (group_updGroup_same s _ _ _ h.here)
  rw [fork_place_calm w h htaken] at hg
  rw [h.num]
  exact moved_postControl f.y (((OnlySlots.refl s).updGroup _).updGroup _) hg h.ahead h.idle (planB_rv f)

/-! ### ELSE and ENDIF -/

theorem endifBody_calm {s : State} {G : Group} {p : Split} {f : FmtB} (h : Calm s G p) (hl : Legal s G (.endif f)) :
    endifBody f s = s.follow p {} f.y Group.wakeMerge (endifStep p) := by
  have hholder : ∀ j, G.holder p.id j = none := fun j => by simp [Group.holder, h.only]
  unfold endifBody
  rw [begin_calm true _ h hl (.inl rfl), h.ready rfl rfl]
  dsimp only
  cases endifStep p with
  | none => rfl
  | some r =>
    have hnone : (p.stack.head?.bind (fun e => e.join)).bind (G.holder p.id) = none := by
      simp [hholder]
    dsimp only
    rw [hnone]
    rfl

/-- The third clause of O8 (rules R129, R132, R133 and R154) holds. -/
theorem conditionals : Clause.Conditionals := by
  intro s G p f h
  simp only [← condMask_eq]
  refine ⟨controlsTo_of_controlTo h rfl (fun o => by simp) (ifStep_eq ..), fun hacts => ?acts, fun w hw hop => ?toEndif,
    fun w hw hop hl htaken hpend hframe hroom => ?fork, controlsTo_of_controlTo h rfl (fun o => by simp) ?elseArm, ?endif⟩
  case acts =>
    refine controlsTo_ifs h ?_ (ifStep_eq ..)
    rcases hacts with htaken | hpend | hframe | hfull
    · exact .inr fun w => by simp [forks, htaken]
    · exact .inr fun w => by simp [forks, hpend]
    · exact .inr fun w => by simp [forks, Group.inHandler, Option.isSome_iff_ne_none.mpr hframe]
    · exact .inl hfull
  case toEndif => exact controls_ifs h hw (by simp [hop]) (.inr (by simp [forks, hop])) (ifStep_eq ..)
  case fork =>
    obtain ⟨t, ht, hmoved⟩ := exec_ifs_of_forks h hl hw hroom (forks_iff.mpr ⟨htaken, hpend, hop, hframe⟩)
    rw [forked_posted] at hmoved
    exact ⟨t, ht, hmoved⟩
  case elseArm =>
    unfold elseStep
    cases p.stack <;> simp [targetB]
  case endif =>
    refine controls_of_follow (y := f.y) h rfl (.inr rfl) fun hl => congrArg Host.Outcome.next ((endifBody_calm h hl).trans (congrArg _ ?_))
    unfold endifStep
    cases p.stack <;> simp

end Sys2Proof.Machine
end

section
/-! Rules R129, R154 and R155: ENDIF where another live split holds the join tag. The split waits in MERGE until the other does, and then
the two merge. -/

namespace Sys2Proof.Machine

/-! ### The merge of a group's two splits -/

/-- The split that a merge leaves, of the lower number: the lanes are those that both top entries would restore. -/
def mergedSplit (a b : Split) (ea eb : Entry) (ra rb : List Entry) (cycle : Nat) : Split :=
  { a with am := ea.outer &&& eb.outer, stack := mergeStacks ra rb, pc := a.pc + 8, own := a.own ||| b.own
           wait := .ready, waited := false, word := none, stall := 0, since := cycle, aged := false }

theorem merge_comm (G : Group) {a b : Split} (cycle : Nat) (hne : a.id ≠ b.id) : G.merge a b cycle = G.merge b a cycle := by
  unfold Group.merge
  rcases Nat.lt_or_gt_of_ne hne with hlt | hgt
  · simp only [if_pos hlt, if_neg (Nat.lt_asymm hlt)]
  · simp only [if_pos hgt, if_neg (Nat.lt_asymm hgt)]

theorem merge_eq {G : Group} {a b : Split} {ea eb : Entry} {ra rb : List Entry} (cycle : Nat) (honly : G.splits = [a, b]) (hlt : a.id < b.id)
    (hidle : G.infl = []) (hcauses : G.causes = []) (ha : a.stack = ea :: ra) (hb : b.stack = eb :: rb) (hkind : ea.kind = .ifE)
    (houter : ea.outer &&& eb.outer ≠ 0) :
    G.merge a b cycle = { G with splits := [mergedSplit a b ea eb ra rb cycle] } := by
  have hadv : ∀ st next, advance (ea.outer &&& eb.outer) st next = some (ea.outer &&& eb.outer, st, next) :=
    fun _ _ => if_pos (bne_iff_ne.mpr houter)
  have hstack : mergeStacks a.stack b.stack =
      { ea with outer := ea.outer &&& eb.outer, alt := ea.alt &&& eb.alt } :: mergeStacks ra rb := by
    simp [ha, hb, mergeStacks, hkind]
  simp [Group.merge, hlt, hstack, endifStep, hkind, hadv, Group.place, Group.orphan, Group.setSplit, Group.updSplit, updIf, honly, hidle,
    hcauses, hlt.ne, hlt.ne', mergedSplit]

/-- The post leaves the split of a merge as it is, whichever of the two has arrived. -/
theorem merged_posted {G : Group} {a b : Split} {ea eb : Entry} {ra rb : List Entry} {n cycle : Nat} (hanswered : a.refused = none) :
    let H : Group := { G with splits := [mergedSplit a b ea eb ra rb cycle] }
    H.posted n cycle ((H.split n).map (fun q => q.pc)) = { G with
      splits := [{ a.issued cycle (a.pc + 8) with am := ea.outer &&& eb.outer, stack := mergeStacks ra rb, own := a.own ||| b.own }]
      infl := [{ id := G.nextIid, split := n, pc := 0 }], nextIid := G.nextIid + 1 } := by
  by_cases hn : a.id = n <;>
    simp [Group.posted, Group.split, Group.updSplit, updIf, mergedSplit, Split.issued, hn, hanswered]

/-- Rule R155: each entry of the merged stack has what the two agree on. -/
theorem mergeStacks_getElem? {ra rb : List Entry} {n : Nat} {x y : Entry} (hx : ra[n]? = some x) (hy : rb[n]? = some y) :
    ∃ z, (mergeStacks ra rb)[n]? = some { x with outer := x.outer &&& y.outer, alt := z }
      ∧ (x.kind = .ifE → z = x.alt &&& y.alt) ∧ (x.kind = .loopE → z = x.alt ||| y.alt) := by
  have hzip : (ra.zip rb)[n]? = some (x, y) := List.getElem?_zip_eq_some.mpr ⟨hx, hy⟩
  refine ⟨_, by rw [mergeStacks, List.getElem?_map, hzip]; rfl, fun hkind => by simp [hkind], fun hkind => by simp [hkind]⟩

/-! ### ENDIF at the join -/

/-- Split `p` is about to issue the ENDIF that joins it with the live split `q`: the top entries of both hold tag `j`. -/
structure AtJoin (s : State) (G : Group) (p q : Split) (j : Nat) : Prop where
  here : s.group s.cur.core s.cur.slot = some G
  current : G.split s.cur.split = some p
  holder : G.holder p.id j = some q
  answered : p.refused = none
  ahead : G.ra = none
  idle : G.infl = []
  top : ∃ e rest, p.stack = e :: rest ∧ e.kind = .ifE ∧ e.join = some j
  otherTop : ∃ e rest, q.stack = e :: rest ∧ e.join = some j

theorem endifBody_atJoin {s : State} {G : Group} {p q : Split} {j : Nat} {f : FmtB} (h : AtJoin s G p q j) (hl : Legal s G (.endif f)) :
    endifBody f s = if q.wait = .merge then (s.updGroup s.cur.core s.cur.slot (fun H => H.merge p q s.cycle)).postControl s.cur {} f.y
      else s.await s.cur .merge 5 := by
  obtain ⟨ep, rp, htop, hkind, htag⟩ := h.top
  obtain ⟨eq, rq, hotherTop, hotherTag⟩ := h.otherTop
  have hready : s.ready s.cur G {} = (s, true) := ready_of_no_vectors h.ahead h.idle rfl rfl
  have hcheck : (Instr.endif f).check (s.env G) = none := hl
  unfold endifBody State.begin
  simp only [h.here, h.current, h.ahead, h.answered, hcheck, hready, endifStep, htop, hotherTop, hkind, htag, hotherTag, h.holder,
    List.head?_cons, Option.bind_some, beq_self_eq_true, Bool.and_true, beq_iff_eq]
  simp

theorem onlyGroup_setGroup (s : State) (c g : Nat) (H : Group) : OnlyGroup s (s.setGroup c g H) c g H where
  group := group_setGroup_same ..
  others d k hne := by rw [group_setGroup, if_neg hne]
  rest := rfl

/-- Rule R155: a split that arrives first waits in MERGE. -/
theorem exec_endif_waits {s : State} {G : Group} {p q : Split} {j : Nat} {f : FmtB}
    (h : AtJoin s G p q j) (hl : Legal s G (.endif f)) (hpre : G.preempt = none) (hwait : q.wait ≠ .merge) :
    ∃ t, exec (.endif f) s = .next t ∧ OnlyGroup s t s.cur.core s.cur.slot
      (G.updSplit s.cur.split (fun p => { p with wait := .merge, stall := 5, waited := true })) := by
  refine ⟨_, congrArg Host.Outcome.next ((endifBody_atJoin h hl).trans (if_neg hwait)), ?_⟩
  unfold State.await
  rw [updGroup_of _ _ _ _ h.here]
  simp only [Group.latchStop, Group.updSplit, hpre, Option.isSome_none, Bool.false_and, Bool.false_eq_true, if_false]
  exact onlyGroup_setGroup ..

/-- Rule R155: the split that arrives second merges the two. -/
theorem exec_endif_merges {s : State} {G : Group} {a b p q : Split} {ea eb : Entry} {ra rb : List Entry} {j : Nat} {f : FmtB}
    (h : AtJoin s G p q j) (hl : Legal s G (.endif f)) (hwait : q.wait = .merge) (hanswered : a.refused = none)
    (hmerge : G.merge p q s.cycle = { G with splits := [mergedSplit a b ea eb ra rb s.cycle] }) :
    ∃ t, exec (.endif f) s = .next t ∧ Moved s t { G with
      splits := [{ a.issued s.cycle (a.pc + 8) with am := ea.outer &&& eb.outer, stack := mergeStacks ra rb, own := a.own ||| b.own }]
      infl := [{ id := G.nextIid, split := s.cur.split, pc := 0 }], nextIid := G.nextIid + 1 } := by
  refine ⟨_, congrArg Host.Outcome.next ((endifBody_atJoin h hl).trans (if_pos hwait)), ?_⟩
  have hg := group_updGroup_same s _ _ (fun H => H.merge p q s.cycle) h.here
  rw [hmerge] at hg
  rw [← merged_posted hanswered]
  exact moved_postControl f.y ((OnlySlots.refl s).updGroup _) hg h.ahead h.idle rfl

/-- The fourth clause of O8 (rules R129, R154 and R155) holds. -/
theorem splitsMerge : Clause.Merge := by
  intro s G a b f ea eb ra rb j second p q hhere honly hlt hnum hanswered hahead hidle _ hcauses hpre hl ha hb hka hkb hja hjb hlen
  have hjoin : AtJoin s G p q j := by
    cases second with
    | false =>
      exact ⟨hhere, by simp [Group.split, honly, ← hnum, p], by simp [Group.holder, honly, hlt.ne', Split.tags, hb, hjb, p, q], hanswered,
        hahead, hidle, ⟨ea, ra, ha, hka, hja⟩, ⟨eb, rb, hb, hjb⟩⟩
    | true =>
      exact ⟨hhere, by simp [Group.split, honly, ← hnum, hlt.ne, p], by simp [Group.holder, honly, hlt.ne, Split.tags, ha, hja, p, q], hanswered,
        hahead, hidle, ⟨eb, rb, hb, hkb, hjb⟩, ⟨ea, ra, ha, hja⟩⟩
  refine ⟨fun hwait => ?_, fun hwait hother houter => ?_⟩
  · obtain ⟨t, ht, honlyGroup⟩ := exec_endif_waits hjoin hl hpre hwait
    refine ⟨t, ht, ?_⟩
    rw [← hnum] at honlyGroup
    cases second <;> simpa [Group.updSplit, updIf, honly, hlt.ne, hlt.ne', p] using honlyGroup
  · have hlower : a.refused = none := by
      cases second with
      | false => exact hanswered
      | true => exact hother
    have hmerge : G.merge p q s.cycle = G.merge a b s.cycle := by
      cases second with
      | false => rfl
      | true => exact merge_comm G s.cycle hlt.ne'
    obtain ⟨t, ht, hmoved⟩ := exec_endif_merges hjoin hl hwait hlower
      (hmerge.trans (merge_eq s.cycle honly hlt hidle hcauses ha hb hka houter))
    rw [← hnum] at hmoved
    exact ⟨t, mergeStacks ra rb, ht, hmoved, by simp [mergeStacks, hlen], fun _ _ _ => mergeStacks_getElem?⟩

end Sys2Proof.Machine
end

section
/-! Rule R127: what an instruction that is not a control instruction does at a split without active lanes. Its issue ends in `State.begin`,
which records stall code 8. TDRAIN again does one thing more: it then holds its split for an entry that is in the term queue already. -/

namespace Sys2Proof.Machine

/-- The stall code of the one split is all that a stall changes in a calm group that no pre-emption request names. -/
theorem Calm.stall_eq {s : State} {G : Group} {p : Split} (h : Calm s G p) (hpre : G.preempt = none) (code : Nat) :
    s.stall s.cur code = s.setGroup s.cur.core s.cur.slot { G with splits := [{ p with stall := code }] } := by
  unfold State.stall
  rw [updGroup_of _ _ _ _ h.here]
  simp [Group.latchStop, Group.updSplit, updIf, h.only, h.num, hpre]

/-- An issue that may not begin without active lanes. -/
def BeginsWithLanes (i : Instr) (s t : State) : Prop := ∃ k, t = s.begin i false k

theorem BeginsWithLanes.of_no_lanes {s t : State} {G : Group} {p : Split} {i : Instr} (hb : BeginsWithLanes i s t) (h : Calm s G p)
    (hl : Legal s G i) (ham : p.am = 0) : t = s.stall s.cur 8 := by
  obtain ⟨k, rfl⟩ := hb
  unfold State.begin
  simp [h.here, h.split, h.ahead, show i.check (s.env G) = none from hl, ham]

theorem beginsWithLanes_termOp {s : State} (i : Instr) (f : FmtX) (plan : Plan) (chk : State → Group → TermChecks) (queued : Bool)
    (touch : State → Group → List (Nat × Nat) × Bool) (k : State → Ctx → Group → Split → State × Inflight) :
    BeginsWithLanes i s (s.termOp i f plan chk queued touch k) := ⟨_, rfl⟩

/-- Every instruction of another row than the control instructions', and RTH and TDRAIN apart, needs an active lane to issue. -/
theorem exec_beginsWithLanes {i : Instr} (h : (encode i).isSome = true) (hrow : opcode ((encode i).getD 0) / 16 ≠ 5)
    (hrth : opcode ((encode i).getD 0) ≠ 9) (hd : ∀ f, i ≠ .tdrain f) (s : State) : ∃ t, exec i s = .next t ∧ BeginsWithLanes i s t := by
  cases i
  case tdrain f => exact absurd rfl (hd f)
  case rth f => exact absurd (opcode_encodeS _ f) hrth
  case ifThen f | ifs f | elseArm f | endif f | loop f | endloop f | breakLoop f | continueLoop f | call f | ret f =>
    exact absurd (congrArg (· / 16) (opcode_encodeB _ f)) hrow
  case tldw f | tldws f | tmma f | tmmaq f | tfeed f | tzero f | thist f | trecode f | tdecode f =>
    refine ⟨_, rfl, ?_⟩
    simp only [State.loadOp, tmmaBody, tmmaqBody, tfeedBody, tzeroBody, thistBody, trecodeBody, tdecodeBody]
    exact beginsWithLanes_termOp ..
  all_goals cases h <;> exact ⟨_, rfl, _, rfl⟩

/-- A TDRAIN without active lanes records stall code 8, and then holds its split for a stale entry, if there is one. -/
theorem exec_tdrain_of_no_lanes {s : State} {G : Group} {p : Split} {f : FmtX} (h : Calm s G p) (hpre : G.preempt = none)
    (hl : Legal s G (.tdrain f)) (ham : p.am = 0) :
    exec (.tdrain f) s = .next (if s.stale then s.holdDrain (s.stall s.cur 8) else s.stall s.cur 8) := by
  have htq : ((s.stall s.cur 8).core s.cur.core).tq = (s.core s.cur.core).tq := by
    rw [h.stall_eq hpre, core_setGroup_tq]
  have hb : tdrainBody f s = if s.stale then s.holdDrain (s.stall s.cur 8) else s.stall s.cur 8 := by
    unfold tdrainBody State.stale State.holdDrain
    simp only [(beginsWithLanes_termOp ..).of_no_lanes h hl ham, htq]
  exact congrArg Host.Outcome.next hb

/-- The second clause of O8 holds wherever the term queue holds no stale entry, of every instruction. -/
theorem exec_of_no_lanes {s : State} {G : Group} {p : Split} {i : Instr} (h : Calm s G p) (hs : s.stale = false) (hpre : G.preempt = none)
    (hi : (encode i).isSome = true) (hl : Legal s G i) (ham : p.am = 0) (hrow : opcode ((encode i).getD 0) / 16 ≠ 5)
    (hrth : opcode ((encode i).getD 0) ≠ 9) :
    exec i s = .next (s.setGroup s.cur.core s.cur.slot { G with splits := [{ p with stall := 8 }] }) := by
  rw [← h.stall_eq hpre]
  by_cases hd : ∃ f, i = .tdrain f
  · obtain ⟨f, rfl⟩ := hd
    rw [exec_tdrain_of_no_lanes h hpre hl ham, hs]
    rfl
  · obtain ⟨t, ht, hb⟩ := exec_beginsWithLanes hi hrow hrth (fun f hf => hd ⟨f, hf⟩) s
    rw [ht, hb.of_no_lanes h hl ham]

/-! ### The counterexample -/

/-- A split without active lanes, about to issue. -/
def lanelessSplit : Split := { drainSplit with am := 0 }

def lanelessGroup : Group := { drainGroup with splits := [lanelessSplit] }

/-- `stalePackage` with no lane active. -/
def lanelessPackage : State := stalePackage.setGroup 0 0 lanelessGroup

/-- A TDRAIN of one register. -/
def plainDrain : FmtX := ⟨0, 0, 0, 0, 0, 0, 0, 0, 0, 0, 0, 0⟩

theorem calm_lanelessPackage : Calm lanelessPackage lanelessGroup lanelessSplit where
  here := group_setGroup_same ..
  only := rfl
  num := rfl
  answered := rfl
  ahead := rfl
  idle := rfl
  loads := rfl
  arms := rfl

/-- The split stays ready when its stall code is recorded, and is then made to wait for a drain that was never issued. -/
theorem waits_lanelessPackage : (lanelessPackage.stall lanelessPackage.cur 8).waits 0 0 = some [.ready]
    ∧ (lanelessPackage.holdDrain (lanelessPackage.stall lanelessPackage.cur 8)).waits 0 0 = some [.drain 0] := by
  decide +kernel

/-- The second clause of O8 fails: in `lanelessPackage` the stall code of its split is not all that a TDRAIN records. -/
theorem not_noIssueWithoutLanes : ¬ Clause.NoIssueWithoutLanes := by
  intro h
  have hl : Legal lanelessPackage lanelessGroup (.tdrain plainDrain) := rfl
  have hopcode : opcode ((encode (.tdrain plainDrain)).getD 0) = 0x87 := opcode_encodeX _ _
  have hstall := h lanelessPackage _ _ (.tdrain plainDrain) calm_lanelessPackage rfl rfl hl rfl (by rw [hopcode]; decide) (by rw [hopcode]; decide)
  have hexec : exec (.tdrain plainDrain) lanelessPackage =
      .next (lanelessPackage.holdDrain (lanelessPackage.stall lanelessPackage.cur 8)) :=
    exec_tdrain_of_no_lanes calm_lanelessPackage rfl hl rfl
  rw [← calm_lanelessPackage.stall_eq rfl] at hstall
  have hheld : lanelessPackage.holdDrain (lanelessPackage.stall lanelessPackage.cur 8) = lanelessPackage.stall lanelessPackage.cur 8 :=
    Host.Outcome.next.inj (hexec.symm.trans hstall)
  obtain ⟨hready, hdrain⟩ := waits_lanelessPackage
  rw [hheld, hready] at hdrain
  exact absurd hdrain (by decide)

/-- Refutes O8: a TDRAIN without an active lane does not issue, but it holds its split for a drain where the term queue already has an entry of
the number that its own would have taken. `Calm` does not exclude such a state; without such an entry the second clause says what the model
does (`exec_of_no_lanes`), and the other clauses hold (`advance_spec`, `conditionals`, `splitsMerge`, `loops`, `calls`). -/
theorem not_controlFlow : ¬ Obligations.ControlFlow := fun ⟨_, hissue, _⟩ => not_noIssueWithoutLanes hissue

end Sys2Proof.Machine
end

section
/-! A cross-lane instruction issues, in a calm group, with the writes of its operation; and the masks, counts and lowest lanes that the
operations of rules R172 to R178 are made of. -/

namespace Sys2Proof.Machine

/-! ### The issue -/

/-- An instruction whose issue only computes, in a calm group, computes. -/
theorem computes_of_begin {s : State} {G : Group} {p : Split} {i : Instr} {P : Plan} {ws : List RegW} {y : BitVec 1}
    {k : State → Ctx → Group → Split → State} (hc : Calm s G p) (hexec : exec i s = .next (s.begin i false k))
    (hk : k s s.cur G p = s.compute s.cur G P y ws) : Computes s G p i P ws := by
  intro hl ha hn
  refine ⟨_, hexec, ?_⟩
  rw [begin_calm false _ hc hl (.inr ha), hk]
  exact compute_calm _ _ hc hn

/-- An instruction whose meaning is `State.laneOp` has the form of a cross-lane instruction. -/
theorem laneForm_of_exec {mk : FmtR → Instr} {h : FmtR → Nat → Shape} {whole : Bool} {out : FmtR → Group → Mask → List RegW}
    (hexec : ∀ f s, exec (mk f) s = .next (s.laneOp (mk f) f (h f) whole (out f))) : LaneForm mk h whole out :=
  fun s _ _ f hc => computes_of_begin hc (hexec f s) rfl

/-- The same of any function that gives the same writes. -/
theorem laneForm_of_exec_eq {mk : FmtR → Instr} {h : FmtR → Nat → Shape} {whole : Bool} {out out' : FmtR → Group → Mask → List RegW}
    (hexec : ∀ f s, exec (mk f) s = .next (s.laneOp (mk f) f (h f) whole (out f))) (hout : ∀ f G m, out' f G m = out f G m) :
    LaneForm mk h whole out' := by
  have he : out' = out := by funext f G m; exact hout f G m
  exact he ▸ laneForm_of_exec hexec

theorem LaneForm.of_lanes {mk : FmtR → Instr} {h : FmtR → Nat → Shape} {whole : Bool} {out : FmtR → Group → Mask → List RegW}
    (hform : LaneForm mk h whole out) {s : State} {G : Group} {p : Split} (hc : Calm s G p) (f : FmtR)
    (hm : whole = false ∨ activeLanes G p f.ge f.gn f.g ≠ 0) :
    Computes s G p (mk f) (planR f (h f G.w)) (out f G (activeLanes G p f.ge f.gn f.g)) := by
  have hnone : (whole && activeLanes G p f.ge f.gn f.g == 0) = false := by
    rcases hm with hw | hm
    · rw [hw, Bool.false_and]
    · rw [beq_false_of_ne hm, Bool.and_false]
  simpa only [hnone, Bool.false_eq_true, if_false] using hform s G p f hc

theorem LaneForm.of_no_lanes {mk : FmtR → Instr} {h : FmtR → Nat → Shape} {out : FmtR → Group → Mask → List RegW}
    (hform : LaneForm mk h true out) {s : State} {G : Group} {p : Split} (hc : Calm s G p) (f : FmtR)
    (hm : activeLanes G p f.ge f.gn f.g = 0) :
    Computes s G p (mk f)
      { planR f (h f G.w) with wv := [], wk := [], wp := [], wh := [], nd := (planR f (h f G.w)).wv } [] := by
  have hnone : (true && activeLanes G p f.ge f.gn f.g == 0) = true := by simp [hm]
  simpa only [hnone, if_true] using hform s G p f hc

/-! ### Masks -/

theorem mem_lanesIn {m : Mask} {w l : Nat} : l ∈ lanesIn m w ↔ l < w ∧ inMask m l = true := by
  simp [lanesIn]

theorem lanesIn_pairwise (m : Mask) (w : Nat) : (lanesIn m w).Pairwise (· < ·) := List.pairwise_lt_range.filter _

/-- A sum of the powers of two of the numbers that satisfy a condition has their bits. -/
theorem foldl_place_spec (f : Nat → Bool) (w : Nat) :
    (List.range w).foldl (fun a l => if f l then a + 2 ^ l else a) 0 < 2 ^ w
      ∧ ∀ i, ((List.range w).foldl (fun a l => if f l then a + 2 ^ l else a) 0).testBit i = (decide (i < w) && f i) := by
  induction w with
  | zero => simp
  | succ w ih =>
    obtain ⟨hlt, hbit⟩ := ih
    rw [List.range_succ, List.foldl_append, List.foldl_cons, List.foldl_nil]
    generalize (List.range w).foldl (fun a l => if f l then a + 2 ^ l else a) 0 = r at hlt hbit ⊢
    have hplace : (if f w then r + 2 ^ w else r) = 2 ^ w * (f w).toNat + r := by
      cases f w <;> simp [Nat.add_comm]
    have hfw : (f w).toNat < 2 := (f w).toNat_lt
    rw [hplace]
    constructor
    · calc 2 ^ w * (f w).toNat + r < 2 ^ w * (f w).toNat + 2 ^ w := Nat.add_lt_add_left hlt _
        _ = 2 ^ w * ((f w).toNat + 1) := by ring
        _ ≤ 2 ^ (w + 1) := by rw [pow_succ]; exact Nat.mul_le_mul_left _ hfw
    · intro i
      rw [Nat.testBit_two_pow_mul_add _ hlt]
      rcases Nat.lt_trichotomy i w with hi | rfl | hi
      · simp [hi, hbit, Nat.lt_succ_of_lt hi]
      · cases f i <;> simp
      · have hzero : (f w).toNat.testBit (i - w) = false :=
          Nat.testBit_lt_two_pow (hfw.trans_le (Nat.le_self_pow (by omega) 2))
        simp [hzero, show ¬ i < w by omega, show ¬ i < w + 1 by omega]

theorem inMask_maskOf (w : Nat) (f : Nat → Bool) (l : Nat) : inMask (maskOf w f) l = (decide (l < 64) && (decide (l < w) && f l)) := by
  rw [inMask, maskOf, BitVec.getLsbD_ofNat, (foldl_place_spec f w).2]

/-- The lanes of a mask made of a condition on active lanes. -/
theorem lanesIn_maskOf {w : Nat} (hw : w ≤ 64) (m : Mask) (b : Nat → Bool) :
    lanesIn (maskOf w (fun l => inMask m l && b l)) w = (lanesIn m w).filter b := by
  rw [lanesIn, lanesIn, List.filter_filter]
  refine List.filter_congr fun l hl => ?_
  have hlt : l < w := List.mem_range.mp hl
  rw [inMask_maskOf, decide_eq_true (hlt.trans_le hw), decide_eq_true hlt, Bool.true_and, Bool.true_and, Bool.and_comm]

theorem countMask_maskOf {w : Nat} (hw : w ≤ 64) (m : Mask) (b : Nat → Bool) :
    countMask (maskOf w (fun l => inMask m l && b l)) w = ((lanesIn m w).filter b).length := by
  rw [countMask, lanesIn_maskOf hw]

theorem countMask_eq_card (m : Mask) (w : Nat) : countMask m w = ((Finset.range w).filter (fun l => inMask m l = true)).card := by
  simp only [countMask, lanesIn, Finset.card_def, Finset.filter_val, Finset.range_val, Multiset.range, Multiset.filter_coe,
    Multiset.coe_card, Bool.decide_eq_true]

theorem inMask_and (m n : Mask) (l : Nat) : inMask (m &&& n) l = (inMask m l && inMask n l) := BitVec.getLsbD_and

theorem find?_eq_head?_lanesIn (m : Mask) (w : Nat) : (List.range w).find? (inMask m) = (lanesIn m w).head? := List.head?_filter.symm

/-- The lowest active lane, where one is active. -/
theorem find?_range_eq_lowest {m : Mask} {w : Nat} (h : ∃ l, l < w ∧ inMask m l = true) :
    (List.range w).find? (inMask m) = some (lowest m w) := by
  obtain ⟨l, hl⟩ := h
  cases hlanes : lanesIn m w with
  | nil => exact absurd (mem_lanesIn.mpr hl) (by simp [hlanes])
  | cons a as => rw [find?_eq_head?_lanesIn, lowest, hlanes]; rfl

theorem lowest_spec {m : Mask} {w : Nat} (h : ∃ l, l < w ∧ inMask m l = true) :
    lowest m w < w ∧ inMask m (lowest m w) = true ∧ ∀ k, k < lowest m w → inMask m k = false := by
  obtain ⟨hm, hw, hlow⟩ := List.find?_range_eq_some.mp (find?_range_eq_lowest h)
  exact ⟨List.mem_range.mp hw, hm, fun k hk => by simpa using hlow k hk⟩

/-! ### Writes -/

theorem lanesOf_congr {w : Nat} {f g : Nat → W32} (h : ∀ l < w, f l = g l) : lanesOf w f = lanesOf w g :=
  List.map_congr_left fun l hl => h l (List.mem_range.mp hl)

theorem maskOf_congr {w : Nat} {f g : Nat → Bool} (h : ∀ l < w, f l = g l) : maskOf w f = maskOf w g := by
  refine BitVec.eq_of_getLsbD_eq fun l _ => ?_
  change inMask (maskOf w f) l = inMask (maskOf w g) l
  rw [inMask_maskOf, inMask_maskOf]
  by_cases hl : l < w
  · rw [h l hl]
  · simp [hl]

/-- The writes of a result are those of any other that agrees with it in the active lanes. -/
theorem putAll_congr {w : Nat} {m : Mask} (sp : BitVec 2) (n : Nat) (wide sx : Bool) {f g : Nat → Nat} (h : ∀ l ∈ lanesIn m w, f l = g l) :
    putAll w m sp n wide sx f = putAll w m sp n wide sx g := by
  have hactive : ∀ l < w, inMask m l = true → f l = g l := fun l hl hm => h l (mem_lanesIn.mpr ⟨hl, hm⟩)
  have hlo : lanesOf w (fun l => if inMask m l then w32 (f l) else 0) = lanesOf w (fun l => if inMask m l then w32 (g l) else 0) :=
    lanesOf_congr fun l hl => ite_congr rfl (fun hm => by rw [hactive l hl hm]) fun _ => rfl
  have hhi : lanesOf w (fun l => if inMask m l then w32 (f l / 2 ^ 32) else 0)
      = lanesOf w (fun l => if inMask m l then w32 (g l / 2 ^ 32) else 0) :=
    lanesOf_congr fun l hl => ite_congr rfl (fun hm => by rw [hactive l hl hm]) fun _ => rfl
  have hpred : maskOf w (fun l => inMask m l && f l != 0) = maskOf w (fun l => inMask m l && g l != 0) := by
    refine maskOf_congr fun l hl => ?_
    cases hm : inMask m l with
    | false => rfl
    | true => rw [hactive l hl hm]
  unfold putAll
  rw [hlo, hhi, hpred]
  cases hlanes : lanesIn m w with
  | nil => rfl
  | cons l ls =>
    dsimp only
    rw [h l (by simp [hlanes])]

end Sys2Proof.Machine
end

section
/-! Rules R172 to R175: LXCH, BCAST, PQRY, ELECT and MATCH. -/

namespace Sys2Proof.Machine

/-- Under `.spread` the source is the lowest active lane of the segment, which holds the lane itself (rule R172). -/
theorem lxchFrom_spread {w mode sel l n : Nat} {m : Mask} (hl : l < w) (hmode : mode = 3) (hm : inMask m l = true)
    (hn : n = if sel / 256 % 8 = 0 then w else min (2 ^ (sel / 256 % 8)) w) :
    l - l % n ≤ lxchFrom w mode sel l m ∧ lxchFrom w mode sel l m < l - l % n + n ∧ inMask m (lxchFrom w mode sel l m) = true
      ∧ ∀ k, l - l % n ≤ k → k < lxchFrom w mode sel l m → inMask m k = false := by
  have hpos : 0 < n := by
    rw [hn]; split_ifs
    · omega
    · exact lt_min (by positivity) (by omega)
  have hself : l - l % n + l % n = l := Nat.sub_add_cancel (Nat.mod_le l n)
  have hfrom : lxchFrom w mode sel l m
      = (((List.range n).find? (fun j => inMask m (l - l % n + j))).map (fun j => l - l % n + j)).getD l := by
    subst hmode hn; rfl
  cases hfind : (List.range n).find? (fun j => inMask m (l - l % n + j)) with
  | none =>
    have hnone := List.find?_eq_none.mp hfind (l % n) (List.mem_range.mpr (Nat.mod_lt l hpos))
    rw [hself] at hnone
    exact absurd hm hnone
  | some j =>
    obtain ⟨hj, hmem, hlow⟩ := List.find?_range_eq_some.mp hfind
    have hlt : j < n := List.mem_range.mp hmem
    rw [hfrom, hfind, Option.map_some, Option.getD_some]
    refine ⟨Nat.le_add_right _ _, Nat.add_lt_add_left hlt _, hj, fun k hk hkj => ?_⟩
    obtain ⟨i, rfl⟩ := Nat.exists_eq_add_of_le hk
    simpa using hlow i (by omega)

/-- The source lane of BCAST (rule R173). -/
def bcastFrom (f : FmtR) (G : Group) (m : Mask) : Nat :=
  let b := (G.uni f.b.toNat).toNat % 2 ^ 32
  if decide (b < G.w) && inMask m b then b else lowest m G.w

/-- The source lane of LXCH for a lane (rule R172). -/
def lxchSource (f : FmtR) (G : Group) (m : Mask) (l : Nat) : Nat :=
  lxchFrom G.w (f.opx.toNat % 4) (G.opnd f.sb f.b.toNat false l) l m

/-- The first clause of O10 (rules R172 and R173) holds. -/
theorem laneExchange : Clause.LaneExchange := by
  refine ⟨lxchSource, fun f G m => maskOf G.w (fun l => inMask m l && inMask m (lxchSource f G m l)), bcastFrom,
    laneForm_of_exec fun _ _ => rfl, laneForm_of_exec fun _ _ => rfl, fun f G m l hl hl64 => ?_, fun f G m => ⟨fun hb hm => ?_, fun hb h => ?_⟩⟩
  · refine ⟨fun h => ?pick, fun h => ?rot, fun h => ?rev, fun h hm => lxchFrom_spread hl h hm rfl, ?keep⟩
    case pick | rot | rev => rw [lxchSource, h]; rfl
    case keep => rw [inMask_maskOf, decide_eq_true hl64, decide_eq_true hl, Bool.true_and, Bool.true_and]
  · exact if_pos (by rw [decide_eq_true hb, hm]; rfl)
  · have hlow : bcastFrom f G m = lowest m G.w := if_neg (by simpa using hb)
    rw [hlow]
    exact lowest_spec h

/-- The value that PQRY writes, by the numbers of active lanes (rule R174). -/
theorem pqryVal_eq (f : FmtR) (G : Group) (m : Mask) : pqryVal f G m =
    let hit := (Finset.range G.w).filter (fun l => inMask m l = true ∧ inMask (G.pred f.a.toNat) l = true)
    let all := (Finset.range G.w).filter (fun l => inMask m l = true)
    match f.opx.toNat with
    | 0 => boolNat (decide (hit.card ≥ (G.uni f.b.toNat).toNat))
    | 1 => boolNat (decide (all.card - hit.card ≤ (G.uni f.b.toNat).toNat))
    | 2 => boolNat (decide (hit.card = 0 ∨ hit.card = all.card))
    | 3 => (m &&& G.pred f.a.toNat &&& fullMask G.w).toNat
    | _ => hit.card := by
  simp only [pqryVal, countMask_eq_card, inMask_and, Bool.and_eq_true, Bool.decide_or, beq_eq_decide, ge_iff_le] <;> rfl

/-- MATCH's mask for a lane (rule R175). -/
def matchMask (f : FmtR) (G : Group) (m : Mask) (l : Nat) : Nat :=
  (maskOf G.w (fun k => inMask m k && G.opnd f.sa f.a.toNat (f.ty == 3) k == G.opnd f.sa f.a.toNat (f.ty == 3) l)).toNat

theorem testBit_matchMask (f : FmtR) (G : Group) (m : Mask) (l k : Nat) (hw : G.w ≤ 64) : (matchMask f G m l).testBit k =
    decide (k < G.w ∧ inMask m k = true ∧ G.opnd f.sa f.a.toNat (f.ty == 3) k = G.opnd f.sa f.a.toNat (f.ty == 3) l) := by
  rw [matchMask, BitVec.testBit_toNat]
  change inMask _ k = _
  rw [inMask_maskOf]
  by_cases hk : k < G.w
  · simp [hk, show k < 64 by omega, beq_eq_decide]
  · simp [hk]

/-- ELECT's bit in an active lane (rule R174). -/
theorem elect_of_active {m : Mask} {w l : Nat} (hl : l ∈ lanesIn m w) :
    boolNat (l == lowest m w) = if (some l == (List.range w).find? (fun k => inMask m k)) = true then 1 else 0 := by
  rw [find?_range_eq_lowest ⟨l, mem_lanesIn.mp hl⟩]
  rfl

/-- The second clause of O10 (rules R174 and R175) holds. -/
theorem votes : Clause.Votes := by
  refine ⟨matchMask, laneForm_of_exec_eq (fun _ _ => rfl) fun f G m => ?_, fun s G p f hc => ?_, laneForm_of_exec fun _ _ => rfl,
    testBit_matchMask⟩
  · exact congrArg (putAll _ _ _ _ _ _) (funext fun _ => (pqryVal_eq f G m).symm)
  · refine computes_of_begin (y := f.y) hc rfl ?_
    dsimp only
    rw [putAll_congr spPred _ _ _ fun l hl => (elect_of_active hl).symm]

end Sys2Proof.Machine
end

section
/-! What RED and SCAN combine: a list of values from its first one on, and the identity where there is none (rules R176 and R177). -/

namespace Sys2Proof.Machine

/-- The values of a list combined onto an accumulator, which a SCAN begins without one (rule R177). -/
def foldOnto {α : Type} (op : α → α → α) (idv : α) (acc : Option α) (vs : List α) : α :=
  match vs with
  | [] => acc.getD idv
  | a :: rest => foldOnto op idv (some (acc.elim a (fun x => op x a))) rest

/-- The values of a list combined from the first one on, `idv` where there is none. -/
def foldFirst {α : Type} (op : α → α → α) (idv : α) (vs : List α) : α :=
  match vs with
  | [] => idv
  | a :: rest => rest.foldl op a

theorem foldOnto_some {α : Type} (op : α → α → α) (idv x : α) (vs : List α) : foldOnto op idv (some x) vs = vs.foldl op x := by
  induction vs generalizing x with
  | nil => rfl
  | cons a rest ih => exact ih (op x a)

theorem foldOnto_none {α : Type} (op : α → α → α) (idv : α) (vs : List α) : foldOnto op idv none vs = foldFirst op idv vs := by
  cases vs with
  | nil => rfl
  | cons a rest => exact foldOnto_some op idv a rest

/-- The lanes that SCAN combines for lane `l`: those before it, and, inclusive, the lane itself. -/
def scanned (exc : Bool) (l k : Nat) : Bool := if exc then decide (k < l) else decide (k ≤ l)

/-- SCAN's result in a lane is the combination of the lanes that it takes for it, behind the accumulator with which the scan began. -/
theorem get_zip_scanVals {α : Type} (op : α → α → α) (exc : Bool) (idv : α) (v : Nat → α) (out : α → Nat) {ls : List Nat}
    (hsorted : ls.Pairwise (· < ·)) (acc : Option α) {l : Nat} (hl : l ∈ ls) :
    Tab.get (ls.zip ((scanVals op exc idv acc (ls.map v)).map out)) 0 l
      = out (foldOnto op idv acc ((ls.filter (scanned exc l)).map v)) := by
  induction ls generalizing acc with
  | nil => exact absurd hl List.not_mem_nil
  | cons a rest ih =>
    obtain ⟨habove, hrest⟩ := List.pairwise_cons.mp hsorted
    rcases List.mem_cons.mp hl with rfl | hmem
    · have hnone : rest.filter (scanned exc l) = [] := by
        refine List.filter_eq_nil_iff.mpr fun k hk => ?_
        have := habove k hk
        cases exc <;> simp [scanned] <;> omega
      cases exc with
      | true =>
        have hself : scanned true l l = false := by simp [scanned]
        simp only [List.map_cons, scanVals, List.zip_cons_cons, Tab.get, List.filter_cons, hself, hnone]
        rfl
      | false =>
        have hself : scanned false l l = true := by simp [scanned]
        simp only [List.map_cons, scanVals, List.zip_cons_cons, Tab.get, List.filter_cons, hself, hnone]
        cases acc <;> rfl
    · have hlt : a < l := habove l hmem
      have hbefore : scanned exc l a = true := by cases exc <;> simp [scanned] <;> omega
      rw [List.filter_cons_of_pos hbefore]
      exact (if_neg hlt.ne).trans ((ih hrest _ hmem).trans (by cases acc <;> rfl))

end Sys2Proof.Machine
end

section
/-! Rules R176, R177 and R178 for integers: RED, SCAN and TOPK. -/

namespace Sys2Proof.Machine

/-! ### RED and SCAN -/

theorem shRed_of_int {f : FmtR} (h : redFcl f = false) (w : Nat) : shRed f w = { wd := tyIs64 f.ty, wa := tyIs64 f.ty, useB := false } := by
  rw [shRed, h]; rfl

theorem shRed_of_float {f : FmtR} (h : redFcl f = true) (w : Nat) : shRed f w = { wd := f.ty == 3, wa := f.ty == 3, useB := false } := by
  rw [shRed, h]; rfl

/-- The value of lane `l` that an integer RED, SCAN or TOPK reads. -/
def laneInt (f : FmtR) (G : Group) (l : Nat) : Int :=
  ival (tyIsSigned f.ty) (tyWidth f.ty) (G.opnd f.sa f.a.toNat (tyIs64 f.ty) l)

theorem redForm : LaneForm .red shRed true (fun f G m =>
    putAll G.w m f.sd f.d.toNat (classIs64 (!redFcl f) f.ty) (!redFcl f && sxTy f.ty) (fun _ => redVal f G m)) :=
  laneForm_of_exec fun _ _ => rfl

theorem scanForm : LaneForm .scan shRed false (fun f G m =>
    putAll G.w m f.sd f.d.toNat (classIs64 (!redFcl f) f.ty) false (fun l => Tab.get (scanOut f G m) 0 l)) :=
  laneForm_of_exec fun _ _ => rfl

/-- Rule R176: the exact combination of the active lanes, wrapped or saturated once. -/
theorem redVal_of_int {f : FmtR} (h : redFcl f = false) (G : Group) {m : Mask} (hm : lanesIn m G.w ≠ []) : redVal f G m
    = redOut f (foldFirst (redInt (redRop f).toNat) (scanIdInt f) ((lanesIn m G.w).map (laneInt f G))) := by
  cases hlanes : lanesIn m G.w with
  | nil => exact absurd hlanes hm
  | cons l ls => simp only [redVal, h, hlanes]; rfl

/-- Rule R177: the same of the lanes that the scan takes for a lane. -/
theorem scanOut_of_int {f : FmtR} (h : redFcl f = false) (G : Group) (m : Mask) {l : Nat} (hl : l ∈ lanesIn m G.w) :
    Tab.get (scanOut f G m) 0 l = redOut f (foldFirst (redInt (redRop f).toNat) (scanIdInt f)
      (((lanesIn m G.w).filter (scanned (redExc f) l)).map (laneInt f G))) := by
  have hget := get_zip_scanVals (redInt (redRop f).toNat) (redExc f) (scanIdInt f) (laneInt f G) (redOut f) (lanesIn_pairwise m G.w) none hl
  rw [foldOnto_none] at hget
  rw [← hget]
  simp only [scanOut, h]
  rfl

theorem redInt_eq (rop : Nat) (a b : Int) : redInt rop a b = match rop with
    | 0 => a + b
    | 1 => min a b
    | 2 => max a b
    | 3 => ((a.toNat &&& b.toNat : Nat) : Int)
    | 4 => ((a.toNat ||| b.toNat : Nat) : Int)
    | _ => ((a.toNat ^^^ b.toNat : Nat) : Int) := by
  rw [min_def, max_comm, max_def] <;> rfl

theorem redOut_eq (f : FmtR) (x : Int) : redOut f x = wrapInt (if f.opx.getLsbD 0 then
    (if tyIsSigned f.ty then max (-(2 ^ (tyWidth f.ty - 1) : Int)) (min x (2 ^ (tyWidth f.ty - 1) - 1))
      else max 0 (min x (2 ^ tyWidth f.ty - 1))) else x) (tyWidth f.ty) := by
  rw [redOut, satTo_eq]

theorem scanIdInt_eq (f : FmtR) : scanIdInt f = match (redRop f).toNat with
    | 1 => if tyIsSigned f.ty then 2 ^ (tyWidth f.ty - 1) - 1 else 2 ^ tyWidth f.ty - 1
    | 2 => if tyIsSigned f.ty then -(2 ^ (tyWidth f.ty - 1)) else 0
    | 3 => 2 ^ tyWidth f.ty - 1
    | _ => 0 := by
  simp only [scanIdInt, Nat.cast_pow, Nat.cast_ofNat] <;> rfl

/-! ### TOPK -/

/-- The number of active lanes that rank before lane `l` (rule R178). -/
def rankOf (isMin : Bool) (w : Nat) (m : Mask) (v : Nat → FVal) (l : Nat) : Nat :=
  ((lanesIn m w).filter (fun j => ranksBefore isMin j l (v j) (v l))).length

/-- The value of lane `l` that TOPK ranks. -/
def topkVal (f : FmtR) (G : Group) (l : Nat) : FVal :=
  let x := G.opnd f.sa f.a.toNat (classIs64 (!(f.opx.getLsbD 1)) f.ty) l
  if f.opx.getLsbD 1 then fop f.ty false x else ofInt (ival (tyIsSigned f.ty) (tyWidth f.ty) x)

/-- TOPK in a group of 64 lanes at most: a lane is selected where fewer than k active lanes rank before it. -/
theorem computes_topk {s : State} {G : Group} {p : Split} (hc : Calm s G p) (f : FmtR) (hw : G.w ≤ 64) :
    let m := activeLanes G p f.ge f.gn f.g
    Computes s G p (.topk f) (planR f { wa := classIs64 (!(f.opx.getLsbD 1)) f.ty })
      (putAll G.w m spPred f.d.toNat false false (fun l =>
        boolNat (decide (rankOf (f.opx.getLsbD 0) G.w m (topkVal f G) l < (G.uni f.b.toNat).toNat % 2 ^ 32)))) := by
  refine computes_of_begin (y := f.y) hc rfl ?_
  simp only [countMask_maskOf hw, rankOf]
  rfl

theorem intAt_natAbs (x : Int) : intAt (decide (x < 0)) x.natAbs 0 0 = x := by
  rcases lt_or_ge x 0 with h | h
  · simp [intAt, scaleTo, h, abs_of_neg h]
  · simp [intAt, scaleTo, h.not_gt, abs_of_nonneg h]

theorem fCmp_ofInt (x y : Int) : fCmp (ofInt x) (ofInt y) = some (compare x y) := by
  simp only [fCmp, ofInt, min_self, intAt_natAbs]

/-- Integers rank by value, and equal ones by lane. -/
theorem ranksBefore_ofInt (isMin : Bool) (j l : Nat) (x y : Int) :
    ranksBefore isMin j l (ofInt x) (ofInt y) = if x = y then decide (j < l) else decide (x < y) == isMin := by
  have hrank : ranksBefore isMin j l (ofInt x) (ofInt y) = match fCmp (ofInt x) (ofInt y) with
    | some .lt => isMin
    | some .gt => !isMin
    | _ => decide (j < l) := rfl
  rw [hrank, fCmp_ofInt]
  rcases lt_trichotomy x y with h | rfl | h
  · simp [compare_lt_iff_lt.mpr h, h, h.ne]
  · simp
  · simp [compare_gt_iff_gt.mpr h, h.ne', h.not_gt]

/-! ### The clause -/

/-- The third clause of O10 (rules R176 to R178 for integers) holds. -/
theorem integerReductions : Clause.IntegerReductions := by
  unfold Clause.IntegerReductions
  intro w n v op out idv active fold s G p f hc m
  have hn : n f = tyWidth f.ty := (tyWidth_eq f.ty).symm
  have hv : v f G = laneInt f G := by funext l; simp only [v, hn]; rfl
  have hop : op f = redInt (redRop f).toNat := by funext a b; exact (redInt_eq _ a b).symm
  have hout : out f = redOut f := by funext x; simp only [out, hn]; exact (redOut_eq f x).symm
  have hidv : idv f = scanIdInt f := by simp only [idv, hn]; exact (scanIdInt_eq f).symm
  have hfold : fold f = foldFirst (redInt (redRop f).toNat) (scanIdInt f) := by
    rw [← hop, ← hidv]
    funext ls
    cases ls <;> rfl
  rw [hv, hout, hfold]
  refine ⟨redForm.of_no_lanes hc f, fun hfcl hm hne => ?red, fun hfcl => ?scan, fun hint hw => ?topk⟩
  case red =>
    have h := redForm.of_lanes hc f (.inr hm)
    rw [shRed_of_int hfcl, redVal_of_int hfcl G hne, hfcl] at h
    exact h
  case scan =>
    have h := scanForm.of_lanes hc f (.inl rfl)
    rw [shRed_of_int hfcl, hfcl] at h
    exact ⟨_, h, fun l hl => scanOut_of_int hfcl G m hl⟩
  case topk =>
    have h := computes_topk hc f hw
    have hval : topkVal f G = fun l => ofInt (laneInt f G l) := by funext l; simp only [topkVal, hint]; rfl
    simp only [hval, rankOf, ranksBefore_ofInt, hint, boolNat, decide_eq_true_eq] at h
    exact h

end Sys2Proof.Machine
end

section
/-! The pattern that a float result has fits its type, so that reading it again gives the rounded value (rules R94, R95, R97 to R101). -/

namespace Sys2Proof.Machine

/-- A binary format's codes in their order: the largest finite one, the NaN, and the sign bit (rules R94, R95). -/
def BinFmt.Ordered (b : BinFmt) : Prop := 0 < b.w ∧ b.maxCode < b.nanCode ∧ b.nanCode < 2 ^ (b.w - 1)

/-- A format whose codes lie in its width. -/
def NumFmt.Ordered (t : NumFmt) : Prop :=
  match t with
  | .bin b => b.Ordered
  | .tap n _ => 0 < n

theorem fltFmt_ordered (ty : Nat) : (fltFmt ty).Ordered := by
  unfold fltFmt
  split <;> simp only [NumFmt.Ordered, BinFmt.Ordered] <;> decide

theorem NumFmt.Ordered.double {t : NumFmt} (h : t.Ordered) : 2 ^ (t.width - 1) + 2 ^ (t.width - 1) = 2 ^ t.width := by
  cases t with
  | bin b => exact Nat.two_pow_pred_add_two_pow_pred h.1
  | tap n es => exact Nat.two_pow_pred_add_two_pow_pred h

theorem NumFmt.Ordered.maxCode_lt {t : NumFmt} (h : t.Ordered) : t.maxCode < 2 ^ (t.width - 1) := by
  cases t with
  | bin b => exact h.2.1.trans h.2.2
  | tap n es => exact Nat.sub_lt (by positivity) one_pos

theorem NumFmt.Ordered.nanCode_lt {t : NumFmt} (h : t.Ordered) : t.nanCode < 2 ^ t.width := by
  cases t with
  | bin b => exact h.2.2.trans_le (Nat.pow_le_pow_right two_pos (Nat.sub_le _ _))
  | tap n es => exact Nat.pow_lt_pow_right one_lt_two (Nat.sub_lt h one_pos)

/-- A magnitude below the sign bit, with a sign. -/
theorem NumFmt.Ordered.signed_lt {t : NumFmt} (h : t.Ordered) (neg : Bool) {c : Nat} (hc : c < 2 ^ (t.width - 1)) :
    (if neg then 2 ^ (t.width - 1) else 0) + c < 2 ^ t.width := by
  have hdouble := h.double
  split_ifs <;> omega

/-- The code that an infinity has: an infinity, the NaN where the format has none, or, saturated, the largest finite code. -/
theorem NumFmt.round_inf_lt {t : NumFmt} (h : t.Ordered) (mode : RMode) (fz sat neg : Bool) : t.round mode fz sat (.inf neg) < 2 ^ t.width := by
  cases sat with
  | true => exact h.signed_lt neg h.maxCode_lt
  | false =>
    cases t with
    | bin b =>
      by_cases hinf : b.infs = true
      · exact (if_pos hinf).trans_lt (Ordered.signed_lt h neg (Nat.lt_of_le_of_lt h.2.1 h.2.2))
      · exact (if_neg hinf).trans_lt (Ordered.nanCode_lt h)
    | tap n es => exact Ordered.nanCode_lt h

/-- An overflow gives the largest finite code, or the code that an infinity has (rule R101). -/
theorem NumFmt.overflow_eq (t : NumFmt) (mode : RMode) (sat neg : Bool) :
    ∃ sat', t.overflow mode sat neg = t.round mode false sat' (.inf neg) := by
  have hbig : t.overflow .rn false neg = t.round mode false false (.inf neg) := by cases t <;> rfl
  cases sat with
  | true => exact ⟨true, rfl⟩
  | false =>
    cases mode with
    | rn => exact ⟨false, hbig⟩
    | rz => exact ⟨true, rfl⟩
    | ru =>
      cases neg with
      | true => exact ⟨true, rfl⟩
      | false => exact ⟨false, hbig⟩
    | rd =>
      cases neg with
      | true => exact ⟨false, hbig⟩
      | false => exact ⟨true, rfl⟩

theorem NumFmt.overflow_lt {t : NumFmt} (h : t.Ordered) (mode : RMode) (sat neg : Bool) : t.overflow mode sat neg < 2 ^ t.width := by
  obtain ⟨sat', heq⟩ := t.overflow_eq mode sat neg
  exact heq ▸ round_inf_lt h mode false sat' neg

theorem NumFmt.Ordered.zero_lt {t : NumFmt} (h : t.Ordered) (neg : Bool) : t.zero neg < 2 ^ t.width := by
  cases t with
  | bin b => exact signed_lt h neg (Nat.two_pow_pos _)
  | tap n es => exact Nat.two_pow_pos n

/-- A rounded value's code lies in the format's width. -/
theorem NumFmt.round_lt {t : NumFmt} (h : t.Ordered) (mode : RMode) (fz sat : Bool) (x : FVal) : t.round mode fz sat x < 2 ^ t.width := by
  cases x with
  | nan => exact h.nanCode_lt
  | inf neg => exact round_inf_lt h mode fz sat neg
  | num neg m e =>
    have hover := overflow_lt h mode sat neg
    have hzero := h.zero_lt neg
    have hfinite : ∀ c, ¬ t.maxCode < c → (if neg then 2 ^ (t.width - 1) else 0) + c < 2 ^ t.width :=
      fun c hc => h.signed_lt neg ((not_lt.mp hc).trans_lt h.maxCode_lt)
    unfold round
    dsimp only
    split
    · exact hzero
    · cases t with
      | bin b =>
        dsimp only
        split
        · exact hover
        · split
          · exact hfinite 0 (Nat.not_lt_zero _)
          · exact hfinite _ ‹_›
      | tap n es =>
        dsimp only
        split
        · exact hover
        · split
          · exact Nat.two_pow_pos n
          · exact hfinite _ ‹_›

/-- A result's pattern, read as an operand again. -/
theorem fop_fput (ty : BitVec 4) (mode : RMode) (fz fz' sat : Bool) (x : FVal) :
    fop ty fz (fput ty mode fz' sat x) = flushIn (fltFmt ty.toNat) fz ((fltFmt ty.toNat).decode ((fltFmt ty.toNat).round mode fz' sat x)) := by
  unfold fop fput
  dsimp only
  rw [Nat.mod_eq_of_lt (NumFmt.round_lt (fltFmt_ordered _) _ _ _ _)]

end Sys2Proof.Machine
end

section
/-! Rules R111 and R176 to R178 for floats: RED, SCAN and TOPK. -/

namespace Sys2Proof.Machine

/-- The value of lane `l` that a float RED or SCAN reads. -/
def laneFlt (f : FmtR) (G : Group) (l : Nat) : FVal := fop f.ty (fzOf f) (G.opnd f.sa f.a.toNat (f.ty == 3) l)

/-- Rule R176: the combination of the active lanes over the tree of rule R111. -/
theorem redVal_of_float {f : FmtR} (h : redFcl f = true) (G : Group) (m : Mask) : redVal f G m
    = fput f.ty (modeOf f) (fzOf f) false
      ((treeSum (redFlt f) 6 ((List.range G.w).map (fun l => if inMask m l then some (laneFlt f G l) else none))).getD .nan) := by
  simp only [redVal, h, if_true]
  rfl

/-- Rule R177: the combination, from lane to lane, of the lanes that the scan takes for a lane. -/
theorem scanOut_of_float {f : FmtR} (h : redFcl f = true) (G : Group) (m : Mask) {l : Nat} (hl : l ∈ lanesIn m G.w) :
    Tab.get (scanOut f G m) 0 l = fput f.ty (modeOf f) (fzOf f) false (foldFirst (redFlt f) (scanIdFlt f)
      (((lanesIn m G.w).filter (scanned (redExc f) l)).map (laneFlt f G))) := by
  have hget := get_zip_scanVals (redFlt f) (redExc f) (scanIdFlt f) (laneFlt f G) (fput f.ty (modeOf f) (fzOf f) false)
    (lanesIn_pairwise m G.w) none hl
  rw [foldOnto_none] at hget
  rw [← hget]
  simp only [scanOut, h, if_true]
  rfl

/-- Two values are combined as FADD, FMIN and FMAX combine operands, an FADD being rounded to a pattern and read again. -/
theorem redFlt_eq (f : FmtR) (a b : FVal) : redFlt f a b = match (redRop f).toNat with
    | 0 => fop f.ty (fzOf f) (fput f.ty (modeOf f) (fzOf f) false (fAdd (modeOf f) a b))
    | 1 => fMinMax false a b
    | _ => fMinMax true a b := by
  rw [fop_fput] <;> rfl

/-- The fourth clause of O10 (rules R111 and R176 to R178 for floats) holds. -/
theorem floatReductions : Clause.FloatReductions := by
  unfold Clause.FloatReductions
  intro w v op idv active fold s G p f hc m
  have hop : op f = redFlt f := by funext a b; exact (redFlt_eq f a b).symm
  have hfold : fold f = foldFirst (redFlt f) (scanIdFlt f) := by
    rw [← hop]
    funext ls
    cases ls <;> rfl
  rw [hop, hfold]
  refine ⟨fun hfcl hm _ => ?red, fun hfcl => ?scan, fun hflt hw => ?topk⟩
  case red =>
    have h := redForm.of_lanes hc f (.inr hm)
    rw [shRed_of_float hfcl, redVal_of_float hfcl, hfcl] at h
    exact h
  case scan =>
    have h := scanForm.of_lanes hc f (.inl rfl)
    rw [shRed_of_float hfcl, hfcl] at h
    exact ⟨_, h, fun l hl => scanOut_of_float hfcl G m hl⟩
  case topk =>
    have h := computes_topk hc f hw
    have hval : topkVal f G = fun l => fop f.ty false (G.opnd f.sa f.a.toNat (f.ty == 3) l) := by
      funext l; simp only [topkVal, hflt]; rfl
    simp only [hval, rankOf, hflt, boolNat, decide_eq_true_eq] at h
    exact h

/-- Settles O10: each instruction issues with the writes of its operation, which are, of the active lanes' values, those that its rule gives:
a source lane of the segment, a count or a lowest lane, the exact or the rounded combination, or the number of lanes that rank before. -/
theorem laneInstructions : Obligations.LaneInstructions := ⟨laneExchange, votes, integerReductions, floatReductions⟩

end Sys2Proof.Machine
end

section
/-! Rules R32, R157, R400, R401, R405 and R408: a precise cause of the current split, whatever other splits its group has. Raising it sets
the split to its instruction again and takes the cause, which is one of three: the handler's entry, the wait for a handler bank, or the
group's end. Each clause is then one of the three, in a group of one split or of several. -/

namespace Sys2Proof

/-- What a condition lists of a table stays when a value that fails it takes the place of another that does. -/
theorem Tab.filter_set {α : Type} {t : Tab α} {f : Nat × α → Bool} {k : Nat} {a b : α} (hfind : t.find k = some a)
    (ha : f (k, a) = false) (hb : f (k, b) = false) : (t.set k b).filter f = t.filter f := by
  induction t with
  | nil => cases hfind
  | cons e t ih =>
    obtain ⟨j, c⟩ := e
    simp only [Tab.set]
    split
    · simp [List.filter_cons, hb]
    · split
      case isTrue hkj =>
        subst hkj
        obtain rfl : c = a := by simpa [Tab.find] using hfind
        simp [ha, hb]
      case isFalse hkj =>
        have hrest : Tab.find t k = some a := by simpa [Tab.find, Ne.symm hkj] using hfind
        simp [List.filter_cons, ih hrest]

end Sys2Proof

namespace Sys2Proof.Machine

/-! ### Fields of the trap words -/

theorem fld_w64_of_lt {n : Nat} (h : n < 2 ^ 64) (lo len : Nat) : fld (w64 n) lo len = n / 2 ^ lo % 2 ^ len := by
  simp only [fld, w64, BitVec.toNat_ofNat, Nat.mod_eq_of_lt h, Nat.shiftRight_eq_div_pow]

/-- Rule R401: the fields of `sys.trapcause`. -/
theorem fld_trapWord {q : Cause} (more : Bool) (hcode : q.code < 32) :
    fld (trapWord q more) 59 5 = q.code ∧ fld (trapWord q more) 58 1 = (if q.deferred then 1 else 0)
    ∧ fld (trapWord q more) 57 1 = (if more then 1 else 0) ∧ fld (trapWord q more) 50 6 = q.lane % 64
    ∧ fld (trapWord q more) 0 48 = q.info.toNat := by
  have hinfo := q.info.isLt
  have hsum : q.code * 2 ^ 59 + (if q.deferred then 2 ^ 58 else 0) + (if more then 2 ^ 57 else 0) + q.lane % 64 * 2 ^ 50 + q.info.toNat
      < 2 ^ 64 := by
    split <;> split <;> omega
  simp only [trapWord, at_, fld_w64_of_lt hsum]
  cases q.deferred <;> cases more <;> simp only [if_true, if_false, Bool.false_eq_true] <;> omega

/-- Rule R408: TRAPEND holds the code of the group that ended, and one more end than before. -/
theorem fld_trapend_after (old : W64) {code : Nat} (hcode : code < 32) :
    fld (w64 (at_ code 32 + satAdd (fld old 0 32) 1 32)) 0 32 = min (fld old 0 32 + 1) (2 ^ 32 - 1)
    ∧ fld (w64 (at_ code 32 + satAdd (fld old 0 32) 1 32)) 32 5 = code := by
  have hcount : satAdd (fld old 0 32) 1 32 = min (fld old 0 32 + 1) (2 ^ 32 - 1) := rfl
  have hsum : at_ code 32 + satAdd (fld old 0 32) 1 32 < 2 ^ 64 := by
    rw [hcount]
    unfold at_
    omega
  rw [fld_w64_of_lt hsum, fld_w64_of_lt hsum, hcount]
  unfold at_
  omega

/-! ### A group's splits -/

/-- No other split has the number of `p`. -/
def Apart (p : Split) (others : List Split) : Prop := ∀ q ∈ others, q.id ≠ p.id

theorem updIf_of_apart {p : Split} {before after : List Split} (f : Split → Split) (hapart : Apart p (before ++ after)) :
    updIf (before ++ p :: after) (fun q => q.id == p.id) f = before ++ f p :: after := by
  have hkept : ∀ l : List Split, Apart p l → updIf l (fun q => q.id == p.id) f = l := fun l hl =>
    (List.map_congr_left (g := id) fun q hq => if_neg (by simpa using hl q hq)).trans (List.map_id l)
  have hbefore := hkept before fun q hq => hapart q (List.mem_append_left _ hq)
  have hafter := hkept after fun q hq => hapart q (List.mem_append_right _ hq)
  calc updIf (before ++ p :: after) (fun q => q.id == p.id) f
      = updIf before (fun q => q.id == p.id) f ++ f p :: updIf after (fun q => q.id == p.id) f := by simp [updIf]
    _ = before ++ f p :: after := by rw [hbefore, hafter]

theorem split_of_apart {G : Group} {p : Split} {before after : List Split} (hsplits : G.splits = before ++ p :: after)
    (hapart : Apart p (before ++ after)) : G.split p.id = some p := by
  have hbefore : before.find? (fun q => q.id == p.id) = none :=
    List.find?_eq_none.mpr fun q hq => by simpa using hapart q (by simp [hq])
  simp [Group.split, hsplits, List.find?_append, hbefore]

/-- The current split `p` of the current group, between its other splits, outside run-ahead. -/
structure Current (s : State) (G : Group) (before : List Split) (p : Split) (after : List Split) : Prop where
  here : s.group s.cur.core s.cur.slot = some G
  splits : G.splits = before ++ p :: after
  num : p.id = s.cur.split
  apart : Apart p (before ++ after)
  ahead : G.ra = none

theorem Calm.current {s : State} {G : Group} {p : Split} (h : Calm s G p) : Current s G [] p [] where
  here := h.here
  splits := h.only
  num := h.num
  apart := fun _ hq => absurd hq List.not_mem_nil
  ahead := h.ahead

/-! ### The trap reserve (rule R32) -/

/-- A group outside a handler holds nothing of the trap reserve, before and after a change that leaves it outside one. -/
theorem trapUsed_setGroup {s : State} {c g : Nat} {G H : Group} (hgroup : s.group c g = some G) (hG : G.frame = none)
    (hH : H.frame = none) : ((s.setGroup c g H).core c).trapUsed = (s.core c).trapUsed := by
  have hslots : ((s.core c).slots.set g H).filter (fun e => e.2.inHandler) = (s.core c).slots.filter (fun e => e.2.inHandler) :=
    Tab.filter_set hgroup (by simp [Group.inHandler, hG]) (by simp [Group.inHandler, hH])
  rw [core_setGroup, if_pos rfl]
  unfold Core.trapUsed
  rw [hslots]

/-! ### The three ways to take a cause (rules R405, R408) -/

/-- Rule R408: without a handler to enter, or in one, the group ends. -/
theorem takeCause_ends {s : State} {c g : Nat} {G : Group} (q : Cause) (hgroup : s.group c g = some G)
    (hend : fld (s.part G.part).trapvec 63 1 = 0 ∨ G.frame ≠ none) : s.takeCause c g q = s.trapEnd c g q.code := by
  have hcond : (fld (s.part G.part).trapvec 63 1 == 0 || G.inHandler) = true := by
    simpa [Group.inHandler, Option.isSome_iff_ne_none] using hend
  simp only [State.takeCause, hgroup, hcond, if_true]

theorem trapEnd_of_group {s : State} {c g : Nat} {G : Group} (code : Nat) (hgroup : s.group c g = some G) : s.trapEnd c g code =
    (s.setGroup c g G.kill).updPart G.part (fun P => { P with trapend := w64 (at_ code 32 + satAdd (fld P.trapend 0 32) 1 32) }) := by
  simp only [State.trapEnd, hgroup]

section

variable {s : State} {c g : Nat} {G : Group} (q : Cause) (hgroup : s.group c g = some G) (hvec : fld (s.part G.part).trapvec 63 1 = 1)
  (hframe : G.frame = none)
include hgroup hvec hframe

/-- Rule R405: with W granules of the trap reserve free, the group enters the handler. -/
theorem takeCause_of_room (hroom : (s.core c).trapUsed + G.w ≤ Config.trapGranules) :
    s.takeCause c g q = s.setGroup c g (G.enter (s.part G.part).trapvec q) := by
  simp [State.takeCause, hgroup, hvec, hframe, Group.inHandler, hroom]

/-- Rule R32: with fewer free, the group waits for a handler bank. -/
theorem takeCause_of_no_room (hroom : (s.core c).trapUsed + G.w > Config.trapGranules) : s.takeCause c g q =
    s.setGroup c g (({ G with entry := some q }).updSplit q.split (fun p => { p with stall := 2, wait := .ready, batch := none })) := by
  simp [State.takeCause, hgroup, hvec, hframe, Group.inHandler, Nat.not_le.mpr hroom]

end

/-- A split as it enters the handler at the vector's entry. -/
def Split.entering (p : Split) (vec : W64) : Split :=
  { p with pc := w64 (fld vec 3 54 * 8), am := if p.am = 0 then p.own else p.am, stack := [], word := none
           wait := .ready, waited := false, batch := none, refused := none, stall := 8 }

/-- A group in the handler of the cause `q` of its split `p`. -/
def Group.handling (G : Group) (vec : W64) (q : Cause) (before : List Split) (p : Split) (after : List Split) : Group :=
  { G with
    trapcause := trapWord q (!G.causes.isEmpty), trappc := q.pc, entry := none, regs := { G.regs with h := [] }
    frame := some { split := p.id, pc := p.pc, am := p.am, stack := p.stack, ra := q.ra, refused := if q.deferred then p.refused else none }
    splits := before ++ p.entering vec :: after }

/-- A group whose split `p` waits for a handler bank with the cause `q`. -/
def Group.awaitingBank (G : Group) (q : Cause) (before : List Split) (p : Split) (after : List Split) : Group :=
  { G with
    entry := some q
    splits := before ++ { p with stall := 2, wait := .ready, batch := none } :: after }

theorem enter_eq_handling {G : Group} {p : Split} {before after : List Split} (vec : W64) {q : Cause}
    (hsplits : G.splits = before ++ p :: after) (hapart : Apart p (before ++ after)) (hq : q.split = p.id) :
    G.enter vec q = G.handling vec q before p after := by
  unfold Group.enter
  simp only [hq, split_of_apart hsplits hapart, Group.setSplit, hsplits, updIf_of_apart _ hapart, beq_iff_eq]
  rfl

theorem waiting_eq_awaitingBank {G : Group} {p : Split} {before after : List Split} {q : Cause} (hsplits : G.splits = before ++ p :: after)
    (hapart : Apart p (before ++ after)) (hq : q.split = p.id) :
    ({ G with entry := some q }).updSplit q.split (fun p => { p with stall := 2, wait := .ready, batch := none })
      = G.awaitingBank q before p after := by
  simp only [Group.updSplit, hq, hsplits, updIf_of_apart _ hapart]
  rfl

/-! ### Raising a precise cause (rules R400, R401) -/

/-- A split whose instruction raises a precise cause: what it waited for is forgotten. -/
def Split.raising (p : Split) : Split := { p with batch := none, waited := false }

/-- A group whose split `p` raises a precise cause. -/
def Group.raising (G : Group) (before : List Split) (p : Split) (after : List Split) : Group :=
  { G with splits := before ++ p.raising :: after }

/-- The precise cause of split `p` at its instruction. -/
def preciseCause (p : Split) (code lane info : Nat) : Cause :=
  { code := code, deferred := false, split := p.id, info := BitVec.ofNat 48 info, lane := lane, pc := p.pc
    ra := if code = 11 ∨ code = 12 then p.pc + 8 else p.pc }

theorem raise_eq {s : State} {G : Group} {p : Split} {before after : List Split} (h : Current s G before p after) (code lane info : Nat) :
    s.raise s.cur code lane info =
      (s.setGroup s.cur.core s.cur.slot (G.raising before p after)).takeCause s.cur.core s.cur.slot (preciseCause p code lane info) := by
  have hupd : G.updSplit p.id (fun p => { p with batch := none, waited := false }) = G.raising before p after := by
    simp only [Group.updSplit, h.splits, updIf_of_apart _ h.apart]
    rfl
  unfold State.raise
  simp only [h.here, h.ahead, ← h.num, split_of_apart h.splits h.apart, hupd, Option.isSome_none, Bool.false_eq_true, if_false]
  simp [preciseCause]

/-- Two changes of the current group leave the second. -/
theorem moved_setGroup_setGroup (s : State) (G H : Group) :
    Moved s ((s.setGroup s.cur.core s.cur.slot G).setGroup s.cur.core s.cur.slot H) H :=
  ⟨((OnlySlots.refl s).setGroup G).setGroup H, group_setGroup_same ..⟩

section

variable {s : State} {G : Group} {p : Split} {before after : List Split} (h : Current s G before p after) (code lane info : Nat)
  (hvec : fld (s.part G.part).trapvec 63 1 = 1) (hframe : G.frame = none)
include h hvec hframe

/-- Rules R32 and R405: with room in the trap reserve, the current split enters the handler. -/
theorem moved_raise_of_room (hroom : (s.core s.cur.core).trapUsed + G.w ≤ Config.trapGranules) :
    Moved s (s.raise s.cur code lane info)
      (G.handling (s.part G.part).trapvec (preciseCause p code lane info) before p after) := by
  rw [← trapUsed_setGroup (H := G.raising before p after) h.here hframe hframe] at hroom
  rw [raise_eq h, takeCause_of_room (G := G.raising before p after) _ (group_setGroup_same ..) hvec hframe hroom,
    enter_eq_handling (p := p.raising) _ rfl h.apart rfl]
  exact moved_setGroup_setGroup ..

/-- Rule R32: without room in the trap reserve, the group waits for a handler bank with the cause. -/
theorem moved_raise_of_no_room (hroom : (s.core s.cur.core).trapUsed + G.w > Config.trapGranules) :
    Moved s (s.raise s.cur code lane info) (G.awaitingBank (preciseCause p code lane info) before p.raising after) := by
  rw [← trapUsed_setGroup (H := G.raising before p after) h.here hframe hframe] at hroom
  rw [raise_eq h, takeCause_of_no_room (G := G.raising before p after) _ (group_setGroup_same ..) hvec hframe hroom,
    waiting_eq_awaitingBank (p := p.raising) rfl h.apart rfl]
  exact moved_setGroup_setGroup ..

end

/-! ### The clauses -/

theorem takeException : Clause.TakeException := by
  intro s G p code lane info h hcode hframe vec t resume hvec
  constructor
  · intro hroom
    obtain ⟨hfcode, hdeferred, hmore, hlane, hinfo⟩ := fld_trapWord (q := preciseCause p code lane info) (!G.causes.isEmpty) hcode
    refine ⟨_, hfcode, hdeferred, ?_, hlane, ?_, moved_raise_of_room h.current code lane info hvec hframe hroom⟩
    · simpa using hmore
    · exact hinfo.trans (BitVec.toNat_ofNat _ _)
  · intro hroom
    have hmoved := moved_raise_of_no_room h.current code lane info hvec hframe hroom
    unfold Group.awaitingBank Split.raising at hmoved
    rw [h.answered] at hmoved
    exact hmoved

/-- Rules R157 and R167: while a split runs a handler, another does not run, and its state code is that of a held split. -/
theorem held_of_frame {G : Group} {q : Split} {fr : Frame} (hframe : G.frame = some fr) (hother : q.id ≠ fr.split) :
    G.mayRun q = false ∧ G.stateCode q = some 1 := by
  simp [Group.mayRun, Group.stateCode, hframe, Ne.symm hother]

/-- Rule R167: a split that has not issued in this cycle has the code of its state, where there is one. -/
theorem stallCode_of_stateCode {s : State} {c g code : Nat} {G : Group} {q : Split} (hstate : G.stateCode q = some code)
    (hstalled : q.stall ≠ 0 ∨ q.since ≠ s.cycle) : s.stallCode c g G q = code := by
  have hnot : (q.stall == 0 && q.since == s.cycle) = false := by
    simpa [Decidable.imp_iff_not_or] using hstalled
  simp [State.stallCode, hnot, hstate]

theorem othersHeld : Clause.OthersHeld := by
  intro s G p before after code lane info hhere hsplits hnum hapart hahead hcode hframe hentry hroom vec hvec
  have hmoved := moved_raise_of_room ⟨hhere, hsplits, hnum, hapart, hahead⟩ code lane info hvec hframe hroom
  have hcycle : (s.raise s.cur code lane info).cycle = s.cycle := by rw [hmoved.only.rest]
  refine ⟨_, hmoved, rfl, ⟨_, rfl, rfl, rfl, rfl, rfl⟩, fun q hq => ?_⟩
  obtain ⟨hrun, hstate⟩ := held_of_frame (G := G.handling vec (preciseCause p code lane info) before p after) rfl (hapart q hq)
  exact ⟨hrun, fun hstalled => stallCode_of_stateCode hstate (hcycle ▸ hstalled)⟩

/-- Rule R408: of a group of one split, a precise cause that has no handler leaves the group ending and TRAPEND counting it. -/
theorem raise_of_end {s : State} {G : Group} {p : Split} (h : Calm s G p) (code lane info : Nat)
    (hend : fld (s.part G.part).trapvec 63 1 = 0 ∨ G.frame ≠ none) : s.raise s.cur code lane info =
      ((s.setGroup s.cur.core s.cur.slot (G.raising [] p [])).setGroup s.cur.core s.cur.slot G.kill).updPart G.part (fun P =>
        { P with trapend := w64 (at_ code 32 + satAdd (fld P.trapend 0 32) 1 32) }) := by
  rw [raise_eq h.current, takeCause_ends (G := G.raising [] p []) _ (group_setGroup_same ..) hend, trapEnd_of_group _ (group_setGroup_same ..)]
  rfl

theorem endWithoutHandler : Clause.EndWithoutHandler := by
  intro s G p code lane info h hcode hend t old
  have hraise := raise_of_end h code lane info hend
  have hmoved := moved_setGroup_setGroup s (G.raising [] p []) G.kill
  have hpart : (t.part G.part).trapend = w64 (at_ code 32 + satAdd (fld old 0 32) 1 32) := by
    simp only [t, hraise, part_updPart, if_true]
    rfl
  have hkill : G.kill = { G with splits := [], frame := none, entry := none, causes := [], ending := true } := by
    unfold Group.kill
    rw [← h.ahead]
  obtain ⟨hcount, hlast⟩ := fld_trapend_after old hcode
  refine ⟨?_, fun c g hne => ?_, ?_, hpart ▸ hcount, hpart ▸ hlast⟩
  · simp only [t, hraise]
    exact hmoved.group.trans (congrArg some hkill)
  · simp only [t, hraise]
    exact hmoved.only.others c g hne
  · simp only [t, hraise]
    rfl

/-- Settles O12: a precise cause is taken in one of three ways, by TRAPVEC.V, the group's frame and the trap reserve: its split enters the
handler, which holds the other splits, or the group waits for a bank, or the group ends and is counted. -/
theorem exceptionEntry : Obligations.ExceptionEntry :=
  ⟨takeException, othersHeld, endWithoutHandler⟩

end Sys2Proof.Machine
end
